-- ==== Sys2Proof/Word.lean ====
section
/-!
DEFINITION. The machine's words (R6, R9, R16) and the names that the instruction type carries:
the header every word has (R9), the code streams of R51, and the parties that issue words.
-/

namespace Sys2Proof

/-- One byte. -/
abbrev Byte := BitVec 8
/-- A 32-bit register or instruction word (R9, R16). -/
abbrev Word := BitVec 32
/-- A 64-bit register pair, address or counter (R17). -/
abbrev Word64 := BitVec 64
/-- One bit per lane of a team: bit l is `%lane` l, 0 to 1,023 (R81, R199). -/
abbrev LaneMask := BitVec 1024

/-- The fields every instruction word carries beside its operands (R9): the sequencing code and the B mark. -/
structure Hdr where
  /-- SEQ, bits [25:22] (R25). -/
  seq : BitVec 4
  /-- B, bit [21] (R12, R50). -/
  b : Bool
  deriving DecidableEq, Repr

/-- The party that issues words: a team of a task, the lead slice of that team (R160), the prologue of a
context's launch (R351), or the steward of a die (R51, R177). -/
inductive Party where
  | team (task ord : Nat)
  | lead (task ord : Nat)
  | prologue (ctx : Nat)
  | steward (die : Nat)
  deriving DecidableEq, Repr

/-- The part of an H-die whose errors ask for the die's replacement (R453): an L3 slice or an HBM4 stack of the device. -/
inductive DiePart where
  | slice (n : Nat)
  | stack (n : Nat)
  deriving DecidableEq, Repr

/-- The code streams of R51. -/
inductive Stream where
  /-- Kernel code: a follow slice, or a role without a lead slice. -/
  | kernel
  /-- A lead slice (R160). -/
  | lead
  /-- A prologue (R351). -/
  | prologue
  /-- Steward code (R176). -/
  | steward
  deriving DecidableEq, Repr

end Sys2Proof
end

