-- ==== Sys2Proof/Syntax.lean ====
section
/-!
DEFINITION. The instruction type: one constructor for each row of the table of operations and events
(spec/opcode_table.json). The first 188 rows are instruction words, whose operand fields stay as the word
lays them out (R13, R16, R18); the others are the part's events, whose arguments name the party or unit they
act on and carry what comes from outside (a register's written value, a message's body) or is left to the
device (a task id, a plate's place). `illegalOp` is the word of R40 that no row assigns.
-/

namespace Sys2Proof

/-- A step of the device: an instruction word, or an event. -/
inductive Instr where
  /-- NOP (R73): Does nothing of its own; its SEQ code then acts. -/
  | nop (h : Hdr)
  /-- JMOV (R74): Copies a uniform register pair into sequence slot S. -/
  | jmov (h : Hdr) (j : BitVec 2) (a : BitVec 7)
  /-- JGET (R74): Copies sequence slot S into a uniform register pair. -/
  | jget (h : Hdr) (d : BitVec 7) (j : BitVec 2)
  /-- LSET (R75): Opens a counted loop whose count comes from a uniform register; a count of 0 goes to j1. -/
  | lset (h : Hdr) (a : BitVec 7)
  /-- LSET_IMM (R75): Opens a counted loop with an immediate count of 0 to 16,383; a count of 0 goes to j1. -/
  | lsetImm (h : Hdr) (n : BitVec 14)
  /-- LBRK (R76): Pops the innermost loop entry and restores lc and lh from the entry beneath. -/
  | lbrk (h : Hdr)
  /-- MSET_LO (R77): Writes md[11:0] (guard, type, rounding, saturation) after checking the value under R22. -/
  | msetLo (h : Hdr) (v : BitVec 12)
  /-- MSET_FL (R77): Writes the twelve flush bits md[23:12]. -/
  | msetFl (h : Hdr) (v : BitVec 12)
  /-- MSET_HI (R77): Writes md[31:24] (abs, red, bp) after checking the reserved bits. -/
  | msetHi (h : Hdr) (v : BitVec 8)
  /-- MPUT (R78): Sets md from a uniform register, checked under R22. -/
  | mput (h : Hdr) (a : BitVec 7)
  /-- MGET (R78): Writes the current md to a register. -/
  | mget (h : Hdr) (d : BitVec 7)
  /-- TILE (R80): Writes the tile width field tw.lw. -/
  | tile (h : Hdr) (w : BitVec 3)
  /-- SREG (R81): Reads one special value such as %lane, %team or %grid into a register. -/
  | sreg (h : Hdr) (d : BitVec 7) (n : BitVec 7)
  /-- RDLANE (R82): Copies a register of the lowest active lane into a uniform register. -/
  | rdlane (h : Hdr) (d : BitVec 7) (a : BitVec 7)
  /-- JSET (R71): Writes sequence slot S with the instruction address plus 4 times imm19. -/
  | jset (h : Hdr) (j : BitVec 2) (i : BitVec 19)
  /-- MOVI (R83): Sets a register to the sign-extended imm14. -/
  | movi (h : Hdr) (d : BitVec 7) (i : BitVec 14)
  /-- MOVHI (R83): Shifts a register up by 14 bits and fills the low bits with the unsigned imm14. -/
  | movhi (h : Hdr) (d : BitVec 7) (i : BitVec 14)
  /-- IADDI (R84): Adds a sign-extended imm7 to a register, wrapping. -/
  | iaddi (h : Hdr) (d : BitVec 7) (a : BitVec 7) (i : BitVec 7)
  /-- MOV (R89): Copies register A to D. -/
  | mov (h : Hdr) (d : BitVec 7) (a : BitVec 7)
  /-- POPC (R89): Counts the 1 bits of A. -/
  | popc (h : Hdr) (d : BitVec 7) (a : BitVec 7)
  /-- CLZ (R89): Counts the leading zero bits of A. -/
  | clz (h : Hdr) (d : BitVec 7) (a : BitVec 7)
  /-- CTZ (R89): Counts the trailing zero bits of A. -/
  | ctz (h : Hdr) (d : BitVec 7) (a : BitVec 7)
  /-- BREV (R89): Reverses the bits of A. -/
  | brev (h : Hdr) (d : BitVec 7) (a : BitVec 7)
  /-- PAND (R92): Writes the AND of two predicates. -/
  | pand (h : Hdr) (d : BitVec 4) (a : BitVec 4) (c : BitVec 4)
  /-- POR (R92): Writes the OR of two predicates. -/
  | por (h : Hdr) (d : BitVec 4) (a : BitVec 4) (c : BitVec 4)
  /-- PXOR (R92): Writes the exclusive-or of two predicates. -/
  | pxor (h : Hdr) (d : BitVec 4) (a : BitVec 4) (c : BitVec 4)
  /-- PNOT (R92): Writes the negation of a predicate. -/
  | pnot (h : Hdr) (d : BitVec 4) (a : BitVec 4)
  /-- PSET (R92): Sets a predicate true where a register is non-zero. -/
  | pset (h : Hdr) (d : BitVec 4) (a : BitVec 7)
  /-- PGET (R92): Writes 1 or 0 to a register from a predicate. -/
  | pget (h : Hdr) (d : BitVec 7) (p : BitVec 4)
  /-- LD_B32 (R125): Loads 4 bytes from global memory in each lane that takes part. -/
  | ldB32 (h : Hdr) (d : BitVec 7) (a : BitVec 7) (o : BitVec 7)
  /-- LD_B64 (R125): Loads 8 bytes from global memory into a pair. -/
  | ldB64 (h : Hdr) (d : BitVec 7) (a : BitVec 7) (o : BitVec 7)
  /-- ST_B32 (R125): Stores 4 bytes to global memory in each lane that takes part. -/
  | stB32 (h : Hdr) (d : BitVec 7) (a : BitVec 7) (o : BitVec 7)
  /-- ST_B64 (R125): Stores a pair to global memory. -/
  | stB64 (h : Hdr) (d : BitVec 7) (a : BitVec 7) (o : BitVec 7)
  /-- LDS_B32 (R125): Loads 4 bytes from the cohort's own scratchpad. -/
  | ldsB32 (h : Hdr) (d : BitVec 7) (a : BitVec 7) (o : BitVec 7)
  /-- STS_B32 (R125): Stores 4 bytes to the cohort's own scratchpad. -/
  | stsB32 (h : Hdr) (d : BitVec 7) (a : BitVec 7) (o : BitVec 7)
  /-- LD_ACQ_B32 (R126): Global 32-bit load with acquire at the encoded scope. -/
  | ldAcqB32 (h : Hdr) (c : BitVec 3) (d : BitVec 7) (a : BitVec 7)
  /-- LD_SC_B32 (R126): Global 32-bit load with sc order at the encoded scope. -/
  | ldScB32 (h : Hdr) (c : BitVec 3) (d : BitVec 7) (a : BitVec 7)
  /-- LD_ACQ_B64 (R126): Global 64-bit load with acquire at the encoded scope. -/
  | ldAcqB64 (h : Hdr) (c : BitVec 3) (d : BitVec 7) (a : BitVec 7)
  /-- LD_SC_B64 (R126): Global 64-bit load with sc order at the encoded scope. -/
  | ldScB64 (h : Hdr) (c : BitVec 3) (d : BitVec 7) (a : BitVec 7)
  /-- LDS_ACQ (R126): 32-bit scratchpad or gang load with acquire at the encoded scope. -/
  | ldsAcq (h : Hdr) (c : BitVec 3) (d : BitVec 7) (a : BitVec 7)
  /-- LDS_SC (R126): 32-bit scratchpad or gang load with sc order; a commit point at .dev or .sys. -/
  | ldsSc (h : Hdr) (c : BitVec 3) (d : BitVec 7) (a : BitVec 7)
  /-- ST_REL_B32 (R126): Global 32-bit store with release; a commit point at .dev or .sys. -/
  | stRelB32 (h : Hdr) (c : BitVec 3) (d : BitVec 7) (a : BitVec 7)
  /-- ST_SC_B32 (R126): Global 32-bit store with sc order; a commit point at .dev or .sys. -/
  | stScB32 (h : Hdr) (c : BitVec 3) (d : BitVec 7) (a : BitVec 7)
  /-- ST_REL_B64 (R126): Global 64-bit store with release; a commit point at .dev or .sys. -/
  | stRelB64 (h : Hdr) (c : BitVec 3) (d : BitVec 7) (a : BitVec 7)
  /-- ST_SC_B64 (R126): Global 64-bit store with sc order; a commit point at .dev or .sys. -/
  | stScB64 (h : Hdr) (c : BitVec 3) (d : BitVec 7) (a : BitVec 7)
  /-- STS_REL (R126): 32-bit scratchpad or gang store with release at the encoded scope. -/
  | stsRel (h : Hdr) (c : BitVec 3) (d : BitVec 7) (a : BitVec 7)
  /-- STS_SC (R126): 32-bit scratchpad or gang store with sc order at the encoded scope. -/
  | stsSc (h : Hdr) (c : BitVec 3) (d : BitVec 7) (a : BitVec 7)
  /-- LD_B8 (R125): Global byte load, zero-extended. -/
  | ldB8 (h : Hdr) (d : BitVec 7) (a : BitVec 7)
  /-- LD_B16 (R125): Global halfword load, zero-extended. -/
  | ldB16 (h : Hdr) (d : BitVec 7) (a : BitVec 7)
  /-- LD_S8 (R125): Global byte load, sign-extended. -/
  | ldS8 (h : Hdr) (d : BitVec 7) (a : BitVec 7)
  /-- LD_S16 (R125): Global halfword load, sign-extended. -/
  | ldS16 (h : Hdr) (d : BitVec 7) (a : BitVec 7)
  /-- ST_B8 (R125): Global byte store. -/
  | stB8 (h : Hdr) (d : BitVec 7) (a : BitVec 7)
  /-- ST_B16 (R125): Global halfword store. -/
  | stB16 (h : Hdr) (d : BitVec 7) (a : BitVec 7)
  /-- LDS_B8 (R125): Own-scratchpad byte load, zero-extended. -/
  | ldsB8 (h : Hdr) (d : BitVec 7) (a : BitVec 7)
  /-- LDS_B16 (R125): Own-scratchpad halfword load, zero-extended. -/
  | ldsB16 (h : Hdr) (d : BitVec 7) (a : BitVec 7)
  /-- LDS_S8 (R125): Own-scratchpad byte load, sign-extended. -/
  | ldsS8 (h : Hdr) (d : BitVec 7) (a : BitVec 7)
  /-- LDS_S16 (R125): Own-scratchpad halfword load, sign-extended. -/
  | ldsS16 (h : Hdr) (d : BitVec 7) (a : BitVec 7)
  /-- STS_B8 (R125): Own-scratchpad byte store. -/
  | stsB8 (h : Hdr) (d : BitVec 7) (a : BitVec 7)
  /-- STS_B16 (R125): Own-scratchpad halfword store. -/
  | stsB16 (h : Hdr) (d : BitVec 7) (a : BitVec 7)
  /-- LDS_B64 (R125): Own-scratchpad 8-byte load into a pair. -/
  | ldsB64 (h : Hdr) (d : BitVec 7) (a : BitVec 7)
  /-- STS_B64 (R125): Own-scratchpad 8-byte store from a pair. -/
  | stsB64 (h : Hdr) (d : BitVec 7) (a : BitVec 7)
  /-- LDK_B32 (R127): Loads 4 bytes once for the team into a uniform register. -/
  | ldkB32 (h : Hdr) (d : BitVec 7) (a : BitVec 7)
  /-- LDK_B64 (R127): Loads 8 bytes once for the team into a uniform pair. -/
  | ldkB64 (h : Hdr) (d : BitVec 7) (a : BitVec 7)
  /-- STK_B32 (R127): Stores a uniform register once for the team. -/
  | stkB32 (h : Hdr) (d : BitVec 7) (a : BitVec 7)
  /-- STK_B64 (R127): Stores a uniform pair once for the team. -/
  | stkB64 (h : Hdr) (d : BitVec 7) (a : BitVec 7)
  /-- LDR (R125): 32-bit load through a gang scratchpad address. -/
  | ldr (h : Hdr) (d : BitVec 7) (a : BitVec 7)
  /-- STR (R125): 32-bit store through a gang scratchpad address. -/
  | str (h : Hdr) (d : BitVec 7) (a : BitVec 7)
  /-- LDARG_B8 (R128): Reads a byte of the launch's argument copy. -/
  | ldargB8 (h : Hdr) (d : BitVec 7) (a : BitVec 7)
  /-- LDARG_B16 (R128): Reads a halfword of the launch's argument copy. -/
  | ldargB16 (h : Hdr) (d : BitVec 7) (a : BitVec 7)
  /-- LDARG_B32 (R128): Reads a word of the launch's argument copy. -/
  | ldargB32 (h : Hdr) (d : BitVec 7) (a : BitVec 7)
  /-- LDARG_B64 (R128): Reads 8 bytes of the launch's argument copy into a pair. -/
  | ldargB64 (h : Hdr) (d : BitVec 7) (a : BitVec 7)
  /-- IADD (R85): Adds two registers modulo 2^32. -/
  | iadd (h : Hdr) (d : BitVec 7) (a : BitVec 7) (c : BitVec 7)
  /-- ISUB (R85): Subtracts two registers modulo 2^32. -/
  | isub (h : Hdr) (d : BitVec 7) (a : BitVec 7) (c : BitVec 7)
  /-- IMUL (R85): Writes the low 32 bits of a product. -/
  | imul (h : Hdr) (d : BitVec 7) (a : BitVec 7) (c : BitVec 7)
  /-- IMULH (R85): Writes the high 32 bits of the unsigned product. -/
  | imulh (h : Hdr) (d : BitVec 7) (a : BitVec 7) (c : BitVec 7)
  /-- AND (R85): Bitwise AND. -/
  | andB (h : Hdr) (d : BitVec 7) (a : BitVec 7) (c : BitVec 7)
  /-- OR (R85): Bitwise OR. -/
  | orB (h : Hdr) (d : BitVec 7) (a : BitVec 7) (c : BitVec 7)
  /-- XOR (R85): Bitwise exclusive-or. -/
  | xorB (h : Hdr) (d : BitVec 7) (a : BitVec 7) (c : BitVec 7)
  /-- ANDN (R85): Bitwise A AND NOT C. -/
  | andnB (h : Hdr) (d : BitVec 7) (a : BitVec 7) (c : BitVec 7)
  /-- SHL (R86): Shifts left by C AND 0xFF. -/
  | shl (h : Hdr) (d : BitVec 7) (a : BitVec 7) (c : BitVec 7)
  /-- SHR (R86): Shifts right logically by C AND 0xFF. -/
  | shr (h : Hdr) (d : BitVec 7) (a : BitVec 7) (c : BitVec 7)
  /-- SAR (R86): Shifts right arithmetically by C AND 0xFF. -/
  | sar (h : Hdr) (d : BitVec 7) (a : BitVec 7) (c : BitVec 7)
  /-- ROT (R86): Rotates left by C AND 31. -/
  | rot (h : Hdr) (d : BitVec 7) (a : BitVec 7) (c : BitVec 7)
  /-- BFX (R87): Extracts a bit field, optionally sign-extended. -/
  | bfx (h : Hdr) (d : BitVec 7) (a : BitVec 7) (c : BitVec 7)
  /-- BFI (R87): Inserts a bit field into D. -/
  | bfi (h : Hdr) (d : BitVec 7) (a : BitVec 7) (c : BitVec 7)
  /-- SEL (R88): Chooses A or C by the branch predicate. -/
  | sel (h : Hdr) (d : BitVec 7) (a : BitVec 7) (c : BitVec 7)
  /-- LEA (R90): Adds a sign-extended 32-bit offset to a 64-bit pair. -/
  | lea (h : Hdr) (d : BitVec 7) (a : BitVec 7) (c : BitVec 7)
  /-- ADD64 (R90): Adds two pairs modulo 2^64. -/
  | add64 (h : Hdr) (d : BitVec 7) (a : BitVec 7) (c : BitVec 7)
  /-- SUB64 (R90): Subtracts two pairs modulo 2^64. -/
  | sub64 (h : Hdr) (d : BitVec 7) (a : BitVec 7) (c : BitVec 7)
  /-- SHL64 (R90): Shifts a pair left by 0 to 63. -/
  | shl64 (h : Hdr) (d : BitVec 7) (a : BitVec 7) (n : BitVec 6)
  /-- SHR64 (R90): Shifts a pair right logically by 0 to 63. -/
  | shr64 (h : Hdr) (d : BitVec 7) (a : BitVec 7) (n : BitVec 6)
  /-- ICMP (R91): Signed 32-bit compare into a predicate. -/
  | icmp (h : Hdr) (p : BitVec 4) (k : BitVec 3) (a : BitVec 7) (c : BitVec 7)
  /-- UCMP (R91): Unsigned 32-bit compare into a predicate. -/
  | ucmp (h : Hdr) (p : BitVec 4) (k : BitVec 3) (a : BitVec 7) (c : BitVec 7)
  /-- ADD (R98): Typed element-wise addition under md. -/
  | addT (h : Hdr) (d : BitVec 7) (a : BitVec 7) (c : BitVec 7)
  /-- SUB (R98): Typed element-wise subtraction under md. -/
  | subT (h : Hdr) (d : BitVec 7) (a : BitVec 7) (c : BitVec 7)
  /-- MUL (R98): Typed element-wise multiplication under md. -/
  | mulT (h : Hdr) (d : BitVec 7) (a : BitVec 7) (c : BitVec 7)
  /-- MIN (R99): Typed element-wise minimum. -/
  | minT (h : Hdr) (d : BitVec 7) (a : BitVec 7) (c : BitVec 7)
  /-- MAX (R99): Typed element-wise maximum. -/
  | maxT (h : Hdr) (d : BitVec 7) (a : BitVec 7) (c : BitVec 7)
  /-- DIV (R100): Typed element-wise division. -/
  | divT (h : Hdr) (d : BitVec 7) (a : BitVec 7) (c : BitVec 7)
  /-- DOT (R102): Packed dot product accumulated into D with one rounding. -/
  | dot (h : Hdr) (d : BitVec 7) (a : BitVec 7) (c : BitVec 7)
  /-- FCMP (R106): Typed compare, true where the condition holds in every element. -/
  | fcmp (h : Hdr) (p : BitVec 4) (k : BitVec 3) (a : BitVec 7) (c : BitVec 7)
  /-- CLASS (R107): Tests every element against a class mask. -/
  | classify (h : Hdr) (p : BitVec 4) (a : BitVec 7) (m : BitVec 7)
  /-- ABS (R105): Typed absolute value. -/
  | absT (h : Hdr) (d : BitVec 7) (a : BitVec 7)
  /-- NEG (R105): Typed negation. -/
  | negT (h : Hdr) (d : BitVec 7) (a : BitVec 7)
  /-- SQRT (R104): Correctly rounded square root. -/
  | sqrt (h : Hdr) (d : BitVec 7) (a : BitVec 7)
  /-- RCP (R104): Correctly rounded reciprocal. -/
  | rcp (h : Hdr) (d : BitVec 7) (a : BitVec 7)
  /-- RSQ (R104): Correctly rounded reciprocal square root. -/
  | rsq (h : Hdr) (d : BitVec 7) (a : BitVec 7)
  /-- EXP2 (R104): Correctly rounded 2^A. -/
  | exp2 (h : Hdr) (d : BitVec 7) (a : BitVec 7)
  /-- LOG2 (R104): Correctly rounded base-2 logarithm. -/
  | log2 (h : Hdr) (d : BitVec 7) (a : BitVec 7)
  /-- SINPI (R104): Correctly rounded sin(pi*A). -/
  | sinpi (h : Hdr) (d : BitVec 7) (a : BitVec 7)
  /-- COSPI (R104): Correctly rounded cos(pi*A). -/
  | cospi (h : Hdr) (d : BitVec 7) (a : BitVec 7)
  /-- MKABS (R105): Writes the absent code where the branch predicate holds, and A elsewhere. -/
  | mkabs (h : Hdr) (d : BitVec 7) (a : BitVec 7)
  /-- FMA (R101): Fused A*C+D with one rounding. -/
  | fma (h : Hdr) (d : BitVec 7) (a : BitVec 7) (c : BitVec 7)
  /-- FMA_N (R101): Fused D-A*C with one rounding. -/
  | fmaN (h : Hdr) (d : BitVec 7) (a : BitVec 7) (c : BitVec 7)
  /-- CVT (R108): Converts from the minor's source type to md.type over register spans. -/
  | cvt (h : Hdr) (d : BitVec 7) (a : BitVec 7) (t : BitVec 4)
  /-- CVTMX (R111): Quantises one tile of lanes into a scaled block. -/
  | cvtmx (h : Hdr) (d : BitVec 7) (a : BitVec 7)
  /-- CVTMX_H16 (R111): Hadamard-16 transform, then E2M1 block quantisation. -/
  | cvtmxH16 (h : Hdr) (d : BitVec 7) (a : BitVec 7)
  /-- CVTMX_H32 (R111): Hadamard-32 transform, then E2M1 block quantisation. -/
  | cvtmxH32 (h : Hdr) (d : BitVec 7) (a : BitVec 7)
  /-- PACK (R110): Packs low bits of consecutive registers into one. -/
  | pack (h : Hdr) (d : BitVec 7) (a : BitVec 7)
  /-- UNPACK (R110): Unpacks elements of one register into consecutive registers. -/
  | unpack (h : Hdr) (d : BitVec 7) (a : BitVec 7)
  /-- VOTE_ANY (R114): True where the predicate holds in any lane of the tile that takes part. -/
  | voteAny (h : Hdr) (p : BitVec 4) (q : BitVec 4)
  /-- VOTE_ALL (R114): True where the predicate holds in all lanes that take part. -/
  | voteAll (h : Hdr) (p : BitVec 4) (q : BitVec 4)
  /-- VOTE_BALLOT (R114): Writes the tile's ballot mask of the predicate. -/
  | voteBallot (h : Hdr) (d : BitVec 7) (q : BitVec 4)
  /-- VOTE_UNI (R114): True where the predicate has one value over the lanes that take part. -/
  | voteUni (h : Hdr) (p : BitVec 4) (q : BitVec 4)
  /-- TRED (R116): Combines the tile along the fixed binary tree. -/
  | tred (h : Hdr) (d : BitVec 7) (a : BitVec 7) (o : BitVec 3)
  /-- SCAN (R117): Inclusive scan in ascending position within the tile. -/
  | scan (h : Hdr) (d : BitVec 7) (a : BitVec 7) (o : BitVec 2)
  /-- MATCH (R115): Writes the mask of tile lanes holding an equal value. -/
  | matchLanes (h : Hdr) (d : BitVec 7) (a : BitVec 7)
  /-- ELECT (R115): Elects the lowest lane that takes part with the predicate true. -/
  | elect (h : Hdr) (p : BitVec 4) (q : BitVec 4)
  /-- CNTP (R115): Writes the exclusive prefix count of the predicate. -/
  | cntp (h : Hdr) (d : BitVec 7) (q : BitVec 4)
  /-- SHFL (R118): Copies a register from a source lane of the same tile. -/
  | shfl (h : Hdr) (d : BitVec 7) (a : BitVec 7) (m : BitVec 2) (n : BitVec 5)
  /-- WAIT (R131): Holds the team until the four counters fall to their bounds. -/
  | wait (h : Hdr) (l : BitVec 5) (e : BitVec 5) (p : BitVec 5) (t : BitVec 6)
  /-- FENCE (R140): Orders the team's accesses at a scope; a release-side fence at .dev or .sys is a commit point. -/
  | fence (h : Hdr) (o : BitVec 3) (c : BitVec 3)
  /-- VCOMMIT (R141): Explicit commit point of the task. -/
  | vcommit (h : Hdr)
  /-- PARK (R142): Reads a word with acquire and parks until its condition is observed. -/
  | park (h : Hdr) (k : BitVec 2) (n : BitVec 2) (a : BitVec 5) (c : BitVec 5)
  /-- BARARR (R143): Arrives at a named barrier and continues. -/
  | bararr (h : Hdr) (i : BitVec 4) (n : BitVec 4)
  /-- BARWAIT (R143): Arrives at a named barrier and waits for the phase to complete. -/
  | barwait (h : Hdr) (i : BitVec 4) (n : BitVec 4)
  /-- GBAR (R144): Arrives and waits at a gang barrier. -/
  | gbar (h : Hdr) (i : BitVec 2)
  /-- TXB_COH (R136): Opens a scratchpad transaction in the lanes that take part. -/
  | txbCoh (h : Hdr)
  /-- TXB_DEV (R136): Opens a global transaction, requesting the ticket for a lane with 8 or more aborts. -/
  | txbDev (h : Hdr)
  /-- TXE (R137): Resolves, validates and commits or aborts each lane of the transaction. -/
  | txe (h : Hdr) (p : BitVec 4) (d : BitVec 7)
  /-- TXA (R136): Dooms the lanes that take part with EXPLICIT and a code. -/
  | txa (h : Hdr) (c : BitVec 8)
  /-- PREF (R145): Brings a line toward L1 or L3. -/
  | pref (h : Hdr) (a : BitVec 7) (l : BitVec 3)
  /-- CCTL (R145): Evicts a line from L1 or writes its committed content back to HBM4. -/
  | cctl (h : Hdr) (a : BitVec 7) (o : BitVec 3)
  /-- ATOM_SCRATCHPAD (R133): Scratchpad atomic or cas with an order, aggregated per group. -/
  | atomScratchpad (h : Hdr) (d : BitVec 7) (a : BitVec 7) (o : BitVec 4) (r : BitVec 3)
  /-- ATOM_RLX (R133): Relaxed global atomic or cas at a scope. -/
  | atomRlx (h : Hdr) (d : BitVec 7) (a : BitVec 7) (o : BitVec 4) (c : BitVec 3)
  /-- ATOM_ACQ (R133): Global atomic or cas with acquire. -/
  | atomAcq (h : Hdr) (d : BitVec 7) (a : BitVec 7) (o : BitVec 4) (c : BitVec 3)
  /-- ATOM_REL (R133): Global atomic or cas with release. -/
  | atomRel (h : Hdr) (d : BitVec 7) (a : BitVec 7) (o : BitVec 4) (c : BitVec 3)
  /-- ATOM_AR (R133): Global atomic or cas with acquire and release. -/
  | atomAr (h : Hdr) (d : BitVec 7) (a : BitVec 7) (o : BitVec 4) (c : BitVec 3)
  /-- ATOM_SC (R133): Global atomic or cas with sc order. -/
  | atomSc (h : Hdr) (d : BitVec 7) (a : BitVec 7) (o : BitVec 4) (c : BitVec 3)
  /-- MRED_ADD (R134): Buffers an integer add delta in the task's version. -/
  | mredAdd (h : Hdr) (d : BitVec 7) (a : BitVec 7) (c : BitVec 3)
  /-- MRED_ADD_REL (R134): Release mred.add, a commit point at .dev or .sys. -/
  | mredAddRel (h : Hdr) (d : BitVec 7) (a : BitVec 7) (c : BitVec 3)
  /-- MRED_FADD (R134): Buffers an f32 add delta in the task's version. -/
  | mredFadd (h : Hdr) (d : BitVec 7) (a : BitVec 7) (c : BitVec 3)
  /-- MRED_FADD_REL (R134): Release mred.fadd, a commit point at .dev or .sys. -/
  | mredFaddRel (h : Hdr) (d : BitVec 7) (a : BitVec 7) (c : BitVec 3)
  /-- TCOPY (R152): Reads a tensor copy descriptor, registers its ranges and queues the copy. -/
  | tcopy (h : Hdr) (a : BitVec 7) (p : BitVec 1)
  /-- CHAIN (R153): Reads a chain descriptor and queues the element-wise operation list. -/
  | chain (h : Hdr) (a : BitVec 7) (p : BitVec 1)
  /-- OBRES (R158): Reserves an OB record and a run of granules for the cohort. -/
  | obres (h : Hdr) (n : BitVec 5) (c : BitVec 5)
  /-- OBSET (R158): Writes the format words of a held OB record. -/
  | obset (h : Hdr) (n : BitVec 5) (a : BitVec 5)
  /-- OBREL (R158): Frees an OB record and its granules once its users complete. -/
  | obrel (h : Hdr) (n : BitVec 5)
  /-- LEAD (R161): Holds the lead slice until the lead queue holds n entries or fewer. -/
  | leadN (h : Hdr) (n : BitVec 5)
  /-- QPUSH_VAL (R161): Appends a value entry to the lead queue. -/
  | qpushVal (h : Hdr) (a : BitVec 5)
  /-- QPUSH_LD (R161): Appends an entry carrying a fetched 32-bit word. -/
  | qpushLd (h : Hdr) (a : BitVec 5)
  /-- QPUSH_OB (R161): Appends an entry that fetches raw bytes into an OB record. -/
  | qpushOb (h : Hdr) (a : BitVec 5) (n : BitVec 5)
  /-- QPOP (R161): Waits for the head lead-queue entry and writes its value. -/
  | qpop (h : Hdr) (d : BitVec 7)
  /-- COLL (R154): Reads a collective descriptor and joins the group's collective. -/
  | coll (h : Hdr) (a : BitVec 7) (p : BitVec 1)
  /-- LAUNCH (R155): Commits, then queues a child launch record in the pending-launch queue. -/
  | launch (h : Hdr) (a : BitVec 7)
  /-- MSEND (R157): Buffers a 64-byte Meridian message that departs at the next commit. -/
  | msend (h : Hdr) (a : BitVec 5) (c : BitVec 5)
  /-- MRECV (R157): Takes the head message of a bound mailbox and stores it. -/
  | mrecv (h : Hdr) (a : BitVec 5) (c : BitVec 5)
  /-- MRES (R163): Waits for and holds an accumulator tile, clearing it. -/
  | mres (h : Hdr) (t : BitVec 3)
  /-- MREL (R163): Frees a tile once the team's words on it have completed. -/
  | mrel (h : Hdr) (t : BitVec 3)
  /-- MMZ (R163): Zeroes rows of a tile, optionally their side registers. -/
  | mmz (h : Hdr) (t : BitVec 3) (s : BitVec 1)
  /-- MLD (R163): Loads tile rows of A80 entries from memory. -/
  | mld (h : Hdr) (t : BitVec 3) (a : BitVec 5)
  /-- MMA (R164): Record-form multiply-accumulate from two OB records into a tile. -/
  | mma (h : Hdr) (t : BitVec 3) (a : BitVec 5) (b : BitVec 5)
  /-- MMA_TILE (R164): Tile-form multiply-accumulate using a down-converted tile as A. -/
  | mmaTile (h : Hdr) (t : BitVec 3) (s : BitVec 3) (c : BitVec 2) (b : BitVec 5)
  /-- MDRAIN (R166): Converts and writes tile rows to registers or memory, with optional normalisation. -/
  | mdrain (h : Hdr) (t : BitVec 3) (k : BitVec 2) (n : BitVec 2) (o : BitVec 2) (i : BitVec 5)
  /-- SMX (R165): Updates row maxima, factors and sums for online softmax. -/
  | smx (h : Hdr) (t : BitVec 3) (c : BitVec 5)
  /-- SEXP (R165): Replaces present entries with exponentials and accumulates row sums. -/
  | sexp (h : Hdr) (t : BitVec 3) (c : BitVec 5)
  /-- SRSC (R165): Rescales output rows by the source tile's factors and copies row sums. -/
  | srsc (h : Hdr) (o : BitVec 3) (s : BitVec 3)
  /-- TRAP (R170): Raises SW_TRAP if any lane takes part. -/
  | trap (h : Hdr) (c : BitVec 8)
  /-- SYS (R171): Commits, then posts a service request. -/
  | sysReq (h : Hdr) (c : BitVec 8) (a : BitVec 5)
  /-- RDCLK (R172): Reads the core's arithmetic-clock count into a pair. -/
  | rdclk (h : Hdr) (d : BitVec 7)
  /-- RDTIME (R172): Reads the 100 MHz timebase into a pair. -/
  | rdtime (h : Hdr) (d : BitVec 7)
  /-- MARK (R175): Writes a MARK record under recording. -/
  | mark (h : Hdr) (n : BitVec 14)
  /-- CSRR (R176): Reads a control and status register. -/
  | csrr (h : Hdr) (d : BitVec 5) (c : BitVec 7)
  /-- CSRW (R176): Writes a control and status register, checked against its limits. -/
  | csrw (h : Hdr) (a : BitVec 5) (c : BitVec 7)
  /-- PROBE (R178): Reads the status of one unit. -/
  | probe (h : Hdr) (d : BitVec 5) (a : BitVec 5)
  /-- PCNT (R179): Reads a 64-bit performance counter. -/
  | pcnt (h : Hdr) (d : BitVec 7) (n : BitVec 7)
  /-- DSTEP (R180): Steps one frozen team by one instruction and returns a status. -/
  | dstep (h : Hdr) (d : BitVec 5) (a : BitVec 5)
  /-- HALT (R181): Stops the code stream until a wake event. -/
  | halt (h : Hdr)
  /-- ILLEGAL_OP (R40): A word with major 0x00 or 0x3F, or with an unlisted minor, issues and takes ILLEGAL_OP. -/
  | illegalOp (w : Word)
  /-- LOAD_RESULT_WRITE (R129): An outstanding load or atomic writes every lane's result and ld falls in issue order. -/
  | loadResultWrite (p : Party) (id : Nat)
  /-- STORE_PERFORMED (R129): A store is performed at its home and st falls in issue order. -/
  | storePerformed (p : Party) (id : Nat)
  /-- ATOMIC_REQUEST_EXECUTE (R133): An aggregated atomic request is applied at its point of execution. -/
  | atomicRequestExecute (p : Party) (id req : Nat)
  /-- COMMIT (R259): A commit point takes an order stamp and publishes the task's version lines. -/
  | commit (p : Party)
  /-- TX_VALIDATION (R264): Home slices lock and validate a winning lane's sectors: of a team of a task, or without one of the steward
  of the die `ord`. -/
  | txValidation (task : Option Nat) (ord lane : Nat)
  /-- TICKET_GRANT (R138): The irrevocable ticket of a domain is granted to a waiting team. -/
  | ticketGrant (dev : Bool) (task : Nat)
  /-- PARK_REREAD (R212): A write to a parked team's word wakes it to reread and test the condition. -/
  | parkReread (p : Party)
  /-- YIELD_RESUME (R204): A team that yielded becomes ready again. -/
  | yieldResume (p : Party)
  /-- HALT_WAKE (R181): A wake event resumes a halted steward or prologue at pc + 4. -/
  | haltWake (p : Party)
  /-- REGISTER_LINE_FILL (R206): A register cache miss is filled from the team's frame. -/
  | registerLineFill (task ord line : Nat)
  /-- REGISTER_LINE_WRITEBACK (R206): A dirty register line is written back to the frame. -/
  | registerLineWriteback (task ord line : Nat) (evict : Bool)
  /-- TLB_WALK_END (R272): A page walk ends and the waiting team becomes ready. -/
  | tlbWalkEnd (p : Party)
  /-- LEAD_FETCH_COMPLETE (R161): A qpush.ld or qpush.ob fetch completes its lead-queue entry. -/
  | leadFetchComplete (task ord id n : Nat)
  /-- OB_RECORD_GRANT (R292): A waiting obres receives its record and granule run. -/
  | obRecordGrant (core : Nat)
  /-- TILE_GRANT (R288): A team waiting in mres receives the tile. -/
  | tileGrant (core tile : Nat)
  /-- MATRIX_ARRAY_TAKE (R288): A quadrant's array takes the next matrix word from its queue. -/
  | matrixArrayTake (core quad : Nat)
  /-- MATRIX_WORD_COMPLETE (R290): A matrix word's effect completes and tl falls in issue order. -/
  | matrixWordComplete (p : Party) (id : Nat)
  /-- ENGINE_OPERATION_RUN (R299): A copy or chain engine takes a queued operation and processes its elements. -/
  | engineOperationRun (core eng n : Nat)
  /-- ENGINE_COMPLETION (R149): An engine operation completes, releasing its ranges and decrementing cp. -/
  | engineCompletion (core id : Nat)
  /-- COLLECTIVE_COMBINE (R154): Once every participant has issued, the collective engines combine and write results. -/
  | collectiveCombine (ctx group : Nat) (others : List (List Byte))
  /-- PENDING_LAUNCH_HANDOFF (R338): The front end takes a device-side launch from a core's pending-launch queue. -/
  | pendingLaunchHandoff (core : Nat)
  /-- MESSAGE_ARRIVAL (R426): A Meridian message arrives and is placed in its mailbox in per-flow order. -/
  | messageArrival (mbox srcDev srcCtx epoch seq : Nat) (body : List Byte)
  /-- MERIDIAN_LINK_LOSS (R425): A link is lost and routes fail over. -/
  | meridianLinkLoss (port : Nat)
  /-- SUBMISSION_WRITE (R440): A write to MBSUB is accepted or rejected by the submission mailbox. -/
  | submissionWrite (ctx : Nat) (value : Word64)
  /-- MAILBOX_ENTRY_CONSUME (R342): The front end consumes a mailbox entry and reads the covered packets. -/
  | mailboxEntryConsume (ctx : Nat)
  /-- LAUNCH_PACKET (R344): A launch group is accepted with its ranges and optional prologue. -/
  | launchPacket (ctx : Nat)
  /-- COPY_PACKET (R346): A copy packet copies raw bytes and performs its completion. -/
  | copyPacket (ctx seq n : Nat)
  /-- DRAIN_PACKET (R346): A drain packet waits for earlier packets and performs its completion. -/
  | drainPacket (ctx seq : Nat)
  /-- DETERMINISM_LEVEL_PACKET (R371): Sets level, recording and choreography once earlier work completes. -/
  | determinismLevelPacket (ctx seq : Nat)
  /-- PACKET_START (R348): A packet starts once the hazards on earlier packets clear. -/
  | packetStart (ctx seq : Nat)
  /-- PROLOGUE_RUN (R351): The prologue engine runs a launch's prologue. -/
  | prologueRun (ctx seq : Nat)
  /-- PROLOGUE_LIMIT_EXPIRY (R351): A prologue exceeds 256 instructions or 4,096 uc and fails its launch. -/
  | prologueLimitExpiry (ctx : Nat)
  /-- RUN_START (R352): The next run of a launch starts, copying the argument block afresh. -/
  | runStart (grid : Nat)
  /-- PLATE_BUILD (R321): The Engraver builds a missing plate for a waiting launch. -/
  | plateBuild (grid offset : Nat)
  /-- COHORT_PLACE (R196): The distributor places a cohort once room exists, zeroing scratchpad and starting its teams. -/
  | cohortPlace (grid task frame : Nat)
  /-- TEAM_SLOT_RELEASE (R25): An ended team's slot is released when its counters reach 0. -/
  | teamSlotRelease (task ord : Nat)
  /-- COHORT_END (R198): A cohort ends once its teams and engine operations finish; its task commits. -/
  | cohortEnd (task : Nat)
  /-- PHASE_CHECK_CLOSE (R354): Every node reports no old-tag traffic and the check closes. -/
  | phaseCheckClose (ctx : Nat)
  /-- GRID_COMPLETION (R353): A grid's STORE or ADD completion is performed. -/
  | gridCompletion (grid : Nat)
  /-- FADD_TREE_APPLY (R366): At level 1 the per-cohort partial sums are combined along the fixed tree and added. -/
  | faddTreeApply (grid : Nat)
  /-- SWAP_OUT (R339): Cohorts waiting past SWTHR are swapped out to make room. -/
  | swapOut (task : Nat)
  /-- SWAP_RETURN (R340): An eligible swapped cohort returns to its core. -/
  | swapReturn (task : Nat)
  /-- CLUSTER_MODE_CHANGE (R229): The distributor changes an empty cluster's fusion mode. -/
  | clusterModeChange (cluster : Nat)
  /-- PLACEMENT_WAIT_EXPIRY (R355): A grid has waited 1 ms and reserves the cluster it last used. -/
  | placementWaitExpiry (grid : Nat)
  /-- TASK_FAIL (R408): A failing trap stops the task, discards its version and retries or reports it. -/
  | taskFail (task : Nat)
  /-- CODE_GENERATION_RAISE (R323): A write to a kernel's text raises its code generation after running grids finish. -/
  | codeGenerationRaise (ctx : Nat) (code : Word64)
  /-- CHUNK_SIGNATURE_HIT (R375): Another party's write hits a team's read signature and ends its chunk. -/
  | chunkSignatureHit (task ord : Nat)
  /-- CHUNK_COUNT_EXPIRY (R375): 65,536 instructions retired in a chunk end it. -/
  | chunkCountExpiry (task ord : Nat)
  /-- SNAPSHOT_TAKE (R383): SNAPREQ take pauses the context and starts a snapshot anchor. -/
  | snapshotTake (value : Word)
  /-- SNAPSHOT_ANCHOR_DONE (R382): Saves and spills finish, the anchor is logged and paused reads 1. -/
  | snapshotAnchorDone (frameList : Word64)
  /-- SNAPSHOT_RESUME (R383): SNAPREQ res resumes the paused context. -/
  | snapshotResume (value : Word)
  /-- REPLAY_GO (R384): RPCTL go starts or continues a replay from a live anchor. -/
  | replayGo (value : Word64)
  /-- REPLAY_BREAKPOINT (R387): The replay reaches the named record and stops every cluster at the cut. -/
  | replayBreakpoint
  /-- CLUSTER_STOP (R391): The stop reaches the cluster, teams freeze and WATCH records are written. -/
  | clusterStop (cluster : Nat)
  /-- CLSTOP_REQ (R404): A CLSTOP req write stops the cluster for a context. -/
  | clstopReq (cluster : Nat) (value : Word)
  /-- CLSTOP_REL (R404): A CLSTOP rel write releases every frozen team of the context. -/
  | clstopRel (cluster : Nat) (value : Word)
  /-- DSTEP_TIMEOUT (R180): 10 µs pass without the stepped instruction completing; status blocked. -/
  | dstepTimeout (p : Party)
  /-- PFRES_RETRY (R407): Retries a pending page fault from its first pass. -/
  | pfresRetry (ctx : Nat) (value : Word)
  /-- PFRES_FAIL (R407): Turns a pending page fault into ACCESS. -/
  | pfresFail (ctx : Nat) (value : Word)
  /-- PREEMPT_GO (R411): Stops placement of the context and lets resident cohorts drain. -/
  | preemptGo (ctx : Nat) (value : Word)
  /-- PREEMPT_RESUME (R411): Writing go 0 resumes placement, held retries first. -/
  | preemptResume (ctx : Nat) (value : Word)
  /-- PREEMPT_DEADLINE (R412): PDEAD expires with the context not drained and forces a reset. -/
  | preemptDeadline (ctx : Nat)
  /-- CONTEXT_RESET (R412): A CTXRST write forces a context reset. -/
  | contextReset (ctx : Nat) (value : Word)
  /-- LEASE_RENEW (R268): A live agent renews its leases every 250 ticks. -/
  | leaseRenew (agent : Nat)
  /-- LEASE_EXPIRY (R268): An unrenewed lease expires; lines revert and affected tasks are reported. -/
  | leaseExpiry (agent : Nat)
  /-- REGION_MERGE (R267): Sibling regions in one state merge after 1 ms without conflict. -/
  | regionMerge (base size : Nat)
  /-- LEASE_CLOCK_WRAP (R269): The lease clock wraps; the package pauses, drains and flushes leased lines. -/
  | leaseClockWrap
  /-- TINV_CONTEXT (R274): TINV op 0 invalidates every entry of a context. -/
  | tinvContext (value : Word64)
  /-- TINV_PAGE (R274): TINV op 1 invalidates entries covering a page. -/
  | tinvPage (value : Word64)
  /-- TINV_ALL (R274): TINV op 2 invalidates every entry of every context. -/
  | tinvAll (value : Word64)
  /-- TINV_GSTAGE (R274): TINV op 3 invalidates G-stage entries covering a guest-physical page. -/
  | tinvGstage (value : Word64)
  /-- INVALIDATION_COMPLETE (R274): Earlier-generation requests reach their homes and the invalidation completes. -/
  | invalidationComplete
  /-- TINVS_READ (R273): Reading TINVS clears its full and error bits. -/
  | tinvsRead
  /-- BIAS_FLIP (R277): A BFLIP write starts flipping a block's bias. -/
  | biasFlip (value : Word64)
  /-- BIAS_FLIP_DONE (R277): Write-back ends, the bias bit changes and go reads 0. -/
  | biasFlipDone
  /-- REPLICA_MARK (R279): Setting RPLPRI valid starts copying a primary range to its replica. -/
  | replicaMark (n : Nat) (value : Word64)
  /-- REPLICA_UNMARK (R279): Clearing RPLPRI valid starts dropping the replica. -/
  | replicaUnmark (n : Nat) (value : Word64)
  /-- REPLICA_BUSY_CLEAR (R279): Marking or unmarking finishes and busy clears. -/
  | replicaBusyClear (n : Nat)
  /-- LAPSE_READ (R432): Reading LAPSE returns and removes the oldest lapsed region. -/
  | lapseRead
  /-- DSTAT_READ (R432): Reading DSTAT clears its err bit. -/
  | dstatRead
  /-- CSTAT_READ (R432): Reading CSTAT clears its chbrk and err bits. -/
  | cstatRead (ctx : Nat)
  /-- MBSTAT_READ (R440): Reading MBSTAT clears its rej bit. -/
  | mbstatRead (ctx : Nat)
  /-- MAILBOX_BIND (R427): An MBXBIND write binds a mailbox to a context unless it holds messages. -/
  | mailboxBind (mbox : Nat) (value : Word)
  /-- ROUTE_ENTRY_WRITE (R426): An MRT write raises the entry's epoch and restarts flows to that device. -/
  | routeEntryWrite (ctx entry : Nat) (value : Word)
  /-- FRTAIL_WRITE (R439): Advancing the fault ring tail frees room for held writers. -/
  | frtailWrite (ctx : Nat) (value : Word)
  /-- SRTAIL_WRITE (R439): Advancing the service ring tail frees room for held writers. -/
  | srtailWrite (ctx : Nat) (value : Word)
  /-- OPEN_COLLECTIVE_GROUP (R430): Steward request code 1 opens a collective group. -/
  | openCollectiveGroup (ctx : Nat)
  /-- CLOSE_COLLECTIVE_GROUP (R430): Steward request code 2 closes a collective group. -/
  | closeCollectiveGroup (ctx : Nat)
  /-- STEP_TEAM_REQUEST (R430): Steward request code 3 steps a frozen team. -/
  | stepTeamRequest (ctx : Nat)
  /-- GROUP_OPEN_TIMEOUT (R430): A listed device gives no Meridian answer within 10 ms; the open fails. -/
  | groupOpenTimeout (ctx : Nat)
  /-- LEADER_LEASE_RENEW (R442): The steward leader renews its lease every 2 ms. -/
  | leaderLeaseRenew
  /-- LEADER_LEASE_LAPSE (R442): The leader lease lapses and the lowest live steward takes it. -/
  | leaderLeaseLapse
  /-- POWER_LIMIT_EXCEEDED (R450): PWRNOW has exceeded PWRLIM for 1 ms; clocks step down or level-2 tasks stop. -/
  | powerLimitExceeded (watts : BitVec 12)
  /-- CLOCK_STEP (R450): Each 1 ms the clocks step 25 MHz down or back up. -/
  | clockStep (up : Bool)
  /-- POWER_MONITOR_TRIP (R451): Power above 2,800 W for 100 µs makes the hardware monitor lower the clocks. -/
  | powerMonitorTrip (die : Nat) (watts : BitVec 12)
  /-- DEVICE_RESET (R447): Reset loads and verifies firmware, entering recovery on failure. -/
  | deviceReset (flash ed mld : Bool)
  /-- RECOVERY_IMAGE_LOAD (R447): An image received over I3C in recovery is verified and run. -/
  | recoveryImageLoad (ed mld : Bool)
  /-- CORE_RETIRE (R452): A physical core crosses its error threshold and stops receiving cohorts. -/
  | coreRetire (phys : Nat)
  /-- SPARE_REMAP (R452): With no cohort resident, the logical core is remapped to a spare or retired. -/
  | spareRemap (core : Nat)
  /-- NOTIFY_WRITE (R443): A write to a notify register stores its value and wakes parked teams. -/
  | notifyWrite (ctx n : Nat) (value : Word)
  /-- NOTIFY_LATCH_DELIVER (R444): The always-on latch delivers a captured notify write after the aperture wakes. -/
  | notifyLatchDeliver
  /-- PEER_WRITE (R445): A PCIe peer write reaches the L3 home as a committed write. -/
  | peerWrite (addr : Nat) (data : List Byte)
  /-- PEER_READ (R445): A PCIe peer read returns committed values. -/
  | peerRead (addr n : Nat)
  /-- PCIE_LINK_TRAIN (R445): A root port trains in FLIT mode or stays down. -/
  | pcieLinkTrain (port : Nat) (flit : Bool)
  /-- APP_CORE_STORE (R225): An application core's direct write enters memory as a committed write. -/
  | appCoreStore (agent addr : Nat) (data : List Byte)
  /-- REGISTER_WRITE (R431): A write to a control-aperture register without behaviour of its own. -/
  | registerWrite (offset : Nat) (width : Nat) (value : Word64)
  /-- REPLACE_REQUESTED (R453): An HBM4 stack or L3 slice crosses its error threshold, setting its die's REPLREQ bit and raising the DIMSIC MSI. -/
  | replaceRequested (part : DiePart)
  /-- FOLLOWER_HEARTBEAT (R442): A steward that is not the leader renews its follower heartbeat, which makes it eligible to take a lapsed leader lease. -/
  | followerHeartbeat (die : Nat)
  /-- NOTIFY_APERTURE_GATE (R444): The device clock- or power-gates the notify aperture while no cohort parks on a notify register. -/
  | notifyApertureGate
  /-- PWRNOW_CROSSED_PWRLIM (R436): The averaged package power crosses PWRLIM and the DIMSIC MSI at offset 2 is raised. -/
  | pwrnowCrossedPwrlim (watts : BitVec 12)
  /-- STEWARD_REQUEST_REJECT (R430): The steward leader takes a request-queue entry whose code is unlisted, or whose arguments or reserved bytes are bad, and writes status 2. -/
  | stewardRequestReject (ctx : Nat)
  deriving DecidableEq, Repr

end Sys2Proof
end

