-- ==== Sys2Proof/WellFormed.lean ====
section
/-!
DEFINITION. Which instructions are words of the part. Every operand field is as wide as its place, so three things
are left to say: that the instruction is a word and not an event, that its sequencing code is listed (R25), and that
a code carried in a field selects an operation of the row its constructor stands for (R41, R45).
-/

namespace Sys2Proof

/-- The instruction is a word of the instruction set, not an event of the device. -/
def Instr.isWord : Instr → Bool
  | .nop _ => true
  | .jmov _ _ _ => true
  | .jget _ _ _ => true
  | .lset _ _ => true
  | .lsetImm _ _ => true
  | .lbrk _ => true
  | .msetLo _ _ => true
  | .msetFl _ _ => true
  | .msetHi _ _ => true
  | .mput _ _ => true
  | .mget _ _ => true
  | .tile _ _ => true
  | .sreg _ _ _ => true
  | .rdlane _ _ _ => true
  | .jset _ _ _ => true
  | .movi _ _ _ => true
  | .movhi _ _ _ => true
  | .iaddi _ _ _ _ => true
  | .mov _ _ _ => true
  | .popc _ _ _ => true
  | .clz _ _ _ => true
  | .ctz _ _ _ => true
  | .brev _ _ _ => true
  | .pand _ _ _ _ => true
  | .por _ _ _ _ => true
  | .pxor _ _ _ _ => true
  | .pnot _ _ _ => true
  | .pset _ _ _ => true
  | .pget _ _ _ => true
  | .ldB32 _ _ _ _ => true
  | .ldB64 _ _ _ _ => true
  | .stB32 _ _ _ _ => true
  | .stB64 _ _ _ _ => true
  | .ldsB32 _ _ _ _ => true
  | .stsB32 _ _ _ _ => true
  | .ldAcqB32 _ _ _ _ => true
  | .ldScB32 _ _ _ _ => true
  | .ldAcqB64 _ _ _ _ => true
  | .ldScB64 _ _ _ _ => true
  | .ldsAcq _ _ _ _ => true
  | .ldsSc _ _ _ _ => true
  | .stRelB32 _ _ _ _ => true
  | .stScB32 _ _ _ _ => true
  | .stRelB64 _ _ _ _ => true
  | .stScB64 _ _ _ _ => true
  | .stsRel _ _ _ _ => true
  | .stsSc _ _ _ _ => true
  | .ldB8 _ _ _ => true
  | .ldB16 _ _ _ => true
  | .ldS8 _ _ _ => true
  | .ldS16 _ _ _ => true
  | .stB8 _ _ _ => true
  | .stB16 _ _ _ => true
  | .ldsB8 _ _ _ => true
  | .ldsB16 _ _ _ => true
  | .ldsS8 _ _ _ => true
  | .ldsS16 _ _ _ => true
  | .stsB8 _ _ _ => true
  | .stsB16 _ _ _ => true
  | .ldsB64 _ _ _ => true
  | .stsB64 _ _ _ => true
  | .ldkB32 _ _ _ => true
  | .ldkB64 _ _ _ => true
  | .stkB32 _ _ _ => true
  | .stkB64 _ _ _ => true
  | .ldr _ _ _ => true
  | .str _ _ _ => true
  | .ldargB8 _ _ _ => true
  | .ldargB16 _ _ _ => true
  | .ldargB32 _ _ _ => true
  | .ldargB64 _ _ _ => true
  | .iadd _ _ _ _ => true
  | .isub _ _ _ _ => true
  | .imul _ _ _ _ => true
  | .imulh _ _ _ _ => true
  | .andB _ _ _ _ => true
  | .orB _ _ _ _ => true
  | .xorB _ _ _ _ => true
  | .andnB _ _ _ _ => true
  | .shl _ _ _ _ => true
  | .shr _ _ _ _ => true
  | .sar _ _ _ _ => true
  | .rot _ _ _ _ => true
  | .bfx _ _ _ _ => true
  | .bfi _ _ _ _ => true
  | .sel _ _ _ _ => true
  | .lea _ _ _ _ => true
  | .add64 _ _ _ _ => true
  | .sub64 _ _ _ _ => true
  | .shl64 _ _ _ _ => true
  | .shr64 _ _ _ _ => true
  | .icmp _ _ _ _ _ => true
  | .ucmp _ _ _ _ _ => true
  | .addT _ _ _ _ => true
  | .subT _ _ _ _ => true
  | .mulT _ _ _ _ => true
  | .minT _ _ _ _ => true
  | .maxT _ _ _ _ => true
  | .divT _ _ _ _ => true
  | .dot _ _ _ _ => true
  | .fcmp _ _ _ _ _ => true
  | .classify _ _ _ _ => true
  | .absT _ _ _ => true
  | .negT _ _ _ => true
  | .sqrt _ _ _ => true
  | .rcp _ _ _ => true
  | .rsq _ _ _ => true
  | .exp2 _ _ _ => true
  | .log2 _ _ _ => true
  | .sinpi _ _ _ => true
  | .cospi _ _ _ => true
  | .mkabs _ _ _ => true
  | .fma _ _ _ _ => true
  | .fmaN _ _ _ _ => true
  | .cvt _ _ _ _ => true
  | .cvtmx _ _ _ => true
  | .cvtmxH16 _ _ _ => true
  | .cvtmxH32 _ _ _ => true
  | .pack _ _ _ => true
  | .unpack _ _ _ => true
  | .voteAny _ _ _ => true
  | .voteAll _ _ _ => true
  | .voteBallot _ _ _ => true
  | .voteUni _ _ _ => true
  | .tred _ _ _ _ => true
  | .scan _ _ _ _ => true
  | .matchLanes _ _ _ => true
  | .elect _ _ _ => true
  | .cntp _ _ _ => true
  | .shfl _ _ _ _ _ => true
  | .wait _ _ _ _ _ => true
  | .fence _ _ _ => true
  | .vcommit _ => true
  | .park _ _ _ _ _ => true
  | .bararr _ _ _ => true
  | .barwait _ _ _ => true
  | .gbar _ _ => true
  | .txbCoh _ => true
  | .txbDev _ => true
  | .txe _ _ _ => true
  | .txa _ _ => true
  | .pref _ _ _ => true
  | .cctl _ _ _ => true
  | .atomScratchpad _ _ _ _ _ => true
  | .atomRlx _ _ _ _ _ => true
  | .atomAcq _ _ _ _ _ => true
  | .atomRel _ _ _ _ _ => true
  | .atomAr _ _ _ _ _ => true
  | .atomSc _ _ _ _ _ => true
  | .mredAdd _ _ _ _ => true
  | .mredAddRel _ _ _ _ => true
  | .mredFadd _ _ _ _ => true
  | .mredFaddRel _ _ _ _ => true
  | .tcopy _ _ _ => true
  | .chain _ _ _ => true
  | .obres _ _ _ => true
  | .obset _ _ _ => true
  | .obrel _ _ => true
  | .leadN _ _ => true
  | .qpushVal _ _ => true
  | .qpushLd _ _ => true
  | .qpushOb _ _ _ => true
  | .qpop _ _ => true
  | .coll _ _ _ => true
  | .launch _ _ => true
  | .msend _ _ _ => true
  | .mrecv _ _ _ => true
  | .mres _ _ => true
  | .mrel _ _ => true
  | .mmz _ _ _ => true
  | .mld _ _ _ => true
  | .mma _ _ _ _ => true
  | .mmaTile _ _ _ _ _ => true
  | .mdrain _ _ _ _ _ _ => true
  | .smx _ _ _ => true
  | .sexp _ _ _ => true
  | .srsc _ _ _ => true
  | .trap _ _ => true
  | .sysReq _ _ _ => true
  | .rdclk _ _ => true
  | .rdtime _ _ => true
  | .mark _ _ => true
  | .csrr _ _ _ => true
  | .csrw _ _ _ => true
  | .probe _ _ _ => true
  | .pcnt _ _ _ => true
  | .dstep _ _ _ => true
  | .halt _ => true
  | .illegalOp _ => true
  | .loadResultWrite _ _ => false
  | .storePerformed _ _ => false
  | .atomicRequestExecute _ _ _ => false
  | .commit _ => false
  | .txValidation _ _ _ => false
  | .ticketGrant _ _ => false
  | .parkReread _ => false
  | .yieldResume _ => false
  | .haltWake _ => false
  | .registerLineFill _ _ _ => false
  | .registerLineWriteback _ _ _ _ => false
  | .tlbWalkEnd _ => false
  | .leadFetchComplete _ _ _ _ => false
  | .obRecordGrant _ => false
  | .tileGrant _ _ => false
  | .matrixArrayTake _ _ => false
  | .matrixWordComplete _ _ => false
  | .engineOperationRun _ _ _ => false
  | .engineCompletion _ _ => false
  | .collectiveCombine _ _ _ => false
  | .pendingLaunchHandoff _ => false
  | .messageArrival _ _ _ _ _ _ => false
  | .meridianLinkLoss _ => false
  | .submissionWrite _ _ => false
  | .mailboxEntryConsume _ => false
  | .launchPacket _ => false
  | .copyPacket _ _ _ => false
  | .drainPacket _ _ => false
  | .determinismLevelPacket _ _ => false
  | .packetStart _ _ => false
  | .prologueRun _ _ => false
  | .prologueLimitExpiry _ => false
  | .runStart _ => false
  | .plateBuild _ _ => false
  | .cohortPlace _ _ _ => false
  | .teamSlotRelease _ _ => false
  | .cohortEnd _ => false
  | .phaseCheckClose _ => false
  | .gridCompletion _ => false
  | .faddTreeApply _ => false
  | .swapOut _ => false
  | .swapReturn _ => false
  | .clusterModeChange _ => false
  | .placementWaitExpiry _ => false
  | .taskFail _ => false
  | .codeGenerationRaise _ _ => false
  | .chunkSignatureHit _ _ => false
  | .chunkCountExpiry _ _ => false
  | .snapshotTake _ => false
  | .snapshotAnchorDone _ => false
  | .snapshotResume _ => false
  | .replayGo _ => false
  | .replayBreakpoint => false
  | .clusterStop _ => false
  | .clstopReq _ _ => false
  | .clstopRel _ _ => false
  | .dstepTimeout _ => false
  | .pfresRetry _ _ => false
  | .pfresFail _ _ => false
  | .preemptGo _ _ => false
  | .preemptResume _ _ => false
  | .preemptDeadline _ => false
  | .contextReset _ _ => false
  | .leaseRenew _ => false
  | .leaseExpiry _ => false
  | .regionMerge _ _ => false
  | .leaseClockWrap => false
  | .tinvContext _ => false
  | .tinvPage _ => false
  | .tinvAll _ => false
  | .tinvGstage _ => false
  | .invalidationComplete => false
  | .tinvsRead => false
  | .biasFlip _ => false
  | .biasFlipDone => false
  | .replicaMark _ _ => false
  | .replicaUnmark _ _ => false
  | .replicaBusyClear _ => false
  | .lapseRead => false
  | .dstatRead => false
  | .cstatRead _ => false
  | .mbstatRead _ => false
  | .mailboxBind _ _ => false
  | .routeEntryWrite _ _ _ => false
  | .frtailWrite _ _ => false
  | .srtailWrite _ _ => false
  | .openCollectiveGroup _ => false
  | .closeCollectiveGroup _ => false
  | .stepTeamRequest _ => false
  | .groupOpenTimeout _ => false
  | .leaderLeaseRenew => false
  | .leaderLeaseLapse => false
  | .powerLimitExceeded _ => false
  | .clockStep _ => false
  | .powerMonitorTrip _ _ => false
  | .deviceReset _ _ _ => false
  | .recoveryImageLoad _ _ => false
  | .coreRetire _ => false
  | .spareRemap _ => false
  | .notifyWrite _ _ _ => false
  | .notifyLatchDeliver => false
  | .peerWrite _ _ => false
  | .peerRead _ _ => false
  | .pcieLinkTrain _ _ => false
  | .appCoreStore _ _ _ => false
  | .registerWrite _ _ _ => false
  | .replaceRequested _ => false
  | .followerHeartbeat _ => false
  | .notifyApertureGate => false
  | .pwrnowCrossedPwrlim _ => false
  | .stewardRequestReject _ => false

/-- The header of a word (R9); an event and an unassigned word have none. -/
def Instr.hdr? : Instr → Option Hdr
  | .nop h => some h
  | .jmov h _ _ => some h
  | .jget h _ _ => some h
  | .lset h _ => some h
  | .lsetImm h _ => some h
  | .lbrk h => some h
  | .msetLo h _ => some h
  | .msetFl h _ => some h
  | .msetHi h _ => some h
  | .mput h _ => some h
  | .mget h _ => some h
  | .tile h _ => some h
  | .sreg h _ _ => some h
  | .rdlane h _ _ => some h
  | .jset h _ _ => some h
  | .movi h _ _ => some h
  | .movhi h _ _ => some h
  | .iaddi h _ _ _ => some h
  | .mov h _ _ => some h
  | .popc h _ _ => some h
  | .clz h _ _ => some h
  | .ctz h _ _ => some h
  | .brev h _ _ => some h
  | .pand h _ _ _ => some h
  | .por h _ _ _ => some h
  | .pxor h _ _ _ => some h
  | .pnot h _ _ => some h
  | .pset h _ _ => some h
  | .pget h _ _ => some h
  | .ldB32 h _ _ _ => some h
  | .ldB64 h _ _ _ => some h
  | .stB32 h _ _ _ => some h
  | .stB64 h _ _ _ => some h
  | .ldsB32 h _ _ _ => some h
  | .stsB32 h _ _ _ => some h
  | .ldAcqB32 h _ _ _ => some h
  | .ldScB32 h _ _ _ => some h
  | .ldAcqB64 h _ _ _ => some h
  | .ldScB64 h _ _ _ => some h
  | .ldsAcq h _ _ _ => some h
  | .ldsSc h _ _ _ => some h
  | .stRelB32 h _ _ _ => some h
  | .stScB32 h _ _ _ => some h
  | .stRelB64 h _ _ _ => some h
  | .stScB64 h _ _ _ => some h
  | .stsRel h _ _ _ => some h
  | .stsSc h _ _ _ => some h
  | .ldB8 h _ _ => some h
  | .ldB16 h _ _ => some h
  | .ldS8 h _ _ => some h
  | .ldS16 h _ _ => some h
  | .stB8 h _ _ => some h
  | .stB16 h _ _ => some h
  | .ldsB8 h _ _ => some h
  | .ldsB16 h _ _ => some h
  | .ldsS8 h _ _ => some h
  | .ldsS16 h _ _ => some h
  | .stsB8 h _ _ => some h
  | .stsB16 h _ _ => some h
  | .ldsB64 h _ _ => some h
  | .stsB64 h _ _ => some h
  | .ldkB32 h _ _ => some h
  | .ldkB64 h _ _ => some h
  | .stkB32 h _ _ => some h
  | .stkB64 h _ _ => some h
  | .ldr h _ _ => some h
  | .str h _ _ => some h
  | .ldargB8 h _ _ => some h
  | .ldargB16 h _ _ => some h
  | .ldargB32 h _ _ => some h
  | .ldargB64 h _ _ => some h
  | .iadd h _ _ _ => some h
  | .isub h _ _ _ => some h
  | .imul h _ _ _ => some h
  | .imulh h _ _ _ => some h
  | .andB h _ _ _ => some h
  | .orB h _ _ _ => some h
  | .xorB h _ _ _ => some h
  | .andnB h _ _ _ => some h
  | .shl h _ _ _ => some h
  | .shr h _ _ _ => some h
  | .sar h _ _ _ => some h
  | .rot h _ _ _ => some h
  | .bfx h _ _ _ => some h
  | .bfi h _ _ _ => some h
  | .sel h _ _ _ => some h
  | .lea h _ _ _ => some h
  | .add64 h _ _ _ => some h
  | .sub64 h _ _ _ => some h
  | .shl64 h _ _ _ => some h
  | .shr64 h _ _ _ => some h
  | .icmp h _ _ _ _ => some h
  | .ucmp h _ _ _ _ => some h
  | .addT h _ _ _ => some h
  | .subT h _ _ _ => some h
  | .mulT h _ _ _ => some h
  | .minT h _ _ _ => some h
  | .maxT h _ _ _ => some h
  | .divT h _ _ _ => some h
  | .dot h _ _ _ => some h
  | .fcmp h _ _ _ _ => some h
  | .classify h _ _ _ => some h
  | .absT h _ _ => some h
  | .negT h _ _ => some h
  | .sqrt h _ _ => some h
  | .rcp h _ _ => some h
  | .rsq h _ _ => some h
  | .exp2 h _ _ => some h
  | .log2 h _ _ => some h
  | .sinpi h _ _ => some h
  | .cospi h _ _ => some h
  | .mkabs h _ _ => some h
  | .fma h _ _ _ => some h
  | .fmaN h _ _ _ => some h
  | .cvt h _ _ _ => some h
  | .cvtmx h _ _ => some h
  | .cvtmxH16 h _ _ => some h
  | .cvtmxH32 h _ _ => some h
  | .pack h _ _ => some h
  | .unpack h _ _ => some h
  | .voteAny h _ _ => some h
  | .voteAll h _ _ => some h
  | .voteBallot h _ _ => some h
  | .voteUni h _ _ => some h
  | .tred h _ _ _ => some h
  | .scan h _ _ _ => some h
  | .matchLanes h _ _ => some h
  | .elect h _ _ => some h
  | .cntp h _ _ => some h
  | .shfl h _ _ _ _ => some h
  | .wait h _ _ _ _ => some h
  | .fence h _ _ => some h
  | .vcommit h => some h
  | .park h _ _ _ _ => some h
  | .bararr h _ _ => some h
  | .barwait h _ _ => some h
  | .gbar h _ => some h
  | .txbCoh h => some h
  | .txbDev h => some h
  | .txe h _ _ => some h
  | .txa h _ => some h
  | .pref h _ _ => some h
  | .cctl h _ _ => some h
  | .atomScratchpad h _ _ _ _ => some h
  | .atomRlx h _ _ _ _ => some h
  | .atomAcq h _ _ _ _ => some h
  | .atomRel h _ _ _ _ => some h
  | .atomAr h _ _ _ _ => some h
  | .atomSc h _ _ _ _ => some h
  | .mredAdd h _ _ _ => some h
  | .mredAddRel h _ _ _ => some h
  | .mredFadd h _ _ _ => some h
  | .mredFaddRel h _ _ _ => some h
  | .tcopy h _ _ => some h
  | .chain h _ _ => some h
  | .obres h _ _ => some h
  | .obset h _ _ => some h
  | .obrel h _ => some h
  | .leadN h _ => some h
  | .qpushVal h _ => some h
  | .qpushLd h _ => some h
  | .qpushOb h _ _ => some h
  | .qpop h _ => some h
  | .coll h _ _ => some h
  | .launch h _ => some h
  | .msend h _ _ => some h
  | .mrecv h _ _ => some h
  | .mres h _ => some h
  | .mrel h _ => some h
  | .mmz h _ _ => some h
  | .mld h _ _ => some h
  | .mma h _ _ _ => some h
  | .mmaTile h _ _ _ _ => some h
  | .mdrain h _ _ _ _ _ => some h
  | .smx h _ _ => some h
  | .sexp h _ _ => some h
  | .srsc h _ _ => some h
  | .trap h _ => some h
  | .sysReq h _ _ => some h
  | .rdclk h _ => some h
  | .rdtime h _ => some h
  | .mark h _ => some h
  | .csrr h _ _ => some h
  | .csrw h _ _ => some h
  | .probe h _ _ => some h
  | .pcnt h _ _ => some h
  | .dstep h _ _ => some h
  | .halt h => some h
  | _ => none
/-- An operation code carried in a field names an operation of the row (R41, R45): codes 13 and 14 of the global
atomics are `mred`, which have rows of their own, and codes beyond those listed name nothing. -/
def Instr.selects : Instr → Bool
  | .atomScratchpad _ _ _ o r => o.toNat ≤ 12 && r.toNat ≤ 4
  | .atomRlx _ _ _ o _ | .atomAcq _ _ _ o _ | .atomRel _ _ _ o _ | .atomAr _ _ _ o _ | .atomSc _ _ _ o _ =>
    o.toNat ≤ 12
  | .tred _ _ _ o => o.toNat ≤ 5
  | .scan _ _ _ o => o.toNat ≤ 2
  | .illegalOp _ => false
  | _ => true

/-- The sequencing code is one of 0 to 13 (R25). -/
def Instr.seqListed (i : Instr) : Bool :=
  match i.hdr? with
  | some h => h.seq.toNat ≤ 13
  | none => false

/-- The instruction is a well-formed word. -/
def Instr.wellFormed (i : Instr) : Bool := i.isWord && i.seqListed && i.selects

end Sys2Proof
end

