-- ==== Sys2Proof/Decode.lean ====
section
/-!
DEFINITION. Decoding and encoding of instruction words, from the format and opcode tables of R13 and R40 to R46.
Decoding is total on words: a word that no row assigns, or one with a reserved operand bit set (R15), is
`illegalOp`. Fewer than four bytes are refused by name.
-/

namespace Sys2Proof

/-- Field of `w` bits from bit `lo` of a word given as a number (R6). -/
def fieldAt (w : Nat) (n lo : Nat) : BitVec w := BitVec.ofNat w (n / 2 ^ lo % 2 ^ w)

/-- SEQ [25:22] and B [21] (R9). -/
def hdrAt (n : Nat) : Hdr := { seq := fieldAt 4 n 22, b := n / 2 ^ 21 % 2 = 1 }

/-- Major opcode 0x01 (R40, R41). -/
def decodeControl (n : Nat) : Instr :=
  if n / 2 ^ 0 % 2 ^ 21 = 0 then .nop (hdrAt n)
  else if n / 2 ^ 0 % 2 ^ 5 = 0 ∧ n / 2 ^ 14 % 2 ^ 7 = 1 then .jmov (hdrAt n) (fieldAt 2 n 12) (fieldAt 7 n 5)
  else if n / 2 ^ 0 % 2 ^ 5 = 0 ∧ n / 2 ^ 14 % 2 ^ 7 = 2 then .jget (hdrAt n) (fieldAt 7 n 7) (fieldAt 2 n 5)
  else if n / 2 ^ 0 % 2 ^ 7 = 0 ∧ n / 2 ^ 14 % 2 ^ 7 = 3 then .lset (hdrAt n) (fieldAt 7 n 7)
  else if n / 2 ^ 14 % 2 ^ 7 = 4 then .lsetImm (hdrAt n) (fieldAt 14 n 0)
  else if n / 2 ^ 0 % 2 ^ 21 = 81920 then .lbrk (hdrAt n)
  else if n / 2 ^ 12 % 2 ^ 9 = 24 then .msetLo (hdrAt n) (fieldAt 12 n 0)
  else if n / 2 ^ 12 % 2 ^ 9 = 25 then .msetFl (hdrAt n) (fieldAt 12 n 0)
  else if n / 2 ^ 8 % 2 ^ 13 = 416 then .msetHi (hdrAt n) (fieldAt 8 n 0)
  else if n / 2 ^ 0 % 2 ^ 7 = 0 ∧ n / 2 ^ 14 % 2 ^ 7 = 7 then .mput (hdrAt n) (fieldAt 7 n 7)
  else if n / 2 ^ 0 % 2 ^ 7 = 0 ∧ n / 2 ^ 14 % 2 ^ 7 = 8 then .mget (hdrAt n) (fieldAt 7 n 7)
  else if n / 2 ^ 3 % 2 ^ 18 = 18432 then .tile (hdrAt n) (fieldAt 3 n 0)
  else if n / 2 ^ 14 % 2 ^ 7 = 10 then .sreg (hdrAt n) (fieldAt 7 n 7) (fieldAt 7 n 0)
  else if n / 2 ^ 14 % 2 ^ 7 = 11 then .rdlane (hdrAt n) (fieldAt 7 n 7) (fieldAt 7 n 0)
  else .illegalOp (BitVec.ofNat 32 n)

/-- Major opcode 0x06 (R40, R41). -/
def decodeUnary (n : Nat) : Instr :=
  if n / 2 ^ 0 % 2 ^ 7 = 0 then .mov (hdrAt n) (fieldAt 7 n 14) (fieldAt 7 n 7)
  else if n / 2 ^ 0 % 2 ^ 7 = 1 then .popc (hdrAt n) (fieldAt 7 n 14) (fieldAt 7 n 7)
  else if n / 2 ^ 0 % 2 ^ 7 = 2 then .clz (hdrAt n) (fieldAt 7 n 14) (fieldAt 7 n 7)
  else if n / 2 ^ 0 % 2 ^ 7 = 3 then .ctz (hdrAt n) (fieldAt 7 n 14) (fieldAt 7 n 7)
  else if n / 2 ^ 0 % 2 ^ 7 = 4 then .brev (hdrAt n) (fieldAt 7 n 14) (fieldAt 7 n 7)
  else .illegalOp (BitVec.ofNat 32 n)

/-- Major opcode 0x07 (R40, R41). -/
def decodePredicate (n : Nat) : Instr :=
  if n / 2 ^ 0 % 2 ^ 2 = 0 ∧ n / 2 ^ 14 % 2 ^ 7 = 0 then .pand (hdrAt n) (fieldAt 4 n 10) (fieldAt 4 n 6) (fieldAt 4 n 2)
  else if n / 2 ^ 0 % 2 ^ 2 = 0 ∧ n / 2 ^ 14 % 2 ^ 7 = 1 then .por (hdrAt n) (fieldAt 4 n 10) (fieldAt 4 n 6) (fieldAt 4 n 2)
  else if n / 2 ^ 0 % 2 ^ 2 = 0 ∧ n / 2 ^ 14 % 2 ^ 7 = 2 then .pxor (hdrAt n) (fieldAt 4 n 10) (fieldAt 4 n 6) (fieldAt 4 n 2)
  else if n / 2 ^ 0 % 2 ^ 6 = 0 ∧ n / 2 ^ 14 % 2 ^ 7 = 3 then .pnot (hdrAt n) (fieldAt 4 n 10) (fieldAt 4 n 6)
  else if n / 2 ^ 0 % 2 ^ 3 = 0 ∧ n / 2 ^ 14 % 2 ^ 7 = 4 then .pset (hdrAt n) (fieldAt 4 n 10) (fieldAt 7 n 3)
  else if n / 2 ^ 0 % 2 ^ 3 = 0 ∧ n / 2 ^ 14 % 2 ^ 7 = 5 then .pget (hdrAt n) (fieldAt 7 n 7) (fieldAt 4 n 3)
  else .illegalOp (BitVec.ofNat 32 n)

/-- Major opcode 0x0E (R40, R41). -/
def decodeOrdered (n : Nat) : Instr :=
  if n / 2 ^ 17 % 2 ^ 4 = 0 then .ldAcqB32 (hdrAt n) (fieldAt 3 n 14) (fieldAt 7 n 7) (fieldAt 7 n 0)
  else if n / 2 ^ 17 % 2 ^ 4 = 1 then .ldScB32 (hdrAt n) (fieldAt 3 n 14) (fieldAt 7 n 7) (fieldAt 7 n 0)
  else if n / 2 ^ 17 % 2 ^ 4 = 2 then .ldAcqB64 (hdrAt n) (fieldAt 3 n 14) (fieldAt 7 n 7) (fieldAt 7 n 0)
  else if n / 2 ^ 17 % 2 ^ 4 = 3 then .ldScB64 (hdrAt n) (fieldAt 3 n 14) (fieldAt 7 n 7) (fieldAt 7 n 0)
  else if n / 2 ^ 17 % 2 ^ 4 = 4 then .ldsAcq (hdrAt n) (fieldAt 3 n 14) (fieldAt 7 n 7) (fieldAt 7 n 0)
  else if n / 2 ^ 17 % 2 ^ 4 = 5 then .ldsSc (hdrAt n) (fieldAt 3 n 14) (fieldAt 7 n 7) (fieldAt 7 n 0)
  else if n / 2 ^ 17 % 2 ^ 4 = 8 then .stRelB32 (hdrAt n) (fieldAt 3 n 14) (fieldAt 7 n 7) (fieldAt 7 n 0)
  else if n / 2 ^ 17 % 2 ^ 4 = 9 then .stScB32 (hdrAt n) (fieldAt 3 n 14) (fieldAt 7 n 7) (fieldAt 7 n 0)
  else if n / 2 ^ 17 % 2 ^ 4 = 10 then .stRelB64 (hdrAt n) (fieldAt 3 n 14) (fieldAt 7 n 7) (fieldAt 7 n 0)
  else if n / 2 ^ 17 % 2 ^ 4 = 11 then .stScB64 (hdrAt n) (fieldAt 3 n 14) (fieldAt 7 n 7) (fieldAt 7 n 0)
  else if n / 2 ^ 17 % 2 ^ 4 = 12 then .stsRel (hdrAt n) (fieldAt 3 n 14) (fieldAt 7 n 7) (fieldAt 7 n 0)
  else if n / 2 ^ 17 % 2 ^ 4 = 13 then .stsSc (hdrAt n) (fieldAt 3 n 14) (fieldAt 7 n 7) (fieldAt 7 n 0)
  else .illegalOp (BitVec.ofNat 32 n)

/-- Major opcode 0x0F (R40, R41). -/
def decodeMemory (n : Nat) : Instr :=
  if n / 2 ^ 14 % 2 ^ 7 = 0 then .ldB8 (hdrAt n) (fieldAt 7 n 7) (fieldAt 7 n 0)
  else if n / 2 ^ 14 % 2 ^ 7 = 1 then .ldB16 (hdrAt n) (fieldAt 7 n 7) (fieldAt 7 n 0)
  else if n / 2 ^ 14 % 2 ^ 7 = 2 then .ldS8 (hdrAt n) (fieldAt 7 n 7) (fieldAt 7 n 0)
  else if n / 2 ^ 14 % 2 ^ 7 = 3 then .ldS16 (hdrAt n) (fieldAt 7 n 7) (fieldAt 7 n 0)
  else if n / 2 ^ 14 % 2 ^ 7 = 4 then .stB8 (hdrAt n) (fieldAt 7 n 7) (fieldAt 7 n 0)
  else if n / 2 ^ 14 % 2 ^ 7 = 5 then .stB16 (hdrAt n) (fieldAt 7 n 7) (fieldAt 7 n 0)
  else if n / 2 ^ 14 % 2 ^ 7 = 8 then .ldsB8 (hdrAt n) (fieldAt 7 n 7) (fieldAt 7 n 0)
  else if n / 2 ^ 14 % 2 ^ 7 = 9 then .ldsB16 (hdrAt n) (fieldAt 7 n 7) (fieldAt 7 n 0)
  else if n / 2 ^ 14 % 2 ^ 7 = 10 then .ldsS8 (hdrAt n) (fieldAt 7 n 7) (fieldAt 7 n 0)
  else if n / 2 ^ 14 % 2 ^ 7 = 11 then .ldsS16 (hdrAt n) (fieldAt 7 n 7) (fieldAt 7 n 0)
  else if n / 2 ^ 14 % 2 ^ 7 = 12 then .stsB8 (hdrAt n) (fieldAt 7 n 7) (fieldAt 7 n 0)
  else if n / 2 ^ 14 % 2 ^ 7 = 13 then .stsB16 (hdrAt n) (fieldAt 7 n 7) (fieldAt 7 n 0)
  else if n / 2 ^ 14 % 2 ^ 7 = 14 then .ldsB64 (hdrAt n) (fieldAt 7 n 7) (fieldAt 7 n 0)
  else if n / 2 ^ 14 % 2 ^ 7 = 15 then .stsB64 (hdrAt n) (fieldAt 7 n 7) (fieldAt 7 n 0)
  else if n / 2 ^ 14 % 2 ^ 7 = 16 then .ldkB32 (hdrAt n) (fieldAt 7 n 7) (fieldAt 7 n 0)
  else if n / 2 ^ 14 % 2 ^ 7 = 17 then .ldkB64 (hdrAt n) (fieldAt 7 n 7) (fieldAt 7 n 0)
  else if n / 2 ^ 14 % 2 ^ 7 = 18 then .stkB32 (hdrAt n) (fieldAt 7 n 7) (fieldAt 7 n 0)
  else if n / 2 ^ 14 % 2 ^ 7 = 19 then .stkB64 (hdrAt n) (fieldAt 7 n 7) (fieldAt 7 n 0)
  else if n / 2 ^ 14 % 2 ^ 7 = 24 then .ldr (hdrAt n) (fieldAt 7 n 7) (fieldAt 7 n 0)
  else if n / 2 ^ 14 % 2 ^ 7 = 25 then .str (hdrAt n) (fieldAt 7 n 7) (fieldAt 7 n 0)
  else if n / 2 ^ 14 % 2 ^ 7 = 32 then .ldargB8 (hdrAt n) (fieldAt 7 n 7) (fieldAt 7 n 0)
  else if n / 2 ^ 14 % 2 ^ 7 = 33 then .ldargB16 (hdrAt n) (fieldAt 7 n 7) (fieldAt 7 n 0)
  else if n / 2 ^ 14 % 2 ^ 7 = 34 then .ldargB32 (hdrAt n) (fieldAt 7 n 7) (fieldAt 7 n 0)
  else if n / 2 ^ 14 % 2 ^ 7 = 35 then .ldargB64 (hdrAt n) (fieldAt 7 n 7) (fieldAt 7 n 0)
  else .illegalOp (BitVec.ofNat 32 n)

/-- Major opcode 0x22 (R40, R41). -/
def decodeMajor22 (n : Nat) : Instr :=
  if n / 2 ^ 6 % 2 ^ 1 = 0 then .shl64 (hdrAt n) (fieldAt 7 n 14) (fieldAt 7 n 7) (fieldAt 6 n 0)
  else if n / 2 ^ 6 % 2 ^ 1 = 1 then .shr64 (hdrAt n) (fieldAt 7 n 14) (fieldAt 7 n 7) (fieldAt 6 n 0)
  else .illegalOp (BitVec.ofNat 32 n)

/-- Major opcode 0x2D (R40, R41). -/
def decodeMajor2D (n : Nat) : Instr :=
  if n / 2 ^ 14 % 2 ^ 3 = 0 then .classify (hdrAt n) (fieldAt 4 n 17) (fieldAt 7 n 7) (fieldAt 7 n 0)
  else .illegalOp (BitVec.ofNat 32 n)

/-- Major opcode 0x2E (R40, R41). -/
def decodeTypedUnary (n : Nat) : Instr :=
  if n / 2 ^ 0 % 2 ^ 7 = 0 then .absT (hdrAt n) (fieldAt 7 n 14) (fieldAt 7 n 7)
  else if n / 2 ^ 0 % 2 ^ 7 = 1 then .negT (hdrAt n) (fieldAt 7 n 14) (fieldAt 7 n 7)
  else if n / 2 ^ 0 % 2 ^ 7 = 2 then .sqrt (hdrAt n) (fieldAt 7 n 14) (fieldAt 7 n 7)
  else if n / 2 ^ 0 % 2 ^ 7 = 3 then .rcp (hdrAt n) (fieldAt 7 n 14) (fieldAt 7 n 7)
  else if n / 2 ^ 0 % 2 ^ 7 = 4 then .rsq (hdrAt n) (fieldAt 7 n 14) (fieldAt 7 n 7)
  else if n / 2 ^ 0 % 2 ^ 7 = 5 then .exp2 (hdrAt n) (fieldAt 7 n 14) (fieldAt 7 n 7)
  else if n / 2 ^ 0 % 2 ^ 7 = 6 then .log2 (hdrAt n) (fieldAt 7 n 14) (fieldAt 7 n 7)
  else if n / 2 ^ 0 % 2 ^ 7 = 7 then .sinpi (hdrAt n) (fieldAt 7 n 14) (fieldAt 7 n 7)
  else if n / 2 ^ 0 % 2 ^ 7 = 8 then .cospi (hdrAt n) (fieldAt 7 n 14) (fieldAt 7 n 7)
  else if n / 2 ^ 0 % 2 ^ 7 = 9 then .mkabs (hdrAt n) (fieldAt 7 n 14) (fieldAt 7 n 7)
  else .illegalOp (BitVec.ofNat 32 n)

/-- Major opcode 0x31 (R40, R41). -/
def decodeConvert (n : Nat) : Instr :=
  if n / 2 ^ 4 % 2 ^ 3 = 0 then .cvt (hdrAt n) (fieldAt 7 n 14) (fieldAt 7 n 7) (fieldAt 4 n 0)
  else if n / 2 ^ 0 % 2 ^ 7 = 16 then .cvtmx (hdrAt n) (fieldAt 7 n 14) (fieldAt 7 n 7)
  else if n / 2 ^ 0 % 2 ^ 7 = 17 then .cvtmxH16 (hdrAt n) (fieldAt 7 n 14) (fieldAt 7 n 7)
  else if n / 2 ^ 0 % 2 ^ 7 = 18 then .cvtmxH32 (hdrAt n) (fieldAt 7 n 14) (fieldAt 7 n 7)
  else if n / 2 ^ 0 % 2 ^ 7 = 24 then .pack (hdrAt n) (fieldAt 7 n 14) (fieldAt 7 n 7)
  else if n / 2 ^ 0 % 2 ^ 7 = 25 then .unpack (hdrAt n) (fieldAt 7 n 14) (fieldAt 7 n 7)
  else .illegalOp (BitVec.ofNat 32 n)

/-- Major opcode 0x32 (R40, R41). -/
def decodeCrossLane (n : Nat) : Instr :=
  if n / 2 ^ 0 % 2 ^ 7 = 0 ∧ n / 2 ^ 11 % 2 ^ 6 = 0 then .voteAny (hdrAt n) (fieldAt 4 n 17) (fieldAt 4 n 7)
  else if n / 2 ^ 0 % 2 ^ 7 = 1 ∧ n / 2 ^ 11 % 2 ^ 6 = 0 then .voteAll (hdrAt n) (fieldAt 4 n 17) (fieldAt 4 n 7)
  else if n / 2 ^ 0 % 2 ^ 7 = 2 ∧ n / 2 ^ 11 % 2 ^ 3 = 0 then .voteBallot (hdrAt n) (fieldAt 7 n 14) (fieldAt 4 n 7)
  else if n / 2 ^ 0 % 2 ^ 7 = 3 ∧ n / 2 ^ 11 % 2 ^ 6 = 0 then .voteUni (hdrAt n) (fieldAt 4 n 17) (fieldAt 4 n 7)
  else if n / 2 ^ 3 % 2 ^ 4 = 1 then .tred (hdrAt n) (fieldAt 7 n 14) (fieldAt 7 n 7) (fieldAt 3 n 0)
  else if n / 2 ^ 2 % 2 ^ 5 = 4 then .scan (hdrAt n) (fieldAt 7 n 14) (fieldAt 7 n 7) (fieldAt 2 n 0)
  else if n / 2 ^ 0 % 2 ^ 7 = 24 then .matchLanes (hdrAt n) (fieldAt 7 n 14) (fieldAt 7 n 7)
  else if n / 2 ^ 0 % 2 ^ 7 = 25 ∧ n / 2 ^ 11 % 2 ^ 6 = 0 then .elect (hdrAt n) (fieldAt 4 n 17) (fieldAt 4 n 7)
  else if n / 2 ^ 0 % 2 ^ 7 = 26 ∧ n / 2 ^ 11 % 2 ^ 3 = 0 then .cntp (hdrAt n) (fieldAt 7 n 14) (fieldAt 4 n 7)
  else .illegalOp (BitVec.ofNat 32 n)

/-- Major opcode 0x35 (R40, R41). -/
def decodeSync (n : Nat) : Instr :=
  if n / 2 ^ 0 % 2 ^ 8 = 0 ∧ n / 2 ^ 14 % 2 ^ 7 = 0 then .fence (hdrAt n) (fieldAt 3 n 11) (fieldAt 3 n 8)
  else if n / 2 ^ 0 % 2 ^ 21 = 16384 then .vcommit (hdrAt n)
  else if n / 2 ^ 14 % 2 ^ 7 = 2 then .park (hdrAt n) (fieldAt 2 n 12) (fieldAt 2 n 10) (fieldAt 5 n 5) (fieldAt 5 n 0)
  else if n / 2 ^ 0 % 2 ^ 6 = 0 ∧ n / 2 ^ 14 % 2 ^ 7 = 3 then .bararr (hdrAt n) (fieldAt 4 n 10) (fieldAt 4 n 6)
  else if n / 2 ^ 0 % 2 ^ 6 = 0 ∧ n / 2 ^ 14 % 2 ^ 7 = 4 then .barwait (hdrAt n) (fieldAt 4 n 10) (fieldAt 4 n 6)
  else if n / 2 ^ 0 % 2 ^ 12 = 0 ∧ n / 2 ^ 14 % 2 ^ 7 = 5 then .gbar (hdrAt n) (fieldAt 2 n 12)
  else if n / 2 ^ 0 % 2 ^ 21 = 131072 then .txbCoh (hdrAt n)
  else if n / 2 ^ 0 % 2 ^ 21 = 147456 then .txbDev (hdrAt n)
  else if n / 2 ^ 0 % 2 ^ 3 = 0 ∧ n / 2 ^ 14 % 2 ^ 7 = 10 then .txe (hdrAt n) (fieldAt 4 n 10) (fieldAt 7 n 3)
  else if n / 2 ^ 0 % 2 ^ 6 = 0 ∧ n / 2 ^ 14 % 2 ^ 7 = 11 then .txa (hdrAt n) (fieldAt 8 n 6)
  else if n / 2 ^ 0 % 2 ^ 4 = 0 ∧ n / 2 ^ 14 % 2 ^ 7 = 16 then .pref (hdrAt n) (fieldAt 7 n 7) (fieldAt 3 n 4)
  else if n / 2 ^ 0 % 2 ^ 4 = 0 ∧ n / 2 ^ 14 % 2 ^ 7 = 17 then .cctl (hdrAt n) (fieldAt 7 n 7) (fieldAt 3 n 4)
  else .illegalOp (BitVec.ofNat 32 n)

/-- Major opcode 0x37 (R40, R41). -/
def decodeAtomRlx (n : Nat) : Instr :=
  if n / 2 ^ 3 % 2 ^ 4 = 13 then .mredAdd (hdrAt n) (fieldAt 7 n 14) (fieldAt 7 n 7) (fieldAt 3 n 0)
  else if n / 2 ^ 3 % 2 ^ 4 = 14 then .mredFadd (hdrAt n) (fieldAt 7 n 14) (fieldAt 7 n 7) (fieldAt 3 n 0)
  else .atomRlx (hdrAt n) (fieldAt 7 n 14) (fieldAt 7 n 7) (fieldAt 4 n 3) (fieldAt 3 n 0)

/-- Major opcode 0x39 (R40, R41). -/
def decodeAtomRel (n : Nat) : Instr :=
  if n / 2 ^ 3 % 2 ^ 4 = 13 then .mredAddRel (hdrAt n) (fieldAt 7 n 14) (fieldAt 7 n 7) (fieldAt 3 n 0)
  else if n / 2 ^ 3 % 2 ^ 4 = 14 then .mredFaddRel (hdrAt n) (fieldAt 7 n 14) (fieldAt 7 n 7) (fieldAt 3 n 0)
  else .atomRel (hdrAt n) (fieldAt 7 n 14) (fieldAt 7 n 7) (fieldAt 4 n 3) (fieldAt 3 n 0)

/-- Major opcode 0x3C (R40, R41). -/
def decodeEngine (n : Nat) : Instr :=
  if n / 2 ^ 0 % 2 ^ 6 = 0 ∧ n / 2 ^ 14 % 2 ^ 7 = 0 then .tcopy (hdrAt n) (fieldAt 7 n 7) (fieldAt 1 n 6)
  else if n / 2 ^ 0 % 2 ^ 6 = 0 ∧ n / 2 ^ 14 % 2 ^ 7 = 1 then .chain (hdrAt n) (fieldAt 7 n 7) (fieldAt 1 n 6)
  else if n / 2 ^ 0 % 2 ^ 4 = 0 ∧ n / 2 ^ 14 % 2 ^ 7 = 8 then .obres (hdrAt n) (fieldAt 5 n 9) (fieldAt 5 n 4)
  else if n / 2 ^ 0 % 2 ^ 4 = 0 ∧ n / 2 ^ 14 % 2 ^ 7 = 9 then .obset (hdrAt n) (fieldAt 5 n 9) (fieldAt 5 n 4)
  else if n / 2 ^ 0 % 2 ^ 9 = 0 ∧ n / 2 ^ 14 % 2 ^ 7 = 10 then .obrel (hdrAt n) (fieldAt 5 n 9)
  else if n / 2 ^ 0 % 2 ^ 9 = 0 ∧ n / 2 ^ 14 % 2 ^ 7 = 16 then .leadN (hdrAt n) (fieldAt 5 n 9)
  else if n / 2 ^ 0 % 2 ^ 7 = 0 ∧ n / 2 ^ 12 % 2 ^ 9 = 68 then .qpushVal (hdrAt n) (fieldAt 5 n 7)
  else if n / 2 ^ 0 % 2 ^ 7 = 0 ∧ n / 2 ^ 12 % 2 ^ 9 = 69 then .qpushLd (hdrAt n) (fieldAt 5 n 7)
  else if n / 2 ^ 0 % 2 ^ 2 = 0 ∧ n / 2 ^ 12 % 2 ^ 9 = 70 then .qpushOb (hdrAt n) (fieldAt 5 n 7) (fieldAt 5 n 2)
  else if n / 2 ^ 0 % 2 ^ 7 = 0 ∧ n / 2 ^ 14 % 2 ^ 7 = 18 then .qpop (hdrAt n) (fieldAt 7 n 7)
  else if n / 2 ^ 0 % 2 ^ 6 = 0 ∧ n / 2 ^ 14 % 2 ^ 7 = 24 then .coll (hdrAt n) (fieldAt 7 n 7) (fieldAt 1 n 6)
  else if n / 2 ^ 0 % 2 ^ 7 = 0 ∧ n / 2 ^ 14 % 2 ^ 7 = 32 then .launch (hdrAt n) (fieldAt 7 n 7)
  else if n / 2 ^ 0 % 2 ^ 4 = 0 ∧ n / 2 ^ 14 % 2 ^ 7 = 40 then .msend (hdrAt n) (fieldAt 5 n 9) (fieldAt 5 n 4)
  else if n / 2 ^ 0 % 2 ^ 4 = 0 ∧ n / 2 ^ 14 % 2 ^ 7 = 41 then .mrecv (hdrAt n) (fieldAt 5 n 9) (fieldAt 5 n 4)
  else .illegalOp (BitVec.ofNat 32 n)

/-- Major opcode 0x3D (R40, R41). -/
def decodeMatrix (n : Nat) : Instr :=
  if n / 2 ^ 0 % 2 ^ 11 = 0 ∧ n / 2 ^ 14 % 2 ^ 7 = 0 then .mres (hdrAt n) (fieldAt 3 n 11)
  else if n / 2 ^ 0 % 2 ^ 11 = 0 ∧ n / 2 ^ 14 % 2 ^ 7 = 1 then .mrel (hdrAt n) (fieldAt 3 n 11)
  else if n / 2 ^ 0 % 2 ^ 10 = 0 ∧ n / 2 ^ 14 % 2 ^ 7 = 2 then .mmz (hdrAt n) (fieldAt 3 n 11) (fieldAt 1 n 10)
  else if n / 2 ^ 5 % 2 ^ 6 = 0 ∧ n / 2 ^ 14 % 2 ^ 7 = 3 then .mld (hdrAt n) (fieldAt 3 n 11) (fieldAt 5 n 0)
  else if n / 2 ^ 0 % 2 ^ 1 = 0 ∧ n / 2 ^ 14 % 2 ^ 7 = 8 then .mma (hdrAt n) (fieldAt 3 n 11) (fieldAt 5 n 6) (fieldAt 5 n 1)
  else if n / 2 ^ 0 % 2 ^ 1 = 1 ∧ n / 2 ^ 14 % 2 ^ 7 = 8 then .mmaTile (hdrAt n) (fieldAt 3 n 11) (fieldAt 3 n 8) (fieldAt 2 n 6) (fieldAt 5 n 1)
  else if n / 2 ^ 14 % 2 ^ 7 = 16 then .mdrain (hdrAt n) (fieldAt 3 n 11) (fieldAt 2 n 9) (fieldAt 2 n 7) (fieldAt 2 n 5) (fieldAt 5 n 0)
  else if n / 2 ^ 5 % 2 ^ 6 = 0 ∧ n / 2 ^ 14 % 2 ^ 7 = 24 then .smx (hdrAt n) (fieldAt 3 n 11) (fieldAt 5 n 0)
  else if n / 2 ^ 5 % 2 ^ 6 = 0 ∧ n / 2 ^ 14 % 2 ^ 7 = 25 then .sexp (hdrAt n) (fieldAt 3 n 11) (fieldAt 5 n 0)
  else if n / 2 ^ 0 % 2 ^ 8 = 0 ∧ n / 2 ^ 14 % 2 ^ 7 = 26 then .srsc (hdrAt n) (fieldAt 3 n 11) (fieldAt 3 n 8)
  else .illegalOp (BitVec.ofNat 32 n)

/-- Major opcode 0x3E (R40, R41). -/
def decodeSystem (n : Nat) : Instr :=
  if n / 2 ^ 0 % 2 ^ 6 = 0 ∧ n / 2 ^ 14 % 2 ^ 7 = 0 then .trap (hdrAt n) (fieldAt 8 n 6)
  else if n / 2 ^ 0 % 2 ^ 1 = 0 ∧ n / 2 ^ 14 % 2 ^ 7 = 1 then .sysReq (hdrAt n) (fieldAt 8 n 6) (fieldAt 5 n 1)
  else if n / 2 ^ 0 % 2 ^ 7 = 0 ∧ n / 2 ^ 14 % 2 ^ 7 = 2 then .rdclk (hdrAt n) (fieldAt 7 n 7)
  else if n / 2 ^ 0 % 2 ^ 7 = 0 ∧ n / 2 ^ 14 % 2 ^ 7 = 3 then .rdtime (hdrAt n) (fieldAt 7 n 7)
  else if n / 2 ^ 14 % 2 ^ 7 = 4 then .mark (hdrAt n) (fieldAt 14 n 0)
  else if n / 2 ^ 7 % 2 ^ 2 = 0 ∧ n / 2 ^ 14 % 2 ^ 7 = 8 then .csrr (hdrAt n) (fieldAt 5 n 9) (fieldAt 7 n 0)
  else if n / 2 ^ 7 % 2 ^ 2 = 0 ∧ n / 2 ^ 14 % 2 ^ 7 = 9 then .csrw (hdrAt n) (fieldAt 5 n 9) (fieldAt 7 n 0)
  else if n / 2 ^ 0 % 2 ^ 4 = 0 ∧ n / 2 ^ 14 % 2 ^ 7 = 10 then .probe (hdrAt n) (fieldAt 5 n 9) (fieldAt 5 n 4)
  else if n / 2 ^ 14 % 2 ^ 7 = 11 then .pcnt (hdrAt n) (fieldAt 7 n 7) (fieldAt 7 n 0)
  else if n / 2 ^ 0 % 2 ^ 4 = 0 ∧ n / 2 ^ 14 % 2 ^ 7 = 12 then .dstep (hdrAt n) (fieldAt 5 n 9) (fieldAt 5 n 4)
  else if n / 2 ^ 0 % 2 ^ 21 = 212992 then .halt (hdrAt n)
  else .illegalOp (BitVec.ofNat 32 n)

/-- The instruction of a word given as a number below 2^32. -/
def decodeNat (n : Nat) : Instr :=
  match n / 2 ^ 26 with
  | 1 => decodeControl n
  | 2 => .jset (hdrAt n) (fieldAt 2 n 19) (fieldAt 19 n 0)
  | 3 => .movi (hdrAt n) (fieldAt 7 n 14) (fieldAt 14 n 0)
  | 4 => .movhi (hdrAt n) (fieldAt 7 n 14) (fieldAt 14 n 0)
  | 5 => .iaddi (hdrAt n) (fieldAt 7 n 14) (fieldAt 7 n 7) (fieldAt 7 n 0)
  | 6 => decodeUnary n
  | 7 => decodePredicate n
  | 8 => .ldB32 (hdrAt n) (fieldAt 7 n 14) (fieldAt 7 n 7) (fieldAt 7 n 0)
  | 9 => .ldB64 (hdrAt n) (fieldAt 7 n 14) (fieldAt 7 n 7) (fieldAt 7 n 0)
  | 10 => .stB32 (hdrAt n) (fieldAt 7 n 14) (fieldAt 7 n 7) (fieldAt 7 n 0)
  | 11 => .stB64 (hdrAt n) (fieldAt 7 n 14) (fieldAt 7 n 7) (fieldAt 7 n 0)
  | 12 => .ldsB32 (hdrAt n) (fieldAt 7 n 14) (fieldAt 7 n 7) (fieldAt 7 n 0)
  | 13 => .stsB32 (hdrAt n) (fieldAt 7 n 14) (fieldAt 7 n 7) (fieldAt 7 n 0)
  | 14 => decodeOrdered n
  | 15 => decodeMemory n
  | 16 => .iadd (hdrAt n) (fieldAt 7 n 14) (fieldAt 7 n 7) (fieldAt 7 n 0)
  | 17 => .isub (hdrAt n) (fieldAt 7 n 14) (fieldAt 7 n 7) (fieldAt 7 n 0)
  | 18 => .imul (hdrAt n) (fieldAt 7 n 14) (fieldAt 7 n 7) (fieldAt 7 n 0)
  | 19 => .imulh (hdrAt n) (fieldAt 7 n 14) (fieldAt 7 n 7) (fieldAt 7 n 0)
  | 20 => .andB (hdrAt n) (fieldAt 7 n 14) (fieldAt 7 n 7) (fieldAt 7 n 0)
  | 21 => .orB (hdrAt n) (fieldAt 7 n 14) (fieldAt 7 n 7) (fieldAt 7 n 0)
  | 22 => .xorB (hdrAt n) (fieldAt 7 n 14) (fieldAt 7 n 7) (fieldAt 7 n 0)
  | 23 => .andnB (hdrAt n) (fieldAt 7 n 14) (fieldAt 7 n 7) (fieldAt 7 n 0)
  | 24 => .shl (hdrAt n) (fieldAt 7 n 14) (fieldAt 7 n 7) (fieldAt 7 n 0)
  | 25 => .shr (hdrAt n) (fieldAt 7 n 14) (fieldAt 7 n 7) (fieldAt 7 n 0)
  | 26 => .sar (hdrAt n) (fieldAt 7 n 14) (fieldAt 7 n 7) (fieldAt 7 n 0)
  | 27 => .rot (hdrAt n) (fieldAt 7 n 14) (fieldAt 7 n 7) (fieldAt 7 n 0)
  | 28 => .bfx (hdrAt n) (fieldAt 7 n 14) (fieldAt 7 n 7) (fieldAt 7 n 0)
  | 29 => .bfi (hdrAt n) (fieldAt 7 n 14) (fieldAt 7 n 7) (fieldAt 7 n 0)
  | 30 => .sel (hdrAt n) (fieldAt 7 n 14) (fieldAt 7 n 7) (fieldAt 7 n 0)
  | 31 => .lea (hdrAt n) (fieldAt 7 n 14) (fieldAt 7 n 7) (fieldAt 7 n 0)
  | 32 => .add64 (hdrAt n) (fieldAt 7 n 14) (fieldAt 7 n 7) (fieldAt 7 n 0)
  | 33 => .sub64 (hdrAt n) (fieldAt 7 n 14) (fieldAt 7 n 7) (fieldAt 7 n 0)
  | 34 => decodeMajor22 n
  | 35 => .icmp (hdrAt n) (fieldAt 4 n 17) (fieldAt 3 n 14) (fieldAt 7 n 7) (fieldAt 7 n 0)
  | 36 => .ucmp (hdrAt n) (fieldAt 4 n 17) (fieldAt 3 n 14) (fieldAt 7 n 7) (fieldAt 7 n 0)
  | 37 => .addT (hdrAt n) (fieldAt 7 n 14) (fieldAt 7 n 7) (fieldAt 7 n 0)
  | 38 => .subT (hdrAt n) (fieldAt 7 n 14) (fieldAt 7 n 7) (fieldAt 7 n 0)
  | 39 => .mulT (hdrAt n) (fieldAt 7 n 14) (fieldAt 7 n 7) (fieldAt 7 n 0)
  | 40 => .minT (hdrAt n) (fieldAt 7 n 14) (fieldAt 7 n 7) (fieldAt 7 n 0)
  | 41 => .maxT (hdrAt n) (fieldAt 7 n 14) (fieldAt 7 n 7) (fieldAt 7 n 0)
  | 42 => .divT (hdrAt n) (fieldAt 7 n 14) (fieldAt 7 n 7) (fieldAt 7 n 0)
  | 43 => .dot (hdrAt n) (fieldAt 7 n 14) (fieldAt 7 n 7) (fieldAt 7 n 0)
  | 44 => .fcmp (hdrAt n) (fieldAt 4 n 17) (fieldAt 3 n 14) (fieldAt 7 n 7) (fieldAt 7 n 0)
  | 45 => decodeMajor2D n
  | 46 => decodeTypedUnary n
  | 47 => .fma (hdrAt n) (fieldAt 7 n 14) (fieldAt 7 n 7) (fieldAt 7 n 0)
  | 48 => .fmaN (hdrAt n) (fieldAt 7 n 14) (fieldAt 7 n 7) (fieldAt 7 n 0)
  | 49 => decodeConvert n
  | 50 => decodeCrossLane n
  | 51 => .shfl (hdrAt n) (fieldAt 7 n 14) (fieldAt 7 n 7) (fieldAt 2 n 5) (fieldAt 5 n 0)
  | 52 => .wait (hdrAt n) (fieldAt 5 n 16) (fieldAt 5 n 11) (fieldAt 5 n 6) (fieldAt 6 n 0)
  | 53 => decodeSync n
  | 54 => .atomScratchpad (hdrAt n) (fieldAt 7 n 14) (fieldAt 7 n 7) (fieldAt 4 n 3) (fieldAt 3 n 0)
  | 55 => decodeAtomRlx n
  | 56 => .atomAcq (hdrAt n) (fieldAt 7 n 14) (fieldAt 7 n 7) (fieldAt 4 n 3) (fieldAt 3 n 0)
  | 57 => decodeAtomRel n
  | 58 => .atomAr (hdrAt n) (fieldAt 7 n 14) (fieldAt 7 n 7) (fieldAt 4 n 3) (fieldAt 3 n 0)
  | 59 => .atomSc (hdrAt n) (fieldAt 7 n 14) (fieldAt 7 n 7) (fieldAt 4 n 3) (fieldAt 3 n 0)
  | 60 => decodeEngine n
  | 61 => decodeMatrix n
  | 62 => decodeSystem n
  | _ => .illegalOp (BitVec.ofNat 32 n)

/-- The instruction of a word (R40, R41). -/
def decode (w : Word) : Instr := decodeNat w.toNat

/-- Why bytes hold no word. -/
inductive DecodeError where
  /-- Fewer than the four bytes of a word are given (R9). -/
  | truncated
  deriving DecidableEq, Repr

/-- Reads one instruction from bytes, little-endian (R6, R9), and gives the rest. -/
def decodeBytes : List Byte → Except DecodeError (Instr × List Byte)
  | b0 :: b1 :: b2 :: b3 :: rest =>
    .ok (decodeNat (b0.toNat + b1.toNat * 2 ^ 8 + b2.toNat * 2 ^ 16 + b3.toNat * 2 ^ 24), rest)
  | _ => .error .truncated

/-- The four bytes of a word, little-endian. -/
def wordBytes (n : Nat) : List Byte :=
  [BitVec.ofNat 8 n, BitVec.ofNat 8 (n / 2 ^ 8), BitVec.ofNat 8 (n / 2 ^ 16), BitVec.ofNat 8 (n / 2 ^ 24)]

/-- The instruction the decoder reads from a word whose bits are `w`, numbered from the least significant bit of
the word; bits from `nbits` up are 0. -/
def decodeTableWord (nbits w : Nat) : Option Instr :=
  match decodeBytes (wordBytes (w % 2 ^ nbits % 2 ^ 32)) with
  | .ok (i, _) => some i
  | .error _ => none

/-- The bits that every word carries beside its operands (R9). -/
def hdrNat (h : Hdr) : Nat := h.seq.toNat * 2 ^ 22 + (if h.b then 2 ^ 21 else 0)

/-- Operand fields, each a value and its lowest bit, as one number. -/
def packFields : List (Nat × Nat) → Nat
  | [] => 0
  | f :: fs => f.1 * 2 ^ f.2 + packFields fs

/-- A word from its fixed bits, its header and its operand fields (R9). -/
def wordOf (fixed : Nat) (h : Hdr) (fs : List (Nat × Nat)) : Nat := fixed + hdrNat h + packFields fs

/-- The word of an instruction, as a number (R13, R40 to R46). An event has no word. -/
def encodeNat : Instr → Nat
  | .nop h => wordOf 0x04000000 h []
  | .jmov h j a => wordOf 0x04004000 h [(j.toNat, 12), (a.toNat, 5)]
  | .jget h d j => wordOf 0x04008000 h [(d.toNat, 7), (j.toNat, 5)]
  | .lset h a => wordOf 0x0400C000 h [(a.toNat, 7)]
  | .lsetImm h n => wordOf 0x04010000 h [(n.toNat, 0)]
  | .lbrk h => wordOf 0x04014000 h []
  | .msetLo h v => wordOf 0x04018000 h [(v.toNat, 0)]
  | .msetFl h v => wordOf 0x04019000 h [(v.toNat, 0)]
  | .msetHi h v => wordOf 0x0401A000 h [(v.toNat, 0)]
  | .mput h a => wordOf 0x0401C000 h [(a.toNat, 7)]
  | .mget h d => wordOf 0x04020000 h [(d.toNat, 7)]
  | .tile h w => wordOf 0x04024000 h [(w.toNat, 0)]
  | .sreg h d n => wordOf 0x04028000 h [(d.toNat, 7), (n.toNat, 0)]
  | .rdlane h d a => wordOf 0x0402C000 h [(d.toNat, 7), (a.toNat, 0)]
  | .jset h j i => wordOf 0x08000000 h [(j.toNat, 19), (i.toNat, 0)]
  | .movi h d i => wordOf 0x0C000000 h [(d.toNat, 14), (i.toNat, 0)]
  | .movhi h d i => wordOf 0x10000000 h [(d.toNat, 14), (i.toNat, 0)]
  | .iaddi h d a i => wordOf 0x14000000 h [(d.toNat, 14), (a.toNat, 7), (i.toNat, 0)]
  | .mov h d a => wordOf 0x18000000 h [(d.toNat, 14), (a.toNat, 7)]
  | .popc h d a => wordOf 0x18000001 h [(d.toNat, 14), (a.toNat, 7)]
  | .clz h d a => wordOf 0x18000002 h [(d.toNat, 14), (a.toNat, 7)]
  | .ctz h d a => wordOf 0x18000003 h [(d.toNat, 14), (a.toNat, 7)]
  | .brev h d a => wordOf 0x18000004 h [(d.toNat, 14), (a.toNat, 7)]
  | .pand h d a c => wordOf 0x1C000000 h [(d.toNat, 10), (a.toNat, 6), (c.toNat, 2)]
  | .por h d a c => wordOf 0x1C004000 h [(d.toNat, 10), (a.toNat, 6), (c.toNat, 2)]
  | .pxor h d a c => wordOf 0x1C008000 h [(d.toNat, 10), (a.toNat, 6), (c.toNat, 2)]
  | .pnot h d a => wordOf 0x1C00C000 h [(d.toNat, 10), (a.toNat, 6)]
  | .pset h d a => wordOf 0x1C010000 h [(d.toNat, 10), (a.toNat, 3)]
  | .pget h d p => wordOf 0x1C014000 h [(d.toNat, 7), (p.toNat, 3)]
  | .ldB32 h d a o => wordOf 0x20000000 h [(d.toNat, 14), (a.toNat, 7), (o.toNat, 0)]
  | .ldB64 h d a o => wordOf 0x24000000 h [(d.toNat, 14), (a.toNat, 7), (o.toNat, 0)]
  | .stB32 h d a o => wordOf 0x28000000 h [(d.toNat, 14), (a.toNat, 7), (o.toNat, 0)]
  | .stB64 h d a o => wordOf 0x2C000000 h [(d.toNat, 14), (a.toNat, 7), (o.toNat, 0)]
  | .ldsB32 h d a o => wordOf 0x30000000 h [(d.toNat, 14), (a.toNat, 7), (o.toNat, 0)]
  | .stsB32 h d a o => wordOf 0x34000000 h [(d.toNat, 14), (a.toNat, 7), (o.toNat, 0)]
  | .ldAcqB32 h c d a => wordOf 0x38000000 h [(c.toNat, 14), (d.toNat, 7), (a.toNat, 0)]
  | .ldScB32 h c d a => wordOf 0x38020000 h [(c.toNat, 14), (d.toNat, 7), (a.toNat, 0)]
  | .ldAcqB64 h c d a => wordOf 0x38040000 h [(c.toNat, 14), (d.toNat, 7), (a.toNat, 0)]
  | .ldScB64 h c d a => wordOf 0x38060000 h [(c.toNat, 14), (d.toNat, 7), (a.toNat, 0)]
  | .ldsAcq h c d a => wordOf 0x38080000 h [(c.toNat, 14), (d.toNat, 7), (a.toNat, 0)]
  | .ldsSc h c d a => wordOf 0x380A0000 h [(c.toNat, 14), (d.toNat, 7), (a.toNat, 0)]
  | .stRelB32 h c d a => wordOf 0x38100000 h [(c.toNat, 14), (d.toNat, 7), (a.toNat, 0)]
  | .stScB32 h c d a => wordOf 0x38120000 h [(c.toNat, 14), (d.toNat, 7), (a.toNat, 0)]
  | .stRelB64 h c d a => wordOf 0x38140000 h [(c.toNat, 14), (d.toNat, 7), (a.toNat, 0)]
  | .stScB64 h c d a => wordOf 0x38160000 h [(c.toNat, 14), (d.toNat, 7), (a.toNat, 0)]
  | .stsRel h c d a => wordOf 0x38180000 h [(c.toNat, 14), (d.toNat, 7), (a.toNat, 0)]
  | .stsSc h c d a => wordOf 0x381A0000 h [(c.toNat, 14), (d.toNat, 7), (a.toNat, 0)]
  | .ldB8 h d a => wordOf 0x3C000000 h [(d.toNat, 7), (a.toNat, 0)]
  | .ldB16 h d a => wordOf 0x3C004000 h [(d.toNat, 7), (a.toNat, 0)]
  | .ldS8 h d a => wordOf 0x3C008000 h [(d.toNat, 7), (a.toNat, 0)]
  | .ldS16 h d a => wordOf 0x3C00C000 h [(d.toNat, 7), (a.toNat, 0)]
  | .stB8 h d a => wordOf 0x3C010000 h [(d.toNat, 7), (a.toNat, 0)]
  | .stB16 h d a => wordOf 0x3C014000 h [(d.toNat, 7), (a.toNat, 0)]
  | .ldsB8 h d a => wordOf 0x3C020000 h [(d.toNat, 7), (a.toNat, 0)]
  | .ldsB16 h d a => wordOf 0x3C024000 h [(d.toNat, 7), (a.toNat, 0)]
  | .ldsS8 h d a => wordOf 0x3C028000 h [(d.toNat, 7), (a.toNat, 0)]
  | .ldsS16 h d a => wordOf 0x3C02C000 h [(d.toNat, 7), (a.toNat, 0)]
  | .stsB8 h d a => wordOf 0x3C030000 h [(d.toNat, 7), (a.toNat, 0)]
  | .stsB16 h d a => wordOf 0x3C034000 h [(d.toNat, 7), (a.toNat, 0)]
  | .ldsB64 h d a => wordOf 0x3C038000 h [(d.toNat, 7), (a.toNat, 0)]
  | .stsB64 h d a => wordOf 0x3C03C000 h [(d.toNat, 7), (a.toNat, 0)]
  | .ldkB32 h d a => wordOf 0x3C040000 h [(d.toNat, 7), (a.toNat, 0)]
  | .ldkB64 h d a => wordOf 0x3C044000 h [(d.toNat, 7), (a.toNat, 0)]
  | .stkB32 h d a => wordOf 0x3C048000 h [(d.toNat, 7), (a.toNat, 0)]
  | .stkB64 h d a => wordOf 0x3C04C000 h [(d.toNat, 7), (a.toNat, 0)]
  | .ldr h d a => wordOf 0x3C060000 h [(d.toNat, 7), (a.toNat, 0)]
  | .str h d a => wordOf 0x3C064000 h [(d.toNat, 7), (a.toNat, 0)]
  | .ldargB8 h d a => wordOf 0x3C080000 h [(d.toNat, 7), (a.toNat, 0)]
  | .ldargB16 h d a => wordOf 0x3C084000 h [(d.toNat, 7), (a.toNat, 0)]
  | .ldargB32 h d a => wordOf 0x3C088000 h [(d.toNat, 7), (a.toNat, 0)]
  | .ldargB64 h d a => wordOf 0x3C08C000 h [(d.toNat, 7), (a.toNat, 0)]
  | .iadd h d a c => wordOf 0x40000000 h [(d.toNat, 14), (a.toNat, 7), (c.toNat, 0)]
  | .isub h d a c => wordOf 0x44000000 h [(d.toNat, 14), (a.toNat, 7), (c.toNat, 0)]
  | .imul h d a c => wordOf 0x48000000 h [(d.toNat, 14), (a.toNat, 7), (c.toNat, 0)]
  | .imulh h d a c => wordOf 0x4C000000 h [(d.toNat, 14), (a.toNat, 7), (c.toNat, 0)]
  | .andB h d a c => wordOf 0x50000000 h [(d.toNat, 14), (a.toNat, 7), (c.toNat, 0)]
  | .orB h d a c => wordOf 0x54000000 h [(d.toNat, 14), (a.toNat, 7), (c.toNat, 0)]
  | .xorB h d a c => wordOf 0x58000000 h [(d.toNat, 14), (a.toNat, 7), (c.toNat, 0)]
  | .andnB h d a c => wordOf 0x5C000000 h [(d.toNat, 14), (a.toNat, 7), (c.toNat, 0)]
  | .shl h d a c => wordOf 0x60000000 h [(d.toNat, 14), (a.toNat, 7), (c.toNat, 0)]
  | .shr h d a c => wordOf 0x64000000 h [(d.toNat, 14), (a.toNat, 7), (c.toNat, 0)]
  | .sar h d a c => wordOf 0x68000000 h [(d.toNat, 14), (a.toNat, 7), (c.toNat, 0)]
  | .rot h d a c => wordOf 0x6C000000 h [(d.toNat, 14), (a.toNat, 7), (c.toNat, 0)]
  | .bfx h d a c => wordOf 0x70000000 h [(d.toNat, 14), (a.toNat, 7), (c.toNat, 0)]
  | .bfi h d a c => wordOf 0x74000000 h [(d.toNat, 14), (a.toNat, 7), (c.toNat, 0)]
  | .sel h d a c => wordOf 0x78000000 h [(d.toNat, 14), (a.toNat, 7), (c.toNat, 0)]
  | .lea h d a c => wordOf 0x7C000000 h [(d.toNat, 14), (a.toNat, 7), (c.toNat, 0)]
  | .add64 h d a c => wordOf 0x80000000 h [(d.toNat, 14), (a.toNat, 7), (c.toNat, 0)]
  | .sub64 h d a c => wordOf 0x84000000 h [(d.toNat, 14), (a.toNat, 7), (c.toNat, 0)]
  | .shl64 h d a n => wordOf 0x88000000 h [(d.toNat, 14), (a.toNat, 7), (n.toNat, 0)]
  | .shr64 h d a n => wordOf 0x88000040 h [(d.toNat, 14), (a.toNat, 7), (n.toNat, 0)]
  | .icmp h p k a c => wordOf 0x8C000000 h [(p.toNat, 17), (k.toNat, 14), (a.toNat, 7), (c.toNat, 0)]
  | .ucmp h p k a c => wordOf 0x90000000 h [(p.toNat, 17), (k.toNat, 14), (a.toNat, 7), (c.toNat, 0)]
  | .addT h d a c => wordOf 0x94000000 h [(d.toNat, 14), (a.toNat, 7), (c.toNat, 0)]
  | .subT h d a c => wordOf 0x98000000 h [(d.toNat, 14), (a.toNat, 7), (c.toNat, 0)]
  | .mulT h d a c => wordOf 0x9C000000 h [(d.toNat, 14), (a.toNat, 7), (c.toNat, 0)]
  | .minT h d a c => wordOf 0xA0000000 h [(d.toNat, 14), (a.toNat, 7), (c.toNat, 0)]
  | .maxT h d a c => wordOf 0xA4000000 h [(d.toNat, 14), (a.toNat, 7), (c.toNat, 0)]
  | .divT h d a c => wordOf 0xA8000000 h [(d.toNat, 14), (a.toNat, 7), (c.toNat, 0)]
  | .dot h d a c => wordOf 0xAC000000 h [(d.toNat, 14), (a.toNat, 7), (c.toNat, 0)]
  | .fcmp h p k a c => wordOf 0xB0000000 h [(p.toNat, 17), (k.toNat, 14), (a.toNat, 7), (c.toNat, 0)]
  | .classify h p a m => wordOf 0xB4000000 h [(p.toNat, 17), (a.toNat, 7), (m.toNat, 0)]
  | .absT h d a => wordOf 0xB8000000 h [(d.toNat, 14), (a.toNat, 7)]
  | .negT h d a => wordOf 0xB8000001 h [(d.toNat, 14), (a.toNat, 7)]
  | .sqrt h d a => wordOf 0xB8000002 h [(d.toNat, 14), (a.toNat, 7)]
  | .rcp h d a => wordOf 0xB8000003 h [(d.toNat, 14), (a.toNat, 7)]
  | .rsq h d a => wordOf 0xB8000004 h [(d.toNat, 14), (a.toNat, 7)]
  | .exp2 h d a => wordOf 0xB8000005 h [(d.toNat, 14), (a.toNat, 7)]
  | .log2 h d a => wordOf 0xB8000006 h [(d.toNat, 14), (a.toNat, 7)]
  | .sinpi h d a => wordOf 0xB8000007 h [(d.toNat, 14), (a.toNat, 7)]
  | .cospi h d a => wordOf 0xB8000008 h [(d.toNat, 14), (a.toNat, 7)]
  | .mkabs h d a => wordOf 0xB8000009 h [(d.toNat, 14), (a.toNat, 7)]
  | .fma h d a c => wordOf 0xBC000000 h [(d.toNat, 14), (a.toNat, 7), (c.toNat, 0)]
  | .fmaN h d a c => wordOf 0xC0000000 h [(d.toNat, 14), (a.toNat, 7), (c.toNat, 0)]
  | .cvt h d a t => wordOf 0xC4000000 h [(d.toNat, 14), (a.toNat, 7), (t.toNat, 0)]
  | .cvtmx h d a => wordOf 0xC4000010 h [(d.toNat, 14), (a.toNat, 7)]
  | .cvtmxH16 h d a => wordOf 0xC4000011 h [(d.toNat, 14), (a.toNat, 7)]
  | .cvtmxH32 h d a => wordOf 0xC4000012 h [(d.toNat, 14), (a.toNat, 7)]
  | .pack h d a => wordOf 0xC4000018 h [(d.toNat, 14), (a.toNat, 7)]
  | .unpack h d a => wordOf 0xC4000019 h [(d.toNat, 14), (a.toNat, 7)]
  | .voteAny h p q => wordOf 0xC8000000 h [(p.toNat, 17), (q.toNat, 7)]
  | .voteAll h p q => wordOf 0xC8000001 h [(p.toNat, 17), (q.toNat, 7)]
  | .voteBallot h d q => wordOf 0xC8000002 h [(d.toNat, 14), (q.toNat, 7)]
  | .voteUni h p q => wordOf 0xC8000003 h [(p.toNat, 17), (q.toNat, 7)]
  | .tred h d a o => wordOf 0xC8000008 h [(d.toNat, 14), (a.toNat, 7), (o.toNat, 0)]
  | .scan h d a o => wordOf 0xC8000010 h [(d.toNat, 14), (a.toNat, 7), (o.toNat, 0)]
  | .matchLanes h d a => wordOf 0xC8000018 h [(d.toNat, 14), (a.toNat, 7)]
  | .elect h p q => wordOf 0xC8000019 h [(p.toNat, 17), (q.toNat, 7)]
  | .cntp h d q => wordOf 0xC800001A h [(d.toNat, 14), (q.toNat, 7)]
  | .shfl h d a m n => wordOf 0xCC000000 h [(d.toNat, 14), (a.toNat, 7), (m.toNat, 5), (n.toNat, 0)]
  | .wait h l e p t => wordOf 0xD0000000 h [(l.toNat, 16), (e.toNat, 11), (p.toNat, 6), (t.toNat, 0)]
  | .fence h o c => wordOf 0xD4000000 h [(o.toNat, 11), (c.toNat, 8)]
  | .vcommit h => wordOf 0xD4004000 h []
  | .park h k n a c => wordOf 0xD4008000 h [(k.toNat, 12), (n.toNat, 10), (a.toNat, 5), (c.toNat, 0)]
  | .bararr h i n => wordOf 0xD400C000 h [(i.toNat, 10), (n.toNat, 6)]
  | .barwait h i n => wordOf 0xD4010000 h [(i.toNat, 10), (n.toNat, 6)]
  | .gbar h i => wordOf 0xD4014000 h [(i.toNat, 12)]
  | .txbCoh h => wordOf 0xD4020000 h []
  | .txbDev h => wordOf 0xD4024000 h []
  | .txe h p d => wordOf 0xD4028000 h [(p.toNat, 10), (d.toNat, 3)]
  | .txa h c => wordOf 0xD402C000 h [(c.toNat, 6)]
  | .pref h a l => wordOf 0xD4040000 h [(a.toNat, 7), (l.toNat, 4)]
  | .cctl h a o => wordOf 0xD4044000 h [(a.toNat, 7), (o.toNat, 4)]
  | .atomScratchpad h d a o r => wordOf 0xD8000000 h [(d.toNat, 14), (a.toNat, 7), (o.toNat, 3), (r.toNat, 0)]
  | .atomRlx h d a o c => wordOf 0xDC000000 h [(d.toNat, 14), (a.toNat, 7), (o.toNat, 3), (c.toNat, 0)]
  | .atomAcq h d a o c => wordOf 0xE0000000 h [(d.toNat, 14), (a.toNat, 7), (o.toNat, 3), (c.toNat, 0)]
  | .atomRel h d a o c => wordOf 0xE4000000 h [(d.toNat, 14), (a.toNat, 7), (o.toNat, 3), (c.toNat, 0)]
  | .atomAr h d a o c => wordOf 0xE8000000 h [(d.toNat, 14), (a.toNat, 7), (o.toNat, 3), (c.toNat, 0)]
  | .atomSc h d a o c => wordOf 0xEC000000 h [(d.toNat, 14), (a.toNat, 7), (o.toNat, 3), (c.toNat, 0)]
  | .mredAdd h d a c => wordOf 0xDC000068 h [(d.toNat, 14), (a.toNat, 7), (c.toNat, 0)]
  | .mredAddRel h d a c => wordOf 0xE4000068 h [(d.toNat, 14), (a.toNat, 7), (c.toNat, 0)]
  | .mredFadd h d a c => wordOf 0xDC000070 h [(d.toNat, 14), (a.toNat, 7), (c.toNat, 0)]
  | .mredFaddRel h d a c => wordOf 0xE4000070 h [(d.toNat, 14), (a.toNat, 7), (c.toNat, 0)]
  | .tcopy h a p => wordOf 0xF0000000 h [(a.toNat, 7), (p.toNat, 6)]
  | .chain h a p => wordOf 0xF0004000 h [(a.toNat, 7), (p.toNat, 6)]
  | .obres h n c => wordOf 0xF0020000 h [(n.toNat, 9), (c.toNat, 4)]
  | .obset h n a => wordOf 0xF0024000 h [(n.toNat, 9), (a.toNat, 4)]
  | .obrel h n => wordOf 0xF0028000 h [(n.toNat, 9)]
  | .leadN h n => wordOf 0xF0040000 h [(n.toNat, 9)]
  | .qpushVal h a => wordOf 0xF0044000 h [(a.toNat, 7)]
  | .qpushLd h a => wordOf 0xF0045000 h [(a.toNat, 7)]
  | .qpushOb h a n => wordOf 0xF0046000 h [(a.toNat, 7), (n.toNat, 2)]
  | .qpop h d => wordOf 0xF0048000 h [(d.toNat, 7)]
  | .coll h a p => wordOf 0xF0060000 h [(a.toNat, 7), (p.toNat, 6)]
  | .launch h a => wordOf 0xF0080000 h [(a.toNat, 7)]
  | .msend h a c => wordOf 0xF00A0000 h [(a.toNat, 9), (c.toNat, 4)]
  | .mrecv h a c => wordOf 0xF00A4000 h [(a.toNat, 9), (c.toNat, 4)]
  | .mres h t => wordOf 0xF4000000 h [(t.toNat, 11)]
  | .mrel h t => wordOf 0xF4004000 h [(t.toNat, 11)]
  | .mmz h t s => wordOf 0xF4008000 h [(t.toNat, 11), (s.toNat, 10)]
  | .mld h t a => wordOf 0xF400C000 h [(t.toNat, 11), (a.toNat, 0)]
  | .mma h t a b => wordOf 0xF4020000 h [(t.toNat, 11), (a.toNat, 6), (b.toNat, 1)]
  | .mmaTile h t s c b => wordOf 0xF4020001 h [(t.toNat, 11), (s.toNat, 8), (c.toNat, 6), (b.toNat, 1)]
  | .mdrain h t k n o i => wordOf 0xF4040000 h [(t.toNat, 11), (k.toNat, 9), (n.toNat, 7), (o.toNat, 5), (i.toNat, 0)]
  | .smx h t c => wordOf 0xF4060000 h [(t.toNat, 11), (c.toNat, 0)]
  | .sexp h t c => wordOf 0xF4064000 h [(t.toNat, 11), (c.toNat, 0)]
  | .srsc h o s => wordOf 0xF4068000 h [(o.toNat, 11), (s.toNat, 8)]
  | .trap h c => wordOf 0xF8000000 h [(c.toNat, 6)]
  | .sysReq h c a => wordOf 0xF8004000 h [(c.toNat, 6), (a.toNat, 1)]
  | .rdclk h d => wordOf 0xF8008000 h [(d.toNat, 7)]
  | .rdtime h d => wordOf 0xF800C000 h [(d.toNat, 7)]
  | .mark h n => wordOf 0xF8010000 h [(n.toNat, 0)]
  | .csrr h d c => wordOf 0xF8020000 h [(d.toNat, 9), (c.toNat, 0)]
  | .csrw h a c => wordOf 0xF8024000 h [(a.toNat, 9), (c.toNat, 0)]
  | .probe h d a => wordOf 0xF8028000 h [(d.toNat, 9), (a.toNat, 4)]
  | .pcnt h d n => wordOf 0xF802C000 h [(d.toNat, 7), (n.toNat, 0)]
  | .dstep h d a => wordOf 0xF8030000 h [(d.toNat, 9), (a.toNat, 4)]
  | .halt h => wordOf 0xF8034000 h []
  | .illegalOp w => w.toNat
  | .loadResultWrite _ _ => 0
  | .storePerformed _ _ => 0
  | .atomicRequestExecute _ _ _ => 0
  | .commit _ => 0
  | .txValidation _ _ _ => 0
  | .ticketGrant _ _ => 0
  | .parkReread _ => 0
  | .yieldResume _ => 0
  | .haltWake _ => 0
  | .registerLineFill _ _ _ => 0
  | .registerLineWriteback _ _ _ _ => 0
  | .tlbWalkEnd _ => 0
  | .leadFetchComplete _ _ _ _ => 0
  | .obRecordGrant _ => 0
  | .tileGrant _ _ => 0
  | .matrixArrayTake _ _ => 0
  | .matrixWordComplete _ _ => 0
  | .engineOperationRun _ _ _ => 0
  | .engineCompletion _ _ => 0
  | .collectiveCombine _ _ _ => 0
  | .pendingLaunchHandoff _ => 0
  | .messageArrival _ _ _ _ _ _ => 0
  | .meridianLinkLoss _ => 0
  | .submissionWrite _ _ => 0
  | .mailboxEntryConsume _ => 0
  | .launchPacket _ => 0
  | .copyPacket _ _ _ => 0
  | .drainPacket _ _ => 0
  | .determinismLevelPacket _ _ => 0
  | .packetStart _ _ => 0
  | .prologueRun _ _ => 0
  | .prologueLimitExpiry _ => 0
  | .runStart _ => 0
  | .plateBuild _ _ => 0
  | .cohortPlace _ _ _ => 0
  | .teamSlotRelease _ _ => 0
  | .cohortEnd _ => 0
  | .phaseCheckClose _ => 0
  | .gridCompletion _ => 0
  | .faddTreeApply _ => 0
  | .swapOut _ => 0
  | .swapReturn _ => 0
  | .clusterModeChange _ => 0
  | .placementWaitExpiry _ => 0
  | .taskFail _ => 0
  | .codeGenerationRaise _ _ => 0
  | .chunkSignatureHit _ _ => 0
  | .chunkCountExpiry _ _ => 0
  | .snapshotTake _ => 0
  | .snapshotAnchorDone _ => 0
  | .snapshotResume _ => 0
  | .replayGo _ => 0
  | .replayBreakpoint => 0
  | .clusterStop _ => 0
  | .clstopReq _ _ => 0
  | .clstopRel _ _ => 0
  | .dstepTimeout _ => 0
  | .pfresRetry _ _ => 0
  | .pfresFail _ _ => 0
  | .preemptGo _ _ => 0
  | .preemptResume _ _ => 0
  | .preemptDeadline _ => 0
  | .contextReset _ _ => 0
  | .leaseRenew _ => 0
  | .leaseExpiry _ => 0
  | .regionMerge _ _ => 0
  | .leaseClockWrap => 0
  | .tinvContext _ => 0
  | .tinvPage _ => 0
  | .tinvAll _ => 0
  | .tinvGstage _ => 0
  | .invalidationComplete => 0
  | .tinvsRead => 0
  | .biasFlip _ => 0
  | .biasFlipDone => 0
  | .replicaMark _ _ => 0
  | .replicaUnmark _ _ => 0
  | .replicaBusyClear _ => 0
  | .lapseRead => 0
  | .dstatRead => 0
  | .cstatRead _ => 0
  | .mbstatRead _ => 0
  | .mailboxBind _ _ => 0
  | .routeEntryWrite _ _ _ => 0
  | .frtailWrite _ _ => 0
  | .srtailWrite _ _ => 0
  | .openCollectiveGroup _ => 0
  | .closeCollectiveGroup _ => 0
  | .stepTeamRequest _ => 0
  | .groupOpenTimeout _ => 0
  | .leaderLeaseRenew => 0
  | .leaderLeaseLapse => 0
  | .powerLimitExceeded _ => 0
  | .clockStep _ => 0
  | .powerMonitorTrip _ _ => 0
  | .deviceReset _ _ _ => 0
  | .recoveryImageLoad _ _ => 0
  | .coreRetire _ => 0
  | .spareRemap _ => 0
  | .notifyWrite _ _ _ => 0
  | .notifyLatchDeliver => 0
  | .peerWrite _ _ => 0
  | .peerRead _ _ => 0
  | .pcieLinkTrain _ _ => 0
  | .appCoreStore _ _ _ => 0
  | .registerWrite _ _ _ => 0
  | .replaceRequested _ => 0
  | .followerHeartbeat _ => 0
  | .notifyApertureGate => 0
  | .pwrnowCrossedPwrlim _ => 0
  | .stewardRequestReject _ => 0

/-- The word of an instruction. -/
def encode (i : Instr) : Word := BitVec.ofNat 32 (encodeNat i)

end Sys2Proof
end

