-- ==== Sys2Proof/Machine/Bits.lean ====
section
/-!
DEFINITION. Bit-field, sign-extension and byte-order helpers: fields of words, little-endian bytes (R6), register
pairs (R17), and lists of lanes.
-/

namespace Sys2Proof.Machine

/-- Field of `w` bits from bit `lo` of a number. -/
def nbits (n lo w : Nat) : Nat := n / 2 ^ lo % 2 ^ w

/-- Bit `i` of a number. -/
def nbit (n i : Nat) : Bool := n / 2 ^ i % 2 = 1

/-- A `w`-bit number read as two's complement. -/
def toInt (w n : Nat) : Int :=
  let m := n % 2 ^ w
  if 2 * m ≥ 2 ^ w then (m : Int) - 2 ^ w else m

/-- An integer modulo 2^w, as a number. -/
def ofInt (w : Nat) (i : Int) : Nat := (i % (2 ^ w : Nat)).toNat

/-- 1 for true. -/
def b2n (b : Bool) : Nat := if b then 1 else 0

/-- The `n` bytes of a number, little-endian (R6). -/
def toBytes : Nat → Nat → List Byte
  | 0, _ => []
  | n + 1, v => BitVec.ofNat 8 v :: toBytes n (v / 256)

/-- The number that bytes hold, little-endian (R6). -/
def ofBytes : List Byte → Nat
  | [] => 0
  | b :: bs => b.toNat + 256 * ofBytes bs

/-- The number in `n` bytes of a list from offset `off`; bytes past its end read 0. -/
def bytesAt (bs : List Byte) (off n : Nat) : Nat := ofBytes ((bs.drop off).take n)

/-- A 64-bit value from the halves of a pair (R17). -/
def joinPair (lo hi : Word) : Word64 := hi ++ lo

/-- Bits [31:0] of a pair's value. -/
def lowHalf (x : Word64) : Word := x.setWidth 32

/-- Bits [63:32] of a pair's value. -/
def highHalf (x : Word64) : Word := (x >>> 32).setWidth 32

/-- The lanes set in a mask below `n`, ascending from `i`. -/
def lanesFrom (m : LaneMask) : Nat → Nat → List Nat
  | _, 0 => []
  | i, n + 1 => if m.getLsbD i then i :: lanesFrom m (i + 1) n else lanesFrom m (i + 1) n

/-- The lanes of a mask, ascending, in a team of `groups` groups. -/
def lanesOf (groups : Nat) (m : LaneMask) : List Nat := lanesFrom m 0 (32 * groups)

/-- The mask of the lanes of `l` for which `f` holds. -/
def maskOf (l : List Nat) (f : Nat → Bool) : LaneMask :=
  l.foldl (fun m i => if f i then m ||| (1#1024 <<< i) else m) 0#1024

/-- The numbers from `i`, `n` of them. -/
def span : Nat → Nat → List Nat
  | _, 0 => []
  | i, n + 1 => i :: span (i + 1) n

/-- 64-bit sign extension of a word (R90). -/
def sext64 (w : Word) : Word64 := w.signExtend 64

/-- Number of 1 bits among the low `n` bits. -/
def popBits (x : Nat) : Nat → Nat
  | 0 => 0
  | n + 1 => b2n (nbit x n) + popBits x n

/-- Whether two byte ranges, given by their first and last bytes, meet. -/
def meets (lo hi lo' hi' : Nat) : Bool := lo ≤ hi' && lo' ≤ hi

end Sys2Proof.Machine
end

