-- ==== Sys2Proof/Machine/Float.lean ====
section
/-!
DEFINITION. Number formats, absent codes, rounding and exact arithmetic (R52 to R63): values are unpacked to exact
dyadic numbers, computed exactly, and rounded once.
-/

namespace Sys2Proof.Machine

/-- A floating format (R52): exponent and fraction widths, bias, largest finite, infinity if any, canonical NaN and
absent codes. -/
structure Fmt where
  width : Nat
  mb : Nat
  bias : Nat
  maxFin : Nat
  inf : Option Nat
  nan : Nat
  absent : Nat
  deriving DecidableEq, Repr

def fmtF64 : Fmt := ⟨64, 52, 1023, 0x7FEFFFFFFFFFFFFF, some 0x7FF0000000000000, 0x7FF8000000000000, 0xFFF8000000000001⟩
def fmtF32 : Fmt := ⟨32, 23, 127, 0x7F7FFFFF, some 0x7F800000, 0x7FC00000, 0xFFC00001⟩
def fmtF16 : Fmt := ⟨16, 10, 15, 0x7BFF, some 0x7C00, 0x7E00, 0xFE01⟩
def fmtBf16 : Fmt := ⟨16, 7, 127, 0x7F7F, some 0x7F80, 0x7FC0, 0xFFC1⟩
def fmtE4m3 : Fmt := ⟨8, 3, 7, 0x7E, none, 0x7F, 0xFF⟩
def fmtE5m2 : Fmt := ⟨8, 2, 15, 0x7B, some 0x7C, 0x7E, 0xFD⟩

/-- The floating format of a type code of R21, if it names one. -/
def fmtOf : Nat → Option Fmt
  | 6 => some fmtF32
  | 7 => some fmtF16
  | 8 => some fmtBf16
  | 9 => some fmtE4m3
  | 10 => some fmtE5m2
  | 12 => some fmtF64
  | _ => none

/-- Element width of a type code of R21. -/
def tyWidth : Nat → Nat
  | 0 | 1 | 6 => 32
  | 2 | 3 | 7 | 8 => 16
  | 4 | 5 | 9 | 10 => 8
  | 11 => 4
  | _ => 64

/-- Elements per register, or per pair, of a type code (R21). -/
def tyCount : Nat → Nat
  | 12 => 1
  | t => 32 / tyWidth t

/-- The type is one of the signed integer types (R21). -/
def tySigned (t : Nat) : Bool := t = 0 || t = 2 || t = 4

/-- The type is an integer type (R21). -/
def tyInt (t : Nat) : Bool := t ≤ 5

/-- Absent code of a type (R52, R53); for e2m1, the special code. -/
def absentOf (t : Nat) : Nat :=
  match fmtOf t with
  | some f => f.absent
  | none => if tyInt t then (if tySigned t then 2 ^ (tyWidth t - 1) else 2 ^ tyWidth t - 1) else 8

/-- An exact value: absent, NaN, an infinity, or sign, magnitude and binary exponent (magnitude 0 is a signed
zero). -/
inductive Num where
  | absent
  | nan
  | inf (neg : Bool)
  | fin (neg : Bool) (m : Nat) (e : Int)
  deriving DecidableEq, Repr

/-- The value of a code (R52). -/
def unpack (f : Fmt) (n : Nat) : Num :=
  let c := n % 2 ^ f.width
  if c = f.absent then .absent
  else
    let neg := nbit c (f.width - 1)
    let mag := c % 2 ^ (f.width - 1)
    let ex := mag / 2 ^ f.mb
    let fr := mag % 2 ^ f.mb
    match f.inf with
    | some i => if mag = i then .inf neg else if mag > i then .nan
                else if ex = 0 then .fin neg fr (1 - f.bias - f.mb)
                else .fin neg (fr + 2 ^ f.mb) ((ex : Int) - f.bias - f.mb)
    | none => if mag = f.nan then .nan
              else if ex = 0 then .fin neg fr (1 - f.bias - f.mb)
              else .fin neg (fr + 2 ^ f.mb) ((ex : Int) - f.bias - f.mb)

/-- How results are rounded: mode of R58, saturation, and result flushing of R60. -/
structure Rnd where
  mode : Nat
  sat : Bool
  flush : Bool
  deriving DecidableEq, Repr

/-- Round to nearest even, no saturation, no flushing. -/
def rne : Rnd := { mode := 0, sat := false, flush := false }

/-- The code of a signed magnitude. -/
def withSign (f : Fmt) (neg : Bool) (mag : Nat) : Nat := b2n neg * 2 ^ (f.width - 1) + mag

/-- What a result that would be an infinity becomes (R58). -/
def infCode (f : Fmt) (r : Rnd) (neg : Bool) : Nat :=
  if r.sat then withSign f neg f.maxFin
  else match f.inf with
    | some i => withSign f neg i
    | none => f.nan

/-- What an overflowing result becomes (R58). -/
def overflowCode (f : Fmt) (r : Rnd) (neg : Bool) : Nat :=
  if r.mode = 1 || (r.mode = 2 && !neg) || (r.mode = 3 && neg) then withSign f neg f.maxFin
  else infCode f r neg

/-- Whether a magnitude with remainder `rem` of `2^d` is rounded away from zero (R58). -/
def roundsUp (mode : Nat) (neg odd sticky : Bool) (rem d : Nat) : Bool :=
  let twice := 2 * rem
  let one := 2 ^ d
  let inexact := rem ≠ 0 || sticky
  match mode with
  | 0 => twice > one || (twice = one && (sticky || odd))
  | 1 => false
  | 2 => neg && inexact
  | 3 => !neg && inexact
  | _ => twice ≥ one

/-- Rounds the exact magnitude m · 2^e, with more beyond it when `sticky`, into a format (R58, R60). When `sticky`
is set, `m` must have more bits than the format keeps. -/
def roundMag (f : Fmt) (r : Rnd) (neg : Bool) (m : Nat) (e : Int) (sticky : Bool) : Nat :=
  if m = 0 then withSign f neg 0
  else
    let qmin : Int := 1 - f.bias - f.mb
    let q : Int := max ((Nat.log2 m : Int) + e - f.mb) qmin
    let mant : Nat :=
      if q ≤ e then m * 2 ^ (e - q).toNat + b2n (roundsUp r.mode neg false sticky 0 1)
      else
        let d := (q - e).toNat
        m / 2 ^ d + b2n (roundsUp r.mode neg (m / 2 ^ d % 2 = 1) sticky (m % 2 ^ d) d)
    let mag := (q - qmin).toNat * 2 ^ f.mb + mant
    if mag > f.maxFin then overflowCode f r neg
    else if r.flush && mag < 2 ^ f.mb then withSign f neg 0
    else withSign f neg mag

/-- The code of an exact value in a format (R54, R58). -/
def pack (f : Fmt) (r : Rnd) : Num → Nat
  | .absent => f.absent
  | .nan => f.nan
  | .inf neg => infCode f r neg
  | .fin neg m e => roundMag f r neg m e false

/-- Replaces a subnormal operand by zero of its sign (R60). -/
def flushIn (f : Fmt) (on : Bool) (n : Nat) : Nat :=
  let c := n % 2 ^ f.width
  if on && c ≠ f.absent && c % 2 ^ (f.width - 1) < 2 ^ f.mb then withSign f (nbit c (f.width - 1)) 0 else c

/-- Signed magnitude as an integer. -/
def signedMag (neg : Bool) (m : Nat) : Int := if neg then -(m : Int) else m

/-- Exact sum of two values; a zero sum of opposite signs takes the sign of R98. -/
def addNum (down : Bool) : Num → Num → Num
  | .absent, _ => .absent
  | _, .absent => .absent
  | .nan, _ => .nan
  | _, .nan => .nan
  | .inf a, .inf b => if a = b then .inf a else .nan
  | .inf a, _ => .inf a
  | _, .inf b => .inf b
  | .fin na ma ea, .fin nb mb eb =>
    let e := min ea eb
    let i := signedMag na ma * 2 ^ (ea - e).toNat + signedMag nb mb * 2 ^ (eb - e).toNat
    if i = 0 then (if na = nb then .fin na 0 e else .fin down 0 e)
    else .fin (i < 0) i.natAbs e

/-- Negates a value. -/
def negNum : Num → Num
  | .inf a => .inf (!a)
  | .fin n m e => .fin (!n) m e
  | x => x

/-- Exact product (R98). -/
def mulNum : Num → Num → Num
  | .absent, _ => .absent
  | _, .absent => .absent
  | .nan, _ => .nan
  | _, .nan => .nan
  | .inf a, .inf b => .inf (a != b)
  | .inf a, .fin b m _ => if m = 0 then .nan else .inf (a != b)
  | .fin a m _, .inf b => if m = 0 then .nan else .inf (a != b)
  | .fin a m e, .fin b n g => .fin (a != b) (m * n) (e + g)

/-- A value times 2^k. -/
def scaleNum (k : Int) : Num → Num
  | .fin n m e => .fin n m (e + k)
  | x => x

/-- Compares finite or infinite values as numbers: −1, 0 or 1 (±0 equal). -/
def cmpNum : Num → Num → Int
  | .inf a, .inf b => if a = b then 0 else if a then -1 else 1
  | .inf a, _ => if a then -1 else 1
  | _, .inf b => if b then 1 else -1
  | .fin na ma ea, .fin nb mb eb =>
    let e := min ea eb
    let x := signedMag na ma * 2 ^ (ea - e).toNat
    let y := signedMag nb mb * 2 ^ (eb - e).toNat
    if x < y then -1 else if x = y then 0 else 1
  | _, _ => 0

/-- The value is NaN. -/
def Num.isNan : Num → Bool
  | .nan => true
  | _ => false

/-- The value is absent. -/
def Num.isAbsent : Num → Bool
  | .absent => true
  | _ => false

/-- The value has its sign set. -/
def Num.isNeg : Num → Bool
  | .inf a => a
  | .fin n _ _ => n
  | _ => false

/-- The value is a zero. -/
def Num.isZero : Num → Bool
  | .fin _ m _ => m = 0
  | _ => false

/-- Rounded quotient (R100). -/
def divCode (f : Fmt) (r : Rnd) : Num → Num → Nat
  | .absent, _ => f.absent
  | _, .absent => f.absent
  | .nan, _ => f.nan
  | _, .nan => f.nan
  | .inf _, .inf _ => f.nan
  | .inf a, b => infCode f r (a != b.isNeg)
  | .fin a _ _, .inf b => withSign f (a != b) 0
  | .fin a m e, .fin b n g =>
    if n = 0 then (if m = 0 then f.nan else infCode f r (a != b))
    else if m = 0 then withSign f (a != b) 0
    else
      let k := f.mb + 4 + Nat.log2 n
      let q := m * 2 ^ k / n
      roundMag f r (a != b) q (e - g - k) (m * 2 ^ k % n ≠ 0)

/-- Integer square root by bits: the largest number of `k` bits above `acc` whose square is at most `n`. -/
def isqrtGo (n : Nat) : Nat → Nat → Nat
  | 0, acc => acc
  | k + 1, acc => isqrtGo n k (if (acc + 2 ^ k) * (acc + 2 ^ k) ≤ n then acc + 2 ^ k else acc)

/-- Integer square root. -/
def isqrt (n : Nat) : Nat := isqrtGo n (Nat.log2 n / 2 + 1) 0

/-- Rounded square root (R104). -/
def sqrtCode (f : Fmt) (r : Rnd) : Num → Nat
  | .absent => f.absent
  | .nan => f.nan
  | .inf neg => if neg then f.nan else infCode f r false
  | .fin neg m e =>
    if m = 0 then withSign f neg 0
    else if neg then f.nan
    else
      let k := 2 * (f.mb + 4) + (e % 2).toNat
      let x := m * 2 ^ k
      let s := isqrt x
      roundMag f r false s ((e - k) / 2) (s * s ≠ x)

/-- Rounded reciprocal square root (R104). -/
def rsqCode (f : Fmt) (r : Rnd) : Num → Nat
  | .absent => f.absent
  | .nan => f.nan
  | .inf neg => if neg then f.nan else withSign f false 0
  | .fin neg m e =>
    if m = 0 then infCode f r neg
    else if neg then f.nan
    else
      -- 1/√(m·2^e) = √(2^(2k) / m') · 2^(−k − e'/2), with e' even
      let m' := if e % 2 = 0 then m else 2 * m
      let e' := if e % 2 = 0 then e else e - 1
      let k := f.mb + 4 + Nat.log2 m'
      let q := 2 ^ (2 * k) / m'
      let s := isqrt q
      roundMag f r false s (-(k : Int) - e' / 2) (s * s * m' ≠ 2 ^ (2 * k))

/-! ## Integers -/

/-- Value of an integer element. -/
def intVal (t n : Nat) : Int := if tySigned t then toInt (tyWidth t) n else (n % 2 ^ tyWidth t : Nat)

/-- Largest value of an integer format (R53). -/
def intMax (t : Nat) : Int := if tySigned t then 2 ^ (tyWidth t - 1) - 1 else 2 ^ tyWidth t - 2

/-- Smallest value of an integer format (R53). -/
def intMin (t : Nat) : Int := if tySigned t then -(2 ^ (tyWidth t - 1) - 1) else 0

/-- Clamps an exact value into a format's range. -/
def clampInt (t : Nat) (i : Int) : Nat :=
  ofInt (tyWidth t) (if i > intMax t then intMax t else if i < intMin t then intMin t else i)

/-- Brings an exact integer result into range (R59). -/
def rangeInt (t : Nat) (sat : Bool) (i : Int) : Nat :=
  if sat then clampInt t i
  else if intMin t ≤ i ∧ i ≤ intMax t then ofInt (tyWidth t) i
  else
    let n : Int := 2 ^ tyWidth t - 1
    ofInt (tyWidth t) ((i - intMin t) % n + intMin t)

/-- Rounds an exact value to an integer under a mode of R58. -/
def roundToInt (mode : Nat) (neg : Bool) (m : Nat) (e : Int) : Int :=
  if 0 ≤ e then signedMag neg (m * 2 ^ e.toNat)
  else
    let d := (-e).toNat
    signedMag neg (m / 2 ^ d + b2n (roundsUp mode neg (m / 2 ^ d % 2 = 1) false (m % 2 ^ d) d))

end Sys2Proof.Machine
end

