-- ==== Sys2Proof/Machine/Math.lean ====
section
/-!
DEFINITION. The correctly rounded functions exp2, log2, sinpi and cospi (R104). Each is bracketed between two
integers in units of 2^−P; when both ends round alike, that is the correctly rounded result; otherwise P doubles.
-/

namespace Sys2Proof.Machine

/-- Σ 2^P / (k · 2^k) for k from `i`, `n` terms, each rounded down: ln 2 from below (log 33). -/
def ln2Sum (P : Nat) : Nat → Nat → Nat
  | _, 0 => 0
  | i, n + 1 => 2 ^ P / (i * 2 ^ i) + ln2Sum P (i + 1) n

/-- ln 2 in units of 2^−P from below, and from above. -/
def ln2Lo (P : Nat) : Nat := ln2Sum P 1 P
def ln2Hi (P : Nat) : Nat := ln2Lo P + P + 1

/-- Terms y^k / k! from the one after `t`, each rounded down (or up when `up`), summed. -/
def expTerms (P y : Nat) (up : Bool) : Nat → Nat → Nat → Nat
  | _, _, 0 => 0
  | k, t, n + 1 =>
    let d := k * 2 ^ P
    let t' := if up then (t * y + d - 1) / d else t * y / d
    t' + expTerms P y up (k + 1) t' n

/-- e^y for y in units of 2^−P, 0 ≤ y < 1: from below, and from above. -/
def expLo (P y : Nat) : Nat := 2 ^ P + expTerms P y false 1 (2 ^ P) (P / 2)
def expHi (P y : Nat) : Nat := 2 ^ P + expTerms P y true 1 (2 ^ P) (P / 2) + 2

/-- Terms z^(2k+1) / (2k+1) of the inverse hyperbolic tangent. -/
def atanhTerms (P z2 : Nat) : Nat → Nat → Nat → Nat
  | _, _, 0 => 0
  | k, t, n + 1 => t / (2 * k + 1) + atanhTerms P z2 (k + 1) (t * z2 / 2 ^ P) n

/-- Alternating Taylor terms of the sine: the sum of y^(2k+1)/(2k+1)! with signs. -/
def sinTerms (P y2 : Nat) : Nat → Nat → Nat → Int
  | _, _, 0 => 0
  | k, t, n + 1 => (t : Int) - sinTerms P y2 (k + 1) (t * y2 / (2 ^ P * ((2 * k + 2) * (2 * k + 3)))) n

/-- Alternating terms of the inverse tangent of 1/q. -/
def atanTerms (P q : Nat) : Nat → Nat → Nat → Int
  | _, _, 0 => 0
  | k, t, n + 1 => (t / (2 * k + 1) : Nat) - atanTerms P q (k + 1) (t / (q * q)) n

/-- π in units of 2^−P, to within 16 · P units (Machin's formula). -/
def piNear (P : Nat) : Nat :=
  (16 * atanTerms P 5 0 (2 ^ P / 5) P - 4 * atanTerms P 239 0 (2 ^ P / 239) P).toNat

/-- Rounds a value that lies strictly between lo and hi units of 2^−P; none when the ends round differently. -/
def roundBetween (f : Fmt) (r : Rnd) (neg : Bool) (lo hi : Nat) (e : Int) : Option Nat :=
  let a := roundMag f r neg (4 * lo) (e - 2) true
  let b := roundMag f r neg (4 * hi - 1) (e - 2) true
  if a = b then some a else none

/-- 2^x for x = ±m·2^e, at precision P. -/
def exp2At (f : Fmt) (r : Rnd) (neg : Bool) (m : Nat) (e : Int) (P : Nat) : Option Nat :=
  -- x = n + g/2^s with 0 ≤ g < 2^s
  let s := (-e).toNat
  let i := signedMag neg (m * 2 ^ e.toNat)
  let n := i / (2 ^ s : Nat)
  let g := (i % (2 ^ s : Nat)).toNat
  let ylo := g * ln2Lo P / 2 ^ s
  let yhi := g * ln2Hi P / 2 ^ s + 1
  roundBetween f r false (max (expLo P ylo) (2 ^ P)) (min (expHi P yhi) (2 ^ (P + 1))) (n - P)

/-- log₂ of m·2^e, m not a power of two, at precision P. -/
def log2At (f : Fmt) (r : Rnd) (m : Nat) (e : Int) (P : Nat) : Option Nat :=
  let l := Nat.log2 m
  let n : Int := l + e
  -- m / 2^l = 1 + u, z = u / (2 + u)
  let d := m - 2 ^ l
  let z := d * 2 ^ P / (m + 2 ^ l)
  let t := atanhTerms P (z * z / 2 ^ P) 0 z P
  let lnLo := 2 * t
  let lnHi := 2 * t + 8 * P
  let lo : Int := n * 2 ^ P + (lnLo * 2 ^ P / ln2Hi P : Nat)
  let hi : Int := n * 2 ^ P + (lnHi * 2 ^ P / ln2Lo P + 1 : Nat)
  if 0 ≤ lo then (if lo.toNat = 0 then none else roundBetween f r false lo.toNat hi.toNat (-(P : Int)))
  else if hi ≤ 0 then (if hi.natAbs = 0 then none else roundBetween f r true hi.natAbs lo.natAbs (-(P : Int)))
  else none

/-- sin(π·g/2^s) for 0 < g < 2^s, g ≠ 2^(s−1), at precision P above the leading bit. -/
def sinpiAt (f : Fmt) (r : Rnd) (neg : Bool) (g s P : Nat) : Option Nat :=
  -- use the nearer end of (0, 1): sin(π·t) = sin(π·(1 − t))
  let g' := if 2 * g > 2 ^ s then 2 ^ s - g else g
  let Q := P + (s - Nat.log2 g')
  let y := piNear Q * g' / 2 ^ s
  let v := sinTerms Q (y * y / 2 ^ Q) 0 y Q
  let lo := (v - 64 * Q).toNat
  let hi := (v + 64 * Q).toNat
  if lo = 0 then none else roundBetween f r neg lo (min hi (2 ^ Q)) (-(Q : Int))

/-- Tries precisions P, 2P, 4P … until one decides; the last resort is NaN, which no operand reaches (log 33). -/
def refine (f : Fmt) (at_ : Nat → Option Nat) : Nat → Nat → Nat
  | 0, _ => f.nan
  | n + 1, P => match at_ P with
    | some c => c
    | none => refine f at_ n (2 * P)

/-- Fixed-point precision to begin with for a format. -/
def startBits (f : Fmt) : Nat := 2 * f.mb + 48

/-- Correctly rounded 2^x (R104). -/
def exp2Code (f : Fmt) (r : Rnd) : Num → Nat
  | .absent => f.absent
  | .nan => f.nan
  | .inf neg => if neg then withSign f false 0 else infCode f r false
  | .fin neg m e =>
    if m = 0 then roundMag f r false 1 0 false
    -- beyond every format's range: the result only overflows or underflows
    else if (Nat.log2 m : Int) + e ≥ 13 then
      (if neg then roundMag f r false (2 ^ (f.mb + 4)) (-16384) true else roundMag f r false (2 ^ (f.mb + 4)) 16384 true)
    else if m * 2 ^ e.toNat % 2 ^ (-e).toNat = 0 then
      roundMag f r false 1 (signedMag neg (m * 2 ^ e.toNat) / (2 ^ (-e).toNat : Nat)) false
    else refine f (exp2At f r neg m e) 5 (startBits f)

/-- Correctly rounded log₂ x (R104). -/
def log2Code (f : Fmt) (r : Rnd) : Num → Nat
  | .absent => f.absent
  | .nan => f.nan
  | .inf neg => if neg then f.nan else infCode f r false
  | .fin neg m e =>
    if m = 0 then infCode f r true
    else if neg then f.nan
    else if m = 2 ^ Nat.log2 m then
      let n : Int := Nat.log2 m + e
      roundMag f r (n < 0) n.natAbs 0 false
    else refine f (log2At f r m e) 5 (startBits f + 64)

/-- sin(π·x) for x = ±i/2^s with i reduced modulo 2^(s+1); `zeroNeg` is the sign of an exact zero. -/
def sinpiFrac (f : Fmt) (r : Rnd) (zeroNeg : Bool) (i s : Nat) : Nat :=
  let h := i % 2 ^ (s + 1)
  let neg := h ≥ 2 ^ s
  let g := h % 2 ^ s
  if g = 0 then withSign f zeroNeg 0
  else if 2 * g = 2 ^ s then roundMag f r neg 1 0 false
  else refine f (sinpiAt f r neg g s) 5 (startBits f)

/-- Correctly rounded sin(π·x) (R104). -/
def sinpiCode (f : Fmt) (r : Rnd) : Num → Nat
  | .absent => f.absent
  | .nan => f.nan
  | .inf _ => f.nan
  | .fin neg m e =>
    let s := (-e).toNat
    let i := signedMag neg (m * 2 ^ e.toNat)
    sinpiFrac f r neg (i % (2 ^ (s + 1) : Nat)).toNat s

/-- Correctly rounded cos(π·x) = sin(π·(x + ½)) (R104). -/
def cospiCode (f : Fmt) (r : Rnd) : Num → Nat
  | .absent => f.absent
  | .nan => f.nan
  | .inf _ => f.nan
  | .fin neg m e =>
    let s := (-e).toNat + 1
    let i := signedMag neg (2 * m * 2 ^ e.toNat) + 2 ^ (s - 1)
    sinpiFrac f r false (i % (2 ^ (s + 1) : Nat)).toNat s

end Sys2Proof.Machine
end

