-- ==== Sys2Proof/Machine/Elem.lean ====
section
/-!
DEFINITION. Typed operations on one element (R96 to R110), on registers of packed elements, and the block quantiser
(R55 to R57, R111). The mode register's fields are read here (R21).
-/

namespace Sys2Proof.Machine

/-! ## The mode register (R21) -/

def mdG (md : Word) : Nat := nbits md.toNat 0 3
def mdGi (md : Word) : Bool := nbit md.toNat 3
def mdType (md : Word) : Nat := nbits md.toNat 4 4
def mdRnd (md : Word) : Nat := nbits md.toNat 8 3
def mdSat (md : Word) : Bool := nbit md.toNat 11
def mdAbs (md : Word) : Bool := nbit md.toNat 24
def mdRed (md : Word) : Bool := nbit md.toNat 25
def mdBp (md : Word) : Nat := nbits md.toNat 28 3

/-- Lowest of a format's two flush bits: the operand bit; the result bit is the next (R21, R60). -/
def flushBit : Nat → Option Nat
  | 12 => some 12
  | 6 => some 14
  | 7 => some 16
  | 8 => some 18
  | 9 => some 20
  | 10 => some 22
  | _ => none

/-- The operand flush bit of a type (R60). -/
def mdFlushIn (md : Word) (t : Nat) : Bool := (flushBit t).any (fun i => nbit md.toNat i)

/-- The result flush bit of a type (R60). -/
def mdFlushOut (md : Word) (t : Nat) : Bool := (flushBit t).any (fun i => nbit md.toNat (i + 1))

/-- How results of a type are rounded under md (R58, R60). -/
def mdRound (md : Word) (t : Nat) : Rnd := { mode := mdRnd md, sat := mdSat md, flush := mdFlushOut md t }

/-- A value that md may hold (R22): no reserved field set, no reserved type or rounding code. -/
def mdLegal (md : Word) : Bool :=
  !nbit md.toNat 31 && nbits md.toNat 26 2 = 0 && mdType md ≤ 12 && mdRnd md ≤ 4

/-! ## One element -/

/-- An operand of a floating type, flushed under md (R60). -/
def operand (f : Fmt) (md : Word) (t n : Nat) : Num := unpack f (flushIn f (mdFlushIn md t) n)

/-- The two-source typed operations of R97 (and the tree and scan operations that R66 and R67 build from them). -/
inductive BinOp where
  | add | sub | mul | min | max | div
  deriving DecidableEq, Repr

/-- The lesser or greater of two present values; −0 orders below +0 (R99). -/
def pickNum (least : Bool) (x y : Num) : Num :=
  let c := cmpNum x y
  let c := if c = 0 && x.isZero && y.isZero then (if x.isNeg = y.isNeg then 0 else if x.isNeg then -1 else 1) else c
  if least then (if c ≤ 0 then x else y) else (if c ≥ 0 then x else y)

/-- A value written as it is, apart from canonical NaN and result flushing (R99, R105). -/
def exactCode (f : Fmt) (flush : Bool) : Num → Nat
  | .inf neg => match f.inf with
    | some i => withSign f neg i
    | none => f.nan
  | x => pack f { mode := 0, sat := false, flush := flush } x

/-- Floating two-source operation on one element (R97 to R100). -/
def floatBin (op : BinOp) (f : Fmt) (md : Word) (t a b : Nat) : Nat :=
  let x := operand f md t a
  let y := operand f md t b
  let r := mdRound md t
  match op with
  | .min | .max =>
    if x.isAbsent then exactCode f r.flush y
    else if y.isAbsent then exactCode f r.flush x
    else if x.isNan || y.isNan then f.nan
    else exactCode f r.flush (pickNum (op = .min) x y)
  | _ =>
    if x.isAbsent || y.isAbsent then
      (if !mdAbs md || (x.isAbsent && y.isAbsent) then f.absent else if x.isAbsent then pack f r y else pack f r x)
    else match op with
      | .add => pack f r (addNum (r.mode = 2) x y)
      | .sub => pack f r (addNum (r.mode = 2) x (negNum y))
      | .mul => pack f r (mulNum x y)
      | _ => divCode f r x y

/-- Integer division of R100, truncating; by zero the end of the range by sign. -/
def intDiv (t : Nat) (x y : Int) : Int :=
  if y = 0 then (if x = 0 then 0 else if x > 0 then intMax t else intMin t) else Int.tdiv x y

/-- Integer two-source operation on one element (R98 to R100). -/
def intBin (op : BinOp) (md : Word) (t a b : Nat) : Nat :=
  let w := tyWidth t
  let ab := absentOf t
  let a := a % 2 ^ w
  let b := b % 2 ^ w
  match op with
  | .min | .max =>
    if a = ab then b else if b = ab then a
    else
      let least := decide (op = .min)
      if intVal t a ≤ intVal t b then (if least then a else b) else (if least then b else a)
  | _ =>
    if a = ab || b = ab then (if !mdAbs md || (a = ab && b = ab) then ab else if a = ab then b else a)
    else
      let x := intVal t a
      let y := intVal t b
      rangeInt t (mdSat md) (match op with
        | .add => x + y
        | .sub => x - y
        | .mul => x * y
        | _ => intDiv t x y)

/-- Two-source typed operation on one element of type code `t`. -/
def elemBin (op : BinOp) (md : Word) (t a b : Nat) : Nat :=
  match fmtOf t with
  | some f => floatBin op f md t a b
  | none => intBin op md t a b

/-- `fma` (and `fma.n` when `neg`): a · b + c rounded once (R101, R62). -/
def elemFma (neg : Bool) (md : Word) (t a b c : Nat) : Nat :=
  match fmtOf t with
  | some f =>
    let x := operand f md t a
    let y := operand f md t b
    let z := operand f md t c
    let r := mdRound md t
    let p := if neg then negNum (mulNum x y) else mulNum x y
    let pa := x.isAbsent || y.isAbsent
    if pa || z.isAbsent then
      (if !mdAbs md || (pa && z.isAbsent) then f.absent else if z.isAbsent then pack f r p else pack f r z)
    else pack f r (addNum (r.mode = 2) z p)
  | none =>
    let w := tyWidth t
    let ab := absentOf t
    let pa := a % 2 ^ w = ab || b % 2 ^ w = ab
    let za := c % 2 ^ w = ab
    let p := if neg then -(intVal t a * intVal t b) else intVal t a * intVal t b
    if pa || za then
      (if !mdAbs md || (pa && za) then ab else if za then rangeInt t (mdSat md) p else c % 2 ^ w)
    else rangeInt t (mdSat md) (intVal t c + p)

/-- The one-source typed operations of R103, apart from `mkabs`. -/
inductive UnOp where
  | abs | neg | sqrt | rcp | rsq | exp2 | log2 | sinpi | cospi
  deriving DecidableEq, Repr

/-- One-source floating operation (R103 to R105). -/
def floatUn (op : UnOp) (f : Fmt) (md : Word) (t a : Nat) : Nat :=
  let c := flushIn f (mdFlushIn md t) a
  let x := unpack f c
  let r := mdRound md t
  if x.isAbsent then f.absent
  else match op with
    | .abs => if x.isNan then f.nan else exactCode f r.flush (unpack f (c % 2 ^ (f.width - 1)))
    | .neg => if x.isNan then f.nan else exactCode f r.flush (negNum x)
    | .sqrt => sqrtCode f r x
    | .rcp => divCode f r (.fin false 1 0) x
    | .rsq => rsqCode f r x
    | .exp2 => exp2Code f r x
    | .log2 => log2Code f r x
    | .sinpi => sinpiCode f r x
    | .cospi => cospiCode f r x

/-- One-source typed operation on one element. -/
def elemUn (op : UnOp) (md : Word) (t a : Nat) : Nat :=
  match fmtOf t with
  | some f => floatUn op f md t a
  | none =>
    let w := tyWidth t
    if a % 2 ^ w = absentOf t then absentOf t
    else match op with
      | .abs => if tySigned t then rangeInt t (mdSat md) (intVal t a).natAbs else a % 2 ^ w
      | _ => rangeInt t (mdSat md) (-(intVal t a))

/-- Conversion of one element (R109); to its own type it only flushes and canonicalises (R119). -/
def elemCvt (md : Word) (src dst a : Nat) : Nat :=
  let toFloat (f : Fmt) (x : Num) : Nat := pack f (mdRound md dst) x
  match fmtOf src with
  | some f =>
    let x := operand f md src a
    match fmtOf dst with
    | some g => if src = dst then exactCode g (mdFlushOut md dst) x else toFloat g x
    | none => match x with
      | .absent => absentOf dst
      | .nan => 0
      | .inf neg => clampInt dst (if neg then intMin dst else intMax dst)
      | .fin neg m e => clampInt dst (roundToInt (mdRnd md) neg m e)
  | none =>
    if a % 2 ^ tyWidth src = absentOf src then absentOf dst
    else
      let i := intVal src a
      match fmtOf dst with
      | some g => toFloat g (.fin (i < 0) i.natAbs 0)
      | none => clampInt dst i

/-! ## Registers of packed elements -/

/-- Builds a register (or pair) from `n` elements of width `w`. -/
def packElems (w : Nat) : List Nat → Nat
  | [] => 0
  | x :: xs => x % 2 ^ w + 2 ^ w * packElems w xs

/-- The `n` elements of width `w` of a register or pair. -/
def elems (w : Nat) : Nat → Nat → List Nat
  | 0, _ => []
  | n + 1, v => v % 2 ^ w :: elems w n (v / 2 ^ w)

/-- A two-source typed operation on whole registers: element e of the result from element e of each source. -/
def regBin (op : BinOp) (md : Word) (a b : Nat) : Nat :=
  let t := mdType md
  let n := tyCount t
  packElems (tyWidth t) (List.zipWith (elemBin op md t) (elems (tyWidth t) n a) (elems (tyWidth t) n b))

/-- `fma` on whole registers. -/
def regFma (neg : Bool) (md : Word) (a b c : Nat) : Nat :=
  let t := mdType md
  let n := tyCount t
  packElems (tyWidth t) (List.zipWith (fun p z => elemFma neg md t p.1 p.2 z)
    (List.zip (elems (tyWidth t) n a) (elems (tyWidth t) n b)) (elems (tyWidth t) n c))

/-- A one-source typed operation on whole registers. -/
def regUn (op : UnOp) (md : Word) (a : Nat) : Nat :=
  let t := mdType md
  packElems (tyWidth t) ((elems (tyWidth t) (tyCount t) a).map (elemUn op md t))

/-- Every element the absent code of md.type (`mkabs`, R105). -/
def regAbsent (t : Nat) : Nat := packElems (tyWidth t) (List.replicate (tyCount t) (absentOf t))

/-- `dot`: packed products summed exactly from +0, then with D, and rounded once (R102). -/
def regDot (md : Word) (a c d : Nat) : Nat :=
  let t := mdType md
  let w := tyWidth t
  let ps := List.zip (elems w (tyCount t) a) (elems w (tyCount t) c)
  match fmtOf t with
  | some f =>
    let r := mdRound md 6
    let down := decide (r.mode = 2)
    let prods := ps.filterMap (fun p =>
      let x := operand f md t p.1
      let y := operand f md t p.2
      if x.isAbsent || y.isAbsent then none else some (mulNum x y))
    match prods with
    | [] => d % 2 ^ 32
    | _ =>
      let s := prods.foldl (addNum down) (.fin false 0 0)
      let z := operand fmtF32 md 6 d
      if z.isAbsent then pack fmtF32 r s else pack fmtF32 r (addNum down z s)
  | none =>
    let acc := if tySigned t then 0 else 1
    let ab := absentOf t
    let prods := ps.filterMap (fun p => if p.1 = ab || p.2 = ab then none else some (intVal t p.1 * intVal t p.2))
    match prods with
    | [] => d % 2 ^ 32
    | _ =>
      let s := prods.foldl (· + ·) 0
      if d % 2 ^ 32 = absentOf acc then rangeInt acc (mdSat md) s else rangeInt acc (mdSat md) (intVal acc d + s)

/-- One element's floating compare (R106). -/
def elemCmp (f : Fmt) (md : Word) (t cc a b : Nat) : Bool :=
  let x := operand f md t a
  let y := operand f md t b
  let un := x.isNan || y.isNan || x.isAbsent || y.isAbsent
  let c := cmpNum x y
  match cc with
  | 0 => !un && c = 0
  | 1 => un || c ≠ 0
  | 2 => !un && c < 0
  | 3 => !un && c ≤ 0
  | 4 => !un && c > 0
  | 5 => !un && c ≥ 0
  | 6 => un
  | _ => x.isAbsent || y.isAbsent

/-- `fcmp`: the condition holds in every element (R106). -/
def regCmp (md : Word) (cc a b : Nat) : Bool :=
  let t := mdType md
  match fmtOf t with
  | none => false
  | some f => (List.zip (elems (tyWidth t) (tyCount t) a) (elems (tyWidth t) (tyCount t) b)).all
      (fun p => elemCmp f md t cc p.1 p.2)

/-- The class bit of a code (R107), read before any flushing. -/
def classOf (f : Fmt) (a : Nat) : Nat :=
  match unpack f a with
  | .absent => 0
  | .nan => 1
  | .inf _ => 2
  | .fin _ m _ => if m = 0 then 5 else if a % 2 ^ (f.width - 1) < 2 ^ f.mb then 4 else 3

/-- `class`: every element matches the mask (R107). -/
def regClass (t mask a : Nat) : Bool :=
  match fmtOf t with
  | none => false
  | some f => (elems (tyWidth t) (tyCount t) a).all (fun x =>
      let c := classOf f x
      nbit mask c && (!(2 ≤ c && nbit mask 6) || nbit x (f.width - 1)))

/-- md without its flush bits: a node rounds under R58 and R59 only (R66). -/
def mdNoFlush (md : Word) : Word := md &&& 0xFF000FFF#32

/-- An element as a reduction or a scan reads it: NaN canonical, flushed as an operand (R54, R60). DEDUCED: the operand bit acts on what
the word reads and the result bit on what it writes, and neither on the values between (log 49). -/
def leafCode (md : Word) (t a : Nat) : Nat :=
  match fmtOf t with
  | some f => match operand f md t a with
    | .absent => f.absent
    | .nan => f.nan
    | _ => flushIn f (mdFlushIn md t) a
  | none => a

/-- What a reduction or a scan writes of a value: flushed as a result (R60, R99). -/
def resultCode (md : Word) (t a : Nat) : Nat :=
  match fmtOf t with
  | some f => flushIn f (mdFlushOut md t) a
  | none => a

/-- A node of a reduction or a step of a scan (R66): absent is the identity whatever md.abs holds, and nothing is flushed. A present
operand beside an absent one is returned as it is, unrounded: DESIGN CHOICE, md.sat leaves a lone infinity infinite, since R58
speaks of a result that rounding makes (log 49). -/
def nodeOp (op : BinOp) (md : Word) (t a b : Nat) : Nat :=
  let ab := absentOf t
  if a = ab then b else if b = ab then a else elemBin op (mdNoFlush md) t a b

/-! ## Block quantisation -/

/-- A quantised block: element codes, scale byte, special byte (R55). -/
structure Quant where
  codes : List Nat
  scale : Nat
  special : Nat
  deriving DecidableEq, Repr

/-- A present finite value. -/
def Num.isFinite : Num → Bool
  | .fin _ _ _ => true
  | _ => false

/-- floor(log₂ of the largest magnitude) over present finite values; none when there is none or all are 0. -/
def amaxLog (xs : List Num) : Option Int :=
  xs.foldl (fun acc x => match x with
    | .fin _ m e => if m = 0 then acc else
        let l : Int := Nat.log2 m + e
        some (match acc with | none => l | some a => max a l)
    | _ => acc) none

/-- The block exponent of R56 and R111 for a format whose largest binary exponent is `emax`. -/
def blockExp (emax : Int) (xs : List Num) : Int :=
  match amaxLog xs with
  | none => -127
  | some l => max (-127) (min 127 (l - emax))

/-- A finite value in units of 2^−K, K at least minus its exponent. -/
def inUnits (K : Nat) : Num → Int
  | .fin neg m e => signedMag neg (m * 2 ^ (e + K).toNat)
  | _ => 0

/-- Magnitudes of the regular e2m1 codes, in halves (R55). -/
def e2m1Halves : List Nat := [0, 1, 2, 3, 4, 6, 8, 12]

/-- The nearest regular code to y (in units of 2^−K) and its distance (round15 of R56). -/
def round15 (K : Nat) (y : Int) : Nat × Nat :=
  let best := (List.zip (span 0 8) e2m1Halves).foldl (fun (acc : Nat × Nat) c =>
    let err := ((y.natAbs : Int) - (c.2 * 2 ^ (K - 1) : Nat)).natAbs
    if c.1 = 0 then (0, err)
    else if err < acc.2 || (err = acc.2 && c.1 % 2 = 0) then (c.1, err) else acc) (0, 0)
  (if best.1 = 0 then 0 else best.1 + (if y < 0 then 8 else 0), best.2)

/-- Least exponent over finite values, as a number of fraction bits. -/
def fracBits (xs : List Num) : Nat :=
  xs.foldl (fun k x => match x with | .fin _ _ e => max k (-e).toNat | _ => k) 10

/-- Quantises a block of e2m1 elements (R56). DESIGN CHOICE: where e is clamped at 127 and y(w) lies beyond e4m3's range, which R56's
comment rules out, the special byte is 0x7F and every code stays a regular one (log 50). -/
def quantE2m1 (xs : List Num) : Quant :=
  if xs.all Num.isAbsent then { codes := xs.map (fun _ => 8), scale := 0xFF, special := 0 }
  else
    let e := blockExp 2 xs
    let ys := xs.map (scaleNum (-e))
    let K := fracBits ys
    let absentIn := xs.any Num.isAbsent
    let q (y : Num) : Nat × Nat := round15 K (inUnits K y)
    let worst := (List.zip (span 0 ys.length) ys).foldl (fun (acc : Option (Nat × Nat)) p =>
      if p.2.isFinite then
        match acc with
        | none => some (p.1, (q p.2).2)
        | some a => if (q p.2).2 > a.2 then some (p.1, (q p.2).2) else some a
      else acc) none
    let xb : Nat :=
      if absentIn then 0
      else if ys.any (fun y => !y.isFinite) then 0x7F
      else match worst with
        | none => 0
        | some (w, err) =>
          let c := pack fmtE4m3 rne (ys.getD w .absent)
          if err = 0 || c % 128 = 0 then 0 else c
    let sp := inUnits K (unpack fmtE4m3 xb)
    { codes := ys.map (fun y =>
        if !y.isFinite then 8
        else if xb = 0 || xb = 0x7F then (q y).1
        else if (inUnits K y - sp).natAbs < (q y).2 then 8 else (q y).1)
      scale := (e + 127).toNat, special := xb }

/-- Entry (i, j) of the Sylvester matrix: true when −1 (R57). -/
def hadNeg (i j : Nat) : Bool := popBits (i &&& j) 5 % 2 = 1

/-- The Hadamard transform of a block (R57), under the absent policy. -/
def hadamard (identity : Bool) (xs : List Num) : List Num :=
  if !identity && xs.any Num.isAbsent then xs.map (fun _ => .absent)
  else if xs.any (fun x => !x.isFinite && !x.isAbsent) then xs.map (fun _ => .nan)
  else (span 0 xs.length).map (fun i =>
    (List.zip (span 0 xs.length) xs).foldl (fun s p =>
      if p.2.isAbsent then s else addNum false s (if hadNeg i p.1 then negNum p.2 else p.2)) (.fin false 0 0))

/-- Quantises a block of e4m3 or e5m2 elements (R111). -/
def quantFloat (t : Nat) (flush : Bool) (xs : List Num) : Quant :=
  let f := if t = 9 then fmtE4m3 else fmtE5m2
  let e := blockExp (if t = 9 then 8 else 15) xs
  { codes := xs.map (fun x => match x with
      | .absent => f.absent
      | .fin _ _ _ => pack f { mode := 0, sat := true, flush := flush } (scaleNum (-e) x)
      | _ => f.nan)
    scale := (e + 127).toNat, special := 0 }

/-- Quantises a block to type 9, 10 or 11, after the Hadamard transform when asked (R111). -/
def quantise (md : Word) (t : Nat) (had : Bool) (xs : List Num) : Quant :=
  if t = 11 then quantE2m1 (if had then hadamard (mdAbs md) xs else xs)
  else quantFloat t (mdFlushOut md t) xs

end Sys2Proof.Machine
end

