-- ==== Sys2Proof/Config.lean ====
section
/-!
DEFINITION. What the manual leaves to the part or to its surroundings: the sizes it fixes are numerals here, and
each value it leaves open is an opaque constant, so that a statement holds whatever it is.
-/

namespace Sys2Proof

/-- Where an error of the hardware can lie (R122, R150, R289): a byte of memory, in the line's home slice of the L3 or,
with a stack number, in HBM4; a byte of a task's scratchpad; a byte of a core's operand buffer; an accumulator entry of a
core, by its key. -/
inductive Site where
  | mem (pa : Nat) (stack : Option Nat)
  | spd (task off : Nat)
  | ob (core off : Nat)
  | tile (core key : Nat)
  deriving DecidableEq, Repr, Inhabited

/-- An error that stands in a storage: correctable, or not (R289). -/
structure Flaw where
  site : Site
  fatal : Bool
  deriving DecidableEq, Repr, Inhabited

/-- Whose move a step of the model is: a partition's next instruction start (R202), a lead engine's (R296), a
prologue engine's (R351), a steward's (R176), an event of the device, or an event for one lane's access alone (R240); or
what comes upon the device from outside its rules: an error in a storage (R289), a Surveyor asking for the register
snapshot of a task's next commit point (R259), the hottest sensor of a die reading so many eighths of a degree (R177), another device accepting
a message that has departed (R353), an application core loading bytes of memory (R276), a plain read of a register (R431, R444). -/
inductive Turn where
  | partition (core part : Nat)
  | lead (core : Nat)
  | prologue (ctx : Nat)
  | steward (die : Nat)
  | event (i : Instr)
  | part (i : Instr) (lane : Nat)
  | upset (f : Flaw)
  | ask (task : Nat)
  | heat (die eighths : Nat)
  | accepted (n : Nat)
  | appLoad (agent addr n : Nat)
  | regRead (off width : Nat)
  deriving DecidableEq, Repr, Inhabited

/-- The move taken when State's own list of moves is empty: the manual fixes no order among parties that do not
wait for one another, and none among inputs (log 2). -/
opaque Config.nextTurn : Nat → Turn

/-- Arithmetic clocks that pass in a step, beside those that its words take (R3, R172; log 5). -/
opaque Config.acPassed : Nat → Nat

/-- The device revision of BOOTST and of every plate key (R447, R322). -/
opaque Config.revision : BitVec 4

/-- The context whose page tables serve a steward's own accesses, by die: R270 names the context that issues an
access, and steward code issues for none (log 13). -/
opaque Config.stewardContext : Nat → Nat

/-- The address of a steward's firmware handler, to which its traps go (R170), by die (log 13). -/
opaque Config.stewardHandler : Nat → Word64

/-- Which front end serves a context: 0 for that of H0, 1 for that of H1 (R342; log 15). -/
opaque Config.frontEnd : Nat → Nat

/-- Words in the `.text` of a kernel, by context and code address: no rule says how the device learns it (log 29). -/
opaque Config.textWords : Nat → Nat → Nat

/-- Address, lane and detail of the record that an injected PAGE_FAULT of a replay writes, by step counter: the log does not
hold them (R378, R422; log 21). -/
opaque Config.injectedFault : Nat → Word64 × Nat × Word

/-- The root port and the 24-bit device number of a peer's access, by step counter: the event does not name them (R445, R446;
log 48). -/
opaque Config.peerSource : Nat → Nat × Nat

/-- Words that no rule gives a value, by step counter (log 14). -/
opaque Config.freeWord : Nat → Word

end Sys2Proof
end

