-- ==== Sys2Proof/Machine/Maps.lean ====
section
/-!
DEFINITION. Finite maps as plain data: lists of (key, value) pairs, keys strictly rising when built by these
operations. `get` and `put` serve maps with a default: an entry equal to the default is not listed, so equal maps
are equal lists. Reads and writes of registers, memory, tasks and units all go through these.
-/

namespace Sys2Proof.Machine

/-- A finite map from numbers. -/
abbrev AMap (α : Type) := List (Nat × α)

/-- The value at key `k`, if listed. -/
def AMap.find {α : Type} : AMap α → Nat → Option α
  | [], _ => none
  | e :: m, k => if e.1 = k then some e.2 else AMap.find m k

/-- The map without key `k`. -/
def AMap.erase {α : Type} : AMap α → Nat → AMap α
  | [], _ => []
  | e :: m, k => if e.1 = k then AMap.erase m k else e :: AMap.erase m k

/-- Places a pair before the first greater key. -/
def AMap.place {α : Type} : AMap α → Nat → α → AMap α
  | [], k, v => [(k, v)]
  | e :: m, k, v => if k < e.1 then (k, v) :: e :: m else e :: AMap.place m k v

/-- The map with `v` at key `k`. -/
def AMap.set {α : Type} (m : AMap α) (k : Nat) (v : α) : AMap α :=
  AMap.place (AMap.erase m k) k v

/-- The value at key `k` of a map whose unlisted keys hold `d`. -/
def AMap.get {α : Type} (d : α) (m : AMap α) (k : Nat) : α :=
  (AMap.find m k).getD d

/-- The map with `v` at key `k`, where unlisted keys hold `d`. -/
def AMap.put {α : Type} [DecidableEq α] (d : α) (m : AMap α) (k : Nat) (v : α) : AMap α :=
  if v = d then AMap.erase m k else AMap.set m k v

/-- Keys strictly rising. -/
def AMap.rising {α : Type} : AMap α → Bool
  | [] => true
  | e :: m => (match m with
    | [] => true
    | f :: _ => decide (e.1 < f.1)) && AMap.rising m

/-- The canonical form of a map with default `d`: keys strictly rising and no entry equal to the default. -/
def AMap.canonical {α : Type} [DecidableEq α] (d : α) (m : AMap α) : Bool :=
  AMap.rising m && m.all (fun e => decide (e.2 ≠ d))

/-- Changes the value at key `k` by `f`, if listed. -/
def AMap.modify {α : Type} (m : AMap α) (k : Nat) (f : α → α) : AMap α :=
  match AMap.find m k with
  | none => m
  | some v => AMap.set m k (f v)

/-- Applies `f` to every value. -/
def AMap.mapVals {α : Type} (f : Nat → α → α) (m : AMap α) : AMap α :=
  m.map (fun e => (e.1, f e.1 e.2))

/-- The first number from `k` on, of `n` tried, that is no key of the map. -/
def AMap.fresh {α : Type} (m : AMap α) (k : Nat) : Nat → Nat
  | 0 => k
  | n + 1 => if (AMap.find m k).isNone then k else AMap.fresh m (k + 1) n

end Sys2Proof.Machine
end

