-- ==== Sys2Proof/Machine/State.lean ====
section
/-!
DEFINITION. The machine's state as plain data: the code streams and their registers (R20), tasks (R254), cores and
their units, contexts and their queues, the device's registers and memory, the recorder, and the reasons a step can
stop. `State.reset` is the device right after reset.
-/

namespace Sys2Proof.Machine

/-- Why the machine stops with a fault. -/
inductive Fault where
  /-- Raised by an access whose page tables translate it to a physical address that the part does not have: neither
  device memory (R279) nor the control aperture (R431). Safe: the machine stops where the manual says nothing. -/
  | noSuchAddress (pa : Nat)
  deriving DecidableEq, Repr

/-- Why the model gives a step no meaning. -/
inductive Refusal where
  /-- Raised by an arm of `exec` whose instruction has no meaning yet. Safe. -/
  | notModelled (mnemonic : String)
  /-- Raised by `exec` of an instruction word when no party is issuing it (log 4). Safe. -/
  | noIssuer
  deriving DecidableEq, Repr

/-! ## Code streams -/

/-- An entry of the divergence stack (R25). -/
inductive DivEntry where
  | rejoin (mask : LaneMask)
  | pending (pc : Word64) (mask : LaneMask)
  deriving DecidableEq, Repr

/-- An entry of the loop stack: lc and lh (R75). -/
structure LoopEntry where
  lc : Word
  lh : Word64
  deriving DecidableEq, Repr

/-- An entry of the call stack (R25). -/
structure CallEntry where
  ret : Word64
  divDepth : Nat
  loopDepth : Nat
  deriving DecidableEq, Repr

/-- A place in storage: a physical address, or a byte of a task's scratchpad. -/
inductive Loc where
  | glob (pa : Nat)
  | spd (task off : Nat)
  deriving DecidableEq, Repr

/-- One lane's access: its lane, its address as formed, its place and what it stores (R122, R123). -/
structure Access where
  lane : Nat
  va : Word64
  loc : Loc
  /-- The stored value, or the operand of an atomic. -/
  data : Word64
  /-- The new value of a `cas` (R133). -/
  data2 : Word64
  deriving DecidableEq, Repr

/-- What a memory operation does at its home. -/
inductive MemKind where
  | load | store | atomic | mred
  deriving DecidableEq, Repr

/-- A request of an atomic: one pass's lanes, or those of one address (R133), and whether it has executed. -/
structure AtomicReq where
  group : Nat
  accs : List Access
  /-- It is made at a commit point of its own (R133, R255). -/
  commits : Bool
  done : Bool
  deriving DecidableEq, Repr

/-- An issued memory operation (R125 to R134). -/
structure MemOp where
  kind : MemKind
  bytes : Nat
  /-- Sign-extends on load (`.s8`, `.s16`). -/
  signed : Bool
  /-- Destination specifier of a load or an atomic with return. -/
  dest : Nat
  accs : List Access
  acq : Bool
  rel : Bool
  /-- Scope code of R44, when the operation carries an order. -/
  scope : Nat
  /-- Operation code of R45, for atomics and `mred`. -/
  op : Nat
  reqs : List AtomicReq
  /-- Values read at issue by a load inside a transaction, by lane (R136). -/
  held : Option (List (Nat × Word64))
  deriving DecidableEq, Repr

/-- What a drain writes (R166). -/
inductive DrainKind where
  | reg (first : Nat) (block : Nat)
  | mem (a80 : Bool) (rows : List Access)
  deriving DecidableEq, Repr

/-- An issued matrix word (R162 to R166). -/
inductive MatrixWord where
  | mmz (side : Bool)
  | mld (rows : List Access)
  | mma (a : Nat) (b : Nat)
  | mmaTile (s : Nat) (c : Nat) (b : Nat)
  | smx (c : Word)
  | sexp (c : Word)
  | srsc (s : Nat)
  | mdrain (norm : Nat) (k : DrainKind)
  deriving DecidableEq, Repr

/-- The operations that a team has issued and that go on after it (R129). -/
inductive PendKind where
  | mem (m : MemOp)
  /-- Its tile, its rows, whether its array has taken it, and the registrations before it (R288, R294). -/
  | matrix (w : MatrixWord) (tile : Nat) (rows : LaneMask) (arrived : Bool) (seq : Nat)
  | engine (eng : Nat)
  | collective (group : Nat)
  | message
  deriving DecidableEq, Repr

/-- The counters of R129. -/
inductive Counter where
  | ld | st | cp | tl
  deriving DecidableEq, Repr

/-- One outstanding operation of a team. -/
structure Pend where
  id : Nat
  cls : Counter
  done : Bool
  /-- Address of the issuing instruction, for records. -/
  pc : Word64
  /-- md at issue (R79). -/
  md : Word
  /-- Retired instructions of the team with this one (R378). -/
  point : Nat
  kind : PendKind
  deriving DecidableEq, Repr

/-- What a trap reports (R183, R184). -/
structure TrapInfo where
  cls : Nat
  code : Nat
  addr : Word64
  lane : Nat
  detail : Word
  engine : Bool
  /-- Instructions of the team up to and with the one that trapped, when later ones have issued since (R378). -/
  point : Option Nat := none
  deriving DecidableEq, Repr

/-- What a lane in a transaction has tracked (R136). -/
structure LaneTx where
  /-- The values recorded, by byte: of each read sector as it joined the set, and of each later load of it. -/
  rd : List (Nat × Byte)
  /-- Read sectors. -/
  rdSec : List Nat
  /-- Bytes written, latest last. -/
  wr : List (Nat × Byte)
  wrSec : List Nat
  /-- Reason of the first doom (R137 reasons 3 and 4), with the `txa` code; and a remembered fault with the address of its
  instruction (R137). -/
  doom : Option (Nat × Nat)
  fault : Option (Word64 × TrapInfo)
  /-- The address as formed by the first access to each tracked sector (R393, R401). -/
  formed : AMap Word64
  deriving DecidableEq, Repr

/-- A team's open transaction (R136, R137). -/
structure Tx where
  /-- `txb.dev`, else `txb.coh`. -/
  dev : Bool
  lanes : LaneMask
  tx : AMap LaneTx
  /-- The lane for which the irrevocable ticket is held. -/
  ticket : Option Nat
  /-- Set by `txe`: the lanes that won their groups, and what validation has found for each. -/
  winners : List Nat
  intra : List Nat
  validated : List (Nat × Bool)
  deriving DecidableEq, Repr

/-- What a held commit does once the version is published (R141, R155, R171). -/
inductive CommitWork where
  | plain
  | launch (record : List Byte) (table : List Byte)
  /-- Published; the argument copy of the child grid is still to be made (R331). -/
  | copy (grid : Nat)
  | sys (code : Nat) (value : Word64)
  deriving DecidableEq, Repr

/-- What holds a team after the instruction it has issued, or at the one it is about to issue (R201). -/
inductive Hold where
  | none
  /-- A TLB walk for the given address, for a fetch (2), a store (1) or a load (0), and its lane (R272). -/
  | walk (va : Word64) (how : Nat) (lane : Nat)
  /-- A pending page fault with the given record number (R406). -/
  | pageFault (seq : Nat) (va : Word64)
  /-- `barwait`, until the barrier has left the phase (R143). -/
  | bar (id phase : Nat)
  | gbar (id phase : Nat)
  /-- Parked: kind, wake-on-equal, A operand, comparand (R142). -/
  | park (kind : Nat) (eq : Bool) (a : Word64) (c : Word)
  | commit (w : CommitWork)
  /-- At a `sys`, until its entry of this number is in the service ring (R171). -/
  | post (seq : Nat)
  /-- At a `txb`, waiting for the ticket; the lane it is asked for (R138). -/
  | ticket (dev : Bool) (lane : Nat)
  /-- At a `txe` being validated: its pd, D and sequencing code (R137). -/
  | txe (pd : Nat) (d : Nat) (seq : Nat)
  | obres (n len : Nat)
  | tile (t : Nat)
  /-- At an `mrecv` of an empty mailbox, and at a `launch` that finds its core's queue full (R157, R155, R211). -/
  | recv (mbox : Nat)
  | full
  | halt
  /-- `dstep` waiting for the stepped team since a time, with its destination (R180). -/
  | step (task ord : Nat) (d : Nat) (since : Nat)
  deriving DecidableEq, Repr

/-- A team that issued `y` or `yn` (R26, R204). -/
inductive Yield where
  | none
  | onOp (id : Nat)
  /-- Whether another team of the partition has started since. -/
  | onTurn (passed : Bool)
  deriving DecidableEq, Repr

/-- How a team is frozen (R404) or being stepped (R180). -/
inductive Freeze where
  | no
  | frozen
  | stepping
  deriving DecidableEq, Repr

/-- An entry of a lead queue (R161). -/
inductive LeadEntry where
  | val (w : Word)
  /-- Its registration number, its access and the word once it has come. -/
  | ld (id : Nat) (acc : Access) (value : Option Word) (pc : Word64)
  /-- Its registration number, its record, where its source bytes lie (address and length of each part), bytes copied,
  bytes in all. -/
  | ob (id : Nat) (rec : Nat) (va : Word64) (parts : List (Nat × Nat)) (copied total : Nat) (pc : Word64)
  deriving DecidableEq, Repr

/-- A team's current chunk (R375, R378): the counts of retired instructions at the point of its previous record and
where the chunk began. -/
structure Chunk where
  last : Nat
  begun : Nat
  deriving DecidableEq, Repr

/-- One code stream: a team of kernel code, a lead slice, a prologue or steward code (R20, R51). -/
structure Team where
  stream : Stream
  role : Nat
  /-- Its index among its role's teams, `%team`. -/
  index : Nat
  groups : Nat
  budget : Nat
  entry : Word64
  partition : Nat
  slot : Nat
  pc : Word64
  /-- Address of the instruction issued last. -/
  ipc : Word64
  mask : LaneMask
  div : List DivEntry
  loops : List LoopEntry
  calls : List CallEntry
  j0 : Word64
  j1 : Word64
  j2 : Word64
  j3 : Word64
  md : Word
  tw : Word
  /-- Lane registers: register × 1,024 + lane. -/
  v : AMap Word
  k : AMap Word
  p : AMap LaneMask
  q : BitVec 4
  ended : Bool
  /-- The team's slot has been released (R25, R198). -/
  released : Bool
  hold : Hold
  yld : Yield
  freeze : Freeze
  /-- `brk` acts once what holds the team is over (R27). -/
  brk : Bool
  pend : List Pend
  nextId : Nat
  tx : Option Tx
  aborts : AMap Nat
  leadQ : List LeadEntry
  age : Nat
  retired : Nat
  passes : Nat
  idle : Nat
  chunk : Chunk
  /-- Register lines that lie in the frame and not in the register cache: register × 32 + group (R206). -/
  evicted : List Nat
  /-- CLOCK and MARK records that follow accesses still to be performed: kind, payload and point (R173, R175, R376). -/
  late : List (Nat × List Byte × Nat)
  /-- The step in which each cached line was last named by an instruction (R206). -/
  used : AMap Nat
  deriving DecidableEq, Repr

/-! ## Tasks -/

/-- A delta that a commit applies to the committed word (R134, R243). -/
structure Delta where
  pa : Nat
  bytes : Nat
  /-- Operation code of R45; 13 and 14 for `mred`. -/
  op : Nat
  x : Word64
  y : Word64
  deriving DecidableEq, Repr

/-- One write of a version, in the order the task made them (R256): stored bytes, a `mred` delta (R134), or an atomic's
update below `.dev` with its result as the task sees it (R243). -/
inductive VWrite where
  | bytes (pa : Nat) (data : List Byte)
  | delta (d : Delta)
  | update (d : Delta) (result : List Byte)
  deriving DecidableEq, Repr

/-- A Meridian message (R157, R425). -/
structure Message where
  mbox : Nat
  srcDev : Nat
  srcCtx : Nat
  dstDev : Nat
  epoch : Nat
  seq : Nat
  body : List Byte
  /-- The grid whose task sent it, on this device (R353). -/
  grid : Nat
  deriving DecidableEq, Repr

/-- A named barrier's state word (R208). -/
structure Barrier where
  phase : BitVec 16
  expected : BitVec 4
  arrived : BitVec 8
  deriving DecidableEq, Repr

/-- A gang barrier: its phase and the teams (task × 8 + ordinal) that have arrived (R144). -/
structure GangBar where
  phase : Nat
  arrived : List Nat
  deriving DecidableEq, Repr

/-- A cohort that has been placed (R195, R254). -/
structure Task where
  ctx : Nat
  grid : Nat
  /-- Linear cohort index. -/
  index : Nat
  core : Nat
  base : Nat
  frame : Nat
  priority : Nat
  scratchSize : Nat
  scratch : AMap Byte
  bars : AMap Barrier
  commits : Nat
  version : List VWrite
  messages : List Message
  /-- Messages taken by `mrecv` since the last commit (R157, R261). -/
  taken : List Message
  retries : Nat
  teams : AMap Team
  leads : AMap Team
  /-- The first failing trap of the task, once taken, and whether it is its gang's primary one (R182, R263). -/
  failing : Option TrapInfo
  primary : Bool
  resident : Bool
  /-- Every team has ended and the end commit has been made; the scratchpad stays for its gang (R216). -/
  finished : Bool
  /-- Time from which all its teams have waited under R211 (R339). -/
  waitingSince : Option Nat
  /-- Holder of the cohort's irrevocable ticket (ordinal), and the teams waiting for it (R138, R266). -/
  ticket : Option Nat
  ticketQ : List Nat
  /-- When the task last read or wrote each 128-byte line of memory (R268). -/
  touched : AMap Nat
  /-- Partial sums of determinism level 1, by word address (R366). -/
  partials : AMap Word
  deriving DecidableEq, Repr

/-! ## Grids and packets -/

/-- A role as the device reads it from the role table and the record's role bytes (R155, R156). -/
structure Role where
  entry : Word64
  lead : Word64
  budget : Nat
  groups : Nat
  teams : Nat
  deriving DecidableEq, Repr

/-- A launch record (R155). -/
structure LaunchRec where
  code : Word64
  table : Word64
  gx : Nat
  gy : Nat
  gz : Nat
  roleBytes : Word
  scratch : Nat
  argSize : Nat
  staticSize : Nat
  argAddr : Word64
  compAddr : Word64
  compValue : Word
  flags : Word
  deriving DecidableEq, Repr

/-- A cohort waiting to be placed again (R262). -/
structure Retry where
  index : Nat
  retries : Nat
  deriving DecidableEq, Repr

/-- Where a plate lies and what it was built from (R320 to R324). -/
structure Plate where
  ctx : Nat
  code : Word64
  gen : Nat
  revision : BitVec 4
  key : List Byte
  roles : List Role
  md : Word
  offset : Nat
  words : List Word
  /-- For each plate word its source byte offset and iteration vector. -/
  map : List (Word × Word)
  /-- Plate word index of each role's entry. -/
  entries : List Nat
  lastUse : Nat
  deriving DecidableEq, Repr

/-- A launch that has started: its cohorts, runs and completion (R352 to R358). -/
structure Grid where
  ctx : Nat
  /-- The packet that launched it, or none for a device-side child (R338). -/
  packet : Option Nat
  /-- The core whose pending-launch queue holds its entry (R155). -/
  parent : Option Nat
  record : LaunchRec
  md : Word
  roles : List Role
  args : List Byte
  run : Nat
  runs : Nat
  ordinal : Nat
  /-- A child has left its core's queue for the front end (R338); a packet's grid is there at once. -/
  handed : Bool
  /-- The run's argument copy has been made (R128, R331, R352), and its cohorts have begun. -/
  copied : Bool
  started : Bool
  next : Nat
  retry : List Retry
  /-- Cohorts of the run that have ended or been reported. -/
  ended : Nat
  failed : Bool
  lastCluster : Option Nat
  waitSince : Option Nat
  /-- The placement wait of R355 has expired. -/
  expired : Bool
  /-- The plate it runs. -/
  plate : Option Nat
  engraved : Bool
  /-- Whether it runs engraved, and on which plate, is settled (R321). -/
  settled : Bool
  /-- Partial sums of ended cohorts: word address to (cohort, sum) leaves (R366). -/
  sums : AMap (List (Nat × Word))
  sumsApplied : Bool
  /-- Waits for the phase check of its context (R354), and its check has closed. -/
  atCheck : Bool
  checked : Bool
  complete : Bool
  anchor : Bool
  deriving DecidableEq, Repr

/-- A range declared by a packet (R345). -/
structure Range where
  lo : Nat
  hi : Nat
  write : Bool
  deriving DecidableEq, Repr

/-- How far a packet has come (R346 to R353). -/
inductive PacketStage where
  | accepted | started | inPrologue | running | complete
  /-- A launch that has failed: complete once its record of this number is written (R358). -/
  | failed (seq : Nat)
  deriving DecidableEq, Repr

/-- A packet the front end has accepted (R343, R344). -/
structure Packet where
  kind : Nat
  queue : Nat
  addr : Word64
  body : List Byte
  ranges : List Range
  prologue : Option (List Byte)
  md : Word
  roles : List Role
  stage : PacketStage
  /-- Bytes a copy has written. -/
  copied : Nat
  /-- The packet before it on its queue, if that was accepted (R348). -/
  prev : Option Nat := none
  /-- The order counts between which its prologue has run, once it has begun (R376). -/
  span : Option (Nat × Option Nat) := none
  deriving DecidableEq, Repr

/-- A packet taken from its ring and not yet accepted or rejected (R342): its sequence number, and its bytes once they have
been read (R454). -/
structure Incoming where
  queue : Nat
  addr : Word64
  num : Nat
  body : Option (List Byte)
  deriving DecidableEq, Repr

/-! ## Contexts -/

/-- A page fault waiting for PFRES, and whose it is (R407). -/
inductive Faulter where
  | team (task ord : Nat)
  | lead (task ord : Nat)
  | engine (core eng : Nat)
  /-- A front-end access: 0 queue ring, 1 completion of a grid, 2 copy packet, 3 completion of a packet, 4 launch,
  5 steward request, 6 choreography; with the number of the thing that waits. -/
  | frontEnd (what n : Nat)
  deriving DecidableEq, Repr

/-- A pending page fault. -/
structure PageFault where
  seq : Nat
  va : Word64
  lane : Nat
  who : Faulter
  deriving DecidableEq, Repr

/-- A collective group (R429). -/
structure Group where
  members : List (Nat × Nat)
  /-- Waits for the Meridian answers since a time (R430). -/
  opening : Option Nat
  deriving DecidableEq, Repr

/-- A context's prologue registers (R177). -/
structure ProCsr where
  lgx : Word
  lgy : Word
  lgz : Word
  largl : Word
  largh : Word
  lruns : Word
  deriving DecidableEq, Repr

/-- A running prologue (R351). -/
structure Prologue where
  team : Team
  packet : Nat
  csr : ProCsr
  issued : Nat
  since : Nat
  haltedTicks : Nat
  haltSince : Option Nat
  /-- A notify register of the context has been written since it halted (R181). -/
  woken : Bool
  deriving DecidableEq, Repr

/-- What the determinism-level packet has set (R370, R373). -/
structure Level where
  level : Nat
  recording : Bool
  choreo : Word64
  capacity : Nat
  bind : Bool
  /-- Entries written, or the numbers of those followed (R373). -/
  entries : Nat
  used : List Nat
  broken : Bool
  deriving DecidableEq, Repr

/-- An open phase check (R354): the grids it covers, and the traffic of the old tag: operations and fetches by party and number, and
messages. -/
structure PhaseCheck where
  grids : List Nat
  waits : List (Party × Nat)
  messages : List Message
  /-- Copy packets that were under way (R346). -/
  copies : List Nat
  deriving DecidableEq, Repr

/-- A step that the steward leader makes for a context's request queue (R430): its team, since when, and its status. -/
structure StepReq where
  task : Nat
  ord : Nat
  since : Nat
  status : Option Nat
  deriving DecidableEq, Repr

/-- A context beside its control registers. -/
structure Ctx where
  level : Level
  notify : AMap Word
  /-- Entries of the submission mailbox not yet consumed: number, queue, tail (R440). -/
  subs : List (Nat × Nat × Nat)
  consumed : Nat
  subSeq : Nat
  subRej : Bool
  incoming : List Incoming
  /-- The open launch group of each queue, and the queues whose broken group is still being passed over (R344, R347). -/
  partials : AMap (List Incoming)
  skip : List Nat
  packets : AMap Packet
  nextPacket : Nat
  nextOrdinal : Nat
  prologue : Option Prologue
  groups : AMap Group
  stepReq : Option StepReq
  /-- Status and result of the request on which the leader has acted, still to be written (R430). -/
  answer : Option (Nat × Nat)
  /-- By queue: one more than the number of its last packet that was rejected (R348). -/
  rejected : AMap Nat
  tag : Bool
  /-- The phase check that is open (R354). -/
  check : Option PhaseCheck
  faultSeq : Nat
  /-- Records that wait for room in the fault ring, with their numbers (R439). -/
  heldFaults : List (List Byte)
  svcSeq : Nat
  heldSvc : List (List Byte)
  pageFaults : List PageFault
  /-- Front-end accesses that are denied, or that PFRES has ended with fail: what, which, and the number of the record (R454). -/
  feFailed : List (Nat × Nat × Nat)
  routeEpoch : AMap Nat
  /-- Next flow sequence number of a destination device and mailbox (R426). -/
  flowSeq : AMap Nat
  preemptSince : Option Nat
  /-- A forced reset whose RESET_DONE waits for its records (R437). -/
  resetting : Bool
  snapPaused : Bool
  chbrk : Bool
  epoch : Nat
  err : Bool
  deriving DecidableEq, Repr

/-! ## Cores -/

/-- An OB record (R159). -/
structure ObRec where
  held : Option Nat
  length : Nat
  base : Nat
  word1 : Word
  word2 : Word
  deriving DecidableEq, Repr

/-- A cohort's team that waits in `obres` (R292). -/
structure ObWait where
  task : Nat
  ord : Nat
  n : Nat
  len : Nat
  deriving DecidableEq, Repr

/-- An entry of the range-lock table (R244). -/
structure RangeLock where
  /-- A range of the core's operand buffer. -/
  ob : Bool
  /-- A range of gang scratchpad addresses of its task, else of global ones (R121). -/
  spd : Bool
  lo : Nat
  hi : Nat
  task : Nat
  dest : Bool
  seq : Nat
  /-- The step in which it was registered, by which ranges of several cores are compared (R245). -/
  since : Nat
  /-- Team (task, ordinal), operation id and whether a lead-queue fetch. -/
  ord : Nat
  op : Nat
  lead : Bool
  deriving DecidableEq, Repr

/-- Where an engine writes a byte: memory or a scratchpad, or the core's operand buffer. -/
inductive Place where
  | mem (l : Loc)
  | ob (off : Nat)
  deriving DecidableEq, Repr

/-- An operation of a copy or chain engine, or a collective (R149). -/
structure EngOp where
  task : Nat
  ord : Nat
  op : Nat
  desc : List Byte
  md : Word
  seq : Nat
  pc : Word64
  /-- Elements done, and the bytes written so far, latest first. -/
  pos : Nat
  out : List (Place × Byte)
  /-- Bytes of memory in `out` that the task has written since, through another virtual address (R245). -/
  beside : List Nat
  /-- The current block of a quantising copy (R152). -/
  block : List Word64
  fault : Option Nat
  deriving DecidableEq, Repr

/-- A word in an array's queue (R288). -/
structure ArrayEntry where
  task : Nat
  ord : Nat
  op : Nat
  deriving DecidableEq, Repr

/-- A TLB entry (R272). -/
structure TlbEntry where
  ctx : Nat
  lo : Nat
  /-- Size of the page in bytes. -/
  size : Nat
  pa : Nat
  flags : Nat
  /-- Base and size of the VS-stage leaf, and of the G-stage leaf in guest-physical addresses, that it was made from (R273). -/
  vs : Nat × Nat
  gs : Nat × Nat
  deriving DecidableEq, Repr

/-- A logical core and its units. -/
structure Core where
  last : AMap Nat
  /-- The arithmetic clock at which the passes of an instruction are over, by partition, with 32 for the lead engine (R200, R296). -/
  busy : AMap Nat
  starts : AMap (List Nat)
  leadLast : Nat
  ob : AMap Byte
  recs : AMap ObRec
  obQ : List ObWait
  tiles : AMap (BitVec 80)
  rowMax : AMap Word
  rowSum : AMap Word
  rowFac : AMap Word
  holder : AMap (Nat × Nat)
  tileQ : AMap (List (Nat × Nat))
  arrays : AMap (List ArrayEntry)
  locks : List RangeLock
  lockSeq : Nat
  engines : AMap (List EngOp)
  colls : List EngOp
  launches : List Nat
  tlb : List TlbEntry
  /-- The 128-byte lines that the core's L1 holds (R227, R229). -/
  l1 : List Nat
  counters : AMap Nat
  phys : Nat
  retiring : Bool
  retired : Bool
  deriving DecidableEq, Repr

/-- The probe status of a unit (R178). -/
structure Unit where
  present : Bool
  enabled : Bool
  error : Bool
  corrected : Nat
  uncorrected : Nat
  deriving DecidableEq, Repr

/-- The hit whose stop a cluster is under (R391 to R393). -/
structure Hit where
  ctx : Nat
  wp : Nat
  task : Nat
  ord : Nat
  lead : Bool
  engine : Bool
  pc : Word64
  addr : Word64
  lane : Nat
  /-- Instructions the teams had completed at the hit, by team field (R392), and its arithmetic clock (R391). -/
  counts : AMap Nat
  since : Nat
  /-- The stop has taken effect. -/
  stopped : Bool
  deriving DecidableEq, Repr

/-- A cluster beside its control registers. -/
structure Cluster where
  fused : Bool
  hit : Option Hit
  /-- Contexts for which a stop is in force (R403). -/
  stops : List Nat
  /-- The grid for which it takes no new cohort until it empties and its mode changes (R229). -/
  draining : Option Nat
  /-- Translations held for the cluster, beside those of its cores (R272). -/
  tlb : List TlbEntry
  deriving DecidableEq, Repr

/-! ## Recorder, stewards, neighbours -/

/-- An open log block of a Surveyor and context (R377). -/
structure Block where
  surveyor : Nat
  ctx : Nat
  base : Nat
  last : Nat
  bytes : List Byte
  dict : List Nat
  number : Nat
  /-- It is to be written once the replay that holds it open ends (R421). -/
  due : Bool := false
  deriving DecidableEq, Repr

/-- A live anchor (R380). -/
structure Anchor where
  number : Nat
  kind : Nat
  ctx : Nat
  first : Nat
  stamp : Nat
  extra : Word64
  deriving DecidableEq, Repr

/-- One record of the log being replayed (R378, R385). -/
structure LogRec where
  pos : Nat
  kind : Nat
  team : Nat
  stamp : Nat
  delta : Nat
  payload : List Byte
  deriving DecidableEq, Repr

/-- A steward of a die (R177, R442). -/
structure Steward where
  team : Team
  spwl : Word
  /-- The hottest sensor of the die (`stemp`). -/
  temp : Word
  spare : Nat
  epoch : Nat
  /-- Time of its last follower heartbeat, or none. -/
  beat : Option Nat
  deriving DecidableEq, Repr

/-- A lease of an agent on a region (R267, R268). -/
structure Lease where
  agent : Nat
  base : Nat
  size : Nat
  owned : Bool
  /-- Times of the grant and of the last renewal, and the 128-byte lines that the agent has touched. -/
  granted : Nat
  renewed : Nat
  lines : List Nat
  deriving DecidableEq, Repr

/-- A line that an application core's cache holds newer than its last written-back value, which is kept here (R268). -/
structure Dirty where
  agent : Nat
  addr : Nat
  data : List Byte
  deriving DecidableEq, Repr

/-- An MSI the device has written (R436); each is written as it is raised (log 28). -/
structure Msi where
  file : Nat
  eiid : Nat
  /-- The context it is for, or none for the device's own. -/
  ctx : Option Nat
  deriving DecidableEq, Repr

/-- A translation invalidation in progress (R274). -/
structure Inval where
  op : Nat
  ctx : Nat
  page : Nat
  gen : Nat
  /-- Requests of earlier generations still to reach their homes. -/
  waits : List (Party × Nat)
  deriving DecidableEq, Repr

/-- A kernel's code: its pages, its generation (R323). -/
structure Kernel where
  ctx : Nat
  code : Word64
  gen : Nat
  /-- Physical pages of its `.text` as its last grid was launched, and the spans (base, size) of the leaves that mapped them: of the VS
  stage, and of the G stage. -/
  pages : List Nat
  spans : List ((Nat × Nat) × (Nat × Nat))
  /-- Writes to the text that wait for the running grids: physical address and bytes. -/
  writes : List (Nat × List Byte)
  deriving DecidableEq, Repr

/-- A captured notify write (R444). -/
structure Latched where
  ctx : Nat
  n : Nat
  value : Word
  deriving DecidableEq, Repr

/-- What a team's Surveyor keeps of its accesses in the current chunk (R375): the 128-byte lines it has loaded, those it has
stored, and the scratchpad words it has accessed (owner, word, whether it wrote). -/
structure Sig where
  task : Nat
  ord : Nat
  lines : List Nat
  wrote : List Nat
  words : List (Nat × Nat × Bool)
  deriving DecidableEq, Repr

/-- The replay driver beside its registers (R384 to R387). -/
structure Replay where
  state : Nat
  position : Nat
  script : List LogRec
  /-- The context and anchor it runs from. -/
  ctx : Nat
  anchor : Nat
  /-- Stamp of the breakpoint that the replay has gone on from. -/
  passed : Option Nat
  deriving DecidableEq, Repr

/-- What a snapshot anchor holds (R382): the context, its cohorts in their frames, and what they hold on their cores. -/
structure Snap where
  ctx : Ctx
  tasks : AMap Task
  grids : AMap Grid
  cores : AMap Core
  gangBars : AMap GangBar
  deriving DecidableEq, Repr

/-- How a context stood at a live anchor, beside its memory: what its replay begins with (R384, R387; log 27). -/
structure AnchorSide where
  /-- The order counts between which the prologues of its launch and of later ones have run. -/
  spans : List (Nat × Option Nat)
  /-- The epochs and next numbers of its flows, the numbers expected of the flows to its mailboxes, and what these held. -/
  epochs : AMap Nat
  seqs : AMap Nat
  flows : List (Nat × Nat × Nat × Nat × Nat)
  boxes : AMap (List Message)
  /-- The grid, at the anchor of a launch that no packet made. -/
  child : Option Grid
  deriving DecidableEq, Repr

/-- The log ring beside LRBASE and LRSIZE (R379 to R381). -/
structure LogRing where
  head : Nat
  tail : Nat
  anchors : List Anchor
  nextAnchor : Nat
  blocks : List Block
  /-- Blocks that wait because they would overwrite an anchor being replayed, oldest first (R421). -/
  held : List Block
  numbers : AMap Nat
  /-- What live snapshot anchors hold, by anchor number. -/
  snaps : AMap Snap
  /-- How their contexts stood at live anchors, by anchor number. -/
  sides : AMap AnchorSide
  deriving DecidableEq, Repr

/-- The power and clock state (R448 to R451). -/
structure Power where
  arith : Nat
  uncore : Nat
  now : Nat
  above : Option Nat
  below : Option Nat
  crossed : Bool
  /-- Time since when PWRNOW has exceeded spwl (R369). -/
  overSpwl : Option Nat
  /-- Halvings of the issue shares of level-0 and level-1 contexts (R450). -/
  halved : Nat
  monitor : Bool
  deriving DecidableEq, Repr

/-- The boot status of R447. -/
structure Boot where
  up : Bool
  ed : Bool
  mld : Bool
  recovered : Bool
  recovery : Bool
  deriving DecidableEq, Repr

/-- The leader lease of R442. -/
structure Leader where
  die : Option Nat
  epoch : Nat
  renewed : Nat
  deriving DecidableEq, Repr

/-- The device's state. -/
structure State where
  /-- The moves still to be made, oldest first; when empty, `Config.nextTurn` gives the move (log 2). -/
  agenda : List Turn
  /-- The party whose word is being issued. -/
  cur : Option Party
  /-- The lane whose access alone the event being made performs (R240). -/
  only : Option Nat
  /-- Steps made, to which free values are applied (log 5). -/
  tick : Nat
  /-- Arithmetic clocks and timebase ticks since reset (R172). -/
  ac : Nat
  time : Nat
  /-- What the arithmetic clocks since the last tick of the timebase come to, in 100 MHz × clocks (R3). -/
  phase : Nat
  /-- Timebase count at which the lease clock was last 0 (R269). -/
  leaseZero : Nat
  /-- The lease clock has wrapped, and the package drains what is in flight (R269). -/
  wrapping : Bool
  /-- Committed memory by physical address; unlisted bytes read 0 (log 1). -/
  mem : AMap Byte
  /-- Errors that stand in the storages (R289). -/
  flaws : List Flaw
  /-- Control registers by aperture offset; unlisted ones hold their reset value (R431). -/
  regs : AMap Word64
  tasks : AMap Task
  grids : AMap Grid
  nextGrid : Nat
  cores : AMap Core
  clusters : AMap Cluster
  ctxs : AMap Ctx
  stewards : AMap Steward
  units : AMap Unit
  /-- Tasks at whose next commit point a register snapshot is taken (R206, R259). -/
  asked : List Nat
  /-- Accesses in flight to a range that is being unmarked, by range (R279). -/
  unmarks : AMap (List (Party × Nat))
  /-- Gang barriers: gang × 4 + id, a gang being grid × 2^32 + first cohort index (R144). -/
  gangBars : AMap GangBar
  stamp : Nat
  /-- Stamp at which the core map last shrank, and the choreographies (context, address) recorded since (R452). -/
  shrunk : Option Nat
  recorded : List (Nat × Nat)
  /-- Sectors locked by a validation in progress, oldest first, with the party whose it is (R264). -/
  locked : List (Nat × Party)
  /-- The device's irrevocable ticket: its holder and the queue (R266). -/
  ticket : Option Party
  ticketQ : List Party
  invals : List Inval
  transGen : Nat
  tinvFull : Bool
  tinvErr : Bool
  /-- Bias bits by 64 KiB block; unlisted blocks have host bias, 0 (R276). -/
  bias : AMap Bool
  lapse : List (Nat × Nat)
  leases : List Lease
  dirty : List Dirty
  devErr : Bool
  mailboxes : AMap (List Message)
  /-- Messages that have arrived and are not yet in their mailbox (R426, R428). -/
  arrivals : List Message
  /-- Next sequence number expected of each flow and epoch: (srcDev, srcCtx, mbox, epoch, next). -/
  flows : List (Nat × Nat × Nat × Nat × Nat)
  /-- Messages that have left for another device, or for this one, and have not arrived here (R157, R425). -/
  sent : List Message
  latch : List Latched
  gated : Bool
  requests : List (List Byte)
  leader : Leader
  power : Power
  boot : Boot
  ports : AMap Bool
  pcie : AMap Bool
  /-- The IOMMU's register pages as 32-bit words: port × 1024 + offset / 4 (R446). -/
  ioRegs : AMap Word
  kernels : List Kernel
  plates : AMap Plate
  log : LogRing
  /-- Read signatures and the scratchpad conflict detector of recorded teams (R375). -/
  sigs : List Sig
  replay : Replay
  msis : List Msi
  /-- What the last register or peer read returned (log 11). -/
  readData : Option (List Byte)
  deriving DecidableEq, Repr

/-! ## Reset -/

/-- The mode register at reset (R21). -/
def mdReset : Word := 0x10000060#32

/-- A code stream at its start: every register at the value of R20. -/
def Team.start (stream : Stream) (role index groups budget : Nat) (entry : Word64) (md : Word) : Team :=
  { stream := stream, role := role, index := index, groups := groups, budget := budget, entry := entry
    partition := 0, slot := 0, pc := entry, ipc := entry
    mask := BitVec.ofNat 1024 (2 ^ (32 * groups) - 1)
    div := [], loops := [], calls := []
    j0 := entry, j1 := entry, j2 := entry, j3 := entry, md := md, tw := 5#32
    v := [], k := [], p := [], q := 0#4
    ended := false, released := false, hold := .none, yld := .none, freeze := .no, brk := false
    pend := [], nextId := 0, tx := none, aborts := [], leadQ := []
    age := 0, retired := 0, passes := 0, idle := 0
    chunk := { last := 0, begun := 0 }, late := [], evicted := [], used := [] }

/-- A one-lane stream: prologue, lead slice, steward (R29, R351). R20 gives j0 to j3 and lh the role's entry address; a prologue and
steward code have no role: DESIGN CHOICE, theirs start at the stream's own start address (log 25). A lead slice's start at the role's
entry, beside its own start address. -/
def Team.single (stream : Stream) (entry : Word64) (md : Word) : Team :=
  { Team.start stream 0 0 1 96 entry md with mask := 1#1024 }

/-- A named barrier at cohort start (R208). -/
def Barrier.start : Barrier := { phase := 0#16, expected := 0#4, arrived := 0#8 }

/-- An OB record at reset (R159). -/
def ObRec.reset : ObRec := { held := none, length := 0, base := 0, word1 := 0#32, word2 := 0#32 }

/-- Logical core `c` at reset, mapped to its die's physical core of the same position (R2, R178). -/
def Core.reset (c : Nat) : Core :=
  { last := [], busy := [], starts := [], leadLast := 255, ob := [], recs := [], obQ := []
    tiles := [], rowMax := [], rowSum := [], rowFac := [], holder := [], tileQ := [], arrays := []
    locks := [], lockSeq := 0, engines := [], colls := [], launches := [], tlb := [], l1 := [], counters := []
    phys := c / 32 * 34 + c % 32, retiring := false, retired := false }

/-- A cluster at reset: unfused, not stopped (R229, R403). -/
def Cluster.reset : Cluster := { fused := false, hit := none, stops := [], draining := none, tlb := [] }

/-- Level 0, recording off, no choreography (R370). -/
def Level.reset : Level :=
  { level := 0, recording := false, choreo := 0#64, capacity := 0, bind := false, entries := 0, used := [], broken := false }

/-- A context at reset. -/
def Ctx.reset : Ctx :=
  { level := Level.reset, notify := [], subs := [], consumed := 0, subSeq := 0, subRej := false
    incoming := [], partials := [], skip := [], packets := [], nextPacket := 0, nextOrdinal := 0, prologue := none, groups := [], stepReq := none, answer := none, rejected := []
    tag := false, check := none, faultSeq := 0, heldFaults := [], svcSeq := 0, heldSvc := []
    pageFaults := [], feFailed := [], routeEpoch := [], flowSeq := [], preemptSince := none, resetting := false
    snapPaused := false, chbrk := false, epoch := 0, err := false }

/-- A unit at reset: present, enabled, no errors (R178). -/
def Unit.reset : Unit :=
  { present := true, enabled := true, error := false, corrected := 0, uncorrected := 0 }

/-- The steward of die `d` at reset (R177; its entry point, log 10). -/
def Steward.reset (d : Nat) : Steward :=
  { team := Team.single .steward 0#64 mdReset, spwl := 2800#32, temp := 0#32, spare := if d < 4 then 2 else 0
    epoch := 0, beat := none }

/-- The device right after reset: every register at the value its map gives, memory with nothing listed. -/
def State.reset : State :=
  { agenda := [], cur := none, only := none, tick := 0, ac := 0, time := 0, phase := 0, leaseZero := 0, wrapping := false
    mem := [], flaws := [], regs := [], tasks := [], grids := [], nextGrid := 0, cores := [], clusters := [], ctxs := []
    stewards := [], units := [], asked := [], unmarks := [], gangBars := [], stamp := 0, shrunk := none, recorded := [], locked := [], ticket := none, ticketQ := []
    invals := [], transGen := 0, tinvFull := false, tinvErr := false, bias := [], lapse := [], leases := []
    dirty := [], devErr := false, mailboxes := [], arrivals := [], flows := [], sent := [], latch := [], gated := false
    requests := [], leader := { die := none, epoch := 0, renewed := 0 }
    power := { arith := 600, uncore := 1200, now := 0, above := none, below := none, crossed := false
               overSpwl := none, halved := 0, monitor := false }
    boot := { up := false, ed := false, mld := false, recovered := false, recovery := false }
    ports := [], pcie := [], ioRegs := [], kernels := [], plates := []
    log := { head := 0, tail := 0, anchors := [], nextAnchor := 0, blocks := [], held := [], numbers := [], snaps := [], sides := [] }
    sigs := []
    replay := { state := 0, position := 0, script := [], ctx := 0, anchor := 0, passed := none }
    msis := [], readData := none }

end Sys2Proof.Machine
end

