-- ==== Sys2Proof/Machine/Units.lean ====
section
/-!
DEFINITION. Reading and writing the parts of State: cores, clusters, contexts, tasks, teams, and the control
registers of the aperture by offset (R431).
-/

namespace Sys2Proof.Machine

/-- The result of a step. -/
abbrev Out := Host.Outcome State Fault Refusal

/-! ## Units with a reset value -/

def State.core (s : State) (c : Nat) : Core := AMap.get (Core.reset c) s.cores c
def State.setCore (s : State) (c : Nat) (x : Core) : State :=
  { s with cores := AMap.put (Core.reset c) s.cores c x }
def State.cluster (s : State) (k : Nat) : Cluster := AMap.get Cluster.reset s.clusters k
def State.setCluster (s : State) (k : Nat) (x : Cluster) : State :=
  { s with clusters := AMap.put Cluster.reset s.clusters k x }
def State.ctx (s : State) (c : Nat) : Ctx := AMap.get Ctx.reset s.ctxs c
def State.setCtx (s : State) (c : Nat) (x : Ctx) : State :=
  { s with ctxs := AMap.put Ctx.reset s.ctxs c x }
def State.steward (s : State) (d : Nat) : Steward := AMap.get (Steward.reset d) s.stewards d
def State.setSteward (s : State) (d : Nat) (x : Steward) : State :=
  { s with stewards := AMap.put (Steward.reset d) s.stewards d x }
def State.task? (s : State) (t : Nat) : Option Task := AMap.find s.tasks t
def State.setTask (s : State) (t : Nat) (x : Task) : State := { s with tasks := AMap.set s.tasks t x }
def State.dropTask (s : State) (t : Nat) : State := { s with tasks := AMap.erase s.tasks t }
def State.grid? (s : State) (g : Nat) : Option Grid := AMap.find s.grids g
def State.setGrid (s : State) (g : Nat) (x : Grid) : State := { s with grids := AMap.set s.grids g x }
def State.unit (s : State) (kind i : Nat) : Unit := AMap.get Unit.reset s.units (kind * 256 + i)
def State.setUnit (s : State) (kind i : Nat) (x : Unit) : State :=
  { s with units := AMap.put Unit.reset s.units (kind * 256 + i) x }

/-- Changes a task, if it exists. -/
def State.modTask (s : State) (t : Nat) (f : Task → Task) : State :=
  match s.task? t with
  | some k => s.setTask t (f k)
  | none => s

/-- Changes a grid, if it exists. -/
def State.modGrid (s : State) (g : Nat) (f : Grid → Grid) : State :=
  match s.grid? g with
  | some k => s.setGrid g (f k)
  | none => s

def State.modCore (s : State) (c : Nat) (f : Core → Core) : State := s.setCore c (f (s.core c))
def State.modCtx (s : State) (c : Nat) (f : Ctx → Ctx) : State := s.setCtx c (f (s.ctx c))
def State.modCluster (s : State) (k : Nat) (f : Cluster → Cluster) : State := s.setCluster k (f (s.cluster k))
def State.modSteward (s : State) (d : Nat) (f : Steward → Steward) : State := s.setSteward d (f (s.steward d))

/-! ## Parties -/

/-- The code stream of a party. -/
def State.team? (s : State) : Party → Option Team
  | .team t o => (s.task? t).bind (fun k => AMap.find k.teams o)
  | .lead t o => (s.task? t).bind (fun k => AMap.find k.leads o)
  | .prologue c => (s.ctx c).prologue.map (·.team)
  | .steward d => some (s.steward d).team

/-- Stores a party's code stream. -/
def State.setTeam (s : State) (p : Party) (x : Team) : State :=
  match p with
  | .team t o => s.modTask t (fun k => { k with teams := AMap.set k.teams o x })
  | .lead t o => s.modTask t (fun k => { k with leads := AMap.set k.leads o x })
  | .prologue c => s.modCtx c (fun k => { k with prologue := k.prologue.map (fun q => { q with team := x }) })
  | .steward d => s.modSteward d (fun k => { k with team := x })

/-- The task a party belongs to, if it belongs to one. -/
def partyTask : Party → Option Nat
  | .team t _ | .lead t _ => some t
  | _ => none

/-- The ordinal of a team or of the team that owns a lead slice (R194). -/
def partyOrd : Party → Nat
  | .team _ o | .lead _ o => o
  | _ => 0

/-- The task of a party. -/
def State.taskOf (s : State) (p : Party) : Option Task := (partyTask p).bind s.task?

/-- The context a party runs in. -/
def State.ctxOf (s : State) : Party → Nat
  | .team t _ | .lead t _ => match s.task? t with
    | some k => k.ctx
    | none => 0
  | .prologue c => c
  | .steward d => Config.stewardContext d % 64

/-- The logical core a party runs on; 0 for parties outside the cores. -/
def State.coreOf (s : State) (p : Party) : Nat :=
  match s.taskOf p with
  | some k => k.core
  | none => 0

/-- Cluster and C-die of a logical core (file 00, names). -/
def clusterOf (core : Nat) : Nat := core / 8
def dieOf (core : Nat) : Nat := core / 32

/-- The team field of records (R183): core [15:9], partition [8:4], slot [3:1]. -/
def teamField (core part slot : Nat) : Nat := core * 512 + part * 16 + slot * 2

/-- The team field of a party; a prologue's is 0 (R183). -/
def State.fieldOf (s : State) (p : Party) : Nat :=
  match s.taskOf p, s.team? (.team ((partyTask p).getD 0) (partyOrd p)) with
  | some k, some t => teamField k.core t.partition t.slot
  | _, _ => 0

/-- No context, or one context, has a resident or swapped-out cohort (R257). -/
def State.ctxIdle (s : State) (c : Nat) : Bool := s.tasks.all (fun e => e.2.ctx ≠ c || e.2.finished)
def State.idle (s : State) : Bool := s.tasks.all (fun e => e.2.finished)

/-! ## Control registers (R431), by aperture offset -/

/-- Physical base of the control aperture and its size (R431). -/
def apertureBase : Nat := 0xFF00000000
def apertureSize : Nat := 0x1000000

/-- Bytes of device memory: 576 GiB (R4, R279). -/
def memorySize : Nat := 576 * 2 ^ 30

def rVPBASE : Nat := 0x08
def rVPSIZE : Nat := 0x10
def rPLBASE : Nat := 0x18
def rPLSIZE : Nat := 0x20
def rLRBASE : Nat := 0x28
def rLRSIZE : Nat := 0x30
def rBFLIP : Nat := 0x48
def rSNAPREQ : Nat := 0x50
def rRPCTL : Nat := 0x58
def rRPBRK : Nat := 0x60
def rREPLREQ : Nat := 0x78
def rMDEVNO : Nat := 0x88
def rPWRLIM : Nat := 0x90
def rDIMSIC : Nat := 0xA0
def rMBXBIND (b : Nat) : Nat := 0x1000 + 4 * b
def rRPLPRI (n : Nat) : Nat := 0x2000 + 16 * n
def rRPLSEC (n : Nat) : Nat := 0x2008 + 16 * n
def rCLSTOP (k : Nat) : Nat := 0x10000 + 0x1000 * k
def rWPCTL (k n : Nat) : Nat := 0x10000 + 0x1000 * k + 0x10 + 0x10 * n
def rWPADDR (k n : Nat) : Nat := 0x10000 + 0x1000 * k + 0x18 + 0x10 * n

/-- Offset of a register of context `c`'s page. -/
def ctxPage (c off : Nat) : Nat := 0x100000 + 0x10000 * c + off

def oCTXCFG : Nat := 0x08
def oCSATP : Nat := 0x10
def oCHGATP : Nat := 0x18
def oCPOOLB : Nat := 0x20
def oCPOOLS : Nat := 0x28
def oCIMSIC : Nat := 0x30
def oFRBASE : Nat := 0x38
def oFRCTL : Nat := 0x40
def oFRHEAD : Nat := 0x48
def oFRTAIL : Nat := 0x50
def oSRBASE : Nat := 0x58
def oSRCTL : Nat := 0x60
def oSRHEAD : Nat := 0x68
def oSRTAIL : Nat := 0x70
def oVPLIM : Nat := 0x78
def oPLWIN : Nat := 0x80
def oSWTHR : Nat := 0x88
def oDBGCTL : Nat := 0x90
def oPREEMPT : Nat := 0xA0
def oPDEAD : Nat := 0xA8
def oSQBASE : Nat := 0xC8
def oSQCTL : Nat := 0xD0
def oSQHEAD : Nat := 0xD8
def oSQTAIL : Nat := 0xE0
def oQBASE (q : Nat) : Nat := 0x100 + 0x20 * q
def oQCTL (q : Nat) : Nat := 0x108 + 0x20 * q
def oQHEAD (q : Nat) : Nat := 0x110 + 0x20 * q
def oMRT (m : Nat) : Nat := 0x400 + 8 * m

/-- The reset value of a register that the control aperture holds: the values that the register maps give, 0 where
they give 0. -/
def regReset (off : Nat) : Word64 :=
  if off = rVPSIZE then 16#64
  else if off = rPLSIZE then 4#64
  else if off = rLRSIZE then 33#64
  else if off = rMDEVNO then 0xFFFF#64
  else if off = rPWRLIM then 2800#64
  else if off < 0x100000 then 0#64
  else
    let o := off % 0x10000
    if o = oFRCTL || o = oSRCTL then 6#64
    else if o = oSWTHR then 20#64
    else if o = oPDEAD then 50000#64
    else if o = oSQCTL then 4#64
    else if 0x100 ≤ o && o < 0x300 && o % 0x20 = 8 then 6#64
    else 0#64

/-- The value a control register holds. -/
def State.reg (s : State) (off : Nat) : Word64 := AMap.get (regReset off) s.regs off

/-- Stores a control register. -/
def State.setReg (s : State) (off : Nat) (v : Word64) : State :=
  { s with regs := AMap.put (regReset off) s.regs off v }

/-- A register of a context's page, as a number. -/
def State.creg (s : State) (c off : Nat) : Nat := (s.reg (ctxPage c off)).toNat

def State.setCreg (s : State) (c off v : Nat) : State := s.setReg (ctxPage c off) (BitVec.ofNat 64 v)

/-- Debug enabled for a context (R403). -/
def State.debugOn (s : State) (c : Nat) : Bool := nbit (s.creg c oDBGCTL) 0

/-! ## Interrupts (R436) -/

/-- Lists an MSI for a context at an offset. -/
def State.raise (s : State) (c off : Nat) : State :=
  { s with msis := s.msis ++
      [{ file := s.creg c oCIMSIC / 2 ^ 12 * 2 ^ 12, eiid := s.creg c oCIMSIC % 2 ^ 11 + off, ctx := some c }] }

/-- Lists an MSI of the device at an offset. -/
def State.raiseDevice (s : State) (off : Nat) : State :=
  let d := (s.reg rDIMSIC).toNat
  { s with msis := s.msis ++ [{ file := d / 2 ^ 12 * 2 ^ 12, eiid := d % 2 ^ 11 + off, ctx := none }] }

/-- Sets the error bit of the device page's, or a context page's, status word (R257, R432). -/
def State.setDevErr (s : State) : State := { s with devErr := true }
def State.setCtxErr (s : State) (c : Nat) : State := s.modCtx c (fun k => { k with err := true })

/-- All teams of all live tasks, with their parties. -/
def State.allTeams (s : State) : List (Nat × Nat × Task × Team) :=
  s.tasks.flatMap (fun e => e.2.teams.map (fun f => (e.1, f.1, e.2, f.2)))

/-- Every code stream and its team record. -/
def State.streams (s : State) : List (Party × Team) :=
  s.tasks.flatMap (fun e => e.2.teams.map (fun f => (Party.team e.1 f.1, f.2)) ++ e.2.leads.map (fun f => (Party.lead e.1 f.1, f.2))) ++
    s.ctxs.flatMap (fun e => (e.2.prologue.map (fun q => (Party.prologue e.1, q.team))).toList) ++
    s.stewards.map (fun e => (Party.steward e.1, e.2.team))

/-- The leader lease of 10 ms has run out, or no steward holds it (R442). -/
def State.leaseOut (s : State) : Bool := s.leader.die.isNone || s.leader.renewed + 1000000 ≤ s.time

/-- The steward that holds the leader lease (R442). -/
def State.leading (s : State) : Option Nat := if s.leaseOut then none else s.leader.die

/-- The power limit in force (R177, R369): the spwl of the steward that holds the leader lease, else PWRLIM (log 30). -/
def State.spwl (s : State) : Nat :=
  match s.leading with
  | some d => (s.steward d).spwl.toNat
  | none => (s.reg rPWRLIM).toNat

/-- Since when the power has stood above PWRLIM, 5 % below it, and above spwl (R369, R450). -/
def State.judgePower (s : State) : State :=
  let p := s.power
  let lim := (s.reg rPWRLIM).toNat
  { s with power := { p with
    above := if lim < p.now then some (p.above.getD s.time) else none
    below := if p.now * 100 ≤ lim * 95 then some (p.below.getD s.time) else none
    overSpwl := if s.spwl < p.now then some (p.overSpwl.getD s.time) else none } }

/-- The teams resident on a partition, with their slots. -/
def State.residents (s : State) (core part : Nat) : List (Nat × Nat × Task × Team) :=
  s.allTeams.filter (fun x => x.2.2.1.core = core && x.2.2.1.resident && !x.2.2.2.released && x.2.2.2.partition = part)

end Sys2Proof.Machine
end

