-- ==== Sys2Proof/Machine/Memory.lean ====
section
/-!
DEFINITION. Bytes of memory in their canonical form, what a task sees of memory through its version (R225, R256),
the atomic functions of R133, and what a commit does to memory (R259).
-/

namespace Sys2Proof.Machine

/-- What an unlisted address reads as (log 1). -/
def emptyByte : Byte := 0#8

/-- A memory: committed bytes by physical address. -/
abbrev Memory := AMap Byte

/-- The canonical form: addresses strictly rising, no entry equal to what an unlisted address reads as. -/
def Memory.wf (m : AMap Byte) : Bool := AMap.canonical emptyByte m

/-- One byte. -/
def readByte (m : AMap Byte) (a : Nat) : Byte := AMap.get emptyByte m a

/-- Writes one byte. -/
def writeByte (m : AMap Byte) (a : Nat) (b : Byte) : AMap Byte := AMap.put emptyByte m a b

/-- `n` bytes from an address. -/
def readBytes (m : AMap Byte) : Nat → Nat → List Byte
  | _, 0 => []
  | a, n + 1 => readByte m a :: readBytes m (a + 1) n

/-- Writes bytes from an address, ascending. -/
def writeBytes (m : AMap Byte) : Nat → List Byte → AMap Byte
  | _, [] => m
  | a, b :: bs => writeBytes (writeByte m a b) (a + 1) bs

/-- A little-endian number of `n` bytes (R6). -/
def readNat (m : AMap Byte) (a n : Nat) : Nat := ofBytes (readBytes m a n)

/-- Stores a little-endian number of `n` bytes. -/
def writeNat (m : AMap Byte) (a n v : Nat) : AMap Byte := writeBytes m a (toBytes n v)

/-! ## Page tables (R270, R271) -/

/-- A leaf found by a walk: virtual base, size, physical base, and the PTE's low ten bits with PBMT above. -/
structure Leaf where
  va : Nat
  size : Nat
  pa : Nat
  flags : Nat
  /-- Address of the PTE. -/
  pte : Nat
  /-- Base and size of the VS-stage leaf, and of the G-stage leaf in guest-physical addresses. -/
  vs : Nat × Nat
  gs : Nat × Nat
  deriving DecidableEq, Repr

/-- Reads a PTE at a physical address the part has. -/
def readPte (m : AMap Byte) (a : Nat) : Option Nat := if a + 8 ≤ memorySize then some (readNat m a 8) else none

/-- The size of a leaf at a level; none when it is reserved, misaligned or larger than the largest page, 16 GiB (R4, R270,
R271; PTE layout, log 8). -/
def leafSize (pte level : Nat) : Option Nat :=
  let ppn := nbits pte 10 44
  if nbit pte 63 then
    (if level = 0 && ppn % 16 = 8 then some (2 ^ 16)
     else if level = 2 && ppn % 2 ^ 18 = 0 && nbits ppn 18 4 = 8 then some (2 ^ 34) else none)
  else if level ≤ 2 && ppn % 2 ^ (9 * level) = 0 then some (2 ^ (12 + 9 * level)) else none

/-- Walks from a table at `base` down `level + 1` levels; `xlat` translates the address of each PTE (R270). Where the PTEs of a 16 GiB
range differ, R271 lets a translation use any of them: DESIGN CHOICE, a walk uses the one at the address's own index (log 8). -/
def walkFrom (m : AMap Byte) (xlat : Nat → Option Nat) (va top : Nat) : Nat → Nat → Option Leaf
  | level, base =>
    let index := va / 2 ^ (12 + 9 * level) % (if level = 4 then 2 ^ top else 2 ^ 9)
    match xlat (base + 8 * index) with
    | none => none
    | some a =>
      match readPte m a with
      | none => none
      | some pte =>
        if !nbit pte 0 || (!nbit pte 1 && nbit pte 2) || nbits pte 54 7 ≠ 0 || nbits pte 61 2 = 3 then none
        else if nbit pte 1 || nbit pte 3 then
          match leafSize pte level with
          | none => none
          | some size =>
            let pa := nbits pte 10 44 * 4096 / size * size
            some { va := va / size * size, size := size, pa := pa, flags := pte % 1024 + nbits pte 61 2 * 1024, pte := a
                   vs := (va / size * size, size), gs := (pa, size) }
        else if nbits pte 4 4 &&& 13 ≠ 0 || nbits pte 61 3 ≠ 0 then none
        else match level with
          | 0 => none
          | l + 1 => walkFrom m xlat va top l (nbits pte 10 44 * 4096)

/-- Root of a `satp` or `hgatp` value: its PPN (log 9). -/
def rootOf (v : Nat) : Nat := nbits v 0 44 * 4096

/-- G-stage walk of a guest-physical address under Sv57x4 (R270). -/
def walkG (m : AMap Byte) (hgatp gpa : Nat) : Option Leaf :=
  if gpa / 2 ^ 59 ≠ 0 then none else walkFrom m some gpa 11 4 (rootOf hgatp)

/-- G-stage address of a guest-physical address, for a PTE read: the page must grant a read to U. -/
def gAddr (m : AMap Byte) (hgatp gpa : Nat) : Option Nat :=
  match walkG m hgatp gpa with
  | some l => if nbit l.flags 1 && nbit l.flags 4 then some (l.pa + gpa % l.size) else none
  | none => none

/-- Bits 63 to 57 equal bit 56 (Sv57). -/
def canonicalVa (va : Nat) : Bool := va / 2 ^ 56 = 0 || va / 2 ^ 56 = 255

/-- A leaf of two stages: the smaller size and the rights of both (R270). -/
def Leaf.over (l g : Leaf) (va gpa : Nat) : Leaf :=
  let size := min l.size g.size
  let rwx := if nbit g.flags 4 then (l.flags &&& g.flags) &&& 0x0E else 0
  { va := va / size * size, size := size, pa := (g.pa + gpa % g.size) / size * size
    flags := l.flags / 16 * 16 + rwx + 1 + (if l.flags / 1024 = 0 then g.flags / 1024 * 1024 else 0)
    pte := l.pte, vs := l.vs, gs := g.vs }

/-- The leaf that a context's tables hold for an address: of one stage, or for a guest's context of two (R270). -/
def State.leafOf (s : State) (c va : Nat) : Option Leaf :=
  if !canonicalVa va then none
  else if nbit (s.creg c oCTXCFG) 3 then
    let h := s.creg c oCHGATP
    (walkFrom s.mem (gAddr s.mem h) va 9 4 (rootOf (s.creg c oCSATP))).bind (fun l =>
      (walkG s.mem h (l.pa + va % l.size)).map (fun g => l.over g va (l.pa + va % l.size)))
  else walkFrom s.mem some va 9 4 (rootOf (s.creg c oCSATP))

/-- Words of a kernel's `.text`. -/
def textWords (c : Nat) (code : Word64) : Nat := Config.textWords c code.toNat % 2 ^ 20

/-- Virtual pages of a kernel's `.text`. -/
def textVas (c : Nat) (code : Word64) : List Nat :=
  if textWords c code = 0 then []
  else
    let first := code.toNat / 4096
    (span first ((code.toNat + 4 * textWords c code - 1) / 4096 - first + 1)).map (fun p => p * 4096)

/-- Physical pages of a kernel's `.text`, those that its context's tables map now, and the spans of the leaves that map them (R323). -/
def State.textPages (s : State) (c : Nat) (code : Word64) : List Nat :=
  (textVas c code).filterMap (fun va => (s.leafOf c va).map (fun l => (l.pa + va % l.size) / 4096))
def State.textSpans (s : State) (c : Nat) (code : Word64) : List ((Nat × Nat) × (Nat × Nat)) :=
  (textVas c code).filterMap (fun va => (s.leafOf c va).map (fun l => (l.vs, l.gs)))

/-! ## Atomic functions -/

/-- The f32 sum of `fadd` (R133): RNE, no flushing, absent is the identity, NaN canonical. -/
def faddWord (m x : Nat) : Nat :=
  if x = fmtF32.absent then m
  else if m = fmtF32.absent then x
  else pack fmtF32 rne (addNum false (unpack fmtF32 m) (unpack fmtF32 x))

/-- Width in bytes of an atomic operation of R45. -/
def atomBytes (op : Nat) : Nat := if op = 11 || op = 12 then 8 else 4

/-- f(m, x) of R133 for the operation codes of R45; `y` is the new value of a `cas` whose expected value is `x`. -/
def atomFun (op m x y : Nat) : Nat :=
  match op with
  | 0 | 13 => (m + x) % 2 ^ 32
  | 1 | 14 => faddWord m x
  | 2 => if toInt 32 m ≤ toInt 32 x then m else x
  | 3 => if toInt 32 m ≥ toInt 32 x then m else x
  | 4 => if m ≤ x then m else x
  | 5 => if m ≥ x then m else x
  | 6 => m &&& x
  | 7 => m ||| x
  | 8 => m ^^^ x
  | 9 => x
  | 10 => if m = x then y else m
  | 11 => (m + x) % 2 ^ 64
  | _ => x

/-- Applies a delta to a memory (R134, R243). -/
def applyDelta (m : AMap Byte) (d : Delta) : AMap Byte :=
  writeNat m d.pa d.bytes (atomFun d.op (readNat m d.pa d.bytes) d.x.toNat d.y.toNat)

/-- One write of a version as a commit applies it: an atomic's update acts again on the committed word (R243, R259). -/
def applyWrite (m : AMap Byte) : VWrite → AMap Byte
  | .bytes pa data => writeBytes m pa data
  | .delta d | .update d _ => applyDelta m d

/-- One write of a version as its own task sees it: an atomic's update holds the result it had (R225, R243, R256). -/
def seeWrite (m : AMap Byte) : VWrite → AMap Byte
  | .bytes pa data => writeBytes m pa data
  | .delta d => applyDelta m d
  | .update d result => writeBytes m d.pa result

/-- Memory with a version's writes over it, in the task's order (R225, R260). -/
def overlay (m : AMap Byte) (version : List VWrite) : AMap Byte := version.foldl seeWrite m

/-- The physical bytes a write of a version covers. -/
def VWrite.extent : VWrite → Nat × Nat
  | .bytes pa data => (pa, data.length)
  | .delta d | .update d _ => (d.pa, d.bytes)

/-- The 128-byte lines a write of a version lies in. -/
def VWrite.lines (w : VWrite) : List Nat :=
  let r := w.extent
  if r.2 = 0 then [] else span (r.1 / 128) ((r.1 + r.2 - 1) / 128 - r.1 / 128 + 1)

/-- The version lines of a task, each once (R256). -/
def versionLines (version : List VWrite) : List Nat :=
  version.foldl (fun acc w => w.lines.foldl (fun acc l => if acc.contains l then acc else l :: acc) acc) []

/-- Pool blocks that so many version lines need (R256). -/
def blocksFor (lines : Nat) : Nat := (lines + 447) / 448

/-- What a party sees of memory: a task's version over the committed bytes; others the committed bytes (R225). -/
def State.view (s : State) (task : Option Nat) : AMap Byte :=
  match task.bind s.task? with
  | some k => overlay s.mem k.version
  | none => s.mem

/-- Blocks held by every task, those of live snapshots among them (R382), and by the tasks of one context. -/
def State.blocksHeld (s : State) : Nat :=
  (s.tasks ++ s.log.snaps.flatMap (fun e => e.2.tasks)).foldl (fun n e => n + blocksFor (versionLines e.2.version).length) 0
def State.ctxBlocks (s : State) (c : Nat) : Nat :=
  (s.tasks ++ s.log.snaps.flatMap (fun e => e.2.tasks)).foldl (fun n e => if e.2.ctx = c then n + blocksFor (versionLines e.2.version).length else n) 0

/-- Whether the version pool still has room when the given task's version becomes `v` (R258): the pool has
units · 4,096 blocks of 64 KiB, and VPLIM bounds the context's share. -/
def State.poolRoom (s : State) (t : Nat) (v : List VWrite) : Bool :=
  match s.task? t with
  | none => true
  | some k =>
    let old := blocksFor (versionLines k.version).length
    let new := blocksFor (versionLines v).length
    let lim := s.creg k.ctx oVPLIM % 256
    new ≤ old ||
      (s.blocksHeld - old + new ≤ (s.reg rVPSIZE).toNat % 256 * 4096 &&
       (lim = 0 || s.ctxBlocks k.ctx - old + new ≤ lim * 4096))

/-- The replicated ranges: primary base, size, replica base (R278, R279). -/
def State.replicas (s : State) : List (Nat × Nat × Nat) :=
  s.regs.filterMap (fun e =>
    if 0x2000 ≤ e.1 && e.1 < 0x3000 && e.1 % 16 = 0 && nbit e.2.toNat 0 then
      some (e.2.toNat / 2 ^ 16 * 2 ^ 16, 2 ^ nbits e.2.toNat 2 6 * 2 ^ 16,
        (s.reg (e.1 + 8)).toNat / 2 ^ 16 * 2 ^ 16)
    else none)

/-- A physical address that lies in some replica (R278). -/
def State.inReplica (s : State) (pa : Nat) : Bool :=
  s.replicas.any (fun r => r.2.2 ≤ pa && pa < r.2.2 + r.2.1)

/-- Copies the bytes just written at [pa, pa + n) to the replica of each replicated range that holds them (R278). -/
def mirrorBytes (rs : List (Nat × Nat × Nat)) (m : AMap Byte) (pa : Nat) : Nat → AMap Byte
  | 0 => m
  | n + 1 =>
    mirrorBytes rs (rs.foldl (fun m r =>
      if r.1 ≤ pa && pa < r.1 + r.2.1 then writeByte m (r.2.2 + (pa - r.1)) (readByte m pa) else m) m) (pa + 1) n

/-- Committed memory after a write at [pa, pa + n), with both copies of replicated bytes alike. -/
def State.mirror (s : State) (pa n : Nat) : State :=
  if s.replicas.isEmpty then s else { s with mem := mirrorBytes s.replicas s.mem pa n }

/-! ## Homes and errors (R230, R279, R289) -/

/-- The L3 slice of a line by its address (R230). -/
def homeSlice (a : Nat) : Nat :=
  nbits a 7 7 ^^^ nbits a 14 7 ^^^ nbits a 21 7 ^^^ nbits a 28 7 ^^^ nbits a 35 6

/-- The H-die behind which an address of device memory lies (R279), and the H-die of a slice (R230). -/
def hdieOf (pa : Nat) : Nat := if pa < 288 * 2 ^ 30 then 0 else 1
def sliceDie (slice : Nat) : Nat := slice / 64

/-- The home slice of an address: a line of a replicated range is homed on the primary's H-die (R230, R279). -/
def State.homeOf (s : State) (pa : Nat) : Nat :=
  match s.replicas.find? (fun r => r.1 ≤ pa && pa < r.1 + r.2.1) with
  | some r => 64 * hdieOf r.1 + homeSlice pa % 64
  | none => homeSlice pa

/-- Counts an error in a unit's probe status, saturating (R178). -/
def State.countError (s : State) (kind i : Nat) (fatal : Bool) : State :=
  let u := s.unit kind i
  s.setUnit kind i (if fatal then { u with uncorrected := min 255 (u.uncorrected + 1) }
    else { u with corrected := min 255 (u.corrected + 1) })

/-- Counts an error in the status of the unit that holds its site: the slice or stack of memory, the logical core and the
physical core behind it of the other storages (R178, R289; log 51). -/
def State.countFlaw (s : State) (f : Flaw) : State :=
  let core (c : Nat) : State := (s.countError 0 c f.fatal).countError 1 (s.core c).phys f.fatal
  match f.site with
  | .mem pa none => s.countError 2 (s.homeOf pa) f.fatal
  | .mem _ (some k) => s.countError 3 (k % 12) f.fatal
  | .ob c _ | .tile c _ => core c
  | .spd t _ => (match s.task? t with
    | some k => core k.core
    | none => s)

/-- Storage is read at the sites that `hit` holds of: correctable errors are corrected, uncorrectable ones stay, and each is
counted (R289). The site of an uncorrectable one, if there is any. -/
def State.meetFlaws (s : State) (hit : Site → Bool) : State × Option Site :=
  let met := s.flaws.filter (fun f => hit f.site)
  if met.isEmpty then (s, none)
  else
    ({ met.foldl State.countFlaw s with flaws := s.flaws.filter (fun f => f.fatal || !hit f.site) },
      (met.find? (·.fatal)).map (·.site))

/-- Storage is written at the sites that `hit` holds of: no error stands there any more (log 51). -/
def State.cleanse (s : State) (hit : Site → Bool) : State :=
  { s with flaws := s.flaws.filter (fun f => !hit f.site) }

/-- The site is a byte of memory in [pa, pa + n). -/
def Site.inMem (pa n : Nat) : Site → Bool
  | .mem a _ => pa ≤ a && a < pa + n
  | _ => false

/-- The site is a byte of a task's scratchpad in [off, off + n). -/
def Site.inScratch (t off n : Nat) : Site → Bool
  | .spd u o => t = u && off ≤ o && o < off + n
  | _ => false

/-- Bytes that a task's version holds: reading them reads no committed byte. -/
def covered (version : List VWrite) (pa : Nat) : Bool :=
  version.any (fun w => match w with
    | .bytes a data => a ≤ pa && pa < a + data.length
    | .update d _ => d.pa ≤ pa && pa < d.pa + d.bytes
    | .delta _ => false)

/-- The site is a byte of a core's operand buffer in one of the ranges, first and last byte. -/
def Site.inOb (core : Nat) (ranges : List (Nat × Nat)) : Site → Bool
  | .ob c o => c = core && ranges.any (fun r => r.1 ≤ o && o ≤ r.2)
  | _ => false

/-- The site is an entry of a core's tiles, in the given tiles, rows and columns (R64). -/
def Site.inTile (core : Nat) (tiles rows cols : List Nat) : Site → Bool
  | .tile c key => c = core && tiles.contains (key / 16384) && rows.contains (key / 128 % 128) && cols.contains (key % 128)
  | _ => false

/-- The sites that a party of a task reads at a place (R225). -/
def State.readsSite (s : State) (task : Option Nat) (l : Loc) (n : Nat) (x : Site) : Bool :=
  match l, x with
  | .glob pa, .mem a _ => Site.inMem pa n x && (match task.bind s.task? with
    | some k => !covered k.version a
    | none => true)
  | .spd t off, _ => Site.inScratch t off n x
  | _, _ => false

/-! ## Writes of committed memory -/

/-- The lines of [pa, pa + n) that application cores hold newer are written back to their home (R276). -/
def State.recall (s : State) (pa n : Nat) : State :=
  { s with dirty := s.dirty.filter (fun d => !(d.addr < pa + n && pa < d.addr + 128)) }

/-- What every write of [pa, pa + n) does at its home: the application cores' lines are recalled (R276), no error stands in the
bytes any more, and both copies of a replicated range hold them (R278). -/
def State.atHome (s : State) (pa n : Nat) : State := ((s.recall pa n).cleanse (Site.inMem pa n)).mirror pa n

/-- Writes bytes of committed memory. -/
def State.poke (s : State) (pa : Nat) (data : List Byte) : State :=
  State.atHome { s with mem := writeBytes s.mem pa data } pa data.length

/-- Applies one write of a version to committed memory. -/
def State.applyNow (s : State) (w : VWrite) : State :=
  State.atHome { s with mem := applyWrite s.mem w } w.extent.1 w.extent.2

/-- A kernel's text lies partly in [pa, pa + n): in a page that mapped it as it was last launched, or that maps it now. -/
def State.textAt (s : State) (k : Kernel) (pa n : Nat) : Bool :=
  n ≠ 0 && (k.pages ++ s.textPages k.ctx k.code).any (fun p => p * 4096 < pa + n && pa < p * 4096 + 4096)

/-- Raises the code generation of every kernel whose text was written at one of the places (R323). -/
def State.textWritten (s : State) (ps : List (Nat × Nat)) : State :=
  { s with kernels := s.kernels.map (fun k => if ps.any (fun e => s.textAt k e.1 e.2) then { k with gen := k.gen + 1 } else k) }

/-- Grids of a kernel are running (R323). -/
def State.kernelRuns (s : State) (k : Kernel) : Bool :=
  s.grids.any (fun e => e.2.ctx = k.ctx && e.2.record.code = k.code && !e.2.complete && (e.2.started || e.2.run ≠ 0))

/-- A write to [pa, pa + n) waits for the running grids of a kernel whose text it reaches (R323). -/
def State.textHeld (s : State) (pa n : Nat) : Bool := s.kernels.any (fun k => s.textAt k pa n && s.kernelRuns k)

/-- Publishes a version: each write in order, over the committed memory (R259). -/
def State.publish (s : State) (version : List VWrite) : State :=
  (version.foldl State.applyNow s).textWritten (version.map VWrite.extent)

/-- Accesses to [pa, pa + n) wait: the bias of their block is being flipped (R277), or their range is being marked as replicated
(R279). -/
def State.regionBusy (s : State) (pa n : Nat) : Bool :=
  (let b := (s.reg rBFLIP).toNat
   nbit b 0 && decide (b / 2 ^ 16 * 2 ^ 16 < pa + n && pa < b / 2 ^ 16 * 2 ^ 16 + 2 ^ 16)) ||
  s.regs.any (fun e => 0x2000 ≤ e.1 && e.1 < 0x3000 && e.1 % 16 = 0 && nbit e.2.toNat 1 && !nbit e.2.toNat 0 &&
    (let base := e.2.toNat / 2 ^ 16 * 2 ^ 16
     base < pa + n && pa < base + 2 ^ nbits e.2.toNat 2 6 * 2 ^ 16))

/-! ## Sectors held against commits and stores -/

/-- A place lies in a region that changes (R277, R279). -/
def Loc.busy (l : Loc) (s : State) (n : Nat) : Bool :=
  match l with
  | .glob pa => s.regionBusy pa n
  | .spd _ _ => false

/-- A lane that has tracked nothing yet. -/
def LaneTx.empty : LaneTx := { rd := [], rdSec := [], wr := [], wrSec := [], doom := none, fault := none, formed := [] }

/-- What a lane of the open transaction has tracked. -/
def Tx.lane (x : Tx) (l : Nat) : LaneTx := AMap.get LaneTx.empty x.tx l

/-- Sectors of device memory that the holder of the device's ticket has touched (R138, R266). -/
def State.pinned (s : State) : Option (Party × List Nat) :=
  match s.ticket with
  | none => none
  | some p =>
    match (s.team? p).bind (·.tx) with
    | none => none
    | some x => match x.ticket with
      | none => none
      | some l => some (p, (x.lane l).rdSec ++ (x.lane l).wrSec)

/-- The same for the ticket of a cohort, over its scratchpad. -/
def State.pinnedScratch (s : State) (tid : Nat) : List Nat :=
  match s.task? tid with
  | none => []
  | some k => match k.ticket.bind (AMap.find k.teams) with
    | none => []
    | some t => match t.tx with
      | none => []
      | some x => match x.ticket with
        | none => []
        | some l => (x.lane l).rdSec ++ (x.lane l).wrSec

/-- Sectors that a byte range lies in. -/
def sectorsOf (lo n : Nat) : List Nat := if n = 0 then [] else span (lo / 32) ((lo + n - 1) / 32 - lo / 32 + 1)

/-- A sector of device memory is pinned, or locked by a validation (R138, R264). -/
def State.sectorHeld (s : State) (sec : Nat) : Bool :=
  s.locked.any (fun e => e.1 = sec) ||
  (match s.pinned with
   | some (_, secs) => secs.contains sec
   | none => false)

/-- Bytes of memory that the front end, a peer or an application core accesses wait: their region changes, or a write meets a held
sector (R266) or the text of a kernel with running grids (R323). -/
def State.bytesHeld (s : State) (write : Bool) (ps : List Nat) : Bool :=
  ps.any (fun pa => s.regionBusy pa 1 || (write && (s.sectorHeld (pa / 32) || s.textHeld pa 1)))

end Sys2Proof.Machine
end

