-- ==== Sys2Proof/Machine/Record.lean ====
section
/-!
DEFINITION. The Surveyors' log: stamps (R376), records and blocks (R377, R378), the ring and its anchors (R379 to
R381), the ends of chunks (R375), and the order a replay holds them to (R385, R386).
-/

namespace Sys2Proof.Machine

/-- Draws the next stamp (R376). -/
def State.drawStamp (s : State) : State × Nat := ({ s with stamp := s.stamp + 1 }, s.stamp + 1)

/-- A varint: 7 bits a byte, low bits first, bit 7 set in every byte but the last (R378). -/
def varint : Nat → Nat → List Byte
  | 0, _ => []
  | n + 1, v => if v < 128 then [BitVec.ofNat 8 v] else BitVec.ofNat 8 (v % 128 + 128) :: varint n (v / 128)

/-- Zigzag coding (R378). -/
def zigzag (d : Int) : Nat := if 0 ≤ d then (2 * d).toNat else (-2 * d - 1).toNat

/-- Slots of the log ring, and its base (R379). -/
def State.logSlots (s : State) : Nat := 2 ^ (nbits (s.reg rLRSIZE).toNat 0 6) / 4096
def State.logBase (s : State) : Nat := (s.reg rLRBASE).toNat

/-- An anchor's entry in the ring header (R380). -/
def anchorBytes (a : Anchor) : List Byte :=
  toBytes 4 a.number ++ toBytes 1 a.kind ++ toBytes 1 a.ctx ++ toBytes 2 0 ++ toBytes 8 a.first ++
    toBytes 8 a.stamp ++ toBytes 8 a.extra.toNat

/-- Writes the ring header (R380). -/
def State.writeLogHeader (s : State) : State :=
  let body := toBytes 8 s.log.head ++ toBytes 8 s.log.tail ++ toBytes 4 s.log.anchors.length ++ toBytes 12 0 ++
    s.log.anchors.flatMap anchorBytes
  s.poke s.logBase (body ++ List.replicate (4096 - body.length) 0#8)

/-- A block's 4 KiB as it is written: header, records, kind-15 padding (R377, R378). -/
def blockBytes (b : Block) : List Byte :=
  let head := toBytes 8 b.base ++ toBytes 1 b.surveyor ++ toBytes 1 b.ctx ++ toBytes 2 (16 + b.bytes.length) ++
    toBytes 4 b.number
  head ++ b.bytes ++ List.replicate (4096 - (16 + b.bytes.length)) 0xF0#8

/-- Anchors that stay when the oldest block held is `tail` (R381). -/
def LogRing.prune (r : LogRing) (tail : Nat) : LogRing :=
  let live := r.anchors.filter (fun a => tail ≤ a.first)
  let isLive (n : Nat) : Bool := live.any (fun a => a.number = n)
  { r with anchors := live, snaps := r.snaps.filter (fun e => isLive e.1), sides := r.sides.filter (fun e => isLive e.1) }

/-- The ring is full, and its oldest block is one of an anchor that a replay goes by (R421). -/
def State.ringHeld (s : State) : Bool :=
  (s.replay.state = 1 || s.replay.state = 2) && decide (s.logSlots - 1 ≤ s.log.head - s.log.tail) &&
  s.log.anchors.any (fun a => a.number = s.replay.anchor && a.first ≤ s.log.tail)

/-- Writes a block at head, overwriting the oldest one when every block slot is in use, and retires the anchors
whose first block is gone (R379, R381). -/
def State.putBlock (s : State) (b : Block) : State :=
  let slots := s.logSlots - 1
  let at_ := s.logBase + 4096 * (1 + s.log.head % slots)
  let head := s.log.head + 1
  let tail := if head - s.log.tail > slots then s.log.tail + 1 else s.log.tail
  let s := s.poke at_ (blockBytes b)
  State.writeLogHeader { s with log := LogRing.prune { s.log with head := head, tail := tail } tail }

/-- Sets the open block of a Surveyor and context, in the order of the Surveyors and contexts; none with no block. -/
def State.setBlock (s : State) (surveyor ctx : Nat) (b : Option Block) : State :=
  let key (x : Block) : Nat := x.surveyor * 64 + x.ctx
  let at_ := surveyor * 64 + ctx
  { s with log := { s.log with
    blocks := s.log.blocks.filter (fun x => key x < at_) ++ b.toList ++ s.log.blocks.filter (fun x => at_ < key x) } }

/-- Closes an open block and writes it. -/
def State.closeBlock (s : State) (b : Block) : State := (s.setBlock b.surveyor b.ctx none).putBlock { b with due := false }

/-- Writes the blocks that a replay has held: those that were full, and those that it held open (R421). -/
def State.writeHeld (s : State) : State :=
  let s := s.log.held.foldl State.putBlock { s with log := { s.log with held := [] } }
  (s.log.blocks.filter (·.due)).foldl State.closeBlock s

/-- Writes an open block, which a replay holds open while it needs the block that would be overwritten (R421). DESIGN CHOICE: one that
is full waits as it is, and its Surveyor goes on in a new one (log 27). -/
def State.writeBlock (s : State) (b : Block) (full : Bool) : State :=
  if !s.ringHeld then s.closeBlock b
  else if full then
    let s := s.setBlock b.surveyor b.ctx none
    { s with log := { s.log with held := s.log.held ++ [b] } }
  else s.setBlock b.surveyor b.ctx (some { b with due := true })

/-- Writes the open block of a Surveyor and context, if there is one (R377). -/
def State.flushBlock (s : State) (surveyor ctx : Nat) : State :=
  match s.log.blocks.find? (fun b => b.surveyor = surveyor && b.ctx = ctx) with
  | some b => s.writeBlock b false
  | none => s

/-- Writes every open block of a context, of one Surveyor or of all. -/
def State.flushCtx (s : State) (ctx : Nat) : State :=
  (span 0 18).foldl (fun s v => s.flushBlock v ctx) s

/-- A record's bytes in a block and the block's dictionary after it (R378). `delta` is absent for team 0xFFFF. -/
def recordBytes (b : Block) (kind team stamp : Nat) (delta : Option Nat) (payload : List Byte) : List Byte × List Nat :=
  let i := b.dict.idxOf team
  let known := team ≠ 0xFFFF && i < b.dict.length
  let head := BitVec.ofNat 8 (kind * 16 + (if known then i else 15)) ::
    (if known then [] else toBytes 2 team)
  let dict := if known || team = 0xFFFF || b.dict.length ≥ 15 then b.dict else b.dict ++ [team]
  (head ++ varint 10 (zigzag ((stamp : Int) - b.last)) ++
    (match delta with | some d => varint 10 d | none => []) ++ payload, dict)

/-- Appends a record to the open block of a Surveyor and context, writing out a block that it does not fit. -/
def State.logRecord (s : State) (surveyor ctx kind team stamp : Nat) (delta : Option Nat) (payload : List Byte) :
    State :=
  let key := surveyor * 64 + ctx
  let fresh (s : State) : Block :=
    { surveyor := surveyor, ctx := ctx, base := stamp, last := stamp, bytes := [], dict := []
      number := AMap.get 0 s.log.numbers key }
  let add (s : State) (b : Block) (new : Bool) : State :=
    let r := recordBytes b kind team stamp delta payload
    let b' := { b with bytes := b.bytes ++ r.1, dict := r.2, last := stamp }
    let s := s.setBlock surveyor ctx (some b')
    { s with log := { s.log with
        numbers := if new then AMap.put 0 s.log.numbers key (b.number + 1) else s.log.numbers } }
  match s.log.blocks.find? (fun b => b.surveyor = surveyor && b.ctx = ctx) with
  | none => add s (fresh s) true
  | some b =>
    if 16 + b.bytes.length + (recordBytes b kind team stamp delta payload).1.length ≤ 4096 then add s b false
    else
      let s := s.writeBlock b true
      add s (fresh s) true

/-- A replay of the context is running, or stopped at a breakpoint (R384). -/
def State.replaying (s : State) (c : Nat) : Bool :=
  (s.replay.state = 1 || s.replay.state = 2) && s.replay.ctx = c

/-- A replay of the context has stopped for good (R386). -/
def State.replayDead (s : State) (c : Nat) : Bool := s.replay.state = 3 && s.replay.ctx = c

/-- Recording is on for a context, and no replay of it runs. -/
def State.recording (s : State) (c : Nat) : Bool := (s.ctx c).level.recording && !s.replaying c

/-- A context is recorded or replayed. -/
def State.traced (s : State) (c : Nat) : Bool := (s.ctx c).level.recording || s.replaying c

/-- The value of a MARK record. -/
def markValue : Nat → List Byte → Nat
  | 0, _ | _, [] => 0
  | n + 1, b :: bs => b.toNat % 128 + (if b.toNat < 128 then 0 else 128 * markValue n bs)

/-- The record that the breakpoint names, of those still to come: the one of its stamp, or the first MARK of its value (R387). -/
def State.breakRecord (s : State) : Option LogRec :=
  let kind := nbits (s.reg rRPCTL).toNat 2 2
  let v := (s.reg rRPBRK).toNat
  s.replay.script.find? (fun r => (s.replay.passed.getD 0 < r.stamp || s.replay.passed.isNone) &&
    ((kind = 1 && r.stamp = v) || (kind = 2 && r.kind = 7 && markValue 3 r.payload = v % 2 ^ 14)))

/-- A record's effects may be performed: those of every lower stamp are, and no breakpoint stops it (R385, R387). -/
def State.inTurn (s : State) (r : LogRec) : Bool :=
  s.replay.state = 1 && !s.replay.script.any (fun x => x.stamp < r.stamp) &&
  (match s.breakRecord with
   | some b => decide (r.stamp < b.stamp)
   | none => true)

/-- The Surveyor that records a party: its cluster's, or its front end's (R375, R377). -/
def State.surveyorOf (s : State) (p : Party) : Nat :=
  match p with
  | .team _ _ | .lead _ _ => clusterOf (s.coreOf p)
  | _ => 16 + Config.frontEnd (s.ctxOf p) % 2

/-- The team field of a party's log records: a prologue's belong to no team (R378). -/
def State.logField (s : State) (p : Party) : Nat :=
  match p with
  | .team _ _ | .lead _ _ => s.fieldOf p
  | _ => 0xFFFF

/-- The records still to come that bear a party's field, up to the placement of another team in its slot (R378). -/
def State.scriptFor (s : State) (p : Party) : List LogRec :=
  (s.replay.script.filter (fun r => r.team = s.logField p)).takeWhile (fun r => r.kind ≠ 6)

/-- The first of a party's records that ends a chunk, its delta counted from the party's last record, over the marks between. -/
def endAfter : Nat → List LogRec → Option LogRec
  | _, [] => none
  | n, r :: rs =>
    if r.kind = 7 then endAfter (n + r.delta) rs
    else if r.kind = 3 then endAfter n rs
    else some { r with delta := n + r.delta }

/-- The next record that the replayed log holds for a party, beside marks, placements and arrivals (R385), with its delta from the
party's last record (R378); steward code is not recorded (R375). -/
def State.logged (s : State) (p : Party) : Option LogRec :=
  match p with
  | .steward _ => none
  | _ => if s.replaying (s.ctxOf p) then endAfter 0 (s.scriptFor p) else none

/-- The stamp of a party's next record in the replayed log, a mark or the end of a chunk. -/
def State.nextStamp (s : State) (p : Party) : Option Nat :=
  match p with
  | .steward _ => none
  | _ => if s.replaying (s.ctxOf p) then ((s.scriptFor p).find? (fun r => r.kind ≠ 3)).map (·.stamp) else none

/-- A record of the log has been met; after the last the replay is done (R384). -/
def State.metRecord (s : State) (r : LogRec) : State :=
  let rest := s.replay.script.filter (fun x => x.pos ≠ r.pos)
  let s : State := { s with replay := { s.replay with
    script := rest, position := r.pos, state := if rest.isEmpty then 4 else s.replay.state } }
  if rest.isEmpty then s.writeHeld else s

/-- What an ending event meets: it goes on, it waits for its turn in a replay, or it stops the replay. -/
inductive RecRes where
  | go (s : State) (t : Team)
  | hold
  | diverge (s : State)

/-- The replay stops at a record (R386). -/
def State.diverged (s : State) (pos : Nat) : State :=
  State.writeHeld { s with replay := { s.replay with state := 3, position := pos } }

/-- A team's first access that is still to be performed. -/
def Team.firstAccess (t : Team) : Option Pend :=
  t.pend.find? (fun x => !x.done && (match x.kind with
    | .mem m => if m.kind = .atomic then m.reqs.any (fun r => !r.done) else !m.accs.isEmpty
    | .matrix (.mld _) _ _ _ _ | .matrix (.mdrain _ (.mem _ _)) _ _ _ _ => true
    | _ => false))

/-- A record after an access that is still to be performed: a record follows every effect of its chunk, and a team's records
follow its program (R376, R378; log 31). -/
def Team.early (t : Team) (kind : Nat) (payload : List Byte) (point : Nat) : Bool :=
  match t.firstAccess.map (·.point) with
  | some n =>
    let b := payload.headD 1#8
    if kind = 0 && (b = 2#8 || b = 3#8 || b = 5#8) then decide (n ≤ point)
    else decide (n < point) && (kind ≠ 4 || b = 0#8)
  | none => false

/-- The point of a trap: just before the instruction that trapped, which may lie before later ones (R378). -/
def Team.trapPoint (t : Team) (point : Option Nat) : Nat :=
  match point with
  | some n => max t.chunk.last (n - 1)
  | none => t.retired

/-- The signature of a team's new chunk is empty (R375). -/
def State.dropSig (s : State) (p : Party) : State :=
  match p with
  | .team a b | .lead a b => { s with sigs := s.sigs.filter (fun x => !(x.task = a && x.ord = b)) }
  | _ => s

/-- Writes the record that ends a party's chunk at a point, under a commit's stamp or a new one (R375, R376). -/
def State.writeEnd (s : State) (p : Party) (t : Team) (kind : Nat) (payload : List Byte) (point : Nat)
    (stamp : Option Nat) : State × Team :=
  let field := s.logField p
  let r := match stamp with
    | some n => (s.dropSig p, n)
    | none => (s.dropSig p).drawStamp
  (r.1.logRecord (s.surveyorOf p) (s.ctxOf p) kind field r.2
    (if field = 0xFFFF then none else some (point - t.chunk.last)) payload,
   { t with chunk := { last := point, begun := point } })

/-- A record that ends no chunk (MARK, DISPATCH, ARRIVE), in a recorded context. -/
def State.note (s : State) (surveyor ctx kind team : Nat) (delta : Option Nat) (payload : List Byte) : State :=
  if s.recording ctx then
    let (s, n) := s.drawStamp
    s.logRecord surveyor ctx kind team n delta payload
  else s

/-- Writes a team's or a prologue's MARK record, which ends no chunk; the next record's delta counts from it (R175, R378). -/
def State.writeMark (s : State) (p : Party) (t : Team) (payload : List Byte) (point : Nat) : State × Team :=
  let field := s.logField p
  (s.note (s.surveyorOf p) (s.ctxOf p) 7 field (if field = 0xFFFF then none else some (point - t.chunk.last)) payload,
   { t with chunk := { t.chunk with last := point } })

/-- Writes a record that was put off. -/
def State.writeOne (s : State) (p : Party) (t : Team) (x : Nat × List Byte × Nat) : State × Team :=
  if x.1 = 7 then s.writeMark p t x.2.1 x.2.2 else s.writeEnd p t x.1 x.2.1 x.2.2 none

/-- Writes the CLOCK and MARK records of a party that lie no later than a point, oldest first. -/
def State.writeLate (s : State) (p : Party) (t : Team) (point : Nat) : State × Team :=
  let r := (t.late.filter (fun x => x.2.2 ≤ point)).foldl (fun r x => r.1.writeOne p r.2 x) (s, t)
  (r.1, { r.2 with late := t.late.filter (fun x => point < x.2.2) })

/-- Puts off a record of a party until its earlier accesses are performed (R376). -/
def Team.putOff (t : Team) (kind : Nat) (payload : List Byte) (point : Nat) : Team :=
  { t with late := t.late ++ [(kind, payload, point)] }

/-- The replayed log ends a team's chunk at its count by the registration of an overlapping range, its own or its lead slice's (R375,
R385). -/
def State.logsOverlap (s : State) (p : Party) (t : Team) : Bool :=
  match s.logged p with
  | some r => r.kind = 0 && r.payload = [6#8] && r.delta = t.retired - t.chunk.last
  | none => false

/-- The logged trap of an operation that is still outstanding: nothing later of the team comes before it (R378, R385). -/
def Team.awaits (t : Team) (r : LogRec) : Bool :=
  r.kind = 4 && t.pend.any (fun x => !x.done && x.point = t.chunk.last + r.delta + 1)

/-- An event that ends the party's chunk, with its record (R375); `point` is the team's retired-instruction count at
the record's point, and `stamp` the commit's stamp when a commit ends the chunk (R376). In a replay the event must be
the one logged and must wait until every record of lower stamp is complete (R385); one that no record is left for has no turn, and a
trap that none is left for stops the replay (R386). Under recording the read of a clock or counter does
not wait for outstanding accesses (R173): its record is written once they are performed (R376; log 31). -/
def endChunk (s : State) (p : Party) (t : Team) (kind : Nat) (payload : List Byte) (point : Nat)
    (stamp : Option Nat) : RecRes :=
  let c := s.ctxOf p
  let field := s.logField p
  let t' := { t with chunk := { last := point, begun := point } }
  if s.traced c && t.early kind payload point then
    (if kind = 5 && !s.replaying c then .go s (t.putOff 5 payload point) else .hold)
  else if s.replaying c then
    match s.logged p with
    | none => (match p with
      | .steward _ => .go s t'
      | _ => if kind = 4 then .diverge (s.diverged s.replay.position) else .hold)
    | some r =>
      let lead := kind = 4 && decide (payload.headD 0#8 ≥ 128#8)
      if r.kind ≠ kind then (if t.awaits r then .hold else .diverge (s.diverged r.pos))
      else if lead && point - t.chunk.last < r.delta then .hold
      else if field ≠ 0xFFFF && r.delta ≠ point - t.chunk.last then .diverge (s.diverged r.pos)
      else if !s.inTurn r then .hold
      else if kind ≠ 5 && r.payload ≠ payload then .diverge (s.diverged r.pos)
      else .go (s.metRecord r) t'
  else if (s.ctx c).level.recording then
    let r := s.writeLate p t point
    let q := r.1.writeEnd p r.2 kind payload point stamp
    .go q.1 q.2
  else .go s t'

/-- The records put off of a party whose earlier accesses are all performed are written (R376). -/
def State.flushLate (s : State) (p : Party) : State :=
  match s.team? p with
  | none => s
  | some t =>
    let upTo := match t.firstAccess.map (·.point) with
      | some n => n
      | none => t.retired
    if t.late.any (fun x => x.2.2 ≤ upTo) then
      let r := s.writeLate p t upTo
      r.1.setTeam p r.2
    else s

/-- The same for every team and prologue. -/
def State.flushClocks (s : State) : State :=
  let ps := (s.allTeams.filter (fun x => !x.2.2.2.late.isEmpty)).map (fun x => Party.team x.1 x.2.1) ++
    s.ctxs.filterMap (fun e => match e.2.prologue with
      | some q => if q.team.late.isEmpty then none else some (.prologue e.1)
      | none => none)
  ps.foldl State.flushLate s

/-- The team waits at an instruction that is still to begin (R201). -/
def Hold.fresh (h : Hold) : Bool :=
  match h with
  | .recv _ | .full | .obres _ _ | .tile _ | .ticket _ _ => true
  | _ => false

/-- Instructions of the team that are over: all it has begun but one that holds it. -/
def Team.over (t : Team) : Nat :=
  match t.hold with
  | .none | .walk _ _ _ | .pageFault _ _ => t.retired
  | h => if h.fresh then t.retired else t.retired - 1

/-- The instruction boundary at which a team's chunk is cut: before an instruction that holds the team, and before the first access that
is still to be performed; the next boundary of an ended team lies after its `end` (R375, R378; log 31). -/
def Team.boundary (t : Team) : Nat :=
  max t.chunk.last (match t.firstAccess.map (·.point) with
    | some a => min t.over (a - 1)
    | none => t.over)

/-- Ends a team's chunk at its instruction boundary under recording (R375). -/
def State.cutChunk (s : State) (p : Party) (cause : Nat) : State :=
  match s.team? p with
  | none => s
  | some t => if s.recording (s.ctxOf p) then
      (match endChunk s p t 0 [BitVec.ofNat 8 cause] t.boundary none with
       | .go s t => s.setTeam p t
       | _ => s)
    else s

/-- The lines that [pa, pa + n) lies in. -/
def linesOf (pa n : Nat) : List Nat := if n = 0 then [] else span (pa / 128) ((pa + n - 1) / 128 - pa / 128 + 1)

/-- Cuts the chunks whose signatures an access of another party hits, cause 2 (R375). -/
def State.hit (s : State) (test : Sig → Bool) : State :=
  (s.sigs.filter test).foldl (fun s x => s.cutChunk (.team x.task x.ord) 2) s

/-- A publication of lines by a party other than the given team hits the signatures that hold them (R375). -/
def State.hitLines (s : State) (by_ : Option (Nat × Nat)) (lines : List Nat) : State :=
  s.hit (fun x => by_ ≠ some (x.task, x.ord) && lines.any (fun l => x.lines.contains l || x.wrote.contains l))

/-- A commit of a task publishes its version to the teams of other tasks (R375). -/
def State.hitVersion (s : State) (tid : Nat) : State :=
  match s.task? tid with
  | some k =>
    let lines := k.version.flatMap (fun w => linesOf w.extent.1 w.extent.2)
    s.hit (fun x => x.task ≠ tid && lines.any (fun l => x.lines.contains l))
  | none => s

/-- A commit point of one team is a publication to its task's other teams: it cuts the chunks of those that have stored, or loaded a
line that it publishes, and of all while messages of the task depart with it (R375, R376; log 31). -/
def State.hitMates (s : State) (tid ord : Nat) : State :=
  match s.task? tid with
  | none => s
  | some k =>
    let lines := k.version.flatMap (fun w => linesOf w.extent.1 w.extent.2)
    let due (o : Nat) : Bool := o ≠ ord && (!k.messages.isEmpty || s.sigs.any (fun x => x.task = tid && x.ord = o &&
      (!x.wrote.isEmpty || lines.any (fun l => x.lines.contains l))))
    ((k.teams.map (·.1)).filter due).foldl (fun s o => s.cutChunk (.team tid o) 2) s

/-- A committed write of bytes by a party that has no version (R225, R445). -/
def State.commitBytes (s : State) (pa : Nat) (data : List Byte) : State :=
  let s := s.hitLines none (linesOf pa data.length)
  (s.poke pa data).textWritten [(pa, data.length)]

/-- A recorded team's access joins its signature, and hits those of other teams: of its task for memory, of any for a
scratchpad word, with a write on either side (R375). -/
def State.sign (s : State) (task ord : Nat) (l : Loc) (n : Nat) (write : Bool) : State :=
  if !s.recording (s.ctxOf (.team task ord)) then s
  else
    let own : Sig := match s.sigs.find? (fun x => x.task = task && x.ord = ord) with
      | some x => x
      | none => { task := task, ord := ord, lines := [], wrote := [], words := [] }
    let other (x : Sig) : Bool := !(x.task = task && x.ord = ord)
    match l with
    | .glob pa =>
      let ls := linesOf pa n
      let s := s.hit (fun x => other x && x.task = task && ls.any (fun l => x.wrote.contains l || (write && x.lines.contains l)))
      let own' : Sig := if write then { own with wrote := (own.wrote ++ ls).eraseDups } else { own with lines := (own.lines ++ ls).eraseDups }
      { s with sigs := s.sigs.filter other ++ [own'] }
    | .spd t off =>
      let ws := if n = 0 then [] else span (off / 4) ((off + n - 1) / 4 - off / 4 + 1)
      let s := s.hit (fun x => other x && x.words.any (fun w => w.1 = t && ws.contains w.2.1 && (write || w.2.2)))
      { s with sigs := s.sigs.filter other ++ [{ own with words := (own.words ++ ws.map (fun w => (t, w, write))).eraseDups }] }

/-- While its context is recorded or replayed, a team's accesses are performed in program order, and in a replay only once
every record below its next one is complete, or every one below a breakpoint, at which each team runs to its next ending event: so a
chunk holds what its instructions did (R376, R385, R387; log 31). -/
def State.ordered (s : State) (p : Party) (t : Team) (id : Option Nat) : Bool :=
  let c := s.ctxOf p
  (!s.traced c || (match p with
    | .team _ _ => (t.firstAccess.isNone || t.firstAccess.map (·.id) = id) &&
        t.late.all (fun x => match id.bind (fun i => t.pend.find? (fun y => y.id = i)) with
          | some y => decide (y.point ≤ x.2.2)
          | none => false)
    | _ => true)) &&
  (match p, s.nextStamp p with
   | .team _ _, some n | .lead _ _, some n =>
     let cut := match s.breakRecord with
       | some b => min b.stamp n
       | none => n
     !s.replay.script.any (fun x => x.stamp < cut)
   | _, _ => true)

/-- The context a mailbox is bound to (R427). -/
def State.boundTo (s : State) (mbox : Nat) : Option Nat :=
  let b := (s.reg (rMBXBIND mbox)).toNat
  if mbox < 256 && nbit b 6 then some (nbits b 0 6) else none

/-- How a context stands as an anchor is made of it. -/
def State.sideOf (s : State) (ctx : Nat) (extra : Word64) (child : Option Grid) : AnchorSide :=
  let k := s.ctx ctx
  { spans := (k.packets.filter (fun q => extra.toNat ≤ q.1)).filterMap (fun q => q.2.span)
    epochs := k.routeEpoch, seqs := k.flowSeq
    flows := s.flows.filter (fun f => s.boundTo f.2.2.1 = some ctx)
    boxes := s.mailboxes.filter (fun e => s.boundTo e.1 = some ctx), child := child }

/-- Adds an anchor, with an ANCHOR record under recording (R375), retiring the oldest of 127 but never one that a replay goes by (R381, R382,
R421). -/
def State.addAnchor (s : State) (ctx kind : Nat) (extra : Word64) (child : Option Grid) : State :=
  let n := s.log.nextAnchor
  let side := s.sideOf ctx extra child
  let (s, st) := s.drawStamp
  let busy (a : Anchor) : Bool := (s.replay.state = 1 || s.replay.state = 2) && a.number = s.replay.anchor
  let old := match s.log.anchors.find? (fun a => !busy a) with
    | some a => if s.log.anchors.length ≥ 127 then s.log.anchors.erase a else s.log.anchors
    | none => s.log.anchors
  let new : Anchor := { number := n, kind := kind, ctx := ctx, first := s.log.head, stamp := st, extra := extra }
  let kept (m : Nat) : Bool := old.any (fun a => a.number = m)
  let s : State := { s with log := { s.log with
    anchors := old ++ [new], nextAnchor := n + 1, snaps := s.log.snaps.filter (fun e => kept e.1)
    sides := s.log.sides.filter (fun e => kept e.1) ++ [(n, side)] } }
  (if s.recording ctx then s.logRecord (16 + Config.frontEnd ctx % 2) ctx 8 0xFFFF st none (varint 10 n ++ toBytes 1 kind)
   else s).writeLogHeader

end Sys2Proof.Machine
end

