-- ==== Sys2Proof/Machine/Translate.lean ====
section
/-!
DEFINITION. Address translation: the Sv57 walk with its options (R270, R271), the access rules on pages, TLBs
(R272), and the accesses that walk at once: engines (R150), the front end's own (R454).
-/

namespace Sys2Proof.Machine

/-- What an access does. -/
inductive How where
  | load | store | fetch
  deriving DecidableEq, Repr

def How.code : How → Nat
  | .load => 0
  | .store => 1
  | .fetch => 2

/-- Whose access: kernel code, lead slices and engines (U = 1 pages), prologue and steward (U = 0), front end. -/
inductive Priv where
  | user | sup | frontEnd
  deriving DecidableEq, Repr

/-- The addresses of the PTEs that a walk from a table reads, before `xlat`, in order (R270). -/
def walkSteps (m : AMap Byte) (xlat : Nat → Option Nat) (va top : Nat) : Nat → Nat → List Nat
  | level, base =>
    let at_ := base + 8 * (va / 2 ^ (12 + 9 * level) % (if level = 4 then 2 ^ top else 2 ^ 9))
    match (xlat at_).bind (readPte m) with
    | none => [at_]
    | some pte =>
      if nbit pte 1 || nbit pte 3 then [at_]
      else match level with
        | 0 => [at_]
        | l + 1 => at_ :: walkSteps m xlat va top l (nbits pte 10 44 * 4096)

/-- Sets A, and D on a write, in the PTE of a leaf (R270). -/
def setAD (m : AMap Byte) (l : Leaf) (how : How) : AMap Byte :=
  let low := readNat m l.pte 1
  writeNat m l.pte 1 (low ||| 0x40 ||| (if how = .store then 0x80 else 0))

/-- Sets A in the G-stage leaves of the pages that hold the PTEs a walk has read, and D in that of the last, whose A or D is
about to be set (R270; log 52). -/
def setTableAD (hgatp : Nat) (update : Bool) : List Nat → AMap Byte → AMap Byte
  | [], m => m
  | a :: as, m =>
    setTableAD hgatp update as (match walkG m hgatp a with
      | some g => setAD m g (if as.isEmpty && update then .store else .load)
      | none => m)

/-- The PTE of a leaf lacks A, or D on a write. -/
def lacksAD (m : AMap Byte) (l : Leaf) (how : How) : Bool :=
  !nbit (readNat m l.pte 1) 6 || (how = .store && !nbit (readNat m l.pte 1) 7)

/-- Memory with the PTEs that a walk updates alike in both copies of replicated tables (R278). -/
def State.mirrorPtes (s : State) (ptes : List Nat) (m : AMap Byte) : AMap Byte :=
  if s.replicas.isEmpty then m else ptes.foldl (fun m a => mirrorBytes s.replicas m a 1) m

/-- A two-stage or one-stage walk of a context's tables: the leaf for the address and memory with A and D set. -/
def State.walk (s : State) (c : Nat) (va : Nat) (how : How) : Option (Leaf × AMap Byte) :=
  let satp := s.creg c oCSATP
  if !canonicalVa va then none
  else if nbit (s.creg c oCTXCFG) 3 then
    let h := s.creg c oCHGATP
    match walkFrom s.mem (gAddr s.mem h) va 9 4 (rootOf satp) with
    | none => none
    | some l =>
      let gpa := l.pa + va % l.size
      match walkG s.mem h gpa with
      | none => none
      | some g =>
        some (l.over g va gpa,
              let steps := walkSteps s.mem (gAddr s.mem h) va 9 4 (rootOf satp)
              s.mirrorPtes (l.pte :: g.pte :: steps.filterMap (fun a => (walkG s.mem h a).map (·.pte)))
                (setAD (setAD (setTableAD h (lacksAD s.mem l how) steps s.mem) l how) g how))
  else
    match walkFrom s.mem some va 9 4 (rootOf satp) with
    | none => none
    | some l => some (l, s.mirrorPtes [l.pte] (setAD s.mem l how))

/-- Physical addresses of the PTEs that a walk reads, of both stages (R270). -/
def State.walkReads (s : State) (c va : Nat) : List Nat :=
  let root := rootOf (s.creg c oCSATP)
  if nbit (s.creg c oCTXCFG) 3 then
    let h := s.creg c oCHGATP
    let stageG (a : Nat) : List Nat := walkSteps s.mem some a 11 4 (rootOf h)
    (walkSteps s.mem (gAddr s.mem h) va 9 4 root).flatMap (fun a => stageG a ++ (gAddr s.mem h a).toList) ++
      (match walkFrom s.mem (gAddr s.mem h) va 9 4 root with
       | some l => stageG (l.pa + va % l.size)
       | none => [])
  else walkSteps s.mem some va 9 4 root

/-- A walk and its updates wait while a table's region changes (R277, R279). -/
def State.walkBusy (s : State) (c va : Nat) : Bool := (s.walkReads c va).any (fun a => s.regionBusy a 8)

/-- A walk's reads recall the lines that application cores hold newer (R276). -/
def State.recallWalk (s : State) (c va : Nat) : State :=
  if s.dirty.isEmpty then s else (s.walkReads c va).foldl (fun s a => s.recall a 8) s

/-- The register pools, from the registers that configure them: base and size (R205, R433). -/
def State.inPool (s : State) (pa : Nat) : Bool :=
  s.regs.any (fun e =>
    0x100000 ≤ e.1 && e.1 % 0x10000 = oCPOOLS &&
      (let b := (s.reg (e.1 - oCPOOLS + oCPOOLB)).toNat
       b ≤ pa && pa < b + e.2.toNat * 2 ^ 21))

/-- The result of translating one access. -/
inductive Xlat where
  | ok (pa : Nat)
  | miss
  | noTranslation
  | denied
  /-- The page tables name a physical address that the part does not have. -/
  | nowhere (pa : Nat)
  /-- The walk waits while a table's region changes (R277, R279). -/
  | busy
  deriving DecidableEq, Repr

/-- Judges a leaf for an access (R270, R207, R278, R431). -/
def State.judge (s : State) (priv : Priv) (how : How) (flags pa : Nat) : Xlat :=
  let right := match how with
    | .load => nbit flags 1
    | .store => nbit flags 2
    | .fetch => nbit flags 3
  let u := match priv with
    | .user => nbit flags 4
    | .sup => !nbit flags 4
    | .frontEnd => true
  if !right || !u || flags / 1024 = 2 then .denied
  else if apertureBase ≤ pa && pa < apertureBase + apertureSize then .denied
  else if s.inReplica pa then .denied
  else if priv ≠ .frontEnd && s.inPool pa then .denied
  else if pa < memorySize then .ok pa
  else .nowhere pa

/-- Translates through a core's TLB and then its cluster's; an entry without A, or without D on a store, serves no access that
its rights allow (R272). -/
def State.lookup (s : State) (core c : Nat) (priv : Priv) (how : How) (va : Nat) : Xlat :=
  let serves (e : TlbEntry) : Bool := e.ctx = c && e.lo ≤ va && va < e.lo + e.size
  match ((s.core core).tlb ++ (s.cluster (clusterOf core)).tlb).find? serves with
  | none => .miss
  | some e =>
    match s.judge priv how e.flags (e.pa + (va - e.lo)) with
    | .ok pa => if nbit e.flags 6 && (how ≠ .store || nbit e.flags 7) then .ok pa else .miss
    | x => x

/-- Translates by a walk at once, setting A and D (engines, front ends, prologues, stewards). -/
def State.xlatNow (s : State) (c : Nat) (priv : Priv) (how : How) (va : Nat) : State × Xlat :=
  if s.walkBusy c va then (s, .busy)
  else match s.walk c va how with
  | none => (s.recallWalk c va, .noTranslation)
  | some (l, m) =>
    match s.judge priv how l.flags (l.pa + va % l.size) with
    | .ok pa => ({ s.recallWalk c va with mem := m }, .ok pa)
    | x => (s.recallWalk c va, x)

/-- Places an entry in a TLB that holds `n`. -/
def tlbPut (e : TlbEntry) (n : Nat) (tlb : List TlbEntry) : List TlbEntry :=
  (e :: tlb.filter (fun x => !(x.ctx = e.ctx && x.lo = e.lo && x.size = e.size))).take n

/-- Ends a walk for a team's access: A and D are set when the page allows the access, and the leaf takes its place in the TLBs of
the core, which holds 256 entries, and of its cluster, which holds 8,192 (R270, R272). -/
def State.fillTlb (s : State) (core c va : Nat) (l : Leaf) (m : AMap Byte) (how : How) : State :=
  let allowed := match s.judge .user how l.flags (l.pa + va % l.size) with
    | .ok _ => true
    | _ => false
  let s := s.recallWalk c va
  let e : TlbEntry := { ctx := c, lo := l.va, size := l.size, pa := l.pa, vs := l.vs, gs := l.gs
                        flags := if allowed then l.flags ||| 0x40 ||| (if how = .store then 0x80 else 0) else l.flags }
  (State.modCore (if allowed then { s with mem := m } else s) core (fun k => { k with tlb := tlbPut e 256 k.tlb })).modCluster
    (clusterOf core) (fun k => { k with tlb := tlbPut e 8192 k.tlb })

/-- Translates `n` bytes of a context's space for the front end; the first byte that fails stops it (R454). -/
def State.feXlat (s : State) (c : Nat) (how : How) (va : Nat) : Nat → State × Except (Nat × Xlat) (List Nat)
  | 0 => (s, .ok [])
  | n + 1 =>
    match s.xlatNow c .frontEnd how va with
    | (s, .ok pa) =>
      match State.feXlat s c how (va + 1) n with
      | (s, .ok ps) => (s, .ok (pa :: ps))
      | r => r
    | (s, x) => (s, .error (va, x))

/-- Writes bytes at the physical addresses found for them. -/
def State.commitAt (s : State) : List Nat → List Byte → State
  | a :: as, b :: bs => State.commitAt (s.commitBytes a [b]) as bs
  | _, _ => s

/-- What becomes of the entry of a ring (R439). -/
inductive RingPut where
  | done | waits | fails
  deriving DecidableEq, Repr

/-- Writes an entry of a ring in a context's space, none of it unless all translates; it waits while its region changes
(R277, R454). -/
def State.ringWrite (s : State) (c va : Nat) (data : List Byte) : State × RingPut :=
  match s.feXlat c .store va data.length with
  | (s, .ok ps) => if ps.any (fun pa => s.regionBusy pa 1) then (s, .waits) else (s.commitAt ps data, .done)
  | (s, .error (_, .busy)) => (s, .waits)
  | (s, .error _) => (s, .fails)

end Sys2Proof.Machine
end

