-- ==== Sys2Proof/Machine/Operands.lean ====
section
/-!
DEFINITION. Register operands (R16 to R20): reading and writing registers, pairs and predicates, and which lanes an
instruction acts in (R23, R69). Every instruction reads and writes registers through these.
-/

namespace Sys2Proof.Machine

/-- Lane register `r` in a lane. -/
def Team.vreg (t : Team) (r lane : Nat) : Word := AMap.get 0#32 t.v (r * 1024 + lane)

/-- Uniform register k`n`. -/
def Team.kreg (t : Team) (n : Nat) : Word := AMap.get 0#32 t.k n

/-- The register a specifier names (R16), as lane `lane` sees it. -/
def Team.reg (t : Team) (spec lane : Nat) : Word := if spec < 96 then t.vreg spec lane else t.kreg (spec - 96)

/-- The pair at an even specifier (R17). -/
def Team.pair (t : Team) (spec lane : Nat) : Word64 := joinPair (t.reg spec lane) (t.reg (spec + 1) lane)

/-- The uniform pair k`n`:k`n+1`. -/
def Team.kpair (t : Team) (n : Nat) : Word64 := joinPair (t.kreg n) (t.kreg (n + 1))

def Team.setV (t : Team) (r lane : Nat) (w : Word) : Team := { t with v := AMap.put 0#32 t.v (r * 1024 + lane) w }
def Team.setK (t : Team) (n : Nat) (w : Word) : Team := { t with k := AMap.put 0#32 t.k n w }
def Team.setKPair (t : Team) (n : Nat) (w : Word64) : Team := (t.setK n (lowHalf w)).setK (n + 1) (highHalf w)

/-- Every lane. -/
def allLanes : LaneMask := BitVec.allOnes 1024

/-- The lanes in which predicate code `c` (R18) is true: p0 in every lane, a q predicate in all or none. -/
def Team.pmask (t : Team) (c : Nat) : LaneMask :=
  if c = 0 then allLanes
  else if c < 8 then AMap.get 0#1024 t.p c
  else if t.q.getLsbD (c - 8) then allLanes else 0#1024

/-- The lanes whose guard is true (R23). -/
def Team.guard (t : Team) : LaneMask :=
  if mdGi t.md then ~~~ t.pmask (mdG t.md) else t.pmask (mdG t.md)

/-- The lanes that take part: active with a true guard (R23, R122). -/
def Team.takePart (t : Team) : LaneMask := t.mask &&& t.guard

/-- The lanes that take part, ascending. -/
def Team.lanes (t : Team) : List Nat := lanesOf t.groups t.takePart

/-- The active lanes, ascending. -/
def Team.activeLanes (t : Team) : List Nat := lanesOf t.groups t.mask

/-- Writes a lane register in the given lanes. -/
def Team.setLanes (t : Team) (r : Nat) (f : Nat → Word) (ls : List Nat) : Team :=
  ls.foldl (fun t i => t.setV r i (f i)) t

/-- Writes a destination: a uniform register once, a lane register in each lane that takes part (R69). -/
def Team.write (t : Team) (spec : Nat) (f : Nat → Word) : Team :=
  if 96 ≤ spec then t.setK (spec - 96) (f 0) else t.setLanes spec f t.lanes

/-- Writes a destination pair (R17, R69). -/
def Team.writePair (t : Team) (spec : Nat) (f : Nat → Word64) : Team :=
  let ls := t.lanes
  if 96 ≤ spec then t.setKPair (spec - 96) (f 0)
  else ls.foldl (fun t i => (t.setV spec i (lowHalf (f i))).setV (spec + 1) i (highHalf (f i))) t

/-- Writes registers D, D + 1, … of a span, each whole, in each lane that takes part or once (R108). -/
def Team.writeSpan (t : Team) (spec n : Nat) (f : Nat → Nat → Word) : Team :=
  let ls := t.lanes
  (span 0 n).foldl (fun u i =>
    if 96 ≤ spec then u.setK (spec - 96 + i) (f i 0) else u.setLanes (spec + i) (f i) ls) t

/-- Writes a predicate (R18, R93): p0 discards, a p in each lane that takes part, a q once. -/
def Team.writePred (t : Team) (c : Nat) (f : Nat → Bool) : Team :=
  if c = 0 then t
  else if c < 8 then
    let part := t.takePart
    let new := maskOf t.lanes f
    { t with p := AMap.put 0#1024 t.p c ((t.pmask c &&& ~~~ part) ||| new) }
  else
    let b := f 0
    { t with q := if b then t.q ||| (1#4 <<< (c - 8)) else t.q &&& ~~~ (1#4 <<< (c - 8)) }

/-- The value of predicate code `c` in a lane. -/
def Team.predAt (t : Team) (c lane : Nat) : Bool := (t.pmask c).getLsbD lane

/-- The streams that hold no lane predicates: they read q[bp mod 4] where others read p[bp] (R29). -/
def Team.single1 (t : Team) : Bool := t.stream = .lead || t.stream = .prologue

/-- The lanes in which p[md.bp] is true, for `sel` and `mkabs` into lanes (R88, R105). -/
def Team.bpMask (t : Team) : LaneMask := t.pmask (mdBp t.md)

/-- p[md.bp] is true in some active lane, or q[md.bp mod 4] where lane predicates are not held (R25, R29, R88). -/
def Team.bpAny (t : Team) : Bool :=
  if t.single1 then t.q.getLsbD (mdBp t.md % 4) else t.mask &&& t.bpMask ≠ 0#1024

/-- Slot j`n`. -/
def Team.slotJ (t : Team) (n : Nat) : Word64 :=
  match n with
  | 0 => t.j0
  | 1 => t.j1
  | 2 => t.j2
  | _ => t.j3

/-- Writes slot j`n`. -/
def Team.setJ (t : Team) (n : Nat) (w : Word64) : Team :=
  match n with
  | 0 => { t with j0 := w }
  | 1 => { t with j1 := w }
  | 2 => { t with j2 := w }
  | _ => { t with j3 := w }

/-- lc and lh: the top of the loop stack, or the values at team start (R20, R75). -/
def Team.lc (t : Team) : Word :=
  match t.loops with
  | [] => 0#32
  | e :: _ => e.lc
def Team.lh (t : Team) : Word64 :=
  match t.loops with
  | [] => t.entry
  | e :: _ => e.lh

/-- Tile width in lanes: 2^lw (R24). -/
def Team.tileWidth (t : Team) : Nat := 2 ^ nbits t.tw.toNat 0 3

/-- The summary word: bit g set when group g has an active lane (R199). -/
def Team.summary (t : Team) : Nat :=
  (span 0 32).foldl (fun n g => if nbits t.mask.toNat (32 * g) 32 = 0 then n else n + 2 ^ g) 0

/-- Passes of an instruction that executes per lane: one for each set summary bit (R200). -/
def Team.activeGroups (t : Team) : Nat := popBits t.summary 32

end Sys2Proof.Machine
end

