-- ==== Sys2Proof/Machine/Flags.lean ====
section
/-!
DEFINITION. The sequencing effect of an instruction (R25 to R29): splits and joins of the mask, calls, loops, yields,
ends and breaks, with the traps they take.
-/

namespace Sys2Proof.Machine

/-- The traps of sequencing (R25, R28): code of R184, address, detail. -/
structure SeqTrap where
  code : Nat
  addr : Word64
  detail : Nat
  deriving DecidableEq, Repr

def divTrap (t : Team) : SeqTrap := { code := 23, addr := 0#64, detail := t.div.length }
def callTrap (t : Team) : SeqTrap := { code := 24, addr := 0#64, detail := t.calls.length }
def loopTrap (t : Team) : SeqTrap := { code := 25, addr := 0#64, detail := t.loops.length }

/-- A transfer (R28): a target that is not 4-aligned takes MISALIGNED. -/
def goTo (t : Team) (a : Word64) : Except SeqTrap Team :=
  if a.toNat % 4 = 0 then .ok { t with pc := a } else .error { code := 20, addr := a, detail := 0 }

/-- The next instruction in order. -/
def goNext (t : Team) : Except SeqTrap Team := .ok { t with pc := t.pc + 4#64 }

/-- split (R25): two entries, the taken lanes first. -/
def split (t : Team) (taken : LaneMask) : Except SeqTrap Team :=
  if 32 - t.div.length < 2 then .error (divTrap t)
  else if taken ≠ 0#1024 then
    goTo { t with div := .pending (t.pc + 4#64) (t.mask &&& ~~~ taken) :: .rejoin t.mask :: t.div
                  mask := taken } t.j0
  else goNext { t with div := .pending t.j0 0#1024 :: .rejoin t.mask :: t.div }

/-- join (R25): the waiting side, or the mask beneath. -/
def join (t : Team) : Except SeqTrap Team :=
  match t.div with
  | [] => .error (divTrap t)
  | .rejoin m :: rest => goNext { t with div := rest, mask := m }
  | .pending pc m :: rest =>
    if m ≠ 0#1024 then goTo { t with div := rest, mask := m } pc
    else match rest with
      | .rejoin m' :: rest' => goNext { t with div := rest', mask := m' }
      | _ => .error (divTrap t)

/-- call and return (R25). -/
def call (t : Team) : Except SeqTrap Team :=
  if t.calls.length ≥ 8 then .error (callTrap t)
  else goTo { t with calls := { ret := t.pc + 4#64, divDepth := t.div.length, loopDepth := t.loops.length } :: t.calls }
    t.j1
def ret (t : Team) : Except SeqTrap Team :=
  match t.calls with
  | [] => .error (callTrap t)
  | e :: rest =>
    if e.divDepth ≠ t.div.length then .error (divTrap t)
    else if e.loopDepth ≠ t.loops.length then .error (loopTrap t)
    else goTo { t with calls := rest } e.ret

/-- loop (R25): lc falls and the body runs again, or the entry is popped. -/
def loopBack (t : Team) : Except SeqTrap Team :=
  match t.loops with
  | [] => .error (loopTrap t)
  | e :: rest =>
    if e.lc.toNat > 1 then goTo { t with loops := { e with lc := e.lc - 1#32 } :: rest } e.lh
    else goNext { t with loops := rest }

/-- The sequencing effect of a code (R25), read from the team as the instruction leaves it (R11). `op` is the
asynchronous operation the instruction started, if any (R26); `debug` tells whether `brk` breaks (R27). -/
def seqAct (code : Nat) (op : Option Nat) (debug : Bool) (t : Team) : Except SeqTrap Team :=
  let yielded : Yield := match op with
    | some i => .onOp i
    | none => .onTurn false
  match code with
  | 0 => goNext t
  | 1 => split t (t.mask &&& t.bpMask)
  | 2 => split t (t.mask &&& ~~~ t.bpMask)
  | 3 => if t.bpAny then goTo t t.j0 else goNext t
  | 4 => goTo t t.j0
  | 5 => goTo t t.j1
  | 6 => call t
  | 7 => ret t
  | 8 => loopBack t
  | 9 => join t
  | 10 => goTo { t with yld := yielded } t.j0
  | 11 => goNext { t with yld := yielded }
  | 12 => if t.div.length ≠ 0 then .error (divTrap t) else goNext { t with ended := true }
  | 13 => goNext { t with brk := debug }
  | _ => goNext t

/-- The sequencing codes a stream may use (R29); steward code uses those of kernel code (log 13). -/
def seqAllowed (st : Stream) (code : Nat) : Bool :=
  match st with
  | .lead | .prologue => code = 0 || code = 3 || code = 4 || code = 5 || code = 8 || code = 12
  | _ => code ≤ 13

end Sys2Proof.Machine
end

