-- ==== Sys2Proof/Machine/Checks.lean ====
section
/-!
DEFINITION. The checks of a word at issue (R48): the streams of R51, listed codes, sequencing codes (R29), register
specifiers (R16 to R18, R37, R69) and modes (R47); what TX_MISUSE is judged from (R139); and the counter an
instruction adds to (R129).
-/

namespace Sys2Proof.Machine

/-- The class of register an operand place takes. -/
inductive Need where
  | any | uni | lane
  deriving DecidableEq, Repr

/-- A register operand: its specifier, the class its place takes, and whether it is a pair (R17). -/
structure RegUse where
  spec : Nat
  need : Need
  pair : Bool
  deriving DecidableEq, Repr

/-- The operands of a word: registers written and read, predicate codes written (with the class their place takes)
and read, and whether a uniform destination forbids lane sources (R69). -/
structure Uses where
  dst : List RegUse
  src : List RegUse
  pdst : List (Nat × Need)
  psrc : List Nat
  mix : Bool
  deriving DecidableEq, Repr

def noUses : Uses := { dst := [], src := [], pdst := [], psrc := [], mix := true }

/-- The atomics whose D is a pair (R45). -/
def atomPair (o : Nat) : Bool := o = 10 || o = 11 || o = 12

/-- The operands of a word under md.type `t`; typed operands are pairs when it is 12 (R47). -/
def uses (t : Nat) : Instr → Uses
  | .nop _ => noUses
  | .jmov _ _ a => { noUses with src := [⟨a.toNat, .uni, true⟩] }
  | .jget _ d _ => { noUses with dst := [⟨d.toNat, .uni, true⟩] }
  | .lset _ a => { noUses with src := [⟨a.toNat, .uni, false⟩] }
  | .lsetImm _ _ => noUses
  | .lbrk _ => noUses
  | .msetLo _ _ => noUses
  | .msetFl _ _ => noUses
  | .msetHi _ _ => noUses
  | .mput _ a => { noUses with src := [⟨a.toNat, .uni, false⟩] }
  | .mget _ d => { noUses with dst := [⟨d.toNat, .any, false⟩] }
  | .tile _ _ => noUses
  | .sreg _ d n => { noUses with dst := [⟨d.toNat, if n.toNat ≤ 1 then .lane else .any, false⟩] }
  | .rdlane _ d a => { noUses with dst := [⟨d.toNat, .uni, false⟩], src := [⟨a.toNat, .any, false⟩], mix := false }
  | .jset _ _ _ => noUses
  | .movi _ d _ => { noUses with dst := [⟨d.toNat, .any, false⟩] }
  | .movhi _ d _ => { noUses with dst := [⟨d.toNat, .any, false⟩] }
  | .iaddi _ d a _ => { noUses with dst := [⟨d.toNat, .any, false⟩], src := [⟨a.toNat, .any, false⟩] }
  | .mov _ d a => { noUses with dst := [⟨d.toNat, .any, false⟩], src := [⟨a.toNat, .any, false⟩] }
  | .popc _ d a => { noUses with dst := [⟨d.toNat, .any, false⟩], src := [⟨a.toNat, .any, false⟩] }
  | .clz _ d a => { noUses with dst := [⟨d.toNat, .any, false⟩], src := [⟨a.toNat, .any, false⟩] }
  | .ctz _ d a => { noUses with dst := [⟨d.toNat, .any, false⟩], src := [⟨a.toNat, .any, false⟩] }
  | .brev _ d a => { noUses with dst := [⟨d.toNat, .any, false⟩], src := [⟨a.toNat, .any, false⟩] }
  | .pand _ d a c => { noUses with pdst := [(d.toNat, .any)], psrc := [a.toNat, c.toNat] }
  | .por _ d a c => { noUses with pdst := [(d.toNat, .any)], psrc := [a.toNat, c.toNat] }
  | .pxor _ d a c => { noUses with pdst := [(d.toNat, .any)], psrc := [a.toNat, c.toNat] }
  | .pnot _ d a => { noUses with pdst := [(d.toNat, .any)], psrc := [a.toNat] }
  | .pset _ d a => { noUses with src := [⟨a.toNat, .any, false⟩], pdst := [(d.toNat, .any)] }
  | .pget _ d p => { noUses with dst := [⟨d.toNat, .any, false⟩], psrc := [p.toNat] }
  | .ldB32 _ d a _ => { noUses with dst := [⟨d.toNat, .lane, false⟩], src := [⟨a.toNat, .any, true⟩], mix := false }
  | .ldB64 _ d a _ => { noUses with dst := [⟨d.toNat, .lane, true⟩], src := [⟨a.toNat, .any, true⟩], mix := false }
  | .stB32 _ d a _ => { noUses with src := [⟨d.toNat, .lane, false⟩, ⟨a.toNat, .any, true⟩] }
  | .stB64 _ d a _ => { noUses with src := [⟨d.toNat, .lane, true⟩, ⟨a.toNat, .any, true⟩] }
  | .ldsB32 _ d a _ => { noUses with dst := [⟨d.toNat, .lane, false⟩], src := [⟨a.toNat, .any, false⟩] }
  | .stsB32 _ d a _ => { noUses with src := [⟨d.toNat, .lane, false⟩, ⟨a.toNat, .any, false⟩] }
  | .ldAcqB32 _ _ d a => { noUses with dst := [⟨d.toNat, .lane, false⟩], src := [⟨a.toNat, .any, true⟩] }
  | .ldScB32 _ _ d a => { noUses with dst := [⟨d.toNat, .lane, false⟩], src := [⟨a.toNat, .any, true⟩] }
  | .ldAcqB64 _ _ d a => { noUses with dst := [⟨d.toNat, .lane, true⟩], src := [⟨a.toNat, .any, true⟩] }
  | .ldScB64 _ _ d a => { noUses with dst := [⟨d.toNat, .lane, true⟩], src := [⟨a.toNat, .any, true⟩] }
  | .ldsAcq _ _ d a => { noUses with dst := [⟨d.toNat, .lane, false⟩], src := [⟨a.toNat, .any, false⟩] }
  | .ldsSc _ _ d a => { noUses with dst := [⟨d.toNat, .lane, false⟩], src := [⟨a.toNat, .any, false⟩] }
  | .stRelB32 _ _ d a => { noUses with src := [⟨d.toNat, .lane, false⟩, ⟨a.toNat, .any, true⟩] }
  | .stScB32 _ _ d a => { noUses with src := [⟨d.toNat, .lane, false⟩, ⟨a.toNat, .any, true⟩] }
  | .stRelB64 _ _ d a => { noUses with src := [⟨d.toNat, .lane, true⟩, ⟨a.toNat, .any, true⟩] }
  | .stScB64 _ _ d a => { noUses with src := [⟨d.toNat, .lane, true⟩, ⟨a.toNat, .any, true⟩] }
  | .stsRel _ _ d a => { noUses with src := [⟨d.toNat, .lane, false⟩, ⟨a.toNat, .any, false⟩] }
  | .stsSc _ _ d a => { noUses with src := [⟨d.toNat, .lane, false⟩, ⟨a.toNat, .any, false⟩] }
  | .ldB8 _ d a => { noUses with dst := [⟨d.toNat, .lane, false⟩], src := [⟨a.toNat, .any, true⟩] }
  | .ldB16 _ d a => { noUses with dst := [⟨d.toNat, .lane, false⟩], src := [⟨a.toNat, .any, true⟩] }
  | .ldS8 _ d a => { noUses with dst := [⟨d.toNat, .lane, false⟩], src := [⟨a.toNat, .any, true⟩] }
  | .ldS16 _ d a => { noUses with dst := [⟨d.toNat, .lane, false⟩], src := [⟨a.toNat, .any, true⟩] }
  | .stB8 _ d a => { noUses with src := [⟨d.toNat, .lane, false⟩, ⟨a.toNat, .any, true⟩] }
  | .stB16 _ d a => { noUses with src := [⟨d.toNat, .lane, false⟩, ⟨a.toNat, .any, true⟩] }
  | .ldsB8 _ d a => { noUses with dst := [⟨d.toNat, .lane, false⟩], src := [⟨a.toNat, .any, false⟩] }
  | .ldsB16 _ d a => { noUses with dst := [⟨d.toNat, .lane, false⟩], src := [⟨a.toNat, .any, false⟩] }
  | .ldsS8 _ d a => { noUses with dst := [⟨d.toNat, .lane, false⟩], src := [⟨a.toNat, .any, false⟩] }
  | .ldsS16 _ d a => { noUses with dst := [⟨d.toNat, .lane, false⟩], src := [⟨a.toNat, .any, false⟩] }
  | .stsB8 _ d a => { noUses with src := [⟨d.toNat, .lane, false⟩, ⟨a.toNat, .any, false⟩] }
  | .stsB16 _ d a => { noUses with src := [⟨d.toNat, .lane, false⟩, ⟨a.toNat, .any, false⟩] }
  | .ldsB64 _ d a => { noUses with dst := [⟨d.toNat, .lane, true⟩], src := [⟨a.toNat, .any, false⟩] }
  | .stsB64 _ d a => { noUses with src := [⟨d.toNat, .lane, true⟩, ⟨a.toNat, .any, false⟩] }
  | .ldkB32 _ d a => { noUses with dst := [⟨d.toNat, .uni, false⟩], src := [⟨a.toNat, .uni, true⟩] }
  | .ldkB64 _ d a => { noUses with dst := [⟨d.toNat, .uni, true⟩], src := [⟨a.toNat, .uni, true⟩] }
  | .stkB32 _ d a => { noUses with src := [⟨d.toNat, .uni, false⟩, ⟨a.toNat, .uni, true⟩] }
  | .stkB64 _ d a => { noUses with src := [⟨d.toNat, .uni, true⟩, ⟨a.toNat, .uni, true⟩] }
  | .ldr _ d a => { noUses with dst := [⟨d.toNat, .lane, false⟩], src := [⟨a.toNat, .any, false⟩] }
  | .str _ d a => { noUses with src := [⟨d.toNat, .lane, false⟩, ⟨a.toNat, .any, false⟩] }
  | .ldargB8 _ d _ => { noUses with dst := [⟨d.toNat, .any, false⟩] }
  | .ldargB16 _ d _ => { noUses with dst := [⟨d.toNat, .any, false⟩] }
  | .ldargB32 _ d _ => { noUses with dst := [⟨d.toNat, .any, false⟩] }
  | .ldargB64 _ d _ => { noUses with dst := [⟨d.toNat, .any, true⟩] }
  | .iadd _ d a c => { noUses with dst := [⟨d.toNat, .any, false⟩], src := [⟨a.toNat, .any, false⟩, ⟨c.toNat, .any, false⟩] }
  | .isub _ d a c => { noUses with dst := [⟨d.toNat, .any, false⟩], src := [⟨a.toNat, .any, false⟩, ⟨c.toNat, .any, false⟩] }
  | .imul _ d a c => { noUses with dst := [⟨d.toNat, .any, false⟩], src := [⟨a.toNat, .any, false⟩, ⟨c.toNat, .any, false⟩] }
  | .imulh _ d a c => { noUses with dst := [⟨d.toNat, .any, false⟩], src := [⟨a.toNat, .any, false⟩, ⟨c.toNat, .any, false⟩] }
  | .andB _ d a c => { noUses with dst := [⟨d.toNat, .any, false⟩], src := [⟨a.toNat, .any, false⟩, ⟨c.toNat, .any, false⟩] }
  | .orB _ d a c => { noUses with dst := [⟨d.toNat, .any, false⟩], src := [⟨a.toNat, .any, false⟩, ⟨c.toNat, .any, false⟩] }
  | .xorB _ d a c => { noUses with dst := [⟨d.toNat, .any, false⟩], src := [⟨a.toNat, .any, false⟩, ⟨c.toNat, .any, false⟩] }
  | .andnB _ d a c => { noUses with dst := [⟨d.toNat, .any, false⟩], src := [⟨a.toNat, .any, false⟩, ⟨c.toNat, .any, false⟩] }
  | .shl _ d a c => { noUses with dst := [⟨d.toNat, .any, false⟩], src := [⟨a.toNat, .any, false⟩, ⟨c.toNat, .any, false⟩] }
  | .shr _ d a c => { noUses with dst := [⟨d.toNat, .any, false⟩], src := [⟨a.toNat, .any, false⟩, ⟨c.toNat, .any, false⟩] }
  | .sar _ d a c => { noUses with dst := [⟨d.toNat, .any, false⟩], src := [⟨a.toNat, .any, false⟩, ⟨c.toNat, .any, false⟩] }
  | .rot _ d a c => { noUses with dst := [⟨d.toNat, .any, false⟩], src := [⟨a.toNat, .any, false⟩, ⟨c.toNat, .any, false⟩] }
  | .bfx _ d a c => { noUses with dst := [⟨d.toNat, .any, false⟩], src := [⟨a.toNat, .any, false⟩, ⟨c.toNat, .any, false⟩] }
  | .bfi _ d a c => { noUses with dst := [⟨d.toNat, .any, false⟩], src := [⟨a.toNat, .any, false⟩, ⟨c.toNat, .any, false⟩] }
  | .sel _ d a c => { noUses with dst := [⟨d.toNat, .any, false⟩], src := [⟨a.toNat, .any, false⟩, ⟨c.toNat, .any, false⟩] }
  | .lea _ d a c => { noUses with dst := [⟨d.toNat, .any, true⟩], src := [⟨a.toNat, .any, true⟩, ⟨c.toNat, .any, false⟩] }
  | .add64 _ d a c => { noUses with dst := [⟨d.toNat, .any, true⟩], src := [⟨a.toNat, .any, true⟩, ⟨c.toNat, .any, true⟩] }
  | .sub64 _ d a c => { noUses with dst := [⟨d.toNat, .any, true⟩], src := [⟨a.toNat, .any, true⟩, ⟨c.toNat, .any, true⟩] }
  | .shl64 _ d a _ => { noUses with dst := [⟨d.toNat, .any, true⟩], src := [⟨a.toNat, .any, true⟩] }
  | .shr64 _ d a _ => { noUses with dst := [⟨d.toNat, .any, true⟩], src := [⟨a.toNat, .any, true⟩] }
  | .icmp _ p _ a c => { noUses with src := [⟨a.toNat, .any, false⟩, ⟨c.toNat, .any, false⟩], pdst := [(p.toNat, .any)] }
  | .ucmp _ p _ a c => { noUses with src := [⟨a.toNat, .any, false⟩, ⟨c.toNat, .any, false⟩], pdst := [(p.toNat, .any)] }
  | .addT _ d a c => { noUses with dst := [⟨d.toNat, .any, (t = 12)⟩], src := [⟨a.toNat, .any, (t = 12)⟩, ⟨c.toNat, .any, (t = 12)⟩] }
  | .subT _ d a c => { noUses with dst := [⟨d.toNat, .any, (t = 12)⟩], src := [⟨a.toNat, .any, (t = 12)⟩, ⟨c.toNat, .any, (t = 12)⟩] }
  | .mulT _ d a c => { noUses with dst := [⟨d.toNat, .any, (t = 12)⟩], src := [⟨a.toNat, .any, (t = 12)⟩, ⟨c.toNat, .any, (t = 12)⟩] }
  | .minT _ d a c => { noUses with dst := [⟨d.toNat, .any, (t = 12)⟩], src := [⟨a.toNat, .any, (t = 12)⟩, ⟨c.toNat, .any, (t = 12)⟩] }
  | .maxT _ d a c => { noUses with dst := [⟨d.toNat, .any, (t = 12)⟩], src := [⟨a.toNat, .any, (t = 12)⟩, ⟨c.toNat, .any, (t = 12)⟩] }
  | .divT _ d a c => { noUses with dst := [⟨d.toNat, .any, (t = 12)⟩], src := [⟨a.toNat, .any, (t = 12)⟩, ⟨c.toNat, .any, (t = 12)⟩] }
  | .dot _ d a c => { noUses with dst := [⟨d.toNat, .any, (t = 12)⟩], src := [⟨a.toNat, .any, (t = 12)⟩, ⟨c.toNat, .any, (t = 12)⟩] }
  | .fcmp _ p _ a c => { noUses with src := [⟨a.toNat, .any, (t = 12)⟩, ⟨c.toNat, .any, (t = 12)⟩], pdst := [(p.toNat, .any)] }
  | .classify _ p a _ => { noUses with src := [⟨a.toNat, .any, (t = 12)⟩], pdst := [(p.toNat, .any)] }
  | .absT _ d a => { noUses with dst := [⟨d.toNat, .any, (t = 12)⟩], src := [⟨a.toNat, .any, (t = 12)⟩] }
  | .negT _ d a => { noUses with dst := [⟨d.toNat, .any, (t = 12)⟩], src := [⟨a.toNat, .any, (t = 12)⟩] }
  | .sqrt _ d a => { noUses with dst := [⟨d.toNat, .any, (t = 12)⟩], src := [⟨a.toNat, .any, (t = 12)⟩] }
  | .rcp _ d a => { noUses with dst := [⟨d.toNat, .any, (t = 12)⟩], src := [⟨a.toNat, .any, (t = 12)⟩] }
  | .rsq _ d a => { noUses with dst := [⟨d.toNat, .any, (t = 12)⟩], src := [⟨a.toNat, .any, (t = 12)⟩] }
  | .exp2 _ d a => { noUses with dst := [⟨d.toNat, .any, (t = 12)⟩], src := [⟨a.toNat, .any, (t = 12)⟩] }
  | .log2 _ d a => { noUses with dst := [⟨d.toNat, .any, (t = 12)⟩], src := [⟨a.toNat, .any, (t = 12)⟩] }
  | .sinpi _ d a => { noUses with dst := [⟨d.toNat, .any, (t = 12)⟩], src := [⟨a.toNat, .any, (t = 12)⟩] }
  | .cospi _ d a => { noUses with dst := [⟨d.toNat, .any, (t = 12)⟩], src := [⟨a.toNat, .any, (t = 12)⟩] }
  | .mkabs _ d a => { noUses with dst := [⟨d.toNat, .any, (t = 12)⟩], src := [⟨a.toNat, .any, (t = 12)⟩] }
  | .fma _ d a c => { noUses with dst := [⟨d.toNat, .any, (t = 12)⟩], src := [⟨a.toNat, .any, (t = 12)⟩, ⟨c.toNat, .any, (t = 12)⟩] }
  | .fmaN _ d a c => { noUses with dst := [⟨d.toNat, .any, (t = 12)⟩], src := [⟨a.toNat, .any, (t = 12)⟩, ⟨c.toNat, .any, (t = 12)⟩] }
  | .cvt _ d a y => { noUses with dst := [⟨d.toNat, .any, (t = 12)⟩], src := [⟨a.toNat, .any, y.toNat = 12⟩] }
  | .cvtmx _ d a => { noUses with dst := [⟨d.toNat, .lane, (t = 12)⟩, ⟨d.toNat + 1, .lane, false⟩], src := [⟨a.toNat, .any, (t = 12)⟩] }
  | .cvtmxH16 _ d a => { noUses with dst := [⟨d.toNat, .lane, (t = 12)⟩, ⟨d.toNat + 1, .lane, false⟩], src := [⟨a.toNat, .any, (t = 12)⟩] }
  | .cvtmxH32 _ d a => { noUses with dst := [⟨d.toNat, .lane, (t = 12)⟩, ⟨d.toNat + 1, .lane, false⟩], src := [⟨a.toNat, .any, (t = 12)⟩] }
  | .pack _ d a => { noUses with dst := [⟨d.toNat, .any, (t = 12)⟩], src := [⟨a.toNat, .any, (t = 12)⟩] }
  | .unpack _ d a => { noUses with dst := [⟨d.toNat, .any, (t = 12)⟩], src := [⟨a.toNat, .any, (t = 12)⟩] }
  | .voteAny _ p q => { noUses with pdst := [(p.toNat, .any)], psrc := [q.toNat], mix := false }
  | .voteAll _ p q => { noUses with pdst := [(p.toNat, .any)], psrc := [q.toNat], mix := false }
  | .voteBallot _ d q => { noUses with dst := [⟨d.toNat, .lane, false⟩], psrc := [q.toNat] }
  | .voteUni _ p q => { noUses with pdst := [(p.toNat, .any)], psrc := [q.toNat], mix := false }
  | .tred _ d a _ => { noUses with dst := [⟨d.toNat, .lane, (t = 12)⟩], src := [⟨a.toNat, .any, (t = 12)⟩] }
  | .scan _ d a _ => { noUses with dst := [⟨d.toNat, .lane, (t = 12)⟩], src := [⟨a.toNat, .any, (t = 12)⟩] }
  | .matchLanes _ d a => { noUses with dst := [⟨d.toNat, .lane, false⟩], src := [⟨a.toNat, .any, false⟩] }
  | .elect _ p q => { noUses with pdst := [(p.toNat, .lane)], psrc := [q.toNat] }
  | .cntp _ d q => { noUses with dst := [⟨d.toNat, .lane, false⟩], psrc := [q.toNat] }
  | .shfl _ d a _ _ => { noUses with dst := [⟨d.toNat, .lane, false⟩], src := [⟨a.toNat, .any, false⟩] }
  | .wait _ _ _ _ _ => noUses
  | .fence _ _ _ => noUses
  | .vcommit _ => noUses
  | .park _ k _ a c => { noUses with src := [⟨96 + a.toNat, .uni, k.toNat = 0⟩, ⟨96 + c.toNat, .uni, false⟩] }
  | .bararr _ _ _ => noUses
  | .barwait _ _ _ => noUses
  | .gbar _ _ => noUses
  | .txbCoh _ => noUses
  | .txbDev _ => noUses
  | .txe _ p d => { noUses with dst := [⟨d.toNat, .lane, false⟩], pdst := [(p.toNat, .lane)] }
  | .txa _ _ => noUses
  | .pref _ a _ => { noUses with src := [⟨a.toNat, .any, true⟩] }
  | .cctl _ a _ => { noUses with src := [⟨a.toNat, .any, true⟩] }
  | .atomScratchpad _ d a o _ => { noUses with dst := [⟨d.toNat, .lane, atomPair o.toNat⟩], src := [⟨a.toNat, .any, false⟩] }
  | .atomRlx _ d a o _ => { noUses with dst := [⟨d.toNat, .lane, atomPair o.toNat⟩], src := [⟨a.toNat, .any, true⟩] }
  | .atomAcq _ d a o _ => { noUses with dst := [⟨d.toNat, .lane, atomPair o.toNat⟩], src := [⟨a.toNat, .any, true⟩] }
  | .atomRel _ d a o _ => { noUses with dst := [⟨d.toNat, .lane, atomPair o.toNat⟩], src := [⟨a.toNat, .any, true⟩] }
  | .atomAr _ d a o _ => { noUses with dst := [⟨d.toNat, .lane, atomPair o.toNat⟩], src := [⟨a.toNat, .any, true⟩] }
  | .atomSc _ d a o _ => { noUses with dst := [⟨d.toNat, .lane, atomPair o.toNat⟩], src := [⟨a.toNat, .any, true⟩] }
  | .mredAdd _ d a _ => { noUses with src := [⟨d.toNat, .lane, false⟩, ⟨a.toNat, .any, true⟩] }
  | .mredAddRel _ d a _ => { noUses with src := [⟨d.toNat, .lane, false⟩, ⟨a.toNat, .any, true⟩] }
  | .mredFadd _ d a _ => { noUses with src := [⟨d.toNat, .lane, false⟩, ⟨a.toNat, .any, true⟩] }
  | .mredFaddRel _ d a _ => { noUses with src := [⟨d.toNat, .lane, false⟩, ⟨a.toNat, .any, true⟩] }
  | .tcopy _ a p => { noUses with src := [⟨a.toNat, .uni, p.toNat = 0⟩] }
  | .chain _ a p => { noUses with src := [⟨a.toNat, .uni, p.toNat = 0⟩] }
  | .obres _ _ c => { noUses with src := [⟨96 + c.toNat, .uni, false⟩] }
  | .obset _ _ a => { noUses with src := [⟨96 + a.toNat, .uni, true⟩] }
  | .obrel _ _ => noUses
  | .leadN _ _ => noUses
  | .qpushVal _ a => { noUses with src := [⟨96 + a.toNat, .uni, false⟩] }
  | .qpushLd _ a => { noUses with src := [⟨96 + a.toNat, .uni, true⟩] }
  | .qpushOb _ a _ => { noUses with src := [⟨96 + a.toNat, .uni, true⟩] }
  | .qpop _ d => { noUses with dst := [⟨d.toNat, .any, false⟩] }
  | .coll _ a p => { noUses with src := [⟨a.toNat, .uni, p.toNat = 0⟩] }
  | .launch _ a => { noUses with src := [⟨a.toNat, .uni, true⟩] }
  | .msend _ a c => { noUses with src := [⟨96 + a.toNat, .uni, false⟩, ⟨96 + c.toNat, .uni, true⟩] }
  | .mrecv _ a c => { noUses with src := [⟨96 + a.toNat, .uni, true⟩, ⟨96 + c.toNat, .uni, false⟩] }
  | .mres _ _ => noUses
  | .mrel _ _ => noUses
  | .mmz _ _ _ => noUses
  | .mld _ _ a => { noUses with src := [⟨96 + a.toNat, .uni, true⟩] }
  | .mma _ _ _ _ => noUses
  | .mmaTile _ _ _ _ _ => noUses
  | .mdrain _ _ k _ _ i => { noUses with src := [⟨if k.toNat = 0 then 4 * i.toNat else 96 + i.toNat, if k.toNat = 0 then .lane else .uni, k.toNat ≥ 2⟩] }
  | .smx _ _ c => { noUses with src := [⟨96 + c.toNat, .uni, false⟩] }
  | .sexp _ _ c => { noUses with src := [⟨96 + c.toNat, .uni, false⟩] }
  | .srsc _ _ _ => noUses
  | .trap _ _ => noUses
  | .sysReq _ _ a => { noUses with src := [⟨96 + a.toNat, .uni, true⟩] }
  | .rdclk _ d => { noUses with dst := [⟨d.toNat, .any, true⟩] }
  | .rdtime _ d => { noUses with dst := [⟨d.toNat, .any, true⟩] }
  | .mark _ _ => noUses
  | .csrr _ d _ => { noUses with dst := [⟨96 + d.toNat, .uni, false⟩] }
  | .csrw _ a _ => { noUses with src := [⟨96 + a.toNat, .uni, false⟩] }
  | .probe _ d a => { noUses with dst := [⟨96 + d.toNat, .uni, false⟩], src := [⟨96 + a.toNat, .uni, false⟩] }
  | .pcnt _ d _ => { noUses with dst := [⟨d.toNat, .any, true⟩] }
  | .dstep _ d a => { noUses with dst := [⟨96 + d.toNat, .uni, false⟩], src := [⟨96 + a.toNat, .uni, false⟩] }
  | .halt _ => noUses
  | _ => noUses

/-- Check 2: the streams of R51. -/
def streamOk (s : Stream) : Instr → Bool
  | .nop _ | .lset _ _ | .lsetImm _ _ | .jset _ _ _ | .movi _ _ _ | .movhi _ _ _ | .iaddi _ _ _ _
  | .iadd _ _ _ _ | .isub _ _ _ _ | .imul _ _ _ _ | .imulh _ _ _ _ | .andB _ _ _ _ | .orB _ _ _ _
  | .xorB _ _ _ _ | .andnB _ _ _ _ | .shl _ _ _ _ | .shr _ _ _ _ | .sar _ _ _ _ | .rot _ _ _ _ | .bfx _ _ _ _
  | .bfi _ _ _ _ | .sel _ _ _ _ | .lea _ _ _ _ | .add64 _ _ _ _ | .sub64 _ _ _ _ | .shl64 _ _ _ _
  | .shr64 _ _ _ _ | .icmp _ _ _ _ _ | .ucmp _ _ _ _ _ => true
  | .jmov _ _ _ | .jget _ _ _ | .lbrk _ | .msetLo _ _ | .msetFl _ _ | .msetHi _ _ | .mput _ _ | .mget _ _
  | .tile _ _ | .sreg _ _ _ | .rdlane _ _ _ | .mov _ _ _ | .popc _ _ _ | .clz _ _ _ | .ctz _ _ _
  | .brev _ _ _ | .pand _ _ _ _ | .por _ _ _ _ | .pxor _ _ _ _ | .pnot _ _ _ | .pset _ _ _ | .pget _ _ _
  | .ldkB32 _ _ _ | .ldkB64 _ _ _ | .trap _ _ | .sysReq _ _ _ | .rdclk _ _ | .rdtime _ _ | .mark _ _
  | .pcnt _ _ _ => s ≠ .lead
  | .ldB32 _ _ _ _ | .ldB64 _ _ _ _ | .stB32 _ _ _ _ | .stB64 _ _ _ _ | .ldsB32 _ _ _ _ | .stsB32 _ _ _ _
  | .ldAcqB32 _ _ _ _ | .ldScB32 _ _ _ _ | .ldAcqB64 _ _ _ _ | .ldScB64 _ _ _ _ | .ldsAcq _ _ _ _
  | .ldsSc _ _ _ _ | .stRelB32 _ _ _ _ | .stScB32 _ _ _ _ | .stRelB64 _ _ _ _ | .stScB64 _ _ _ _
  | .stsRel _ _ _ _ | .stsSc _ _ _ _ | .ldB8 _ _ _ | .ldB16 _ _ _ | .ldS8 _ _ _ | .ldS16 _ _ _ | .stB8 _ _ _
  | .stB16 _ _ _ | .ldsB8 _ _ _ | .ldsB16 _ _ _ | .ldsS8 _ _ _ | .ldsS16 _ _ _ | .stsB8 _ _ _ | .stsB16 _ _ _
  | .ldsB64 _ _ _ | .stsB64 _ _ _ | .stkB32 _ _ _ | .stkB64 _ _ _ | .ldr _ _ _ | .str _ _ _ | .ldargB8 _ _ _
  | .ldargB16 _ _ _ | .ldargB32 _ _ _ | .ldargB64 _ _ _ | .addT _ _ _ _ | .subT _ _ _ _ | .mulT _ _ _ _
  | .minT _ _ _ _ | .maxT _ _ _ _ | .divT _ _ _ _ | .dot _ _ _ _ | .fcmp _ _ _ _ _ | .classify _ _ _ _
  | .absT _ _ _ | .negT _ _ _ | .sqrt _ _ _ | .rcp _ _ _ | .rsq _ _ _ | .exp2 _ _ _ | .log2 _ _ _
  | .sinpi _ _ _ | .cospi _ _ _ | .mkabs _ _ _ | .fma _ _ _ _ | .fmaN _ _ _ _ | .cvt _ _ _ _ | .cvtmx _ _ _
  | .cvtmxH16 _ _ _ | .cvtmxH32 _ _ _ | .pack _ _ _ | .unpack _ _ _ | .voteAny _ _ _ | .voteAll _ _ _
  | .voteBallot _ _ _ | .voteUni _ _ _ | .tred _ _ _ _ | .scan _ _ _ _ | .matchLanes _ _ _ | .elect _ _ _
  | .cntp _ _ _ | .shfl _ _ _ _ _ | .wait _ _ _ _ _ | .fence _ _ _ | .vcommit _ | .park _ _ _ _ _
  | .bararr _ _ _ | .barwait _ _ _ | .gbar _ _ | .txbCoh _ | .txbDev _ | .txe _ _ _ | .txa _ _ | .pref _ _ _
  | .cctl _ _ _ | .atomScratchpad _ _ _ _ _ | .atomRlx _ _ _ _ _ | .atomAcq _ _ _ _ _ | .atomRel _ _ _ _ _
  | .atomAr _ _ _ _ _ | .atomSc _ _ _ _ _ | .mredAdd _ _ _ _ | .mredAddRel _ _ _ _ | .mredFadd _ _ _ _
  | .mredFaddRel _ _ _ _ => s = .kernel || s = .steward
  | .tcopy _ _ _ | .chain _ _ _ | .obres _ _ _ | .obset _ _ _ | .obrel _ _ | .qpop _ _ | .coll _ _ _
  | .launch _ _ | .msend _ _ _ | .mrecv _ _ _ | .mres _ _ | .mrel _ _ | .mmz _ _ _ | .mld _ _ _
  | .mma _ _ _ _ | .mmaTile _ _ _ _ _ | .mdrain _ _ _ _ _ _ | .smx _ _ _ | .sexp _ _ _ | .srsc _ _ _ => s = .kernel
  | .leadN _ _ | .qpushVal _ _ | .qpushLd _ _ | .qpushOb _ _ _ => s = .lead
  | .csrr _ _ _ | .csrw _ _ _ | .probe _ _ _ | .dstep _ _ _ | .halt _ => s = .prologue || s = .steward
  | _ => false

/-- The csr numbers a stream may read, and those it may write (R176, R177). -/
def csrReads (s : Stream) (c : Nat) : Bool :=
  match s with
  | .prologue => c ≤ 6
  | .steward => 0x40 ≤ c && c ≤ 0x44
  | _ => false
def csrWrites (s : Stream) (c : Nat) : Bool :=
  match s with
  | .prologue => c ≤ 5
  | .steward => c = 0x42
  | _ => false

/-- Check 3: every code field holds a listed code. -/
def codesListed (s : Stream) : Instr → Bool
  | .icmp _ _ k _ _ | .ucmp _ _ k _ _ => k.toNat < 6
  | .sreg _ _ n => if s = .prologue then 7 ≤ n.toNat && n.toNat ≤ 9 else n.toNat < 12
  | .ldAcqB32 _ c _ _ | .ldScB32 _ c _ _ | .ldAcqB64 _ c _ _ | .ldScB64 _ c _ _ | .ldsAcq _ c _ _
  | .ldsSc _ c _ _ | .stRelB32 _ c _ _ | .stScB32 _ c _ _ | .stRelB64 _ c _ _ | .stScB64 _ c _ _
  | .stsRel _ c _ _ | .stsSc _ c _ _ => c.toNat ≠ 7
  | .mredAdd _ _ _ c | .mredAddRel _ _ _ c | .mredFadd _ _ _ c | .mredFaddRel _ _ _ c => c.toNat ≠ 7
  | .atomScratchpad _ _ _ o r => o.toNat ≤ 12 && r.toNat ≤ 4
  | .atomRlx _ _ _ o c | .atomAcq _ _ _ o c | .atomRel _ _ _ o c | .atomAr _ _ _ o c | .atomSc _ _ _ o c =>
    o.toNat ≤ 12 && c.toNat ≠ 7
  | .tred _ _ _ o => o.toNat ≤ 5
  | .scan _ _ _ o => o.toNat ≤ 2
  | .fence _ o c => 1 ≤ o.toNat && o.toNat ≤ 4 && c.toNat ≠ 7
  | .park _ k n _ _ => k.toNat ≠ 3 && n.toNat < 2
  | .bararr _ _ n | .barwait _ _ n => 1 ≤ n.toNat && n.toNat ≤ 8
  | .pref _ _ l => l.toNat < 2
  | .cctl _ _ o => o.toNat < 2
  | .leadN _ n => n.toNat ≤ 16
  | .mdrain _ _ k n o _ => n.toNat ≠ 3 && (k.toNat ≠ 3 || n.toNat = 0) && (k.toNat = 0 || o.toNat = 0)
  | .csrr _ _ c => csrReads s c.toNat
  | .csrw _ _ c => csrWrites s c.toNat
  | .pcnt _ _ n => n.toNat < 8
  | _ => true

/-- A register operand is legal: within the budget, of its class, even when a pair (R16, R17, R37). -/
def regOk (single : Bool) (budget : Nat) (u : RegUse) : Bool :=
  (if u.spec < 96 then u.need ≠ .uni && !single && u.spec < budget && (!u.pair || u.spec + 1 < budget)
   else u.need ≠ .lane && u.spec < 128) &&
  (!u.pair || u.spec % 2 = 0)

/-- A predicate code is legal in its place (R18, R37). -/
def predOk (single : Bool) (c : Nat) (need : Need) : Bool :=
  c < 12 && (if c < 8 then need ≠ .uni && !single else need ≠ .lane)

/-- Check 5. `single` tells that the stream may name no lane register and no lane predicate (R37, R51). -/
def regsOk (single : Bool) (budget : Nat) (u : Uses) : Bool :=
  u.dst.all (regOk single budget) && u.src.all (regOk single budget) &&
  u.pdst.all (fun p => predOk single p.1 p.2) && u.psrc.all (fun c => predOk single c .any) &&
  (!u.mix || !(u.dst.any (fun r => 96 ≤ r.spec) || u.pdst.any (fun p => 8 ≤ p.1)) ||
    (u.src.all (fun r => 96 ≤ r.spec) && u.psrc.all (fun c => 8 ≤ c)))

/-- Accepted by most typed instructions (R47). -/
def typed11 (t : Nat) : Bool := t ≤ 10 || t = 12
def typedFloat (t : Nat) : Bool := t = 6 || t = 7 || t = 8 || t = 12

/-- Check 6: the mode an instruction takes (R47, R41, R24, R77, R111, R166). -/
def modeOk (md tw : Word) (i : Instr) : Bool :=
  let t := mdType md
  let lw := nbits tw.toNat 0 3
  match i with
  | .addT _ _ _ _ | .subT _ _ _ _ | .mulT _ _ _ _ | .minT _ _ _ _ | .maxT _ _ _ _ | .absT _ _ _ | .negT _ _ _
  | .mkabs _ _ _ | .fma _ _ _ _ | .fmaN _ _ _ _ | .tred _ _ _ _ | .scan _ _ _ _ => typed11 t
  | .divT _ _ _ _ => t ≤ 8 || t = 12
  | .sqrt _ _ _ | .rcp _ _ _ | .rsq _ _ _ | .exp2 _ _ _ | .log2 _ _ _ | .sinpi _ _ _ | .cospi _ _ _ => typedFloat t
  | .dot _ _ _ _ => (2 ≤ t && t ≤ 5) || (7 ≤ t && t ≤ 10)
  | .fcmp _ _ _ _ _ | .classify _ _ _ _ => (6 ≤ t && t ≤ 10) || t = 12
  | .cvt _ _ _ y => typed11 t && typed11 y.toNat
  | .cvtmx _ _ _ => 9 ≤ t && t ≤ 11 && (lw = 4 || lw = 5)
  | .cvtmxH16 _ _ _ => t = 11 && lw = 4
  | .cvtmxH32 _ _ _ => t = 11 && lw = 5
  | .pack _ _ _ | .unpack _ _ _ => (2 ≤ t && t ≤ 5) || (7 ≤ t && t ≤ 11)
  | .mdrain _ _ k _ _ _ => k.toNat = 3 || (6 ≤ t && t ≤ 10) || t = 12
  | .tile _ w => 1 ≤ w.toNat && w.toNat ≤ 5
  | .msetLo _ v => nbits v.toNat 4 4 ≤ 12 && nbits v.toNat 8 3 ≤ 4
  | .msetHi _ v => !nbit v.toNat 2 && !nbit v.toNat 3 && !nbit v.toNat 7
  | _ => true

/-- Registers that `n` elements of a type take (R108). -/
def spanRegs (t n : Nat) : Nat := (n * tyWidth t + 31) / 32

/-- Elements that a `cvt` converts (R108). -/
def cvtCount (src dst : Nat) : Nat := max (tyCount src) (tyCount dst)

/-- The spans that md.type gives an instruction: first specifier and registers (R108, R110, R166). -/
def spans (md : Word) : Instr → List (Nat × Nat)
  | .cvt _ d a y =>
    let n := cvtCount y.toNat (mdType md)
    [(d.toNat, spanRegs (mdType md) n), (a.toNat, spanRegs y.toNat n)]
  | .pack _ _ a => [(a.toNat, tyCount (mdType md))]
  | .unpack _ d _ => [(d.toNat, tyCount (mdType md))]
  | .mdrain _ _ k _ _ i => if k.toNat = 0 then [(4 * i.toNat, spanRegs (mdType md) 32)] else []
  | _ => []

/-- A span stays within the budget, or within k0 to k31. -/
def spanOk (budget : Nat) (p : Nat × Nat) : Bool :=
  if p.1 < 96 then p.1 + p.2 ≤ budget else p.1 + p.2 ≤ 128

/-- The checks of R48 in order: the trap code of the first that fails. -/
def failedCheck (i : Instr) (t : Team) : Option Nat :=
  match i.hdr? with
  | none => some 16
  | some h =>
    if !i.selects || !streamOk t.stream i || !codesListed t.stream i then some 16
    else if !seqAllowed t.stream h.seq.toNat then some 17
    else if !regsOk t.single1 t.budget (uses (mdType t.md) i) then some 19
    else if !modeOk t.md t.tw i then some 18
    else if !(spans t.md i).all (spanOk t.budget) then some 19
    else none

/-! ## Transactions -/

/-- What an instruction is to an open transaction (R139). -/
inductive TxUse where
  | free | opens | closes | dooms | global | globalOnce | scratchpad | lane | once
  deriving DecidableEq, Repr

/-- How R139 classes an instruction. DESIGN CHOICE (log 50): `pref` and `cctl` name a line and access none, so they do not count as an
access to the other space. -/
def txUse : Instr → TxUse
  | .txbCoh _ | .txbDev _ => .opens
  | .txe _ _ _ => .closes
  | .txa _ _ => .dooms
  | .ldB32 _ _ _ _ | .ldB64 _ _ _ _ | .stB32 _ _ _ _ | .stB64 _ _ _ _ | .ldB8 _ _ _ | .ldB16 _ _ _ | .ldS8 _ _ _
  | .ldS16 _ _ _ | .stB8 _ _ _ | .stB16 _ _ _ => .global
  | .ldkB32 _ _ _ | .ldkB64 _ _ _ | .stkB32 _ _ _ | .stkB64 _ _ _ => .globalOnce
  | .ldsB32 _ _ _ _ | .stsB32 _ _ _ _ | .ldsB8 _ _ _ | .ldsB16 _ _ _ | .ldsS8 _ _ _ | .ldsS16 _ _ _
  | .stsB8 _ _ _ | .stsB16 _ _ _ | .ldsB64 _ _ _ | .stsB64 _ _ _ | .ldr _ _ _ | .str _ _ _ => .scratchpad
  | .ldAcqB32 _ _ _ _ | .ldScB32 _ _ _ _ | .ldAcqB64 _ _ _ _ | .ldScB64 _ _ _ _ | .ldsAcq _ _ _ _
  | .ldsSc _ _ _ _ | .stRelB32 _ _ _ _ | .stScB32 _ _ _ _ | .stRelB64 _ _ _ _ | .stScB64 _ _ _ _
  | .stsRel _ _ _ _ | .stsSc _ _ _ _ | .atomScratchpad _ _ _ _ _ | .atomRlx _ _ _ _ _ | .atomAcq _ _ _ _ _
  | .atomRel _ _ _ _ _ | .atomAr _ _ _ _ _ | .atomSc _ _ _ _ _ | .mredAdd _ _ _ _ | .mredAddRel _ _ _ _
  | .mredFadd _ _ _ _ | .mredFaddRel _ _ _ _ => .lane
  | .fence _ _ _ | .vcommit _ | .park _ _ _ _ _ | .bararr _ _ _ | .barwait _ _ _ | .gbar _ _ | .tcopy _ _ _
  | .chain _ _ _ | .obres _ _ _ | .obset _ _ _ | .obrel _ _ | .qpop _ _ | .coll _ _ _ | .launch _ _
  | .msend _ _ _ | .mrecv _ _ _ | .mres _ _ | .mrel _ _ | .mmz _ _ _ | .mld _ _ _ | .mma _ _ _ _
  | .mmaTile _ _ _ _ _ | .mdrain _ _ _ _ _ _ | .smx _ _ _ | .sexp _ _ _ | .srsc _ _ _ | .sysReq _ _ _ => .once
  | _ => .free

/-- TX_MISUSE as far as the word decides it (R139). DESIGN CHOICE (log 50): the team is judged as it stands before the word, so a `txb`
that carries SEQ y, yn or end opens a transaction without a trap, while a `txe` that carries one takes it. -/
def txMisuse (i : Instr) (t : Team) : Bool :=
  match t.tx with
  | none => txUse i = .closes || txUse i = .dooms
  | some x =>
    (match i.hdr? with
     | some h => h.seq.toNat = 10 || h.seq.toNat = 11 || h.seq.toNat = 12
     | none => false) ||
    (match txUse i with
     | .free | .dooms => false
     | .opens => true
     | .closes => x.lanes &&& ~~~ t.takePart ≠ 0#1024
     | .global => !x.dev && x.lanes &&& t.takePart ≠ 0#1024
     | .globalOnce => !x.dev && x.lanes ≠ 0#1024
     | .scratchpad => x.dev && x.lanes &&& t.takePart ≠ 0#1024
     | .lane => x.lanes &&& t.takePart ≠ 0#1024
     | .once => x.lanes ≠ 0#1024)

/-! ## Counters -/

/-- The counter that an instruction adds 1 to at issue (R129, R149, R157, R162). -/
def counterOf : Instr → Option Counter
  | .ldB32 _ _ _ _ | .ldB64 _ _ _ _ | .ldsB32 _ _ _ _ | .ldAcqB32 _ _ _ _ | .ldScB32 _ _ _ _ | .ldAcqB64 _ _ _ _
  | .ldScB64 _ _ _ _ | .ldsAcq _ _ _ _ | .ldsSc _ _ _ _ | .ldB8 _ _ _ | .ldB16 _ _ _ | .ldS8 _ _ _
  | .ldS16 _ _ _ | .ldsB8 _ _ _ | .ldsB16 _ _ _ | .ldsS8 _ _ _ | .ldsS16 _ _ _ | .ldsB64 _ _ _ | .ldkB32 _ _ _
  | .ldkB64 _ _ _ | .ldr _ _ _ | .atomScratchpad _ _ _ _ _ | .atomRlx _ _ _ _ _ | .atomAcq _ _ _ _ _
  | .atomRel _ _ _ _ _ | .atomAr _ _ _ _ _ | .atomSc _ _ _ _ _ => some .ld
  | .stB32 _ _ _ _ | .stB64 _ _ _ _ | .stsB32 _ _ _ _ | .stRelB32 _ _ _ _ | .stScB32 _ _ _ _ | .stRelB64 _ _ _ _
  | .stScB64 _ _ _ _ | .stsRel _ _ _ _ | .stsSc _ _ _ _ | .stB8 _ _ _ | .stB16 _ _ _ | .stsB8 _ _ _
  | .stsB16 _ _ _ | .stsB64 _ _ _ | .stkB32 _ _ _ | .stkB64 _ _ _ | .str _ _ _ | .mredAdd _ _ _ _
  | .mredAddRel _ _ _ _ | .mredFadd _ _ _ _ | .mredFaddRel _ _ _ _ | .mrecv _ _ _ => some .st
  | .tcopy _ _ _ | .chain _ _ _ | .coll _ _ _ | .msend _ _ _ => some .cp
  | .mmz _ _ _ | .mld _ _ _ | .mma _ _ _ _ | .mmaTile _ _ _ _ _ | .mdrain _ _ _ _ _ _ | .smx _ _ _ | .sexp _ _ _
  | .srsc _ _ _ => some .tl
  | _ => none

/-- A counter's maximum (R129). -/
def Counter.max : Counter → Nat
  | .tl => 63
  | _ => 31

/-- A counter of a team: its outstanding operations of the class, all that have not been counted off in order. -/
def Team.count (t : Team) (c : Counter) : Nat := (t.pend.filter (fun p => p.cls = c)).length

end Sys2Proof.Machine
end

