-- ==== Sys2Proof/Machine/Frames.lean ====
section
/-!
DEFINITION. Register frames (R205 to R208): where the lines of a team's lane registers and its state part lie, saving
them and taking them back, and the partition's register cache of 512 lines.
-/

namespace Sys2Proof.Machine

/-! ## Layout (R205) -/

/-- Bytes of a frame's state part. -/
def statePart : Nat := 8192

/-- Where a team's frame lies: R205 gives a cohort's frame as the sum of its parts; DESIGN CHOICE, its teams' frames lie in ordinal
order, and the scratchpad after them (log 12). -/
def Task.teamFrame (k : Task) (ord : Nat) : Nat :=
  k.frame + ((k.teams.filter (fun f => f.1 < ord)).map (fun f => 128 * f.2.budget * f.2.groups + statePart)).sum

/-- The lane part's lines: register × 32 + group. -/
def Team.lines (t : Team) : List Nat :=
  (span 0 t.budget).flatMap (fun v => (span 0 t.groups).map (fun g => v * 32 + g))

/-- Where a line lies in the team's frame. -/
def Team.lineAt (t : Team) (frame line : Nat) : Nat := frame + 128 * (line / 32 * t.groups + line % 32)

/-- A line's 128 bytes: lanes 32g to 32g + 31. -/
def Team.lineBytes (t : Team) (line : Nat) : List Byte :=
  (span 0 32).flatMap (fun i => toBytes 4 (t.vreg (line / 32) (32 * (line % 32) + i)).toNat)

/-- Where the state part lies in the team's frame. -/
def Team.stateAt (t : Team) (frame : Nat) : Nat := frame + 128 * t.budget * t.groups

/-- An entry of the divergence stack in 137 bytes: its kind, its pc and its mask. -/
def DivEntry.bytes : DivEntry → List Byte
  | .rejoin m => toBytes 1 0 ++ toBytes 8 0 ++ toBytes 128 m.toNat
  | .pending pc m => toBytes 1 1 ++ toBytes 8 pc.toNat ++ toBytes 128 m.toNat

/-- The bytes of a list of entries, filled with zeros to `n`. -/
def padTo (n : Nat) (bs : List Byte) : List Byte := bs ++ List.replicate (n - bs.length) 0#8

/-- The state part of a frame, whose layout belongs to the device (R205; log 12): k registers, predicates, sequence targets, md,
tw, q and the depths of the stacks, the mask, loop and call entries, and the divergence entries in use, innermost first. -/
def Team.stateBytes (t : Team) : List Byte :=
  (span 0 32).flatMap (fun i => toBytes 4 (t.kreg i).toNat) ++ (span 1 7).flatMap (fun i => toBytes 128 (t.pmask i).toNat) ++
  toBytes 8 t.j0.toNat ++ toBytes 8 t.j1.toNat ++ toBytes 8 t.j2.toNat ++ toBytes 8 t.j3.toNat ++
  toBytes 4 t.md.toNat ++ toBytes 4 t.tw.toNat ++
  padTo 8 (toBytes 1 t.q.toNat ++ toBytes 1 t.div.length ++ toBytes 1 t.loops.length ++ toBytes 1 t.calls.length) ++
  toBytes 128 t.mask.toNat ++
  padTo 48 (t.loops.flatMap (fun e => toBytes 4 e.lc.toNat ++ toBytes 8 e.lh.toNat)) ++
  padTo 128 (t.calls.flatMap (fun e => toBytes 8 e.ret.toNat ++ toBytes 1 e.divDepth ++ toBytes 7 e.loopDepth)) ++
  t.div.flatMap DivEntry.bytes

/-- Bytes of the state part before the divergence entries. -/
def stateHead : Nat := 1376

/-- A team with the state that a state part holds: `head` its first bytes, `tail` its divergence entries. -/
def Team.withState (t : Team) (head tail : List Byte) : Team :=
  let w64 (off : Nat) : Word64 := BitVec.ofNat 64 (bytesAt head off 8)
  let mask (off : Nat) : LaneMask := BitVec.ofNat 1024 (bytesAt head off 128)
  let entry (i : Nat) : DivEntry :=
    let b := (tail.drop (137 * i)).take 137
    if bytesAt b 0 1 = 0 then .rejoin (BitVec.ofNat 1024 (bytesAt b 9 128))
    else .pending (BitVec.ofNat 64 (bytesAt b 1 8)) (BitVec.ofNat 1024 (bytesAt b 9 128))
  let t := (span 0 32).foldl (fun t i => t.setK i (BitVec.ofNat 32 (bytesAt head (4 * i) 4))) t
  { t with
    p := (span 1 7).foldl (fun m i => AMap.put 0#1024 m i (mask (128 * i))) t.p
    j0 := w64 1024, j1 := w64 1032, j2 := w64 1040, j3 := w64 1048
    md := BitVec.ofNat 32 (bytesAt head 1056 4), tw := BitVec.ofNat 32 (bytesAt head 1060 4)
    q := BitVec.ofNat 4 (bytesAt head 1064 1)
    mask := mask 1072
    loops := (span 0 (min 4 (bytesAt head 1066 1))).map (fun i =>
      { lc := BitVec.ofNat 32 (bytesAt head (1200 + 12 * i) 4), lh := w64 (1204 + 12 * i) })
    calls := (span 0 (min 8 (bytesAt head 1067 1))).map (fun i =>
      { ret := w64 (1248 + 16 * i), divDepth := bytesAt head (1256 + 16 * i) 1, loopDepth := bytesAt head (1257 + 16 * i) 1 })
    div := (span 0 (min 32 (bytesAt head 1065 1))).map entry }

/-- Where the state words of a cohort's named barriers lie in the state part of its first team, and a barrier's word (R208). -/
def barAt : Nat := 5760
def Barrier.word (b : Barrier) : Nat := b.phase.toNat * 2 ^ 16 + b.expected.toNat * 256 + b.arrived.toNat
def Barrier.ofWord (n : Nat) : Barrier :=
  { phase := BitVec.ofNat 16 (nbits n 16 16), expected := BitVec.ofNat 4 (nbits n 8 4), arrived := BitVec.ofNat 8 n }

/-- The team whose frame holds the cohort's barriers. -/
def Task.firstOrd (k : Task) : Nat :=
  match k.teams with
  | (o, _) :: _ => o
  | [] => 0

/-! ## Saving and resuming (R206, R207) -/

/-- Writes lines to the frame of a team (R206). -/
def State.saveLines (s : State) (tid ord : Nat) (t : Team) (lines : List Nat) : State :=
  match s.task? tid with
  | none => s
  | some k => lines.foldl (fun s l => s.poke (t.lineAt (k.teamFrame ord) l) (t.lineBytes l)) s

/-- Writes the state part of a team to its frame, and with that of the cohort's first team its barriers (R206, R208). -/
def State.saveState (s : State) (tid ord : Nat) (t : Team) : State :=
  match s.task? tid with
  | none => s
  | some k =>
    let at_ := t.stateAt (k.teamFrame ord)
    let s := s.poke at_ t.stateBytes
    if ord = k.firstOrd then
      s.poke (at_ + barAt) ((span 0 16).flatMap (fun i => toBytes 4 (AMap.get Barrier.start k.bars i).word))
    else s

/-- Fills lines from the frame of a team. -/
def State.fillLines (s : State) (tid ord : Nat) (t : Team) (lines : List Nat) : Team :=
  match s.task? tid with
  | none => t
  | some k =>
    let lane (l i : Nat) : Word := BitVec.ofNat 32 (readNat s.mem (t.lineAt (k.teamFrame ord) l + 4 * i) 4)
    { lines.foldl (fun t l => (span 0 32).foldl (fun t i => t.setV (l / 32) (32 * (l % 32) + i) (lane l i)) t) t with
      evicted := t.evicted.filter (fun l => !lines.contains l) }

/-- A named barrier of a cohort changes; its word follows to the frame while the team that keeps it there is frozen (R207, R208). -/
def State.setBar (s : State) (tid id : Nat) (b : Barrier) : State :=
  let s := s.modTask tid (fun k => { k with bars := AMap.put Barrier.start k.bars id b })
  match s.task? tid with
  | none => s
  | some k => match AMap.find k.teams k.firstOrd with
    | some t =>
      if t.freeze = .frozen then s.poke (t.stateAt (k.teamFrame k.firstOrd) + barAt + 4 * id) (toBytes 4 b.word) else s
    | none => s

/-- Writes back every line a team holds in the register cache and its state part, as at a freeze, a swap-out or a snapshot
(R206). -/
def State.saveTeam (s : State) (tid ord : Nat) : State :=
  match s.team? (.team tid ord) with
  | some t => (s.saveLines tid ord t (t.lines.filter (fun l => !t.evicted.contains l))).saveState tid ord t
  | none => s

/-- The same for a team whose frame does not hold it already: a frozen team's does, and system software may have written there since
(R207). -/
def State.saveLive (s : State) (tid ord : Nat) : State :=
  match s.team? (.team tid ord) with
  | some t => if t.freeze = .frozen then s else s.saveTeam tid ord
  | none => s

/-- A frozen team's freeze is complete: no load is outstanding, and the instruction in its passes is over (R391). -/
def Team.whole (t : Team) : Bool :=
  !t.pend.any (fun x => x.cls = .ld) && (match t.hold with
    | .txe _ _ _ => false
    | _ => true)

/-- The freeze of a team is complete: it is saved to its frame (R206, R391). -/
def State.frozenOver (s : State) (tid ord : Nat) : State :=
  match s.team? (.team tid ord) with
  | some t => if t.freeze = .frozen && t.whole then s.saveTeam tid ord else s
  | none => s

/-- The cohort of a party has been swapped out (R340). -/
def State.isAway (s : State) (p : Party) : Bool :=
  match s.taskOf p with
  | some k => !k.resident
  | none => false

/-- Registers of a frozen or swapped-out team that an operation has written since they were saved follow them to the frame
(R206, R213). -/
def State.saveRegs (s : State) (p : Party) (regs : List Nat) : State :=
  match p, s.team? p, s.taskOf p with
  | .team tid ord, some t, some k =>
    if t.freeze = .frozen || s.isAway p then
      (regs.filter (96 ≤ ·)).foldl (fun s r =>
          s.poke (t.stateAt (k.teamFrame ord) + 4 * (r - 96)) (toBytes 4 (t.kreg (r - 96)).toNat))
        (s.saveLines tid ord t (t.lines.filter (fun l => regs.contains (l / 32))))
    else s
  | _, _, _ => s

/-! ## Scratchpads (R213, R340) -/

/-- Where a cohort's scratchpad lies in its frame while the cohort is swapped out. -/
def Task.scratchFrame (k : Task) : Nat := k.teamFrame 8

/-- A cohort's scratchpad has been given up for its place in the frame. -/
def Task.scratchAway (k : Task) : Bool := !k.resident && !k.finished

/-- The scratchpad that a cohort's frame holds. -/
def State.framedScratch (s : State) (k : Task) : AMap Byte :=
  (span 0 k.scratchSize).foldl (fun m i => writeByte m i (readByte s.mem (k.scratchFrame + i))) []

/-- Copies a cohort's scratchpad to its frame. -/
def State.frameScratch (s : State) (k : Task) : State :=
  s.poke k.scratchFrame ((span 0 k.scratchSize).map (fun i => readByte k.scratch i))

/-! ## The register cache (R206) -/

/-- Lines that a partition's register cache holds: 64 KiB (R4). -/
def cacheLines : Nat := 512

/-- The lines of a team that are in the register cache. -/
def Team.cached (t : Team) : List Nat := t.lines.filter (fun l => !t.evicted.contains l)

/-- The cached lines of a partition: task, ordinal, line. -/
def State.partLines (s : State) (core part : Nat) : List (Nat × Nat × Nat) :=
  (s.residents core part).flatMap (fun x => x.2.2.2.cached.map (fun l => (x.1, x.2.1, l)))

/-- Lines of a partition's cache that are not taken by teams other than the given one. -/
def State.cacheRoom (s : State) (core part tid ord : Nat) : Nat :=
  cacheLines - ((s.partLines core part).filter (fun x => !(x.1 = tid && x.2.1 = ord))).length

/-- Takes a team's lines and state part from its frame, as a frozen or swapped-out team resumes: what system software has written
there takes effect (R207). -/
def State.loadTeam (s : State) (tid ord : Nat) : State :=
  match s.task? tid, s.team? (.team tid ord) with
  | some k, some t =>
    let at_ := t.stateAt (k.teamFrame ord)
    let head := readBytes s.mem at_ stateHead
    let keep := t.cached.take (s.cacheRoom k.core t.partition tid ord)
    let t := State.fillLines s tid ord { t with evicted := t.lines.filter (fun l => !keep.contains l) } keep
    let t := t.withState head
      (readBytes s.mem (at_ + stateHead) (137 * min 32 (bytesAt head 1065 1)))
    let s := s.setTeam (.team tid ord) t
    if ord = k.firstOrd then
      s.modTask tid (fun k => { k with bars := (span 0 16).foldl (fun m i =>
        AMap.put Barrier.start m i (Barrier.ofWord (readNat s.mem (at_ + barAt + 4 * i) 4))) k.bars })
    else s
  | _, _ => s

/-- A frozen team takes its state from its frame once its freeze is complete; before that the frame does not hold it (R206, R207). -/
def State.reloadTeam (s : State) (tid ord : Nat) : State :=
  match s.team? (.team tid ord) with
  | some t => if t.whole then s.loadTeam tid ord else s
  | none => s

/-- Registers that an outstanding load, atomic or drain is still to write (R130, R166). -/
def Pend.writes (x : Pend) : List Nat :=
  match x.kind with
  | .mem m => (match m.kind with
    | .load | .atomic => if m.bytes = 8 then [m.dest, m.dest + 1] else [m.dest]
    | _ => [])
  | .matrix (.mdrain _ (.reg first _)) _ _ _ _ => span first ((32 * tyWidth (mdType x.md) + 31) / 32)
  | _ => []

/-- Lines of the registers that an operation is to write lie in the frame: its result waits until they are filled (R206); those of
a swapped-out cohort go to the frame. -/
def State.linesOut (s : State) (p : Party) (t : Team) (x : Pend) : Bool :=
  !s.isAway p && t.evicted.any (fun l => (Pend.writes x).contains (l / 32))

/-- A line may leave the register cache: no operation is still to write its register, and no transaction's end is under way. -/
def Team.mayEvict (t : Team) (line : Nat) : Bool :=
  !(t.pend.filter (fun x => !x.done)).any (fun x => (Pend.writes x).contains (line / 32)) &&
  (match t.hold with
   | .txe _ _ _ => false
   | _ => true)

/-- A cached line differs from what the frame holds (R206). -/
def State.dirtyLine (s : State) (x : Nat × Nat × Nat) : Bool :=
  match s.task? x.1, s.team? (.team x.1 x.2.1) with
  | some k, some t => readBytes s.mem (t.lineAt (k.teamFrame x.2.1) x.2.2) 128 ≠ t.lineBytes x.2.2
  | _, _ => false

/-- When a line was last named by an instruction. -/
def State.lineUsed (s : State) (x : Nat × Nat × Nat) : Nat :=
  match s.team? (.team x.1 x.2.1) with
  | some t => AMap.get 0 t.used x.2.2
  | none => 0

/-- The line that leaves a partition's register cache next: a clean one before a dirty one, and of those the least recently used;
`spare` lines stay (R206). -/
def State.nextVictim (s : State) (core part : Nat) (spare : Nat × Nat × Nat → Bool) : Option (Nat × Nat × Nat) :=
  let may := (s.partLines core part).filter (fun x => !spare x && (match s.team? (.team x.1 x.2.1) with
    | some t => t.mayEvict x.2.2
    | none => false))
  let clean := may.filter (fun x => !s.dirtyLine x)
  let least (xs : List (Nat × Nat × Nat)) : Option (Nat × Nat × Nat) := xs.foldl (fun b x =>
    match b with
    | none => some x
    | some y => if s.lineUsed x < s.lineUsed y then some x else some y) none
  match least clean with
  | some x => some x
  | none => least may

/-- A line goes to the team's frame, unless it is there since the team's freeze (R206, R207). -/
def State.writeLine (s : State) (tid ord line : Nat) : State :=
  match s.team? (.team tid ord) with
  | some t => if t.freeze = .frozen && t.whole then s else s.saveLines tid ord t [line]
  | none => s

/-- A line leaves the register cache; it is in the frame first (R206). -/
def State.evictLine (s : State) (x : Nat × Nat × Nat) : State :=
  match s.team? (.team x.1 x.2.1) with
  | some t =>
    (s.writeLine x.1 x.2.1 x.2.2).setTeam (.team x.1 x.2.1)
      { t with evicted := x.2.2 :: t.evicted, used := AMap.erase t.used x.2.2 }
  | none => s

/-- Lines that instructions name at a step are the most recently used (R206). -/
def Team.touchLines (t : Team) (tick : Nat) (lines : List Nat) : Team :=
  { t with used := lines.foldl (fun m l => AMap.put 0 m l tick) t.used }

/-- A team's lines beyond the room of its partition's cache start in the frame, which holds their values at team start, 0 (R197,
R206; log 12). -/
def State.spillTeam (s : State) (tid ord : Nat) : State :=
  match s.task? tid, s.team? (.team tid ord) with
  | some k, some t =>
    let out := t.lines.drop (s.cacheRoom k.core t.partition tid ord)
    if out.isEmpty then s
    else (s.saveLines tid ord t out).setTeam (.team tid ord) { t with evicted := out }
  | _, _ => s

end Sys2Proof.Machine
end

