-- ==== Sys2Proof/Machine/Ops.lean ====
section
/-!
DEFINITION. The operations that every family shares: launch-record fields and gangs, the rings of R438, taking a trap
(R182 to R185, R404, R406, R408), ending a debug step (R180), and `issue`, which takes a word through its checks, its
effect and its sequencing code.
-/

namespace Sys2Proof.Machine

/-! ## Launch records and gangs -/

def LaunchRec.scope (r : LaunchRec) : Nat := nbits r.flags.toNat 0 3
def LaunchRec.addMode (r : LaunchRec) : Bool := nbit r.flags.toNat 3
def LaunchRec.gangSize (r : LaunchRec) : Nat := nbits r.flags.toNat 4 4 + 1
def LaunchRec.gangClass (r : LaunchRec) : Nat := nbits r.flags.toNat 8 2
def LaunchRec.fuse (r : LaunchRec) : Bool := nbit r.flags.toNat 10
def LaunchRec.budget (r : LaunchRec) : Nat := nbits r.flags.toNat 11 4
def LaunchRec.anchor (r : LaunchRec) : Bool := nbit r.flags.toNat 15
def LaunchRec.priority (r : LaunchRec) : Nat := nbits r.flags.toNat 16 2
/-- Cohorts of the grid (R155). -/
def LaunchRec.cohorts (r : LaunchRec) : Nat := r.gx * r.gy * r.gz

/-- A launch record from its 64 bytes (R155). -/
def parseRecord (bs : List Byte) : LaunchRec :=
  { code := BitVec.ofNat 64 (bytesAt bs 0 8), table := BitVec.ofNat 64 (bytesAt bs 8 8)
    gx := bytesAt bs 0x10 4, gy := bytesAt bs 0x14 4, gz := bytesAt bs 0x18 4
    roleBytes := BitVec.ofNat 32 (bytesAt bs 0x1C 4), scratch := bytesAt bs 0x20 4, argSize := bytesAt bs 0x24 2
    staticSize := bytesAt bs 0x26 2, argAddr := BitVec.ofNat 64 (bytesAt bs 0x28 8)
    compAddr := BitVec.ofNat 64 (bytesAt bs 0x30 8), compValue := BitVec.ofNat 32 (bytesAt bs 0x38 4)
    flags := BitVec.ofNat 32 (bytesAt bs 0x3C 4) }

/-- The launch record a task runs under. -/
def State.recordOf (s : State) (k : Task) : Option LaunchRec := (s.grid? k.grid).map (·.record)

/-- Gang size, gang number and `%gang` of a task (R214). -/
def State.gangSize (s : State) (k : Task) : Nat :=
  match s.recordOf k with
  | some r => r.gangSize
  | none => 1
def State.gangNo (s : State) (k : Task) : Nat := k.index / s.gangSize k
def State.gangMember (s : State) (k : Task) : Nat := k.index % s.gangSize k

/-- Members of the gang, fewer in the last gang of a grid (R214). -/
def State.gangCount (s : State) (k : Task) : Nat :=
  match s.recordOf k with
  | some r => min r.gangSize (r.cohorts - s.gangNo k * r.gangSize)
  | none => 1

/-- The live tasks of a task's gang. -/
def State.gangTasks (s : State) (k : Task) : List (Nat × Task) :=
  s.tasks.filter (fun e => e.2.grid = k.grid && s.gangNo e.2 = s.gangNo k)

/-- Key of a gang's barriers in `gangBars` (R144). -/
def State.gangKey (s : State) (k : Task) : Nat := k.grid * 2 ^ 32 + s.gangNo k * s.gangSize k

/-- A failing trap has been taken by the task or by a member of its gang, so its teams issue nothing (R182, R263). -/
def State.failingGang (s : State) (k : Task) : Bool := (s.gangTasks k).any (fun e => e.2.failing.isSome)

/-- A failure now would be followed by a re-launch (R261, R263). -/
def State.wouldRetry (s : State) (k : Task) : Bool :=
  (s.gangTasks k).all (fun e => e.2.commits = 0) &&
  (match s.recordOf k with
   | some r => k.retries < r.budget
   | none => false)

/-! ## Plates -/

/-- The plate a task runs (R321). -/
def State.plateOf (s : State) (k : Task) : Option Plate :=
  match s.grid? k.grid with
  | some g => if g.engraved then g.plate.bind (AMap.find s.plates) else none
  | none => none

/-- Source PC and iteration vector of an address (R183, R326): the plate map's, or the address itself. -/
def State.sourceOf (s : State) (p : Party) (pc : Word64) : Word64 × Word :=
  match (s.taskOf p).bind s.plateOf with
  | none => (pc, 0xFFFFFFFF#32)
  | some pl =>
    let base := s.creg pl.ctx oPLWIN / 2 ^ 30 * 2 ^ 30 + pl.offset
    if base ≤ pc.toNat && pc.toNat < base + 4 * pl.map.length then
      match pl.map[(pc.toNat - base) / 4]? with
      | some (src, iter) => (pl.code + src.setWidth 64, iter)
      | none => (pc, 0xFFFFFFFF#32)
    else (pc, 0xFFFFFFFF#32)

/-- A team whose grid runs a plate (R324); lead slices run as written (R310). -/
def State.onPlate (s : State) (p : Party) : Bool :=
  match p with
  | .team _ _ => ((s.taskOf p).bind s.plateOf).isSome
  | _ => false

/-! ## Fault and service rings (R182, R183, R438, R439) -/

/-- What a fault record holds beside its sequence number. -/
structure FaultRec where
  cls : Nat
  code : Nat
  ctx : Nat
  flags : Nat
  task : Nat
  team : Nat
  plate : Word64
  src : Word64
  addr : Word64
  iter : Word
  commit : Nat
  lane : Nat
  detail : Word
  time : Nat
  cohort : Nat
  retries : Nat
  deriving DecidableEq, Repr

/-- The 64 bytes of a record (R183). -/
def FaultRec.bytes (r : FaultRec) (seq : Nat) : List Byte :=
  toBytes 1 r.cls ++ toBytes 1 r.code ++ toBytes 1 r.ctx ++ toBytes 1 r.flags ++ toBytes 2 r.task ++
  toBytes 2 r.team ++ toBytes 8 r.plate.toNat ++ toBytes 8 r.src.toNat ++ toBytes 8 r.addr.toNat ++
  toBytes 4 r.iter.toNat ++ toBytes 4 r.commit ++ toBytes 4 r.lane ++ toBytes 4 r.detail.toNat ++
  toBytes 8 r.time ++ toBytes 4 r.cohort ++ toBytes 1 r.retries ++ toBytes 1 0 ++ toBytes 2 seq

/-- Entries of a ring that a head and a tail say are in use. -/
def ringUsed (head tail : Nat) : Nat := (head + 2 ^ 32 - tail) % 2 ^ 32

/-- After the last record of a forced reset its RESET_DONE is raised (R412, R437). -/
def State.resetDone (s : State) (c : Nat) : State :=
  if (s.ctx c).resetting && !(s.ctx c).heldFaults.any (fun r => bytesAt r 0 2 = 3 + 64 * 256) then
    (s.modCtx c (fun k => { k with resetting := false })).raise c 4
  else s

/-- Writes waiting fault records while the ring has room, at most `n` of them. A record that cannot be written holds
the rest and sets CSTAT.err (R454). -/
def State.drainFaults (s : State) (c : Nat) : Nat → State
  | 0 => s
  | n + 1 =>
    match (s.ctx c).heldFaults with
    | [] => s
    | r :: rest =>
      let size := 2 ^ nbits (s.creg c oFRCTL) 0 5
      let head := s.creg c oFRHEAD
      if ringUsed head (s.creg c oFRTAIL) ≥ size then s
      else match s.ringWrite c (s.creg c oFRBASE + 64 * (head % size)) r with
        | (s, .done) =>
          let s := (s.setCreg c oFRHEAD ((head + 1) % 2 ^ 32)).modCtx c (fun k => { k with heldFaults := rest })
          State.drainFaults ((s.raise c 0).resetDone c) c n
        | (s, .waits) => s
        | (s, .fails) => s.setCtxErr c

/-- Queues a fault record with the context's next sequence number, and writes what the ring has room for. -/
def State.queueFault (s : State) (r : FaultRec) : State :=
  let s := s.modCtx r.ctx (fun k =>
    { k with heldFaults := k.heldFaults ++ [r.bytes (k.faultSeq % 2 ^ 16)], faultSeq := (k.faultSeq + 1) % 2 ^ 16 })
  s.drainFaults r.ctx (s.ctx r.ctx).heldFaults.length

/-- The same for the service ring (R171, R438). -/
def State.drainSvc (s : State) (c : Nat) : Nat → State
  | 0 => s
  | n + 1 =>
    match (s.ctx c).heldSvc with
    | [] => s
    | r :: rest =>
      let size := 2 ^ nbits (s.creg c oSRCTL) 0 5
      let head := s.creg c oSRHEAD
      if ringUsed head (s.creg c oSRTAIL) ≥ size then s
      else match s.ringWrite c (s.creg c oSRBASE + 32 * (head % size)) r with
        | (s, .done) =>
          let s := (s.setCreg c oSRHEAD ((head + 1) % 2 ^ 32)).modCtx c (fun k => { k with heldSvc := rest })
          State.drainSvc (s.raise c 1) c n
        | (s, .waits) => s
        | (s, .fails) => s.setCtxErr c

/-- A service entry (R438). -/
def svcEntry (code ctx task team value time seq : Nat) : List Byte :=
  toBytes 1 code ++ toBytes 1 ctx ++ toBytes 2 task ++ toBytes 2 team ++ toBytes 2 0 ++ toBytes 8 value ++
    toBytes 8 time ++ toBytes 4 seq ++ toBytes 4 0

/-- Queues a service entry of a party; its number tells when it has been written (R171, R439). -/
def State.postSvc (s : State) (p : Party) (code : Nat) (value : Word64) : State × Nat :=
  let c := s.ctxOf p
  let seq := (s.ctx c).svcSeq % 2 ^ 32
  let e := svcEntry code c ((partyTask p).getD 0) (match p with
    | .team _ _ => s.fieldOf p
    | _ => 0) value.toNat s.time seq
  let s := s.modCtx c (fun k => { k with heldSvc := k.heldSvc ++ [e], svcSeq := (seq + 1) % 2 ^ 32 })
  (s.drainSvc c (s.ctx c).heldSvc.length, seq)

/-- Flag [6] of records written during a replay (R183). -/
def State.replayFlag (s : State) (c : Nat) : Nat := if s.replaying c then 64 else 0

/-- A record of the front end, which has no team (R183, R347, R454). -/
def State.frontEndRecord (s : State) (c cls code : Nat) (addr : Word64) (detail : Word) : State :=
  s.queueFault { cls := cls, code := code, ctx := c, flags := 0, task := 0
                 team := 0, plate := 0#64, src := 0#64, addr := addr, iter := 0xFFFFFFFF#32, commit := 0
                 lane := 0xFFFF, detail := detail, time := s.time, cohort := 0, retries := 0 }

/-- A class-3 report of a task (R182, R183), at the residence of its team of ordinal 0. -/
def State.reportRecord (s : State) (tid : Nat) (k : Task) (code : Nat) (addr : Word64) (detail : Word) : State :=
  let field := match AMap.find k.teams 0 with
    | some t => teamField k.core t.partition t.slot
    | none => 0
  s.queueFault { cls := 3, code := code, ctx := k.ctx, flags := s.replayFlag k.ctx, task := tid, team := field
                 plate := 0#64, src := 0#64, addr := addr, iter := 0xFFFFFFFF#32, commit := k.commits % 2 ^ 32
                 lane := 0xFFFF, detail := detail, time := s.time, cohort := k.index, retries := k.retries }

/-! ## Traps -/

/-- A class-1 trap of the whole team. -/
def trapOf (code : Nat) (addr : Word64) (detail : Nat) : TrapInfo :=
  { cls := 1, code := code, addr := addr, lane := 0xFFFF, detail := BitVec.ofNat 32 detail, engine := false }

/-- A class-1 trap of a lane. -/
def laneTrap (code : Nat) (addr : Word64) (lane detail : Nat) : TrapInfo :=
  { cls := 1, code := code, addr := addr, lane := lane, detail := BitVec.ofNat 32 detail, engine := false }

/-- The record of a trap taken by a party of a task at an address. -/
def State.trapRecord (s : State) (p : Party) (tid : Nat) (k : Task) (pc : Word64) (tr : TrapInfo) : FaultRec :=
  let primary := tr.cls = 1 && !s.failingGang k
  let lead := match p with | .lead _ _ => true | _ => false
  let source := s.sourceOf p pc
  { cls := tr.cls, code := tr.code, ctx := k.ctx
    flags := b2n primary + 2 * b2n tr.engine + 4 * b2n lead + 16 * b2n (s.onPlate p) +
      32 * b2n (primary && s.wouldRetry k) + s.replayFlag k.ctx
    task := tid, team := s.fieldOf p, plate := pc, src := source.1, addr := tr.addr, iter := source.2
    commit := k.commits % 2 ^ 32, lane := tr.lane, detail := tr.detail, time := s.time, cohort := k.index
    retries := k.retries }

/-! ## Suspending a party -/

/-- Freezes a team (R404); the freeze completes, and the team is saved, once no load of it is outstanding and the instruction in
its passes is over (R391). -/
def State.freezeTeam (s : State) (tid ord : Nat) : State :=
  match s.team? (.team tid ord) with
  | none => s
  | some t => (s.setTeam (.team tid ord) { t with freeze := .frozen }).frozenOver tid ord

/-- A cohort that comes to a cluster on which a stop of its context is in force is frozen (R391, R404). -/
def State.stopNew (s : State) (tid : Nat) : State :=
  match s.task? tid with
  | some k =>
    if (s.cluster (clusterOf k.core)).stops.contains k.ctx then k.teams.foldl (fun s f => s.freezeTeam tid f.1) s else s
  | none => s

/-- A launch of a packet fails before any cohort is placed, reported by the record queued last: it counts as complete once that
record is written (R358). -/
def State.failPacket (s : State) (c n : Nat) : State :=
  s.modCtx c (fun k => { k with
    packets := AMap.modify k.packets n (fun x => { x with stage := .failed ((k.faultSeq + 65535) % 65536) }) })

/-- The context's fault record of a number is written (R439). -/
def State.faultWritten (s : State) (c seq : Nat) : Bool := !(s.ctx c).heldFaults.any (fun r => bytesAt r 62 2 = seq)

/-- A packet counts as complete (R348, R358). -/
def State.packetOver (s : State) (c : Nat) (x : Packet) : Bool :=
  match x.stage with
  | .complete => true
  | .failed seq => s.faultWritten c seq
  | _ => false

/-- A context's prologue ends with its launch failed, reported by the record queued last (R351, R358). -/
def State.endPrologue (s : State) (c : Nat) : State :=
  match (s.ctx c).prologue with
  | none => s
  | some q => (s.failPacket c q.packet).modCtx c (fun k => { k with prologue := none })

/-- Taking a trap at an address: the one operation every trap goes through (R182). A class-0 trap suspends the party
until PFRES (R406), a class-1 trap fails its task (R408) or its launch (R351), a class-2 trap freezes the team (R404);
steward code goes to its own handler (R170). -/
def State.takeTrap (s : State) (p : Party) (pc : Word64) (tr : TrapInfo) : State :=
  match p, s.team? p with
  | _, none => s
  | .steward d, some t => s.setTeam p { t with pc := Config.stewardHandler d, hold := .none }
  | .prologue c, some t =>
    match endChunk s p t 4 (toBytes 1 tr.cls ++ toBytes 1 tr.code) t.retired none with
    | .hold => s
    | .diverge s => s
    | .go s _ =>
      (s.queueFault { cls := tr.cls, code := tr.code, ctx := c, flags := 8 + s.replayFlag c, task := 0, team := 0
                      plate := pc, src := pc, addr := tr.addr, iter := 0xFFFFFFFF#32, commit := 0, lane := tr.lane
                      detail := tr.detail, time := s.time, cohort := 0, retries := 0 }).endPrologue c
  | _, some t =>
    match partyTask p with
    | none => s
    | some tid =>
      match s.task? tid, s.team? (.team tid (partyOrd p)) with
      | some k, some owner =>
        let isLead := decide (p = .lead tid (partyOrd p))
        let payload := toBytes 1 (tr.cls + 128 * b2n isLead) ++ toBytes 1 tr.code ++
          (if isLead then varint 10 t.retired else [])
        match endChunk s p owner 4 payload (owner.trapPoint tr.point) none with
        | .hold => s
        | .diverge s => s
        | .go s owner =>
          let s : State := s.setTeam (.team tid (partyOrd p)) owner
          let seq := (s.ctx k.ctx).faultSeq
          let r := s.trapRecord p tid k pc tr
          if tr.cls = 0 then
            let who := if isLead then Faulter.lead tid (partyOrd p) else Faulter.team tid (partyOrd p)
            let s : State := s.modCtx k.ctx (fun x =>
              { x with pageFaults := x.pageFaults ++ [{ seq := seq, va := tr.addr, lane := tr.lane, who := who }] })
            let s : State := match s.team? p with
              | some u => s.setTeam p { u with hold := .pageFault seq tr.addr }
              | none => s
            s.queueFault r
          else if tr.cls = 1 then
            (s.queueFault r).modTask tid (fun x =>
              { x with failing := some (x.failing.getD tr), primary := x.primary || !s.failingGang k })
          else
            (s.queueFault r).freezeTeam tid (partyOrd p)
      | _, _ => s

/-- The party that issued an engine operation, and the count of its instructions up to and with the one that did (R378). -/
def EngOp.party (o : EngOp) : Party := .team o.task o.ord
def State.opPoint (s : State) (o : EngOp) : Option Nat :=
  (s.team? o.party).bind (fun t => (t.pend.find? (fun x => x.id = o.op)).map (·.point))

/-- A trap of an engine operation, by the team that issued it (R150). -/
def State.engineTrap (s : State) (o : EngOp) (tr : TrapInfo) : State :=
  s.takeTrap o.party o.pc { tr with engine := true, point := s.opPoint o }

/-! ## Gang barriers -/

/-- A gang barrier before its first phase. -/
def GangBar.start : GangBar := { phase := 0, arrived := [] }

/-- Barrier `id` of a task's gang (R144). -/
def State.gangBar (s : State) (k : Task) (id : Nat) : GangBar := AMap.get GangBar.start s.gangBars (s.gangKey k * 4 + id)

/-- The core's pending-launch queue has a free entry, beside those that commits in progress will take (R155). -/
def State.launchRoom (s : State) (core : Nat) : Bool :=
  (s.core core).launches.length + (s.allTeams.filter (fun x => x.2.2.1.core = core && (match x.2.2.2.hold with
    | .commit (.launch _ _) => true
    | _ => false))).length < 4

/-- Whether a hold of a team that has issued is over: its barrier has left the phase (R143, R144), its service entry is
in the ring (R171), its mailbox holds a message, its queue has room (R211), its record, tile or ticket has been granted (R201). -/
def State.holdOver (s : State) (p : Party) (h : Hold) : Bool :=
  match h, s.taskOf p with
  | .none, _ => true
  | .bar id phase, some k => (AMap.get Barrier.start k.bars id).phase.toNat ≠ phase
  | .gbar id phase, some k =>
    (s.gangBar k id).phase ≠ phase
  | .recv b, _ => !(AMap.get [] s.mailboxes b).isEmpty
  | .full, some k => s.launchRoom k.core
  | .obres n len, some k =>
    !(s.core k.core).obQ.contains { task := (partyTask p).getD 0, ord := partyOrd p, n := n, len := len }
  | .tile x, some k => AMap.find (s.core k.core).holder x = some ((partyTask p).getD 0, partyOrd p)
  | .ticket true _, _ => s.ticket = some p
  | .ticket false _, some k => k.ticket = some (partyOrd p)
  | .post seq, _ => !(s.ctx (s.ctxOf p)).heldSvc.any (fun e => bytesAt e 24 4 = seq)
  | _, _ => false

/-- The team has ended, and its last instruction is over. -/
def State.gone (s : State) (p : Party) (t : Team) : Bool := t.ended && s.holdOver p t.hold

/-- Every team of every member has arrived or ended; a member that has not started keeps the phase open (R144). -/
def State.gangAllIn (s : State) (k : Task) (b : GangBar) : Bool :=
  (span 0 (s.gangCount k)).all (fun m =>
    match (s.gangTasks k).find? (fun e => s.gangMember e.2 = m) with
    | some e => e.2.teams.all (fun f => s.gone (.team e.1 f.1) f.2 || b.arrived.contains (e.1 * 8 + f.1))
    | none => false)

/-- A completed phase ends the chunk of a team that it releases (R209, R375). In a replay a record whose turn has not come is met
before the team's next instruction (R387). -/
def State.releaseTeam (s : State) (p : Party) : State :=
  match s.team? p with
  | none => s
  | some t => match endChunk s p t 0 [0#8] t.retired none with
    | .go s t => s.setTeam p t
    | .hold => s
    | .diverge s => s

/-- Completes the phase of a gang barrier when all are in, releasing every team that waits at it. -/
def State.gangCheck (s : State) (k : Task) (id : Nat) : State :=
  let b := s.gangBar k id
  if b.arrived.isEmpty || !s.gangAllIn k b then s
  else
    let waiting := (s.gangTasks k).flatMap (fun e =>
      (e.2.teams.filter (fun f => f.2.hold = .gbar id b.phase)).map (fun f => Party.team e.1 f.1))
    waiting.foldl State.releaseTeam { s with
      gangBars := AMap.put GangBar.start s.gangBars (s.gangKey k * 4 + id) { phase := b.phase + 1, arrived := [] } }

/-- What an ended team gives back: its tiles (R163), its lead slice and what is left in its lead queue (R160). -/
def State.endHoldings (s : State) (tid ord : Nat) (k : Task) : State :=
  let s := s.modTask tid (fun k => { k with
    leads := AMap.modify k.leads ord (fun l => { l with ended := true })
    teams := AMap.modify k.teams ord (fun t => { t with leadQ := [] }) })
  s.modCore k.core (fun c => { c with
    holder := c.holder.filter (fun h => h.2 ≠ (tid, ord))
    tileQ := AMap.mapVals (fun _ q => q.filter (fun h => h ≠ (tid, ord))) c.tileQ
    locks := c.locks.filter (fun r => !(r.lead && r.task = tid && r.ord = ord)) })

/-- A team has ended: it gives back what it holds, and counts as arrived in gang barriers from here on (R144). -/
def State.teamEnded (s : State) (p : Party) : State :=
  match p, s.taskOf p with
  | .team tid ord, some k => (span 0 4).foldl (fun s id => s.gangCheck k id) (s.endHoldings tid ord k)
  | _, _ => s

/-! ## Debug steps -/

/-- Ends a stream's wait in `dstep` with a status (R180). -/
def Team.stepEnds (t : Team) (task ord : Nat) (status : Nat) : Team :=
  match t.hold with
  | .step a b d _ => if a = task && b = ord then { (t.setK d (BitVec.ofNat 32 status)) with hold := .none } else t
  | _ => t

/-- Ends a step of a team: it freezes again, a STEP record naming the stepped instruction is written, and the `dstep` or the request
that waits gets its status (R180, R430). -/
def State.endStep (s : State) (task ord : Nat) (pc : Word64) (status : Nat) : State :=
  match s.team? (.team task ord) with
  | none => s
  | some t =>
    if t.freeze ≠ .stepping then s
    else
      let s := s.takeTrap (.team task ord) pc
        { cls := 2, code := 50, addr := 0#64, lane := 0xFFFF, detail := BitVec.ofNat 32 status, engine := false }
      { s with
        stewards := AMap.mapVals (fun _ x => { x with team := x.team.stepEnds task ord status }) s.stewards
        ctxs := AMap.mapVals (fun _ x => { x with
          prologue := x.prologue.map (fun q => { q with team := q.team.stepEnds task ord status })
          stepReq := x.stepReq.map (fun r =>
            if r.task = task && r.ord = ord && r.status.isNone then { r with status := some status } else r) }) s.ctxs }

/-- A trap taken as a word issues or completes: a step of the team ends after the trap's record, blocked when a page
fault suspends it (R180; log 16). -/
def State.raiseTrap (s : State) (p : Party) (pc : Word64) (tr : TrapInfo) : State :=
  let s := s.takeTrap p pc tr
  match p with
  | .team task ord => if tr.cls = 2 then s else s.endStep task ord pc (b2n (tr.cls = 0))
  | _ => s

/-- The address of the instruction at which a team stands: the one that still holds it, else its next. -/
def State.standsAt (s : State) (p : Party) (t : Team) : Word64 :=
  match t.hold with
  | .none | .walk _ _ _ | .pageFault _ _ => t.pc
  | h => if h.fresh || s.holdOver p h then t.pc else t.ipc

/-- The debug break of `brk` (R27): whether it has been taken; under replay it waits for its turn (R385). -/
def State.breakTeam (s : State) (p : Party) (t : Team) : State × Bool :=
  let s' := (s.setTeam p { t with brk := false }).takeTrap p t.ipc
    { cls := 2, code := 49, addr := 0#64, lane := 0xFFFF, detail := 0#32, engine := false }
  match s'.team? p with
  | some u => if u.freeze = .frozen then (s', true)
    else if s'.replay = s.replay then (s, false) else (s', false)
  | none => (s', false)

/-- A stepped team that has broken is still being stepped until its STEP record is written (R180). -/
def State.restep (s : State) (p : Party) : State :=
  match s.team? p with
  | some t => s.setTeam p { t with freeze := .stepping }
  | none => s

/-- What follows once nothing holds a team after its instruction: `brk` breaks (R27), an ended team gives back what it
holds, a step ends (R180). A frozen team moves past its instruction only at its next step or release (R405). -/
def State.settle (s : State) (p : Party) : State :=
  match p, s.team? p with
  | .team task ord, some t =>
    if !s.holdOver p t.hold || t.hold.fresh then s
    else if t.freeze = .frozen then (if t.ended then s.teamEnded p else s)
    else
      let r := if t.brk then s.breakTeam p t else (s, true)
      if !r.2 then r.1
      else
        let s := if t.ended then r.1.teamEnded p else r.1
        if t.freeze = .stepping then (s.restep p).endStep task ord t.ipc 0 else s
  | _, _ => s

/-- Changes the team of a party, and settles it if something held it after its instruction. -/
def State.resume (s : State) (p : Party) (f : Team → Team) : State :=
  match s.team? p with
  | some t => if t.hold = .none then s.setTeam p (f t) else (s.setTeam p (f t)).settle p
  | none => s

/-! ## Issue -/

/-- What holds a party where it stands. -/
def State.holdAt (s : State) (p : Party) : Hold :=
  match s.team? p with
  | some t => t.hold
  | none => .none

/-- Whether an operation of a team is still outstanding. -/
def Team.outstanding (t : Team) (id : Nat) : Bool := t.pend.any (fun x => x.id = id && !x.done)

/-- A team that yielded is ready again (R204); the partition's choice covers a yield with no other ready team. -/
def Team.yieldOver (t : Team) : Bool :=
  match t.yld with
  | .none => true
  | .onOp id => !t.outstanding id
  | .onTurn passed => passed

/-- Whether a party that yielded may go on. Code that runs on no partition has no other team to wait for: DESIGN CHOICE, a yield of it
that started no operation is over at once (R26 and R204 speak of a partition's picks; log 13). -/
def yieldDone (p : Party) (t : Team) : Bool :=
  t.yieldOver || (match p with
    | .team _ _ => false
    | _ => t.yld = .onTurn false)

/-- A hit's stop has reached a task's cluster: from 6 arithmetic clocks after the hit no instruction of its context starts there (R391,
R402). -/
def Hit.reached (h : Hit) (s : State) : Bool := !h.stopped && decide (h.since + 6 ≤ s.ac)
def State.stopping (s : State) (k : Task) : Bool :=
  match (s.cluster (clusterOf k.core)).hit with
  | some h => h.ctx = k.ctx && h.reached s
  | none => false

/-- The team's chunk holds 65,536 instructions under recording: it ends before the next one (R375). -/
def State.chunkFull (s : State) (p : Party) (t : Team) : Bool :=
  (match p with
   | .team _ _ => true
   | _ => false) && s.recording (s.ctxOf p) && decide (65536 ≤ t.retired - t.chunk.begun)

/-- The clocks let a context's tasks issue: those of level 2 at the locked clocks only (R369, R451). -/
def State.clocksFit (s : State) (c : Nat) : Bool :=
  (s.ctx c).level.level ≠ 2 || (s.power.arith = 600 && s.power.uncore = 1200)

/-- Nothing holds the stream at its next instruction (R201, R369, R375, R404, R408). -/
def State.canIssue (s : State) (p : Party) (t : Team) : Bool :=
  !t.ended && s.holdOver p t.hold && yieldDone p t && t.freeze ≠ .frozen && !s.chunkFull p t &&
  !s.replayDead (s.ctxOf p) &&
  (match s.taskOf p with
   | none => partyTask p = none
   | some k =>
     k.resident && !k.finished && !s.failingGang k && !(s.ctx k.ctx).snapPaused && !s.stopping k && s.clocksFit k.ctx &&
     (match p with
      | .lead tid o => (match s.team? (.team tid o) with
        | some u => !s.gone (.team tid o) u && u.freeze = .no
        | none => false)
      | _ => true))

/-- The stream as its next instruction finds it: what held it is over. -/
def Team.released' (t : Team) : Team := { t with hold := .none, yld := .none }

/-- Registers that a word names, with the spans that md.type gives it. -/
def named (i : Instr) (t : Team) : List Nat :=
  let u := uses (mdType t.md) i
  (u.dst ++ u.src).flatMap (fun r => if r.pair then [r.spec, r.spec + 1] else [r.spec]) ++
    (spans t.md i).flatMap (fun p => span p.1 p.2)

/-- The interlock of R130. -/
def interlocked (i : Instr) (t : Team) : Bool :=
  let w := (t.pend.filter (fun x => !x.done)).flatMap Pend.writes
  !w.isEmpty && (named i t).any (fun r => w.contains r)

/-- The instruction's counter stands at its maximum (R129). -/
def counterFull (i : Instr) (t : Team) : Bool :=
  match counterOf i with
  | some c => c.max ≤ t.count c
  | none => false

/-- The instruction executes per lane, one pass for each active group (R200). -/
def perLane (i : Instr) (t : Team) : Bool :=
  let u := uses (mdType t.md) i
  u.dst.any (fun r => r.spec < 96) || u.pdst.any (fun p => p.1 < 8) ||
    (u.dst.isEmpty && u.pdst.isEmpty && u.src.any (fun r => r.spec < 96))

/-- Passes of an instruction (R200): one per active group when it executes per lane, else one. -/
def passesOf (i : Instr) (t : Team) : Nat := if perLane i t then t.activeGroups else 1

/-- The register lines that the passes of a word read or write: of the registers it names, those of the groups it sweeps; the one
pass of a word that executes once reads the lowest active lane (R82, R200). -/
def linesNamed (i : Instr) (t : Team) : List Nat :=
  let active := (span 0 t.groups).filter (fun g => (span (32 * g) 32).any (fun l => t.mask.getLsbD l))
  let gs := if perLane i t then active else active.take 1
  ((named i t).filter (· < 96)).flatMap (fun r => gs.map (fun g => r * 32 + g))

/-- A line that the word's passes read or write lies in the team's frame: it is filled first (R200, R206). -/
def unfilled (i : Instr) (t : Team) : Bool :=
  !t.evicted.isEmpty && (linesNamed i t).any (fun l => t.evicted.contains l)

/-- How an instruction's own effect ends. -/
inductive Res where
  /-- It completes, and its sequencing code acts; the second says which operation it started, if any (R26). -/
  | ok (s : State) (t : Team)
  | started (s : State) (t : Team) (op : Nat)
  /-- It completes with a transfer in place of its sequencing code (R75). -/
  | jump (s : State) (t : Team) (pc : Word64)
  /-- It has issued, and its sequencing code acts when it completes (R137). -/
  | open (s : State) (t : Team)
  | trap (tr : TrapInfo)
  /-- A translation is missing: a walk begins, and the word issues afresh after it (R272). -/
  | walk (va : Word64) (how : How) (lane : Nat)
  /-- It cannot begin yet (R201). -/
  | wait
  /-- It cannot begin, and the team waits at it, in its place in a queue (R201). -/
  | hold (s : State) (w : Hold)
  /-- The replay has stopped (R386). -/
  | diverged (s : State)
  | stop (f : Fault)

/-- The word of an instruction, for the detail of a record (R184). -/
def wordDetail (i : Instr) : Nat := encodeNat i

/-- The stream as an instruction starts: its address noted, its count and passes added. -/
def Team.begin (t : Team) (i : Instr) : Team :=
  { t with ipc := t.pc, retired := t.retired + 1, passes := t.passes + passesOf i t }

/-- `brk` breaks a team of a context that has debug enabled. Steward code runs for no context and is no team that could freeze:
DESIGN CHOICE, its `brk` acts as `n` (R27; log 13). -/
def State.breaks (s : State) (p : Party) : Bool :=
  match p with
  | .team _ _ => s.debugOn (s.ctxOf p)
  | _ => false

/-- The sequencing code acts after the instruction's own effect (R11, R25); its trap leaves all as it was (R10). -/
def finish (h : Hdr) (s0 : State) (p : Party) (pc : Word64) (op : Option Nat) (s : State) (t : Team) : Out :=
  match seqAct h.seq.toNat op (s.breaks p) t with
  | .ok t => .next ((s.setTeam p t).settle p)
  | .error e => .next (s0.raiseTrap p pc (trapOf e.code e.addr e.detail))

/-- A prologue that has issued 256 instructions fails at the next (R351). -/
def State.prologueSpent (s : State) (p : Party) : Bool :=
  match p with
  | .prologue c => (match (s.ctx c).prologue with
    | some q => 256 ≤ q.issued
    | none => false)
  | _ => false

/-- Counts an instruction issued by a prologue (R351). -/
def State.countIssue (s : State) (p : Party) : State :=
  match p with
  | .prologue c => s.modCtx c (fun k => { k with prologue := k.prologue.map (fun q => { q with issued := q.issued + 1 }) })
  | _ => s

/-- What the word itself decides before its effect, in the order of R48, R351, R130, R129 and R139: a trap, a wait
(`some none`), or nothing. -/
def State.preIssue (s : State) (p : Party) (i : Instr) (t : Team) : Option (Option TrapInfo) :=
  match failedCheck i t with
  | some c => some (some (trapOf c 0#64 (wordDetail i)))
  | none =>
    if s.prologueSpent p then some (some (trapOf 16 0#64 (wordDetail i)))
    else if unfilled i t || interlocked i t || counterFull i t then some none
    else if txMisuse i t then some (some (trapOf 28 0#64 (wordDetail i)))
    else none

/-- Issues a word for the party whose move it is. -/
def issue (i : Instr) (h : Hdr) (s : State) (eff : State → Party → Team → Res) : Out :=
  match s.cur with
  | none => .refused .noIssuer
  | some p =>
    match s.team? p with
    | none => .refused .noIssuer
    | some t =>
      if !s.canIssue p t then .next s
      else
        let t := t.released'
        match s.preIssue p i t with
        | some none => .next s
        | some (some tr) => .next ((s.setTeam p t).raiseTrap p t.pc tr)
        | none =>
          let s0 := s.setTeam p { t with passes := t.passes + passesOf i t }
          match eff (s.countIssue p) p (t.begin i) with
          | .ok s' t' => finish h s0 p t.pc none s' t'
          | .started s' t' op => finish h s0 p t.pc (some op) s' t'
          | .jump s' t' pc =>
            (match goTo t' pc with
             | .ok t' => .next ((s'.setTeam p t').settle p)
             | .error e => .next (s0.raiseTrap p t.pc (trapOf e.code e.addr e.detail)))
          | .open s' t' => .next (s'.setTeam p t')
          | .trap tr => .next (s0.raiseTrap p t.pc tr)
          | .walk va how lane => .next (s0.resume p (fun t => { t with hold := .walk va how.code lane }))
          | .hold s' w => .next (s'.setTeam p { t with hold := w })
          | .wait => .next s
          | .diverged s' => .next s'
          | .stop f => .fault f

/-- Issues a word that only changes the stream's own state. -/
def issueTeam (i : Instr) (h : Hdr) (s : State) (f : Team → Team) : Out :=
  issue i h s (fun s _ t => .ok s (f t))

/-- The result of an event that ends a chunk, as a result of the instruction (R375, R385). -/
def chunked (s : State) (p : Party) (t : Team) (kind : Nat) (payload : List Byte) (k : State → Team → Res) : Res :=
  match endChunk s p t kind payload t.retired none with
  | .go s t => k s t
  | .hold => .wait
  | .diverge s => .diverged s

end Sys2Proof.Machine
end

