-- ==== Sys2Proof/Machine/Watch.lean ====
section
/-!
DEFINITION. What an access leaves beside its effect: the regions and leases of the agent that makes it (R267, R268), the
lines its task has touched, and watchpoints: which accesses hit (R400, R401) and what a hit sets going (R391, R402).
-/

namespace Sys2Proof.Machine

/-! ## Regions and leases -/

/-- The region of a lease holds a 128-byte line. -/
def Lease.covers (x : Lease) (line : Nat) : Bool := x.base ≤ 128 * line && 128 * line < x.base + x.size

/-- Splits a lease's region on the half that holds a line, until the line and those that its agent has touched lie apart
(R267): the regions the agent keeps, and the one that is given up. -/
def Lease.cut (line : Nat) : Nat → Lease → List Lease × (Nat × Nat)
  | 0, x => ([], (x.base, x.size))
  | n + 1, x =>
    if x.size ≤ 128 || x.lines.isEmpty then ([], (x.base, x.size))
    else
      let h := x.size / 2
      let lo : Lease := { x with size := h, lines := x.lines.filter (fun l => 128 * l < x.base + h) }
      let hi : Lease := { x with base := x.base + h, size := h, lines := x.lines.filter (fun l => x.base + h ≤ 128 * l) }
      let inLo := decide (128 * line < x.base + h)
      let r := Lease.cut line n (if inLo then lo else hi)
      ((if inLo then hi else lo) :: r.1, r.2)

/-- The largest aligned block of up to 64 KiB that holds a line and meets no region held. -/
def freeBlock (line : Nat) (all : List Lease) : Nat → Nat × Nat
  | 0 => (128 * line, 128)
  | k + 1 =>
    let size := 128 * 2 ^ (k + 1)
    let base := 128 * line / size * size
    if all.any (fun x => x.base < base + size && base < x.base + x.size) then freeBlock line all k else (base, size)

/-- An agent asks for a line, to share or to own it (R267): holds that conflict are split away from it, and what their
agents held of it newer than memory is written back. -/
def State.request (s : State) (agent line : Nat) (own : Bool) : State :=
  match s.leases.find? (fun x => x.agent = agent && x.covers line && (x.owned || !own)) with
  | some x =>
    if x.lines.contains line then s
    else { s with leases := s.leases.map (fun y => if y = x then { x with lines := line :: x.lines } else y) }
  | none =>
    let conf := s.leases.filter (fun x => x.agent ≠ agent && x.covers line && (x.owned || own))
    let cuts := conf.map (Lease.cut line 10)
    let rest := s.leases.filter (fun x => !conf.contains x)
    let block : Nat × Nat := match cuts, rest.find? (fun x => x.covers line) with
      | c :: cs, _ => cs.foldl (fun b d => if d.2.2 < b.2 then d.2 else b) c.2
      | [], some x => (x.base, x.size)
      | [], none => freeBlock line s.leases 9
    let new : Lease := { agent := agent, base := block.1, size := block.2, owned := own, granted := s.time
                         renewed := s.time, lines := [line] }
    { s with
      leases := new :: cuts.flatMap (·.1) ++ rest
      dirty := s.dirty.filter (fun d => !(conf.any (fun x => x.agent = d.agent) && block.1 ≤ d.addr &&
        d.addr < block.1 + block.2)) }

/-- An access of a task to [pa, pa + n) of memory: its C-die holds the lines, and the task has touched them (R267, R268). -/
def State.touch (s : State) (task core pa n : Nat) (write : Bool) : State :=
  let lines := span (pa / 128) ((pa + n - 1) / 128 - pa / 128 + 1)
  let s := lines.foldl (fun s l => s.request (dieOf core) l write) s
  s.modTask task (fun k => { k with touched := lines.foldl (fun m l => AMap.set m l s.time) k.touched })

/-! ## Watchpoints -/

/-- Who makes an access, for the record of a hit (R393). -/
structure Accessor where
  /-- Its task, or none for a prologue and a steward. -/
  task : Option Nat
  ord : Nat
  lead : Bool
  engine : Bool
  pc : Word64
  deriving DecidableEq, Repr

/-- Instructions begun so far by the teams of a context on a cluster, by team field, with the one that is being issued (R392). -/
def State.clusterCounts (s : State) (cluster c : Nat) : AMap Nat :=
  s.allTeams.foldl (fun m x =>
    if clusterOf x.2.2.1.core = cluster && x.2.2.1.ctx = c && x.2.2.1.resident && !x.2.2.2.released then
      AMap.set m (teamField x.2.2.1.core x.2.2.2.partition x.2.2.2.slot)
        (x.2.2.2.retired + b2n (s.cur = some (.team x.1 x.2.1)))
    else m) []

/-- Marks the stop that a hit sends to a cluster, unless one is already in force there (R393, R404). It sets out `later` arithmetic
clocks after the access. -/
def State.sendStop (s : State) (cluster c wp : Nat) (a : Accessor) (addr : Word64) (lane later : Nat) : State :=
  let k := s.cluster cluster
  let hit : Hit :=
    { ctx := c, wp := wp, task := a.task.getD 0, ord := a.ord, lead := a.lead, engine := a.engine, pc := a.pc, addr := addr
      lane := lane, counts := s.clusterCounts cluster c, since := s.ac + later, stopped := false }
  if k.hit.isSome || !k.stops.isEmpty then s else s.setCluster cluster { k with hit := some hit }

/-- A watchpoint of a cluster matches an access to [at, at + n) of a space: a virtual address of a context, or an offset
in the scratchpad of a task (R400, R401). -/
def State.watchMatches (s : State) (cluster n : Nat) (c : Nat) (owner : Option Nat) (reads writes : Bool)
    (lo len : Nat) : Bool :=
  let w := (s.reg (rWPCTL cluster n)).toNat
  let kind := nbits w 0 2
  let size := 2 ^ nbits w 13 5
  let base := (s.reg (rWPADDR cluster n)).toNat / size * size
  ((writes && nbit kind 0) || (reads && nbit kind 1)) && nbits w 4 6 = c && s.debugOn c &&
  (match owner with
   | none => nbits w 2 2 = 0
   | some t => match s.task? t with
     | none => false
     | some k => if nbits w 2 2 = 1 then s.gangMember k = nbits w 18 4
                 else nbits w 2 2 = 2 && nbits w 18 14 = t) &&
  lo < base + size && base < lo + len

/-! ## The L1 (R227 to R229, R276) -/

/-- Lines of an L1: 256 KiB of 128 bytes (R4). -/
def l1Lines : Nat := 2048

/-- The core whose L1 caches a line that a core accesses: in fused mode that of core (a >> 7) AND 7 of the cluster (R229). -/
def State.l1Core (s : State) (core line : Nat) : Nat :=
  if (s.cluster (clusterOf core)).fused then 8 * clusterOf core + line % 8 else core

/-- The C-die L1s may hold a line: its block has device bias (R276), and its page is not of type NC (R270). -/
def State.l1Caches (s : State) (core ctx line : Nat) (va : Word64) : Bool :=
  AMap.get false s.bias (128 * line / 2 ^ 16) &&
  (match ((s.core core).tlb ++ (s.cluster (clusterOf core)).tlb).find? (fun e =>
      e.ctx = ctx && e.lo ≤ va.toNat && va.toNat < e.lo + e.size) with
   | some e => e.flags / 1024 ≠ 1
   | none => (s.leafOf ctx va.toNat).any (fun l => l.flags / 1024 ≠ 1))

/-- A line joins an L1; a full one gives up a line that no rule names (log 53). -/
def l1Insert (victim line : Nat) (l1 : List Nat) : List Nat :=
  if l1.contains line then l1
  else line :: (if l1.length < l1Lines then l1 else l1.eraseIdx (victim % l1Lines))

/-- A core's access to a line goes through its L1: counted, with a miss when the line is not held (R179, R229; log 53). -/
def State.l1Access (s : State) (core line : Nat) : State :=
  s.modCore (s.l1Core core line) (fun k =>
    let n := AMap.get 0 k.counters 3 + 1
    let m := AMap.get 0 k.counters 4 + (if k.l1.contains line then 0 else 1)
    { k with counters := AMap.put 0 (AMap.put 0 k.counters 3 n) 4 m
             l1 := l1Insert (Config.freeWord s.tick).toNat line k.l1 })

/-- A line leaves the L1 that would hold it. -/
def State.l1Evict (s : State) (core line : Nat) : State :=
  s.modCore (s.l1Core core line) (fun k => { k with l1 := k.l1.filter (· ≠ line) })

/-- An atomic takes lines from the L1s: one below `.clu` holds them exclusive at its core's, one of a wider scope acts beyond them all
(R132, R229, R242). -/
def State.l1Atomic (s : State) (core : Option Nat) (lines : List Nat) : State :=
  { s with cores := AMap.mapVals (fun c k => { k with l1 := k.l1.filter (fun l => !lines.contains l ||
      core.any (fun own => s.l1Core own l = c)) }) s.cores }

/-- Every L1 is invalidated in the lines that the test names. -/
def State.l1Drop (s : State) (test : Nat → Bool) : State :=
  { s with cores := AMap.mapVals (fun _ k => { k with l1 := k.l1.filter (fun l => !test l) }) s.cores }

/-- A global access of a team at its L1 (R227). -/
def State.l1Touch (s : State) (p : Party) (va : Word64) (pa n : Nat) : State :=
  match p with
  | .team _ _ => (linesOf pa n).foldl (fun s l =>
      if s.l1Caches (s.coreOf p) (s.ctxOf p) l va then s.l1Access (s.coreOf p) l else s) s
  | _ => s

/-- An access to the `len` watched bytes from `lo` on, of a scratchpad's offset or virtual address, is a hit of the lowest watchpoint
of the watching cluster that matches (R391, R402); with a stop in force or on its way there it sends none (R393, R404). -/
def State.watchSpan (s : State) (a : Accessor) (k : Task) (loc : Loc) (reads writes : Bool) (formed : Word64) (lo len lane : Nat) :
    State :=
  let own := clusterOf k.core
  let target : Nat × Option Nat := match loc with
    | .glob _ => (own, none)
    | .spd t _ => (match s.task? t with
      | some o => clusterOf o.core
      | none => own, some t)
  match (span 0 4).find? (fun n => s.watchMatches target.1 n k.ctx target.2 reads writes lo len) with
  | none => s
  | some n =>
    let there := s.cluster target.1
    if there.hit.isSome || !there.stops.isEmpty then s
    else (s.sendStop target.1 k.ctx n a formed lane 0).sendStop own k.ctx n a formed lane (Config.freeWord s.tick).toNat

/-- An access performed joins the signature and the lines touched, and the lowest watchpoint that the `len` watched bytes from `lo` on
hit stops the cluster that watches, and the accessor's (R391); an access by a prologue or a steward only recalls what application cores
hold newer (R276); to another cluster than the one that watches, the stop sets out when the
access's reply returns there, after a free number of clocks (R402; log 14). `formed` is the address as the instruction formed it. -/
def State.watchAt (s : State) (a : Accessor) (loc : Loc) (reads writes : Bool) (formed : Word64) (lo len lane : Nat) :
    State :=
  match a.task, a.task.bind s.task? with
  | some tid, some k =>
    let s := if a.engine then s else s.sign tid a.ord loc len writes
    let s := match loc with
      | .glob pa => s.touch tid k.core pa len writes
      | .spd _ _ => s
    s.watchSpan a k loc reads writes formed lo len lane
  | _, _ => match loc with
    | .glob pa => s.recall pa len
    | .spd _ _ => s

/-- An access performed at the bytes that its address names: virtual bytes of memory, or bytes of a scratchpad (R401). -/
def State.watch (s : State) (a : Accessor) (loc : Loc) (reads writes : Bool) (formed : Word64) (len lane : Nat) : State :=
  s.watchAt a loc reads writes formed (match loc with
    | .glob _ => formed.toNat
    | .spd _ off => off) len lane

end Sys2Proof.Machine
end

