-- ==== Sys2Proof/Machine/Access.lean ====
section
/-!
DEFINITION. The accesses of memory instructions: the address spaces of R121, the checks of R122 lane by lane, the
range-lock table's answer (R244, R245), tracking in an open transaction (R136), and starting the operation (R125 to
R134).
-/

namespace Sys2Proof.Machine

/-! ## Storage -/

/-- Bytes of a task's scratchpad, wherever they lie (R340). -/
def State.scratchOf (s : State) (t : Nat) : AMap Byte :=
  match s.task? t with
  | some k => if k.scratchAway then s.framedScratch k else k.scratch
  | none => []

/-- The outstanding engine operations and collectives of a task. -/
def State.opsOf (s : State) (t : Nat) : List EngOp :=
  match s.task? t with
  | some k =>
    let c := s.core k.core
    (c.engines.flatMap (·.2) ++ c.colls).filter (fun o => o.task = t)
  | none => []

/-- The byte that an outstanding operation has written at an address (R149). -/
def EngOp.byteAt (o : EngOp) (pa : Nat) : Option Byte := (o.out.find? (fun e => e.1 = .mem (.glob pa))).map (·.2)

/-- A load that reaches bytes of an outstanding operation, which it can through another virtual address only, returns the old
byte or the engine's, byte by byte; which is free (R245; log 14). -/
def meetEngine (ops : List EngOp) (choice pa : Nat) : List Byte → List Byte
  | [] => []
  | b :: bs =>
    (match ops.findSome? (fun o => o.byteAt pa) with
     | some e => if nbit choice (pa % 32) then e else b
     | none => b) :: meetEngine ops choice (pa + 1) bs

/-- A little-endian value at a place, as a task sees it (R225). -/
def State.readLoc (s : State) (task : Option Nat) (l : Loc) (n : Nat) : Nat :=
  match l with
  | .glob pa =>
    (match (match task with
      | some t => s.opsOf t
      | none => []) with
     | [] => readNat (s.view task) pa n
     | ops => ofBytes (meetEngine ops (Config.freeWord s.tick).toNat pa (readBytes (s.view task) pa n)))
  | .spd t off => readNat (s.scratchOf t) off n

/-- Writes bytes of a scratchpad, over any error that stood there. -/
def State.writeScratch (s : State) (t off : Nat) (data : List Byte) : State :=
  State.cleanse (match s.task? t with
    | some k => if k.scratchAway then s.poke (k.scratchFrame + off) data
      else s.setTask t { k with scratch := writeBytes k.scratch off data }
    | none => s) (Site.inScratch t off data.length)

/-- A write of a task meets bytes that its outstanding operations have written, through another virtual address: they may or may
not overwrite it (R245). -/
def EngOp.besideWrite (o : EngOp) (pa n : Nat) : EngOp :=
  { o with beside := o.beside ++ (span pa n).filter (fun a => (o.byteAt a).isSome && !o.beside.contains a) }

def State.besideWrite (s : State) (t pa n : Nat) : State :=
  if (s.opsOf t).any (fun o => (span pa n).any (fun a => (o.byteAt a).isSome)) then
    let mark (o : EngOp) : EngOp := if o.task = t then o.besideWrite pa n else o
    s.modCore (s.coreOf (.team t 0)) (fun c => { c with
      engines := AMap.mapVals (fun _ q => q.map mark) c.engines, colls := c.colls.map mark })
  else s

/-- Adds a write to a task's version, unless the version pool has no room for it (R256, R258). A party without a task
writes committed memory. -/
def State.versionWrite (s : State) (task : Option Nat) (w : VWrite) : Option State :=
  match task with
  | none => some (((s.hitLines none (linesOf w.extent.1 w.extent.2)).applyNow w).textWritten [w.extent])
  | some t => match s.task? t with
    | none => some s
    | some k =>
      if s.poolRoom t (k.version ++ [w]) then
        some ((s.besideWrite t w.extent.1 w.extent.2).setTask t { k with version := k.version ++ [w] })
      else none

/-- Stores bytes at a place. -/
def State.storeLoc (s : State) (task : Option Nat) (l : Loc) (data : List Byte) : Option State :=
  match l with
  | .glob pa => s.versionWrite task (.bytes pa data)
  | .spd t off => some (s.writeScratch t off data)

/-! ## Addresses -/

/-- The address spaces of R121. -/
inductive Space where
  | global | own | gang
  deriving DecidableEq, Repr

/-- What the checks of R122 find for one access. -/
inductive LaneRes where
  | ok (l : Loc)
  /-- A failing trap of the given code. -/
  | fail (code : Nat)
  | page
  | miss
  /-- It waits: for a gang member that has not started (R215), or while a page table's region changes (R277, R279). -/
  | notStarted
  | nowhere (pa : Nat)
  deriving DecidableEq, Repr

/-- Translates a virtual address for a party (R270, R272). -/
def State.resolveGlobal (s : State) (p : Party) (how : How) (va : Word64) : State × LaneRes :=
  let r : State × Xlat := match p with
    | .team _ _ | .lead _ _ => (s, s.lookup (s.coreOf p) (s.ctxOf p) .user how va.toNat)
    | _ => s.xlatNow (s.ctxOf p) .sup how va.toNat
  (r.1, match r.2 with
    | .ok pa => .ok (.glob pa)
    | .miss => .miss
    | .noTranslation => .page
    | .denied => .fail 21
    | .busy => .notStarted
    | .nowhere pa => .nowhere pa)

/-- An offset in the party's own scratchpad (R121). -/
def State.resolveOwn (s : State) (p : Party) (addr : Nat) : LaneRes :=
  match partyTask p, s.taskOf p with
  | some t, some k => if addr < k.scratchSize then .ok (.spd t addr) else .fail 21
  | _, _ => .fail 21

/-- A gang scratchpad address (R121, R215). `inTx` tells that the lane is in a transaction, in which another member's
scratchpad is TX_MISUSE before any range test (R122, R139). -/
def State.resolveGang (s : State) (p : Party) (addr : Nat) (inTx : Bool) : LaneRes :=
  match partyTask p, s.taskOf p with
  | some t, some k =>
    let member := nbits addr 20 4
    let off := addr % 2 ^ 20
    if !nbit addr 24 then
      (if addr / 2 ^ 25 = 0 && member = 0 && off < k.scratchSize then .ok (.spd t off) else .fail 21)
    else if inTx && member ≠ s.gangMember k then .fail 28
    else if addr / 2 ^ 25 ≠ 0 || s.gangCount k ≤ member || k.scratchSize ≤ off then .fail 21
    else match (s.gangTasks k).find? (fun e => s.gangMember e.2 = member) with
      | some e => .ok (.spd e.1 off)
      | none => .notStarted
  | _, _ => .fail 21

/-- An address of a space. -/
def State.resolve (s : State) (p : Party) (sp : Space) (how : How) (addr : Word64) (inTx : Bool) : State × LaneRes :=
  match sp with
  | .global => s.resolveGlobal p how addr
  | .own => (s, s.resolveOwn p addr.toNat)
  | .gang => (s, s.resolveGang p addr.toNat inTx)

/-- Whose scratchpads a range of gang scratchpad addresses of a task covers, with the first and last offset in each (R121,
R215). -/
def State.spdParts (s : State) (task lo hi : Nat) : List (Nat × Nat × Nat) :=
  match s.task? task with
  | none => []
  | some k =>
    ((0, task) :: (s.gangTasks k).map (fun e => (2 ^ 24 + 2 ^ 20 * s.gangMember e.2, e.1))).filterMap (fun w =>
      if lo < w.1 + 2 ^ 20 && w.1 ≤ hi then some (w.2, max lo w.1 - w.1, min hi (w.1 + 2 ^ 20 - 1) - w.1) else none)

/-- A registered range covers bytes of a scratchpad (R245). -/
def State.spdMeets (s : State) (r : RangeLock) (owner off n : Nat) : Bool :=
  !r.ob && r.spd && (s.spdParts r.task r.lo r.hi).any (fun x => x.1 = owner && meets x.2.1 x.2.2 off (off + n - 1))

/-- The range-lock table forbids an access of a team: a write meets any range of its task, a read a destination; a
scratchpad range binds every party (R245). -/
def State.rangeLocked (s : State) (p : Party) (l : Loc) (va : Word64) (n : Nat) (write : Bool) : Bool :=
  match l with
  | .glob _ =>
    (s.core (s.coreOf p)).locks.any (fun r => !r.ob && !r.spd && some r.task = partyTask p &&
      meets r.lo r.hi va.toNat (va.toNat + n - 1) && (write || r.dest))
  | .spd t off => s.cores.any (fun c => c.2.locks.any (fun r => (write || r.dest) && s.spdMeets r t off n))

/-- The checks of R122 for one access, in order: alignment, space, range lock. -/
def State.checkAccess (s : State) (p : Party) (sp : Space) (how : How) (addr : Word64) (n : Nat) (inTx : Bool) :
    State × LaneRes :=
  if addr.toNat % n ≠ 0 then (s, .fail 20)
  else match s.resolve p sp how addr inTx with
    | (s, .ok l) => if s.rangeLocked p l addr n (decide (how = .store)) then (s, .fail 22) else (s, .ok l)
    | r => r

/-! ## Transactions: tracking (R136) -/

/-- The lane is in the team's open transaction. -/
def Team.inTx (t : Team) (l : Nat) : Bool :=
  match t.tx with
  | some x => x.lanes.getLsbD l
  | none => false

def LaneTx.doomed (x : LaneTx) : Bool := x.doom.isSome || x.fault.isSome

/-- Key of a tracked byte: its physical address, or its offset in the cohort's scratchpad. -/
def Loc.key : Loc → Nat
  | .glob pa => pa
  | .spd _ off => off

/-- The lane's own latest value of a byte, if it has written it. -/
def LaneTx.own (x : LaneTx) (a : Nat) : Option Byte := (x.wr.reverse.find? (fun e => e.1 = a)).map (·.2)

/-- A value as the lane sees it: its own bytes over memory. -/
def LaneTx.see (x : LaneTx) (a : Nat) : List Byte → List Byte
  | [] => []
  | b :: bs => (x.own a).getD b :: LaneTx.see x (a + 1) bs

/-- A load by a lane in a transaction, of the bytes `mem` at `a`, which lie in the sector whose 32 bytes are `sector`: the sector
joins the read set with its value, and a later load of it records the values it reads (R136, R137). -/
def LaneTx.load (x : LaneTx) (a : Nat) (mem sector : List Byte) : LaneTx × Nat :=
  let v := ofBytes (x.see a mem)
  let sec := a / 32
  if x.doomed || x.wrSec.contains sec then (x, v)
  else if x.rdSec.contains sec then
    ({ x with rd := x.rd ++ (List.zip (span a mem.length) mem).filter (fun e => !x.rd.contains e) }, v)
  else if 8 ≤ x.rdSec.length then ({ x with doom := some (3, 0) }, v)
  else ({ x with rdSec := x.rdSec ++ [sec], rd := x.rd ++ List.zip (span (32 * sec) 32) sector }, v)

/-- A store by a lane in a transaction (R136). -/
def LaneTx.store (x : LaneTx) (a : Nat) (data : List Byte) : LaneTx :=
  let sec := a / 32
  if x.doomed then x
  else if !x.wrSec.contains sec && 4 ≤ x.wrSec.length then { x with doom := some (3, 0) }
  else { x with wrSec := if x.wrSec.contains sec then x.wrSec else x.wrSec ++ [sec]
                wr := x.wr ++ List.zip (span a data.length) data }

/-- The address that first formed an access to a sector stays with it while the lane tracks the sector (R393). -/
def LaneTx.form (x : LaneTx) (sec : Nat) (va : Word64) : LaneTx :=
  if (x.rdSec ++ x.wrSec).contains sec && (AMap.find x.formed sec).isNone then { x with formed := AMap.set x.formed sec va } else x

/-- Changes what a lane of the transaction has tracked. -/
def Team.modLane (t : Team) (l : Nat) (f : LaneTx → LaneTx) : Team :=
  { t with tx := t.tx.map (fun x => { x with tx := AMap.set x.tx l (f (x.lane l)) }) }

/-! ## Starting an operation -/

/-- A memory instruction, apart from its lanes. -/
structure MemForm where
  space : Space
  kind : MemKind
  bytes : Nat
  signed : Bool
  spec : Nat
  /-- Acts once for the team (R127). -/
  once : Bool
  acq : Bool
  rel : Bool
  scope : Nat
  op : Nat
  deriving DecidableEq, Repr

/-- A plain form (R125). -/
def plainForm (space : Space) (kind : MemKind) (bytes : Nat) (signed : Bool) (spec : Nat) : MemForm :=
  { space := space, kind := kind, bytes := bytes, signed := signed, spec := spec, once := false, acq := false
    rel := false, scope := 0, op := 0 }

/-- What an access does to translation and range locks. -/
def MemForm.how (f : MemForm) : How := if f.kind = .load then .load else .store

/-- The value a lane stores, or supplies to an atomic: D, and D + 1 for the new value of a `cas` (R125, R45). -/
def MemForm.data (f : MemForm) (t : Team) (l : Nat) : Word64 × Word64 :=
  if f.kind = .load then (0#64, 0#64)
  else if f.kind = .atomic && f.op = 10 then ((t.reg f.spec l).setWidth 64, (t.reg (f.spec + 1) l).setWidth 64)
  else if f.bytes = 8 then (t.pair f.spec l, 0#64)
  else ((t.reg f.spec l).setWidth 64, 0#64)

/-- What the lanes' checks have given so far. -/
structure Gather where
  s : State
  t : Team
  accs : List Access

/-- A failing trap of an access, for a lane or for the team. -/
def accessTrap (f : MemForm) (code : Nat) (addr : Word64) (l : Nat) (detail : Nat) : TrapInfo :=
  { (laneTrap code addr (if f.once then 0xFFFF else l) detail) with cls := if code = 1 then 0 else 1 }

/-- A lane's remembered fault, unless it is doomed already (R136). -/
def LaneTx.spoil (x : LaneTx) (pc : Word64) (tr : TrapInfo) : LaneTx :=
  if x.doomed then x else { x with fault := some (pc, tr) }

/-- Checks the lanes in ascending order: the first that fails gives the trap. A failing fault of a lane in the
transaction dooms the lane and is remembered instead (R136). `ldk` and `stk` act once for the team, in no lane: DESIGN CHOICE
(log 50), they are neither tracked nor buffered in a transaction. -/
def gather (i : Instr) (f : MemForm) (p : Party) (addr : Nat → Word64) : List Nat → Gather → Except Res Gather
  | [], g => .ok g
  | l :: ls, g =>
    let inTx := !f.once && g.t.inTx l
    let a := addr l
    let r := g.s.checkAccess p f.space f.how a f.bytes inTx
    match r.2 with
    | .ok loc =>
      let d := f.data g.t l
      gather i f p addr ls { g with
        s := r.1
        accs := g.accs ++ [{ lane := if f.once then 0xFFFF else l, va := a, loc := loc, data := d.1, data2 := d.2 }] }
    | .fail code =>
      let tr := accessTrap f code a l (if code = 28 then wordDetail i else 0)
      if inTx && code ≠ 28 then
        gather i f p addr ls { g with
          s := r.1
          t := g.t.modLane l (fun x => x.spoil g.t.ipc { tr with point := some g.t.retired }) }
      else .error (.trap tr)
    | .page => .error (.trap (accessTrap f 1 a l (b2n (f.how = .store))))
    | .miss => .error (.walk a f.how (if f.once then 0xFFFF else l))
    | .notStarted => .error .wait
    | .nowhere pa => .error (.stop (.noSuchAddress pa))

/-- The 32 bytes of the sector that a place lies in, as a task sees them. -/
def State.sectorAt (s : State) (task : Option Nat) (l : Loc) : List Byte :=
  match l with
  | .glob pa => readBytes (s.view task) (pa / 32 * 32) 32
  | .spd t off => readBytes (s.scratchOf t) (off / 32 * 32) 32

/-- The first access, by lane, whose data an uncorrectable error spoils, and the state with the errors met counted (R122, R289). -/
def State.readFlaws (s : State) (p : Party) (n : Nat) (accs : List Access) : State × Option Access :=
  accs.foldl (fun r a =>
    let q := r.1.meetFlaws (r.1.readsSite (partyTask p) a.loc n)
    (q.1, if r.2.isSome then r.2 else if q.2.isSome then some a else none)) (s, none)

/-- ECC_UNCORR for an access (R184). -/
def eccTrap (a : Access) (once : Bool) : TrapInfo := laneTrap 33 a.va (if once then 0xFFFF else a.lane) 0

/-- The accesses of lanes in the transaction act at issue: stores are buffered, loads read (R136). What is left is done
by the operation itself. -/
def txAccesses (f : MemForm) (s : State) (p : Party) : List Access → Team → Team × List (Nat × Word64)
  | [], t => (t, [])
  | a :: as, t =>
    if f.once || !t.inTx a.lane then txAccesses f s p as t
    else match f.kind with
      | .load =>
        let mem := toBytes f.bytes (s.readLoc (partyTask p) a.loc f.bytes)
        let x := match t.tx with
          | some x => x.lane a.lane
          | none => LaneTx.empty
        let x := if (s.meetFlaws (s.readsSite (partyTask p) a.loc f.bytes)).2.isSome then x.spoil t.ipc { eccTrap a false with point := some t.retired } else x
        let r := x.load a.loc.key mem (s.sectorAt (partyTask p) a.loc)
        let t := t.modLane a.lane (fun _ => r.1.form (a.loc.key / 32) a.va)
        let rest := txAccesses f s p as t
        (rest.1, (a.lane, BitVec.ofNat 64 r.2) :: rest.2)
      | _ => txAccesses f s p as (t.modLane a.lane (fun x =>
          (x.store a.loc.key (toBytes f.bytes a.data.toNat)).form (a.loc.key / 32) a.va))

/-- What loads of lanes in the transaction leave as they act: the read signature (R375), the lines touched (R268), the errors met
(R289), the L1 (R227). -/
def noteTxLoads (f : MemForm) (s : State) (p : Party) (t : Team) (accs : List Access) : State :=
  if f.kind = .load then
    (accs.filter (fun a => !f.once && t.inTx a.lane)).foldl (fun s a =>
      let s := (s.meetFlaws (s.readsSite (partyTask p) a.loc f.bytes)).1
      match p, a.loc with
      | .team tid ord, .glob pa =>
        ((s.sign tid ord a.loc f.bytes false).touch tid (s.coreOf p) pa f.bytes false).l1Touch p a.va pa f.bytes
      | .team tid ord, .spd _ _ => s.sign tid ord a.loc f.bytes false
      | _, _ => s) s
  else s

/-- Two places share a byte. -/
def Loc.meets (a : Loc) (n : Nat) (b : Loc) (m : Nat) : Bool :=
  match a, b with
  | .glob x, .glob y => Machine.meets x (x + n - 1) y (y + m - 1)
  | .spd t x, .spd u y => t = u && Machine.meets x (x + n - 1) y (y + m - 1)
  | _, _ => false

/-- The operation shares a byte with a place. -/
def MemOp.touches (m : MemOp) (l : Loc) (n : Nat) : Bool := m.accs.any (fun a => a.loc.meets m.bytes l n)

/-- A read made at issue would pass an outstanding operation of the team: an acquire (R234), or an access to the same bytes
(R123, R237). -/
def Team.passes' (t : Team) (l : Loc) (n : Nat) : Bool :=
  t.pend.any (fun x => !x.done && (match x.kind with
    | .mem m => m.acq || m.touches l n
    | .matrix (.mld rows) _ _ _ _ => rows.any (fun r => r.loc.meets r.data2.toNat l n)
    | _ => false))

/-- Outstanding accesses of a team, the rows of `mld` among them, and those that read (R140, R163). -/
def Team.memBusy (t : Team) : Bool := t.pend.any (fun x => !x.done && (match x.kind with
  | .mem _ | .matrix (.mld _) _ _ _ _ => true
  | _ => false))
def Team.loadBusy (t : Team) : Bool := t.pend.any (fun x => !x.done && (match x.kind with
  | .mem m => m.kind = .load || m.kind = .atomic
  | .matrix (.mld _) _ _ _ _ => true
  | _ => false))

/-- An acquire of the team is still to be performed (R234). -/
def Team.acqBusy (t : Team) : Bool := t.pend.any (fun x => !x.done && (match x.kind with
  | .mem m => m.acq
  | _ => false))

/-- Adds an outstanding operation to a team. -/
def Team.start' (t : Team) (cls : Counter) (k : PendKind) : Team :=
  { t with
    pend := t.pend ++ [{ id := t.nextId, cls := cls, done := false, pc := t.ipc, md := t.md, point := t.retired, kind := k }]
    nextId := t.nextId + 1 }

/-- The places named by a list of accesses, each once, in order of first appearance. -/
def placesOf (accs : List Access) : List Loc :=
  accs.foldl (fun acc a => if acc.contains a.loc then acc else acc ++ [a.loc]) []

/-! ## Scopes (R232, R233) -/

/-- Both parties run on cores. -/
def onCores (p q : Party) : Bool := (partyTask p).isSome && (partyTask q).isSome

/-- Party `q` lies in the instance of a scope that contains party `p` (R232). Front ends, prologues and stewards lie on no core. -/
def State.inInstance (s : State) (scope : Nat) (p q : Party) : Bool :=
  match scope with
  | 0 => p = q
  | 1 => (partyTask p).isSome && partyTask p = partyTask q
  | 2 => p = q || (onCores p q && s.coreOf p = s.coreOf q)
  | 3 => p = q || (onCores p q && clusterOf (s.coreOf p) = clusterOf (s.coreOf q))
  | 4 => p = q || (onCores p q && dieOf (s.coreOf p) = dieOf (s.coreOf q))
  | _ => true

/-- An ordering operation of `p` at one scope and one of `q` at another relate the two (R233). -/
def State.relates (s : State) (p : Party) (sp : Nat) (q : Party) (sq : Nat) : Bool :=
  s.inInstance sp p q && s.inInstance sq q p

/-- A release of a team at a scope orders its accesses for someone: below `.dev` for a live team of its gang in the instance, which
are all that see its accesses before a commit (R226, R233); a member that has not started may lie in it. An acquire orders the team's own
later accesses whatever its scope (R234, R239). -/
def State.ordersFor (s : State) (p : Party) (scope : Nat) : Bool :=
  5 ≤ scope || (match s.taskOf p with
    | none => true
    | some k => decide ((s.gangTasks k).length < s.gangCount k) || (s.gangTasks k).any (fun e => e.2.teams.any (fun f =>
        .team e.1 f.1 ≠ p && !f.2.released && s.relates p scope (.team e.1 f.1) 6)))

/-- The scope at which the order of an access acts: the form's, or that of a scratchpad atomic's address: `.coh` for the issuing
cohort's own scratchpad, the gang's scope for another member's (R132). -/
def State.scopeAt (s : State) (p : Party) (f : MemForm) (a : Access) : Nat :=
  match a.loc with
  | .spd t _ =>
    if f.kind = .atomic then
      (if partyTask p = some t then 1 else match (s.taskOf p).bind s.recordOf with
        | some r => 2 + r.gangClass
        | none => 1)
    else f.scope
  | .glob _ => f.scope

/-- The requests of an atomic (R133): one per pass when each pass is a commit point, at `.dev` or `.sys`, else one per distinct
address. -/
def requestsOf (s : State) (p : Party) (f : MemForm) (accs : List Access) : List AtomicReq :=
  (span 0 32).flatMap (fun g =>
    let mine := accs.filter (fun a => a.lane / 32 = g)
    if mine.isEmpty then []
    else if mine.any (fun a => 5 ≤ s.scopeAt p f a) then [{ group := g, accs := mine, commits := true, done := false }]
    else (placesOf mine).map (fun l => { group := g, accs := mine.filter (fun a => a.loc = l), commits := false, done := false }))

/-- The access is a commit point that holds the team: an ordered load or store with a release side, or a `mred` with
`.rel`, at `.dev` or `.sys` (R126, R134, R255). -/
def MemForm.commits (f : MemForm) : Bool := f.kind ≠ .atomic && f.rel && 5 ≤ f.scope

/-- Starts a memory instruction whose lanes form the given addresses (R122, R125 to R134). -/
def memOp (i : Instr) (f : MemForm) (addr : Team → Nat → Word64) (s : State) (p : Party) (t : Team) : Res :=
  let lanes := if f.once then [0] else t.lanes
  match gather i f p (addr t) lanes { s := s, t := t, accs := [] } with
  | .error r => r
  | .ok g =>
    if f.kind = .load && g.accs.any (fun a => !f.once && g.t.inTx a.lane &&
        (g.t.passes' a.loc f.bytes || !g.s.ordered p g.t none || a.loc.busy g.s f.bytes)) then .wait
    else
    let x := txAccesses f g.s p g.accs g.t
    let plain := g.accs.filter (fun a => f.once || !g.t.inTx a.lane)
    let m : MemOp :=
      { kind := f.kind, bytes := f.bytes, signed := f.signed, dest := f.spec, accs := plain
        acq := f.acq && !plain.isEmpty
        rel := f.rel && plain.any (fun a => g.s.ordersFor p (g.s.scopeAt p f a))
        scope := f.scope, op := f.op, reqs := if f.kind = .atomic then requestsOf g.s p f plain else [], held := some x.2 }
    let u := x.1.start' (if f.kind = .load || f.kind = .atomic then .ld else .st) (.mem m)
    let u := if f.commits && !plain.isEmpty then { u with hold := .commit .plain } else u
    .started (noteTxLoads f g.s p g.t g.accs) u x.1.nextId

/-- Address of a global access: pair A plus an offset (R125). -/
def globalAddr (a : Nat) (off : Word64) (t : Team) (l : Nat) : Word64 := t.pair a l + off

/-- Address of a scratchpad access: a 32-bit sum (R125). -/
def scratchAddr (a : Nat) (off : Word) (t : Team) (l : Nat) : Word64 := (t.reg a l + off).setWidth 64

end Sys2Proof.Machine
end

