-- ==== Sys2Proof/Machine/Atomic.lean ====
section
/-!
DEFINITION. Atomics and `mred` (R132 to R134): how they start. Their requests execute in the events of MemoryEvents.lean.
-/

namespace Sys2Proof.Machine

/-- A scratchpad atomic: a gang scratchpad address, and an order code of R44. -/
def scratchAtomic (o : BitVec 4) (r : BitVec 3) (spec : Nat) : MemForm :=
  { plainForm .gang .atomic (atomBytes o.toNat) false spec with
    acq := r.toNat = 1 || 3 ≤ r.toNat, rel := 2 ≤ r.toNat, scope := 1, op := o.toNat }

/-- A global atomic at a scope; the major gives the order (R45). -/
def globalAtomic (o : BitVec 4) (c : BitVec 3) (acq rel : Bool) (spec : Nat) : MemForm :=
  { plainForm .global .atomic (atomBytes o.toNat) false spec with
    acq := acq, rel := rel, scope := c.toNat, op := o.toNat }

/-- A `mred` at a scope: 13 adds integers, 14 adds floats (R134). -/
def mredForm (op : Nat) (c : BitVec 3) (rel : Bool) (spec : Nat) : MemForm :=
  { plainForm .global .mred 4 false spec with rel := rel, scope := c.toNat, op := op }

def execAtomScratchpad (h : Hdr) (d a : BitVec 7) (o : BitVec 4) (r : BitVec 3) (s : State) : Out :=
  issue (.atomScratchpad h d a o r) h s
    (memOp (.atomScratchpad h d a o r) (scratchAtomic o r d.toNat) (scratchAddr a.toNat 0#32))

def execAtomRlx (h : Hdr) (d a : BitVec 7) (o : BitVec 4) (c : BitVec 3) (s : State) : Out :=
  issue (.atomRlx h d a o c) h s
    (memOp (.atomRlx h d a o c) (globalAtomic o c false false d.toNat) (globalAddr a.toNat 0#64))

def execAtomAcq (h : Hdr) (d a : BitVec 7) (o : BitVec 4) (c : BitVec 3) (s : State) : Out :=
  issue (.atomAcq h d a o c) h s
    (memOp (.atomAcq h d a o c) (globalAtomic o c true false d.toNat) (globalAddr a.toNat 0#64))

def execAtomRel (h : Hdr) (d a : BitVec 7) (o : BitVec 4) (c : BitVec 3) (s : State) : Out :=
  issue (.atomRel h d a o c) h s
    (memOp (.atomRel h d a o c) (globalAtomic o c false true d.toNat) (globalAddr a.toNat 0#64))

def execAtomAr (h : Hdr) (d a : BitVec 7) (o : BitVec 4) (c : BitVec 3) (s : State) : Out :=
  issue (.atomAr h d a o c) h s
    (memOp (.atomAr h d a o c) (globalAtomic o c true true d.toNat) (globalAddr a.toNat 0#64))

def execAtomSc (h : Hdr) (d a : BitVec 7) (o : BitVec 4) (c : BitVec 3) (s : State) : Out :=
  issue (.atomSc h d a o c) h s
    (memOp (.atomSc h d a o c) (globalAtomic o c true true d.toNat) (globalAddr a.toNat 0#64))

def execMredAdd (h : Hdr) (d a : BitVec 7) (c : BitVec 3) (s : State) : Out :=
  issue (.mredAdd h d a c) h s
    (memOp (.mredAdd h d a c) (mredForm 13 c false d.toNat) (globalAddr a.toNat 0#64))

def execMredAddRel (h : Hdr) (d a : BitVec 7) (c : BitVec 3) (s : State) : Out :=
  issue (.mredAddRel h d a c) h s
    (memOp (.mredAddRel h d a c) (mredForm 13 c true d.toNat) (globalAddr a.toNat 0#64))

def execMredFadd (h : Hdr) (d a : BitVec 7) (c : BitVec 3) (s : State) : Out :=
  issue (.mredFadd h d a c) h s
    (memOp (.mredFadd h d a c) (mredForm 14 c false d.toNat) (globalAddr a.toNat 0#64))

def execMredFaddRel (h : Hdr) (d a : BitVec 7) (c : BitVec 3) (s : State) : Out :=
  issue (.mredFaddRel h d a c) h s
    (memOp (.mredFaddRel h d a c) (mredForm 14 c true d.toNat) (globalAddr a.toNat 0#64))

end Sys2Proof.Machine
end

