-- ==== Sys2Proof/Machine/Control.lean ====
section
/-!
DEFINITION. The control group (R72 to R82), `jset` and the constants (R71, R83).
-/

namespace Sys2Proof.Machine

/-- Traps or goes on with a changed stream, for the loop instructions. -/
def orSeqTrap (s : State) : Except SeqTrap Team → Res
  | .ok t => .ok s t
  | .error e => .trap (trapOf e.code e.addr e.detail)

/-- The result of `lset` with a count (R75). -/
def openLoop (count : Nat) (s : State) (t : Team) : Res :=
  if count = 0 then .jump s t t.j1
  else if t.loops.length ≥ 4 then .trap (trapOf 25 0#64 t.loops.length)
  else .ok s { t with loops := { lc := BitVec.ofNat 32 count, lh := t.pc + 4#64 } :: t.loops }

/-- md with a part replaced (R77): 0 `.lo`, 1 `.fl`, 2 `.hi`. -/
def setMd (md : Word) (part : Nat) (v : Nat) : Word :=
  let m := md.toNat
  BitVec.ofNat 32 (match part with
    | 0 => m / 2 ^ 12 * 2 ^ 12 + v % 2 ^ 12
    | 1 => m / 2 ^ 24 * 2 ^ 24 + v % 2 ^ 12 * 2 ^ 12 + m % 2 ^ 12
    | _ => v % 2 ^ 8 * 2 ^ 24 + m % 2 ^ 24)

/-- Special values (R81). In a prologue the grid dimensions are those of its launch as it starts; a steward has no
cohort, and what it reads there is not stated (log 14). -/
def State.special (s : State) (p : Party) (t : Team) (n lane : Nat) : Word :=
  let num (x : Nat) : Word := BitVec.ofNat 32 x
  let dim (r : LaunchRec) : Word := num (if n = 7 then r.gx else if n = 8 then r.gy else r.gz)
  if n = 0 then num lane
  else if n = 1 then num (lane / 32)
  else match p with
    | .steward _ => Config.freeWord s.tick
    | .prologue c =>
      (match ((s.ctx c).prologue.bind (fun q => AMap.find (s.ctx c).packets q.packet)).map (fun x => parseRecord x.body) with
       | some r => dim r
       | none => 0#32)
    | _ => match s.taskOf p with
      | none => 0#32
      | some k => match s.recordOf k with
        | none => 0#32
        | some r => match n with
          | 2 => num t.index
          | 3 => num t.role
          | 4 => num (k.index % r.gx)
          | 5 => num (k.index / r.gx % r.gy)
          | 6 => num (k.index / r.gx / r.gy)
          | 10 => num (s.gangMember k)
          | 11 => num k.core
          | _ => dim r

/-- The lowest-numbered active lane (R82). -/
def Team.firstLane (t : Team) : Nat := t.activeLanes.headD 0

def execNop (h : Hdr) (s : State) : Out := issueTeam (.nop h) h s id

/-- A word of R40 that no row assigns: issued, it takes ILLEGAL_OP at check 1. -/
def execIllegalOp (w : Word) (s : State) : Out :=
  issue (.illegalOp w) { seq := 0#4, b := false } s (fun _ _ _ => .trap (trapOf 16 0#64 w.toNat))

def execJmov (h : Hdr) (j : BitVec 2) (a : BitVec 7) (s : State) : Out :=
  issueTeam (.jmov h j a) h s (fun t => t.setJ j.toNat (t.pair a.toNat 0))

def execJget (h : Hdr) (d : BitVec 7) (j : BitVec 2) (s : State) : Out :=
  issueTeam (.jget h d j) h s (fun t => t.writePair d.toNat (fun _ => t.slotJ j.toNat))

def execLset (h : Hdr) (a : BitVec 7) (s : State) : Out :=
  issue (.lset h a) h s (fun s _ t => openLoop (t.reg a.toNat 0).toNat s t)

def execLsetImm (h : Hdr) (n : BitVec 14) (s : State) : Out :=
  issue (.lsetImm h n) h s (fun s _ t => openLoop n.toNat s t)

def execLbrk (h : Hdr) (s : State) : Out :=
  issue (.lbrk h) h s (fun s _ t =>
    match t.loops with
    | [] => .trap (trapOf 25 0#64 0)
    | _ :: rest => .ok s { t with loops := rest })

def execMsetLo (h : Hdr) (v : BitVec 12) (s : State) : Out :=
  issueTeam (.msetLo h v) h s (fun t => { t with md := setMd t.md 0 v.toNat })

def execMsetFl (h : Hdr) (v : BitVec 12) (s : State) : Out :=
  issueTeam (.msetFl h v) h s (fun t => { t with md := setMd t.md 1 v.toNat })

def execMsetHi (h : Hdr) (v : BitVec 8) (s : State) : Out :=
  issueTeam (.msetHi h v) h s (fun t => { t with md := setMd t.md 2 v.toNat })

def execMput (h : Hdr) (a : BitVec 7) (s : State) : Out :=
  issue (.mput h a) h s (fun s _ t =>
    let v := t.reg a.toNat 0
    if mdLegal v then .ok s { t with md := v } else .trap (trapOf 18 0#64 (wordDetail (.mput h a))))

def execMget (h : Hdr) (d : BitVec 7) (s : State) : Out :=
  issueTeam (.mget h d) h s (fun t => t.write d.toNat (fun _ => t.md))

def execTile (h : Hdr) (w : BitVec 3) (s : State) : Out :=
  issueTeam (.tile h w) h s (fun t => { t with tw := w.setWidth 32 })

def execSreg (h : Hdr) (d n : BitVec 7) (s : State) : Out :=
  issue (.sreg h d n) h s (fun s p t => .ok s (t.write d.toNat (fun l => s.special p t n.toNat l)))

def execRdlane (h : Hdr) (d a : BitVec 7) (s : State) : Out :=
  issueTeam (.rdlane h d a) h s (fun t => t.write d.toNat (fun _ => t.reg a.toNat t.firstLane))

def execJset (h : Hdr) (j : BitVec 2) (i : BitVec 19) (s : State) : Out :=
  issueTeam (.jset h j i) h s (fun t => t.setJ j.toNat (t.pc + (i.signExtend 64) <<< 2))

def execMovi (h : Hdr) (d : BitVec 7) (i : BitVec 14) (s : State) : Out :=
  issueTeam (.movi h d i) h s (fun t => t.write d.toNat (fun _ => i.signExtend 32))

def execMovhi (h : Hdr) (d : BitVec 7) (i : BitVec 14) (s : State) : Out :=
  issueTeam (.movhi h d i) h s (fun t => t.write d.toNat (fun l => (t.reg d.toNat l) <<< 14 ||| i.setWidth 32))

end Sys2Proof.Machine
end

