-- ==== Sys2Proof/Machine/Typed.lean ====
section
/-!
DEFINITION. Typed element-wise and conversion instructions (R96 to R111), over the element functions of Elem.lean. Under
md.type 12 each operand is a pair (R47).
-/

namespace Sys2Proof.Machine

/-! ## Forms -/

/-- A typed operand in a lane: a register, or a pair under type 12. -/
def Team.val (t : Team) (spec lane : Nat) : Nat :=
  if mdType t.md = 12 then (t.pair spec lane).toNat else (t.reg spec lane).toNat

/-- Writes a typed destination (R69). -/
def Team.writeVal (t : Team) (spec : Nat) (f : Nat → Nat) : Team :=
  if mdType t.md = 12 then t.writePair spec (fun l => BitVec.ofNat 64 (f l))
  else t.write spec (fun l => BitVec.ofNat 32 (f l))

/-- D from A and C (R97). -/
def typedBin (op : BinOp) (d a c : Nat) (t : Team) : Team :=
  t.writeVal d (fun l => regBin op t.md (t.val a l) (t.val c l))

/-- D from A (R103). -/
def typedUn (op : UnOp) (d a : Nat) (t : Team) : Team := t.writeVal d (fun l => regUn op t.md (t.val a l))

/-- D from A, C and D (R101). -/
def typedFma (neg : Bool) (d a c : Nat) (t : Team) : Team :=
  t.writeVal d (fun l => regFma neg t.md (t.val a l) (t.val c l) (t.val d l))

/-- The condition of `mkabs` in a lane, or once for a uniform destination (R105, R88). -/
def Team.bpFor (t : Team) (d lane : Nat) : Bool := if 96 ≤ d then t.bpAny else t.bpMask.getLsbD lane

/-- Element `e` of width `w` of a span of registers (R108). -/
def Team.spanElem (t : Team) (spec w e lane : Nat) : Nat :=
  if w = 64 then (t.pair (spec + 2 * e) lane).toNat
  else nbits (t.reg (spec + e * w / 32) lane).toNat (e * w % 32) w

/-- `cvt` (R108, R109). -/
def cvtTeam (d a src : Nat) (t : Team) : Team :=
  let dst := mdType t.md
  let n := cvtCount src dst
  t.writeSpan d (spanRegs dst n) (fun i l =>
    BitVec.ofNat 32 (packElems (tyWidth dst)
      ((span 0 n).map (fun e => elemCvt t.md src dst (t.spanElem a (tyWidth src) e l))) / 2 ^ (32 * i)))

/-- A tile's block in `cvtmx`: what its lanes supply, quantised (R111). -/
def Team.quantTile (t : Team) (a : Nat) (had : Bool) (base : Nat) : Quant :=
  quantise t.md (mdType t.md) had ((span base t.tileWidth).map (fun l =>
    if t.takePart.getLsbD l then operand fmtF32 t.md 6 (t.reg a l).toNat else .absent))

/-- The three forms of `cvtmx` (R111). -/
def cvtmxTeam (d a : Nat) (had : Bool) (t : Team) : Team :=
  let w := t.tileWidth
  let bits := tyWidth (mdType t.md)
  let c := 32 / bits
  let qs := (span 0 (32 * t.groups / w)).map (fun i => t.quantTile a had (w * i))
  t.writeSpan d 2 (fun i l =>
    let q := qs.getD (l / w) { codes := [], scale := 0, special := 0 }
    if i = 0 then BitVec.ofNat 32 (packElems bits ((q.codes.drop (l % w / c * c)).take c))
    else BitVec.ofNat 32 (q.scale + 256 * q.special))

/-! ## Instructions -/

def execAddT (h : Hdr) (d a c : BitVec 7) (s : State) : Out :=
  issueTeam (.addT h d a c) h s (typedBin .add d.toNat a.toNat c.toNat)

def execSubT (h : Hdr) (d a c : BitVec 7) (s : State) : Out :=
  issueTeam (.subT h d a c) h s (typedBin .sub d.toNat a.toNat c.toNat)

def execMulT (h : Hdr) (d a c : BitVec 7) (s : State) : Out :=
  issueTeam (.mulT h d a c) h s (typedBin .mul d.toNat a.toNat c.toNat)

def execMinT (h : Hdr) (d a c : BitVec 7) (s : State) : Out :=
  issueTeam (.minT h d a c) h s (typedBin .min d.toNat a.toNat c.toNat)

def execMaxT (h : Hdr) (d a c : BitVec 7) (s : State) : Out :=
  issueTeam (.maxT h d a c) h s (typedBin .max d.toNat a.toNat c.toNat)

def execDivT (h : Hdr) (d a c : BitVec 7) (s : State) : Out :=
  issueTeam (.divT h d a c) h s (typedBin .div d.toNat a.toNat c.toNat)

def execDot (h : Hdr) (d a c : BitVec 7) (s : State) : Out :=
  issueTeam (.dot h d a c) h s (fun t => t.write d.toNat (fun l =>
    BitVec.ofNat 32 (regDot t.md (t.reg a.toNat l).toNat (t.reg c.toNat l).toNat (t.reg d.toNat l).toNat)))

def execFcmp (h : Hdr) (p : BitVec 4) (k : BitVec 3) (a c : BitVec 7) (s : State) : Out :=
  issueTeam (.fcmp h p k a c) h s (fun t =>
    t.writePred p.toNat (fun l => regCmp t.md k.toNat (t.val a.toNat l) (t.val c.toNat l)))

def execClassify (h : Hdr) (p : BitVec 4) (a m : BitVec 7) (s : State) : Out :=
  issueTeam (.classify h p a m) h s (fun t =>
    t.writePred p.toNat (fun l => regClass (mdType t.md) m.toNat (t.val a.toNat l)))

def execAbsT (h : Hdr) (d a : BitVec 7) (s : State) : Out :=
  issueTeam (.absT h d a) h s (typedUn .abs d.toNat a.toNat)

def execNegT (h : Hdr) (d a : BitVec 7) (s : State) : Out :=
  issueTeam (.negT h d a) h s (typedUn .neg d.toNat a.toNat)

def execSqrt (h : Hdr) (d a : BitVec 7) (s : State) : Out :=
  issueTeam (.sqrt h d a) h s (typedUn .sqrt d.toNat a.toNat)

def execRcp (h : Hdr) (d a : BitVec 7) (s : State) : Out :=
  issueTeam (.rcp h d a) h s (typedUn .rcp d.toNat a.toNat)

def execRsq (h : Hdr) (d a : BitVec 7) (s : State) : Out :=
  issueTeam (.rsq h d a) h s (typedUn .rsq d.toNat a.toNat)

def execExp2 (h : Hdr) (d a : BitVec 7) (s : State) : Out :=
  issueTeam (.exp2 h d a) h s (typedUn .exp2 d.toNat a.toNat)

def execLog2 (h : Hdr) (d a : BitVec 7) (s : State) : Out :=
  issueTeam (.log2 h d a) h s (typedUn .log2 d.toNat a.toNat)

def execSinpi (h : Hdr) (d a : BitVec 7) (s : State) : Out :=
  issueTeam (.sinpi h d a) h s (typedUn .sinpi d.toNat a.toNat)

def execCospi (h : Hdr) (d a : BitVec 7) (s : State) : Out :=
  issueTeam (.cospi h d a) h s (typedUn .cospi d.toNat a.toNat)

def execMkabs (h : Hdr) (d a : BitVec 7) (s : State) : Out :=
  issueTeam (.mkabs h d a) h s (fun t => t.writeVal d.toNat (fun l =>
    if t.bpFor d.toNat l then regAbsent (mdType t.md) else t.val a.toNat l))

def execFma (h : Hdr) (d a c : BitVec 7) (s : State) : Out :=
  issueTeam (.fma h d a c) h s (typedFma false d.toNat a.toNat c.toNat)

def execFmaN (h : Hdr) (d a c : BitVec 7) (s : State) : Out :=
  issueTeam (.fmaN h d a c) h s (typedFma true d.toNat a.toNat c.toNat)

def execCvt (h : Hdr) (d a : BitVec 7) (t : BitVec 4) (s : State) : Out :=
  issueTeam (.cvt h d a t) h s (cvtTeam d.toNat a.toNat t.toNat)

def execCvtmx (h : Hdr) (d a : BitVec 7) (s : State) : Out :=
  issueTeam (.cvtmx h d a) h s (cvtmxTeam d.toNat a.toNat false)

def execCvtmxH16 (h : Hdr) (d a : BitVec 7) (s : State) : Out :=
  issueTeam (.cvtmxH16 h d a) h s (cvtmxTeam d.toNat a.toNat true)

def execCvtmxH32 (h : Hdr) (d a : BitVec 7) (s : State) : Out :=
  issueTeam (.cvtmxH32 h d a) h s (cvtmxTeam d.toNat a.toNat true)

def execPack (h : Hdr) (d a : BitVec 7) (s : State) : Out :=
  issueTeam (.pack h d a) h s (fun t =>
    let ty := mdType t.md
    t.write d.toNat (fun l => BitVec.ofNat 32 (packElems (tyWidth ty)
      ((span 0 (tyCount ty)).map (fun e => (t.reg (a.toNat + e) l).toNat)))))

def execUnpack (h : Hdr) (d a : BitVec 7) (s : State) : Out :=
  issueTeam (.unpack h d a) h s (fun t =>
    let w := tyWidth (mdType t.md)
    t.writeSpan d.toNat (tyCount (mdType t.md)) (fun i l => BitVec.ofNat 32 (nbits (t.reg a.toNat l).toNat (i * w) w)))

end Sys2Proof.Machine
end

