-- ==== Sys2Proof/Machine/CrossLane.lean ====
section
/-!
DEFINITION. Cross-lane instructions within tiles (R24, R112 to R118): votes, matches, counts, reductions, scans and
shuffles.
-/

namespace Sys2Proof.Machine

/-- First lane of the tile that holds a lane. -/
def Team.tileBase (t : Team) (lane : Nat) : Nat := lane / t.tileWidth * t.tileWidth

/-- The bits of a mask in the tile of a lane, position 0 lowest. -/
def Team.tileBits (t : Team) (m : LaneMask) (lane : Nat) : Nat := nbits m.toNat (t.tileBase lane) t.tileWidth

/-- Lanes that take part with predicate `q` true. -/
def Team.votes (t : Team) (q : Nat) : LaneMask := t.takePart &&& t.pmask q

/-- Writes a vote: per tile into a lane predicate, over the whole team into a q (R114). `f` is given the votes and the
lanes that take part. -/
def voteTeam (f : Nat → Nat → Bool) (p q : Nat) (t : Team) : Team :=
  t.writePred p (fun l =>
    if 8 ≤ p then f (t.votes q).toNat t.takePart.toNat
    else f (t.tileBits (t.votes q) l) (t.tileBits t.takePart l))

/-- Combines adjacent values, lower positions on the left (R66). -/
def pairUp (f : Nat → Nat → Nat) : List Nat → List Nat
  | a :: b :: rest => f a b :: pairUp f rest
  | l => l

/-- The fixed binary tree over a tile of 2^n values. -/
def treeFold (f : Nat → Nat → Nat) : Nat → List Nat → Nat
  | 0, l => l.headD 0
  | n + 1, l => treeFold f n (pairUp f l)

/-- Running values over a tile, in ascending position (R67). -/
def scanFold (f : Nat → Nat → Nat) (x : Nat) : List Nat → List Nat
  | [] => []
  | y :: ys => f x y :: scanFold f (f x y) ys

/-- A node over whole registers: element by element (R66). -/
def nodeReg (op : BinOp) (md : Word) (a b : Nat) : Nat :=
  let t := mdType md
  packElems (tyWidth t)
    (List.zipWith (nodeOp op md t) (elems (tyWidth t) (tyCount t) a) (elems (tyWidth t) (tyCount t) b))

/-- A function of md and type on each element of a register. -/
def eachElem (f : Word → Nat → Nat → Nat) (md : Word) (a : Nat) : Nat :=
  let t := mdType md
  packElems (tyWidth t) ((elems (tyWidth t) (tyCount t) a).map (f md t))

/-- Bits of a typed register or pair. -/
def Team.valBits (t : Team) : Nat := if mdType t.md = 12 then 64 else 32

/-- The operation and the identity of a `tred` code (R116). -/
def tredOp (t : Team) (o : Nat) : (Nat → Nat → Nat) × Nat :=
  let none := regAbsent (mdType t.md)
  match o with
  | 0 => (nodeReg .add t.md, none)
  | 1 => (nodeReg .min t.md, none)
  | 2 => (nodeReg .max t.md, none)
  | 3 => (Nat.land, 2 ^ t.valBits - 1)
  | 4 => (Nat.lor, 0)
  | _ => (Nat.xor, 0)

/-- How a `tred` code's arithmetic takes a lane's value in, and gives a result out: `.and`, `.or` and `.xor` see bits (R60, R116). -/
def tredIn (md : Word) (o a : Nat) : Nat := if o < 3 then eachElem leafCode md a else a
def tredOut (md : Word) (o a : Nat) : Nat := if o < 3 then eachElem resultCode md a else a

/-- What the lanes of a tile supply to a reduction or a scan. -/
def Team.tileVals (t : Team) (a o base : Nat) : List Nat :=
  (span base t.tileWidth).map (fun l => if t.takePart.getLsbD l then tredIn t.md o (t.val a l) else (tredOp t o).2)

def tredTeam (d a o : Nat) (t : Team) : Team :=
  let f := tredOp t o
  let rs := (span 0 (32 * t.groups / t.tileWidth)).map (fun i =>
    treeFold f.1 (nbits t.tw.toNat 0 3) (t.tileVals a o (t.tileWidth * i)))
  t.writeVal d (fun l => tredOut t.md o (rs.getD (l / t.tileWidth) 0))

def scanTeam (d a o : Nat) (t : Team) : Team :=
  let f := tredOp t o
  let rs := (span 0 (32 * t.groups / t.tileWidth)).flatMap (fun i =>
    scanFold f.1 f.2 (t.tileVals a o (t.tileWidth * i)))
  t.writeVal d (fun l => tredOut t.md o (rs.getD l 0))

/-- The source lane of a shuffle (R118). -/
def shflLane (w mode amt lane : Nat) : Nat :=
  let base := lane / w * w
  let pos := lane % w
  match mode with
  | 0 => base + amt % w
  | 1 => if amt ≤ pos then lane - amt else lane
  | 2 => if pos + amt < w then lane + amt else lane
  | _ => base + (pos ^^^ (amt % w))

/-! ## Instructions -/

def execVoteAny (h : Hdr) (p q : BitVec 4) (s : State) : Out :=
  issueTeam (.voteAny h p q) h s (voteTeam (fun v _ => v ≠ 0) p.toNat q.toNat)

def execVoteAll (h : Hdr) (p q : BitVec 4) (s : State) : Out :=
  issueTeam (.voteAll h p q) h s (voteTeam (fun v part => v = part) p.toNat q.toNat)

def execVoteUni (h : Hdr) (p q : BitVec 4) (s : State) : Out :=
  issueTeam (.voteUni h p q) h s (voteTeam (fun v part => v = 0 || v = part) p.toNat q.toNat)

def execVoteBallot (h : Hdr) (d : BitVec 7) (q : BitVec 4) (s : State) : Out :=
  issueTeam (.voteBallot h d q) h s (fun t =>
    t.write d.toNat (fun l => BitVec.ofNat 32 (t.tileBits (t.votes q.toNat) l)))

def execTred (h : Hdr) (d a : BitVec 7) (o : BitVec 3) (s : State) : Out :=
  issueTeam (.tred h d a o) h s (tredTeam d.toNat a.toNat o.toNat)

def execScan (h : Hdr) (d a : BitVec 7) (o : BitVec 2) (s : State) : Out :=
  issueTeam (.scan h d a o) h s (scanTeam d.toNat a.toNat o.toNat)

def execMatchLanes (h : Hdr) (d a : BitVec 7) (s : State) : Out :=
  issueTeam (.matchLanes h d a) h s (fun t => t.write d.toNat (fun l =>
    BitVec.ofNat 32 ((span 0 t.tileWidth).foldl (fun n i =>
      let m := t.tileBase l + i
      if t.takePart.getLsbD m && t.reg a.toNat m = t.reg a.toNat l then n + 2 ^ i else n) 0)))

def execElect (h : Hdr) (p q : BitVec 4) (s : State) : Out :=
  issueTeam (.elect h p q) h s (fun t => t.writePred p.toNat (fun l =>
    let v := t.tileBits (t.votes q.toNat) l
    nbit v (l % t.tileWidth) && v % 2 ^ (l % t.tileWidth) = 0))

def execCntp (h : Hdr) (d : BitVec 7) (q : BitVec 4) (s : State) : Out :=
  issueTeam (.cntp h d q) h s (fun t => t.write d.toNat (fun l =>
    BitVec.ofNat 32 (popBits (t.tileBits (t.votes q.toNat) l) (l % t.tileWidth))))

def execShfl (h : Hdr) (d a : BitVec 7) (m : BitVec 2) (n : BitVec 5) (s : State) : Out :=
  issueTeam (.shfl h d a m n) h s (fun t =>
    t.write d.toNat (fun l => t.reg a.toNat (shflLane t.tileWidth m.toNat n.toNat l)))

end Sys2Proof.Machine
end

