-- ==== Sys2Proof/Machine/Publish.lean ====
section
/-!
DEFINITION. Publishing a task's version (R259): what a commit does to memory, messages and the commit index; the sectors
that hold it back (R264, R266); and the counters of R129 as operations complete.
-/

namespace Sys2Proof.Machine

/-! ## Counters -/

/-- Completed operations leave the counters in issue order within their class (R129). -/
def popDone : List Pend → List Counter → List Pend
  | [], _ => []
  | x :: xs, blocked =>
    if x.done && !blocked.contains x.cls then popDone xs blocked else x :: popDone xs (x.cls :: blocked)

/-- Marks an operation complete and counts off what is complete in order. -/
def Team.complete (t : Team) (id : Nat) : Team :=
  { t with pend := popDone (t.pend.map (fun x => if x.id = id then { x with done := true } else x)) [] }

/-- Changes an outstanding operation. -/
def Team.modPend (t : Team) (id : Nat) (f : PendKind → PendKind) : Team :=
  { t with pend := t.pend.map (fun x => if x.id = id then { x with kind := f x.kind } else x) }

/-- An outstanding operation by its number. -/
def Team.pend? (t : Team) (id : Nat) : Option Pend := t.pend.find? (fun x => x.id = id && !x.done)

/-- The accessor of an operation of a party. -/
def accessor (p : Party) (pc : Word64) (engine : Bool) : Accessor :=
  { task := partyTask p, ord := partyOrd p
    lead := (match p with
      | .lead _ _ => true
      | _ => false), engine := engine, pc := pc }

/-! ## Sectors held against commits and stores -/

/-- A sector of device memory is pinned or locked by a party of another task (R264, R266). -/
def State.sectorHeldBy (s : State) (tid sec : Nat) : Bool :=
  s.locked.any (fun e => e.1 = sec && partyTask e.2 ≠ some tid) ||
  (match s.pinned with
   | some (h, secs) => partyTask h ≠ some tid && secs.contains sec
   | none => false)

/-- The party is the holder of the ticket of a domain and stands at its `txe`. -/
def State.atTxe (s : State) (p : Party) (l : Loc) : Bool :=
  (match s.team? p with
   | some t => (match t.hold with
     | .txe _ _ _ => true
     | _ => false)
   | none => false) &&
  (match l with
   | .glob _ => s.ticket = some p
   | .spd t _ => partyTask p = some t && (match s.task? t with
     | some k => k.ticket = some (partyOrd p)
     | none => false))

/-- A store or atomic outside a transaction waits at a held sector (R138), but not the holder's own once it stands at its `txe`,
and any access at a region that changes (R277, R279). -/
def State.locHeld (s : State) (p : Option Party) (l : Loc) (n : Nat) : Bool :=
  let own := match p with
    | some p => s.atTxe p l
    | none => false
  match l with
  | .glob pa => (!own && (sectorsOf pa n).any s.sectorHeld) || s.regionBusy pa n
  | .spd t off => !own && (sectorsOf off n).any (fun x => (s.pinnedScratch t).contains x)

/-- A commit of a task must wait: what it would publish meets a sector held by another task (R264, R266), the text of a kernel with
running grids (R323) or a region that changes (R277, R279); or the argument copy of a child it has launched, which must not see it,
is still to be made (R331). -/
def State.commitBlocked (s : State) (tid : Nat) : Bool :=
  match s.task? tid with
  | none => false
  | some k => k.version.any (fun w => (sectorsOf w.extent.1 w.extent.2).any (s.sectorHeldBy tid) ||
      s.textHeld w.extent.1 w.extent.2 || s.regionBusy w.extent.1 w.extent.2) ||
    k.teams.any (fun f => match f.2.hold with
      | .commit (.copy _) => true
      | _ => false)

/-! ## Commits -/

/-- The route entry of a context for a device: its number, if one is valid (R157, R427). -/
def State.route (s : State) (c dev : Nat) : Option Nat :=
  (span 0 64).find? (fun m => nbit (s.creg c (oMRT m)) 16 && nbits (s.creg c (oMRT m)) 0 16 = dev)

/-- A message departs under its route's epoch with its flow's next number (R157, R426); a device without a number sends
none (R427). -/
def State.sendMessage (s : State) (m : Message) : State :=
  let c := m.srcCtx
  let epoch := match s.route c m.dstDev with
    | some e => AMap.get 0 (s.ctx c).routeEpoch e
    | none => m.epoch
  let key := m.dstDev * 256 + m.mbox
  let seq := AMap.get 0 (s.ctx c).flowSeq key
  if (s.reg rMDEVNO).toNat % 2 ^ 16 = 0xFFFF then s
  else
  { s.modCtx c (fun x => { x with flowSeq := AMap.put 0 x.flowSeq key (seq + 1) }) with
    sent := s.sent ++ [{ m with epoch := epoch, seq := seq }] }

/-- The register snapshot of a commit point, if the Surveyor has asked for one: every team's lines and state part go to its frame
(R206, R259). -/
def State.snapRegisters (s : State) (tid : Nat) : State :=
  if s.asked.contains tid then
    match s.task? tid with
    | some k => k.teams.foldl (fun s f => s.saveLive tid f.1) { s with asked := s.asked.filter (· ≠ tid) }
    | none => s
  else s

/-- Publishes a task's version and messages under the next stamp, raises its commit index, and takes the register snapshot that has
been asked for (R259). -/
def State.commitTask (s : State) (tid : Nat) : State × Nat :=
  let r := s.drawStamp
  match r.1.task? tid with
  | none => r
  | some k =>
    let s := (r.1.publish k.version).setTask tid
      { k with version := [], messages := [], taken := [], commits := k.commits + 1 }
    ((k.messages.foldl State.sendMessage s).snapRegisters tid, r.2)

/-- The context is paused at a snapshot, its accesses drained (R382, R383). -/
def State.snapHeld (s : State) (c : Nat) : Bool := (s.ctx c).snapPaused && nbit (s.reg rSNAPREQ).toNat 8

/-- A trap has failed the party's task or its gang (R182, R263). -/
def State.isFailing (s : State) (p : Party) : Bool :=
  match s.taskOf p with
  | none => false
  | some k => s.failingGang k

/-- The party's accesses may still be performed: its context is not paused, and no replay of it has stopped for good (R383, R386). -/
def State.goesOn (s : State) (p : Party) : Bool :=
  match p, s.taskOf p with
  | .steward _, _ => true
  | _, none => !s.replayDead (s.ctxOf p)
  | _, some k => !s.snapHeld k.ctx && !s.replayDead k.ctx

/-- The party's accesses may still act: no trap has failed its task either (R182). -/
def State.acting (s : State) (p : Party) : Bool := !s.isFailing p && s.goesOn p

/-! ## Order of a team's accesses -/

/-- A memory operation may be performed: no earlier one is an acquire (R234), or shares its bytes (R123, R237), and a
release comes after every earlier one. -/
def mayPerform (m : MemOp) : List Pend → Nat → Bool
  | [], _ => false
  | x :: xs, id =>
    if x.id = id then true
    else
      (x.done || (match x.kind with
        | .mem e => !e.acq && !m.rel && !m.accs.any (fun a => e.touches a.loc m.bytes)
        | .matrix (.mld rows) _ _ _ _ => !m.rel &&
          !m.accs.any (fun a => rows.any (fun r => r.loc.meets r.data2.toNat a.loc m.bytes))
        | _ => true)) && mayPerform m xs id

/-- The operation is itself the commit point at which the team stands, and is performed after the commit: a load, or a store to a
scratchpad (R234, R255). -/
def Team.ownCommit (t : Team) (x : Pend) : Bool :=
  match t.hold, x.kind with
  | .commit _, .mem m => x.point = t.retired && m.rel && 5 ≤ m.scope &&
      (m.kind = .load || (m.kind = .store && m.accs.any (fun a => match a.loc with
        | .spd _ _ => true
        | .glob _ => false)))
  | _, _ => false

/-- Every earlier access of the team is performed: its stores, atomics and `mred` words, for which a commit waits (R259), and its
reads, which the commit releases (R235). -/
def earlierDone : List Pend → Nat → Bool
  | [], _ => true
  | x :: xs, id =>
    if x.id = id then true
    else
      (x.done || (match x.kind with
        | .mem _ | .matrix (.mld _) _ _ _ _ => false
        | _ => true)) && earlierDone xs id

/-! ## Lanes of an operation -/

/-- The accesses that an event performs: every lane's, or only the named lane's unless a lower lane still accesses its bytes
(R123, R240). -/
def State.chosen (s : State) (m : MemOp) : List Access :=
  match s.only with
  | none => m.accs
  | some l => m.accs.filter (fun a => a.lane = l && !m.accs.any (fun b => b.lane < l && b.loc.meets m.bytes a.loc m.bytes))

/-- An operation of which accesses have been performed. -/
def MemOp.without (m : MemOp) (done : List Access) : MemOp := { m with accs := m.accs.filter (fun a => !done.contains a) }

/-- Reads of a team at its L1: loads, and global atomics below `.clu` (R132, R227). -/
def State.l1Reads (s : State) (p : Party) (n : Nat) (accs : List Access) : State :=
  accs.foldl (fun s a => match a.loc with
    | .glob pa => s.l1Touch p a.va pa n
    | .spd _ _ => s) s

end Sys2Proof.Machine
end

