-- ==== Sys2Proof/Machine/Descriptor.lean ====
section
/-!
DEFINITION. What engine instructions name: descriptors read at issue (R148, R151, R153, R154), OB records and their
scale addresses (R158, R159, R293), and the range-lock table (R244, R245).
-/

namespace Sys2Proof.Machine

/-! ## Reading at issue -/

/-- Reads `n` chunks of 8 bytes at issue, as a load of the team: each is translated, checked against range locks, and
waits for the team's earlier accesses to it and for a region that changes (R148, R122, R123, R277). -/
def readChunks (sp : Space) (p : Party) (t : Team) (addr : Word64) : Nat → State → Except Res (State × List Byte)
  | 0, s => .ok (s, [])
  | n + 1, s =>
    match s.checkAccess p sp .load addr 8 false with
    | (s, .ok l) =>
      let met := s.meetFlaws (s.readsSite (partyTask p) l 8)
      if t.passes' l 8 || l.busy s 8 then .error .wait
      else if met.2.isSome then .error (.trap (trapOf 33 addr 0))
      else let s := met.1
        match readChunks sp p t (addr + 8#64) n s with
        | .ok (s, bs) => .ok (s, toBytes 8 (s.readLoc (partyTask p) l 8) ++ bs)
        | .error r => .error r
    | (_, .fail code) => .error (.trap (trapOf code addr 0))
    | (_, .page) => .error (.trap { trapOf 1 addr 0 with cls := 0 })
    | (_, .miss) => .error (.walk addr .load 0xFFFF)
    | (_, .notStarted) => .error .wait
    | (_, .nowhere pa) => .error (.stop (.noSuchAddress pa))

/-- Reads a block of `n` bytes, a multiple of 8, aligned to `al`. -/
def readBlock (s : State) (p : Party) (t : Team) (sp : Space) (addr : Word64) (al n : Nat) :
    Except Res (State × List Byte) :=
  if addr.toNat % al ≠ 0 then .error (.trap (trapOf 20 addr 0)) else readChunks sp p t addr (n / 8) s

/-- The descriptor's bytes have been read: a load hits a watchpoint (R401). -/
def State.watchBlock (s : State) (p : Party) (pc : Word64) (sp : Space) (addr : Word64) (n : Nat) : State :=
  match s.resolve p sp .load addr false with
  | (_, .ok l) => s.watch (accessor p pc false) l true false addr n 0xFFFF
  | _ => s

/-- Address and space of a descriptor operand (R148). -/
def descAt (t : Team) (a : Nat) (scratch : Bool) : Space × Word64 :=
  if scratch then (.gang, (t.reg a 0).setWidth 64) else (.global, t.pair a 0)

/-- Bytes of an element of a type code of R21; 0 for e2m1. -/
def elemSize (code : Nat) : Nat := tyWidth code / 8

/-! ## Operand buffer records -/

def ObRec.fmt (r : ObRec) : Nat := nbits r.word1.toNat 0 4
def ObRec.blk (r : ObRec) : Nat := nbits r.word1.toNat 4 2
def ObRec.had (r : ObRec) : Nat := nbits r.word1.toNat 6 2
def ObRec.shift (r : ObRec) : Nat := nbits r.word1.toNat 8 5
def ObRec.specoff (r : ObRec) : Nat := nbits r.word1.toNat 16 5
/-- First byte and bytes of a record's run of granules (R158). -/
def ObRec.lo (r : ObRec) : Nat := r.base * 4096
def ObRec.size (r : ObRec) : Nat := r.length * 4096
/-- Elements of a block (R159). -/
def ObRec.blockLen (r : ObRec) : Nat := if r.blk = 0 then 0 else 8 * 2 ^ r.blk

/-- Scale and special address of the block that begins at an OB address (R159). -/
def ObRec.sag (r : ObRec) (a : Nat) : Nat × Nat :=
  let sc := (nbits r.word2.toNat 0 19 + (a - r.lo) / 2 ^ r.shift) % 2 ^ 19
  (sc, (sc + r.specoff) % 2 ^ 19)

/-- Record `n` of a core. -/
def Core.obRec (k : Core) (n : Nat) : ObRec := AMap.get ObRec.reset k.recs n
def Core.setObRec (k : Core) (n : Nat) (r : ObRec) : Core := { k with recs := AMap.put ObRec.reset k.recs n r }

/-- An OB address lies in a range that the cohort holds. -/
def Core.obHolds (k : Core) (tid a : Nat) : Bool :=
  k.recs.any (fun e => e.2.held = some tid && e.2.lo ≤ a && a < e.2.lo + e.2.size)

/-- Both bytes of a block's scale and special lie in ranges the cohort holds. -/
def Core.sagOk (k : Core) (tid : Nat) (r : ObRec) (a : Nat) : Bool :=
  k.obHolds tid (r.sag a).1 && k.obHolds tid (r.sag a).2

/-- A byte of the operand buffer. -/
def Core.obByte (k : Core) (a : Nat) : Byte := AMap.get 0#8 k.ob a

/-- OB_RECORD, with the record and tile of R184. -/
def obTrap (record tile : Nat) : TrapInfo := trapOf 31 0#64 (256 * record + tile)

/-- An operation of the cohort that uses the record is still outstanding (R158): a matrix word, a copy into it, a fetch of the
lead queue. -/
def State.obBusy (s : State) (tid n : Nat) (k : Task) : Bool :=
  k.teams.any (fun f =>
    f.2.pend.any (fun x => !x.done && (match x.kind with
      | .matrix (.mma a b) _ _ _ _ => a = n || b = n
      | .matrix (.mmaTile _ _ b) _ _ _ _ => b = n
      | _ => false)) ||
    f.2.leadQ.any (fun e => match e with
      | .ob _ r _ _ done total _ => r = n && done < total
      | _ => false)) ||
  (s.core k.core).engines.any (fun q => q.1 < 2 && q.2.any (fun o =>
    o.task = tid && nbits (bytesAt o.desc 0x13 1) 2 2 = 2 && bytesAt o.desc 0x14 1 = n))

/-! ## The range-lock table -/

/-- A range to be registered: operand buffer, gang scratchpad, first and last byte, destination. -/
structure LockSpan where
  ob : Bool
  spd : Bool
  lo : Nat
  hi : Nat
  dest : Bool
  deriving DecidableEq, Repr

/-- A span of a task shares a byte with a registered range: of the same operand buffer, of one scratchpad, or of the same task's
addresses (R245). -/
def State.lockMeets (s : State) (same : Bool) (r : RangeLock) (tid : Nat) (l : LockSpan) : Bool :=
  if r.ob || l.ob then same && r.ob && l.ob && meets r.lo r.hi l.lo l.hi
  else if r.spd || l.spd then
    r.spd && l.spd && (s.spdParts tid l.lo l.hi).any (fun x => s.spdMeets r x.1 x.2.1 (x.2.2 + 1 - x.2.1))
  else r.task = tid && meets r.lo r.hi l.lo l.hi

/-- Room for so many more entries (R244). -/
def Core.lockRoom (k : Core) (n : Nat) : Bool := k.locks.length + n ≤ 128

/-- Registers an operation's ranges under the next registration number (R149, R244). -/
def Core.register (k : Core) (tid ord op tick : Nat) (lead : Bool) (ls : List LockSpan) : Core × Nat :=
  let n := k.lockSeq + 1
  ({ k with
      lockSeq := n
      locks := k.locks ++ ls.map (fun l =>
        { ob := l.ob, spd := l.spd, lo := l.lo, hi := l.hi, task := tid, dest := l.dest, seq := n, since := tick, ord := ord
          op := op, lead := lead }) }, n)

/-- Frees the entries of a registration. -/
def Core.unlock (k : Core) (seq : Nat) : Core := { k with locks := k.locks.filter (fun r => r.seq ≠ seq) }

/-- An earlier registration forbids an operation to begin: its destination meets an earlier range, or its source an
earlier destination (R245). Registrations of one core are ordered by their numbers, those of several by their steps. -/
def State.lockWait (s : State) (core tid seq : Nat) : Bool :=
  let mine := (s.core core).locks.filter (fun r => r.seq = seq)
  s.cores.any (fun c => c.2.locks.any (fun r => mine.any (fun m =>
    (if c.1 = core then decide (r.seq < seq) else decide (r.since < m.since)) && (m.dest || r.dest) &&
    s.lockMeets (c.1 = core) r tid { ob := m.ob, spd := m.spd, lo := m.lo, hi := m.hi, dest := m.dest })))

/-- The registration overlaps a range already in the core's table, which ends the team's chunk (R375). -/
def State.overlaps (s : State) (core tid : Nat) (ls : List LockSpan) : Bool :=
  ls.any (fun l => (s.core core).locks.any (fun r => s.lockMeets true r tid l))

/-- Registers ranges for an operation of a team and goes on, ending the chunk when they overlap (R149, R244, R375); in a replay it ends
where the log says so (R385). -/
def registering (s : State) (p : Party) (t : Team) (core op : Nat) (ls : List LockSpan)
    (k : State → Team → Nat → Res) : Res :=
  let tid := (partyTask p).getD 0
  let c := s.core core
  if !c.lockRoom ls.length then .wait
  else
    let go (s : State) (t : Team) : Res :=
      let r := (s.core core).register tid (partyOrd p) op s.tick false ls
      k (s.setCore core r.1) t r.2
    if (if s.replaying (s.ctxOf p) then s.logsOverlap p t else s.overlaps core tid ls) then chunked s p t 0 [6#8] go
    else go s t

/-- The log of a replay still holds an end of a party's chunk at an overlapping registration (R385). -/
def State.overlapDue (s : State) (p : Party) : Bool :=
  s.replaying (s.ctxOf p) && (s.scriptFor p).any (fun r => r.kind = 0 && r.payload = [6#8])

/-- Registers the source of a lead-queue fetch until its entry is popped (R161, R244), ending its team's chunk when it overlaps a
registered range (R375); in a replay an overlapping one waits until its team stands where the log has it (R385). -/
def fetching (s : State) (p : Party) (va : Word64) (n : Nat) (k : State → Nat → Res) : Res :=
  let core := s.coreOf p
  let tid := (partyTask p).getD 0
  let owner := Party.team tid (partyOrd p)
  let l : LockSpan := { ob := false, spd := false, lo := va.toNat, hi := va.toNat + n - 1, dest := false }
  let go (s : State) : Res :=
    let r := (s.core core).register tid (partyOrd p) 0 s.tick true [l]
    k (s.setCore core r.1) r.2
  match s.team? owner with
  | none => .wait
  | some u =>
    if !(s.core core).lockRoom 1 then .wait
    else if s.logsOverlap p u || (s.overlaps core tid [l] && !s.replaying (s.ctxOf p)) then
      (match endChunk s p u 0 [6#8] u.retired none with
       | .go s u => go (s.setTeam owner u)
       | .hold => .wait
       | .diverge s => .diverged s)
    else if s.overlaps core tid [l] && s.overlapDue p then .wait
    else go s

/-- A range of bytes of an address space, from the lowest to the highest (R149). -/
def lockSpan (scratch : Bool) (lo hi : Int) (dest : Bool) : LockSpan :=
  { ob := false, spd := scratch, lo := lo.toNat, hi := hi.toNat, dest := dest }

/-- The word reads or writes memory. -/
def MatrixWord.accesses (w : MatrixWord) : Bool :=
  match w with
  | .mld _ | .mdrain _ (.mem _ _) => true
  | _ => false

end Sys2Proof.Machine
end

