-- ==== Sys2Proof/Machine/Launch.lean ====
section
/-!
DEFINITION. Launch records and role tables as the device checks them (R155, R156, R214), and the start of a run with
its argument copy (R128, R352, R358).
-/

namespace Sys2Proof.Machine

/-- Byte `r` of the role bytes. -/
def LaunchRec.roleByte (r : LaunchRec) (i : Nat) : Nat := nbits r.roleBytes.toNat (8 * i) 8

/-- Roles present (R155). -/
def LaunchRec.roleCount (r : LaunchRec) : Nat := ((span 0 4).filter (fun i => nbit (r.roleByte i) 7)).length

/-- Teams of a cohort. -/
def LaunchRec.teams (r : LaunchRec) : Nat :=
  ((span 0 r.roleCount).map (fun i => nbits (r.roleByte i) 5 2 + 1)).sum

/-- The record keeps within the limits of R155. -/
def LaunchRec.ok (r : LaunchRec) : Bool :=
  let n := r.roleCount
  r.code.toNat % 4 = 0 && r.table.toNat % 8 = 0 &&
  1 ≤ n && (span 0 n).all (fun i => nbit (r.roleByte i) 7) && 1 ≤ r.teams && r.teams ≤ 8 &&
  r.scratch ≤ 786432 && r.argSize ≤ 1024 && r.staticSize ≤ min 256 r.argSize &&
  r.argAddr.toNat % 8 = 0 && r.compAddr.toNat % 4 = 0 &&
  4 ≤ r.scope && r.scope ≤ 6 && r.flags.toNat / 2 ^ 18 = 0

/-- Bytes of a role table (R156). -/
def tableSize (roles : Nat) : Nat := 16 + 32 * roles

/-- The role table keeps within the limits of R156. -/
def tableOk (r : LaunchRec) (table : List Byte) : Bool :=
  mdLegal (BitVec.ofNat 32 (bytesAt table 0 4)) && bytesAt table 4 1 = r.roleCount && bytesAt table 5 11 = 0 &&
  (span 0 r.roleCount).all (fun i =>
    let o := 0x10 + 32 * i
    bytesAt table o 8 % 4 = 0 && bytesAt table (o + 8) 8 % 4 = 0 && bytesAt table (o + 0x13) 13 = 0 &&
    (let b := bytesAt table (o + 0x10) 1
     8 ≤ b && b ≤ 96 && b % 8 = 0))

/-- The roles of a launch: addresses and budgets from the table, groups and teams from the record (R156). -/
def rolesOf (r : LaunchRec) (table : List Byte) : List Role :=
  (span 0 r.roleCount).map (fun i =>
    let o := 0x10 + 32 * i
    { entry := BitVec.ofNat 64 (bytesAt table o 8), lead := BitVec.ofNat 64 (bytesAt table (o + 8) 8)
      budget := bytesAt table (o + 0x10) 1, groups := nbits (r.roleByte i) 0 5 + 1
      teams := nbits (r.roleByte i) 5 2 + 1 })

/-- Default md of a role table. -/
def tableMd (table : List Byte) : Word := BitVec.ofNat 32 (bytesAt table 0 4)

/-- Cores of the region of a latency class (R214). -/
def classCores (cls : Nat) : Nat :=
  match cls with
  | 0 => 1
  | 1 => 8
  | 2 => 32
  | _ => 128

/-- An empty device could hold a gang of the launch within its region (R214): each core has 768 KiB of scratchpad. -/
def LaunchRec.fits (r : LaunchRec) : Bool :=
  r.scratch = 0 || min r.gangSize r.cohorts ≤ 786432 / r.scratch * classCores r.gangClass

/-- Bytes of a cohort's frame (R205). -/
def LaunchRec.frameSize (r : LaunchRec) (roles : List Role) : Nat :=
  let teams := (roles.map (fun q => q.teams * (128 * q.budget * q.groups + 8192))).sum
  (teams + r.scratch + 4095) / 4096 * 4096

/-- The launch could be placed on an empty device: a gang fits its region (R214), and its frames its context's pool (R196, R205). -/
def State.couldPlace (s : State) (c : Nat) (r : LaunchRec) (roles : List Role) : Bool :=
  r.fits && decide (min r.gangSize r.cohorts * r.frameSize roles ≤ s.creg c oCPOOLS * 2 ^ 21)

/-- A grid that has not yet started. -/
def newGrid (ctx : Nat) (packet parent : Option Nat) (r : LaunchRec) (md : Word) (roles : List Role) (runs : Nat) :
    Grid :=
  { ctx := ctx, packet := packet, parent := parent, record := r, md := md, roles := roles, args := [], run := 0
    runs := runs, ordinal := 0, handed := parent.isNone, copied := false, started := false, next := 0, retry := [], ended := 0, failed := false
    lastCluster := none, waitSince := none, expired := false, plate := none, engraved := false, settled := false, sums := []
    sumsApplied := false, atCheck := false, checked := false, complete := false, anchor := r.anchor }

/-- Notes a kernel that is launched, at its first launch in generation 1 (R323). -/
def State.noteKernel (s : State) (c : Nat) (code : Word64) : State :=
  let pages := s.textPages c code
  let spans := s.textSpans c code
  if s.kernels.any (fun k => k.ctx = c && k.code = code) then
    { s with kernels := s.kernels.map (fun k => if k.ctx = c && k.code = code then { k with pages := pages, spans := spans } else k) }
  else { s with kernels := s.kernels ++ [{ ctx := c, code := code, gen := 1, pages := pages, spans := spans, writes := [] }] }

/-- Adds a grid under the next grid number. -/
def State.addGrid (s : State) (g : Grid) : State × Nat :=
  (State.setGrid (State.noteKernel { s with nextGrid := s.nextGrid + 1 } g.ctx g.record.code) s.nextGrid g, s.nextGrid)

/-- Gives a grid its context's next launch ordinal (R372; log 23). -/
def State.giveOrdinal (s : State) (g : Nat) : State :=
  match s.grid? g with
  | none => s
  | some x => (s.setGrid g { x with ordinal := (s.ctx x.ctx).nextOrdinal }).modCtx x.ctx (fun k =>
      { k with nextOrdinal := k.nextOrdinal + 1 })

/-- Frees what an ended grid holds: its pending-launch entry (R155, R333), and its packet's place in the order (R348); one that ends
without a completion counts as complete once the record queued last is written (R358). -/
def State.endGrid (s : State) (g : Nat) : State :=
  match s.grid? g with
  | none => s
  | some x =>
    let s := s.setGrid g { x with complete := true }
    let s := match x.parent with
      | some c => s.modCore c (fun k => { k with launches := k.launches.filter (fun n => n ≠ g) })
      | none => s
    match x.packet with
    | some n =>
      if x.failed then s.failPacket x.ctx n
      else s.modCtx x.ctx (fun k => { k with packets := AMap.modify k.packets n (fun p => { p with stage := .complete }) })
    | none => s

/-- A grid places no more cohorts and performs no completion; the sums of its cohorts that have ended by committing are still to be
applied (R358, R366). -/
def State.abandon (s : State) (g : Nat) : State :=
  match s.grid? g with
  | none => s
  | some x =>
    let n := x.record.cohorts
    let s := s.setGrid g { x with failed := true, started := true, handed := true, next := n, retry := [], ended := n }
    if x.sums.isEmpty || x.sumsApplied then s.endGrid g else s

/-- What became of an access of the front end (R454). -/
inductive Fe (α : Type) where
  | ok (v : α)
  /-- It waits for PFRES; its record is written. -/
  | held
  /-- It is denied; its record is written. -/
  | denied
  deriving DecidableEq, Repr

/-- Front-end accesses that already wait for PFRES. -/
def State.feWaiting (s : State) (c what n : Nat) : Bool :=
  (s.ctx c).pageFaults.any (fun f => f.who = .frontEnd what n)

/-- A front-end access that is denied, or that PFRES has ended with fail (R454): the number of its ACCESS record. -/
def State.feFails (s : State) (c what n : Nat) : Option Nat :=
  ((s.ctx c).feFailed.find? (fun e => e.1 = what && e.2.1 = n)).map (·.2.2)

/-- A front-end access is held (R454): by a page fault, or until the record of its denial is written. -/
def State.feHeld (s : State) (c what n : Nat) : Bool :=
  s.feWaiting c what n || (s.feFails c what n).any (fun seq => !s.faultWritten c seq)

/-- Notes a front-end access as denied, reported by the record queued last. -/
def State.feDeny (s : State) (c what n : Nat) : State :=
  s.modCtx c (fun k => { k with feFailed := (what, n, (k.faultSeq + 65535) % 65536) :: k.feFailed })

/-- A denied access has its effect once its record is written; until then it holds what waits for it (R346, R358, R454). -/
def State.feDenied (s : State) (c what n : Nat) {α : Type} : State × Fe α :=
  match s.feFails c what n with
  | some seq =>
    if s.faultWritten c seq then
      (s.modCtx c (fun k => { k with feFailed := k.feFailed.filter (fun e => !(e.1 = what && e.2.1 = n)) }), .denied)
    else (s, .held)
  | none => (s, .denied)

/-- Takes the fault of a front-end access (R454): a miss writes its record and waits; a denial writes the ACCESS record. -/
def State.feFault (s : State) (c what n : Nat) (va : Nat) (x : Xlat) (write : Bool) {α : Type} : State × Fe α :=
  let addr : Word64 := BitVec.ofNat 64 va
  if x = .noTranslation then
    let f : PageFault := { seq := (s.ctx c).faultSeq, va := addr, lane := 0xFFFF, who := .frontEnd what n }
    let s := s.modCtx c (fun k => { k with pageFaults := k.pageFaults ++ [f] })
    (s.frontEndRecord c 0 1 addr (BitVec.ofNat 32 (b2n write)), .held)
  else ((s.frontEndRecord c 1 21 addr 0#32).feDeny c what n).feDenied c what n

/-- An access of the front end at the places that its bytes translate to, with what becomes of it (R454); `busy` holds it. -/
def State.feAccess (s : State) (c what n : Nat) (how : How) (va len : Nat) (busy : State → List Nat → Bool) {α : Type}
    (act : State → List Nat → State × α) : State × Fe α :=
  if s.feWaiting c what n then (s, .held)
  else if (s.feFails c what n).isSome then s.feDenied c what n
  else match s.feXlat c how va len with
    | (s, .ok ps) => if busy s ps then (s, .held) else
      let r := act s ps
      (r.1, .ok r.2)
    | (s, .error (a, x)) => if x = .busy then (s, .held) else s.feFault c what n a x (how = .store)

/-- A read of the front end. -/
def State.feGet (s : State) (c what n : Nat) (va len : Nat) : State × Fe (List Byte) :=
  s.feAccess c what n .load va len (fun s ps => s.bytesHeld false ps) (fun s ps => (s, ps.map (readByte s.mem)))

/-- A grid counts as complete. -/
def State.asComplete (s : State) (g : Nat) : State := s.modGrid g (fun x => { x with complete := true })

/-- What holds a write of the front end; the completion of a grid does not wait for its own end (R323). -/
def State.putHeld (s : State) (what n : Nat) (ps : List Nat) : Bool :=
  (if what = 1 then s.asComplete n else s).bytesHeld true ps

/-- A write of the front end. -/
def State.fePut (s : State) (c what n : Nat) (va : Nat) (data : List Byte) : State × Fe Bool :=
  s.feAccess c what n .store va data.length (fun s ps => s.putHeld what n ps) (fun s ps => (s.commitAt ps data, true))

/-- Adds to a word of memory in one step at its home (R332). -/
def State.feAdd (s : State) (c what n : Nat) (va value : Nat) : State × Fe Bool :=
  s.feAccess c what n .store va 4 (fun s ps => s.putHeld what n ps) (fun s ps => match ps with
    | pa :: _ => (s.commitBytes pa (toBytes 4 (readNat s.mem pa 4 + value)), true)
    | [] => (s, true))

/-- Copies the argument block of a grid for its next run (R128, R331, R352); a block that cannot be read fails the launch
(R358). -/
def State.copyArgs (s : State) (g : Nat) : State :=
  match s.grid? g with
  | none => s
  | some x =>
    if x.copied || x.complete then s
    else match s.feGet x.ctx 7 g x.record.argAddr.toNat x.record.argSize with
      | (s, .ok bs) => s.setGrid g { x with args := bs, copied := true }
      | (s, .held) => s
      | (s, .denied) => s.abandon g

/-- Starts the next run of a grid, once its argument block has been copied (R352). -/
def State.startRun (s : State) (g : Nat) : State :=
  let s := s.copyArgs g
  match s.grid? g with
  | none => s
  | some x => if x.copied && !x.complete && !x.started then s.setGrid g { x with started := true, next := 0, ended := 0, settled := false } else s

/-- A device-side launch enters its core's pending-launch queue, and its arguments are copied (R155, R331, R338). -/
def State.childLaunch (s : State) (c core : Nat) (record table : List Byte) : State × Nat :=
  let r := parseRecord record
  let a := s.addGrid (newGrid c none (some core) r (tableMd table) (rolesOf r table) 1)
  ((a.1.modCore core (fun k => { k with launches := k.launches ++ [a.2] })).copyArgs a.2, a.2)

/-- The argument copy of a grid has been made, or has failed. -/
def State.copyOver (s : State) (g : Nat) : Bool :=
  match s.grid? g with
  | some x => x.copied || x.complete
  | none => true

end Sys2Proof.Machine
end

