-- ==== Sys2Proof/Machine/Engine.lean ====
section
/-!
DEFINITION. The engine group: copies, chains and collectives as they issue (R148 to R154, R299), operand buffer records
(R158, R159, R292), the lead slice and its queue (R160, R161, R297), launches (R155) and messages (R157).
-/

namespace Sys2Proof.Machine

/-! ## Tensor copies -/

/-- A dimension of a copy (R151). -/
structure CopyDim where
  count : Nat
  src : Int
  dst : Int
  deriving DecidableEq, Repr

/-- A `tcopy` descriptor (R151). -/
structure Copy where
  src : Nat
  dst : Nat
  sc : Nat
  dc : Nat
  rank : Nat
  flags : Nat
  record : Nat
  blk : Nat
  sbase : Nat
  dims : List CopyDim
  deriving DecidableEq, Repr

/-- Reads a `tcopy` descriptor's fields. -/
def parseCopy (d : List Byte) : Copy :=
  let rank := bytesAt d 0x12 1
  { src := bytesAt d 0 8, dst := bytesAt d 8 8, sc := bytesAt d 0x10 1, dc := bytesAt d 0x11 1, rank := rank
    flags := bytesAt d 0x13 1, record := bytesAt d 0x14 1, blk := bytesAt d 0x15 1, sbase := bytesAt d 0x18 8
    dims := (span 0 rank).map (fun i =>
      { count := bytesAt d (0x20 + 24 * i) 4, src := toInt 64 (bytesAt d (0x28 + 24 * i) 8)
        dst := toInt 64 (bytesAt d (0x30 + 24 * i) 8) }) }

def Copy.srcSpd (c : Copy) : Bool := nbits c.flags 0 2 = 1
/-- Destination space: 0 global, 1 scratchpad, 2 operand buffer. -/
def Copy.dstSpace (c : Copy) : Nat := nbits c.flags 2 2
def Copy.raw (c : Copy) : Bool := nbit c.flags 4
def Copy.had (c : Copy) : Bool := nbit c.flags 5
/-- Count of dimension 0, and elements in all. -/
def Copy.count0 (c : Copy) : Nat := ((c.dims.map (·.count)).head?).getD 1
def Copy.total (c : Copy) : Nat := (c.dims.map (·.count)).foldl (· * ·) 1

/-- Limits of a descriptor that do not need its record (R151, R152): ILLEGAL_OP when broken. -/
def Copy.legal (c : Copy) (d : List Byte) : Bool :=
  let ob := decide (c.dstSpace = 2)
  let quant := c.dc = 11 && !c.raw && !ob
  c.sc ≤ 12 && c.dc ≤ 12 && nbits c.flags 0 2 < 2 && c.dstSpace < 3 && c.flags < 64 &&
  c.record < 32 && (ob || c.record = 0) && c.blk < 2 && bytesAt d 0x16 2 = 0 &&
  (quant || ((c.blk = 0 || (c.dc = 11 && !ob)) && c.sbase = 0)) &&
  (!c.had || (c.dc = 11 && !ob)) &&
  (span 0 c.rank).all (fun i => bytesAt d (0x20 + 24 * i) 4 ≠ 0 && bytesAt d (0x24 + 24 * i) 4 = 0) &&
  (!c.raw || tyWidth c.sc = tyWidth c.dc) &&
  c.src % max 1 (elemSize c.sc) = 0 && c.dst % max 1 (elemSize c.dc) = 0 &&
  (!c.srcSpd || c.src < 2 ^ 32) && (c.dstSpace ≠ 1 || (c.dst < 2 ^ 32 && c.sbase < 2 ^ 32)) &&
  (!quant || c.count0 % (if c.blk = 1 then 32 else 16) = 0) && (c.sc ≠ 11 || !c.raw || c.count0 % 2 = 0)

/-- Length of a quantised block: from the record in the operand buffer, else from the descriptor; 0 for a plain copy. -/
def Copy.blockLen (c : Copy) (r : ObRec) : Nat :=
  if c.raw then 0
  else if c.dstSpace = 2 then r.blockLen
  else if c.dc = 11 then (if c.blk = 1 then 32 else 16) else 0

/-- The Hadamard transform applies (R152). -/
def Copy.transforms (c : Copy) (r : ObRec) : Bool := if c.dstSpace = 2 then r.had ≠ 0 else c.had

/-- Index vector of an element, dimension 0 fastest (R152). -/
def indexOf : List CopyDim → Nat → List (CopyDim × Nat)
  | [], _ => []
  | d :: ds, n => (d, n % d.count) :: indexOf ds (n / d.count)

/-- Source address of an element: dimension 0 of e2m1 is packed (R152). -/
def Copy.srcAt (c : Copy) (pos : Nat) : Int :=
  let packed := c.sc = 11
  (List.zip (indexOf c.dims pos) (span 0 c.rank)).foldl (fun a x =>
    a + (if packed && x.2 = 0 then ((x.1.2 / 2 : Nat) : Int) else (x.1.2 : Int) * x.1.1.src)) (c.src : Int)

/-- Destination address of an element. -/
def Copy.dstAt (c : Copy) (pos : Nat) : Int :=
  let packed := c.dc = 11
  (List.zip (indexOf c.dims pos) (span 0 c.rank)).foldl (fun a x =>
    a + (if packed && x.2 = 0 then ((x.1.2 / 2 : Nat) : Int) else (x.1.2 : Int) * x.1.1.dst)) (c.dst : Int)

/-- Lowest and highest byte that one side touches (R149). -/
def Copy.bounds (c : Copy) (dest : Bool) : Int × Int :=
  let base : Int := if dest then c.dst else c.src
  let code := if dest then c.dc else c.sc
  let r := (List.zip c.dims (span 0 c.rank)).foldl (fun (a : Int × Int) x =>
    let v : Int := if code = 11 && x.2 = 0 then (((x.1.count - 1) / 2 : Nat) : Int)
      else ((x.1.count : Int) - 1) * (if dest then x.1.dst else x.1.src)
    (a.1 + min 0 v, a.2 + max 0 v)) (base, base)
  (r.1, r.2 + max 1 (elemSize code) - 1)

/-- Blocks of a copy that quantises outside the operand buffer (R152). -/
def Copy.blocks (c : Copy) (len : Nat) : Nat := if len = 0 then 0 else c.total / len

/-- OB addresses at which the blocks of a quantising copy into a record begin (R152). -/
def Copy.blockStarts (c : Copy) (r : ObRec) : List Nat :=
  (span 0 (c.blocks (c.blockLen r))).map (fun n => r.lo + (c.dstAt (n * c.blockLen r)).toNat)

/-- The ranges of a copy: source and destination (R149, R244), each from the lowest to the highest byte it touches; the
destination's holds the scales and specials. -/
def copySpans (c : Copy) (r : ObRec) : List LockSpan :=
  let b := c.bounds false
  let d := c.bounds true
  let src := lockSpan c.srcSpd b.1 b.2 false
  if c.dstSpace = 2 then
    let more := (c.blockStarts r).flatMap (fun a => [(r.sag a).1, (r.sag a).2])
    [src, { ob := true, spd := false, lo := more.foldl min (r.lo + d.1.toNat), hi := more.foldl max (r.lo + d.2.toNat), dest := true }]
  else
    let n : Int := c.blocks (c.blockLen r)
    let d : Int × Int := if n = 0 then d else (min d.1 c.sbase, max d.2 (c.sbase + 2 * n - 1))
    [src, lockSpan (c.dstSpace = 1) d.1 d.2 true]

/-- What the record decides about a copy into the operand buffer (R152, R159): its destination bytes within the record's
range, and its scales within ranges the cohort holds. -/
def copyObOk (tid : Nat) (c : Copy) (r : ObRec) : Bool :=
  let b := c.bounds true
  r.held = some tid && r.fmt ≠ 0 && (c.raw || r.fmt = c.dc) && 0 ≤ b.1 && b.2 < r.size

/-- Queues an operation on an engine, with its ranges (R149, R299). -/
def startEngine (s : State) (p : Party) (t : Team) (eng : Nat) (desc : List Byte) (ls : List LockSpan) : Res :=
  match partyTask p, s.taskOf p with
  | some tid, some k =>
    if 16 ≤ (AMap.get [] (s.core k.core).engines eng).length then .wait
    else
      registering s p t k.core t.nextId ls (fun s t seq =>
        let o : EngOp :=
          { task := tid, ord := partyOrd p, op := t.nextId, desc := desc, md := t.md, seq := seq, pc := t.ipc, pos := 0
            out := [], beside := [], block := [], fault := none }
        let s := s.modCore k.core (fun c => { c with engines := AMap.set c.engines eng (AMap.get [] c.engines eng ++ [o]) })
        .started s (t.start' .cp (.engine eng)) t.nextId)
  | _, _ => .wait

/-- The copy engine with fewer queued operations, engine 0 on a tie (R299). -/
def Core.copyEngine (k : Core) : Nat :=
  if (AMap.get [] k.engines 0).length ≤ (AMap.get [] k.engines 1).length then 0 else 1

/-- `tcopy` once its descriptor is read (R152). -/
def copyRes (i : Instr) (d : List Byte) (s : State) (p : Party) (t : Team) : Res :=
  let c := parseCopy d
  if !c.legal d then .trap (trapOf 16 0#64 (wordDetail i))
  else if c.sc = 11 && !c.raw then .trap (trapOf 18 0#64 (wordDetail i))
  else
    let k := s.core (s.coreOf p)
    let r := k.obRec c.record
    if c.dstSpace = 2 && !copyObOk ((partyTask p).getD 0) c r then .trap (obTrap c.record 0)
    else if c.dstSpace = 2 && c.dc = 11 && !c.raw && c.count0 % r.blockLen ≠ 0 then
      .trap (trapOf 16 0#64 (wordDetail i))
    else if c.dstSpace = 2 && !(c.blockStarts r).all (k.sagOk ((partyTask p).getD 0) r) then .trap (obTrap c.record 0)
    else startEngine s p t k.copyEngine d (copySpans c r)

def execTcopy (h : Hdr) (a : BitVec 7) (p : BitVec 1) (s : State) : Out :=
  issue (.tcopy h a p) h s (fun s q t =>
    let i := Instr.tcopy h a p
    let x := descAt t a.toNat (p = 1#1)
    match readBlock s q t x.1 x.2 64 32 with
    | .error r => r
    | .ok (s1, d0) =>
      let rank := bytesAt d0 0x12 1
      if rank = 0 || 16 < rank then .trap (trapOf 16 0#64 (wordDetail i))
      else match readBlock s1 q t x.1 x.2 64 (32 + 24 * rank) with
        | .error r => r
        | .ok (s2, d) => copyRes i d (s2.watchBlock q t.ipc x.1 x.2 d.length) q t)

/-! ## Chains -/

/-- Operation `n` of a chain descriptor: opcode and operand (R153). -/
def chainOp (d : List Byte) (n : Nat) : Nat × Nat := (bytesAt d (0x20 + 2 * n) 1, bytesAt d (0x21 + 2 * n) 1)
def chainOps (d : List Byte) : List (Nat × Nat) := (span 0 (bytesAt d 0x1E 1)).map (chainOp d)
/-- Some operation selects input b. -/
def chainUsesB (d : List Byte) : Bool := (chainOps d).any (fun o => o.1 < 9 && o.2 = 0)

/-- Limits of a chain descriptor (R153), but for the types it accepts. -/
def chainLegal (d : List Byte) : Bool :=
  let code := bytesAt d 0x1C 1
  let n := bytesAt d 0x1E 1
  let size := max 1 (elemSize code)
  code ≤ 12 && bytesAt d 0x1D 1 < 8 && 1 ≤ n && n ≤ 8 && bytesAt d 0x1F 1 = 0 &&
  (chainOps d).all (fun o => o.1 ≠ 0 && o.1 ≠ 8 && o.1 ≤ 15 && o.2 ≤ 4 && (o.1 < 9 || o.2 = 0)) &&
  bytesAt d 0 8 % size = 0 && (!chainUsesB d || bytesAt d 8 8 % size = 0) && bytesAt d 0x10 8 % size = 0 &&
  (!nbit (bytesAt d 0x1D 1) 0 || bytesAt d 0 8 < 2 ^ 32) &&
  (!chainUsesB d || !nbit (bytesAt d 0x1D 1) 1 || bytesAt d 8 8 < 2 ^ 32) &&
  (!nbit (bytesAt d 0x1D 1) 2 || bytesAt d 0x10 8 < 2 ^ 32)

/-- One range of a chain. -/
def chainSpan (d : List Byte) (off bit : Nat) (dest : Bool) : LockSpan :=
  let a := bytesAt d off 8
  lockSpan (nbit (bytesAt d 0x1D 1) bit) a (a + bytesAt d 0x18 4 * elemSize (bytesAt d 0x1C 1) - 1) dest

/-- `chain` once its descriptor is read (R153). An element code of R21 that the chain does not accept, 9 to 12, is both outside its
field's limits and a type not accepted: DESIGN CHOICE, ILLEGAL_MODE (log 56). -/
def chainRes (i : Instr) (d : List Byte) (s : State) (p : Party) (t : Team) : Res :=
  if !chainLegal d then .trap (trapOf 16 0#64 (wordDetail i))
  else if 9 ≤ bytesAt d 0x1C 1 || (bytesAt d 0x1C 1 ≤ 5 && (chainOps d).any (fun o => 11 ≤ o.1)) then .trap (trapOf 18 0#64 (wordDetail i))
  else if bytesAt d 0x18 4 = 0 then .started s ((t.start' .cp (.engine 2)).complete t.nextId) t.nextId
  else startEngine s p t 2 d
    (chainSpan d 0 0 false :: (if chainUsesB d then [chainSpan d 8 1 false] else []) ++ [chainSpan d 0x10 2 true])

def execChain (h : Hdr) (a : BitVec 7) (p : BitVec 1) (s : State) : Out :=
  issue (.chain h a p) h s (fun s q t =>
    let x := descAt t a.toNat (p = 1#1)
    match readBlock s q t x.1 x.2 64 64 with
    | .error r => r
    | .ok (s, d) => chainRes (.chain h a p) d (s.watchBlock q t.ipc x.1 x.2 64) q t)

/-! ## Collectives -/

/-- Limits of a collective descriptor (R154), but for the types it accepts. DESIGN CHOICE (log 56): of the flags, bit 0 asks for an
exact sum and bits 7 to 1 are reserved, as the table has it, where the text before it has bits 1 and 0 be 0. -/
def collLegal (d : List Byte) : Bool :=
  let code := bytesAt d 0x14 1
  let size := max 1 (elemSize code)
  code ≤ 12 && bytesAt d 0x15 1 ≤ 4 && bytesAt d 0x16 1 < 2 &&
  bytesAt d 0x17 1 = 0 && bytesAt d 0x1A 38 = 0 && bytesAt d 0 8 % size = 0 && bytesAt d 8 8 % size = 0 &&
  1 ≤ bytesAt d 0x10 4 && bytesAt d 0x10 4 ≤ 2 ^ 28

/-- Element codes that a collective accepts (R154). -/
def collType (code : Nat) : Bool := code = 0 || code = 6 || code = 7 || code = 8

/-- `coll` once its descriptor is read (R154, R429). The instruction word is kept behind the descriptor. -/
def collRes (i : Instr) (d : List Byte) (s : State) (p : Party) (t : Team) : Res :=
  match partyTask p, s.taskOf p with
  | some tid, some k =>
    match AMap.find (s.ctx k.ctx).groups (bytesAt d 0x18 2) with
    | none => .trap (trapOf 16 0#64 (wordDetail i))
    | some g =>
      if !collLegal d || g.opening.isSome then .trap (trapOf 16 0#64 (wordDetail i))
      else if !collType (bytesAt d 0x14 1) then .trap (trapOf 18 0#64 (wordDetail i))
      else
        let size := elemSize (bytesAt d 0x14 1)
        let n := bytesAt d 0x10 4 * size
        let m := if bytesAt d 0x15 1 = 4 then n * g.members.length else n
        registering s p t k.core t.nextId
          [lockSpan false (bytesAt d 0 8) (bytesAt d 0 8 + n - 1) false,
           lockSpan false (bytesAt d 8 8) (bytesAt d 8 8 + m - 1) true]
          (fun s t seq =>
            let o : EngOp :=
              { task := tid, ord := partyOrd p, op := t.nextId, desc := d ++ toBytes 4 (wordDetail i), md := t.md, seq := seq
                pc := t.ipc, pos := 0, out := [], beside := [], block := [], fault := none }
            .started (s.modCore k.core (fun c => { c with colls := c.colls ++ [o] }))
              (t.start' .cp (.collective (bytesAt d 0x18 2))) t.nextId)
  | _, _ => .wait

def execColl (h : Hdr) (a : BitVec 7) (p : BitVec 1) (s : State) : Out :=
  issue (.coll h a p) h s (fun s q t =>
    let x := descAt t a.toNat (p = 1#1)
    match readBlock s q t x.1 x.2 64 64 with
    | .error r => r
    | .ok (s, d) => collRes (.coll h a p) d (s.watchBlock q t.ipc x.1 x.2 64) q t)

/-! ## Operand buffer records -/

/-- The lowest run of `n` free granules, if there is one (R158). -/
def Core.freeRun (k : Core) (n : Nat) : Option Nat :=
  let used := k.recs.flatMap (fun e => if e.2.held.isSome then span e.2.base e.2.length else [])
  (span 0 (129 - n)).find? (fun b => (span b n).all (fun g => !used.contains g))

/-- Holds a record for a cohort at a run, its words at their reset values (R158, R159). -/
def Core.holdRec (k : Core) (tid n len base : Nat) : Core :=
  k.setObRec n { held := some tid, length := len, base := base, word1 := 0#32, word2 := 0#32 }

/-- `obres` (R158, R292): a team that waited at it has been granted its record. -/
def obresRes (n len : Nat) (s : State) (p : Party) (t : Team) : Res :=
  match partyTask p, s.taskOf p with
  | some tid, some k =>
    let c := s.core k.core
    if s.holdAt p = .obres n len then .ok s t
    else if len = 0 || 128 < len || (c.obRec n).held = some tid then .trap (obTrap n 0)
    else match c.obQ.isEmpty && (c.obRec n).held.isNone, c.freeRun len with
      | true, some base => .ok (s.setCore k.core (c.holdRec tid n len base)) t
      | _, _ =>
        let w : ObWait := { task := tid, ord := partyOrd p, n := n, len := len }
        .hold (s.setCore k.core { c with obQ := c.obQ ++ [w] }) (.obres n len)
  | _, _ => .wait

def execObres (h : Hdr) (n c : BitVec 5) (s : State) : Out :=
  issue (.obres h n c) h s (fun s p t => obresRes n.toNat (t.kreg c.toNat).toNat s p t)

/-- The format words an `obset` may write (R159). -/
def obWordsOk (w1 w2 : Nat) : Bool :=
  let fmt := nbits w1 0 4
  let blk := nbits w1 4 2
  let had := nbits w1 6 2
  7 ≤ fmt && fmt ≤ 11 && blk ≠ 3 && had ≠ 3 && nbits w1 13 3 = 0 && w1 / 2 ^ 21 = 0 && w2 / 2 ^ 19 = 0 &&
  !(fmt = 11 && blk = 0) && !((fmt = 7 || fmt = 8) && (blk ≠ 0 || had ≠ 0)) && (had = 0 || had = blk)

/-- `obset` (R158, R159). -/
def obsetRes (n : Nat) (w1 w2 : Word) (s : State) (p : Party) (t : Team) : Res :=
  match partyTask p, s.taskOf p with
  | some tid, some k =>
    let c := s.core k.core
    let r := c.obRec n
    if r.held ≠ some tid || !obWordsOk w1.toNat w2.toNat then .trap (obTrap n 0)
    else if s.obBusy tid n k then .wait
    else .ok (s.setCore k.core (c.setObRec n { r with word1 := w1, word2 := w2 })) t
  | _, _ => .wait

def execObset (h : Hdr) (n a : BitVec 5) (s : State) : Out :=
  issue (.obset h n a) h s (fun s p t => obsetRes n.toNat (t.kreg a.toNat) (t.kreg (a.toNat + 1)) s p t)

/-- `obrel` (R158). -/
def obrelRes (n : Nat) (s : State) (p : Party) (t : Team) : Res :=
  match partyTask p, s.taskOf p with
  | some tid, some k =>
    let c := s.core k.core
    if (c.obRec n).held ≠ some tid then .trap (obTrap n 0)
    else if s.obBusy tid n k then .wait
    else .ok (s.setCore k.core (c.setObRec n ObRec.reset)) t
  | _, _ => .wait

def execObrel (h : Hdr) (n : BitVec 5) (s : State) : Out :=
  issue (.obrel h n) h s (obrelRes n.toNat)

/-! ## Lead slices -/

/-- The lead queue of the team that a lead slice belongs to (R161). -/
def State.leadQueue (s : State) (p : Party) : List LeadEntry :=
  match s.team? (.team ((partyTask p).getD 0) (partyOrd p)) with
  | some t => t.leadQ
  | none => []

/-- Appends an entry to it. -/
def State.pushLead (s : State) (p : Party) (e : LeadEntry) : State :=
  let o := Party.team ((partyTask p).getD 0) (partyOrd p)
  match s.team? o with
  | some t => s.setTeam o { t with leadQ := t.leadQ ++ [e] }
  | none => s

def execLeadN (h : Hdr) (n : BitVec 5) (s : State) : Out :=
  issue (.leadN h n) h s (fun s p t => if (s.leadQueue p).length ≤ n.toNat then .ok s t else .wait)

def execQpushVal (h : Hdr) (a : BitVec 5) (s : State) : Out :=
  issue (.qpushVal h a) h s (fun s p t =>
    if 16 ≤ (s.leadQueue p).length then .wait else .ok (s.pushLead p (.val (t.kreg a.toNat))) t)

/-- `qpush.ld` (R161): the fetch completes later. A source that meets an outstanding engine destination takes RANGE_LOCK here, as a
load of the team does: DESIGN CHOICE (log 56). -/
def qpushLdRes (va : Word64) (s : State) (p : Party) (t : Team) : Res :=
  if 16 ≤ (s.leadQueue p).length then .wait
  else match s.checkAccess p .global .load va 4 false with
    | (s, .ok l) =>
      fetching s p va 4 (fun s seq =>
        let acc : Access := { lane := 0, va := va, loc := l, data := 0#64, data2 := 0#64 }
        .ok (s.pushLead p (.ld seq acc none t.ipc)) t)
    | (_, .fail code) => .trap (trapOf code va 0)
    | (_, .page) => .trap { trapOf 1 va 0 with cls := 0 }
    | (_, .miss) => .walk va .load 0xFFFF
    | (_, .notStarted) => .wait
    | (_, .nowhere pa) => .stop (.noSuchAddress pa)

def execQpushLd (h : Hdr) (a : BitVec 5) (s : State) : Out :=
  issue (.qpushLd h a) h s (fun s p t => qpushLdRes (t.kpair a.toNat) s p t)

/-- Checks `n` pages' worth of a source, 64 bytes at a time, and says where its parts lie. -/
def sourceParts (p : Party) (va : Word64) : Nat → State → Except Res (State × List (Nat × Nat))
  | 0, s => .ok (s, [])
  | n + 1, s =>
    match s.checkAccess p .global .load va 64 false with
    | (s, .ok (.glob pa)) =>
      (match sourceParts p (va + 64#64) n s with
       | .ok (s, l) => .ok (s, (pa, 64) :: l)
       | .error r => .error r)
    | (_, .fail code) => .error (.trap (trapOf code va 0))
    | (_, .page) => .error (.trap { trapOf 1 va 0 with cls := 0 })
    | (_, .miss) => .error (.walk va .load 0xFFFF)
    | (_, .nowhere pa) => .error (.stop (.noSuchAddress pa))
    | _ => .error .wait

/-- `qpush.ob` (R161). -/
def qpushObRes (n : Nat) (va : Word64) (s : State) (p : Party) (t : Team) : Res :=
  let r := (s.core (s.coreOf p)).obRec n
  if 16 ≤ (s.leadQueue p).length then .wait
  else if r.held ≠ partyTask p then .trap (obTrap n 0)
  else match sourceParts p va (r.size / 64) s with
    | .error e => e
    | .ok (s, parts) =>
      fetching s p va r.size (fun s seq => .ok (s.pushLead p (.ob seq n va parts 0 r.size t.ipc)) t)

def execQpushOb (h : Hdr) (a n : BitVec 5) (s : State) : Out :=
  issue (.qpushOb h a n) h s (fun s p t => qpushObRes n.toNat (t.kpair a.toNat) s p t)

/-- The value a head entry carries, once it is complete, and its registration (R161). -/
def LeadEntry.ready : LeadEntry → Option (Word × Option Nat)
  | .val w => some (w, none)
  | .ld id _ v _ => v.map (fun w => (w, some id))
  | .ob id n _ _ done total _ => if done < total then none else some (BitVec.ofNat 32 n, some id)

/-- The team's lead slice has ended, or it has none (log 17). -/
def State.leadEnded (s : State) (p : Party) : Bool :=
  match s.team? (.lead ((partyTask p).getD 0) (partyOrd p)) with
  | some l => l.ended
  | none => true

/-- `qpop` (R161, R297): a release of the team's earlier accesses toward its lead slice. -/
def qpopRes (d : Nat) (s : State) (p : Party) (t : Team) : Res :=
  if t.memBusy then .wait
  else match t.leadQ with
    | [] => if s.leadEnded p then .ok s (t.write d (fun _ => 0xFFFFFFFF#32)) else .wait
    | e :: rest => match e.ready with
      | none => .wait
      | some (w, seq) =>
        let s := match seq with
          | some n => s.modCore (s.coreOf p) (fun c => c.unlock n)
          | none => s
        .ok s ({ t with leadQ := rest }.write d (fun _ => w))

def execQpop (h : Hdr) (d : BitVec 7) (s : State) : Out :=
  issue (.qpop h d) h s (qpopRes d.toNat)

/-! ## Launches -/

/-- `launch` (R155, R156): reads the record and the role table at issue, then commits. -/
def launchRes (i : Instr) (va : Word64) (s : State) (p : Party) (t : Team) : Res :=
  match readBlock s p t .global va 64 64 with
  | .error r => r
  | .ok (s, d) =>
    let r := parseRecord d
    if !r.ok then .trap (trapOf 16 0#64 (wordDetail i))
    else match readBlock s p t .global r.table 8 (tableSize r.roleCount) with
      | .error e => e
      | .ok (s, table) =>
        if !tableOk r table || !s.couldPlace (s.ctxOf p) r (rolesOf r table) then .trap (trapOf 16 0#64 (wordDetail i))
        else if !s.launchRoom (s.coreOf p) then .hold s .full
        else
          let s := (s.watchBlock p t.ipc .global va 64).watchBlock p t.ipc .global r.table table.length
          .ok s { t with hold := .commit (.launch d table) }

def execLaunch (h : Hdr) (a : BitVec 7) (s : State) : Out :=
  issue (.launch h a) h s (fun s p t => launchRes (.launch h a) (t.pair a.toNat 0) s p t)

/-! ## Messages -/

/-- `msend` (R157): the body is read at issue and departs at the next commit. -/
def msendRes (target : Word) (va : Word64) (s : State) (p : Party) (t : Team) : Res :=
  let c := s.ctxOf p
  let dev := nbits target.toNat 8 16
  if target.toNat / 2 ^ 24 ≠ 0 || (s.route c dev).isNone then .trap (trapOf 21 (target.setWidth 64) 0)
  else match readBlock s p t .global va 64 64 with
    | .error r => r
    | .ok (s, body) =>
      let s := s.watchBlock p t.ipc .global va 64
      let m : Message :=
        { mbox := nbits target.toNat 0 8, srcDev := (s.reg rMDEVNO).toNat % 2 ^ 16, srcCtx := c, dstDev := dev, epoch := 0
          seq := 0, body := body
          grid := (match s.taskOf p with
            | some k => k.grid
            | none => 0) }
      .started (s.modTask ((partyTask p).getD 0) (fun k => { k with messages := k.messages ++ [m] }))
        ((t.start' .cp .message).complete t.nextId) t.nextId

def execMsend (h : Hdr) (a c : BitVec 5) (s : State) : Out :=
  issue (.msend h a c) h s (fun s p t => msendRes (t.kreg a.toNat) (t.kpair c.toNat) s p t)

/-! ## Mailboxes (R426 to R428) -/

/-- The number that a flow's next message carries under an epoch (R426). -/
def State.flowNext (s : State) (m : Message) : Nat :=
  match s.flows.find? (fun f => f.1 = m.srcDev && f.2.1 = m.srcCtx && f.2.2.1 = m.mbox && f.2.2.2.1 = m.epoch) with
  | some f => f.2.2.2.2
  | none => 0

/-- Counts a message of a flow. -/
def State.countFlow (s : State) (m : Message) : State :=
  { s with flows := (m.srcDev, m.srcCtx, m.mbox, m.epoch, m.seq + 1) ::
      s.flows.filter (fun f => !(f.1 = m.srcDev && f.2.1 = m.srcCtx && f.2.2.1 = m.mbox && f.2.2.2.1 = m.epoch)) }

/-- The mailbox can take a message: it is bound and holds fewer than 32 (R428). -/
def State.boxOpen (s : State) (mbox : Nat) : Bool := (s.boundTo mbox).isSome && (AMap.get [] s.mailboxes mbox).length < 32

/-- Payload of an ARRIVE record (R378). -/
def arriveBytes (m : Message) : List Byte :=
  toBytes 1 m.mbox ++ toBytes 2 m.srcDev ++ toBytes 1 m.srcCtx ++ toBytes 1 m.epoch ++ varint 10 m.seq ++ m.body

/-- Puts a message into its mailbox, with its ARRIVE record (R375). -/
def State.deliver (s : State) (m : Message) : State :=
  let s : State := { s with mailboxes := AMap.set s.mailboxes m.mbox (AMap.get [] s.mailboxes m.mbox ++ [m]) }
  let s := s.countFlow m
  match s.boundTo m.mbox with
  | some c => s.note (m.mbox % 16) c 3 0xFFFF none (arriveBytes m)
  | none => s

/-- Two copies of one message (R425). -/
def Message.same (a b : Message) : Bool :=
  a.mbox = b.mbox && a.srcDev = b.srcDev && a.srcCtx = b.srcCtx && a.epoch = b.epoch && a.seq = b.seq

/-- Delivers held arrivals whose turn in their flow has come, at most `n` (R426). -/
def deliverHeld : Nat → State → State
  | 0, s => s
  | n + 1, s =>
    match s.arrivals.find? (fun m => m.seq = s.flowNext m && s.boxOpen m.mbox) with
    | some m => deliverHeld n (State.deliver { s with arrivals := s.arrivals.erase m } m)
    | none => s

/-- A message's 64 bytes as the accesses of a store. -/
def bodyAccesses (va : Word64) (l : Loc) (body : List Byte) : List Access :=
  (span 0 8).map (fun i =>
    { lane := 0, va := va + BitVec.ofNat 64 (8 * i)
      loc := (match l with
        | .glob pa => .glob (pa + 8 * i)
        | .spd o off => .spd o (off + 8 * i))
      data := BitVec.ofNat 64 (bytesAt body (8 * i) 8), data2 := 0#64 })

/-- `mrecv` (R157): takes the head message, ending the chunk (R375), and stores it; a held arrival may take the room (R428). -/
def mrecvRes (va : Word64) (box : Word) (s : State) (p : Party) (t : Team) : Res :=
  let b := box.toNat
  let bind := (s.reg (rMBXBIND b)).toNat
  if 255 < b || !nbit bind 6 || nbits bind 0 6 ≠ s.ctxOf p then .trap (trapOf 21 (box.setWidth 64) 0)
  else match s.checkAccess p .global .store va 64 false with
    | (s, .ok l) =>
      (match AMap.get [] s.mailboxes b with
       | [] => .hold s (.recv b)
       | m :: rest =>
         chunked s p t 0 [7#8] (fun s t =>
           let s : State := { s with mailboxes := AMap.put [] s.mailboxes b rest }
           let s := if s.replaying (s.ctxOf p) then s else deliverHeld s.arrivals.length s
           let s := s.modTask ((partyTask p).getD 0) (fun k => { k with taken := k.taken ++ [m] })
           let o : MemOp := { kind := .store, bytes := 8, signed := false, dest := 0, accs := bodyAccesses va l m.body
                              acq := false, rel := false, scope := 0, op := 0, reqs := [], held := none }
           .started s (t.start' .st (.mem o)) t.nextId))
    | (_, .fail code) => .trap (trapOf code va 0)
    | (_, .page) => .trap { trapOf 1 va 1 with cls := 0 }
    | (_, .miss) => .walk va .store 0xFFFF
    | (_, .notStarted) => .wait
    | (_, .nowhere pa) => .stop (.noSuchAddress pa)

def execMrecv (h : Hdr) (a c : BitVec 5) (s : State) : Out :=
  issue (.mrecv h a c) h s (fun s p t => mrecvRes (t.kpair a.toNat) (t.kreg c.toNat) s p t)

end Sys2Proof.Machine
end

