-- ==== Sys2Proof/Machine/Sync.lean ====
section
/-!
DEFINITION. Waiting, fences, commits, parks and barriers (R131, R140 to R144).
-/

namespace Sys2Proof.Machine

/-- A bound of `wait` holds; a bound at or above the counter's maximum is none (R131). -/
def boundHolds (t : Team) (c : Counter) (n : Nat) : Bool := c.max ≤ n || t.count c ≤ n

def execWait (h : Hdr) (l e p : BitVec 5) (t : BitVec 6) (s : State) : Out :=
  issue (.wait h l e p t) h s (fun s _ u =>
    if boundHolds u .ld l.toNat && boundHolds u .st e.toNat && boundHolds u .cp p.toNat && boundHolds u .tl t.toNat
    then .ok s u else .wait)

/-- Holds the team for a commit point (R259). -/
def holdCommit (w : CommitWork) (s : State) (t : Team) : Res := .ok s { t with hold := .commit w }

/-- `fence` (R140): the team waits for the earlier accesses it covers; with a release side at `.dev` or `.sys` it is a
commit point. A release at a scope whose instance holds no other party that could see the team's accesses orders nothing (R233). -/
def fenceRes (order scope : Nat) (s : State) (p : Party) (t : Team) : Res :=
  if order = 1 then (if t.loadBusy then .wait else .ok s t)
  else if 5 ≤ scope then holdCommit .plain s t
  else if (s.ordersFor p scope && t.memBusy) || (order ≠ 2 && t.loadBusy) then .wait else .ok s t

def execFence (h : Hdr) (o c : BitVec 3) (s : State) : Out :=
  issue (.fence h o c) h s (fenceRes o.toNat c.toNat)

def execVcommit (h : Hdr) (s : State) : Out := issue (.vcommit h) h s (fun s _ t => holdCommit .plain s t)

/-! ## Park -/

/-- What a park watches: a place, or a notify register. -/
inductive ParkWord where
  | at (l : Loc)
  | notify (n : Nat)
  deriving DecidableEq, Repr

/-- The word a park reads, after the checks of R122 (R142). -/
def State.parkWord (s : State) (p : Party) (kind : Nat) (a : Word64) : State × Except LaneRes ParkWord :=
  if kind = 2 then
    (s, if 63 < a.toNat then .error (.fail 21) else .ok (.notify a.toNat))
  else
    match s.checkAccess p (if kind = 0 then .global else .gang) .load a 4 false with
    | (s, .ok l) => (s, .ok (.at l))
    | (s, r) => (s, .error r)

/-- The value of a parked word. -/
def State.parkValue (s : State) (p : Party) : ParkWord → Word
  | .at l => BitVec.ofNat 32 (s.readLoc (partyTask p) l 4)
  | .notify n => AMap.get 0#32 (s.ctx (s.ctxOf p)).notify n

/-- A park's condition (R142). -/
def parkWakes (eq : Bool) (v c : Word) : Bool := if eq then v = c else v ≠ c

/-- The reread of a park counts as a read at a watchpoint (R401). -/
def State.watchPark (s : State) (p : Party) (pc : Word64) (a : Word64) : ParkWord → State
  | .at l => s.watch { task := partyTask p, ord := partyOrd p, lead := false, engine := false, pc := pc } l true false a 4 0xFFFF
  | .notify _ => s

/-- A park's read meets the errors in its word: ECC_UNCORR, or the state with what was corrected counted (R147, R289). -/
def State.parkFlaws (s : State) (p : Party) (a : Word64) : ParkWord → State × Option TrapInfo
  | .at l =>
    let r := s.meetFlaws (s.readsSite (partyTask p) l 4)
    (r.1, r.2.map (fun _ => trapOf 33 a 0))
  | .notify _ => (s, none)

/-- `park` (R142): reads, and goes on or waits armed. The read of a notify register waits for the writes captured before it, and the
aperture is awake while a team parks on it (R444). -/
def parkRes (kind : Nat) (eq : Bool) (a : Word64) (c : Word) (s : State) (p : Party) (t : Team) : Res :=
  match s.parkWord p kind a with
  | (_, .error (.fail code)) => .trap (trapOf code a 0)
  | (_, .error .page) => .trap { trapOf 1 a 0 with cls := 0 }
  | (_, .error .miss) => .walk a .load 0xFFFF
  | (_, .error (.nowhere pa)) => .stop (.noSuchAddress pa)
  | (_, .error _) => .wait
  | (s, .ok w) =>
    let passed := match w with
      | .at l => t.passes' l 4 || l.busy s 4
      | .notify _ => !s.latch.isEmpty || t.acqBusy
    if passed then .wait
    else match s.parkFlaws p a w with
      | (_, some tr) => .trap tr
      | (s, none) =>
        let s := s.watchPark p t.ipc a w
        if parkWakes eq (s.parkValue p w) c then .ok s t
        else .ok { s with gated := s.gated && kind ≠ 2 } { t with hold := .park kind eq a c }

def execPark (h : Hdr) (k n : BitVec 2) (a c : BitVec 5) (s : State) : Out :=
  issue (.park h k n a c) h s (fun s p t =>
    let addr := if k.toNat = 0 then t.kpair a.toNat else (t.kreg a.toNat).setWidth 64
    parkRes k.toNat (n.toNat = 1) addr (t.kreg c.toNat) s p t)

/-! ## Barriers -/

/-- An arrival at a named barrier (R143): a trap, or the barrier after it and whether the phase has completed. -/
def arrive (b : Barrier) (id count teams ord : Nat) : Except TrapInfo (Barrier × Bool) :=
  let empty := b.arrived = 0#8
  let expected := if empty then count else b.expected.toNat
  if b.arrived.getLsbD ord then .error (trapOf 27 0#64 (id + 16 * expected))
  else if expected ≠ count || teams < count then .error (trapOf 26 0#64 (id + 16 * expected))
  else
    let arrived := b.arrived ||| (1#8 <<< ord)
    if popBits arrived.toNat 8 = expected then
      .ok ({ phase := b.phase + 1#16, expected := 0#4, arrived := 0#8 }, true)
    else .ok ({ phase := b.phase, expected := BitVec.ofNat 4 expected, arrived := arrived }, false)

/-- `bararr` and `barwait` (R143): the arrival is a release at cohort scope, so it waits for the team's earlier
accesses; it ends the team's chunk, and a completed phase those of the teams it releases (R209, R375). Steward code has no cohort
whose count it could meet: DESIGN CHOICE, BAR_COUNT (log 13). -/
def barRes (id count : Nat) (waits : Bool) (s : State) (p : Party) (t : Team) : Res :=
  match partyTask p, s.taskOf p with
  | some tid, some k =>
    if t.memBusy then .wait
    else
      let b := AMap.get Barrier.start k.bars id
      match arrive b id count k.teams.length (partyOrd p) with
      | .error tr => .trap tr
      | .ok (b', done) =>
        chunked s p t 0 [0#8] (fun s t =>
          let s := s.setBar tid id b'
          if done then
            let waiting := (k.teams.filter (fun f => f.2.hold = .bar id b.phase.toNat)).map (fun f => Party.team tid f.1)
            .ok ((waiting.foldl State.releaseTeam s)) t
          else .ok s (if waits then { t with hold := .bar id b.phase.toNat } else t))
  | _, _ => .trap (trapOf 26 0#64 (id + 16 * count))

def execBararr (h : Hdr) (i n : BitVec 4) (s : State) : Out :=
  issue (.bararr h i n) h s (barRes i.toNat n.toNat false)

def execBarwait (h : Hdr) (i n : BitVec 4) (s : State) : Out :=
  issue (.barwait h i n) h s (barRes i.toNat n.toNat true)

/-- `gbar` (R144): arrives for the team and waits for the whole gang. Steward code has no gang to wait for: DESIGN CHOICE, it goes on
at once (log 13). -/
def gbarRes (id : Nat) (s : State) (p : Party) (t : Team) : Res :=
  match partyTask p, s.taskOf p with
  | some tid, some k =>
    if t.memBusy then .wait
    else
      let b := s.gangBar k id
      chunked s p t 0 [0#8] (fun s t =>
        let b' : GangBar := { b with arrived := b.arrived ++ [tid * 8 + partyOrd p] }
        let s : State := { s with gangBars := AMap.put GangBar.start s.gangBars (s.gangKey k * 4 + id) b' }
        .ok (s.gangCheck k id) { t with hold := .gbar id b.phase })
  | _, _ => .ok s t

def execGbar (h : Hdr) (i : BitVec 2) (s : State) : Out :=
  issue (.gbar h i) h s (gbarRes i.toNat)

end Sys2Proof.Machine
end

