-- ==== Sys2Proof/Machine/System.lean ====
section
/-!
DEFINITION. The system group (R169 to R181): traps on purpose, service requests, clocks, marks, control and status
registers, unit probes, counters, steps and halts.
-/

namespace Sys2Proof.Machine

/-- `trap` (R170): SW_TRAP if a lane takes part, naming the lowest. -/
def execTrap (h : Hdr) (c : BitVec 8) (s : State) : Out :=
  issue (.trap h c) h s (fun s _ t =>
    match t.lanes with
    | [] => .ok s t
    | l :: _ => .trap (laneTrap 36 0#64 l c.toNat))

/-- Posts a service request and holds the stream until its entry is written; a replay posts nothing (R171). -/
def State.postHold (s : State) (p : Party) (t : Team) (code : Nat) (value : Word64) : State × Team :=
  if s.replaying (s.ctxOf p) then (s, { t with hold := .none })
  else
    let r := s.postSvc p code value
    (r.1, { t with hold := .post r.2 })

/-- `sys` (R171): in kernel code first a commit point; in steward code an entry of the leader's queue, of which no rule gives the
fields: DESIGN CHOICE, the die's number as context, and task and team 0 (log 59). -/
def sysRes (code : Nat) (value : Word64) (s : State) (p : Party) (t : Team) : Res :=
  match p with
  | .steward d => .ok { s with requests := s.requests ++ [svcEntry code d 0 0 value.toNat s.time s.requests.length] } t
  | .prologue _ =>
    let r := s.postHold p t code value
    .ok r.1 r.2
  | _ => holdCommit (.sys code value) s t

def execSysReq (h : Hdr) (c : BitVec 8) (a : BitVec 5) (s : State) : Out :=
  issue (.sysReq h c a) h s (fun s p t => sysRes c.toNat (t.kpair a.toNat) s p t)

/-! ## Clocks and counters -/

/-- A clock or counter value: in a replay the logged one, and a CLOCK record that ends the chunk (R174). -/
def clockRes (source : Nat) (live : Word64) (d : Nat) (s : State) (p : Party) (t : Team) : Res :=
  let logged := (s.logged p).bind (fun r =>
    if r.kind = 5 then some (BitVec.ofNat 64 (bytesAt r.payload 1 8)) else none)
  let v := logged.getD live
  match p with
  | .steward _ => .ok s (t.writePair d (fun _ => v))
  | _ => chunked s p t 5 (toBytes 1 source ++ toBytes 8 v.toNat) (fun s t => .ok s (t.writePair d (fun _ => v)))

def execRdclk (h : Hdr) (d : BitVec 7) (s : State) : Out :=
  issue (.rdclk h d) h s (fun s p t => clockRes 0 (BitVec.ofNat 64 s.ac) d.toNat s p t)

def execRdtime (h : Hdr) (d : BitVec 7) (s : State) : Out :=
  issue (.rdtime h d) h s (fun s p t => clockRes 1 (BitVec.ofNat 64 s.time) d.toNat s p t)

/-- A performance counter (R179). -/
def State.counter (s : State) (p : Party) (t : Team) (n : Nat) : Nat :=
  match n with
  | 0 => t.retired - 1
  | 1 => t.passes
  | 2 => t.idle
  | _ => AMap.get 0 (s.core (s.coreOf p)).counters n

def execPcnt (h : Hdr) (d n : BitVec 7) (s : State) : Out :=
  issue (.pcnt h d n) h s (fun s p t =>
    let v := s.counter p t n.toNat
    if n.toNat = 0 then .ok s (t.writePair d.toNat (fun _ => BitVec.ofNat 64 v))
    else clockRes (1 + n.toNat) (BitVec.ofNat 64 v) d.toNat s p t)

/-- `mark` (R175): a MARK record under recording, which ends no chunk; a replay passes the logged one. -/
def execMark (h : Hdr) (n : BitVec 14) (s : State) : Out :=
  issue (.mark h n) h s (fun s p t =>
    let c := s.ctxOf p
    let field := s.logField p
    let t' := { t with chunk := { t.chunk with last := t.retired } }
    match p with
    | .steward _ => .ok s t
    | _ =>
      if s.replaying c then
        match s.replay.script.find? (fun r => r.team = field && r.kind = 7) with
        | some r => if s.inTurn r then .ok (s.metRecord r) t' else .wait
        | none => .ok s t
      else if s.recording c then
        if t.late.isEmpty && t.firstAccess.isNone then
          let r := s.writeMark p t (varint 3 n.toNat) t.retired
          .ok r.1 r.2
        else .ok s (t.putOff 7 (varint 3 n.toNat) t.retired)
      else .ok s t)

/-! ## Control and status registers -/

/-- Reads a csr (R177). -/
def State.readCsr (s : State) (p : Party) (n : Nat) : Word :=
  match p with
  | .prologue c =>
    (match (s.ctx c).prologue with
     | none => 0#32
     | some q => match n with
       | 0 => q.csr.lgx
       | 1 => q.csr.lgy
       | 2 => q.csr.lgz
       | 3 => q.csr.largl
       | 4 => q.csr.largh
       | 5 => q.csr.lruns
       | _ => BitVec.ofNat 32 c)
  | .steward d => match n with
    | 0x40 => BitVec.ofNat 32 d
    | 0x41 => if s.leading = some d then 1#32 else 0#32
    | 0x42 => (s.steward d).spwl
    | 0x43 => (s.steward d).temp
    | _ => BitVec.ofNat 32 (s.steward d).spare
  | _ => 0#32

/-- The value lies within the register's limits (R176, R177). -/
def csrAccepts (n : Nat) (v : Word) : Bool :=
  match n with
  | 3 => v.toNat % 8 = 0
  | 5 => v.toNat < 2 ^ 16
  | 0x42 => 1 ≤ v.toNat && v.toNat ≤ 2800
  | _ => true

/-- Writes a csr (R177). -/
def State.writeCsr (s : State) (p : Party) (n : Nat) (v : Word) : State :=
  match p with
  | .prologue c => s.modCtx c (fun k => { k with prologue := k.prologue.map (fun q =>
      { q with csr := match n with
        | 0 => { q.csr with lgx := v }
        | 1 => { q.csr with lgy := v }
        | 2 => { q.csr with lgz := v }
        | 3 => { q.csr with largl := v }
        | 4 => { q.csr with largh := v }
        | 5 => { q.csr with lruns := v }
        | _ => q.csr }) })
  | .steward d => if n = 0x42 then (s.modSteward d (fun x => { x with spwl := v })).judgePower else s
  | _ => s

def execCsrr (h : Hdr) (d : BitVec 5) (c : BitVec 7) (s : State) : Out :=
  issue (.csrr h d c) h s (fun s p t => .ok s (t.setK d.toNat (s.readCsr p c.toNat)))

def execCsrw (h : Hdr) (a : BitVec 5) (c : BitVec 7) (s : State) : Out :=
  issue (.csrw h a c) h s (fun s p t =>
    let v := t.kreg a.toNat
    if csrAccepts c.toNat v then .ok (s.writeCsr p c.toNat v) t else .trap (trapOf 16 0#64 (wordDetail (.csrw h a c))))

/-- Units of each kind (R178). -/
def unitCount (kind : Nat) : Nat :=
  match kind with
  | 0 => 128
  | 1 => 136
  | 2 => 128
  | 3 => 12
  | 4 => 16
  | 5 => 4
  | 6 => 16
  | 7 => 2
  | _ => 0

/-- The status of a unit (R178), 0 where there is none. -/
def State.probeUnit (s : State) (w : Word) : Word :=
  let kind := nbits w.toNat 0 8
  let i := nbits w.toNat 8 8
  if w.toNat / 2 ^ 16 ≠ 0 || unitCount kind ≤ i then 0#32
  else
    let u := s.unit kind i
    BitVec.ofNat 32 (b2n u.present + 2 * b2n u.enabled + 4 * b2n u.error + 256 * min 255 u.corrected +
      65536 * min 255 u.uncorrected)

def execProbe (h : Hdr) (d a : BitVec 5) (s : State) : Out :=
  issue (.probe h d a) h s (fun s _ t => .ok s (t.setK d.toNat (s.probeUnit (t.kreg a.toNat))))

/-! ## Steps and halts -/

/-- The team a step names: core, partition, slot and context (R180). -/
def State.stepTarget (s : State) (w : Nat) : Option (Nat × Nat × Task × Team) :=
  if nbit w 15 || w / 2 ^ 22 ≠ 0 then none
  else
    let c := nbits w 16 6
    if !s.debugOn c then none
    else (s.residents (nbits w 0 7) (nbits w 7 5)).find? (fun x => x.2.2.2.slot = nbits w 12 3 && x.2.2.1.ctx = c)

/-- Begins a step of a team (R180, R397): a status at once, or none while the step goes on. -/
def State.beginStep (s : State) (w : Nat) : State × Option Nat × Nat × Nat :=
  match s.stepTarget w with
  | none => (s, some 3, 0, 0)
  | some (tid, o, _, t) =>
    if t.freeze ≠ .frozen then (s, some 2, tid, o)
    else
      let p := Party.team tid o
      let s := s.reloadTeam tid o
      match s.team? p with
      | none => (s, some 3, tid, o)
      | some t =>
        if t.hold ≠ .none && s.holdOver p t.hold && !t.hold.fresh then
          ((s.setTeam p { t with hold := .none, freeze := .stepping }).settle p, some 0, tid, o)
        else (s.setTeam p { t with freeze := .stepping }, none, tid, o)

def execDstep (h : Hdr) (d a : BitVec 5) (s : State) : Out :=
  issue (.dstep h d a) h s (fun s _ t =>
    match s.beginStep (t.kreg a.toNat).toNat with
    | (s, some status, _, _) => .ok s (t.setK d.toNat (BitVec.ofNat 32 status))
    | (s, none, tid, o) => .ok s { t with hold := .step tid o d.toNat s.time })

/-- `halt` (R181). -/
def execHalt (h : Hdr) (s : State) : Out :=
  issue (.halt h) h s (fun s p t =>
    let s := match p with
      | .prologue c => s.modCtx c (fun k =>
          { k with prologue := k.prologue.map (fun q => { q with haltSince := some s.time, woken := false }) })
      | _ => s
    .ok s { t with hold := .halt })

end Sys2Proof.Machine
end

