-- ==== Sys2Proof/Machine/TeamEvents.lean ====
section
/-!
DEFINITION. Events of teams and other code streams: commits (R259), parks (R142, R212), yields (R204), halts (R181),
register lines (R206), walks (R272), chunk ends (R375), and a blocked step's time-out (R180).
-/

namespace Sys2Proof.Machine

/-! ## Commits -/

/-- The team's earlier accesses are performed, its stores, atomics and `mred` words (R259) and the reads that the commit releases
(R235), and nothing holds the commit back (R264, R266). The load of an `.sc` access that is itself the commit point follows it, as does
a store to a scratchpad, whose bank it reaches only once the earlier accesses are visible (R234). -/
def State.commitReady (s : State) (p : Party) (t : Team) : Bool :=
  s.acting p && (match partyTask p with
    | some tid => !s.commitBlocked tid
    | none => true) &&
  t.pend.all (fun x => x.done || t.ownCommit x || (x.cls ≠ .st && (match x.kind with
    | .mem _ | .matrix (.mld _) _ _ _ _ => false
    | _ => true)))

/-- What a commit point's instruction does once its version is published (R155, R171). -/
def State.afterCommit (s : State) (p : Party) (w : CommitWork) : State :=
  match w with
  | .plain => s.resume p (fun t => { t with hold := .none })
  | .launch r table =>
    let a := s.childLaunch (s.ctxOf p) (s.coreOf p) r table
    if a.1.copyOver a.2 then a.1.resume p (fun t => { t with hold := .none })
    else (match a.1.team? p with
      | some t => a.1.setTeam p { t with hold := .commit (.copy a.2) }
      | none => a.1)
  | .copy g =>
    let s := s.copyArgs g
    if s.copyOver g then s.resume p (fun t => { t with hold := .none }) else s
  | .sys code v =>
    match s.team? p with
    | none => s
    | some t =>
      let r := s.postHold p t code v
      (r.1.setTeam p r.2).settle p

/-- COMMIT (R259): the version is published under the next stamp, ending the team's chunk with cause 1 (R375). A stream
of no task has no version: its hold ends. A launch whose argument copy is still to be made goes on once it is (R331). -/
def execCommit (p : Party) (s : State) : Out :=
  match s.team? p with
  | none => .next s
  | some t => match t.hold with
    | .commit (.copy g) => .next (s.afterCommit p (.copy g))
    | .commit w =>
      if !s.commitReady p t then .next s
      else match partyTask p with
        | none => .next (s.afterCommit p w)
        | some tid =>
          let s := (s.hitMates tid (partyOrd p)).hitVersion tid
          (match endChunk s p t 0 [1#8] t.retired (some (s.stamp + 1)) with
           | .go s t => .next ((s.setTeam p t).commitTask tid |>.1 |>.afterCommit p w)
           | .hold => .next s
           | .diverge s => .next s)
    | _ => .next s

/-! ## Parks and yields -/

/-- A page fault of the party waits for PFRES. -/
def State.faultOf (s : State) (p : Party) : Bool :=
  (s.ctx (s.ctxOf p)).pageFaults.any (fun f => match f.who, p with
    | .team a b, .team c d => a = c && b = d
    | .lead a b, .lead c d => a = c && b = d
    | _, _ => false)

/-- PARK_REREAD (R142, R212): the armed word is read afresh and the condition tested, once a swapped-out cohort is back (R340). -/
def execParkReread (p : Party) (s : State) : Out :=
  match s.team? p with
  | none => .next s
  | some t => match t.hold with
    | .park kind eq a c =>
      if t.freeze = .frozen || !s.acting p || s.faultOf p || s.isAway p then .next s
      else match s.parkWord p kind a with
        | (s, .ok w) =>
          if (match w with
            | .at l => l.busy s 4
            | .notify _ => !s.latch.isEmpty) then .next s
          else (match s.parkFlaws p a w with
           | (s, some tr) => .next (s.raiseTrap p t.ipc tr)
           | (s, none) =>
             let s := s.watchPark p t.ipc a w
             if parkWakes eq (s.parkValue p w) c then .next (s.resume p (fun t => { t with hold := .none })) else .next s)
        | (s, .error .miss) =>
          if s.walkBusy (s.ctxOf p) a.toNat then .next s
          else (match s.walk (s.ctxOf p) a.toNat .load with
           | some (l, m) => .next (s.fillTlb (s.coreOf p) (s.ctxOf p) a.toNat l m .load)
           | none =>
             let s := s.takeTrap p t.ipc { trapOf 1 a 0 with cls := 0 }
             (match s.team? p with
              | some u => .next (s.setTeam p { u with hold := t.hold })
              | none => .next s))
        | (s, .error (.fail code)) => .next (s.raiseTrap p t.ipc (trapOf code a 0))
        | (_, .error (.nowhere pa)) => .fault (.noSuchAddress pa)
        | (s, .error _) => .next s
    | _ => .next s

/-- YIELD_RESUME (R204): what a yield waited for is over. -/
def execYieldResume (p : Party) (s : State) : Out :=
  match s.team? p with
  | none => .next s
  | some t => if t.yld ≠ .none && t.yieldOver then .next (s.setTeam p { t with yld := .none }) else .next s

/-- HALT_WAKE (R181): a steward wakes on an interrupt or a request, an input; a prologue on a write to a notify register
of its context, and its halted time does not count (R351). -/
def execHaltWake (p : Party) (s : State) : Out :=
  match p with
  | .steward _ =>
    (match s.team? p with
     | some t => if t.hold = .halt then .next (s.setTeam p { t with hold := .none }) else .next s
     | none => .next s)
  | .prologue c =>
    (match (s.ctx c).prologue with
     | some q =>
       if q.team.hold = .halt && q.woken then
         .next (s.modCtx c (fun k => { k with prologue := some { q with
           team := { q.team with hold := .none }, woken := false, haltSince := none
           haltedTicks := q.haltedTicks + (s.time - q.haltSince.getD s.time) } }))
       else .next s
     | none => .next s)
  | _ => .next s

/-! ## Register lines -/

/-- The lines that the instruction at which a team stands names: they stay while the others come (R200, R206). -/
def State.awaited (s : State) (p : Party) (t : Team) : List Nat :=
  match s.lookup (s.coreOf p) (s.ctxOf p) .user .fetch t.pc.toNat with
  | .ok pa => (match decodeBytes (readBytes s.mem pa 4) with
    | .ok (i, _) => linesNamed i t
    | .error _ => [])
  | _ => []

/-- REGISTER_LINE_FILL (R206): a line that the register cache does not hold comes from the frame; a cache with no room gives up
the line that goes next, but none that the team's own instruction waits for. -/
def execRegisterLineFill (task ord line : Nat) (s : State) : Out :=
  match s.task? task, s.team? (.team task ord) with
  | some k, some t =>
    if !t.evicted.contains line || !k.resident then .next s
    else
      let room := decide ((s.partLines k.core t.partition).length < cacheLines)
      let s := if room then s
        else match s.nextVictim k.core t.partition (fun x => x.1 = task && x.2.1 = ord && (s.awaited (.team task ord) t).contains x.2.2) with
          | some x => s.evictLine x
          | none => s
      (match s.team? (.team task ord) with
       | some t =>
         if (s.partLines k.core t.partition).length < cacheLines then
           .next (s.setTeam (.team task ord) ((s.fillLines task ord t [line]).touchLines s.tick [line]))
         else .next s
       | none => .next s)
  | _, _ => .next s

/-- REGISTER_LINE_WRITEBACK (R206): a line goes to the frame; it leaves the cache when it is the one that goes next. -/
def execRegisterLineWriteback (task ord line : Nat) (evict : Bool) (s : State) : Out :=
  match s.task? task, s.team? (.team task ord) with
  | some k, some t =>
    if !k.resident || t.released || !t.lines.contains line || t.evicted.contains line then .next s
    else
      let s := s.writeLine task ord line
      if evict && s.nextVictim k.core t.partition (fun _ => false) = some (task, ord, line) then
        .next (s.evictLine (task, ord, line))
      else .next s
  | _, _ => .next s

/-! ## Walks -/

/-- The access of a walk by its code. -/
def howOf (n : Nat) : How := if n = 1 then .store else if n = 2 then .fetch else .load

/-- The parties at whose instruction a walk is under way, teams first (R272). -/
def State.walkers (s : State) : List Party :=
  let walks (t : Team) : Bool := match t.hold with
    | .walk _ _ _ => true
    | _ => false
  s.tasks.flatMap (fun e =>
    (e.2.teams.filter (fun f => walks f.2)).map (fun f => Party.team e.1 f.1) ++
    (e.2.leads.filter (fun f => walks f.2)).map (fun f => Party.lead e.1 f.1))

/-- TLB_WALK_END (R270, R272): the walk fills the TLBs and the party is ready at its instruction, or it is a
PAGE_FAULT. Of more than 64 walks the walkers serve 64 at a time. -/
def execTlbWalkEnd (p : Party) (s : State) : Out :=
  match s.team? p with
  | none => .next s
  | some t => match t.hold with
    | .walk va how lane =>
      if (64 ≤ s.walkers.idxOf p && s.walkers.contains p) || s.walkBusy (s.ctxOf p) va.toNat then .next s
      else
      (match s.walk (s.ctxOf p) va.toNat (howOf how) with
       | some (l, m) => .next ((s.fillTlb (s.coreOf p) (s.ctxOf p) va.toNat l m (howOf how)).setTeam p { t with hold := .none })
       | none => .next ((s.setTeam p { t with hold := .none }).raiseTrap p t.pc
           { cls := 0, code := 1, addr := va, lane := lane, detail := BitVec.ofNat 32 how, engine := false }))
    | _ => .next s

/-! ## Chunks -/

/-- CHUNK_SIGNATURE_HIT (R375): cause 2. The signature may report lines the team never read. -/
def execChunkSignatureHit (task ord : Nat) (s : State) : Out :=
  match s.team? (.team task ord) with
  | some t => if t.released then .next s else .next (s.cutChunk (.team task ord) 2)
  | none => .next s

/-- CHUNK_COUNT_EXPIRY (R375): 65,536 instructions retired in the chunk, cause 3. -/
def execChunkCountExpiry (task ord : Nat) (s : State) : Out :=
  match s.team? (.team task ord) with
  | some t => if 65536 ≤ t.retired - t.chunk.begun then .next (s.cutChunk (.team task ord) 3) else .next s
  | none => .next s

/-! ## Steps -/

/-- 10 µs have passed since a step of a team began: it ends blocked, unless the instruction that held the team is over (R180, R397). -/
def State.stepExpires (s : State) (task ord : Nat) : State :=
  let p := Party.team task ord
  match s.team? p with
  | some t =>
    if s.canIssue p t && t.hold ≠ .none && !t.hold.fresh then (s.setTeam p { t with hold := .none }).settle p
    else s.endStep task ord (s.standsAt p t) 1
  | none => s

/-- DSTEP_TIMEOUT (R180): 10 µs, 1,000 ticks, have passed since a steward's or a prologue's step began. `runUp` makes it only of a team
whose next word cannot begin. -/
def execDstepTimeout (p : Party) (s : State) : Out :=
  match s.team? p with
  | none => .next s
  | some u => match u.hold with
    | .step task ord _ since =>
      if since + 1000 ≤ s.time then
        .next (if (s.team? (.team task ord)).isSome then s.stepExpires task ord else s.setTeam p (u.stepEnds task ord 1))
      else .next s
    | _ => .next s

/-- TEAM_SLOT_RELEASE (R25, R198): an ended team's slot is free once its counters are 0. -/
def execTeamSlotRelease (task ord : Nat) (s : State) : Out :=
  let p := Party.team task ord
  match s.team? p with
  | none => .next s
  | some t =>
    if s.gone p t && !t.released && t.pend.isEmpty && t.freeze = .no then
      .next ((s.setTeam p { t with released := true }).teamEnded p)
    else .next s

end Sys2Proof.Machine
end

