-- ==== Sys2Proof/Machine/TaskEvents.lean ====
section
/-!
DEFINITION. How tasks end: by the commit at their end (R198, R259), or by failing (R261 to R263, R408); the end of a
grid's run, its phase check, its level-1 sums and its completion (R352 to R354, R358, R366).
-/

namespace Sys2Proof.Machine

/-- A pre-empted context is done once it holds no cohort, with its interrupt (R410, R411, R436). -/
def State.checkDone (s : State) (c : Nat) : State :=
  if (s.ctx c).preemptSince.isSome && s.ctxIdle c then (s.modCtx c (fun k => { k with preemptSince := none })).raise c 2 else s

/-- The record of a prologue that is ended at a word: ILLEGAL_OP with flag [3] (R351; log 25). -/
def State.prologueRecord (s : State) (c : Nat) (pc : Word64) : State :=
  let r := s.xlatNow c .sup .fetch pc.toNat
  let w := match r.2 with
    | .ok pa => readNat r.1.mem pa 4
    | _ => 0
  s.queueFault { cls := 1, code := 16, ctx := c, flags := 8 + s.replayFlag c, task := 0, team := 0, plate := pc, src := pc
                 addr := 0#64, iter := 0xFFFFFFFF#32, commit := 0, lane := 0xFFFF, detail := BitVec.ofNat 32 w, time := s.time
                 cohort := 0, retries := 0 }

/-! ## What an ended task gives back -/

/-- Takes out of a core everything a task holds there: OB records, tiles, queued words and operations, ranges (R198,
R408). -/
def Core.drop (k : Core) (tid : Nat) : Core :=
  { k with
    recs := AMap.mapVals (fun _ r => if r.held = some tid then ObRec.reset else r) k.recs
    obQ := k.obQ.filter (fun w => w.task ≠ tid)
    holder := k.holder.filter (fun h => h.2.1 ≠ tid)
    tileQ := AMap.mapVals (fun _ q => q.filter (fun h => h.1 ≠ tid)) k.tileQ
    arrays := AMap.mapVals (fun _ q => q.filter (fun e => e.task ≠ tid)) k.arrays
    locks := k.locks.filter (fun r => r.task ≠ tid)
    engines := AMap.mapVals (fun _ q => q.filter (fun o => o.task ≠ tid)) k.engines
    colls := k.colls.filter (fun o => o.task ≠ tid) }

/-- A pending page fault is that of a party or an engine operation of a task. -/
def State.faultIn (s : State) (tid : Nat) (f : PageFault) : Bool :=
  match f.who with
  | .team t _ | .lead t _ => t = tid
  | .engine core eng =>
    (s.core core).engines.any (fun q => q.2.any (fun o => o.seq = eng && o.task = tid)) ||
    (s.core core).colls.any (fun o => o.seq = eng && o.task = tid)
  | .frontEnd _ _ => false

/-- Frees what a task holds outside its own record: page faults, tickets, sector locks, and its core's units. -/
def State.freeTask (s : State) (tid : Nat) (k : Task) : State :=
  let s := s.modCtx k.ctx (fun x => { x with pageFaults := x.pageFaults.filter (fun f => !s.faultIn tid f) })
  let s := s.modCore k.core (fun c => c.drop tid)
  { s with
    ticket := s.ticket.filter (fun q => partyTask q ≠ some tid)
    ticketQ := s.ticketQ.filter (fun q => partyTask q ≠ some tid)
    locked := s.locked.filter (fun e => partyTask e.2 ≠ some tid) }

/-- Drops the records of a gang and its barriers. -/
def State.dropGang (s : State) (k : Task) : State :=
  let s' := (s.gangTasks k).foldl (fun s e => s.dropTask e.1) s
  { s' with gangBars := (span 0 4).foldl (fun m id => AMap.erase m (s.gangKey k * 4 + id)) s'.gangBars }

/-! ## Phase checks (R354) -/

/-- The number of an entry of a lead queue whose fetch has not completed. -/
def LeadEntry.fetching : LeadEntry → Option Nat
  | .ld id _ none _ => some id
  | .ob id _ _ _ copied total _ => if copied < total then some id else none
  | _ => none

/-- The stream is kernel or prologue code of a context. -/
def State.serves (s : State) (c : Nat) (p : Party) : Bool :=
  match p with
  | .steward _ => false
  | _ => s.ctxOf p = c

/-- Operations and fetches of a context's streams that are outstanding: with its messages, the traffic of its current tag. -/
def State.traffic (s : State) (c : Nat) : List (Party × Nat) :=
  s.streams.flatMap (fun x => if s.serves c x.1 then
    (x.2.pend.filter (fun q => !q.done)).map (fun q => (x.1, q.id)) ++
      (x.2.leadQ.filterMap LeadEntry.fetching).map (fun id => (.lead ((partyTask x.1).getD 0) (partyOrd x.1), id)) else [])

/-- An operation or fetch named so is still outstanding. -/
def State.stillOut (s : State) (w : Party × Nat) : Bool :=
  match w.1 with
  | .lead task ord => (match s.team? (.team task ord) with
    | some t => t.leadQ.any (fun e => e.fetching = some w.2)
    | none => false)
  | p => match s.team? p with
    | some t => t.outstanding w.2
    | none => false

/-- The copy packets of a context that the copy engines are working on (R346). -/
def State.copiesOut (s : State) (c : Nat) : List Nat :=
  ((s.ctx c).packets.filter (fun q => q.2.kind = 3 && q.2.stage = .started)).map (·.1)

/-- Opens a check for the grids of a context that have reached it, if none is open: the tag flips. -/
def State.openCheck (s : State) (c : Nat) : State :=
  let gs := (s.grids.filter (fun e => e.2.ctx = c && e.2.atCheck && !e.2.checked && !e.2.complete)).map (·.1)
  if (s.ctx c).check.isSome || gs.isEmpty then s
  else s.modCtx c (fun k => { k with
    tag := !k.tag
    check := some { grids := gs, waits := s.traffic c, messages := s.sent.filter (fun m => m.srcCtx = c), copies := s.copiesOut c } })

/-- A grid reaches the point before its check; the Surveyors write their open blocks of its context (R377). -/
def State.reachCheck (s : State) (g : Nat) : State :=
  match s.grid? g with
  | some x => ((s.flushCtx x.ctx).setGrid g { x with atCheck := true }).openCheck x.ctx
  | none => s

/-- PHASE_CHECK_CLOSE (R354): no node holds traffic of the old tag, so the check closes. Grids that came meanwhile open the next
check. -/
def execPhaseCheckClose (ctx : Nat) (s : State) : Out :=
  match (s.ctx ctx).check with
  | none => .next s
  | some q =>
    if q.waits.any s.stillOut || q.messages.any (fun m => s.sent.contains m) || q.copies.any (fun n => (s.copiesOut ctx).contains n) then
      .next s
    else
      let s := q.grids.foldl (fun s g => s.modGrid g (fun x => { x with checked := true })) s
      .next ((s.modCtx ctx (fun k => { k with check := none })).openCheck ctx)

/-! ## Runs -/

/-- What follows the end of a grid's run: the next run (R352), the sums of level 1 (R366), the end without a completion
(R358), or the phase check (R354). -/
def State.afterRun (s : State) (g : Nat) : State :=
  match s.grid? g with
  | none => s
  | some x =>
    if x.complete || !x.started || !x.handed || x.ended < x.record.cohorts || x.atCheck then s
    else if !x.failed && x.run + 1 < x.runs then
      s.setGrid g { x with run := x.run + 1, copied := false, started := false, next := 0, retry := [], ended := 0 }
    else if !x.sums.isEmpty && !x.sumsApplied then s
    else if x.failed then s.endGrid g
    else s.reachCheck g

/-- Adds cohorts that have ended, or been reported, to their grid. -/
def State.countEnded (s : State) (g n : Nat) (failed : Bool) : State :=
  (s.modGrid g (fun x => { x with ended := x.ended + n, failed := x.failed || failed })).afterRun g

/-- The partial sum of a cohort joins the leaves of a word; runs of one launch follow one another in its leaf (log 22). -/
def addLeaf (cohort : Nat) (v : Word) : List (Nat × Word) → List (Nat × Word)
  | [] => [(cohort, v)]
  | e :: rest =>
    if e.1 = cohort then (cohort, BitVec.ofNat 32 (faddWord e.2.toNat v.toNat)) :: rest else e :: addLeaf cohort v rest

/-- Merges a committed task's partial sums into its grid (R366). -/
def Grid.merge (x : Grid) (k : Task) : Grid :=
  { x with sums := k.partials.foldl (fun m e => AMap.set m e.1 (addLeaf k.index e.2 (AMap.get [] m e.1))) x.sums }

/-- What a task is about to write to a kernel's text: its version, at a commit or at its end, or an atomic that commits. -/
def State.writesText (s : State) (x : Task) (k : Kernel) : Bool :=
  (x.version.any (fun w => s.textAt k w.extent.1 w.extent.2) &&
    (x.teams.any (fun f => match f.2.hold with
      | .commit _ => true
      | _ => false) || x.teams.all (fun f => f.2.ended && f.2.released))) ||
  x.teams.any (fun f => f.2.pend.any (fun q => !q.done && (match q.kind with
    | .mem m => m.reqs.any (fun r => r.commits && !r.done && r.accs.any (fun a => match a.loc with
      | .glob pa => s.textAt k pa m.bytes
      | .spd _ _ => false))
    | _ => false)))

/-- The next byte of a copy packet lies in a kernel's text. -/
def State.copiesText (s : State) (c : Nat) (x : Packet) (k : Kernel) : Bool :=
  let va := bytesAt x.body 8 8 + x.copied
  x.kind = 3 && x.stage = .started && (match s.leafOf c va with
    | some l => s.textAt k (l.pa + va % l.size) 1
    | none => false)

/-- A write to a kernel's text is to come before a new grid of it (R323): one from outside, a task's, a grid's sums, or a copy's. -/
def State.textWaits (s : State) (k : Kernel) : Bool :=
  !k.writes.isEmpty || s.tasks.any (fun e => s.writesText e.2 k) ||
  s.grids.any (fun e => e.2.record.cohorts ≤ e.2.ended && !e.2.sumsApplied && e.2.sums.any (fun w => s.textAt k w.1 4)) ||
  s.ctxs.any (fun e => e.2.packets.any (fun q => s.copiesText e.1 q.2 k))

/-- RUN_START (R352): the next run of a launch copies its argument block; a launch cancelled with lruns 0, or of no cohorts,
goes to its completion. No new grid of a kernel starts while a write to its text waits (R323). -/
def execRunStart (grid : Nat) (s : State) : Out :=
  match s.grid? grid with
  | none => .next s
  | some x =>
    if x.started || x.complete ||
        (x.run = 0 && s.kernels.any (fun q => q.ctx = x.ctx && q.code = x.record.code && s.textWaits q)) then .next s
    else if x.runs = 0 then .next ((s.setGrid grid { x with started := true }).reachCheck grid)
    else .next ((s.startRun grid).afterRun grid)

/-! ## The end of a cohort -/

/-- Every team of a task has ended and its operations are complete (R198). -/
def State.cohortOver (s : State) (tid : Nat) (k : Task) : Bool :=
  k.teams.all (fun f => f.2.ended && f.2.released) && !k.finished && !s.failingGang k && k.resident &&
  !(s.ctx k.ctx).snapPaused && !s.commitBlocked tid &&
  !(s.core k.core).engines.any (fun q => q.2.any (fun o => o.task = tid)) &&
  !(s.core k.core).colls.any (fun o => o.task = tid)

/-- The records of cause 4 of a task's teams, all of the end commit's stamp (R375, R376). -/
def endChunks (tid stamp : Nat) : List Nat → State → RecRes
  | [], s => match s.team? (.team tid 0) with
    | some t => .go s t
    | none => .hold
  | o :: os, s => match s.team? (.team tid o) with
    | none => .hold
    | some t => match endChunk s (.team tid o) t 0 [4#8] t.retired (some stamp) with
      | .go s t => endChunks tid stamp os (s.setTeam (.team tid o) t)
      | r => r

/-- COHORT_END (R198, R259): the task commits, and what the cohort holds is freed. A gang member keeps its scratchpad until
its whole gang has ended (R216). -/
def execCohortEnd (task : Nat) (s : State) : Out :=
  match s.task? task with
  | none => .next s
  | some k =>
    if !s.cohortOver task k then .next s
    else
      let s := s.hitVersion task
      match endChunks task (s.stamp + 1) (k.teams.map (·.1)) s with
      | .hold => .next s
      | .diverge s => .next s
      | .go s _ =>
        let s := (s.commitTask task).1
        let s := (s.freeTask task k).modTask task (fun k => { k with finished := true })
        let s := s.modGrid k.grid (fun x => x.merge k)
        let whole := decide ((s.gangTasks k).length = s.gangCount k) && (s.gangTasks k).all (fun e => e.2.finished)
        let s := if whole then s.dropGang k else (span 0 4).foldl (fun s id => s.gangCheck k id) s
        .next ((s.countEnded k.grid 1 false).checkDone k.ctx)

/-! ## Failure -/

/-- Messages that a failed task took go back to the heads of their mailboxes, in order (R157, R261). -/
def State.giveBack (s : State) (ms : List Message) : State :=
  { s with mailboxes := ms.foldr (fun m b => AMap.put [] b m.mbox (m :: AMap.get [] b m.mbox)) s.mailboxes }

/-- A member of a failed gang is stopped: its version and its holdings are discarded (R408). -/
def State.stopMember (s : State) (e : Nat × Task) : State :=
  if e.2.finished then s else (s.giveBack e.2.taken).freeTask e.1 e.2

/-- The linear indices of a task's gang. -/
def State.gangIndices (s : State) (k : Task) : List Nat := span (s.gangNo k * s.gangSize k) (s.gangCount k)

/-- A gang has ended without being placed again, or before it is: its grid places no more of it. -/
def Grid.dropWaiting (x : Grid) (indices : List Nat) : Grid :=
  { x with next := max x.next ((indices.getLastD 0) + 1), retry := x.retry.filter (fun r => !indices.contains r.index) }

/-- A load of a task is still outstanding. -/
def Task.loading (k : Task) : Bool := k.teams.any (fun f => f.2.pend.any (fun q => !q.done && (match q.kind with
  | .mem m => m.kind = .load
  | _ => false)))

/-- A record of a task waits for room in its context's fault ring (R439). -/
def State.recordWaits (s : State) (tid : Nat) (k : Task) : Bool := (s.ctx k.ctx).heldFaults.any (fun r => bytesAt r 4 2 = tid)

/-- Cohorts to be placed again, in ascending order of their indices (R355). -/
def Grid.addRetry (x : Grid) (r : Retry) : Grid :=
  { x with retry := x.retry.filter (fun q => q.index < r.index) ++ [r] ++ x.retry.filter (fun q => r.index < q.index) }

/-- TASK_FAIL (R408, R261 to R263): once the record of the failure is written (R439) and the loads already issued are complete, the
task, and the gang it belongs to, stop; their versions are discarded; the gang is placed again, ahead of its grid's other cohorts, or
reported. -/
def execTaskFail (task : Nat) (s : State) : Out :=
  match s.task? task with
  | none => .next s
  | some k =>
    let members := s.gangTasks k
    if !s.failingGang k || members.any (fun e => s.recordWaits e.1 e.2 || e.2.loading) then .next s
    else
      let again := s.wouldRetry k
      let by_ := match members.find? (fun e => e.2.primary) with
        | some e => s.gangMember e.2
        | none => 0
      let done := (members.filter (fun e => e.2.finished)).length
      let indices := s.gangIndices k
      let s' := members.foldl State.stopMember s
      let s' := if again then s' else members.foldl (fun s e =>
        if e.2.primary || e.2.finished then s else s.reportRecord e.1 e.2 66 0#64 (BitVec.ofNat 32 by_)) s'
      let s' := s'.dropGang k
      let s' := s'.modGrid k.grid (fun x => x.dropWaiting indices)
      if again then
        .next ((s'.modGrid k.grid (fun x =>
          indices.foldl (fun x i => x.addRetry { index := i, retries := k.retries + 1 }) x)).checkDone k.ctx)
      else .next ((s'.countEnded k.grid (indices.length - done) true).checkDone k.ctx)

/-- The record in the log of a task's loss (R375): what it meets. -/
def State.lossRecord (s : State) (tid code : Nat) : RecRes :=
  match s.team? (.team tid 0) with
  | none => .hold
  | some t => match endChunk s (.team tid 0) t 4 (toBytes 1 3 ++ toBytes 1 code) (max t.chunk.last t.over) none with
    | .go s t => .go (s.setTeam (.team tid 0) t) t
    | r => r

/-- A task is reported failed for a cause outside it, and its gang with it; none is placed again (R182, R263, R268). Those of its
gang that the cause names too are reported by it, the others by GANG_FAILED. -/
def State.loseTask (s : State) (named : List Nat) (tid code : Nat) (addr : Word64) : State :=
  match s.task? tid, s.lossRecord tid code with
  | none, _ | _, .hold => s
  | _, .diverge s => s
  | some k, .go s _ =>
    let members := s.gangTasks k
    let lost (e : Nat × Task) : Bool := e.1 = tid || named.contains e.1
    let s := members.foldl (fun s e => if e.1 ≠ tid && lost e && !e.2.finished then
      (match s.lossRecord e.1 code with
       | .go s _ => s
       | _ => s) else s) s
    let done := (members.filter (fun e => e.2.finished)).length
    let indices := s.gangIndices k
    let s' := members.foldl (fun s e => if e.2.finished then s
      else if lost e then s.reportRecord e.1 e.2 code addr 0#32
      else s.reportRecord e.1 e.2 66 0#64 (BitVec.ofNat 32 (s.gangMember k))) (members.foldl State.stopMember s)
    let s' := (s'.dropGang k).modGrid k.grid (fun x => x.dropWaiting indices)
    (s'.countEnded k.grid (indices.length - done) true).checkDone k.ctx

/-! ## Completion -/

/-- The fixed tree of R66 over leaves `lo` to `lo + 2^n - 1`. -/
def sumTree (leaves : List (Nat × Word)) : Nat → Nat → Nat
  | 0, lo => (AMap.get (BitVec.ofNat 32 fmtF32.absent) leaves lo).toNat
  | n + 1, lo =>
    if leaves.all (fun e => e.1 < lo || lo + 2 ^ (n + 1) ≤ e.1) then fmtF32.absent
    else faddWord (sumTree leaves n lo) (sumTree leaves n (lo + 2 ^ n))

/-- Height of the tree over a number of cohorts, padded to a power of two. -/
def treeHeight : Nat → Nat → Nat
  | 0, _ => 0
  | k + 1, n => if n ≤ 1 then 0 else treeHeight k ((n + 1) / 2) + 1

/-- FADD_TREE_APPLY (R366): each word's partial sums are combined along the tree and added to it. -/
def execFaddTreeApply (grid : Nat) (s : State) : Out :=
  match s.grid? grid with
  | none => .next s
  | some x =>
    if x.complete || !x.started || x.ended < x.record.cohorts || (!x.failed && x.run + 1 < x.runs) || x.sums.isEmpty ||
        x.sumsApplied then .next s
    else
      let h := treeHeight 96 x.record.cohorts
      if x.sums.any (fun e => s.bytesHeld true (span e.1 4)) then .next s
      else
      let s := x.sums.foldl (fun s e =>
        s.commitBytes e.1 (toBytes 4 (faddWord (readNat s.mem e.1 4) (sumTree e.2 h 0)))) s
      .next ((s.setGrid grid { x with sumsApplied := true }).afterRun grid)

/-- A completion at a word: STORE or ADD, in one step at its home (R332, R353). -/
def State.completeWord (s : State) (c what n : Nat) (va : Nat) (value : Nat) (add : Bool) : State × Fe Bool :=
  if add then s.feAdd c what n va value else s.fePut c what n va (toBytes 4 value)

/-- A grid comes before another of its context in sequence order: by packet number, or by launch ordinal where one is a device-side
child (R354, R355; log 24). -/
def Grid.precedes (x y : Grid) : Bool :=
  match x.packet, y.packet with
  | some m, some n => decide (m < n)
  | _, _ => decide (x.ordinal < y.ordinal)

/-- GRID_COMPLETION (R353): once the check has closed and its messages have been accepted, in sequence order (R354). One that
is denied leaves the grid complete without it (R454). -/
def execGridCompletion (grid : Nat) (s : State) : Out :=
  match s.grid? grid with
  | none => .next s
  | some x =>
    let earlier := s.grids.any (fun e => e.2.ctx = x.ctx && e.2.checked && !e.2.complete && e.1 ≠ grid && e.2.precedes x &&
      !s.feHeld x.ctx 1 e.1)
    let unsent := s.sent.any (fun m => m.grid = grid)
    if !x.checked || x.complete || earlier || unsent then .next s
    else match s.completeWord x.ctx 1 grid x.record.compAddr.toNat x.record.compValue.toNat x.record.addMode with
      | (s, .ok _) | (s, .denied) => .next (s.endGrid grid)
      | (s, .held) => .next s

end Sys2Proof.Machine
end

