-- ==== Sys2Proof/Machine/Debug.lean ====
section
/-!
DEFINITION. What system software does to running work: page-fault answers (R407), stops and releases of clusters (R391 to R393,
R403, R404), pre-emption and forced resets (R410 to R412).
-/

namespace Sys2Proof.Machine

/-! ## Page faults -/

/-- The pending page fault that a PFRES value names, when the write keeps its reserved bits 0. -/
def State.answered (s : State) (c : Nat) (value : Word) : Option PageFault :=
  if value.toNat / 2 ^ 17 ≠ 0 then none
  else (s.ctx c).pageFaults.find? (fun f => f.seq = nbits value.toNat 0 16)

/-- The page fault is no longer pending. -/
def State.dropFault (s : State) (c : Nat) (f : PageFault) : State :=
  s.modCtx c (fun k => { k with pageFaults := k.pageFaults.filter (fun g => g ≠ f) })

/-- A suspended party may issue its instruction again; one that parks is not held by its fault. -/
def Team.unfault (t : Team) : Team :=
  match t.hold with
  | .pageFault _ _ => { t with hold := .none }
  | _ => t

/-- The address of the instruction that a page fault suspends. -/
def Team.faultPc (t : Team) : Word64 :=
  match t.hold with
  | .pageFault _ _ => t.pc
  | _ => t.ipc

/-- The operation that a page fault suspends, of those of a core's engines and its collectives. -/
def Core.faulted (k : Core) (eng : Nat) : Option EngOp := (k.engines.flatMap (·.2) ++ k.colls).find? (fun o => o.seq = eng)

/-- Clears the suspension of an operation. -/
def Core.clearFault (k : Core) (eng : Nat) : Core :=
  let clear (o : EngOp) : EngOp := if o.seq = eng then { o with fault := none } else o
  { k with engines := AMap.mapVals (fun _ q => q.map clear) k.engines, colls := k.colls.map clear }

/-- PFRES_RETRY (R407): the instruction issues again from its first pass, the element or access is translated afresh. -/
def execPfresRetry (ctx : Nat) (value : Word) (s : State) : Out :=
  if nbit value.toNat 16 then .next s
  else match s.answered ctx value with
    | none => .next (s.setCtxErr ctx)
    | some f =>
      let s := s.dropFault ctx f
      match f.who with
      | .team t o => .next (match s.team? (.team t o) with
        | some u => s.setTeam (.team t o) u.unfault
        | none => s)
      | .lead t o => .next (match s.team? (.lead t o) with
        | some u => s.setTeam (.lead t o) u.unfault
        | none => s)
      | .engine core eng => .next (s.modCore core (fun k => k.clearFault eng))
      | .frontEnd _ _ => .next s

/-- PFRES_FAIL (R407, R454): the party takes ACCESS at the same instruction and address. -/
def execPfresFail (ctx : Nat) (value : Word) (s : State) : Out :=
  if !nbit value.toNat 16 then .next s
  else match s.answered ctx value with
    | none => .next (s.setCtxErr ctx)
    | some f =>
      let s := s.dropFault ctx f
      let access := laneTrap 21 f.va f.lane 0
      match f.who with
      | .team t o => .next (match s.team? (.team t o) with
        | some u => (s.setTeam (.team t o) u.unfault).raiseTrap (.team t o) u.faultPc access
        | none => s)
      | .lead t o => .next (match s.team? (.lead t o) with
        | some u => (s.setTeam (.lead t o) u.unfault).raiseTrap (.lead t o) u.faultPc access
        | none => s)
      | .engine core eng => .next (match (s.core core).faulted eng with
        | some o => (s.modCore core (fun k => k.clearFault eng)).engineTrap o access
        | none => s)
      | .frontEnd what n =>
        .next ((s.frontEndRecord ctx 1 21 f.va 0#32).feDeny ctx what n)

/-! ## Stops -/

/-- The teams of a context on a cluster that a stop freezes, in the order of their team fields: those of failing tasks stop
under R408 instead (R413). -/
def State.toFreeze (s : State) (cluster c : Nat) : List (Nat × Nat × Task × Team) :=
  (s.allTeams.filter (fun x => clusterOf x.2.2.1.core = cluster && x.2.2.1.ctx = c && x.2.2.1.resident &&
    !x.2.2.1.finished && !x.2.2.2.released && !s.gone (.team x.1 x.2.1) x.2.2.2 && x.2.2.2.freeze = .no &&
    !s.failingGang x.2.2.1)).mergeSort (fun a b =>
      decide (teamField a.2.2.1.core a.2.2.2.partition a.2.2.2.slot ≤ teamField b.2.2.1.core b.2.2.2.partition b.2.2.2.slot))

/-- Instructions that a team has begun and completed since the hit (R392): one that it has begun and that still holds it is not
counted. -/
def State.skid (s : State) (h : Hit) (tid ord : Nat) (k : Task) (t : Team) : Nat :=
  let done := if s.holdOver (.team tid ord) t.hold then t.retired else t.over
  done - AMap.get t.retired h.counts (teamField k.core t.partition t.slot)

/-- The WATCH record of a frozen team (R184, R393). -/
def State.watchRecord (s : State) (h : Hit) (x : Nat × Nat × Task × Team) : State :=
  let hitter := x.1 = h.task && x.2.1 = h.ord
  let p : Party := if hitter && h.lead then .lead x.1 x.2.1 else .team x.1 x.2.1
  let tr : TrapInfo :=
    { cls := 2, code := 48, addr := if hitter then h.addr else 0#64, lane := if hitter then h.lane else 0xFFFF
      detail := BitVec.ofNat 32 (h.wp + 2 ^ 16 * (s.skid h x.1 x.2.1 x.2.2.1 x.2.2.2 % 2 ^ 16)), engine := hitter && h.engine }
  let r := s.trapRecord p x.1 x.2.2.1 (if hitter then h.pc else s.standsAt p x.2.2.2) tr
  s.queueFault { r with flags := r.flags + b2n hitter }

/-- Freezes a team under a stop, ending its chunk (R375, R391). -/
def State.stopTeam (s : State) (x : Nat × Nat × Task × Team) : State :=
  (s.cutChunk (.team x.1 x.2.1) 5).freezeTeam x.1 x.2.1

/-- CLUSTER_STOP (R391, R393): the stop that a hit sent has reached the cluster, 6 arithmetic clocks after it, and takes effect; each team it freezes writes a WATCH record, the hitting
team first. -/
def execClusterStop (cluster : Nat) (s : State) : Out :=
  let k := s.cluster cluster
  match k.hit with
  | none => .next s
  | some h =>
    if !h.reached s then .next s
    else
      let xs := s.toFreeze cluster h.ctx
      let mine (x : Nat × Nat × Task × Team) : Bool := x.1 = h.task && x.2.1 = h.ord
      let s := (xs.filter mine ++ xs.filter (fun x => !mine x)).foldl (fun s x => (s.watchRecord h x).stopTeam x) s
      .next (s.setCluster cluster { k with hit := some { h with stopped := true }, stops := h.ctx :: k.stops.erase h.ctx })

/-- A CLSTOP write that breaks its terms is ignored, with the error bit of the context it names (R404, R432). -/
def clstopOk (v : Nat) : Bool := v / 2 ^ 9 = 0 && !(nbit v 1 && nbit v 2)

/-- CLSTOP_REQ (R404): the cluster stops for a context, without records. -/
def execClstopReq (cluster : Nat) (value : Word) (s : State) : Out :=
  let v := value.toNat
  let c := nbits v 3 6
  let cl := cluster % 16
  if !nbit v 1 then .next s
  else if !clstopOk v then .next (s.setCtxErr c)
  else
    let s := (s.toFreeze cl c).foldl State.stopTeam (s.setReg (rCLSTOP cl) (BitVec.ofNat 64 (8 * c)))
    .next (s.modCluster cl (fun k => { k with stops := c :: k.stops.erase c }))

/-- A frozen team is ready again, its registers as its frame holds them (R207, R404). -/
def State.unfreeze (s : State) (tid ord : Nat) : State :=
  let s := s.reloadTeam tid ord
  match s.team? (.team tid ord) with
  | some t => s.setTeam (.team tid ord) { t with freeze := .no }
  | none => s

/-- Ends every stop of a context on a cluster (R404, R412); a team in a step is frozen too, and its step ends blocked (log 16). A stop
that a hit has sent and that has not yet arrived still comes. -/
def State.release (s : State) (cluster c : Nat) : State :=
  let xs := s.allTeams.filter (fun x => clusterOf x.2.2.1.core = cluster && x.2.2.1.ctx = c && x.2.2.1.resident &&
    x.2.2.2.freeze ≠ .no)
  let s := xs.foldl (fun s x => s.endStep x.1 x.2.1 (s.standsAt (.team x.1 x.2.1) x.2.2.2) 1) s
  (xs.foldl (fun s x => s.unfreeze x.1 x.2.1) s).modCluster cluster (fun k => { k with
    stops := k.stops.erase c
    hit := match k.hit with
      | some h => if h.ctx = c && h.stopped then none else some h
      | none => none })

/-- CLSTOP_REL (R404): every frozen team of the context on the cluster goes on. -/
def execClstopRel (cluster : Nat) (value : Word) (s : State) : Out :=
  let v := value.toNat
  let c := nbits v 3 6
  let cl := cluster % 16
  if !nbit v 2 then .next s
  else if !clstopOk v then .next (s.setCtxErr c)
  else .next ((s.setReg (rCLSTOP cl) (BitVec.ofNat 64 (8 * c))).release cl c)

/-! ## Pre-emption -/

/-- Ends a prologue that `halt` holds, with its launch (R181; log 25). -/
def State.endHalted (s : State) (c : Nat) (all : Bool) : State :=
  match (s.ctx c).prologue with
  | some q => if all || q.team.hold = .halt then (s.prologueRecord c q.team.pc).endPrologue c else s
  | none => s

/-- The teams of a context's resident cohorts are saved to their frames. R206 has a pre-emption save them and names no moment: DESIGN
CHOICE, they are saved once, as PREEMPT.go is written, and run on (R207, R411; log 12). -/
def State.saveCtx (s : State) (c : Nat) : State :=
  (s.tasks.filter (fun e => e.2.ctx = c && e.2.resident && !e.2.finished)).foldl (fun s e =>
    e.2.teams.foldl (fun s f => s.saveLive e.1 f.1) s) s

/-- The chunks of the teams of a context's resident cohorts end, as its pre-emption begins (R375). -/
def State.cutCtx (s : State) (c : Nat) : State :=
  (s.tasks.filter (fun e => e.2.ctx = c && e.2.resident && !e.2.finished)).foldl (fun s e =>
    e.2.teams.foldl (fun s f => if s.gone (.team e.1 f.1) f.2 || f.2.freeze ≠ .no then s else s.cutChunk (.team e.1 f.1) 5) s) s

/-- PREEMPT_GO (R410, R411): nothing of the context is started or placed from here on. DESIGN CHOICE: a prologue that comes to its `halt`
later stays there until its wake event; only one that is halted as go is written ends with its launch (R181; log 25). -/
def execPreemptGo (ctx : Nat) (value : Word) (s : State) : Out :=
  let v := value.toNat
  if !nbit v 0 then .next s
  else if v / 4 ≠ 0 then .next (s.setCtxErr ctx)
  else if nbit (s.creg ctx oPREEMPT) 0 then .next s
  else
    let s := ((((s.cutCtx ctx).saveCtx ctx).setCreg ctx oPREEMPT 3).modCtx ctx (fun k => { k with preemptSince := some s.time })).endHalted ctx false
    .next (s.checkDone ctx)

/-- PREEMPT_RESUME (R411): placement goes on, held retries first. -/
def execPreemptResume (ctx : Nat) (value : Word) (s : State) : Out :=
  let v := value.toNat
  if nbit v 0 then .next s
  else if v / 4 ≠ 0 then .next (s.setCtxErr ctx)
  else .next ((s.setCreg ctx oPREEMPT 2).modCtx ctx (fun k => { k with preemptSince := none }))

/-- A task of a context that is reset: its CONTEXT_RESET record, after a TRAP record under recording, and everything it
holds is discarded (R412). -/
def State.resetTask (s : State) (e : Nat × Task) : State :=
  let s := match s.lossRecord e.1 64 with
    | .go s _ => s
    | _ => s
  let s := s.reportRecord e.1 e.2 64 0#64 0#32
  ((s.giveBack e.2.taken).freeTask e.1 e.2).dropTask e.1

/-- A grid all of whose cohorts have ended, whose completion stands (R412). -/
def Grid.over (x : Grid) : Bool :=
  x.complete || x.atCheck || (x.started && decide (x.record.cohorts ≤ x.ended) && (x.failed || decide (x.runs ≤ x.run + 1)))

/-- The forced reset of a context (R412, R437). -/
def State.forceReset (s : State) (c : Nat) : State :=
  let s := (span 0 16).foldl (fun s k => (s.release k c).modCluster k (fun k => { k with
    hit := k.hit.filter (fun h => h.ctx ≠ c) })) s
  let s := s.modCtx c (fun k => { k with pageFaults := [], feFailed := [] })
  let s := (s.tasks.filter (fun e => e.2.ctx = c && !e.2.finished)).foldl State.resetTask s
  let rest := s.tasks.filter (fun e => e.2.ctx = c)
  let s := rest.foldl (fun s e => s.dropTask e.1) s
  let dead := s.grids.filter (fun e => e.2.ctx = c && !e.2.over)
  let s := dead.foldl (fun s e => s.abandon e.1) s
  let s : State := { s with gangBars := s.gangBars.filter (fun e => !dead.any (fun g => g.1 = e.1 / 2 ^ 34)) }
  let s := s.endHalted c true
  let s := s.modCtx c (fun k => { k with
    incoming := [], partials := [], skip := [], preemptSince := none, epoch := (k.epoch + 1) % 16, resetting := true
    packets := k.packets.filter (fun p => s.packetOver c p.2 || p.2.stage = .running || (p.2.kind = 3 && p.2.stage = .started)) })
  let s := (span 0 16).foldl (fun s q => s.setCreg c (oQCTL q) (s.creg c (oQCTL q) % 64)) s
  (s.setCreg c oPREEMPT 2).resetDone c

/-- PREEMPT_DEADLINE (R412): PDEAD µs have passed since go was written, and the context is not done. -/
def execPreemptDeadline (ctx : Nat) (s : State) : Out :=
  match (s.ctx ctx).preemptSince with
  | none => .next s
  | some t =>
    if decide (t + 100 * s.creg ctx oPDEAD ≤ s.time) then .next (s.forceReset ctx) else .next s

/-- CONTEXT_RESET (R412): a write of CTXRST with go set. -/
def execContextReset (ctx : Nat) (value : Word) (s : State) : Out :=
  if value.toNat / 2 ≠ 0 then .next (s.setCtxErr ctx)
  else if nbit value.toNat 0 then .next (s.forceReset ctx)
  else .next s

end Sys2Proof.Machine
end

