-- ==== Sys2Proof/Machine/Matrix.lean ====
section
/-!
DEFINITION. The matrix group as its words issue (R162 to R166, R288, R298), and what each does to rows of a tile (R64,
R65, R163 to R166).
-/

namespace Sys2Proof.Machine

/-! ## Tiles -/

/-- An entry of a tile: count and binary64 value (R64). -/
def Core.entry (k : Core) (tile row col : Nat) : Nat × Nat :=
  let x := (AMap.get 0#80 k.tiles (tile * 16384 + row * 128 + col)).toNat
  (x / 2 ^ 64, x % 2 ^ 64)

def Core.setEntry (k : Core) (tile row col : Nat) (e : Nat × Nat) : Core :=
  { k with tiles := AMap.put 0#80 k.tiles (tile * 16384 + row * 128 + col) (BitVec.ofNat 80 (e.1 * 2 ^ 64 + e.2)) }

/-- Side registers of a row: maximum, sum and factor, f32 codes with their starting values (R163). -/
def sideMax : Word := 0xFFC00001#32
def sideFac : Word := 0x3F800000#32
def Core.rmax (k : Core) (tile row : Nat) : Nat := (AMap.get sideMax k.rowMax (tile * 128 + row)).toNat
def Core.rsum (k : Core) (tile row : Nat) : Nat := (AMap.get 0#32 k.rowSum (tile * 128 + row)).toNat
def Core.rfac (k : Core) (tile row : Nat) : Nat := (AMap.get sideFac k.rowFac (tile * 128 + row)).toNat
def Core.setMax (k : Core) (tile row v : Nat) : Core :=
  { k with rowMax := AMap.put sideMax k.rowMax (tile * 128 + row) (BitVec.ofNat 32 v) }
def Core.setSum (k : Core) (tile row v : Nat) : Core :=
  { k with rowSum := AMap.put 0#32 k.rowSum (tile * 128 + row) (BitVec.ofNat 32 v) }
def Core.setFac (k : Core) (tile row v : Nat) : Core :=
  { k with rowFac := AMap.put sideFac k.rowFac (tile * 128 + row) (BitVec.ofNat 32 v) }

/-- Zeroes a row's entries; its side registers too when asked (R163). -/
def Core.clearRow (k : Core) (tile : Nat) (side : Bool) (row : Nat) : Core :=
  let k := { k with tiles := k.tiles.filter (fun e => e.1 / 128 ≠ tile * 128 + row) }
  if side then { k with
    rowMax := AMap.erase k.rowMax (tile * 128 + row), rowSum := AMap.erase k.rowSum (tile * 128 + row)
    rowFac := AMap.erase k.rowFac (tile * 128 + row) } else k

/-- Holds a tile for a team, with every entry and side register at its start (R163). -/
def Core.holdTile (k : Core) (tile tid ord : Nat) : Core :=
  { k with
    holder := AMap.set k.holder tile (tid, ord)
    tiles := k.tiles.filter (fun e => e.1 / 16384 ≠ tile)
    rowMax := k.rowMax.filter (fun e => e.1 / 128 ≠ tile)
    rowSum := k.rowSum.filter (fun e => e.1 / 128 ≠ tile)
    rowFac := k.rowFac.filter (fun e => e.1 / 128 ≠ tile) }

/-- K of a record format (R164); formats of one K form a family (log 18). -/
def depthOf (fmt : Nat) : Nat := if fmt = 11 then 128 else if 9 ≤ fmt then 64 else 32

/-- Element width in bits of a record format. -/
def ObRec.bits (r : ObRec) : Nat := tyWidth r.fmt

/-- OB addresses at which the blocks of a 64-byte row or column begin (R293). -/
def ObRec.blocksAt (r : ObRec) (start : Nat) : List Nat :=
  if r.blk = 0 then []
  else
    let n := r.blockLen * r.bits / 8
    (span 0 (64 / n)).map (fun i => start + n * i)

/-- A record a cohort holds and has set (R159, R164). -/
def recUsable (tid : Nat) (r : ObRec) : Bool := r.held = some tid && r.fmt ≠ 0

/-- Rows or columns of a record read by a word: their first bytes. -/
def ObRec.starts (r : ObRec) (rows : List Nat) : List Nat := rows.map (fun i => r.lo + 64 * i)

/-- A tile and, under md.red, its pair (R163 to R166). -/
def pairTiles (md : Word) (tile : Nat) : List Nat := if mdRed md then [tile, tile ^^^ 1] else [tile]

/-- The tiles that a matrix word uses. -/
def MatrixWord.tiles (w : MatrixWord) (md : Word) (tile : Nat) : List Nat :=
  match w with
  | .mmaTile src _ _ => pairTiles md tile ++ [src]
  | .srsc src => pairTiles md tile ++ [src]
  | _ => pairTiles md tile

/-- A team's outstanding words that use a tile (R163). -/
def Team.usesTile (t : Team) (tile : Nat) : Bool :=
  t.pend.any (fun x => !x.done && (match x.kind with
    | .matrix w y _ _ _ => (w.tiles x.md y).contains tile
    | _ => false))

/-- Any team of a core still has a word on a tile. -/
def State.tileBusy (s : State) (core tile : Nat) : Bool :=
  s.allTeams.any (fun x => x.2.2.1.core = core && x.2.2.2.usesTile tile)

/-- The first tile that the team may not name (R162, R163). -/
def notOwned (k : Core) (t : Team) (tid ord : Nat) (tiles : List Nat) : Option Nat :=
  tiles.find? (fun x => x / 2 ≠ t.partition / 8 || AMap.find k.holder x ≠ some (tid, ord))

def ownerTrap (tile : Nat) : TrapInfo := trapOf 32 0#64 tile
def formatTrap (record tile : Nat) : TrapInfo := trapOf 30 0#64 (256 * record + tile)

/-- Byte ranges of the operand buffer that a word reads (R294). -/
def Core.obReads (k : Core) (w : MatrixWord) (rows : List Nat) : List (Nat × Nat) :=
  let ofRec (n : Nat) (starts : List Nat) : List (Nat × Nat) :=
    let r := k.obRec n
    starts.flatMap (fun x => (x, x + 63) :: (r.blocksAt x).flatMap (fun y =>
      [((r.sag y).1, (r.sag y).1), ((r.sag y).2, (r.sag y).2)]))
  match w with
  | .mma a b => ofRec a ((k.obRec a).starts rows) ++ ofRec b ((k.obRec b).starts (span 0 128))
  | .mmaTile _ _ b => ofRec b ((k.obRec b).starts (span 0 128))
  | _ => []

/-- The lowest row at which a tile and its pair differ (R166). -/
def Core.mismatch (k : Core) (tile : Nat) (rows : List Nat) : Option Nat :=
  rows.find? (fun i => (span 0 128).any (fun j => k.entry tile i j ≠ k.entry (tile ^^^ 1) i j))

/-- The lanes of a matrix word: those that take part, below 128 (R162). -/
def Team.matrixRows (t : Team) : LaneMask := t.takePart &&& BitVec.ofNat 1024 (2 ^ 128 - 1)

/-- The part of a word that an event performs: of its rows in memory those of the named lane alone, if one is named (R240). -/
def MatrixWord.chosen (w : MatrixWord) (only : Option Nat) : MatrixWord :=
  match only, w with
  | some l, .mld rows => .mld (rows.filter (·.lane = l))
  | some l, .mdrain norm (.mem a80 rows) => .mdrain norm (.mem a80 (rows.filter (·.lane = l)))
  | _, w => w

/-- What is left of a word after that event; none when it has been performed whole. -/
def MatrixWord.rest (w : MatrixWord) (only : Option Nat) : Option MatrixWord :=
  match only, w with
  | some l, .mld rows =>
    let left := rows.filter (·.lane ≠ l)
    if left.isEmpty then none else some (.mld left)
  | some l, .mdrain norm (.mem a80 rows) =>
    let left := rows.filter (·.lane ≠ l)
    if left.isEmpty then none else some (.mdrain norm (.mem a80 left))
  | _, _ => none

/-- The rows of a mask, ascending. -/
def rowList (m : LaneMask) : List Nat := lanesFrom m 0 128

/-- Queues a matrix word on the team's array (R162, R288). -/
def startMatrix (w : MatrixWord) (tile seq : Nat) (s : State) (p : Party) (t : Team) : Res :=
  let core := s.coreOf p
  let c := s.core core
  let q := t.partition / 8
  let entries := AMap.get [] c.arrays q
  if 16 ≤ entries.length then .wait
  else
    let e : ArrayEntry := { task := (partyTask p).getD 0, ord := partyOrd p, op := t.nextId }
    .started (s.setCore core { c with arrays := AMap.set c.arrays q (entries ++ [e]) })
      (t.start' .tl (.matrix w tile t.matrixRows false seq)) t.nextId

/-- A matrix word on tiles that the team must hold. -/
def matrixWord (w : MatrixWord) (tile : Nat) (s : State) (p : Party) (t : Team) : Res :=
  let c := s.core (s.coreOf p)
  match notOwned c t ((partyTask p).getD 0) (partyOrd p) (w.tiles t.md tile) with
  | some x => .trap (ownerTrap x)
  | none => startMatrix w tile c.lockSeq s p t

/-! ## Rows in memory -/

/-- One part of a row: checks it, and says where it lies; `data` holds its place in the row and `data2` its length. -/
def rowPart (sp : Space) (how : How) (p : Party) (lane : Nat) (addr : Word64) (off len : Nat) (s : State) :
    Except Res (State × Access) :=
  let fail (code : Nat) : Except Res (State × Access) := .error (.trap (laneTrap code addr lane 0))
  match s.resolve p sp how addr false, (s.resolve p sp how (addr + BitVec.ofNat 64 (len - 1)) false).2 with
  | (s, .ok l), .ok _ =>
    if s.rangeLocked p l addr len (decide (how = .store)) then fail 22
    else .ok (s, { lane := lane, va := addr, loc := l, data := BitVec.ofNat 64 off, data2 := BitVec.ofNat 64 len })
  | (_, .ok _), _ => fail 21
  | (_, .fail code), _ => fail code
  | (_, .page), _ => .error (.trap { laneTrap 1 addr lane (b2n (how = .store)) with cls := 0 })
  | (_, .miss), _ => .error (.walk addr how lane)
  | (_, .notStarted), _ => .error .wait
  | (_, .nowhere pa), _ => .error (.stop (.noSuchAddress pa))

/-- The rows of `n` bytes at base + n × row, each in one part or two at a page boundary (R163, R166, R122). -/
def rowParts (sp : Space) (how : How) (p : Party) (base : Word64) (al n : Nat) :
    List Nat → State → Except Res (State × List Access)
  | [], s => .ok (s, [])
  | i :: rest, s =>
    let a := base + BitVec.ofNat 64 (n * i)
    let addr := if sp = .own then (lowHalf a).setWidth 64 else a
    if addr.toNat % al ≠ 0 then .error (.trap (laneTrap 20 addr i 0))
    else
      let first := min n (4096 - addr.toNat % 4096)
      match rowPart sp how p i addr 0 first s with
      | .error r => .error r
      | .ok (s, x) =>
        let tail : Except Res (State × List Access) :=
          if first = n then .ok (s, [x])
          else match rowPart sp how p i (addr + BitVec.ofNat 64 first) first (n - first) s with
            | .error r => .error r
            | .ok (s, y) => .ok (s, [x, y])
        match tail with
        | .error r => .error r
        | .ok (s, xs) => match rowParts sp how p base al n rest s with
          | .error r => .error r
          | .ok (s, ys) => .ok (s, xs ++ ys)

/-- An earlier access of the team that rows must wait for: one that shares bytes, or an acquire (R123, R234). -/
def Team.rowsWait (t : Team) (rows : List Access) : Bool :=
  t.pend.any (fun x => !x.done && (match x.kind with
    | .mem m => m.acq || rows.any (fun r => m.accs.any (fun a => a.loc.meets m.bytes r.loc r.data2.toNat))
    | .matrix (.mld rs) _ _ _ _ => rows.any (fun r => rs.any (fun a =>
        a.loc.meets a.data2.toNat r.loc r.data2.toNat))
    | _ => false))

/-! ## Issue -/

/-- `mres` (R163, R288). DESIGN CHOICE: `mres` and `mrel` are served as they issue and take no entry of the quadrant's queue, so they do
not wait for room in it (log 18). -/
def execMres (h : Hdr) (t : BitVec 3) (s : State) : Out :=
  issue (.mres h t) h s (fun s p u =>
    let core := s.coreOf p
    let c := s.core core
    let tid := (partyTask p).getD 0
    let me := (tid, partyOrd p)
    let x := t.toNat
    let queue := AMap.get [] c.tileQ x
    if x / 2 ≠ u.partition / 8 then .trap (ownerTrap x)
    else if AMap.find c.holder x = some me then .ok s u
    else if (AMap.find c.holder x).isNone && queue.isEmpty && !s.tileBusy core x then
      .ok ((s.setCore core (c.holdTile x tid (partyOrd p))).cleanse (Site.inTile core [x] (span 0 128) (span 0 128))) u
    else .hold (s.setCore core { c with tileQ := AMap.put [] c.tileQ x (queue ++ [me]) }) (.tile x))

def execMrel (h : Hdr) (t : BitVec 3) (s : State) : Out :=
  issue (.mrel h t) h s (fun s p u =>
    let core := s.coreOf p
    let c := s.core core
    match notOwned c u ((partyTask p).getD 0) (partyOrd p) [t.toNat] with
    | some x => .trap (ownerTrap x)
    | none =>
      if u.usesTile t.toNat then .wait
      else .ok (s.setCore core { c with holder := AMap.erase c.holder t.toNat }) u)

def execMmz (h : Hdr) (t : BitVec 3) (s1 : BitVec 1) (s : State) : Out :=
  issue (.mmz h t s1) h s (matrixWord (.mmz (s1 = 1#1)) t.toNat)

/-- `mld` (R163). -/
def mldRes (tile : Nat) (base : Word64) (s : State) (p : Party) (t : Team) : Res :=
  match notOwned (s.core (s.coreOf p)) t ((partyTask p).getD 0) (partyOrd p) (pairTiles t.md tile) with
  | some x => .trap (ownerTrap x)
  | none => match rowParts .global .load p base 16 2048 (rowList t.matrixRows) s with
    | .error r => r
    | .ok (s, rows) =>
      if t.rowsWait rows then .wait else startMatrix (.mld rows) tile (s.core (s.coreOf p)).lockSeq s p t

def execMld (h : Hdr) (t : BitVec 3) (a : BitVec 5) (s : State) : Out :=
  issue (.mld h t a) h s (fun s p u => mldRes t.toNat (u.kpair a.toNat) s p u)

/-- What `mma` checks of its records (R164): records held and set, then formats, ranges and scale addresses. DESIGN CHOICE: where a
format breach and a breach of a range or a scale address both stand, the format's trap is taken; the rule orders only the check of the
records before that of the formats (log 18). -/
def mmaTrap (k : Core) (tid tile : Nat) (a : Option Nat) (b : Nat) (block : Nat) (rows : List Nat) : Option TrapInfo :=
  let rb := k.obRec b
  let badRec (n : Nat) (r : ObRec) (starts : List Nat) (need : Nat) : Option TrapInfo :=
    if r.size < need || starts.any (fun x => (r.blocksAt x).any (fun y => !k.sagOk tid r y)) then some (obTrap n tile)
    else none
  match a with
  | some n =>
    let ra := k.obRec n
    if !recUsable tid ra then some (obTrap n tile)
    else if !recUsable tid rb then some (obTrap b tile)
    else if depthOf ra.fmt ≠ depthOf rb.fmt || ra.had ≠ rb.had then some (formatTrap n tile)
    else match badRec n ra (ra.starts rows) ((rows.foldl max 0) * 64 + (if rows.isEmpty then 0 else 64)) with
      | some tr => some tr
      | none => badRec b rb (rb.starts (span 0 128)) 8192
  | none =>
    if !recUsable tid rb then some (obTrap b tile)
    else if rb.fmt = 11 || rb.had ≠ 0 || 128 ≤ block * depthOf rb.fmt then some (formatTrap b tile)
    else badRec b rb (rb.starts (span 0 128)) 8192

/-- `mma` (R164): ownership, then records. -/
def mmaRes (w : MatrixWord) (tile : Nat) (a : Option Nat) (b block : Nat) (s : State) (p : Party) (t : Team) : Res :=
  let c := s.core (s.coreOf p)
  let tid := (partyTask p).getD 0
  match notOwned c t tid (partyOrd p) (w.tiles t.md tile) with
  | some x => .trap (ownerTrap x)
  | none => match mmaTrap c tid tile a b block (rowList t.matrixRows) with
    | some tr => .trap tr
    | none => startMatrix w tile c.lockSeq s p t

def execMma (h : Hdr) (t : BitVec 3) (a b : BitVec 5) (s : State) : Out :=
  issue (.mma h t a b) h s (mmaRes (.mma a.toNat b.toNat) t.toNat (some a.toNat) b.toNat 0)

def execMmaTile (h : Hdr) (t s1 : BitVec 3) (c : BitVec 2) (b : BitVec 5) (s : State) : Out :=
  issue (.mmaTile h t s1 c b) h s (mmaRes (.mmaTile s1.toNat c.toNat b.toNat) t.toNat none b.toNat c.toNat)

def execSmx (h : Hdr) (t : BitVec 3) (c : BitVec 5) (s : State) : Out :=
  issue (.smx h t c) h s (fun s p u => matrixWord (.smx (u.kreg c.toNat)) t.toNat s p u)

def execSexp (h : Hdr) (t : BitVec 3) (c : BitVec 5) (s : State) : Out :=
  issue (.sexp h t c) h s (fun s p u => matrixWord (.sexp (u.kreg c.toNat)) t.toNat s p u)

def execSrsc (h : Hdr) (o s1 : BitVec 3) (s : State) : Out :=
  issue (.srsc h o s1) h s (matrixWord (.srsc s1.toNat) o.toNat)

/-- The destination range of a drain to memory: from its lowest to its highest byte (R166). -/
def drainSpan (rows : List Access) (own : Bool) : List LockSpan :=
  match rows with
  | [] => []
  | r :: rs =>
    let ends := (r :: rs).map (fun a => (a.va.toNat, a.va.toNat + a.data2.toNat - 1))
    [{ ob := false, spd := own, lo := (ends.map (·.1)).foldl min r.va.toNat, hi := (ends.map (·.2)).foldl max 0, dest := true }]

/-- `mdrain` to memory (R166). -/
def drainMem (tile norm : Nat) (kind : Nat) (base : Word64) (s : State) (p : Party) (t : Team) : Res :=
  let n := if kind = 3 then 2048 else 128 * elemSize (mdType t.md)
  let al := if kind = 3 then 16 else elemSize (mdType t.md)
  match rowParts (if kind = 1 then .own else .global) .store p base al n (rowList t.matrixRows) s with
  | .error r => r
  | .ok (s, rows) =>
    if t.rowsWait rows || 16 ≤ (AMap.get [] (s.core (s.coreOf p)).arrays (t.partition / 8)).length then .wait
    else
      registering s p t (s.coreOf p) t.nextId (drainSpan rows (kind = 1))
        (fun s t seq => startMatrix (.mdrain norm (.mem (kind = 3) rows)) tile seq s p t)

/-- `mdrain` (R166): a redundant drain compares the pair as it issues, once the words before it have written both tiles, so that one
that differs traps with nothing registered or counted (R168; log 39). -/
def execMdrain (h : Hdr) (t : BitVec 3) (k n o : BitVec 2) (i : BitVec 5) (s : State) : Out :=
  issue (.mdrain h t k n o i) h s (fun s p u =>
    let c := s.core (s.coreOf p)
    match notOwned c u ((partyTask p).getD 0) (partyOrd p) (pairTiles u.md t.toNat) with
    | some x => .trap (ownerTrap x)
    | none =>
      if mdRed u.md && (pairTiles u.md t.toNat).any u.usesTile then .wait
      else match (if mdRed u.md then c.mismatch t.toNat (rowList u.matrixRows) else none) with
      | some row => .trap (trapOf 29 0#64 (256 * row + t.toNat))
      | none => match k.toNat with
      | 0 => startMatrix (.mdrain n.toNat (.reg (4 * i.toNat) o.toNat)) t.toNat c.lockSeq s p u
      | 1 => drainMem t.toNat n.toNat 1 ((u.kreg i.toNat).setWidth 64) s p u
      | kind => drainMem t.toNat n.toNat kind (u.kpair i.toNat) s p u)

/-! ## Effects on rows -/

/-- A value of a tile entry, or a side register, as a number: the absent pattern is a NaN there (R64; log 19). -/
def tileNum (f : Fmt) (v : Nat) : Num :=
  match unpack f v with
  | .absent => .nan
  | x => x

/-- Rounds to binary64 or binary32 under RNE, without flushing (R64, R165). -/
def rne64 (x : Num) : Nat := pack fmtF64 rne x
def rne32 (x : Num) : Nat := pack fmtF32 rne x

/-- A NaN value is held as the canonical NaN (R64). -/
def holdValue (v : Nat) : Nat := if (tileNum fmtF64 v).isNan then fmtF64.nan else v

/-- An element scaled by its block's scale byte (R55, R65). -/
def scaled (scale : Nat) (x : Num) : Num := scaleNum ((scale : Int) - 127) x

/-- Element `i` of a 64-byte row or column that starts at an OB address: absent ones are not present (R55, R60, R65, R159). -/
def Core.operandAt (k : Core) (r : ObRec) (md : Word) (start i : Nat) : Num :=
  let code : Nat :=
    if r.fmt = 11 then nbits (k.obByte (start + i / 2)).toNat (4 * (i % 2)) 4
    else if 9 ≤ r.fmt then (k.obByte (start + i)).toNat
    else (k.obByte (start + 2 * i)).toNat + 256 * (k.obByte (start + 2 * i + 1)).toNat
  let plain : Num := match fmtOf r.fmt with
    | some f => operand f md r.fmt code
    | none => .fin (nbit code 3) (e2m1Halves.getD (code % 8) 0) (-1)
  if r.blk = 0 then plain
  else
    let n := r.blockLen * r.bits / 8
    let a := r.sag (start + i * r.bits / 8 / n * n)
    let scale := (k.obByte a.1).toNat
    let special := (k.obByte a.2).toNat
    if scale = 0xFF then .absent
    else if r.fmt = 11 && code = 8 then
      (if special = 0 || special = 0xFF then .absent else scaled scale (unpack fmtE4m3 special))
    else scaled scale plain

/-- One group of 32 products of an entry: the exact sum and the count of those present (R65). -/
def groupSum : List (Num × Num) → Num × Nat
  | [] => (.fin false 0 0, 0)
  | x :: xs =>
    let r := groupSum xs
    if x.1.isAbsent || x.2.isAbsent then r else (addNum false r.1 (mulNum x.1 x.2), r.2 + 1)

/-- The exact Hadamard correction of a group sum (R57, R295). -/
def hadShift (had : Nat) : Int := if had = 1 then -4 else if had = 2 then -5 else 0

/-- Splits a list in groups of 32. -/
def groupsOf : Nat → List (Num × Num) → List (List (Num × Num))
  | 0, _ => []
  | n + 1, l => l.take 32 :: groupsOf n (l.drop 32)

/-- `mma` on one entry (R65). -/
def mmaEntry (had : Nat) (e : Nat × Nat) (products : List (Num × Num)) : Nat × Nat :=
  (groupsOf (products.length / 32) products).foldl (fun e g =>
    let r := groupSum g
    if r.2 = 0 then e
    else (min 0xFFFF (e.1 + r.2), rne64 (addNum false (tileNum fmtF64 e.2) (scaleNum (hadShift had) r.1)))) e

/-- The down-converter's element of a source tile (R164). -/
def Core.downAt (k : Core) (md : Word) (fmt tile row col : Nat) : Num :=
  let e := k.entry tile row col
  match fmtOf fmt with
  | none => .absent
  | some f =>
    if e.1 = 0 then .absent
    else operand f md fmt (pack f { mode := 0, sat := true, flush := false } (tileNum fmtF64 e.2))

/-- Updates the rows of a tile, from rows of A and the columns of B (R164). -/
def mmaRows (had : Nat) (k : Core) (tile : Nat) (a : List (Nat × List Num)) (b : List (Nat × List Num)) : Core :=
  a.foldl (fun k r => b.foldl (fun k c =>
    k.setEntry tile r.1 c.1 (mmaEntry had (k.entry tile r.1 c.1) (List.zip r.2 c.2))) k) k

/-- The maximum of R99 on f32 codes. -/
def max32 (x y : Nat) : Nat := floatBin .max fmtF32 0x60#32 6 x y

/-- rne32(exp2(rne64(rne64(x − y) × c))) (R165). -/
def softExp (c : Word) (x y : Num) : Nat :=
  let d := tileNum fmtF64 (rne64 (addNum false x (negNum y)))
  exp2Code fmtF32 rne (tileNum fmtF64 (rne64 (mulNum d (tileNum fmtF32 c.toNat))))

/-- `smx` on a row (R165). -/
def smxRow (c : Word) (tile : Nat) (k : Core) (i : Nat) : Core :=
  let present := (span 0 128).filterMap (fun j =>
    let e := k.entry tile i j
    if e.1 = 0 then none else some (rne32 (tileNum fmtF64 e.2)))
  match present with
  | [] => k.setFac tile i sideFac.toNat
  | y :: ys =>
    let x := ys.foldl max32 y
    let m := k.rmax tile i
    if m = sideMax.toNat then (k.setMax tile i x).setFac tile i sideFac.toNat
    else
      let n := max32 m x
      let f := softExp c (tileNum fmtF32 m) (tileNum fmtF32 n)
      let l := rne32 (mulNum (tileNum fmtF32 (k.rsum tile i)) (tileNum fmtF32 f))
      ((k.setFac tile i f).setSum tile i l).setMax tile i n

/-- `sexp` on a row, columns ascending (R165). -/
def sexpRow (c : Word) (tile : Nat) (k : Core) (i : Nat) : Core :=
  let m := k.rmax tile i
  let mm : Num := if m = sideMax.toNat then .fin false 0 0 else tileNum fmtF32 m
  (span 0 128).foldl (fun k j =>
    let e := k.entry tile i j
    if e.1 = 0 then k
    else
      let p := softExp c (tileNum fmtF64 e.2) mm
      let l := rne32 (addNum false (tileNum fmtF32 (k.rsum tile i)) (tileNum fmtF32 p))
      (k.setEntry tile i j (e.1, rne64 (tileNum fmtF32 p))).setSum tile i l) k

/-- `srsc` on a row, from the factors and sums of the source (R165). -/
def srscRow (src : Core) (s tile : Nat) (k : Core) (i : Nat) : Core :=
  let f := tileNum fmtF32 (src.rfac s i)
  ((span 0 128).foldl (fun k j =>
    let e := k.entry tile i j
    k.setEntry tile i j (e.1, rne64 (mulNum (tileNum fmtF64 e.2) f))) k).setSum tile i (src.rsum s i)

/-- One drained element (R166). -/
def Core.drained (k : Core) (md : Word) (norm tile row col : Nat) : Nat :=
  let t := mdType md
  let e := k.entry tile row col
  match fmtOf t with
  | none => 0
  | some f =>
    if e.1 = 0 then f.absent
    else
      let v := tileNum fmtF64 e.2
      let v : Num := match norm with
        | 1 => tileNum fmtF64 (divCode fmtF64 rne v (.fin false e.1 0))
        | 2 => tileNum fmtF64 (divCode fmtF64 rne v (tileNum fmtF32 (k.rsum tile row)))
        | _ => v
      pack f (mdRound md t) v

/-- The bytes of a row as a drain writes it (R166, R64). -/
def Core.drainRow (k : Core) (md : Word) (norm tile : Nat) (a80 : Bool) (row : Nat) : List Byte :=
  (span 0 128).flatMap (fun j =>
    if a80 then
      let e := k.entry tile row j
      toBytes 8 e.2 ++ toBytes 2 e.1 ++ toBytes 6 0
    else toBytes (elemSize (mdType md)) (k.drained md norm tile row j))

end Sys2Proof.Machine
end

