-- ==== Sys2Proof/Machine/EngineEvents.lean ====
section
/-!
DEFINITION. The engines as they act: elements of copies and chains (R149 to R153, R245), completions (R246, R299),
collectives (R154, R374), and the fetches of lead queues (R161).
-/

namespace Sys2Proof.Machine

/-! ## Element accesses -/

/-- What stops an element (R150). -/
inductive EngStop where
  | page (va : Word64) (write : Bool)
  | fail (code : Nat) (va : Word64)
  | wait
  | nowhere (pa : Nat)
  deriving DecidableEq, Repr

/-- Where `n` bytes of an element lie: global bytes are translated afresh (R150) and wait while their region changes (R277, R279),
scratchpad addresses are gang addresses (R151). -/
def State.engLocs (s : State) (p : Party) (scratch : Bool) (how : How) (addr : Int) :
    Nat → State × Except EngStop (List Loc)
  | 0 => (s, .ok [])
  | n + 1 =>
    let a : Nat := ofInt 64 addr
    let va : Word64 := BitVec.ofNat 64 a
    let here : State × Except EngStop Loc :=
      if scratch then
        (s, match s.resolveGang p a false with
          | .ok l => .ok l
          | .notStarted => .error .wait
          | _ => .error (.fail 21 va))
      else match s.xlatNow (s.ctxOf p) .user how a with
        | (s, .ok pa) => (s, if s.regionBusy pa 1 then .error .wait else .ok (.glob pa))
        | (s, .denied) => (s, .error (.fail 21 va))
        | (s, .busy) => (s, .error .wait)
        | (s, .nowhere pa) => (s, .error (.nowhere pa))
        | (s, _) => (s, .error (.page va (decide (how = .store))))
    match here with
    | (s, .error e) => (s, .error e)
    | (s, .ok l) => match State.engLocs s p scratch how (addr + 1) n with
      | (s, .ok ls) => (s, .ok (l :: ls))
      | r => r

/-- A byte as an operation sees it: what it has written itself, else storage (R152). -/
def EngOp.byte (o : EngOp) (s : State) (core : Nat) (x : Place) : Byte :=
  match o.out.find? (fun e => e.1 = x) with
  | some e => e.2
  | none => match x with
    | .mem l => BitVec.ofNat 8 (s.readLoc (some o.task) l 1)
    | .ob a => (s.core core).obByte a

/-- Reads an element, as a read at watchpoints (R401); an uncorrectable error in it is met (R150, R289). -/
def engRead (s : State) (core : Nat) (o : EngOp) (scratch : Bool) (addr : Int) (n : Nat) : State × Except EngStop Nat :=
  match s.engLocs o.party scratch .load addr n with
  | (s, .error e) => (s, .error e)
  | (s, .ok ls) =>
    let v := ofBytes (ls.map (fun l => o.byte s core (.mem l)))
    let va : Word64 := BitVec.ofNat 64 (ofInt 64 addr)
    match s.meetFlaws (fun x => ls.any (fun l => s.readsSite (some o.task) l 1 x)) with
    | (s, some _) => (s, .error (.fail 33 va))
    | (s, none) =>
      (match ls with
       | [] => s
       | l :: _ => s.watch (accessor o.party o.pc true) l true false va n 0xFFFF, .ok v)

/-- Writes bytes to scratchpads. -/
def State.writeSpd (s : State) : List (Loc × Byte) → State
  | [] => s
  | (.spd t off, b) :: rest => State.writeSpd (s.writeScratch t off [b]) rest
  | (.glob _, _) :: rest => State.writeSpd s rest

/-- Writes bytes of an element: to a scratchpad at once, each element apart (R149, R240), unless a transaction holds its sector (R138);
to memory into the operation's own bytes until it completes (R246). -/
def engWrite (s : State) (o : EngOp) (scratch : Bool) (addr : Int) (bs : List Byte) : State × Except EngStop EngOp :=
  match s.engLocs o.party scratch .store addr bs.length with
  | (s, .error e) => (s, .error e)
  | (s, .ok ls) =>
    if scratch && ls.any (fun l => s.locHeld none l 1) then (s, .error .wait)
    else
      let s := if scratch then s.writeSpd (List.zip ls bs) else s
      let o' := if scratch then o else { o with out := (List.zip (ls.map Place.mem) bs).reverse ++ o.out }
      (match ls with
       | [] => s
       | l :: _ => s.watch (accessor o.party o.pc true) l false true (BitVec.ofNat 64 (ofInt 64 addr)) bs.length 0xFFFF,
       .ok o')

/-- Writes bytes of the operand buffer. -/
def EngOp.writeOb (o : EngOp) (a : Nat) (bs : List Byte) : EngOp :=
  { o with out := (List.zip ((span a bs.length).map (fun x => Place.ob (x % 2 ^ 19))) bs).reverse ++ o.out }

/-! ## Copies -/

/-- Writes bytes at a copy's destination address: the operand buffer counts from the record's range (R151). -/
def copyWrite (s : State) (c : Copy) (r : ObRec) (o : EngOp) (addr : Int) (bs : List Byte) : State × Except EngStop EngOp :=
  if c.dstSpace = 2 then (s, .ok (o.writeOb (r.lo + addr.toNat) bs))
  else engWrite s o (c.dstSpace = 1) addr bs

/-- Reads the byte at a copy's destination, for a nibble written into it. -/
def copyPeek (s : State) (core : Nat) (c : Copy) (r : ObRec) (o : EngOp) (addr : Int) : State × Except EngStop Byte :=
  if c.dstSpace = 2 then (s, .ok (o.byte s core (.ob (r.lo + addr.toNat))))
  else match s.engLocs o.party (c.dstSpace = 1) .store addr 1 with
    | (s, .ok (l :: _)) => (s, .ok (o.byte s core (.mem l)))
    | (s, .ok []) => (s, .ok 0#8)
    | (s, .error e) => (s, .error e)

/-- Writes one element code: a nibble for e2m1, low nibble first (R152, R55). -/
def copyPut (s : State) (core : Nat) (c : Copy) (r : ObRec) (o : EngOp) (pos code : Nat) : State × Except EngStop EngOp :=
  let addr := c.dstAt pos
  if c.dc ≠ 11 then copyWrite s c r o addr (toBytes (elemSize c.dc) code)
  else match copyPeek s core c r o addr with
    | (s, .error e) => (s, .error e)
    | (s, .ok b) =>
      let i0 := pos % c.count0
      let v := if i0 % 2 = 0 then b.toNat / 16 * 16 + code % 16 else b.toNat % 16 + code % 16 * 16
      copyWrite s c r o addr [BitVec.ofNat 8 v]

/-- Writes the codes of a block whose first element has the given number. -/
def copyPuts (core : Nat) (c : Copy) (r : ObRec) : List Nat → Nat → State → EngOp → State × Except EngStop EngOp
  | [], _, s, o => (s, .ok o)
  | x :: xs, pos, s, o =>
    match copyPut s core c r o pos x with
    | (s, .ok o) => copyPuts core c r xs (pos + 1) s o
    | e => e

/-- Writes a block's scale and special bytes: at the SAG's addresses in the operand buffer (R293), else beside each other
from the scale base (R152). -/
def copyScale (s : State) (core : Nat) (c : Copy) (r : ObRec) (o : EngOp) (first len : Nat) (q : Quant) :
    State × Except EngStop EngOp :=
  let bs : Byte × Byte := (BitVec.ofNat 8 q.scale, BitVec.ofNat 8 q.special)
  if c.dstSpace = 2 then
    let a := r.lo + (c.dstAt first).toNat
    if (s.core core).sagOk o.task r a then
      (s, .ok ((o.writeOb (r.sag a).1 [bs.1]).writeOb (r.sag a).2 [bs.2]))
    else (s, .error (.fail 31 0#64))
  else
    let row := first / c.count0
    let block := first % c.count0 / len
    engWrite s o (c.dstSpace = 1) ((c.sbase : Int) + 2 * (row * (c.count0 / len) + block : Nat)) [bs.1, bs.2]

/-- A source element as a number, for a block to be quantised (R111, R60). -/
def sourceNum (md : Word) (code v : Nat) : Num :=
  match fmtOf code with
  | some f => operand f md code v
  | none => if v % 2 ^ tyWidth code = absentOf code then .absent
            else .fin (intVal code v < 0) (intVal code v).natAbs 0

/-- One element of a copy (R152): a block is quantised once it is whole. -/
def copyStep (s : State) (core : Nat) (o : EngOp) : State × Except EngStop EngOp :=
  let c := parseCopy o.desc
  let r := (s.core core).obRec c.record
  let len := c.blockLen r
  match engRead s core o c.srcSpd (c.srcAt o.pos) (max 1 (elemSize c.sc)) with
  | (s, .error e) => (s, .error e)
  | (s, .ok v) =>
    let done (x : State × Except EngStop EngOp) : State × Except EngStop EngOp :=
      match x with
      | (s, .ok o) => (s, .ok { o with pos := o.pos + 1 })
      | e => e
    if c.raw then
      done (copyPut s core c r o o.pos (if c.sc = 11 then nbits v (4 * (o.pos % c.count0 % 2)) 4 else v))
    else if len = 0 then done (copyPut s core c r o o.pos (elemCvt o.md c.sc c.dc v))
    else
      let block := o.block ++ [BitVec.ofNat 64 v]
      if block.length < len then (s, .ok { o with block := block, pos := o.pos + 1 })
      else
        let q := quantise o.md c.dc (c.transforms r) (block.map (fun x => sourceNum o.md c.sc x.toNat))
        let first := o.pos + 1 - len
        match copyPuts core c r q.codes first s { o with block := [] } with
        | (s, .ok o') => done (copyScale s core c r o' first len q)
        | e => e

/-! ## Chains -/

/-- One operation of a chain (R153): opcode, running value, operand. -/
def chainStep1 (md : Word) (code op x y : Nat) : Nat :=
  match op with
  | 1 => elemBin .add md code x y
  | 2 => elemBin .sub md code x y
  | 3 => elemBin .sub md code y x
  | 4 => elemBin .mul md code x y
  | 5 => elemBin .div md code x y
  | 6 => elemBin .min md code x y
  | 7 => elemBin .max md code x y
  | 9 => elemUn .abs md code x
  | 10 => elemUn .neg md code x
  | 11 => elemUn .sqrt md code x
  | 12 => elemUn .rcp md code x
  | 13 => elemUn .rsq md code x
  | 14 => elemUn .exp2 md code x
  | _ => elemUn .log2 md code x

/-- One element of a chain (R153): inputs before the output. -/
def chainStep (s : State) (core : Nat) (o : EngOp) : State × Except EngStop EngOp :=
  let d := o.desc
  let code := bytesAt d 0x1C 1
  let n := elemSize code
  let flags := bytesAt d 0x1D 1
  let at_ (off : Nat) : Int := (bytesAt d off 8 + o.pos * n : Nat)
  match engRead s core o (nbit flags 0) (at_ 0) n with
  | (s, .error e) => (s, .error e)
  | (s, .ok a) =>
    let rb : State × Except EngStop Nat := if chainUsesB d then engRead s core o (nbit flags 1) (at_ 8) n else (s, .ok 0)
    match rb with
    | (s, .error e) => (s, .error e)
    | (s, .ok b) =>
      let x := (chainOps d).foldl (fun x q =>
        chainStep1 o.md code q.1 x (if q.2 = 0 then b else bytesAt d (0x30 + 4 * (q.2 - 1)) 4 % 2 ^ tyWidth code)) a
      match engWrite s o (nbit flags 2) (at_ 0x10) (toBytes n x) with
      | (s, .ok o) => (s, .ok { o with pos := o.pos + 1 })
      | e => e

/-! ## Operations -/

/-- Elements of an operation: of a copy on engines 0 and 1, else of a chain. -/
def EngOp.total (o : EngOp) (eng : Nat) : Nat := if eng < 2 then (parseCopy o.desc).total else bytesAt o.desc 0x18 4

/-- Every memory access that the team issued before the operation is performed (R149), those of its matrix words among them. -/
def accessesDone : List Pend → Nat → Bool
  | [], _ => true
  | x :: xs, id =>
    if x.id = id then true
    else
      (x.done || (match x.kind with
        | .mem _ => false
        | .matrix w _ _ _ _ => !w.accesses
        | _ => true)) && accessesDone xs id

/-- A matrix word that the team issued before an operation is still to read bytes of the operand buffer that the operation writes
(R149). -/
def obReadsDue (k : Core) (seq : Nat) : List Pend → Nat → Bool
  | [], _ => false
  | x :: xs, id =>
    if x.id = id then false
    else
      (!x.done && (match x.kind with
        | .matrix w _ rows _ _ => (k.obReads w (rowList rows)).any (fun r =>
            k.locks.any (fun l => l.seq = seq && l.ob && l.dest && meets l.lo l.hi r.1 r.2))
        | _ => false)) || obReadsDue k seq xs id

/-- An operation may act: its team's earlier accesses are performed, no earlier range forbids it, and no fault suspends it
(R149, R150, R245). -/
def State.engReady (s : State) (core : Nat) (o : EngOp) : Bool :=
  o.fault.isNone && s.acting o.party && !s.lockWait core o.task o.seq &&
  (match s.team? o.party with
   | some t => accessesDone t.pend o.op && !obReadsDue (s.core core) o.seq t.pend o.op
   | none => false)

/-- A PAGE_FAULT of an operation (R150): its record, with the operation suspended until PFRES. -/
def State.engPageFault (s : State) (core : Nat) (o : EngOp) (va : Word64) (write : Bool) : State × EngOp :=
  match s.task? o.task, s.team? o.party with
  | some k, some t =>
    match endChunk s o.party t 4 (toBytes 1 0 ++ toBytes 1 1) (t.trapPoint (s.opPoint o)) none with
    | .go s t =>
      let s := s.setTeam o.party t
      let seq := (s.ctx k.ctx).faultSeq
      let tr : TrapInfo := { cls := 0, code := 1, addr := va, lane := 0xFFFF, detail := BitVec.ofNat 32 (b2n write)
                             engine := true }
      let r := s.trapRecord o.party o.task k o.pc tr
      let f : PageFault := { seq := seq, va := va, lane := 0xFFFF, who := .engine core o.seq }
      ((s.modCtx k.ctx (fun x => { x with pageFaults := x.pageFaults ++ [f] })).queueFault r, { o with fault := some seq })
    | .hold => (s, o)
    | .diverge s => (s, o)
  | _, _ => (s, o)

/-- Stores an operation in its engine's queue. -/
def State.setEngOp (s : State) (core eng : Nat) (o : EngOp) : State :=
  s.modCore core (fun k => { k with
    engines := AMap.set k.engines eng ((AMap.get [] k.engines eng).map (fun x => if x.seq = o.seq then o else x)) })

/-- What a stop does to its operation: a page fault suspends it, any other fault fails the task (R150). -/
def engStopped (s : State) (core : Nat) (o : EngOp) (e : EngStop) (put : State → EngOp → State) : Out :=
  match e with
  | .wait => .next (put s o)
  | .page va w =>
    let r := s.engPageFault core o va w
    .next (put r.1 r.2)
  | .fail 31 _ => .next ((put s o).engineTrap o (obTrap (bytesAt o.desc 0x14 1) 0))
  | .fail code va => .next ((put s o).engineTrap o (trapOf code va 0))
  | .nowhere pa => .fault (.noSuchAddress pa)

/-- Processes up to `n` elements of an operation. -/
def engRun (core eng : Nat) : Nat → State → EngOp → Out
  | 0, s, o => .next (s.setEngOp core eng o)
  | n + 1, s, o =>
    if o.total eng ≤ o.pos then .next (s.setEngOp core eng o)
    else
      match (if eng < 2 then copyStep s core o else chainStep s core o) with
      | (s, .ok o) => engRun core eng n s o
      | (s, .error e) => engStopped s core o e (fun s o => s.setEngOp core eng o)

/-- ENGINE_OPERATION_RUN (R299): the operation at the head of an engine's queue processes its next elements. -/
def execEngineOperationRun (core eng n : Nat) (s : State) : Out :=
  match AMap.get [] (s.core core).engines eng with
  | [] => .next s
  | o :: _ => if s.engReady core o then engRun core eng n s o else .next s

/-- Adjacent bytes of memory written in a row, as runs. -/
def runsOf : List (Place × Byte) → List (Place × List Byte)
  | [] => []
  | (x, b) :: rest =>
    match x, runsOf rest with
    | .mem (.glob a), (.mem (.glob a'), bs) :: more =>
      if a' = a + 1 then (.mem (.glob a), b :: bs) :: more else (x, [b]) :: (.mem (.glob a'), bs) :: more
    | _, rs => (x, [b]) :: rs

/-- What an operation brings to its places as it completes: of the bytes that the task wrote since through another virtual address,
whether the operation's stand is free (R245; log 14). -/
def EngOp.lands (o : EngOp) (choice : Nat) : List (Place × Byte) :=
  o.out.reverse.filter (fun e => match e.1 with
    | .mem (.glob pa) => !o.beside.contains pa || nbit choice (pa % 32)
    | _ => true)

/-- Writes what an operation has written to its places (R149, R246); none when the version pool has no room (R258). -/
def storeRuns (task core : Nat) : List (Place × List Byte) → State → Option State
  | [], s => some s
  | (.ob a, bs) :: rest, s =>
    storeRuns task core rest
      ((s.modCore core (fun k => { k with ob := writeBytes k.ob a bs })).cleanse (Site.inOb core [(a, a + bs.length - 1)]))
  | (.mem l, bs) :: rest, s =>
    match s.storeLoc (some task) l bs with
    | some s => storeRuns task core rest s
    | none => none

/-- Every byte of an operation may be written: no sector of it is held (R138). -/
def State.outFree (s : State) (o : EngOp) : Bool :=
  o.out.all (fun e => match e.1 with
    | .mem l => !s.locHeld none l 1
    | .ob _ => true)

/-- The end of an operation: its bytes are written, its ranges released, and cp falls in issue order (R149). -/
def State.finishEngine (s : State) (core : Nat) (o : EngOp) (drop : Core → Core) : State :=
  match storeRuns o.task core (runsOf (o.lands (Config.freeWord s.tick).toNat)) s with
  | none => s.engineTrap o (trapOf 34 0#64 0)
  | some s => (s.modCore core (fun k => drop (k.unlock o.seq))).resume o.party (fun t => t.complete o.op)

/-- ENGINE_COMPLETION (R149): an operation of an engine, or a collective, whose every byte has been written. -/
def execEngineCompletion (core id : Nat) (s : State) : Out :=
  let k := s.core core
  let heads := (span 0 3).filterMap (fun e => ((AMap.get [] k.engines e).head?).map (fun o => (e, o)))
  match heads.find? (fun x => x.2.seq = id) with
  | some (e, o) =>
    if o.total e ≤ o.pos && o.fault.isNone && s.acting o.party && s.outFree o then
      .next (s.finishEngine core o (fun k => { k with
        engines := AMap.put [] k.engines e ((AMap.get [] k.engines e).drop 1) }))
    else .next s
  | none => match k.colls.find? (fun o => o.seq = id) with
    | some o =>
      if o.pos = 1 && s.acting o.party && s.outFree o then
        .next (s.finishEngine core o (fun k => { k with colls := k.colls.filter (fun x => x.seq ≠ id) }))
      else .next s
    | none => .next s

/-! ## Collectives -/

/-- Sums elements of one place over the ranks that supply one (R154, R374): exactly and rounded once, where an infinity stays one, or
in rank order. The flush bits of md act on the elements read and on the result written (R60). DESIGN CHOICE: of a sum that is not
exact, md.sat acts at the last rounding alone; the rule says how each step rounds and nothing of saturation there (log 56). -/
def collSum (md : Word) (code : Nat) (exact : Bool) (xs : List Nat) : Nat :=
  match fmtOf code with
  | none =>
    let present := xs.filter (fun x => x % 2 ^ tyWidth code ≠ absentOf code)
    if present.isEmpty then absentOf code else clampInt code ((present.map (intVal code)).foldl (· + ·) 0)
  | some f =>
    let present := (xs.map (operand f md code)).filter (fun x => !x.isAbsent)
    let last : Rnd := { mdRound md code with mode := 0 }
    match present with
    | [] => f.absent
    | y :: ys =>
      if exact then pack f { last with sat := false } (present.foldl (addNum false) (.fin false 0 0))
      else pack f last (ys.foldl (fun a x => unpack f (pack f rne (addNum false a x))) y)

/-- Combines elements of one place under an issue md (R154): sum, minimum, maximum; the minimum or maximum of one element is that
element, flushed and in canonical form. -/
def collElem (md : Word) (code op : Nat) (exact : Bool) (xs : List Nat) : Nat :=
  match op, xs with
  | 0, _ => collSum md code exact xs
  | _, [] => absentOf code
  | _, [y] => elemCvt md code code y
  | n, y :: ys => ys.foldl (elemBin (if n = 1 then .min else .max) md code) y

/-- Element `i` of a participant's source. -/
def collAt (n i : Nat) (bs : List Byte) : Nat := bytesAt bs (n * i) n

/-- The bytes that a participant receives (R154). DEDUCED (log 56): each combines the sources under the md of its own `coll`, which
is the md its engine reads (R149). -/
def collResult (md : Word) (code op count : Nat) (exact : Bool) (srcs : List (List Byte)) : List Byte :=
  let n := elemSize code
  match op with
  | 3 => ((srcs.head?).getD []).take (n * count)
  | 4 => srcs.flatMap (fun b => b.take (n * count))
  | _ => (span 0 count).flatMap (fun i => toBytes n (collElem md code op exact (srcs.map (collAt n i))))

/-- The outstanding operation of a context in a group (R154), and its core. -/
def State.collOp (s : State) (c group : Nat) : Option (Nat × EngOp) :=
  (s.cores.flatMap (fun e => (e.2.colls.filter (fun o => o.pos = 0 && bytesAt o.desc 0x18 2 = group &&
    (match s.task? o.task with
     | some k => k.ctx = c
     | none => false))).map (fun o => (e.1, o)))).head?

/-- The parts of a descriptor in which participants must agree: count, element code, operation (R154). -/
def collShape (d : List Byte) : Nat × Nat × Nat := (bytesAt d 0x10 4, bytesAt d 0x14 1, bytesAt d 0x15 1)

def State.setColl (s : State) (core : Nat) (o : EngOp) : State :=
  s.modCore core (fun k => { k with colls := k.colls.map (fun x => if x.seq = o.seq then o else x) })

/-- Bytes of a collective's element, and the elements of a participant's source. -/
def EngOp.collSize (o : EngOp) : Nat := elemSize (bytesAt o.desc 0x14 1)
def EngOp.collCount (o : EngOp) : Nat := bytesAt o.desc 0x10 4

/-- Reads the `n` elements of a participant's source that it has not read yet, one after another (R150, R154, R240). -/
def collSource (core : Nat) : Nat → State → EngOp → State × EngOp × Option EngStop
  | 0, s, o => (s, o, none)
  | n + 1, s, o =>
    match engRead s core o false ((bytesAt o.desc 0 8 + o.collSize * o.block.length : Nat) : Int) o.collSize with
    | (s, .error e) => (s, o, some e)
    | (s, .ok v) => collSource core n s { o with block := o.block ++ [BitVec.ofNat 64 v] }

/-- The source that a participant has read. -/
def EngOp.collBytes (o : EngOp) : List Byte := o.block.flatMap (fun x => toBytes o.collSize x.toNat)

/-- Gathers the sources by rank: participants of this device through their operations, others as they came. -/
def gatherSources (own : Nat) (group : Nat) :
    List (Nat × Nat) → List (List Byte) → State → State × Except (Nat × EngOp × EngStop) (List (List Byte))
  | [], _, s => (s, .ok [])
  | (dev, c) :: rest, others, s =>
    if dev = own then
      match s.collOp c group with
      | none => (s, .ok [])
      | some (core, o) => match collSource core (o.collCount - o.block.length) s o with
        | (s, o, some e) => (s, .error (core, o, e))
        | (s, o, none) => match gatherSources own group rest others (s.setColl core o) with
          | (s, .ok bs) => (s, .ok (o.collBytes :: bs))
          | r => r
    else match gatherSources own group rest (others.drop 1) s with
      | (s, .ok bs) => (s, .ok ((((others.head?).getD []).drop 64) :: bs))
      | r => r

/-- Writes the `n` elements of its result that a participant has not written yet, one after another (R240). -/
def collWrite (result : List Byte) : Nat → State → EngOp → State × EngOp × Option EngStop
  | 0, s, o => (s, o, none)
  | n + 1, s, o =>
    let at_ := o.out.length
    match engWrite s o false ((bytesAt o.desc 8 8 + at_ : Nat) : Int) ((result.drop at_).take o.collSize) with
    | (s, .error e) => (s, o, some e)
    | (s, .ok o) => collWrite result n s o

/-- Gives each participant of this device its result: one that stops leaves what is left to a later COLLECTIVE_COMBINE (R150). -/
def scatterResults (result : Word → List Byte) : List (Nat × EngOp) → List (Nat × EngOp) → State → Out
  | [], ready, s => .next (ready.foldl (fun s x => s.setColl x.1 { x.2 with pos := 1 }) s)
  | (core, o) :: rest, ready, s =>
    let bs := result o.md
    match collWrite bs ((bs.length - o.out.length) / max 1 o.collSize) s o with
    | (s, o, none) => scatterResults result rest (ready ++ [(core, o)]) (s.setColl core o)
    | (s, o, some e) => engStopped s core o e (fun s o => s.setColl core o)

/-- The results of a group that has had new sources since are written anew. -/
def EngOp.anew (o : EngOp) : EngOp := { o with out := [] }

/-- Participants whose descriptors differ take ILLEGAL_OP at their `coll`, with nothing registered or counted (R154, R168). -/
def State.collRefused (s : State) (core : Nat) (o : EngOp) : State :=
  let point := s.opPoint o
  let s := s.modCore core (fun k => { k.unlock o.seq with colls := k.colls.filter (fun x => x.seq ≠ o.seq) })
  let s := match s.team? o.party with
    | some t => s.setTeam o.party { t with pend := t.pend.filter (fun x => x.id ≠ o.op) }
    | none => s
  s.takeTrap o.party o.pc { trapOf 16 0#64 (bytesAt o.desc 64 4) with point := point }

/-- COLLECTIVE_COMBINE (R154): once every participant of a group has issued its `coll`. `others` holds what participants of
other devices sent, in rank order: the descriptor, then the source bytes (log 20). DESIGN CHOICE (log 56): a sum is exact when any
participant of this device asks for it. -/
def execCollectiveCombine (ctx group : Nat) (others : List (List Byte)) (s : State) : Out :=
  match AMap.find (s.ctx ctx).groups group with
  | none => .next s
  | some g =>
    let own := (s.reg rMDEVNO).toNat % 2 ^ 16
    let local_ := g.members.filter (fun m => m.1 = own)
    let ops := local_.filterMap (fun m => s.collOp m.2 group)
    let shapes := ops.map (fun o => collShape o.2.desc) ++ others.map collShape
    if ops.length ≠ local_.length || others.length ≠ g.members.length - local_.length ||
        !ops.all (fun o => s.engReady o.1 o.2) then .next s
    else match shapes with
      | [] => .next s
      | x :: xs =>
        if xs.any (fun y => y ≠ x) then
          .next (ops.foldl (fun s o => s.collRefused o.1 o.2) s)
        else match gatherSources own group g.members others s with
          | (s, .error (core, o, e)) => engStopped s core o e (fun s o => s.setColl core o)
          | (s, .ok srcs) =>
            let exact := 1 ≤ (s.ctx ctx).level.level || ops.any (fun o => nbit (bytesAt o.2.desc 0x16 1) 0)
            let read := local_.filterMap (fun m => s.collOp m.2 group)
            let ready := if ops.all (fun o => o.2.collCount ≤ o.2.block.length) then read else read.map (fun o => (o.1, o.2.anew))
            scatterResults (fun md => collResult md x.2.1 x.2.2 x.1 exact srcs) ready [] s

/-! ## Lead-queue fetches -/

/-- Bytes of a source's parts, from byte `i`, `n` of them. -/
def partBytes (s : State) (task : Nat) : List (Nat × Nat) → Nat → Nat → List Byte
  | [], _, _ => []
  | (pa, len) :: rest, i, n =>
    if len ≤ i then partBytes s task rest (i - len) n
    else
      let m := min n (len - i)
      toBytes m (s.readLoc (some task) (.glob (pa + i)) m) ++ partBytes s task rest 0 (n - m)

/-- The address of the part of a fetch's source in which an uncorrectable error lies, of those that hold bytes `i` to `i + n` − 1, and
the state with the errors met counted (R184, R289). -/
def fetchFlaws (s : State) (task : Nat) (va : Word64) (parts : List (Nat × Nat)) (i n : Nat) : State × Option Word64 :=
  let first := i / 64
  let ps := (parts.drop first).take ((i + n + 63) / 64 - first)
  match s.meetFlaws (fun x => ps.any (fun q => s.readsSite (some task) (.glob q.1) q.2 x)) with
  | (s', some x) => (s', some (va +
      BitVec.ofNat 64 (64 * (first + ps.findIdx (fun q => s.readsSite (some task) (.glob q.1) q.2 x)))))
  | (s', none) => (s', none)

/-- LEAD_FETCH_COMPLETE (R161): a fetch gives its word, or copies up to `n` more bytes of its record's range; it waits while the
region of its source changes (R277). -/
def execLeadFetchComplete (task ord id n : Nat) (s : State) : Out :=
  let o := Party.team task ord
  match s.team? o with
  | none => .next s
  | some t =>
    if !s.acting o || !s.ordered (.lead task ord) t none then .next s
    else
      let core := s.coreOf o
      let lead : Party := .lead task ord
      match t.leadQ.find? (fun e => match e with
          | .val _ => false
          | .ld i _ v _ => i = id && v.isNone
          | .ob i _ _ _ done total _ => i = id && done < total) with
      | some (.ld _ acc _ pc) =>
        if acc.loc.busy s 4 then .next s
        else match s.meetFlaws (s.readsSite (some task) acc.loc 4) with
        | (s, some _) => .next (s.raiseTrap lead pc (trapOf 33 acc.va 0))
        | (s, none) =>
        let w : Word := BitVec.ofNat 32 (s.readLoc (some task) acc.loc 4)
        let s := s.watch (accessor lead pc false) acc.loc true false acc.va 4 0xFFFF
        .next (s.resume o (fun t => { t with leadQ := t.leadQ.map (fun e => match e with
          | .ld i a v q => if i = id then .ld i a (some w) q else .ld i a v q
          | e => e) }))
      | some (.ob _ r va parts done total pc) =>
        let m := min n (total - done)
        if parts.any (fun q => s.regionBusy q.1 q.2) then .next s
        else match fetchFlaws s task va parts done m with
        | (s, some a) => .next (s.raiseTrap lead pc (trapOf 33 a 0))
        | (s, none) =>
        let bs := partBytes s task parts done m
        let at0 := ((s.core core).obRec r).lo + done
        let s := (s.modCore core (fun k => { k with ob := writeBytes k.ob at0 bs })).cleanse
          (Site.inOb core [(at0, at0 + bs.length - 1)])
        let s := match parts with
          | (pa, _) :: _ =>
            if done + m < total then s else s.watch (accessor lead pc false) (.glob pa) true false va total 0xFFFF
          | [] => s
        .next (s.resume o (fun t => { t with leadQ := t.leadQ.map (fun e => match e with
          | .ob i r' v ps d tt q => if i = id then .ob i r' v ps (done + m) tt q else .ob i r' v ps d tt q
          | e => e) }))
      | _ => .next s

end Sys2Proof.Machine
end

