-- ==== Sys2Proof/Machine/MatrixEvents.lean ====
section
/-!
DEFINITION. The matrix path and the operand buffer as their units act: tiles and records granted in order (R288, R292),
arrays taking words (R288), and words completing (R162 to R166, R290, R294, R298).
-/

namespace Sys2Proof.Machine

/-- The waiting cohort that is served next (R292): those that wait for one record take it in order, and one that needs more
granules than are free holds back every cohort behind it. `ahead` holds the records that earlier ones wait for. -/
def Core.obNext (c : Core) : List ObWait → List Nat → Option (ObWait × Nat)
  | [], _ => none
  | w :: ws, ahead => match c.freeRun w.len with
    | none => none
    | some base =>
      if ahead.contains w.n || (c.obRec w.n).held.isSome then c.obNext ws (w.n :: ahead) else some (w, base)

/-- OB_RECORD_GRANT (R292): the cohort that is served next receives its record and run, and its `obres` may begin. -/
def execObRecordGrant (core : Nat) (s : State) : Out :=
  let c := s.core core
  match c.obNext c.obQ [] with
  | none => .next s
  | some (w, base) =>
    .next (s.setCore core { c.holdRec w.task w.n w.len base with obQ := c.obQ.erase w })

/-- TILE_GRANT (R288): the team that reached `mres` first receives the tile, and its `mres` may begin. -/
def execTileGrant (core tile : Nat) (s : State) : Out :=
  let c := s.core core
  match AMap.get [] c.tileQ tile with
  | [] => .next s
  | w :: rest =>
    if (AMap.find c.holder tile).isSome || s.tileBusy core tile then .next s
    else
      .next ((s.setCore core { c.holdTile tile w.1 w.2 with tileQ := AMap.put [] c.tileQ tile rest }).cleanse
        (Site.inTile core [tile] (span 0 128) (span 0 128)))

/-- MATRIX_ARRAY_TAKE (R288): words are taken in arrival order. -/
def execMatrixArrayTake (core quad : Nat) (s : State) : Out :=
  let c := s.core core
  match AMap.get [] c.arrays quad with
  | [] => .next s
  | e :: rest =>
    let s := s.setCore core { c with arrays := AMap.put [] c.arrays quad rest }
    match s.team? (.team e.task e.ord) with
    | none => .next s
    | some t => .next (s.setTeam (.team e.task e.ord) (t.modPend e.op (fun k => match k with
      | .matrix w tile rows _ seq => .matrix w tile rows true seq
      | k => k)))

/-- No earlier word of the team on one of these tiles is outstanding (R162). -/
def tilesFirst (tiles : List Nat) (id : Nat) : List Pend → Bool
  | [] => true
  | x :: xs =>
    if x.id = id then true
    else
      (x.done || (match x.kind with
        | .matrix w y _ _ _ => !(w.tiles x.md y).any (fun n => tiles.contains n)
        | _ => true)) && tilesFirst tiles id xs

/-- A write to the bytes of the operand buffer that a word reads, for which it waits (R294): an engine operation registered before it, or a fetch of the
cohort's lead queues pushed before it. -/
def State.obWritesPending (s : State) (core : Nat) (k : Task) (seq : Nat) (reads : List (Nat × Nat)) : Bool :=
  let c := s.core core
  c.locks.any (fun r => r.ob && r.dest && r.seq ≤ seq && reads.any (fun x => meets r.lo r.hi x.1 x.2)) ||
  k.teams.any (fun f => f.2.leadQ.any (fun e => match e with
    | .ob id n _ _ done total _ => id ≤ seq && done < total &&
        reads.any (fun x => meets (c.obRec n).lo ((c.obRec n).lo + total - 1) x.1 x.2)
    | _ => false))

/-- A loaded row part put into a tile (R163, R64). -/
def Core.loadPart (k : Core) (tile row off : Nat) (bs : List Byte) : Core :=
  (span 0 (bs.length / 16)).foldl (fun k i =>
    k.setEntry tile row (off / 16 + i) (bytesAt bs (16 * i + 8) 2, holdValue (bytesAt bs (16 * i) 8))) k

/-- What a matrix word does to its core's tiles (R163 to R165). -/
def matrixEffect (s : State) (p : Party) (w : MatrixWord) (md : Word) (tile : Nat) (rows : List Nat) (k : Core) : Core :=
  let ts := pairTiles md tile
  match w with
  | .mmz side => ts.foldl (fun k x => rows.foldl (fun k i => k.clearRow x side i) k) k
  | .mld parts => ts.foldl (fun k x => parts.foldl (fun k a =>
      k.loadPart x a.lane a.data.toNat (toBytes a.data2.toNat (s.readLoc (partyTask p) a.loc a.data2.toNat))) k) k
  | .mma a b =>
    let ra := k.obRec a
    let rb := k.obRec b
    let n := depthOf rb.fmt
    let as := rows.map (fun i => (i, (span 0 n).map (k.operandAt ra md (ra.lo + 64 * i))))
    let bs := (span 0 128).map (fun j => (j, (span 0 n).map (k.operandAt rb md (rb.lo + 64 * j))))
    ts.foldl (fun k x => mmaRows rb.had k x as bs) k
  | .mmaTile src block b =>
    let rb := k.obRec b
    let n := depthOf rb.fmt
    let as := rows.map (fun i => (i, (span 0 n).map (fun j => k.downAt md rb.fmt src i (block * n + j))))
    let bs := (span 0 128).map (fun j => (j, (span 0 n).map (k.operandAt rb md (rb.lo + 64 * j))))
    ts.foldl (fun k x => mmaRows rb.had k x as bs) k
  | .smx c => ts.foldl (fun k x => rows.foldl (smxRow c x) k) k
  | .sexp c => ts.foldl (fun k x => rows.foldl (sexpRow c x) k) k
  | .srsc src => ts.foldl (fun k' x => rows.foldl (srscRow k src x) k') k
  | .mdrain _ _ => k

/-- A drain to registers: the block's columns packed from the first register (R166, R108). -/
def drainRegs (k : Core) (md : Word) (norm tile first block : Nat) (rows : List Nat) (t : Team) : Team :=
  let w := tyWidth (mdType md)
  rows.foldl (fun t i =>
    let v := packElems w ((span 0 32).map (fun j => k.drained md norm tile i (32 * block + j)))
    (span 0 w).foldl (fun t r => t.setV (first + r) i (BitVec.ofNat 32 (v / 2 ^ (32 * r)))) t) t

/-- A drain's row parts written in order; none when the version pool has no room (R166, R258). -/
def drainParts (k : Core) (p : Party) (pc : Word64) (md : Word) (norm tile : Nat) (a80 : Bool) :
    List Access → State → Option State
  | [], s => some s
  | a :: as, s =>
    let bs := ((k.drainRow md norm tile a80 a.lane).drop a.data.toNat).take a.data2.toNat
    match s.storeLoc (partyTask p) a.loc bs with
    | none => none
    | some s => drainParts k p pc md norm tile a80 as
        (s.watch (accessor p pc false) a.loc false true a.va a.data2.toNat a.lane)

/-- The 64-bit words of the operand buffer that byte ranges lie in: each carries a code of its own (R289). -/
def codeWords (rs : List (Nat × Nat)) : List (Nat × Nat) := rs.map (fun r => (r.1 / 8 * 8, r.2 / 8 * 8 + 7))

/-- Storage of its core that a word reads (R289): words of the operand buffer, and rows and columns of tiles. -/
def MatrixWord.reads (w : MatrixWord) (core : Nat) (k : Core) (md : Word) (tile : Nat) (rows : List Nat) (x : Site) : Bool :=
  let all := span 0 128
  let buffer := Site.inOb core (codeWords (k.obReads w rows)) x
  match w with
  | .mma _ _ => buffer || Site.inTile core (pairTiles md tile) rows all x
  | .mmaTile src block b =>
    let n := depthOf (k.obRec b).fmt
    buffer || Site.inTile core (pairTiles md tile) rows all x || Site.inTile core [src] rows (span (block * n) n) x
  | .smx _ | .sexp _ | .srsc _ => Site.inTile core (pairTiles md tile) rows all x
  | .mdrain _ (.reg _ block) => Site.inTile core (pairTiles md tile) rows (if mdRed md then all else span (32 * block) 32) x
  | .mdrain _ (.mem _ _) => Site.inTile core (pairTiles md tile) rows all x
  | .mmz _ | .mld _ => false

/-- Entries that a word writes whole: no error stands in them any more. -/
def MatrixWord.clears (w : MatrixWord) (core : Nat) (md : Word) (tile : Nat) (rows : List Nat) : Site → Bool :=
  match w with
  | .mmz _ | .mld _ => Site.inTile core (pairTiles md tile) rows (span 0 128)
  | _ => fun _ => false

/-- ECC_UNCORR of a matrix word (R289): the address is that of the operand buffer's byte, or 0 for a tile entry. -/
def wordFlaw : Site → TrapInfo
  | .ob _ a => trapOf 33 (BitVec.ofNat 64 a) 0
  | _ => trapOf 33 0#64 0

/-- The first part of a row that `mld` reads in which an uncorrectable error lies, and the state with the errors met counted (R122,
R289). -/
def rowFlaws (s : State) (p : Party) (parts : List Access) : State × Option Access :=
  parts.foldl (fun r a =>
    let q := r.1.meetFlaws (r.1.readsSite (partyTask p) a.loc a.data2.toNat)
    (q.1, if r.2.isSome then r.2 else if q.2.isSome then some a else none)) (s, none)

/-- The errors that a matrix word meets as it takes effect: ECC_UNCORR, or the state with what was corrected counted (R289). -/
def matrixFlaws (s : State) (p : Party) (core : Nat) (w : MatrixWord) (md : Word) (tile : Nat) (rows : List Nat) :
    State × Option TrapInfo :=
  match w with
  | .mld parts =>
    let r := rowFlaws s p parts
    (r.1, r.2.map (fun a => eccTrap a false))
  | _ =>
    let r := s.meetFlaws (w.reads core (s.core core) md tile rows)
    (r.1, r.2.map wordFlaw)

/-- Counter 5 of `pcnt` counts matrix multiply words (R179). -/
def Core.countMma (k : Core) (w : MatrixWord) : Core :=
  match w with
  | .mma _ _ | .mmaTile _ _ _ => { k with counters := AMap.put 0 k.counters 5 (AMap.get 0 k.counters 5 + 1) }
  | _ => k

/-- A matrix word as its completion finds it: its rows, its part that the event performs, and what is left after that. -/
structure WordAct where
  rows : List Nat
  word : MatrixWord
  rest : Option MatrixWord
  deriving DecidableEq, Repr

/-- What an event performs of an outstanding word (R240). -/
def wordAct (only : Option Nat) (w : MatrixWord) (mask : LaneMask) : WordAct :=
  { rows := (rowList mask).filter (fun i => !w.accesses || only.isNone || only = some i)
    word := w.chosen only, rest := w.rest only }

/-- A word's part has been performed: the rest stays outstanding, or the word is complete. -/
def State.wordDone (s : State) (p : Party) (id : Nat) (rest : Option MatrixWord) (f : Team → Team) : State :=
  match rest with
  | none => s.resume p (fun t => (f t).complete id)
  | some w => s.resume p (fun t => (f t).modPend id (fun k => match k with
      | .matrix _ tile mask arrived seq => .matrix w tile mask arrived seq
      | k => k))

/-- MATRIX_WORD_COMPLETE (R290): once its array has taken it, earlier words on its tiles are complete, and the writes it
waits for have landed, its effect takes place and tl falls in issue order; the rows of a word in memory may be performed apart (R240).
DESIGN CHOICE: a word reads all its bytes of the operand buffer at one moment, so that of a fetch pushed after the word issued it sees
the bytes that have been copied by then, an ascending prefix (R294 lets each byte be read before or after it; log 18). -/
def execMatrixWordComplete (p : Party) (id : Nat) (s : State) : Out :=
  match s.team? p, s.taskOf p with
  | some t, some task => match t.pend? id with
    | none => .next s
    | some x => match x.kind with
      | .matrix w tile mask arrived seq =>
        let core := task.core
        let k := s.core core
        let act := wordAct s.only w mask
        let trap (s : State) (tr : TrapInfo) : Out := .next (s.raiseTrap p x.pc { tr with point := some x.point })
        let held := match act.word with
          | .mdrain _ (.mem _ parts) => parts.any (fun a => s.locHeld (some p) a.loc a.data2.toNat)
          | .mld parts => parts.any (fun a => a.loc.busy s a.data2.toNat)
          | _ => false
        if !arrived || held || s.linesOut p t x || !s.acting p || (w.accesses && !s.ordered p t (some id)) || !tilesFirst (w.tiles x.md tile) id t.pend ||
            s.obWritesPending core task seq (k.obReads w act.rows) then .next s
        else match matrixFlaws s p core act.word x.md tile act.rows with
        | (s, some tr) => trap s tr
        | (s, none) => match act.word with
          | .mdrain norm (.reg first block) =>
            .next ((s.wordDone p id none (drainRegs k x.md norm tile first block act.rows)).saveRegs p (Pend.writes x))
          | .mdrain norm (.mem a80 parts) => match drainParts k p x.pc x.md norm tile a80 parts s with
            | none => trap s (trapOf 34 0#64 0)
            | some s => .next ((if act.rest.isNone then s.modCore core (fun c => c.unlock seq) else s).wordDone p id act.rest (fun t => t))
          | _ =>
            let s : State := match act.word with
              | .mld parts => parts.foldl (fun (s : State) a =>
                  s.watch (accessor p x.pc false) a.loc true false a.va a.data2.toNat a.lane) s
              | _ => s
            .next (((s.setCore core ((matrixEffect s p act.word x.md tile act.rows k).countMma w)).cleanse
              (w.clears core x.md tile act.rows)).wordDone p id act.rest (fun t => t))
      | _ => .next s
  | _, _ => .next s

end Sys2Proof.Machine
end

