-- ==== Sys2Proof/Machine/MemoryEvents.lean ====
section
/-!
DEFINITION. Memory operations as they complete: loads and stores (R129), atomic requests (R133, R243, R366).
-/

namespace Sys2Proof.Machine

/-- Extends a loaded value (R125). -/
def extendLoad (m : MemOp) (v : Nat) : Nat := if m.signed then ofInt 32 (toInt (8 * m.bytes) v) else v

/-- Writes a loaded value to a destination in one lane, or once (R125, R127). -/
def Team.putLoaded (t : Team) (m : MemOp) (lane v : Nat) : Team :=
  let w : Word64 := BitVec.ofNat 64 v
  if 96 ≤ m.dest then
    (if m.bytes = 8 then t.setKPair (m.dest - 96) w else t.setK (m.dest - 96) (lowHalf w))
  else if m.bytes = 8 then (t.setV m.dest lane (lowHalf w)).setV (m.dest + 1) lane (highHalf w)
  else t.setV m.dest lane (lowHalf w)

/-- A load or atomic of a party has written the given registers; a freeze that waited for it is complete (R391), and those of a
swapped-out team go to its frame (R213). -/
def State.ldOver (s : State) (p : Party) (regs : List Nat) : State :=
  match p, s.team? p with
  | .team tid ord, some t =>
    if t.freeze = .frozen then s.frozenOver tid ord
    else if s.isAway p then s.saveRegs p regs
    else s
  | _, _ => s

/-- Lanes of a load return (R129, R240): their results are written, and once every lane's is the operation is complete. A commit
point's load reads after the commit. The results of a failing task's loads are dropped (R408). -/
def finishLoad (s : State) (p : Party) (t : Team) (x : Pend) (m : MemOp) : State :=
  let accs := s.chosen m
  let own := match m.held with
    | some l => l
    | none => []
  let t := if s.isFailing p then t else own.foldl (fun t e => t.putLoaded m e.1 (extendLoad m e.2.toNat)) t
  let t := if s.isFailing p then t
    else accs.foldl (fun t a => t.putLoaded m a.lane (extendLoad m (s.readLoc (partyTask p) a.loc m.bytes))) t
  let s := accs.foldl (fun s a => s.watch (accessor p x.pc false) a.loc true false a.va m.bytes a.lane) s
  let s := s.l1Reads p m.bytes accs
  if m.accs.all accs.contains then (s.resume p (fun _ => t.complete x.id)).ldOver p (Pend.writes x)
  else s.setTeam p (t.modPend x.id (fun _ => .mem (m.without accs)))

/-- An atomic with return writes the old values of its requests (R133). -/
def finishAtomic (s : State) (p : Party) (t : Team) (x : Pend) (m : MemOp) : State :=
  let olds := match m.held with
    | some l => l
    | none => []
  (s.resume p (fun _ => (olds.foldl (fun t e => t.putLoaded m e.1 e.2.toNat) t).complete x.id)).ldOver p (Pend.writes x)

/-- LOAD_RESULT_WRITE (R129): when the operation is a load that may be performed, or an atomic whose requests have all
executed. A load that a failing task has issued still completes (R408). -/
def execLoadResultWrite (p : Party) (id : Nat) (s : State) : Out :=
  match s.team? p with
  | none => .next s
  | some t => match t.pend? id with
    | none => .next s
    | some x => match x.kind with
      | .mem m =>
        let failing := s.isFailing p
        if s.linesOut p t x && !failing then .next s
        else (match m.kind with
         | .load =>
           let turn := failing || (mayPerform { m with accs := s.chosen m } t.pend id && s.ordered p t (some id) && !t.ownCommit x)
           if turn && s.goesOn p && !(s.chosen m).any (fun a => a.loc.busy s m.bytes) then
             (match s.readFlaws p m.bytes (s.chosen m) with
              | (s, none) => .next (finishLoad s p t x m)
              | (s, some a) => .next (if failing then finishLoad s p t x m
                  else s.raiseTrap p x.pc { eccTrap a (96 ≤ m.dest) with point := some x.point }))
           else .next s
         | .atomic => if m.reqs.all (·.done) then .next (finishAtomic s p t x m) else .next s
         | _ => .next s)
      | _ => .next s

/-- Determinism level 1 redirects floating adds at `.dev` and `.sys` to partial sums (R366). -/
def State.redirects (s : State) (p : Party) (m : MemOp) : Bool :=
  (m.op = 1 || m.op = 14) && 5 ≤ m.scope && 1 ≤ (s.ctx (s.ctxOf p)).level.level &&
  (partyTask p).isSome && m.accs.all (fun a => match a.loc with
    | .glob _ => true
    | _ => false)

/-- A cohort's partial sum of a word, absent at first. -/
def Task.partialSum (k : Task) (pa : Nat) : Word := AMap.get (BitVec.ofNat 32 fmtF32.absent) k.partials pa

/-- Adds to a partial sum. -/
def State.addPartial (s : State) (tid pa : Nat) (x : Word64) : State :=
  s.modTask tid (fun k => { k with
    partials := AMap.put (BitVec.ofNat 32 fmtF32.absent) k.partials pa
      (BitVec.ofNat 32 (faddWord (k.partialSum pa).toNat (x.toNat % 2 ^ 32))) })

/-- Performs a store's accesses in ascending lane order (R123); none when the version pool has no room (R258). -/
def storeAll (p : Party) (m : MemOp) (redirect : Bool) : List Access → State → Option State
  | [], s => some s
  | a :: as, s =>
    let next : Option State := match m.kind, a.loc with
      | .mred, .glob pa =>
        if redirect then some (s.addPartial ((partyTask p).getD 0) pa a.data)
        else s.versionWrite (partyTask p) (.delta { pa := pa, bytes := 4, op := m.op, x := a.data, y := 0#64 })
      | _, l => s.storeLoc (partyTask p) l (toBytes m.bytes a.data.toNat)
    match next with
    | none => none
    | some s => storeAll p m redirect as s

/-- A place lies in the text of a kernel with running grids (R323). -/
def State.textHit (s : State) (l : Loc) (n : Nat) : Bool :=
  match l with
  | .glob pa => s.textHeld pa n
  | .spd _ _ => false

/-- Writes of committed memory by a party that has no version wait for the running grids of a kernel whose text they reach
(R323). -/
def State.textBars (s : State) (p : Party) (n : Nat) (accs : List Access) : Bool :=
  (partyTask p).isNone && accs.any (fun a => s.textHit a.loc n)

/-- The operation is that of the commit point at which the team stands. -/
def Team.commitsWith (t : Team) (x : Pend) : Bool :=
  match t.hold with
  | .commit _ => x.point = t.retired
  | _ => false

/-- In a recorded or replayed context a store that is a commit point is performed together with its commit: no instruction boundary
lies between them at which its chunk could be cut (R375, R376; log 31). It waits as long as its commit does. -/
def State.storeCommit (s after : State) (p : Party) (t : Team) (x : Pend) : State :=
  if s.traced (s.ctxOf p) && t.commitsWith x then
    match execCommit p after with
    | .next s1 =>
      (match s1.team? p with
       | some t1 => (match t1.hold with
         | .commit _ => if s1.replayDead (s1.ctxOf p) then s1 else s
         | _ => s1)
       | none => s1)
    | _ => s
  else after

/-- STORE_PERFORMED (R129): a store, or a `mred`, is performed at its home. -/
def execStorePerformed (p : Party) (id : Nat) (s : State) : Out :=
  match s.team? p with
  | none => .next s
  | some t => match t.pend? id with
    | none => .next s
    | some x => match x.kind with
      | .mem m =>
        let accs := s.chosen m
        if m.kind = .load || m.kind = .atomic || !s.acting p || t.ownCommit x || !s.ordered p t (some id) ||
            !mayPerform { m with accs := accs } t.pend id || accs.any (fun a => s.locHeld (some p) a.loc m.bytes) ||
            s.textBars p m.bytes accs then .next s
        else match storeAll p m (s.redirects p m) accs s with
          | none => .next (s.raiseTrap p x.pc { trapOf 34 0#64 0 with point := some x.point })
          | some s1 =>
            let s1 := accs.foldl (fun s a =>
              s.watch (accessor p x.pc false) a.loc (decide (m.kind = .mred)) true a.va m.bytes a.lane) s1
            .next (s.storeCommit (if m.accs.all accs.contains then s1.resume p (fun t => t.complete id)
              else s1.setTeam p (t.modPend id (fun _ => .mem (m.without accs)))) p t x)
      | _ => .next s

/-! ## Atomic requests -/

/-- Lanes of a request at one address, in ascending order: the value after them, and each lane's old value (R133). -/
def applyLanes (op : Nat) : List Access → Nat → Nat × List (Nat × Word64)
  | [], m => (m, [])
  | a :: as, m =>
    let r := applyLanes op as (atomFun op m a.data.toNat a.data2.toNat)
    (r.1, (a.lane, BitVec.ofNat 64 m) :: r.2)

/-- The lines of memory that accesses of an operation reach. -/
def MemOp.linesAt (m : MemOp) (accs : List Access) : List Nat :=
  accs.flatMap (fun a => match a.loc with
    | .glob pa => linesOf pa m.bytes
    | .spd _ _ => [])

/-- Applies a request's lanes at one place: `wide` when it acts on the committed word (R243). The old values, or none
when the version pool has no room. -/
def applyPlace (p : Party) (m : MemOp) (wide redirect : Bool) (l : Loc) (accs : List Access) (s : State) :
    Option (State × List (Nat × Word64)) :=
  match l with
  | .spd t off =>
    let r := applyLanes m.op accs (readNat (s.scratchOf t) off m.bytes)
    some (s.writeScratch t off (toBytes m.bytes r.1), r.2)
  | .glob pa =>
    if redirect then
      match s.taskOf p with
      | none => none
      | some k =>
        let r := applyLanes 1 accs (k.partialSum pa).toNat
        some (accs.foldl (fun s a => s.addPartial ((partyTask p).getD 0) pa a.data) s, r.2)
    else if wide || (partyTask p).isNone then
      let r := applyLanes m.op accs (readNat s.mem pa m.bytes)
      some ((s.poke pa (toBytes m.bytes r.1)).textWritten [(pa, m.bytes)], r.2)
    else
      let r := applyLanes m.op accs (readNat (s.view (partyTask p)) pa m.bytes)
      let add (o : Option State) (a : Access) : Option State :=
        o.bind (fun s =>
          let now := atomFun m.op (readNat (s.view (partyTask p)) pa m.bytes) a.data.toNat a.data2.toNat
          s.versionWrite (partyTask p)
            (.update { pa := pa, bytes := m.bytes, op := m.op, x := a.data, y := a.data2 } (toBytes m.bytes now)))
      (accs.foldl add (some s)).map (fun s => (s, r.2))

/-- Applies every place of a request. -/
def applyPlaces (p : Party) (m : MemOp) (wide redirect : Bool) (accs : List Access) :
    List Loc → State → Option (State × List (Nat × Word64))
  | [], s => some (s, [])
  | l :: ls, s =>
    match applyPlace p m wide redirect l (accs.filter (fun a => a.loc = l)) s with
    | none => none
    | some (s, olds) => match applyPlaces p m wide redirect accs ls s with
      | none => none
      | some (s, rest) => some (s, olds ++ rest)

/-- Requests of a pass in the log: one per distinct address, its old value that of its lowest lane (R378). -/
def atomPayload (m : MemOp) (accs : List Access) (olds : List (Nat × Word64)) : List Byte :=
  let firsts := (placesOf accs).filterMap (fun l => (accs.find? (fun a => a.loc = l)).map (·.lane))
  BitVec.ofNat 8 ((firsts.length - 1) + if m.bytes = 8 then 128 else 0) ::
    firsts.flatMap (fun f => toBytes m.bytes (AMap.get 0#64 olds f).toNat)

/-- What executes with a request: the request itself, or in a recorded or replayed context its whole pass, whose ATOM record stands for
all its requests at one place of the order (R378, R385; log 31). -/
def State.requestSpan (s : State) (p : Party) (m : MemOp) (r : AtomicReq) : AtomicReq :=
  if s.traced (s.ctxOf p) then
    { r with accs := (m.reqs.filter (fun q => q.group = r.group && !q.done)).flatMap (·.accs) }
  else r

/-- The requests of an operation once that has executed. -/
def State.requestsAfter (s : State) (p : Party) (m : MemOp) (req : Nat) (r : AtomicReq) : List AtomicReq :=
  if s.traced (s.ctxOf p) then m.reqs.map (fun q => if q.group = r.group then { q with done := true } else q)
  else m.reqs.set req { r with done := true }

/-- ATOMIC_REQUEST_EXECUTE (R133): at `.dev` and `.sys` each pass is a commit point whose request acts on the committed
word in the same step (R243); requests of one instruction follow ascending groups, and so do its passes in a recorded or replayed context, whose ATOM
records name no group (R378; log 31). When a pass has executed, its ATOM
record ends the chunk (R375). -/
def execAtomicRequestExecute (p : Party) (id req : Nat) (s : State) : Out :=
  match s.team? p with
  | none => .next s
  | some t => match t.pend? id with
    | none => .next s
    | some x => match x.kind with
      | .mem m => match m.reqs[req]? with
        | none => .next s
        | some r0 =>
          let r := s.requestSpan p m r0
          let after := s.requestsAfter p m req r0
          let wide := r.commits
          let tid := (partyTask p).getD 0
          let flaws := s.readFlaws p m.bytes r.accs
          if r.done || !s.acting p || !s.ordered p t (some id) || !mayPerform m t.pend id || r.accs.any (fun a => s.locHeld (some p) a.loc m.bytes) ||
              ((wide || s.traced (s.ctxOf p)) && (m.reqs.take req).any (fun q => !q.done)) ||
              (wide && (!earlierDone t.pend id || s.commitBlocked tid ||
                r.accs.any (fun a => s.textHit a.loc m.bytes))) || s.textBars p m.bytes r.accs then
            .next s
          else if let some a := flaws.2 then .next (flaws.1.raiseTrap p x.pc { eccTrap a false with point := some x.point })
          else
            let s := flaws.1
            let s := if m.scope < 3 then s.l1Reads p m.bytes r.accs else s
            let s := s.l1Atomic (if m.scope < 3 then some (s.coreOf p) else none) (m.linesAt r.accs)
            let c : State × Option Nat :=
              if wide && (partyTask p).isSome then
                let lines := if s.redirects p m then [] else m.linesAt r.accs
                let q := (((s.hitMates tid (partyOrd p)).hitVersion tid).hitLines (some (tid, partyOrd p)) lines).commitTask tid
                (q.1, some q.2)
              else (s, none)
            match applyPlaces p m wide (s.redirects p m) r.accs (placesOf r.accs) c.1 with
            | none => .next (s.raiseTrap p x.pc { trapOf 34 0#64 0 with point := some x.point })
            | some (s', olds) =>
              let held := (match m.held with
                | some l => l
                | none => []) ++ olds
              let m' := { m with reqs := after, held := some held }
              let s' := r.accs.foldl (fun s a => s.watch (accessor p x.pc false) a.loc true true a.va m.bytes a.lane) s'
              let pass := after.filter (fun q => q.group = r.group)
              let store (s : State) (t : Team) : State := s.setTeam p (t.modPend id (fun _ => .mem m'))
              if pass.all (·.done) then
                (match endChunk s' p t 1 (atomPayload m (pass.flatMap (·.accs)) held) x.point c.2 with
                 | .go s' t => .next (store s' t)
                 | .hold => .next s
                 | .diverge s' => .next s')
              else .next (store s' t)
      | _ => .next s

end Sys2Proof.Machine
end

