-- ==== Sys2Proof/Machine/Packets.lean ====
section
/-!
DEFINITION. The front end: submissions (R440, R441), packets and groups (R342 to R347, R454), hazards (R348, R349), copies and
drains (R346), determinism levels (R370, R371), and prologues (R351, R177).
-/

namespace Sys2Proof.Machine

/-! ## Submissions -/

/-- Packets of a queue's ring (R341). -/
def State.ringSize (s : State) (c q : Nat) : Nat := 2 ^ nbits (s.creg c (oQCTL q)) 0 5

/-- SUBMISSION_WRITE (R440): accepted under the context's next number, or rejected. -/
def execSubmissionWrite (ctx : Nat) (value : Word64) (s : State) : Out :=
  let v := value.toNat
  let q := nbits v 0 4
  let tail := nbits v 4 16
  let k := s.ctx ctx
  if v / 2 ^ 20 ≠ 0 || 256 ≤ k.subs.length || s.ringSize ctx q ≤ tail then
    .next ((s.modCtx ctx (fun k => { k with subRej := true })).raise ctx 6)
  else
    let n := (k.subSeq + 1) % 2 ^ 32
    .next (s.modCtx ctx (fun k => { k with subSeq := n, subs := k.subs ++ [(n, q, tail)] }))

/-- MBSTAT_READ (R440): reads the register and clears rej. -/
def State.mbstat (s : State) (c : Nat) : Nat :=
  let k := s.ctx c
  k.subSeq * 2 ^ 32 + k.subs.length * 2 ^ 8 + 2 * b2n k.subRej + b2n s.leading.isSome

/-- A packet taken from its ring has been read, and the queue's head moves past it (R341); a denied read leaves its record
written and no bytes. -/
def State.packetRead (s : State) (c : Nat) (p : Incoming) (bs : List Byte) : State :=
  (s.setCreg c (oQHEAD p.queue) ((s.creg c (oQHEAD p.queue) + 1) % s.ringSize c p.queue)).modCtx c (fun k =>
    { k with incoming := k.incoming.map (fun q => if q.num = p.num then { q with body := some bs } else q) })

/-- The bytes of a packet taken from its ring, read now if they have not been (R342, R454); none while the read is held. -/
def State.readPacket (s : State) (c : Nat) (p : Incoming) : State × Option (List Byte) :=
  match p.body with
  | some bs => (s, some bs)
  | none => match s.feGet c 0 p.num p.addr.toNat 64 with
    | (s, .ok bs) => (s.packetRead c p bs, some bs)
    | (s, .held) => (s, none)
    | (s, .denied) => (s.packetRead c p [], some [])

/-- Packets of a queue that have their sequence numbers but have not been read. -/
def State.unread (s : State) (c q : Nat) : List Incoming := (s.ctx c).incoming.filter (fun p => p.queue = q && p.body.isNone)

/-- Takes the packets of a queue up to a tail, at most `n`, under the context's next sequence numbers; each is read in its turn. -/
def takePackets (c q tail : Nat) : Nat → State → State
  | 0, s => s
  | n + 1, s =>
    let next := (s.creg c (oQHEAD q) + (s.unread c q).length) % s.ringSize c q
    if next = tail then s
    else
      let p : Incoming := { queue := q, addr := BitVec.ofNat 64 (s.creg c (oQBASE q) + 64 * next)
                            num := (s.ctx c).nextPacket, body := none }
      let s := s.modCtx c (fun k => { k with nextPacket := k.nextPacket + 1, incoming := k.incoming ++ [p] })
      takePackets c q tail n (if (s.unread c q).length = 1 then (s.readPacket c p).1 else s)

/-- MAILBOX_ENTRY_CONSUME (R342, R441): the oldest entry, while a steward holds the leader's lease (R442); one of a disabled queue
only loses its tail. -/
def execMailboxEntryConsume (ctx : Nat) (s : State) : Out :=
  match (s.ctx ctx).subs with
  | [] => .next s
  | (n, q, tail) :: rest =>
    if s.leaseOut then .next s
    else
    let s := s.modCtx ctx (fun k => { k with subs := rest, consumed := n })
    if nbit (s.creg ctx (oQCTL q)) 6 then .next (takePackets ctx q tail (s.ringSize ctx q) s) else .next s

/-! ## Acceptance -/

/-- The word at 0x3C of a packet, and its kind (R343). -/
def packetWord (bs : List Byte) : Nat := bytesAt bs 0x3C 4
def packetKind (bs : List Byte) : Nat := packetWord bs / 2 ^ 28

/-- The packet that is next to be accepted: none before it in its queue, and those before it on other queues held by an access
of their own, to the packet or to its role table (R349, R454). -/
def nextIncoming (s : State) (c : Nat) : List Incoming → List Nat → Option Incoming
  | [], _ => none
  | p :: ps, held =>
    if held.contains p.queue then nextIncoming s c ps held
    else if s.feHeld c 0 p.num || s.feHeld c 4 p.num then nextIncoming s c ps (p.queue :: held)
    else some p

/-- Takes a packet off the list. -/
def State.takeIncoming (s : State) (c : Nat) (p : Incoming) : State :=
  s.modCtx c (fun k => { k with incoming := k.incoming.filter (fun q => q.num ≠ p.num) })

/-- Rejects a packet and the group it belongs to (R347, R454); later packets of a group whose launch is still to come go with it.
A packet that could not be read has its record already, and what follows it up to a launch is taken as its group (log 54). -/
def State.reject (s : State) (c : Nat) (p : Incoming) (bs : List Byte) : State :=
  let kind := packetKind bs
  let s := s.modCtx c (fun k => { k with
    partials := AMap.erase k.partials p.queue
    rejected := AMap.put 0 k.rejected p.queue (p.num + 1)
    skip := if bs.length ≠ 64 || kind = 1 || kind = 2 || kind = 6 then p.queue :: k.skip else k.skip })
  if bs.length = 64 then s.frontEndRecord c 1 16 p.addr (BitVec.ofNat 32 (packetWord bs)) else s

/-- The ranges of a ranges or extension packet, if it keeps within R345: addresses extend bit 56, and 2^45 pages are every
address. -/
def rangesOf (bs : List Byte) : Option (List Range) :=
  let count := bytesAt bs 0x30 1
  let one (i : Nat) : Option Range :=
    let v := bytesAt bs (8 * i) 8
    let n := nbits v 57 6
    let base := v % 2 ^ 57
    let lo := if 2 ^ 56 ≤ base then base + (2 ^ 64 - 2 ^ 57) else base
    if v % 4096 ≠ 0 || 45 < n || base / 4096 % 2 ^ n ≠ 0 then none
    else some { lo := lo, hi := if n = 45 then 2 ^ 64 - 1 else lo + 4096 * 2 ^ n - 1, write := nbit v 63 }
  if 6 < count || (span 0x31 11).any (fun i => bytesAt bs i 1 ≠ 0) || packetWord bs % 2 ^ 28 ≠ 0 then none
  else
    let rs := (span 0 count).filterMap one
    if rs.length ≠ count then none
    else if packetKind bs = 1 && (4 < (rs.filter (fun r => !r.write)).length || 2 < (rs.filter (fun r => r.write)).length) then
      none
    else some rs

/-- A prologue packet keeps within R351. -/
def prologueOk (bs : List Byte) : Bool :=
  bytesAt bs 0 8 % 4 = 0 && (span 0x18 36).all (fun i => bytesAt bs i 1 = 0) && packetWord bs % 2 ^ 28 = 0

/-- A packet may follow the open group of its queue (R344). -/
def groupAllows (kinds : List Nat) (kind : Nat) : Bool :=
  match kind with
  | 0 => true
  | 1 => kinds = [] || kinds = [6]
  | 2 => (kinds.getLast? = some 1 || kinds.getLast? = some 2) && kinds.count 2 < 2
  | 6 => kinds = []
  | _ => kinds = [] && kind ≤ 6

/-- Ranges held by the uncompleted packets of the contexts that one front end serves (R349). -/
def State.rangesHeld (s : State) (c : Nat) : Nat :=
  ((s.ctxs.filter (fun e => Config.frontEnd e.1 % 2 = Config.frontEnd c % 2)).map (fun e =>
    ((e.2.packets.filter (fun q => !s.packetOver e.1 q.2)).map (fun q => q.2.ranges.length)).sum)).sum

/-- Enters an accepted packet, if the interval table has room (R349); the queue's packet before it is none where that was rejected,
and so counts as complete (R347, R348). -/
def State.accept (s : State) (c : Nat) (p : Incoming) (x : Packet) : State :=
  let prev := ((((s.ctx c).packets.filter (fun q => q.1 < p.num && q.2.queue = p.queue)).getLast?).map (·.1)).filter
    (fun n => AMap.get 0 (s.ctx c).rejected p.queue ≤ n)
  if 4096 < s.rangesHeld c + x.ranges.length then s
  else (s.takeIncoming c p).modCtx c (fun k => { k with
    packets := AMap.set k.packets p.num { x with prev := prev }, partials := AMap.erase k.partials p.queue })

/-- A copy, level or drain packet keeps within R346 and R370, and its ranges. -/
def simpleRanges (bs : List Byte) : Option (List Range) :=
  let kind := packetKind bs
  let w := packetWord bs
  let zero (a n : Nat) : Bool := (span a n).all (fun i => bytesAt bs i 1 = 0)
  if w % 8 < 4 || 6 < w % 8 || nbits w 4 24 ≠ 0 || bytesAt bs 0x18 8 % 4 ≠ 0 || !zero 0x24 24 then none
  else if kind = 3 then
    let src := bytesAt bs 0 8
    let dst := bytesAt bs 8 8
    let n := bytesAt bs 0x10 8
    if n = 0 || 2 ^ 40 < n then none
    else some [{ lo := src, hi := src + n - 1, write := false }, { lo := dst, hi := dst + n - 1, write := true }]
  else if kind = 5 then (if zero 0 0x18 then some [] else none)
  else
    let level := bytesAt bs 0x0C 1
    if bytesAt bs 0 8 % 64 ≠ 0 || 16777216 < bytesAt bs 8 4 || 2 < level || 4 ≤ bytesAt bs 0x0D 1 || !zero 0x0E 10 ||
        (bytesAt bs 0 8 ≠ 0 && level ≠ 2) then none
    else some []

/-- Accepts the next incoming packet of a kind that runs by itself (R346, R370), or rejects it. -/
def State.acceptSimple (s : State) (c seq kind : Nat) : State :=
  match nextIncoming s c (s.ctx c).incoming [] with
  | none => s
  | some p => match s.readPacket c p with
    | (s, some bs) =>
      if p.num ≠ seq || packetKind bs ≠ kind || bs.length ≠ 64 then s
      else
        let s := s.modCtx c (fun k => { k with skip := k.skip.filter (fun q => q ≠ p.queue) })
        let kinds := (AMap.get [] (s.ctx c).partials p.queue).map (fun q => packetKind (q.body.getD []))
        (match (if groupAllows kinds kind then simpleRanges bs else none) with
         | none => (s.takeIncoming c p).reject c p bs
         | some rs => s.accept c p { kind := kind, queue := p.queue, addr := p.addr, body := bs, ranges := rs
                                     prologue := none, md := mdReset, roles := [], stage := .accepted, copied := 0 })
    | (s, _) => s

/-- Accepts a launch packet with its group (R344): the role table is read with it (R156). -/
def State.acceptLaunch (s : State) (c : Nat) (p : Incoming) (bs : List Byte) : State :=
  let r := parseRecord bs
  let group := AMap.get [] (s.ctx c).partials p.queue
  let fail (s : State) : State := (s.takeIncoming c p).modCtx c (fun k => { k with
    partials := AMap.erase k.partials p.queue, rejected := AMap.put 0 k.rejected p.queue (p.num + 1) })
  if !r.ok then (s.takeIncoming c p).reject c p bs
  else match s.feGet c 4 p.num r.table.toNat (tableSize r.roleCount) with
    | (s, .held) => s
    | (s, .denied) => fail s
    | (s, .ok table) =>
      if !tableOk r table || !s.couldPlace c r (rolesOf r table) then (s.takeIncoming c p).reject c p bs
      else
        let bodies := group.map (fun q => q.body.getD [])
        let args : List Range := if r.argSize = 0 then [] else
            [{ lo := r.argAddr.toNat, hi := r.argAddr.toNat + r.argSize - 1, write := false }]
        s.accept c p { kind := 0, queue := p.queue, addr := p.addr, body := bs
                       ranges := args ++ bodies.flatMap (fun b => if packetKind b = 6 then [] else (rangesOf b).getD [])
                       prologue := bodies.find? (fun b => packetKind b = 6), md := tableMd table
                       roles := rolesOf r table, stage := .accepted, copied := 0 }

/-- LAUNCH_PACKET (R344, R347): the next packet of a launch group joins it, and the launch packet is accepted with it; a packet
that breaks a rule is rejected with its group. -/
def execLaunchPacket (ctx : Nat) (s : State) : Out :=
  match nextIncoming s ctx (s.ctx ctx).incoming [] with
  | none => .next s
  | some p => match s.readPacket ctx p with
    | (s, none) => .next s
    | (s, some bs) =>
      let kind := packetKind bs
      let kinds := (AMap.get [] (s.ctx ctx).partials p.queue).map (fun q => packetKind (q.body.getD []))
      let gone := s.takeIncoming ctx p
      if bs.length ≠ 64 then .next (gone.reject ctx p bs)
      else if 3 ≤ kind && kind ≤ 5 then .next s
      else if (s.ctx ctx).skip.contains p.queue && kind ≤ 2 then
        .next (gone.modCtx ctx (fun k => { k with
          skip := if kind = 0 then k.skip.filter (fun q => q ≠ p.queue) else k.skip
          rejected := AMap.put 0 k.rejected p.queue (p.num + 1) }))
      else
        let drop (s : State) : State := s.modCtx ctx (fun k => { k with skip := k.skip.filter (fun q => q ≠ p.queue) })
        let fine := groupAllows kinds kind && (match kind with
          | 1 | 2 => (rangesOf bs).isSome
          | 6 => prologueOk bs
          | _ => true)
        if !fine then .next ((drop gone).reject ctx p bs)
        else if kind = 0 then .next (s.acceptLaunch ctx p bs)
        else .next ((drop gone).modCtx ctx (fun k => { k with
          partials := AMap.set k.partials p.queue (AMap.get [] k.partials p.queue ++ [{ p with body := some bs }]) }))

/-! ## Hazards -/

/-- Two ranges conflict (R348). -/
def Range.conflicts (a b : Range) : Bool := (a.write || b.write) && meets a.lo a.hi b.lo b.hi

/-- The ranges that a packet's bytes declare or imply (R345, R346). -/
def bodyRanges (bs : List Byte) : List Range :=
  match packetKind bs with
  | 0 =>
    let r := parseRecord bs
    if r.argSize = 0 then [] else [{ lo := r.argAddr.toNat, hi := r.argAddr.toNat + r.argSize - 1, write := false }]
  | 1 | 2 => (rangesOf bs).getD []
  | 3 => (simpleRanges bs).getD []
  | _ => []

/-- A packet waits for an earlier one that a fault still keeps from being accepted (R348, R371, R454): one that has not been
read may conflict with any. -/
def State.heldBlocks (s : State) (c seq : Nat) (x : Packet) : Bool :=
  let clash (bs : List Byte) : Bool := packetKind bs = 4 || x.ranges.any (fun a => (bodyRanges bs).any (fun b => a.conflicts b))
  (s.ctx c).incoming.any (fun p => p.num < seq && (match p.body with
    | some bs => clash bs || (AMap.get [] (s.ctx c).partials p.queue).any (fun q => clash (q.body.getD []))
    | none => true))

/-- A packet waits for an earlier one (R348, R371), or behind a halted prologue of its queue (R181). -/
def State.packetBlocked (s : State) (c seq : Nat) (x : Packet) : Bool :=
  let ps := (s.ctx c).packets
  s.heldBlocks c seq x ||
  ps.any (fun q => q.1 < seq && !s.packetOver c q.2 &&
    (q.2.kind = 4 || (nbit (s.creg c (oQCTL x.queue)) 5 && x.prev = some q.1) ||
      (q.2.queue = x.queue && (s.ctx c).prologue.any (fun l => l.packet = q.1 && l.haltSince.isSome)) ||
      x.ranges.any (fun a => q.2.ranges.any (fun b => a.conflicts b))))

/-- The front end starts packets of a context (R411, R383, R386). -/
def State.mayStart (s : State) (c : Nat) : Bool := !nbit (s.creg c oPREEMPT) 0 && !(s.ctx c).snapPaused && !s.replayDead c

/-- Changes an accepted packet. -/
def State.modPacket (s : State) (c seq : Nat) (f : Packet → Packet) : State :=
  s.modCtx c (fun k => { k with packets := AMap.modify k.packets seq f })

/-- A launch begins: its grid, under the context's next ordinal (R352, R372). -/
def State.beginLaunch (s : State) (c seq : Nat) (x : Packet) (r : LaunchRec) (runs : Nat) : State :=
  let a := (s.modPacket c seq (fun p => { p with stage := .running })).addGrid (newGrid c (some seq) none r x.md x.roles runs)
  a.1.giveOrdinal a.2

/-- PACKET_START (R348): a launch goes to its prologue or begins; a copy may run. -/
def execPacketStart (ctx seq : Nat) (s : State) : Out :=
  match AMap.find (s.ctx ctx).packets seq with
  | none => .next s
  | some x =>
    if x.stage ≠ .accepted || (x.kind ≠ 0 && x.kind ≠ 3) || !s.mayStart ctx || s.packetBlocked ctx seq x then .next s
    else if x.kind = 3 || x.prologue.isSome then .next (s.modPacket ctx seq (fun p => { p with stage := .started }))
    else .next (s.beginLaunch ctx seq x (parseRecord x.body) 1)

/-! ## Copies, drains, levels -/

/-- The completion of a packet, if it names a word; then it is complete (R346, R370, R454). -/
def State.finishPacket (s : State) (c seq : Nat) (x : Packet) : State :=
  let va := bytesAt x.body 0x18 8
  let done (s : State) : State := s.modPacket c seq (fun p => { p with stage := .complete })
  if va = 0 then done s
  else match s.completeWord c 3 seq va (bytesAt x.body 0x20 4) (nbit (packetWord x.body) 3) with
    | (s, .held) => s
    | (s, _) => done s

/-- Copies up to `n` bytes (R346): a page fault holds it at its byte, a denied byte ends it. -/
def copyBytes (c seq : Nat) : Nat → State → State
  | 0, s => s
  | n + 1, s =>
    match AMap.find (s.ctx c).packets seq with
    | none => s
    | some x =>
      if bytesAt x.body 0x10 8 ≤ x.copied then s
      else
        let end_ (s : State) : State := s.modPacket c seq (fun p => { p with stage := .complete })
        match s.feGet c 2 seq (bytesAt x.body 0 8 + x.copied) 1 with
        | (s, .held) => s
        | (s, .denied) => end_ s
        | (s, .ok bs) => match s.fePut c 2 seq (bytesAt x.body 8 8 + x.copied) bs with
          | (s, .held) => s
          | (s, .denied) => end_ s
          | (s, .ok _) => copyBytes c seq n (s.modPacket c seq (fun p => { p with copied := p.copied + 1 }))

/-- COPY_PACKET (R346): accepted in its turn; once started it copies, and completes after its last byte. -/
def execCopyPacket (ctx seq n : Nat) (s : State) : Out :=
  match AMap.find (s.ctx ctx).packets seq with
  | none => .next (s.acceptSimple ctx seq 3)
  | some x =>
    if x.kind ≠ 3 || x.stage ≠ .started || (s.ctx ctx).snapPaused then .next s
    else
      let s := copyBytes ctx seq n s
      match AMap.find (s.ctx ctx).packets seq with
      | none => .next s
      | some x => if x.stage = .started && bytesAt x.body 0x10 8 ≤ x.copied then .next (s.finishPacket ctx seq x) else .next s

/-- Every packet of the context before this one is complete (R346, R371). -/
def State.allBefore (s : State) (c seq : Nat) : Bool :=
  (s.ctx c).packets.all (fun q => seq ≤ q.1 || s.packetOver c q.2) &&
  (s.ctx c).incoming.all (fun p => seq ≤ p.num)

/-- DRAIN_PACKET (R346): accepted in its turn; it completes after every packet before it. -/
def execDrainPacket (ctx seq : Nat) (s : State) : Out :=
  match AMap.find (s.ctx ctx).packets seq with
  | none => .next (s.acceptSimple ctx seq 5)
  | some x =>
    if x.kind ≠ 5 || x.stage = .complete || !s.mayStart ctx || !s.allBefore ctx seq then .next s
    else .next (s.finishPacket ctx seq x)

/-- The level that a packet sets (R370). -/
def levelOf (bs : List Byte) : Level :=
  { level := bytesAt bs 0x0C 1, recording := nbit (bytesAt bs 0x0D 1) 0, choreo := BitVec.ofNat 64 (bytesAt bs 0 8)
    capacity := bytesAt bs 8 4, bind := nbit (bytesAt bs 0x0D 1) 1, entries := 0, used := [], broken := false }

/-- Sets a context's level, with its MARK record, in the log that is on before or after (R371). -/
def State.setLevel (s : State) (c : Nat) (v : Level) : State :=
  let mark (s : State) : State :=
    s.note (16 + Config.frontEnd c % 2) c 7 0xFFFF none (varint 3 (16384 + v.level))
  let was := (s.ctx c).level.recording
  let s := if was then mark s else s
  let s := s.modCtx c (fun k => { k with level := v, nextOrdinal := 0 })
  if was then s else mark s

/-- DETERMINISM_LEVEL_PACKET (R371): accepted in its turn; once every packet before it and their device-side children are
complete, the new values are set and its completion performed. -/
def execDeterminismLevelPacket (ctx seq : Nat) (s : State) : Out :=
  match AMap.find (s.ctx ctx).packets seq with
  | none => .next (s.acceptSimple ctx seq 4)
  | some x =>
    if x.kind ≠ 4 || x.stage = .complete || !s.mayStart ctx then .next s
    else if x.stage = .running then .next (s.finishPacket ctx seq x)
    else if !s.allBefore ctx seq || s.grids.any (fun e => e.2.ctx = ctx && !e.2.complete) then .next s
    else
      let s := (s.modPacket ctx seq (fun p => { p with stage := .running })).setLevel ctx (levelOf x.body)
      .next (s.finishPacket ctx seq x)

/-! ## Prologues -/

/-- The prologue of a launch at its start (R351, R177). -/
def startPrologue (s : State) (seq : Nat) (bs : List Byte) (r : LaunchRec) : Prologue :=
  let t := Team.single .prologue (BitVec.ofNat 64 (bytesAt bs 0 8)) mdReset
  { team := (t.setKPair 0 (BitVec.ofNat 64 (bytesAt bs 8 8))).setKPair 2 (BitVec.ofNat 64 (bytesAt bs 0x10 8))
    packet := seq
    csr := { lgx := BitVec.ofNat 32 r.gx, lgy := BitVec.ofNat 32 r.gy, lgz := BitVec.ofNat 32 r.gz
             largl := lowHalf r.argAddr, largh := highHalf r.argAddr, lruns := 1#32 }
    issued := 0, since := s.time, haltedTicks := 0, haltSince := none, woken := false }

/-- The record as a prologue leaves it (R177). -/
def LaunchRec.with (r : LaunchRec) (q : ProCsr) : LaunchRec :=
  { r with gx := q.lgx.toNat, gy := q.lgy.toNat, gz := q.lgz.toNat, argAddr := joinPair q.largl q.largh }

/-- The record of a prologue that has failed still waits for room in the fault ring: the front end stands at it (R439). -/
def State.prologueWaits (s : State) (c : Nat) : Bool :=
  (s.ctx c).packets.any (fun q => q.2.span.isSome && (match q.2.stage with
    | .failed n => !s.faultWritten c n
    | _ => false))

/-- PROLOGUE_RUN (R351): the prologue starts; once it has ended and its accesses are performed, the launch runs with the
registers as it leaves them (R177). -/
def execPrologueRun (ctx seq : Nat) (s : State) : Out :=
  match AMap.find (s.ctx ctx).packets seq with
  | none => .next s
  | some x => match x.prologue, (s.ctx ctx).prologue with
    | some bs, none =>
      if x.stage ≠ .started || x.kind ≠ 0 || !s.mayStart ctx || s.prologueWaits ctx then .next s
      else .next ((s.modPacket ctx seq (fun p => { p with stage := .inPrologue, span := some (s.stamp, none) })).modCtx ctx (fun k =>
        { k with prologue := some (startPrologue s seq bs (parseRecord x.body)) }))
    | some _, some q =>
      if q.packet ≠ seq || !s.gone (.prologue ctx) q.team || !q.team.pend.isEmpty then .next s
      else
        let r := (parseRecord x.body).with q.csr
        let s' := (s.modPacket ctx seq (fun p => { p with span := p.span.map (fun e => (e.1, some s.stamp)) })).modCtx ctx (fun k =>
          { k with prologue := none })
        let runs := q.csr.lruns.toNat % 2 ^ 16
        if runs ≠ 0 && !(r.ok && s.couldPlace ctx r x.roles) then
          .next ((s'.frontEndRecord ctx 1 16 x.addr (BitVec.ofNat 32 (packetWord x.body))).failPacket ctx seq)
        else .next (s'.beginLaunch ctx seq x r runs)
    | _, _ => .next s

/-- PROLOGUE_LIMIT_EXPIRY (R351): 4,096 uncore clocks outside `halt` have passed. -/
def execPrologueLimitExpiry (ctx : Nat) (s : State) : Out :=
  match (s.ctx ctx).prologue with
  | none => .next s
  | some q =>
    let halted := q.haltedTicks + (match q.haltSince with
      | some t => s.time - t
      | none => 0)
    if !q.team.ended && 4096 * 100 < (s.time - q.since - halted) * s.power.uncore then
      .next ((s.prologueRecord ctx q.team.pc).endPrologue ctx)
    else .next s

end Sys2Proof.Machine
end

