-- ==== Sys2Proof/Machine/Registers.lean ====
section
/-!
DEFINITION. The control aperture (R431): widths, what a read of each register returns, which writes a plain register accepts, and
the plain write itself. Registers whose write does something have events of their own.
-/

namespace Sys2Proof.Machine

def rTINV : Nat := 0x38
def rTINVS : Nat := 0x40
def rRPSTAT : Nat := 0x68
def rLAPSE : Nat := 0x70
def rBOOTST : Nat := 0x80
def rPWRNOW : Nat := 0x98
def oPFRES : Nat := 0x98
def oCTXRST : Nat := 0xB0
def oMBSUB : Nat := 0xB8
def oMBSTAT : Nat := 0xC0

/-! ## Layout -/

/-- Width in bytes of a register of the device page. -/
def deviceWidth (off : Nat) : Option Nat :=
  if off ≤ 0xA0 && off % 8 = 0 then
    some (if [0x08, 0x18, 0x28, 0x38, 0x48, 0x58, 0x60, 0x68, 0x70, 0xA0].contains off then 8 else 4)
  else if 0x1000 ≤ off && off < 0x1400 && off % 4 = 0 then some 4
  else if 0x2000 ≤ off && off < 0x3000 && off % 8 = 0 then some 8
  else none

/-- Width in bytes of a register of a cluster page. -/
def clusterWidth (off : Nat) : Option Nat :=
  if off = 0 then some 4
  else if 0x10 ≤ off && off < 0x50 && off % 8 = 0 then some (if off % 16 = 0 then 4 else 8)
  else none

/-- Width in bytes of a register of a context page. -/
def contextWidth (off : Nat) : Option Nat :=
  if off ≤ 0xE0 && off % 8 = 0 then
    some (if [0x10, 0x18, 0x20, 0x30, 0x38, 0x58, 0x80, 0xB8, 0xC0, 0xC8].contains off then 8 else 4)
  else if 0x100 ≤ off && off < 0x300 && off % 8 = 0 && off % 0x20 ≠ 0x18 then some (if off % 0x20 = 0 then 8 else 4)
  else if 0x400 ≤ off && off < 0x600 && off % 8 = 0 then some 4
  else if 0x8000 ≤ off && off < 0x8100 && off % 4 = 0 then some 4
  else none

/-- The page an offset lies in. -/
inductive Page where
  | device
  | cluster (k : Nat)
  | context (c : Nat)
  | none
  deriving DecidableEq, Repr

/-- The page of an aperture offset, and the offset within it. -/
def pageOf (off : Nat) : Page × Nat :=
  if off < 0x10000 then (.device, off)
  else if off < 0x20000 then (.cluster (off / 0x1000 - 0x10), off % 0x1000)
  else if 0x100000 ≤ off && off < 0x500000 then (.context (off / 0x10000 - 0x10), off % 0x10000)
  else (.none, off)

/-- Width in bytes of the register at an offset, if there is one. -/
def regWidth (off : Nat) : Option Nat :=
  match pageOf off with
  | (.device, o) => deviceWidth o
  | (.cluster _, o) => clusterWidth o
  | (.context _, o) => contextWidth o
  | (.none, _) => none

/-! ## Reads -/

/-- log₂ of a power of two. -/
def log2Of : Nat → Nat → Nat
  | 0, _ => 0
  | n + 1, v => if v ≤ 1 then 0 else log2Of n (v / 2) + 1

/-- The oldest lapsed region as LAPSE reads it (R432). -/
def State.lapseWord (s : State) : Nat :=
  match s.lapse with
  | [] => 0
  | e :: _ => e.1 / 2 ^ 16 * 2 ^ 16 + e.2

/-- TINVS (R273). -/
def State.tinvs (s : State) : Nat :=
  b2n (!s.invals.isEmpty) + 2 * b2n s.tinvErr + 4 * b2n s.tinvFull + 16 * (s.transGen % 16)

/-- DSTAT and CSTAT (R432). -/
def State.dstat (s : State) : Nat := b2n s.devErr + 2 * b2n (!s.lapse.isEmpty) + 4 * b2n s.idle
def State.cstat (s : State) (c : Nat) : Nat :=
  let k := s.ctx c
  b2n k.err + 2 * b2n k.chbrk + 4 * b2n (s.ctxIdle c) + 16 * (k.epoch % 16)

/-- What the device page's register at an offset reads. -/
def State.readDevice (s : State) (off : Nat) : Nat :=
  if off = 0 then s.dstat
  else if off = rTINV then 0
  else if off = rTINVS then s.tinvs
  else if off = rRPCTL then (s.reg rRPCTL).toNat + b2n (s.replay.state = 1)
  else if off = rRPSTAT then s.replay.position * 256 + s.replay.state
  else if off = rLAPSE then s.lapseWord
  else if off = rBOOTST then
    b2n s.boot.up + 2 * b2n s.boot.ed + 4 * b2n s.boot.mld + 8 * b2n s.boot.recovered + 16 * Config.revision.toNat
  else if off = rPWRNOW then s.power.now % 2 ^ 12
  else (s.reg off).toNat

/-- What a register reads, beside what the read clears (R431). An access of another width reads 0. -/
def State.readReg (s : State) (off width : Nat) : Nat :=
  if regWidth off ≠ some width then 0
  else match pageOf off with
    | (.device, o) => s.readDevice o
    | (.cluster k, o) =>
      let v := (s.reg off).toNat
      if o = 0 then v + b2n ((s.cluster k).stops.contains (nbits v 3 6)) else v
    | (.context c, o) =>
      if o = 0 then s.cstat c
      else if o = oPREEMPT then s.creg c o % 2 + 2 * b2n (nbit (s.creg c o) 1 && s.ctxIdle c)
      else if o = oPFRES || o = oCTXRST || o = oMBSUB then 0
      else if o = oMBSTAT then s.mbstat c
      else if 0x8000 ≤ o then (AMap.get 0#32 (s.ctx c).notify ((o - 0x8000) / 4)).toNat
      else s.creg c o
    | (.none, _) => 0

/-! ## Writes -/

/-- Sets the error bit of a page's status word (R257, R432); a cluster page's is that of the context named. -/
def State.pageErr (s : State) (off : Nat) (value : Nat) : State :=
  match pageOf off with
  | (.device, _) => s.setDevErr
  | (.cluster _, o) =>
    s.setCtxErr (if o = 0 then nbits value 3 6
      else if o % 16 = 0 then nbits value 4 6
      else nbits (s.reg (off - 8)).toNat 4 6)
  | (.context c, _) => s.setCtxErr c
  | (.none, _) => s

/-- The layout of CIMSIC and DIMSIC (R433). -/
def imsicOk (v : Nat) : Bool := !nbit v 11 && 1 ≤ v % 2 ^ 11 && v % 2 ^ 11 ≤ 2040

/-- A device-page register accepts a value now: none that is read-only (R257, R279, R320, R379, R383, R384, R427, R449). -/
def State.deviceAccepts (s : State) (off v : Nat) : Bool :=
  if off = rVPBASE || off = rPLBASE then v % 2 ^ 30 = 0 && s.idle
  else if off = rVPSIZE then 1 ≤ v && v < 256 && s.idle
  else if off = rPLSIZE then 1 ≤ v && v ≤ 16 && s.idle
  else if off = rLRBASE then v % 2 ^ 16 = 0 && v % 2 ^ (s.reg rLRSIZE).toNat = 0 && s.idle
  else if off = rLRSIZE then 16 ≤ v && v ≤ 36 && (s.reg rLRBASE).toNat % 2 ^ v = 0 && s.idle
  else if off = rSNAPREQ then v / 2 ^ 10 = 0
  else if off = rRPCTL then
    nbits v 10 22 = 0 && nbits v 2 2 ≠ 3 &&
    (s.replay.state ≠ 1 || (v / 2 ^ 4 = (s.reg rRPCTL).toNat / 2 ^ 4 && nbit v 1 = nbit (s.reg rRPCTL).toNat 1))
  else if off = rRPBRK then true
  else if off = rMDEVNO then v < 2 ^ 16 && s.idle
  else if off = rPWRLIM then 1 ≤ v && v ≤ 2800
  else if off = rDIMSIC then imsicOk v && s.idle
  else if 0x2000 ≤ off then
    if off % 16 = 8 then v % 2 ^ 16 = 0 && (s.reg (off - 8)).toNat % 4 = 0
    else nbits v 8 8 = 0 && (s.reg off).toNat % 4 = 0
  else false

/-- A watchpoint register accepts a value (R400). -/
def State.watchAccepts (s : State) (off o v : Nat) : Bool :=
  if o % 16 = 0 then
    nbits v 10 3 = 0 && nbits v 13 5 ≤ 16 &&
    (match nbits v 2 2 with
     | 0 => nbits v 18 14 = 0
     | 1 => nbits v 22 10 = 0
     | 2 => true
     | _ => false)
  else nbits (s.reg (off - 8)).toNat 2 2 = 0 || v < 2 ^ 20

/-- A ring or queue size register accepts a value. -/
def sizeOk (lo hi v : Nat) : Bool := lo ≤ v && v ≤ hi

/-- A context-page register accepts a value now (R257, R320, R341, R403, R410, R430, R433, R438). -/
def State.contextAccepts (s : State) (c o v : Nat) : Bool :=
  let old := s.creg c o
  let idle := s.ctxIdle c
  let empty := s.creg c oSQHEAD = s.creg c oSQTAIL
  if o = oCTXCFG then
    nbits v 24 8 = 0 && nbits v 6 2 = 0 && nbits v 1 2 = 0 && nbits v 4 2 < 2 && (idle || nbits v 3 3 = nbits old 3 3)
  else if o = oCSATP || o = oCHGATP then nbits v 60 4 = 10 && idle
  else if o = oCPOOLB then v % 2 ^ 21 = 0 && idle
  else if o = oCPOOLS then v < 2 ^ 16 && idle
  else if o = oCIMSIC then imsicOk v && idle
  else if o = oFRBASE || o = oSRBASE then v % 2 ^ 12 = 0 && idle
  else if o = oFRCTL || o = oSRCTL then sizeOk 6 16 v && idle
  else if o = oVPLIM then v < 256
  else if o = oPLWIN then nbits v 1 29 = 0 && idle
  else if o = oSWTHR then v < 2 ^ 20
  else if o = oDBGCTL then v < 2 && idle
  else if o = oPDEAD then 1 ≤ v && v < 2 ^ 24
  else if o = oSQBASE then v % 2 ^ 12 = 0 && empty
  else if o = oSQCTL then sizeOk 4 12 v && empty
  else if o = oSQTAIL then true
  else if 0x100 ≤ o && o < 0x300 then
    let off := !nbit (s.creg c (o / 0x20 * 0x20 + 8)) 6
    if o % 0x20 = 0 then v % 2 ^ 12 = 0 && off
    else if o % 0x20 = 8 then v < 128 && sizeOk 4 16 (v % 32) && (off || v % 64 = old % 64)
    else false
  else false

/-- The write of the register has an event of its own, which is not this one. -/
def ownEvent (s : State) (off v : Nat) : Bool :=
  match pageOf off with
  | (.device, o) =>
    o = rTINV || o = rBFLIP || (o = rSNAPREQ && nbits v 6 2 ≠ 0) || (o = rRPCTL && nbit v 0) ||
    (0x1000 ≤ o && o < 0x2000) || (0x2000 ≤ o && o % 16 = 0 && (nbit v 0 || nbit (s.reg o).toNat 0))
  | (.cluster _, o) => o = 0 && nbits v 1 2 ≠ 0
  | (.context _, o) =>
    o = oPFRES || o = oPREEMPT || o = oCTXRST || o = oMBSUB || o = oFRTAIL || o = oSRTAIL || (0x400 ≤ o && o < 0x600) ||
    0x8000 ≤ o
  | (.none, _) => false

/-- The register accepts the value. -/
def State.accepts (s : State) (off v : Nat) : Bool :=
  match pageOf off with
  | (.device, o) => s.deviceAccepts o v
  | (.cluster _, o) => if o = 0 then v / 2 ^ 9 = 0 else s.watchAccepts off o v
  | (.context c, o) => s.contextAccepts c o v
  | (.none, _) => false

/-- What is kept of an accepted value: not the bits that are read-only or write-only; `old` is what the register holds. -/
def keptBits (old off v : Nat) : Nat :=
  match pageOf off with
  | (.device, o) =>
    if o = rRPCTL then v / 2 * 2
    else if o = rSNAPREQ then v % 64 + nbits old 8 2 * 256
    else if 0x2000 ≤ o && o % 16 = 0 then v / 2 ^ 16 * 2 ^ 16 + nbits v 2 6 * 4
    else v
  | (.cluster _, o) => if o = 0 then nbits v 3 6 * 8 else v
  | _ => v

/-- The ring of the log is configured anew, and its header written (R379, R380). -/
def State.newRing (s : State) : State :=
  State.writeLogHeader { s with log := { s.log with head := 0, tail := 0, anchors := [], held := [], snaps := [], sides := [] } }

/-- The averaged power has come to the other side of the limit: the MSI of R436. -/
def State.crossing (s : State) : State :=
  let over_ := decide ((s.reg rPWRLIM).toNat < s.power.now)
  if over_ = s.power.crossed then s else State.raiseDevice { s with power := { s.power with crossed := over_ } } 2

/-- REGISTER_WRITE (R431): an accepted value is stored; any other write is ignored and sets the error bit of its page. The
leader takes a new power limit as its spwl (R449). -/
def execRegisterWrite (offset width : Nat) (value : Word64) (s : State) : Out :=
  let v := value.toNat % 2 ^ (8 * width)
  if regWidth offset ≠ some width then .next (s.pageErr offset v)
  else if ownEvent s offset v then .next s
  else if !s.accepts offset v then .next (s.pageErr offset v)
  else
    let s := s.setReg offset (BitVec.ofNat 64 (keptBits (s.reg offset).toNat offset v))
    if offset = rLRBASE || offset = rLRSIZE then .next s.newRing
    else if offset = rPWRLIM then
      .next (State.crossing (State.judgePower (match s.leading with
        | some d => s.modSteward d (fun x => { x with spwl := BitVec.ofNat 32 v })
        | none => s)))
    else .next s

end Sys2Proof.Machine
end

