-- ==== Sys2Proof/Machine/Transaction.lean ====
section
/-!
DEFINITION. Transactions (R135 to R138, R264 to R266): opening, dooming, the resolution of `txe`, and what its last
validation does.
-/

namespace Sys2Proof.Machine

/-- Consecutive aborts of a lane (R138). -/
def Team.abortsOf (t : Team) (l : Nat) : Nat := AMap.get 0 t.aborts l

/-- The lane for which `txb` asks for the ticket: greatest count of 8 or more, lowest lane on a tie (R138). -/
def Team.ticketLane (t : Team) : Option Nat :=
  t.lanes.foldl (fun best l =>
    if t.abortsOf l < 8 then best
    else match best with
      | none => some l
      | some b => if t.abortsOf b < t.abortsOf l then some l else some b) none

/-- `txb` (R136, R138): a team that waited at it has been granted the ticket. Steward code, which has no cohort, asks for no ticket of one (log 13). -/
def txbRes (dev : Bool) (s : State) (p : Party) (t : Team) : Res :=
  let opened (l : Option Nat) : Team :=
    { t with tx := some { dev := dev, lanes := maskOf t.lanes (fun _ => true), tx := [], ticket := l, winners := [], intra := []
                          validated := [] } }
  match t.ticketLane with
  | none => .ok s (opened none)
  | some l =>
    if s.holdAt p = .ticket dev l then .ok s (opened (some l))
    else if dev then .hold { s with ticketQ := s.ticketQ ++ [p] } (.ticket dev l)
    else match partyTask p with
      | some tid => .hold (s.modTask tid (fun k => { k with ticketQ := k.ticketQ ++ [partyOrd p] })) (.ticket dev l)
      | none => .ok s (opened none)

def execTxbCoh (h : Hdr) (s : State) : Out := issue (.txbCoh h) h s (txbRes false)

def execTxbDev (h : Hdr) (s : State) : Out := issue (.txbDev h) h s (txbRes true)

/-- `txa` (R136): dooms with EXPLICIT each lane of the transaction that takes part and is not yet doomed. -/
def txaTeam (code : Nat) (t : Team) : Team :=
  (t.lanes.filter t.inTx).foldl (fun t l =>
    t.modLane l (fun x => if x.doomed then x else { x with doom := some (4, code) })) t

def execTxa (h : Hdr) (c : BitVec 8) (s : State) : Out :=
  issueTeam (.txa h c) h s (txaTeam c.toNat)

/-- The sets of two lanes overlap with a write on either side (R137). -/
def LaneTx.conflicts (x y : LaneTx) : Bool :=
  x.wrSec.any (fun a => y.wrSec.contains a || y.rdSec.contains a) || x.rdSec.any (fun a => y.wrSec.contains a)

/-- The lanes of a group in the order in which `txe` resolves them: the ticket's holder first. -/
def Tx.groupOrder (x : Tx) (g : Nat) : List Nat :=
  let ls := (span (32 * g) 32).filter (fun l => x.lanes.getLsbD l)
  match x.ticket with
  | some h => if ls.contains h then h :: ls.filter (· ≠ h) else ls
  | none => ls

/-- Resolves a group: winners, and lanes that abort with INTRA (R137). -/
def Tx.resolve (x : Tx) : List Nat → List Nat × List Nat → List Nat × List Nat
  | [], r => r
  | l :: ls, (win, intra) =>
    if (x.lane l).doomed then x.resolve ls (win, intra)
    else if win.any (fun w => (x.lane w).conflicts (x.lane l)) then x.resolve ls (win, intra ++ [l])
    else x.resolve ls (win ++ [l], intra)

/-- Winners and INTRA lanes of every group. -/
def Tx.resolveAll (x : Tx) : List Nat × List Nat :=
  (span 0 32).foldl (fun r g =>
    let q := x.resolve (x.groupOrder g) ([], [])
    (r.1 ++ q.1, r.2 ++ q.2)) ([], [])

/-- `txe` (R137): resolves the lanes; the events of R264 validate and finish it. -/
def txeRes (h : Hdr) (pd d : Nat) (s : State) (t : Team) : Res :=
  match t.tx with
  | none => .ok s t
  | some x =>
    if x.lanes = 0#1024 then .ok s { t with tx := none }
    else
      let r := x.resolveAll
      .open s { t with
        tx := some { x with winners := r.1, intra := r.2, validated := [] }, hold := .txe pd d h.seq.toNat }

def execTxe (h : Hdr) (p : BitVec 4) (d : BitVec 7) (s : State) : Out :=
  issue (.txe h p d) h s (fun s _ t => txeRes h p.toNat d.toNat s t)

end Sys2Proof.Machine
end

