-- ==== Sys2Proof/Machine/TxEvents.lean ====
section
/-!
DEFINITION. Validation of a transaction's winners and the end of `txe` (R137, R264, R265), and the grant of irrevocable
tickets (R138, R266).
-/

namespace Sys2Proof.Machine

/-- The bytes as the task sees them now, for a transaction's domain. -/
def State.txByte (s : State) (p : Party) (dev : Bool) (a : Nat) : Byte :=
  if dev then readByte (s.view (partyTask p)) a else readByte (s.scratchOf ((partyTask p).getD 0)) a

/-- Every recorded value still holds (R264, R265). -/
def State.readsHold (s : State) (p : Party) (dev : Bool) (x : LaneTx) : Bool :=
  x.rd.all (fun e => s.txByte p dev e.1 = e.2)

/-- A winner other than the ticket's holder aborts at validation when it meets a sector that the holder of its domain pins
(R138). -/
def State.meetsPin (s : State) (p : Party) (dev : Bool) (x : LaneTx) : Bool :=
  let secs := x.rdSec ++ x.wrSec
  if dev then
    (match s.pinned with
     | some (_, pins) => secs.any (fun a => pins.contains a)
     | none => false)
  else secs.any (fun a => (s.pinnedScratch ((partyTask p).getD 0)).contains a)

/-- In a replay a lane commits only where its pass's logged mask has it (R385). -/
def State.loggedWin (s : State) (p : Party) (x : Tx) (l : Nat) : Bool :=
  match s.logged p with
  | none => true
  | some _ =>
    let gs := (span 0 32).filter (fun g => !(x.groupOrder g).isEmpty)
    let rs := (s.scriptFor p).filter (fun r => r.kind = 2)
    (match rs[gs.idxOf (l / 32)]? with
     | some r => nbit (bytesAt r.payload 0 4) (l % 32)
     | none => false)

/-- A winning lane passes its comparison; the ticket's holder cannot fail (R138, R264). -/
def State.passesCheck (s : State) (p : Party) (x : Tx) (l : Nat) : Bool :=
  s.loggedWin p x l &&
    (x.ticket = some l || (s.readsHold p x.dev (x.lane l) && !s.meetsPin p x.dev (x.lane l)))

/-- Validates one winning lane: its sectors are locked and its recorded values compared (R264). -/
def validateLane (s : State) (p : Party) (l : Nat) (t : Team) (x : Tx) : State :=
  let lane := x.lane l
  let ok := s.passesCheck p x l
  let s : State := if x.dev && ok then
      { s with locked := s.locked ++ (lane.rdSec ++ lane.wrSec).map (fun a => (a, p)) } else s
  s.setTeam p { t with tx := some { x with validated := x.validated ++ [(l, ok)] } }

/-- Makes a committed lane's bytes visible, in the version of the task or in its scratchpad, or in committed memory for a party
that has no version; none when the version pool has no room (R258). -/
def State.commitLane (s : State) (p : Party) (dev : Bool) (x : LaneTx) : Option State :=
  x.wr.foldl (fun o e => o.bind (fun s =>
    if dev then s.versionWrite (partyTask p) (.bytes e.1 [e.2])
    else some (s.writeScratch ((partyTask p).getD 0) e.1 [e.2]))) (some s)

/-- The same for several lanes, in order. -/
def State.commitLanes (s : State) (p : Party) (x : Tx) : List Nat → Option State
  | [] => some s
  | l :: ls => (s.commitLane p x.dev (x.lane l)).bind (fun s => State.commitLanes s p x ls)

/-- A lane's outcome: the reason code of R137, 0 when it committed. -/
def Tx.reason (x : Tx) (l : Nat) : Nat :=
  if AMap.find x.validated l = some true then 0
  else match (x.lane l).doom with
    | some (r, _) => if (x.lane l).fault.isSome then 2 else r
    | none => if x.intra.contains l then 1 else 2

/-- The `txa` code of a lane whose reason is EXPLICIT. -/
def Tx.explicitCode (x : Tx) (l : Nat) : Nat :=
  match (x.lane l).doom with
  | some (4, c) => if x.reason l = 4 then c else 0
  | _ => 0

/-- A lane's count of consecutive aborts after this `txe` (R138). -/
def Tx.abortsAfter (x : Tx) (before l : Nat) : Nat :=
  match x.reason l with
  | 0 => 0
  | 4 => before
  | _ => before + 1

/-- The code word of a lane (R137). -/
def Tx.code (x : Tx) (before l : Nat) : Word :=
  let after := x.abortsAfter before l
  BitVec.ofNat 32 (x.reason l + 256 * x.explicitCode l + 65536 * (if x.reason l = 0 then 0 else min 255 after) +
    2 ^ 24 * b2n (x.ticket = some l))

/-- The lanes of the transaction, ascending. -/
def Tx.allLanes (x : Tx) : List Nat := lanesFrom x.lanes 0 1024

/-- Writes pd and D in every lane of the transaction, counts aborts, and closes it. -/
def Team.closeTx (t : Team) (x : Tx) (pd d : Nat) : Team :=
  let ls := x.allLanes
  let t' := ls.foldl (fun u l => u.setV d l (x.code (AMap.get 0 t.aborts l) l)) t
  let m := maskOf ls (fun l => x.reason l ≠ 0)
  { t' with
    p := if pd = 0 then t'.p else AMap.put 0#1024 t'.p pd ((t'.pmask pd &&& ~~~ x.lanes) ||| m)
    aborts := ls.foldl (fun a l => AMap.put 0 a l (x.abortsAfter (AMap.get 0 t.aborts l) l)) t'.aborts
    tx := none, hold := .none }

/-- Frees the tickets and locks that a party's transaction held. -/
def State.freeTx (s : State) (p : Party) (dev : Bool) : State :=
  let s : State := { s with
    locked := if dev then s.locked.filter (fun e => e.2 ≠ p) else s.locked
    ticket := if s.ticket = some p then none else s.ticket }
  s.modTask ((partyTask p).getD 0) (fun k =>
    { k with ticket := if (partyTask p).isSome && k.ticket = some (partyOrd p) then none else k.ticket })

/-- TX records: one per pass with a lane in the transaction, the committed lanes as its mask (R375, R378). -/
def txRecords (p : Party) (x : Tx) (stamp : Option Nat) : List Nat → State → Team → RecRes
  | [], s, t => .go s t
  | g :: gs, s, t =>
    if (x.groupOrder g).isEmpty then txRecords p x stamp gs s t
    else
      let mask := (span 0 32).foldl (fun n i => if AMap.find x.validated (32 * g + i) = some true then n + 2 ^ i else n) 0
      match endChunk s p t 2 (toBytes 4 mask) t.retired stamp with
      | .go s t => txRecords p x stamp gs s t
      | r => r

/-- The sectors of a committed lane, read and written, at the watchpoints, under the addresses that the lane formed (R393, R401). -/
def State.watchLane (s : State) (p : Party) (pc : Word64) (dev : Bool) (x : LaneTx) (l : Nat) : State :=
  (x.rdSec ++ x.wrSec).foldl (fun s sec =>
    let va := AMap.get (BitVec.ofNat 64 (32 * sec)) x.formed sec
    if dev then s.watchAt (accessor p pc false) (.glob (32 * sec)) true true va (va.toNat / 32 * 32) 32 l
    else s.watchAt (accessor p pc false) (.spd ((partyTask p).getD 0) (32 * sec)) true true va (32 * sec) 32 l) s

/-- A freeze that waited for the team's `txe` is complete (R391). -/
def State.frozenTx (s : State) (p : Party) : State :=
  match p with
  | .team tid ord => s.frozenOver tid ord
  | _ => s

/-- The winners that validated. -/
def Tx.wins (x : Tx) : List Nat := x.winners.filter (fun l => AMap.find x.validated l = some true)

/-- The last step of `txe`: the winners that validated commit as one (R264), a lane doomed by a fault whose reads then still hold
raises it (R137), and every lane gets its outcome; then the sequencing code acts. -/
def finishTxe (s : State) (p : Party) (t : Team) (x : Tx) (pd d seq : Nat) : Out :=
  let here (tr : TrapInfo) : TrapInfo := { tr with point := some t.retired }
  match s.commitLanes p x x.wins with
  | none => .next ((s.freeTx p x.dev).raiseTrap p t.ipc (here (trapOf 34 0#64 0)))
  | some s1 =>
    let fault := x.allLanes.findSome? (fun l =>
      match (x.lane l).fault with
      | some f => if s1.readsHold p x.dev (x.lane l) then some f else none
      | none => none)
    let s1 := x.wins.foldl (fun s l => s.watchLane p t.ipc x.dev (x.lane l) l) s1
    let c : State × Option Nat :=
      match partyTask p with
      | some tid =>
        if x.dev && !x.wins.isEmpty then
          let q := ((s1.hitMates tid (partyOrd p)).hitVersion tid).commitTask tid
          (q.1, some q.2)
        else (s1, none)
      | none => (s1, none)
    let c : State × Option Nat :=
      if c.2.isNone && s.recording (s.ctxOf p) then (c.1.drawStamp.1, some c.1.drawStamp.2) else c
    match txRecords p x c.2 (span 0 32) c.1 t with
    | .hold => .next s
    | .diverge s => .next s
    | .go s2 t2 =>
      match fault with
      | some (pc, tr) => .next (((s2.setTeam p t2).freeTx p x.dev).raiseTrap p pc tr)
      | none =>
        match seqAct seq none (s.breaks p) (t2.closeTx x pd d) with
        | .error e => .next ((s2.freeTx p x.dev).raiseTrap p t.ipc (here (trapOf e.code e.addr e.detail)))
        | .ok t3 =>
          let s3 := (s2.setTeam p t3).freeTx p x.dev
          .next ((s3.frozenTx p).settle p)

/-- The comparisons as they stand at the commit, in the order of R137: each winner is compared with what the winners before it
leave, so a lane that has read a sector which a winner of a lower group writes aborts (R137, R264; log 32). -/
def Tx.recheckFrom (p : Party) (x : Tx) : List Nat → State → List (Nat × Bool)
  | [], _ => []
  | l :: ls, s =>
    let ok := AMap.find x.validated l = some true && s.passesCheck p x l
    (l, ok) :: Tx.recheckFrom p x ls (if ok then (s.commitLane p x.dev (x.lane l)).getD s else s)

def Tx.recheck (s : State) (p : Party) (x : Tx) : Tx := { x with validated := Tx.recheckFrom p x x.winners s }

/-- The commit of a transaction waits for the validations that locked its sectors first, and for a pin on what its task's version
holds; the ticket's holder waits for neither (R264, R266; log 32). Every commit waits for the argument copy of a child that the task
has launched (R331). -/
def State.txBlocked (s : State) (p : Party) (x : Tx) : Bool :=
  let first (k : Party) : Nat := s.locked.findIdx (fun e => e.2 = k)
  let version := match s.taskOf p with
    | some k => k.version
    | none => []
  let other (q : Party) : Bool := if (partyTask p).isSome then partyTask q ≠ partyTask p else q ≠ p
  let writes := x.wins.flatMap (fun l => (x.lane l).wr)
  let vsecs := version.flatMap (fun w => sectorsOf w.extent.1 w.extent.2)
  let secs := vsecs ++ x.wins.flatMap (fun l => (x.lane l).wrSec)
  !x.wins.isEmpty &&
  (version.any (fun w => s.textHeld w.extent.1 w.extent.2) || writes.any (fun e => s.textHeld e.1 1) ||
   secs.any (fun a => s.regionBusy (32 * a) 32) ||
   (match s.taskOf p with
    | some k => k.teams.any (fun f => match f.2.hold with
      | .commit (.copy _) => true
      | _ => false)
    | none => false) ||
   (s.ticket ≠ some p &&
    (s.locked.any (fun e => other e.2 && secs.contains e.1 && first e.2 < first p) ||
     (match s.pinned with
      | some (h, pins) => other h && vsecs.any (fun a => pins.contains a)
      | none => false))))

/-- The party of a transaction: a team of a task, or the steward of a die (R51). -/
def txParty (task : Option Nat) (n : Nat) : Party :=
  match task with
  | some tid => .team tid n
  | none => .steward n

/-- TX_VALIDATION (R264): one winning lane's sectors are locked and compared; once every winner has been, and the team's
earlier accesses are performed, `txe` ends. -/
def execTxValidation (task : Option Nat) (ord lane : Nat) (s : State) : Out :=
  let p := txParty task ord
  match s.team? p with
  | none => .next s
  | some t => match t.hold, t.tx with
    | .txe pd d seq, some x =>
      let waits := match s.logged p with
        | some r => r.kind = 2 && !s.inTurn r
        | none => false
      if !s.acting p || t.memBusy || waits then .next s
      else if x.winners.all (fun l => (AMap.find x.validated l).isSome) then
        let x := Tx.recheck s p x
        (if x.dev && s.txBlocked p x then .next s else finishTxe s p t x pd d seq)
      else if x.winners.contains lane && (AMap.find x.validated lane).isNone then
        .next (validateLane s p lane t x)
      else .next s
    | _, _ => .next s

/-- TICKET_GRANT (R138): the free ticket of a domain goes to the first team waiting for it, whose `txb` may then begin. -/
def execTicketGrant (dev : Bool) (task : Nat) (s : State) : Out :=
  if dev then
    match s.ticket, s.ticketQ with
    | none, p :: rest => .next { s with ticket := some p, ticketQ := rest }
    | _, _ => .next s
  else
    match s.task? task with
    | none => .next s
    | some k => match k.ticket, k.ticketQ with
      | none, o :: rest => .next (s.setTask task { k with ticket := some o, ticketQ := rest })
      | _, _ => .next s

end Sys2Proof.Machine
end

