-- ==== Sys2Proof/Machine/Package.lean ====
section
/-!
DEFINITION. The package: leases and the lease clock (R267 to R269), translation invalidations (R273, R274), bias and replicas
(R276 to R279), code generations (R323), power and clocks (R449 to R451), boot (R447), cores and dies that fail (R452, R453), and
reads of registers that a read changes (R273, R432, R440).
-/

namespace Sys2Proof.Machine

/-! ## Reads that clear (R273, R432, R440) -/

/-- A read of a register returns its value. -/
def State.returns (s : State) (off width : Nat) : State :=
  { s with readData := some (toBytes width (s.readReg off width)) }

/-- TINVS_READ (R273): full and error are cleared. -/
def execTinvsRead (s : State) : Out := .next { s.returns rTINVS 4 with tinvFull := false, tinvErr := false }

/-- LAPSE_READ (R432): the oldest lapsed region is removed. -/
def execLapseRead (s : State) : Out := .next { s.returns rLAPSE 8 with lapse := s.lapse.drop 1 }

/-- DSTAT_READ (R432): err is cleared. -/
def execDstatRead (s : State) : Out := .next { s.returns 0 4 with devErr := false }

/-- CSTAT_READ (R432): chbrk and err are cleared. -/
def execCstatRead (ctx : Nat) (s : State) : Out :=
  .next ((s.returns (ctxPage ctx 0) 4).modCtx ctx (fun k => { k with chbrk := false, err := false }))

/-- MBSTAT_READ (R440): rej is cleared. -/
def execMbstatRead (ctx : Nat) (s : State) : Out :=
  .next ((s.returns (ctxPage ctx oMBSTAT) 8).modCtx ctx (fun k => { k with subRej := false }))

/-! ## Requests for replacement (R453) -/

/-- Sets a die's bit of REPLREQ, with its cause, and raises the MSI when the register changes. -/
def State.replaceDie (s : State) (die : Nat) (spares : Bool) : State :=
  let v := (s.reg rREPLREQ).toNat
  let w := v ||| 2 ^ die ||| (if spares then 2 ^ (8 + die) else 0)
  if w = v then s else (s.setReg rREPLREQ (BitVec.ofNat 64 w)).raiseDevice 1

/-- The kind and number under which `probe` names a part (R178), and its H-die: slices 0 to 63 and stacks 0 to 5 lie at H0, die 4,
the others at H1 (R230, R279). -/
def partUnit : DiePart → Nat × Nat
  | .slice n => (2, n)
  | .stack n => (3, n)
def partDie : DiePart → Nat
  | .slice n => 4 + sliceDie n
  | .stack n => 4 + n / 6

/-- REPLACE_REQUESTED (R453): an L3 slice or an HBM4 stack has crossed its threshold, and so is in error (R178). -/
def execReplaceRequested (part : DiePart) (s : State) : Out :=
  let (kind, n) := partUnit part
  if unitCount kind ≤ n then .next s
  else .next ((s.setUnit kind n { s.unit kind n with error := true }).replaceDie (partDie part) false)

/-- The core map has shrunk: logs and choreographies from before are invalid (R452). -/
def State.shrink (s : State) : State := { s with shrunk := some s.stamp, recorded := [] }

/-! ## Leases -/

/-- LEASE_RENEW (R268). -/
def execLeaseRenew (agent : Nat) (s : State) : Out :=
  .next { s with leases := s.leases.map (fun x => if x.agent = agent then { x with renewed := s.time } else x) }

/-- A lease of 1,000 µs that was not renewed in time (R268). -/
def Lease.expired (x : Lease) (now : Nat) : Bool := x.renewed + 100000 ≤ now

/-- A task that is not finished has touched the region since the lease was granted (R268). -/
def Task.touchedIn (k : Task) (x : Lease) : Bool :=
  !k.finished && k.touched.any (fun e => x.covers e.1 && x.granted ≤ e.2)

/-- One expired lease: the agent's newer lines revert, the region is listed, and the tasks that used it are reported. A LEASE_LOST
record's address field holds the region (R268): DESIGN CHOICE, its base alone (log 57). -/
def State.lapseLease (s : State) (x : Lease) : State :=
  let lost := s.dirty.filter (fun d => d.agent = x.agent && x.base ≤ d.addr && d.addr < x.base + x.size)
  let s := lost.foldl (fun s d => s.poke d.addr d.data) s
  let s : State := { s with dirty := s.dirty.filter (fun d => !lost.contains d), leases := s.leases.filter (fun y => y ≠ x) }
  let s := if s.lapse.isEmpty then s.raiseDevice 0 else s
  let s : State := { s with lapse := s.lapse ++ [(x.base, log2Of 64 x.size)] }
  let hit := s.tasks.filter (fun e => e.2.touchedIn x || (x.agent < 4 && !e.2.finished && e.2.resident && dieOf e.2.core = x.agent))
  hit.foldl (fun s e => s.loseTask (hit.map (·.1)) e.1 65 (BitVec.ofNat 64 x.base)) s

/-- LEASE_EXPIRY (R268): an agent's leases that were not renewed lapse; a C-die is lost with them (R452, R453). -/
def execLeaseExpiry (agent : Nat) (s : State) : Out :=
  let xs := s.leases.filter (fun x => x.agent = agent && x.expired s.time)
  if xs.isEmpty then .next s
  else
    let s := xs.foldl State.lapseLease s
    if agent < 4 then
      .next (((span (32 * agent) 32).foldl (fun s c => s.modCore c (fun k => { k with retired := true })) s).replaceDie agent
        false).shrink
    else .next s

/-- REGION_MERGE (R267): two sibling regions in one state, without a conflicting request for 1 ms, are one region again. -/
def execRegionMerge (base size : Nat) (s : State) : Out :=
  let half := size / 2
  let los := s.leases.filter (fun x => x.base = base && x.size = half)
  let his := s.leases.filter (fun x => x.base = base + half && x.size = half)
  let twin (xs : List Lease) (x : Lease) : Option Lease := xs.find? (fun y => y.agent = x.agent && y.owned = x.owned)
  let quiet := (los ++ his).all (fun x => x.granted + 100000 ≤ s.time)
  if half < 128 || 65536 < size || base % size ≠ 0 || size % 2 ≠ 0 || los.isEmpty || !quiet ||
      !los.all (fun x => (twin his x).isSome) || !his.all (fun x => (twin los x).isSome) then .next s
  else
    let merged := los.filterMap (fun x => (twin his x).map (fun y => { x with
      size := size, granted := min x.granted y.granted, renewed := min x.renewed y.renewed, lines := x.lines ++ y.lines }))
    .next { s with leases := merged ++ s.leases.filter (fun x => !los.contains x && !his.contains x) }

/-- An event does something. -/
def moves (s : State) : Out → Bool
  | .next s' => decide (s' ≠ s)
  | _ => true

/-- What a party's held word has under way can go on now: its commit, its transaction's validation, its walk. -/
def State.holdMoves (s : State) (p : Party) (t : Team) : Bool :=
  match t.hold with
  | .commit _ => moves s (execCommit p s)
  | .walk _ _ _ => moves s (execTlbWalkEnd p s)
  | .txe _ _ _ =>
    let o := match p with
      | .steward d => d
      | _ => partyOrd p
    (0 :: (t.tx.map Tx.winners).getD []).any (fun l => moves s (execTxValidation (partyTask p) o l s))
  | _ => false

/-- A request in flight can go on to its home now: an access, a held word's, an engine's or collective's, or a fetch of a lead queue;
one that waits for what only a later instruction ends has come as far as it can (R269). -/
def State.inFlight (s : State) : Bool :=
  s.cores.any (fun e =>
    (span 0 3).any (fun g => moves s (execEngineOperationRun e.1 g 1 s)) ||
    (e.2.engines.flatMap (·.2) ++ e.2.colls).any (fun o => moves s (execEngineCompletion e.1 o.seq s))) ||
  s.ctxs.any (fun e => e.2.groups.any (fun g => moves s (execCollectiveCombine e.1 g.1 [] s))) ||
  s.streams.any (fun x => s.holdMoves x.1 x.2 ||
    x.2.pend.any (fun y => !y.done && (match y.kind with
      | .mem m => moves s (execLoadResultWrite x.1 y.id s) || moves s (execStorePerformed x.1 y.id s) ||
          (span 0 m.reqs.length).any (fun r => moves s (execAtomicRequestExecute x.1 y.id r s))
      | .matrix (.mld _) _ _ _ _ | .matrix (.mdrain _ (.mem _ _)) _ _ _ _ => moves s (execMatrixWordComplete x.1 y.id s)
      | _ => false)) ||
    x.2.leadQ.any (fun e => match e with
      | .ld id _ _ _ | .ob id _ _ _ _ _ _ => moves s (execLeadFetchComplete ((partyTask x.1).getD 0) (partyOrd x.1) id 1 s)
      | .val _ => false))

/-- LEASE_CLOCK_WRAP (R269): after 2^32 µs issue stops: every running team's chunk ends and the pause is logged. Once what is in
flight has drained, every leased line is written back and dropped, the count restarts and issue resumes. -/
def execLeaseClockWrap (s : State) : Out :=
  if s.wrapping then
    if s.inFlight then .next s
    else .next { s.l1Drop (fun _ => true) with leases := [], dirty := [], leaseZero := s.time, wrapping := false }
  else if s.time < s.leaseZero + 2 ^ 32 * 100 then .next s
  else
    let running := s.allTeams.filter (fun x => x.2.2.1.resident && !x.2.2.2.released && x.2.2.2.freeze = .no)
    let s := running.foldl (fun s x => s.cutChunk (.team x.1 x.2.1) 5) s
    let s := (span 0 64).foldl (fun s c => s.note (16 + Config.frontEnd c % 2) c 7 0xFFFF none (varint 3 16392)) s
    .next { s with wrapping := true }

/-! ## Code generations (R323) -/

/-- A write from outside to [pa, …): it waits if it reaches the text of a kernel with running grids, or overlaps a write that
waits. -/
def State.outsideWrite (s : State) (pa : Nat) (data : List Byte) : State :=
  match s.kernels.find? (fun k => (s.textAt k pa data.length && s.kernelRuns k) ||
      k.writes.any (fun w => w.1 < pa + data.length && pa < w.1 + w.2.length)) with
  | some k => { s with kernels := s.kernels.map (fun q =>
      if q.ctx = k.ctx && q.code = k.code then { q with writes := q.writes ++ [(pa, data)] } else q) }
  | none => s.commitBytes pa data

/-- CODE_GENERATION_RAISE (R323): with no grid of the kernel running, the writes to its text that waited land, in order; one that
reaches another running kernel's text too waits on for that. -/
def execCodeGenerationRaise (ctx : Nat) (code : Word64) (s : State) : Out :=
  match s.kernels.find? (fun k => k.ctx = ctx && k.code = code) with
  | none => .next s
  | some k =>
    if k.writes.isEmpty || s.kernelRuns k then .next s
    else
      let s : State := { s with kernels := s.kernels.map (fun q => if q = k then { q with writes := [] } else q) }
      .next (k.writes.foldl (fun s w => s.outsideWrite w.1 w.2) s)

/-! ## Invalidations (R273, R274) -/

/-- The places that an outstanding operation has translated and not yet reached. -/
def Pend.places (x : Pend) : List (Loc × Nat) :=
  if x.done then []
  else match x.kind with
    | .mem m => m.accs.map (fun a => (a.loc, m.bytes))
    | .matrix (.mld rows) _ _ _ _ => rows.map (fun a => (a.loc, a.data2.toNat))
    | .matrix (.mdrain _ (.mem _ rows)) _ _ _ _ => rows.map (fun a => (a.loc, a.data2.toNat))
    | _ => []

/-- The same of a fetch of a lead queue. -/
def LeadEntry.places : LeadEntry → Option (Nat × List (Loc × Nat))
  | .ld id a none _ => some (id, [(a.loc, 4)])
  | .ob id _ _ parts copied total _ => if copied < total then some (id, parts.map (fun e => (.glob e.1, e.2))) else none
  | _ => none

/-- The places in memory that an engine operation has translated for bytes it has not yet given to its task's version. -/
def EngOp.places (o : EngOp) : List (Loc × Nat) :=
  o.out.filterMap (fun e => match e.1 with
    | .mem l => some (l, 1)
    | .ob _ => none)

/-- The number under which the buffered stores of an open `txb.dev` are a request of its team. -/
def txRequest : Nat := 2 ^ 40

/-- Requests under way in the whole device, with the places they are for (R274, R279): those of every code stream, fetches of lead
queues, the buffered stores of open transactions, and the bytes of engine operations; what a suspended operation has written
stands by for it and is under way no more (log 55). -/
def State.requestsAway (s : State) : List ((Party × Nat) × List (Loc × Nat)) :=
  s.streams.flatMap (fun x =>
    (x.2.pend.map (fun y => ((x.1, y.id), y.places))).filter (fun r => !r.2.isEmpty) ++
    (x.2.leadQ.filterMap LeadEntry.places).map (fun e => ((Party.lead ((partyTask x.1).getD 0) (partyOrd x.1), e.1), e.2)) ++
    (match x.2.tx with
     | some y =>
       let wr := if y.dev then y.tx.flatMap (fun l => l.2.wr.map (fun b => (Loc.glob b.1, 1))) else []
       if wr.isEmpty then [] else [((x.1, txRequest), wr)]
     | none => [])) ++
  s.cores.flatMap (fun e => ((e.2.engines.flatMap (·.2) ++ e.2.colls).filter (fun o => o.fault.isNone && !o.places.isEmpty)).map
    (fun o => ((o.party, o.op), o.places)))

/-- Requests under way, by party and number. -/
def State.underWay (s : State) : List (Party × Nat) := s.requestsAway.map (·.1)

/-- A request named so is still under way. -/
def State.isUnderWay (s : State) (w : Party × Nat) : Bool := s.underWay.contains w

/-- Requests under way to [pa, pa + n) of memory (R279). -/
def State.underWayTo (s : State) (pa n : Nat) : List (Party × Nat) :=
  (s.requestsAway.filter (fun r => r.2.any (fun e => e.1.meets e.2 (.glob pa) n))).map (·.1)

/-- A TINV value's fields. -/
def tinvOp (v : Nat) : Nat := nbits v 0 3
def tinvCtx (v : Nat) : Nat := nbits v 6 6
def tinvPage (v : Nat) : Nat := v / 4096 * 4096

/-- A page lies in a span, its base and size. -/
def inSpan (r : Nat × Nat) (page : Nat) : Bool := r.1 ≤ page && page < r.1 + r.2

/-- A TLB entry that an invalidation covers: one made from a leaf of its stage, of any size, that holds the page (R273). -/
def TlbEntry.covered (e : TlbEntry) (v : Nat) : Bool :=
  match tinvOp v with
  | 0 => e.ctx = tinvCtx v
  | 1 => e.ctx = tinvCtx v && inSpan e.vs (tinvPage v)
  | 2 => true
  | _ => e.ctx = tinvCtx v && inSpan e.gs (tinvPage v)

/-- An invalidation covers a page of a kernel's text, through a leaf of any size that maps it now or did when a grid of it was
launched (R273, R323). -/
def State.tinvCode (s : State) (v : Nat) (k : Kernel) : Bool :=
  let leaves := k.spans ++ s.textSpans k.ctx k.code
  match tinvOp v with
  | 0 => k.ctx = tinvCtx v
  | 1 => k.ctx = tinvCtx v && ((textVas k.ctx k.code).contains (tinvPage v) || leaves.any (fun l => inSpan l.1 (tinvPage v)))
  | 2 => true
  | _ => k.ctx = tinvCtx v && leaves.any (fun l => inSpan l.2 (tinvPage v))

/-- A write of TINV (R273, R274): rejected when 15 are pending, ignored with a reserved op or bit, else its entries go at once
and it waits for the requests of earlier generations. -/
def State.tinv (s : State) (v : Nat) : State :=
  if nbits v 3 3 ≠ 0 || 3 < tinvOp v then { s with tinvErr := true }
  else if 15 ≤ s.invals.length then { s with tinvFull := true }
  else
    let gen := (s.transGen + 1) % 16
    let x : Inval := { op := tinvOp v, ctx := tinvCtx v, page := tinvPage v, gen := gen, waits := s.underWay }
    { s with
      cores := AMap.mapVals (fun _ c => { c with tlb := c.tlb.filter (fun e => !e.covered v) }) s.cores
      clusters := AMap.mapVals (fun _ c => { c with tlb := c.tlb.filter (fun e => !e.covered v) }) s.clusters
      kernels := s.kernels.map (fun k => if s.tinvCode v k then { k with gen := k.gen + 1 } else k)
      transGen := gen, invals := s.invals ++ [x] }

/-- TINV_CONTEXT (R274): op 0. A value with a reserved op or bit is taken here too. -/
def execTinvContext (value : Word64) (s : State) : Out :=
  let v := value.toNat
  if tinvOp v = 0 || 3 < tinvOp v then .next (s.tinv v) else .next s

/-- TINV_PAGE (R274): op 1. -/
def execTinvPage (value : Word64) (s : State) : Out := if tinvOp value.toNat = 1 then .next (s.tinv value.toNat) else .next s

/-- TINV_ALL (R274): op 2. -/
def execTinvAll (value : Word64) (s : State) : Out := if tinvOp value.toNat = 2 then .next (s.tinv value.toNat) else .next s

/-- TINV_GSTAGE (R274): op 3. -/
def execTinvGstage (value : Word64) (s : State) : Out := if tinvOp value.toNat = 3 then .next (s.tinv value.toNat) else .next s

/-- INVALIDATION_COMPLETE (R274): the oldest invalidation, once no request of an earlier generation is under way. -/
def execInvalidationComplete (s : State) : Out :=
  match s.invals with
  | [] => .next s
  | x :: rest =>
    if x.waits.any s.isUnderWay then .next s
    else
      let s : State := { s with invals := rest }
      .next (if x.op = 2 then
          (span 0 64).foldl (fun s c => if nbit (s.creg c oCTXCFG) 0 then s.raise c 3 else s) s
        else s.raise x.ctx 3)

/-! ## Bias and replicas -/

/-- The fault and service rings take the entries that a changing region has held back. -/
def State.drainRings (s : State) : State :=
  s.ctxs.foldl (fun s e =>
    let s := s.drainFaults e.1 (s.ctx e.1).heldFaults.length
    s.drainSvc e.1 (s.ctx e.1).heldSvc.length) s

/-- BIAS_FLIP (R277): a write of BFLIP with go set begins a flip. -/
def execBiasFlip (value : Word64) (s : State) : Out :=
  let v := value.toNat
  if nbits v 2 14 ≠ 0 || nbit (s.reg rBFLIP).toNat 0 then .next s.setDevErr
  else .next (s.setReg rBFLIP value)

/-- BIAS_FLIP_DONE (R277): the losing side's lines of the block are written back and dropped, and the bit changes. -/
def execBiasFlipDone (s : State) : Out :=
  let v := (s.reg rBFLIP).toNat
  if !nbit v 0 then .next s
  else
    let base := v / 2 ^ 16 * 2 ^ 16
    let device := nbit v 1
    let dirty := if device then s.dirty.filter (fun d => d.addr / 2 ^ 16 ≠ base / 2 ^ 16) else s.dirty
    let leases := if device then s.leases.filter (fun x => !(4 ≤ x.agent && base ≤ x.base && x.base < base + 2 ^ 16)) else
      s.leases.filter (fun x => !(x.agent < 4 && base ≤ x.base && x.base < base + 2 ^ 16))
    let s := if device then s else s.l1Drop (fun l => l / 512 = base / 2 ^ 16)
    .next (State.drainRings { s.setReg rBFLIP (BitVec.ofNat 64 (v - 1)) with
      bias := AMap.put false s.bias (base / 2 ^ 16) device, dirty := dirty, leases := leases })

/-- Bytes of a range register's size field, and its base (R279). -/
def rangeSize (v : Nat) : Nat := 2 ^ nbits v 2 6 * 2 ^ 16
def rangeBase (v : Nat) : Nat := v / 2 ^ 16 * 2 ^ 16

/-- A mark of range `n` is legal: aligned bases, at most 64 GiB, primary and replica each behind one H-die and not the same,
and no overlap with another valid range (R279). -/
def State.markOk (s : State) (n v : Nat) : Bool :=
  let size := rangeSize v
  let lo := rangeBase v
  let dst := rangeBase (s.reg (rRPLSEC n)).toNat
  let apart (a b len : Nat) : Bool := a + size ≤ b || b + len ≤ a
  nbits v 8 8 = 0 && nbits v 2 6 ≤ 20 && lo % size = 0 && dst % size = 0 && lo + size ≤ memorySize && dst + size ≤ memorySize &&
  hdieOf lo = hdieOf (lo + size - 1) && hdieOf dst = hdieOf (dst + size - 1) && hdieOf lo ≠ hdieOf dst &&
  (span 0 256).all (fun m =>
    let w := (s.reg (rRPLPRI m)).toNat
    let p := rangeBase w
    let r := rangeBase (s.reg (rRPLSEC m)).toNat
    let len := rangeSize w
    m = n || w % 4 = 0 || (apart lo p len && apart lo r len && apart dst p len && apart dst r len))

/-- REPLICA_MARK (R279): a write of RPLPRI with valid set. -/
def execReplicaMark (n : Nat) (value : Word64) (s : State) : Out :=
  let v := value.toNat
  if !nbit v 0 || 256 ≤ n then .next s
  else if (s.reg (rRPLPRI n)).toNat % 4 ≠ 0 || !s.markOk n v then .next s.setDevErr
  else .next (s.setReg (rRPLPRI n) (BitVec.ofNat 64 (rangeBase v + nbits v 2 6 * 4 + 2)))

/-- REPLICA_UNMARK (R279): a write of RPLPRI that clears valid; the accesses in flight to the range are waited for. -/
def execReplicaUnmark (n : Nat) (value : Word64) (s : State) : Out :=
  let old := (s.reg (rRPLPRI n)).toNat
  if nbit value.toNat 0 || !nbit old 0 || 256 ≤ n then .next s
  else if nbit old 1 || nbits value.toNat 8 8 ≠ 0 then .next s.setDevErr
  else .next { s.setReg (rRPLPRI n) (BitVec.ofNat 64 (old + 2)) with
    unmarks := AMap.put [] s.unmarks n (s.underWayTo (rangeBase old) (rangeSize old)) }

/-- Memory with the bytes of a range copied to another place. -/
def copyRange (m : AMap Byte) (lo dst size : Nat) : AMap Byte :=
  (m.filter (fun e => lo ≤ e.1 && e.1 < lo + size)).foldl (fun m e => writeByte m (dst + (e.1 - lo)) e.2)
    (m.filter (fun e => !(dst ≤ e.1 && e.1 < dst + size)))

/-- REPLICA_BUSY_CLEAR (R279): a marked range has been copied and valid reads 1; one that is unmarked is dropped once the accesses
that were in flight to it have reached their home. -/
def execReplicaBusyClear (n : Nat) (s : State) : Out :=
  let v := (s.reg (rRPLPRI n)).toNat
  if !nbit v 1 || 256 ≤ n then .next s
  else if nbit v 0 then
    if (AMap.get [] s.unmarks n).any s.isUnderWay then .next s
    else .next { s.setReg (rRPLPRI n) (BitVec.ofNat 64 (v - 3)) with unmarks := AMap.put [] s.unmarks n [] }
  else
    let dst := rangeBase (s.reg (rRPLSEC n)).toNat
    let s := s.cleanse (Site.inMem dst (rangeSize v))
    .next (State.drainRings (State.setReg { s with mem := copyRange s.mem (rangeBase v) dst (rangeSize v) } (rRPLPRI n)
      (BitVec.ofNat 64 (v - 1))))

/-! ## Power (R369, R449 to R451) -/

/-- A context of level 2 has a resident cohort. -/
def State.locked2 (s : State) : Bool := s.tasks.any (fun e => e.2.resident && !e.2.finished && (s.ctx e.2.ctx).level.level = 2)

/-- Every resident task of each level-2 context takes POWER_LIMIT at its next boundary (R369). -/
def State.stopLocked (s : State) (watts : Nat) : State :=
  (s.tasks.filter (fun e => e.2.resident && !e.2.finished && (s.ctx e.2.ctx).level.level = 2)).foldl (fun s e =>
    match s.team? (.team e.1 0) with
    | some t => s.raiseTrap (.team e.1 0) (s.standsAt (.team e.1 0) t) (trapOf 35 0#64 watts)
    | none => s) s

/-- The clocks go 25 MHz down at the arithmetic clock, both together (R450). DESIGN CHOICE: 25 MHz is the last step; the spec says
of no clock that it stops (log 30). -/
def Power.down (p : Power) : Power :=
  if p.arith ≤ 25 then p else { p with arith := p.arith - 25, uncore := p.uncore - 50 }

/-- 1 ms or more has passed since a time, if there is one. -/
def State.overdue (s : State) (since : Option Nat) : Bool := since.any (fun t => decide (t + 100000 ≤ s.time))

/-- POWER_LIMIT_EXCEEDED: the power has exceeded a limit for 1 ms. Above spwl, level-2 tasks stop (R369); above PWRLIM, the clocks
step down, or the shares of levels 0 and 1 are halved while a level-2 context is resident (R450). -/
def execPowerLimitExceeded (watts : BitVec 12) (s : State) : Out :=
  let w := watts.toNat
  let q := (State.judgePower { s with power := { s.power with now := w } }).crossing
  let hot := q.overdue q.power.above
  let stop := q.locked2 && q.overdue q.power.overSpwl
  if !hot && !stop then .next q
  else
    let p : Power := { q.power with above := if hot then some q.time else q.power.above
                                    overSpwl := if stop then some q.time else q.power.overSpwl }
    let p : Power := if !hot then p else if q.locked2 then { p with halved := p.halved + 1 } else p.down
    let q : State := { q with power := p }
    .next (if stop then q.stopLocked w else q)

/-- CLOCK_STEP (R450): 1 ms after the last step, down while the power stays above the limit and no level-2 context is resident;
up once it has stayed 5 % below for 1 ms. What was halved is restored (log 30). -/
def execClockStep (up : Bool) (s : State) : Out :=
  let p := s.power
  if up then
    match p.below with
    | none => .next s
    | some t =>
      if s.time < t + 100000 then .next s
      else
        let q : Power := { p with below := some s.time, halved := p.halved - 1, arith := min 600 (p.arith + 25)
                                  uncore := min 1200 (p.uncore + 50) }
        .next { s with power := { q with monitor := q.monitor && q.arith < 600 } }
  else
    match p.above with
    | none => .next s
    | some t =>
      if s.time < t + 100000 || s.locked2 then .next s else .next { s with power := { p.down with above := some s.time } }

/-- POWER_MONITOR_TRIP (R451): a die's monitor has seen more than 2,800 W for 100 µs; level-2 tasks stop, then the clocks fall. -/
def execPowerMonitorTrip (die : Nat) (watts : BitVec 12) (s : State) : Out :=
  if watts.toNat ≤ 2800 || 6 ≤ die then .next s
  else
    let s := s.stopLocked watts.toNat
    .next { s with power := { s.power.down with monitor := true } }

/-- PWRNOW_CROSSED_PWRLIM (R436, R449): the averaged power crosses the limit. -/
def execPwrnowCrossedPwrlim (watts : BitVec 12) (s : State) : Out :=
  .next (State.judgePower { s with power := { s.power with now := watts.toNat } }).crossing

/-! ## Boot (R447) -/

/-- DEVICE_RESET (R447): every part at its reset value; with a verified image the device comes up, else it is in recovery. The
counter of free values goes on. -/
def execDeviceReset (flash ed mld : Bool) (s : State) : Out :=
  let ok := flash && ed && mld
  .next { State.reset with
    agenda := s.agenda, tick := s.tick
    boot := { up := ok, ed := flash && ed, mld := flash && mld, recovered := false, recovery := !ok } }

/-- RECOVERY_IMAGE_LOAD (R447): an image received over I3C in recovery runs only if both signatures verify. -/
def execRecoveryImageLoad (ed mld : Bool) (s : State) : Out :=
  if !s.boot.recovery then .next s
  else .next { s with boot :=
    { up := ed && mld, ed := ed, mld := mld, recovered := ed && mld, recovery := !(ed && mld) } }

/-! ## Failing cores (R452) -/

/-- CORE_RETIRE (R452): a physical core has crossed its threshold; its logical core takes no new cohort. -/
def execCoreRetire (phys : Nat) (s : State) : Out :=
  if 136 ≤ phys then .next s
  else
    let s := s.setUnit 1 phys { s.unit 1 phys with error := true }
    .next ((span 0 128).foldl (fun s c =>
      if (s.core c).phys = phys && !(s.core c).retired then s.modCore c (fun k => { k with retiring := true }) else s) s)

/-- SPARE_REMAP (R452, R453): with no resident cohort there, the logical core takes an unused spare of its die, or is retired. -/
def execSpareRemap (core : Nat) (s : State) : Out :=
  let k := s.core core
  if 128 ≤ core || !k.retiring || s.tasks.any (fun e => e.2.core = core && e.2.resident && !e.2.finished) then .next s
  else
    let die := dieOf core
    let spare := (s.steward die).spare
    if 0 < spare then
      .next ((s.modCore core (fun k => { k with phys := die * 34 + 34 - spare, retiring := false })).modSteward die
        (fun x => { x with spare := x.spare - 1 }))
    else
      let s := s.modCore core (fun k => { k with retired := true, retiring := false })
      .next ((s.setUnit 0 core { s.unit 0 core with present := false }).replaceDie die true).shrink

end Sys2Proof.Machine
end

