-- ==== Sys2Proof/Machine/Iommu.lean ====
section
/-!
DEFINITION. The IOMMU through which peers reach memory (R446): a register page for each root port, the device directory, the
translation of an access in two stages and of an MSI, and the command and fault queues. R446 takes all of it from the RISC-V IOMMU
specification, which is no part of this manual: PRESUMED (log 48). ATS, PRI and the process directory bring no access to memory.
-/

namespace Sys2Proof.Machine

/-! ## Registers -/

/-- The page of port 0; the others follow it (R446). -/
def ioBase : Nat := 0xFF01000000

/-- The register offsets that the model gives a meaning. -/
def ioDDTP : Nat := 0x10
def ioCQB : Nat := 0x18
def ioCQH : Nat := 0x20
def ioCQT : Nat := 0x24
def ioFQB : Nat := 0x28
def ioFQH : Nat := 0x30
def ioFQT : Nat := 0x34
def ioPQB : Nat := 0x38
def ioPQH : Nat := 0x40
def ioCQCSR : Nat := 0x48
def ioFQCSR : Nat := 0x4C
def ioPQCSR : Nat := 0x50
def ioIPSR : Nat := 0x54

/-- What is there: version 1.0, Sv57 and Sv57x4 with page-based memory types, MSI flat mode, ATS, 56-bit addresses. -/
def ioCapabilities : Nat := 0x10 + 2 ^ 11 + 2 ^ 15 + 2 ^ 19 + 2 ^ 22 + 2 ^ 25 + 56 * 2 ^ 32

/-- One of the 32-bit words that hold a port's registers, and a 64-bit register of two of them. -/
def State.io (s : State) (port off : Nat) : Nat := (AMap.get 0#32 s.ioRegs (1024 * port + off / 4)).toNat
def State.io64 (s : State) (port off : Nat) : Nat := s.io port off + 2 ^ 32 * s.io port (off + 4)
def State.setIo (s : State) (port off v : Nat) : State :=
  { s with ioRegs := AMap.put 0#32 s.ioRegs (1024 * port + off / 4) (BitVec.ofNat 32 v) }

/-- Base and number of entries of the queue that a base register describes. -/
def queueBase (v : Nat) : Nat := nbits v 10 44 * 4096
def queueSize (v : Nat) : Nat := 2 ^ (nbits v 0 5 + 1)

/-- Sets bits of a queue's status register, and with its interrupt enabled the queue's pending bit. -/
def State.ioFlag (s : State) (port csr bit pending : Nat) : State :=
  let v := s.io port csr
  let s := s.setIo port csr (v ||| 2 ^ bit)
  if nbit v 1 then s.setIo port ioIPSR (s.io port ioIPSR ||| 2 ^ pending) else s

/-! ## The command queue -/

/-- Carries out commands up to the tail; one of no known code, or one that cannot be read, stops the queue. The model caches no
translation, so invalidations have nothing to do; a fence stores its word. -/
def ioCommands (port : Nat) : Nat → State → State
  | 0, s => s
  | n + 1, s =>
    let cqb := s.io64 port ioCQB
    let head := s.io port ioCQH
    if !nbit (s.io port ioCQCSR) 16 || (s.io port ioCQCSR / 2 ^ 8 % 8 ≠ 0) || head = s.io port ioCQT then s
    else
      let at_ := queueBase cqb + 16 * head
      if memorySize < at_ + 16 then s.ioFlag port ioCQCSR 8 0
      else
        let w := readNat s.mem at_ 8
        let next (s : State) : State := ioCommands port n (s.setIo port ioCQH ((head + 1) % queueSize cqb))
        match nbits w 0 7, nbits w 7 3 with
        | 1, 0 | 1, 1 | 3, 0 | 3, 1 | 4, 0 | 4, 1 => next s
        | 2, 0 =>
          let a := readNat s.mem (at_ + 8) 8 * 4
          next (if nbit w 10 && a + 4 ≤ memorySize then s.outsideWrite a (toBytes 4 (w / 2 ^ 32)) else s)
        | _, _ => s.ioFlag port ioCQCSR 10 0

/-- A queue is switched on or off: on, its own end starts at 0 and its errors are cleared. -/
def State.ioQueue (s : State) (port csr own v : Nat) : State :=
  let old := s.io port csr
  let errors := (old / 2 ^ 8 % 8) &&& (7 - v / 2 ^ 8 % 8)
  if nbit v 0 && !nbit old 0 then (s.setIo port csr (v % 4 + 2 ^ 16)).setIo port own 0
  else s.setIo port csr (v % 4 + errors * 2 ^ 8 + (if nbit v 0 then 2 ^ 16 else 0))

/-- A write of one 32-bit word of a port's page. -/
def State.ioWriteWord (s : State) (port off v : Nat) : State :=
  let set (v : Nat) : State := s.setIo port off v
  if off = ioDDTP then
    set (v / 2 ^ 10 * 2 ^ 10 + (if v % 16 ≤ 4 then v % 16 else s.io port off % 16))
  else if off = ioCQB || off = ioFQB || off = ioPQB then set (v / 2 ^ 10 * 2 ^ 10 + v % 2 ^ 5)
  else if off = ioDDTP + 4 || off = ioCQB + 4 || off = ioFQB + 4 || off = ioPQB + 4 then set (v % 2 ^ 22)
  else if off = ioCQT then
    let n := queueSize (s.io64 port ioCQB)
    ioCommands port n (set (v % n))
  else if off = ioFQH then set (v % queueSize (s.io64 port ioFQB))
  else if off = ioPQH then set (v % queueSize (s.io64 port ioPQB))
  else if off = ioCQCSR then s.ioQueue port off ioCQH v
  else if off = ioFQCSR then s.ioQueue port off ioFQT v
  else if off = ioPQCSR then s.ioQueue port off (ioPQH + 4) v
  else if off = ioIPSR then set (s.io port off - (s.io port off &&& v))
  else if 0x2F8 ≤ off && off < 0x400 then set v
  else s

/-- An access of an application core to a port's page: aligned, of 4 or 8 bytes. -/
def ioPlace (addr n : Nat) : Option (Nat × Nat) :=
  if ioBase ≤ addr && addr + n ≤ ioBase + 4 * 4096 && (n = 4 || n = 8) && addr % n = 0 then
    some ((addr - ioBase) / 4096, addr % 4096)
  else none

/-- A store to the registers, the low word first. -/
def State.ioStore (s : State) (port off : Nat) (data : List Byte) : State :=
  let s := s.ioWriteWord port off (bytesAt data 0 4)
  if data.length = 8 then s.ioWriteWord port (off + 4) (bytesAt data 4 4) else s

/-- What a load of the registers returns. -/
def State.ioLoad (s : State) (port off n : Nat) : List Byte :=
  let word (o : Nat) : Nat := if o < 8 then ioCapabilities / 2 ^ (8 * o) % 2 ^ 32 else s.io port o
  toBytes 4 (word off) ++ (if n = 8 then toBytes 4 (word (off + 4)) else [])

/-! ## The device directory -/

/-- A device context, as far as it decides a translation. -/
structure DevCtx where
  quiet : Bool
  fsc : Nat
  iohgatp : Nat
  msiptp : Nat
  msiMask : Nat
  msiPattern : Nat
  deriving DecidableEq, Repr

/-- A leaf entry of the directory, in the extended format, or the cause of a fault. -/
def devCtxAt (m : AMap Byte) (a : Nat) : Except Nat DevCtx :=
  if memorySize < a + 64 then .error 257
  else
    let w (i : Nat) : Nat := readNat m (a + 8 * i) 8
    let tc := w 0
    let mode (v : Nat) : Bool := v / 2 ^ 60 = 0 || v / 2 ^ 60 = 10
    if !nbit tc 0 then .error 258
    else if nbits tc 12 12 ≠ 0 || tc / 2 ^ 32 ≠ 0 || w 7 ≠ 0 || (nbit tc 2 && !nbit tc 1) || nbit tc 3 || nbit tc 5 || nbits tc 7 2 ≠ 0 ||
        nbits tc 10 2 ≠ 0 || !mode (w 1) || !mode (w 3) || 1 < w 4 / 2 ^ 60 || (w 1 / 2 ^ 60 ≠ 0 && nbits (w 1) 0 2 ≠ 0) then .error 259
    else .ok { quiet := nbit tc 4, iohgatp := w 1, fsc := w 3, msiptp := w 4, msiMask := w 5 % 2 ^ 52, msiPattern := w 6 % 2 ^ 52 }

/-- Walks the directory from a table down to the device's entry. -/
def devCtxFrom (m : AMap Byte) (did : Nat) : Nat → Nat → Except Nat DevCtx
  | 0, table => devCtxAt m (table + 64 * (did % 64))
  | l + 1, table =>
    let a := table + 8 * (did / 2 ^ (6 + 9 * l) % 512)
    if memorySize < a + 8 then .error 257
    else
      let e := readNat m a 8
      if !nbit e 0 then .error 258
      else if nbits e 1 9 ≠ 0 || e / 2 ^ 54 ≠ 0 then .error 259
      else devCtxFrom m did l (nbits e 10 44 * 4096)

/-! ## Translation -/

/-- The leaf grants the access to a device: U, A, and R, or W with D. -/
def ioGrants (flags : Nat) (write : Bool) : Bool :=
  nbit flags 4 && nbit flags 6 && (if write then nbit flags 2 && nbit flags 7 else nbit flags 1)

/-- The second stage. -/
def ioSecond (m : AMap Byte) (iohgatp gpa : Nat) (write : Bool) : Except Nat Nat :=
  if iohgatp / 2 ^ 60 = 0 then .ok gpa
  else match walkG m iohgatp gpa with
    | some l => if ioGrants l.flags write then .ok (l.pa + gpa % l.size) else .error (if write then 23 else 21)
    | none => .error (if write then 23 else 21)

/-- The first stage, whose tables are read through the second. -/
def ioFirst (m : AMap Byte) (d : DevCtx) (iova : Nat) (write : Bool) : Except Nat Nat :=
  let xlat (a : Nat) : Option Nat := (ioSecond m d.iohgatp a false).toOption
  let page := if write then 15 else 13
  if d.fsc / 2 ^ 60 = 0 then .ok iova
  else if !canonicalVa iova then .error page
  else match walkFrom m xlat iova 9 4 (rootOf d.fsc) with
    | some l => if ioGrants l.flags write then .ok (l.pa + iova % l.size) else .error page
    | none =>
      let last := (walkSteps m xlat iova 9 4 (rootOf d.fsc)).getLast?
      .error (if last.any (fun a => (xlat a).isNone) then (if write then 23 else 21) else page)

/-- Bits of a page number that a mask selects, brought together. -/
def extractBits (v mask : Nat) : Nat → Nat
  | 0 => 0
  | n + 1 =>
    if mask = 0 then 0
    else if nbit mask 0 then v % 2 + 2 * extractBits (v / 2) (mask / 2) n
    else extractBits (v / 2) (mask / 2) n

/-- A write to a page of the guest's interrupt files goes through the flat MSI table. -/
def ioMsi (m : AMap Byte) (d : DevCtx) (gpa : Nat) : Option (Except Nat Nat) :=
  let page := gpa / 4096
  if d.msiptp / 2 ^ 60 ≠ 1 || (page ||| d.msiMask) ≠ (d.msiPattern ||| d.msiMask) then none
  else
    let a := nbits d.msiptp 0 44 * 4096 + 16 * extractBits page d.msiMask 52
    some (if memorySize < a + 16 then .error 261
      else
        let e := readNat m a 8
        if !nbit e 0 then .error 262
        else if nbits e 1 2 ≠ 3 || nbit e 63 || e / 2 ^ 54 ≠ 0 || nbits e 3 7 ≠ 0 then .error 263
        else .ok (nbits e 10 44 * 4096 + gpa % 4096))

/-- The device context that serves an access; none where the directory is bare. -/
def State.devCtx (s : State) (port did : Nat) : Except Nat (Option DevCtx) :=
  let v := s.io64 port ioDDTP
  match v % 16 with
  | 0 => .error 256
  | 1 => .ok none
  | n + 2 =>
    if did / 2 ^ (6 + 9 * n) ≠ 0 then .error 260
    else (devCtxFrom s.mem did n (queueBase v)).map some

/-- Translates one byte's address of a peer's access: its physical address, or the cause of the fault and whether it is reported. -/
def State.ioXlat (s : State) (port did iova : Nat) (write : Bool) : Except (Nat × Bool) Nat :=
  let reach (pa : Nat) : Except Nat Nat :=
    if pa < memorySize && !s.inReplica pa then .ok pa else .error (if write then 7 else 5)
  match s.devCtx port did with
  | .error c => .error (c, true)
  | .ok none => (reach iova).mapError (fun c => (c, true))
  | .ok (some d) =>
    ((ioFirst s.mem d iova write).bind (fun gpa => (match (if write then ioMsi s.mem d gpa else none) with
      | some r => r
      | none => ioSecond s.mem d.iohgatp gpa write).bind reach)).mapError (fun c => (c, !d.quiet))

/-- Translates the bytes of a peer's access: all of them, or the first that fails. -/
def State.ioBytes (s : State) (port did : Nat) (write : Bool) : Nat → Nat → Except (Nat × Nat × Bool) (List Nat)
  | _, 0 => .ok []
  | iova, n + 1 =>
    match s.ioXlat port did iova write with
    | .error e => .error (iova, e)
    | .ok pa => (State.ioBytes s port did write (iova + 1) n).map (fun l => pa :: l)

/-! ## The fault queue -/

/-- Reports a fault in the port's fault queue (R446): a full queue, or one that cannot be written, drops it and says so. -/
def State.ioFault (s : State) (port did cause iova : Nat) (write : Bool) : State :=
  let fqb := s.io64 port ioFQB
  let tail := s.io port ioFQT
  let csr := s.io port ioFQCSR
  let next := (tail + 1) % queueSize fqb
  let at_ := queueBase fqb + 32 * tail
  if !nbit csr 16 || csr / 2 ^ 8 % 4 ≠ 0 then s
  else if next = s.io port ioFQH then s.ioFlag port ioFQCSR 9 1
  else if memorySize < at_ + 32 then s.ioFlag port ioFQCSR 8 1
  else
    let head := cause + (if write then 3 else 2) * 2 ^ 34 + did % 2 ^ 24 * 2 ^ 40
    let s := (s.outsideWrite at_ (toBytes 8 head ++ toBytes 8 0 ++ toBytes 8 iova ++ toBytes 8 0)).setIo port ioFQT next
    if nbit csr 1 then s.setIo port ioIPSR (s.io port ioIPSR ||| 2) else s

/-- What becomes of a peer's access: the physical addresses of its bytes, or the state with its fault reported. -/
def State.peerAccess (s : State) (addr n : Nat) (write : Bool) : Except State (List Nat) :=
  let src := Config.peerSource s.tick
  let port := src.1 % 4
  match s.ioBytes port (src.2 % 2 ^ 24) write addr n with
  | .ok pas => .ok pas
  | .error (iova, cause, report) => .error (if report then s.ioFault port (src.2 % 2 ^ 24) cause iova write else s)

/-- The port through which a peer's access comes has trained (R445). -/
def State.peerUp (s : State) : Bool := AMap.get false s.pcie ((Config.peerSource s.tick).1 % 4)

end Sys2Proof.Machine
end

