-- ==== Sys2Proof/Machine/Placement.lean ====
section
/-!
DEFINITION. The distributor: which cohort is placed where (R195 to R197, R214, R215, R229, R355 to R357), the choreography
(R372, R373), DISPATCH records, swap-out and return (R339, R340), and the hand-over of device-side launches (R338).
-/

namespace Sys2Proof.Machine

/-! ## Room -/

/-- The partition of the team of ordinal `n` under base `b` (R195). -/
def partitionOf (b n : Nat) : Nat := 8 * (n % 4) + (b + n / 4) % 8

/-- Resident teams of a partition. -/
def State.load (s : State) (core part : Nat) : Nat := (s.residents core part).length

/-- The resident teams of the fullest target partition of a base. -/
def State.fullest (s : State) (core teams b : Nat) : Nat :=
  (span 0 teams).foldl (fun m n => max m (s.load core (partitionOf b n))) 0

/-- The base whose fullest target partition holds the fewest teams, the lowest on a tie (R356). -/
def State.bestBase (s : State) (core teams : Nat) : Nat :=
  (span 0 8).foldl (fun best b => if s.fullest core teams b < s.fullest core teams best then b else best) 0

/-- The lowest free slot of a partition. -/
def State.freeSlot (s : State) (core part : Nat) : Nat :=
  ((span 0 8).find? (fun i => !(s.residents core part).any (fun x => x.2.2.2.slot = i))).getD 8

/-- Scratchpad bytes of a core that no cohort holds. -/
def State.freeScratch (s : State) (core : Nat) : Nat :=
  786432 - ((s.tasks.filter (fun e => e.2.core = core && (e.2.resident || e.2.finished))).map (fun e => e.2.scratchSize)).sum

/-- Cohorts resident on a core. -/
def State.cohortsOn (s : State) (core : Nat) : Nat :=
  (s.tasks.filter (fun e => e.2.core = core && e.2.resident && !e.2.finished)).length

/-- R196 for a core and base: free slots, fewer than 64 cohorts, scratchpad. -/
def State.coreRoom (s : State) (core teams b scratch : Nat) : Bool :=
  s.fullest core teams b < 8 && s.cohortsOn core < 64 && scratch ≤ s.freeScratch core

/-- R196 for a core and the partitions and slots that a log names. -/
def State.slotsRoom (s : State) (core scratch : Nat) (slots : List (Nat × Nat)) : Bool :=
  slots.all (fun e => e.2 < 8 && !(s.residents core e.1).any (fun x => x.2.2.2.slot = e.2)) &&
  s.cohortsOn core < 64 && scratch ≤ s.freeScratch core

/-! ## Frames -/

/-- Bytes of a placed cohort's frame. -/
def Task.frameSize (k : Task) : Nat :=
  ((k.teams.map (fun f => 128 * f.2.budget * f.2.groups + 8192)).sum + k.scratchSize + 4095) / 4096 * 4096

/-- A frame lies in its context's pool and meets no other frame. -/
def State.frameFree (s : State) (c frame size : Nat) : Bool :=
  let base := s.creg c oCPOOLB
  frame % 4096 = 0 && base ≤ frame && frame + size ≤ base + s.creg c oCPOOLS * 2 ^ 21 &&
  !(s.tasks ++ s.log.snaps.flatMap (fun e => e.2.tasks)).any (fun e =>
    frame < e.2.frame + e.2.frameSize && e.2.frame < frame + size)

/-- The first place in the pool for a frame. -/
def State.findFrame (s : State) (c size : Nat) : Option Nat :=
  (s.creg c oCPOOLB :: (s.tasks ++ s.log.snaps.flatMap (fun e => e.2.tasks)).map (fun e =>
    e.2.frame + e.2.frameSize)).find? (fun a => s.frameFree c a size)

/-! ## Waits of swapped-out cohorts -/

/-- A team could stop waiting (R340), or does not wait: a replay swaps a cohort out as its log does, and its wait may not have begun
(R385). -/
def State.couldGo (s : State) (p : Party) (t : Team) : Bool :=
  match t.hold with
  | .park kind eq a c =>
    (match s.parkWord p kind a with
     | (s, .ok w) => parkWakes eq (s.parkValue p w) c
     | (s, .error .miss) => (match s.xlatNow (s.ctxOf p) .user .load a.toNat with
       | (s, .ok pa) => parkWakes eq (s.parkValue p (.at (.glob pa))) c
       | _ => true)
     | _ => true)
  | .recv _ | .full | .bar _ _ | .gbar _ _ => s.holdOver p t.hold
  | .none => true
  | _ => false

/-- A team waits in a park: its sequencing has acted, so it may have ended but for that. -/
def Team.parked (t : Team) : Bool :=
  match t.hold with
  | .park _ _ _ _ => true
  | _ => false

/-- A swapped-out cohort that may return. -/
def State.eligible (s : State) (tid : Nat) (k : Task) : Bool :=
  !k.resident && !k.finished && k.teams.any (fun f => (!f.2.ended || f.2.parked) && s.couldGo (.team tid f.1) f.2)

/-! ## Grids and their next cohorts -/

/-- The context may have cohorts placed (R411, R433, R383, R386, R451). -/
def State.mayPlace (s : State) (c : Nat) : Bool :=
  s.clocksFit c && !s.replayDead c &&
  nbit (s.creg c oCTXCFG) 0 && !nbit (s.creg c oPREEMPT) 0 && !(s.ctx c).snapPaused

/-- The context's launches may be engraved (R320). -/
def State.engraves (s : State) (c : Nat) : Bool := nbit (s.creg c oPLWIN) 0

/-- Start-up, test and recovery service (R215). -/
def State.startUp (s : State) (c : Nat) : Bool := nbits (s.creg c oCTXCFG) 4 2 = 1

/-- The cohorts a grid places next: one, or a whole gang in normal service (R214, R215); re-launched ones first (R262). -/
def State.nextCohorts (s : State) (x : Grid) : List Retry :=
  let head : Option Retry := match x.retry with
    | r :: _ => some r
    | [] => if x.next < x.record.cohorts then some { index := x.next, retries := 0 } else none
  match head with
  | none => []
  | some r =>
    if !x.started || !x.handed || !(x.settled || !s.engraves x.ctx) || x.complete || !s.mayPlace x.ctx then []
    else if s.startUp x.ctx then [r]
    else
      let m := x.record.gangSize
      let last := min (r.index / m * m + m) x.record.cohorts
      (span r.index (last - r.index)).map (fun i => { r with index := i })

/-- A context's issue share, halved under a power limit for contexts of levels 0 and 1 (R434, R450). -/
def State.issueShare (s : State) (c : Nat) : Nat :=
  let iss := nbits (s.creg c oCTXCFG) 8 8
  if (s.ctx c).level.level ≤ 1 then iss / 2 ^ s.power.halved else iss

/-- A grid's effective priority for the distributor (R355, R434). -/
def State.gridPriority (s : State) (x : Grid) : Nat :=
  let teams := s.allTeams.filter (fun y => y.2.2.1.resident && !y.2.2.2.released)
  let mine := (teams.filter (fun y => y.2.2.1.ctx = x.ctx)).length
  let sum := ((x.ctx :: teams.map (fun y => y.2.2.1.ctx)).eraseDups.map s.issueShare).sum
  if mine * sum < s.issueShare x.ctx * teams.length then min 3 (x.record.priority + 1) else x.record.priority

/-- Grid `a` is taken before grid `b` (R355): by priority, then in sequence order; between a child and a packet by launch
ordinal, and between contexts by number (log 24). -/
def State.before (s : State) (a : Nat) (x : Grid) (b : Nat) (y : Grid) : Bool :=
  let p := s.gridPriority x
  let q := s.gridPriority y
  q < p || (p = q &&
    (if x.ctx ≠ y.ctx then decide (a < b)
     else x.precedes y))

/-! ## Where -/

/-- A core may hold a new cohort of a grid, apart from room: it is in use and of the grid's fusion mode (R229, R452). -/
def State.coreUsable (s : State) (x : Grid) (core : Nat) : Bool :=
  let k := s.cluster (clusterOf core)
  k.fused = x.record.fuse && k.draining.isNone && !(s.core core).retired && !(s.core core).retiring

/-- A core takes no new cohort while a cohort may return to it (R340). -/
def State.promised (s : State) (core : Nat) : Bool := s.tasks.any (fun e => e.2.core = core && s.eligible e.1 e.2)

/-- A core may be given a new cohort of a grid under R355: it is also promised to no returning cohort, and not kept for a grid that
has waited 1 ms (R340, R355). -/
def State.coreOpen (s : State) (g : Nat) (x : Grid) (core : Nat) : Bool :=
  s.coreUsable x core && !s.promised core &&
  !s.grids.any (fun e => e.1 ≠ g && e.2.expired && !e.2.complete && e.2.lastCluster = some (clusterOf core) &&
    s.gridPriority x ≤ s.gridPriority e.2)

/-- The core of a cluster with the most free scratchpad among those allowed that have room (R356). -/
def State.coreIn (s : State) (g : Nat) (x : Grid) (allowed : Nat → Bool) (cluster : Nat) : Option Nat :=
  let n := x.record.teams
  let ok := (span (8 * cluster) 8).filter (fun c => allowed c && s.coreOpen g x c &&
    s.coreRoom c n (s.bestBase c n) x.record.scratch)
  ok.foldl (fun best c => match best with
    | none => some c
    | some b => if s.freeScratch b < s.freeScratch c then some c else some b) none

/-- Clusters in the order of R356, from the one that received the grid's previous cohort. -/
def clusterOrder (last : Option Nat) : List Nat :=
  let first := last.getD 0
  (span 0 16).map (fun i => (first + i) % 16)

/-- The core for a cohort (R356); a class-3 gang fills one die before the next (R357). -/
def State.chooseCore (s : State) (g : Nat) (x : Grid) (allowed : Nat → Bool) : Option Nat :=
  let order := clusterOrder x.lastCluster
  let order := if x.record.gangSize > 1 && x.record.gangClass = 3 then
      (span 0 4).flatMap (fun d => order.filter (fun k => k / 4 = d)) else order
  (order.filterMap (s.coreIn g x allowed)).head?

/-! ## Choreography (R372, R373) -/

/-- An entry's core and base, if it is for the given placement. -/
def entryFor (ordinal run : Nat) (r : Retry) (bs : List Byte) : Bool :=
  bytesAt bs 0 4 = ordinal && bytesAt bs 4 4 = r.index && bytesAt bs 10 2 = run && bytesAt bs 12 1 = r.retries

/-- The bytes of an entry. -/
def entryBytes (ordinal run : Nat) (r : Retry) (core base : Nat) : List Byte :=
  toBytes 4 ordinal ++ toBytes 4 r.index ++ toBytes 1 core ++ toBytes 1 base ++ toBytes 2 run ++ toBytes 1 r.retries ++
    toBytes 3 0

/-- What the choreography says of a placement. -/
inductive Choreo where
  | free
  | at (core base entry : Nat)
  | wait
  | broken
  deriving DecidableEq, Repr

/-- Looks for the first entry not yet followed that fits; one whose core has an earlier such entry waits. -/
def findEntry (c g ordinal run : Nat) (r : Retry) : Nat → Nat → List Nat → State → State × Choreo
  | 0, _, _, s => (s, .broken)
  | n + 1, i, cores, s =>
    let v := (s.ctx c).level
    if v.used.contains i then findEntry c g ordinal run r n (i + 1) cores s
    else match s.feGet c 6 g (v.choreo.toNat + 16 * i) 16 with
      | (s, .held) => (s, .wait)
      | (s, .denied) => (s, .broken)
      | (s, .ok bs) =>
        let core := bytesAt bs 8 1 % 128
        if entryFor ordinal run r bs then
          (s, if cores.contains core then .wait else .at core (bytesAt bs 9 1 % 8) i)
        else findEntry c g ordinal run r n (i + 1) (core :: cores) s

/-- The choreography's word on the placement of a cohort of a grid; one recorded before the core map shrank breaks (R452). -/
def State.choreoOf (s : State) (g : Nat) (x : Grid) (r : Retry) : State × Choreo :=
  let v := (s.ctx x.ctx).level
  if v.level = 2 && v.choreo ≠ 0#64 && v.bind && !v.broken then
    if s.shrunk.isSome && !s.recorded.contains (x.ctx, v.choreo.toNat) then (s, .broken)
    else findEntry x.ctx g x.ordinal x.run r v.capacity 0 [] s
  else (s, .free)

/-- CHBRK is set, with its interrupt (R373, R436). -/
def State.breakChoreo (s : State) (c : Nat) : State :=
  (s.modCtx c (fun k => { k with chbrk := true, level := { k.level with broken := true } })).raise c 5

/-- Follows or writes the entry of a placement; none while a write is held. -/
def State.noteChoreo (s : State) (g : Nat) (x : Grid) (r : Retry) (core base : Nat) (entry : Option Nat) :
    State × Bool :=
  let v := (s.ctx x.ctx).level
  match entry with
  | some i => (s.modCtx x.ctx (fun k => { k with level := { k.level with used := i :: k.level.used } }), true)
  | none =>
    if v.level ≠ 2 || v.choreo = 0#64 || v.bind || v.broken then (s, true)
    else if v.capacity ≤ v.entries then (s.breakChoreo x.ctx, true)
    else match s.fePut x.ctx 6 g (v.choreo.toNat + 16 * v.entries) (entryBytes x.ordinal x.run r core base) with
      | (s, .held) => (s, false)
      | (s, .denied) => (s.breakChoreo x.ctx, true)
      | (s, .ok _) =>
        let s : State := { s with recorded := (x.ctx, v.choreo.toNat) :: s.recorded.erase (x.ctx, v.choreo.toNat) }
        (s.modCtx x.ctx (fun k => { k with level := { k.level with entries := k.level.entries + 1 } }), true)

/-! ## Starting a cohort -/

/-- The teams of a cohort: role, `%team`. -/
def teamsOf (roles : List Role) : List (Nat × Nat) :=
  (span 0 roles.length).flatMap (fun r => match roles[r]? with
    | some q => (span 0 q.teams).map (fun i => (r, i))
    | none => [])

/-- The entry address of a role: the plate's when the grid runs engraved (R320). -/
def State.entryOf (s : State) (x : Grid) (role : Nat) (q : Role) : Word64 :=
  match if x.engraved then x.plate.bind (AMap.find s.plates) else none with
  | some pl => BitVec.ofNat 64 (s.creg x.ctx oPLWIN / 2 ^ 30 * 2 ^ 30 + pl.offset + 4 * pl.entries.getD role 0)
  | none => q.entry

/-- A team at its start (R197). -/
def State.startTeam (s : State) (x : Grid) (role index part slot : Nat) : Team :=
  match x.roles[role]? with
  | some q => { Team.start .kernel role index q.groups q.budget (s.entryOf x role q) x.md with partition := part, slot := slot }
  | none => Team.start .kernel role index 1 96 0#64 x.md

/-- Coordinates of a cohort, x fastest. -/
def LaunchRec.coords (r : LaunchRec) (i : Nat) : Nat × Nat × Nat := (i % r.gx, i / r.gx % r.gy, i / r.gx / r.gy)

/-- The lead slice of a team at its start (R160). -/
def startLead (x : Grid) (role index cohort : Nat) : Option Team :=
  match x.roles[role]? with
  | none => none
  | some q =>
    if q.lead = 0#64 then none
    else
      let args := x.args ++ List.replicate (112 - x.args.length) 0#8
      let t := { Team.single .lead q.entry x.md with pc := q.lead, ipc := q.lead, role := role, index := index }
      let t := (span 0 28).foldl (fun t i => t.setK i (BitVec.ofNat 32 (bytesAt args (4 * i) 4))) t
      let c := x.record.coords cohort
      some ((((t.setK 28 (BitVec.ofNat 32 c.1)).setK 29 (BitVec.ofNat 32 c.2.1)).setK 30 (BitVec.ofNat 32 c.2.2)).setK 31
        (BitVec.ofNat 32 index))

/-- DISPATCH records of a cohort's teams (R378). -/
def State.noteDispatch (s : State) (tid : Nat) (ordinal index base : Nat) : State :=
  match s.task? tid with
  | none => s
  | some k => k.teams.foldl (fun s f =>
      s.note (clusterOf k.core) k.ctx 6 (teamField k.core f.2.partition f.2.slot) (some 0)
        (varint 5 ordinal ++ varint 5 index ++ toBytes 1 base)) s

/-- Places a cohort as a task on a core, with its teams on the given partitions and slots (R195, R197). -/
def State.start (s : State) (g : Nat) (x : Grid) (r : Retry) (tid core base frame : Nat) (slots : List (Nat × Nat)) :
    State :=
  let ts := (teamsOf x.roles).zip slots
  let teams : AMap Team := ts.zipIdx.map (fun e => (e.2, s.startTeam x e.1.1.1 e.1.1.2 e.1.2.1 e.1.2.2))
  let leads : AMap Team := ts.zipIdx.filterMap (fun e =>
    (startLead x e.1.1.1 e.1.1.2 r.index).map (fun l => (e.2, l)))
  let k : Task :=
    { ctx := x.ctx, grid := g, index := r.index, core := core, base := base, frame := frame, priority := x.record.priority
      scratchSize := x.record.scratch, scratch := [], bars := [], commits := 0, version := [], messages := [], taken := []
      retries := r.retries, teams := teams, leads := leads, failing := none, primary := false, resident := true
      finished := false, waitingSince := none, ticket := none, ticketQ := [], touched := [], partials := [] }
  let s := teams.foldl (fun s f => s.spillTeam tid f.1) (s.setTask tid k)
  let y : Grid := { x with
    retry := x.retry.filter (fun q => q ≠ r), next := if x.retry.contains r then x.next else r.index + 1
    lastCluster := some (clusterOf core), waitSince := none, expired := false, anchor := false }
  let s := if x.anchor && !s.replaying x.ctx then s.addAnchor x.ctx 0 (BitVec.ofNat 64 (x.packet.getD (2 ^ 64 - 1))) (if x.packet.isNone then some x else none) else s
  let s := s.setCreg x.ctx oPREEMPT (s.creg x.ctx oPREEMPT % 2 + 2)
  ((s.setGrid g y).noteDispatch tid x.ordinal r.index base).stopNew tid

/-- Slots for the teams of a cohort under a base. -/
def State.slotsFor (s : State) (core base n : Nat) : List (Nat × Nat) :=
  (span 0 n).map (fun i => (partitionOf base i, s.freeSlot core (partitionOf base i)))

/-- A task id that no live task holds, and no report still to be written names (R254). -/
def State.idFree (s : State) (tid : Nat) : Bool :=
  tid < 2 ^ 14 && (s.task? tid).isNone &&
  !s.ctxs.any (fun e => e.2.heldFaults.any (fun r => bytesAt r 4 2 = tid))

/-- The first free task id from a number on, around the 14-bit numbers (R254). -/
def State.freeId (s : State) : Nat → Nat → Option Nat
  | 0, _ => none
  | n + 1, tid => if s.idFree (tid % 2 ^ 14) then some (tid % 2 ^ 14) else State.freeId s n (tid + 1)

/-- The first free task id of all 2^14 from a number on. -/
def State.nextId (s : State) (tid : Nat) : Option Nat := s.freeId 16384 tid

/-- The frame for a cohort: the given place, if it is free, or the first in the pool. -/
def State.frameFor (s : State) (x : Grid) (frame : Option Nat) : Option Nat :=
  let size := x.record.frameSize x.roles
  match frame with
  | some f => if s.frameFree x.ctx f size then some f else none
  | none => s.findFrame x.ctx size

/-- Places cohorts one after another on the cores allowed; none unless all fit. The first takes the given id and frame. -/
def placeAll (g : Nat) (allowed : Nat → Bool) : List Retry → Option Nat → Option Nat → State → Option State
  | [], _, _, s => some s
  | r :: rs, id, frame, s =>
    match s.grid? g, id with
    | some x, some tid =>
      (match s.chooseCore g x allowed, s.frameFor x frame with
       | some core, some f =>
         let base := s.bestBase core x.record.teams
         let s' := s.start g x r tid core base f (s.slotsFor core base x.record.teams)
         placeAll g allowed rs (s'.nextId (tid + 1)) none s'
       | _, _ => none)
    | _, _ => none

/-- The regions within which the cohorts may be placed together, in the order they are tried (R214, R356): each a test of a
core. A gang placed member by member keeps to the region of the members already placed. -/
def State.regions (s : State) (g : Nat) (x : Grid) (r : Retry) : List (Nat → Bool) :=
  let order := clusterOrder x.lastCluster
  let m := x.record.gangSize
  let mates := s.tasks.filter (fun e => e.2.grid = g && e.2.index / m = r.index / m)
  let within (same : Nat → Nat → Bool) (c : Nat) : Bool := mates.all (fun e => same e.2.core c)
  if m = 1 then [fun _ => true]
  else match x.record.gangClass with
    | 0 =>
      let cores := order.flatMap (fun k => ((span (8 * k) 8).map (fun c => (786432 - s.freeScratch c, c))).mergeSort
        (fun a b => decide (a.1 < b.1) || (decide (a.1 = b.1) && decide (a.2 ≤ b.2))))
      cores.map (fun e => fun c => decide (c = e.2) && within (fun a b => decide (a = b)) c)
    | 1 => order.map (fun k => fun c => decide (clusterOf c = k) && within (fun a b => decide (clusterOf a = clusterOf b)) c)
    | 2 => (order.map (fun k => k / 4)).eraseDups.map (fun d => fun c =>
        decide (dieOf c = d) && within (fun a b => decide (dieOf a = dieOf b)) c)
    | _ => [fun _ => true]

/-- The state with a grid's next cohorts placed under R355 to R357, if they fit. -/
def State.placeNext (s : State) (g : Nat) (x : Grid) (rs : List Retry) (tid : Nat) (frame : Option Nat) : Option State :=
  match rs with
  | [] => none
  | r :: _ => (s.regions g x r).findSome? (fun allowed => placeAll g allowed rs (some tid) frame s)

/-- The log or a choreography decides where a context's cohorts go, and when. -/
def State.bound (s : State) (c : Nat) : Bool :=
  let v := (s.ctx c).level
  s.replaying c || (v.level = 2 && v.choreo ≠ 0#64 && v.bind && !v.broken)

/-- The entries that cohorts placed together follow, each marked as followed (R373). -/
def boundPlaces (g : Nat) (x : Grid) : List Retry → State → State × Except Choreo (List (Retry × Nat × Nat))
  | [], s => (s, .ok [])
  | r :: rs, s => match s.choreoOf g x r with
    | (s, .at core base i) =>
      (match boundPlaces g x rs (s.noteChoreo g x r core base (some i)).1 with
       | (s, .ok l) => (s, .ok ((r, core, base) :: l))
       | e => e)
    | (s, c) => (s, .error c)

/-- A returning cohort of the context waits for an earlier entry of its core (R373). -/
def State.waitsEntry (s : State) (c : Nat) (k : Task) : Bool :=
  k.ctx = c && (match s.grid? k.grid with
    | some x => (s.choreoOf k.grid x { index := k.index, retries := k.retries }).2 = .wait
    | none => false)

/-- The core is promised to a returning cohort that no entry of the context's choreography holds back (R340, R373): DESIGN CHOICE
where the two orders cross, the entries' order (log 58). -/
def State.promisedBound (s : State) (c core : Nat) : Bool :=
  s.promised core && s.tasks.any (fun e => e.2.core = core && s.eligible e.1 e.2 && !s.waitsEntry c e.2)

/-- Places cohorts on the cores and bases that their entries name, if all have room (R196, R340, R373). -/
def placeBound (g : Nat) : List (Retry × Nat × Nat) → Option Nat → Option Nat → State → Option State
  | [], _, _, s => some s
  | e :: es, id, frame, s =>
    match s.grid? g, id with
    | some x, some tid =>
      let core := e.2.1
      let base := e.2.2
      (match s.frameFor x frame with
       | some f =>
         if s.coreRoom core x.record.teams base x.record.scratch && s.coreUsable x core && !s.promisedBound x.ctx core then
           let s' := s.start g x e.1 tid core base f (s.slotsFor core base x.record.teams)
           placeBound g es (s'.nextId (tid + 1)) none s'
         else none
       | none => none)
    | _, _ => none

/-! ## Replay (R385) -/

/-- A varint and the bytes after it. -/
def readVarint : Nat → List Byte → Nat × List Byte
  | 0, bs => (0, bs)
  | _ + 1, [] => (0, [])
  | n + 1, b :: bs =>
    if b.toNat < 128 then (b.toNat, bs)
    else
      let r := readVarint n bs
      (b.toNat % 128 + 128 * r.1, r.2)

/-- Launch ordinal, cohort index and base of a DISPATCH record. -/
def dispatchOf (r : LogRec) : Nat × Nat × Nat :=
  let a := readVarint 5 r.payload
  let b := readVarint 5 a.2
  (a.1, b.1, bytesAt b.2 0 1)

/-- Partition and slot of a team field. -/
def fieldSlot (f : Nat) : Nat × Nat := (f / 16 % 32, f / 2 % 8)

/-- The next placement that the log names: its records, one per team (R385). -/
def State.nextDispatch (s : State) (n : Nat) : List LogRec :=
  match s.replay.script.filter (fun r => r.kind = 6) with
  | [] => []
  | r :: rest => r :: (rest.filter (fun q => dispatchOf q = dispatchOf r)).take (n - 1)

/-- In a replay a cohort goes where its DISPATCH records say, in stamp order, once there is room (R196) and the core may hold it
(R229, R452); the members of a gang together. -/
def placeLogged (g : Nat) : List Retry → Option Nat → Option Nat → State → Option State
  | [], _, _, s => some s
  | r :: rs, id, frame, s =>
    match s.grid? g, id with
    | some x, some tid =>
      (match s.nextDispatch x.record.teams, s.frameFor x frame with
       | d :: ds, some f =>
         let q := dispatchOf d
         let slots := (d :: ds).map (fun e => fieldSlot e.team)
         if q.1 ≠ x.ordinal || q.2.1 ≠ r.index || !s.inTurn d || !s.coreUsable x (d.team / 512) ||
             !s.slotsRoom (d.team / 512) x.record.scratch slots then none
         else
           let s' := s.start g x r tid (d.team / 512) q.2.2 f slots
           let s' := (d :: ds).foldl State.metRecord s'
           placeLogged g rs (s'.nextId (tid + 1)) none s'
       | _, _ => none)
    | _, _ => none

/-! ## Whether cohorts fit -/

/-- The core and base that the log or a choreography names for a cohort (R373, R385). -/
def State.namedPlace (s : State) (g : Nat) (x : Grid) (r : Retry) : Option (Nat × Nat) :=
  if s.replaying x.ctx then
    match s.nextDispatch x.record.teams with
    | d :: _ => if (dispatchOf d).1 = x.ordinal && (dispatchOf d).2.1 = r.index then some (d.team / 512, (dispatchOf d).2.2) else none
    | [] => none
  else match (s.choreoOf g x r).2 with
    | .at core base _ => some (core, base)
    | _ => none

/-- The state with a grid's next cohorts placed as the log, the choreography or R355 to R357 place them; none unless all fit. -/
def State.placesIn (s : State) (g : Nat) (x : Grid) (rs : List Retry) (tid : Nat) (frame : Option Nat) : Option State :=
  if s.replaying x.ctx then placeLogged g rs (some tid) frame s
  else if s.bound x.ctx then
    match boundPlaces g x rs s with
    | (s, .ok l) => placeBound g l (some tid) frame s
    | _ => none
  else s.placeNext g x rs tid frame

/-- A grid's next cohorts fit now. -/
def State.fitsNow (s : State) (g : Nat) (x : Grid) : Bool :=
  match s.nextCohorts x, s.nextId 0 with
  | r :: rs, some tid => (s.placesIn g x (r :: rs) tid none).isSome
  | _, _ => false

/-- No grid that is taken before this one has cohorts that fit (R355). -/
def State.firstInOrder (s : State) (g : Nat) (x : Grid) : Bool :=
  s.grids.all (fun e => e.1 = g || s.bound e.2.ctx || !s.before e.1 e.2 g x || !s.fitsNow e.1 e.2)

/-! ## Events of the distributor -/

/-- COHORT_PLACE (R196, R355 to R357, R373): the grid's next cohort, or its gang, is placed and its teams start. -/
def execCohortPlace (grid task frame : Nat) (s : State) : Out :=
  match s.grid? grid with
  | none => .next s
  | some x =>
    if !s.idFree task then .next s
    else match s.nextCohorts x with
      | [] => .next s
      | r :: rs =>
        if s.replaying x.ctx then .next ((placeLogged grid (r :: rs) (some task) (some frame) s).getD s)
        else if s.bound x.ctx then
          let v := (s.ctx x.ctx).level
          (match boundPlaces grid x (r :: rs) s with
           | (s', .ok l) => .next ((placeBound grid l (some task) (some frame) s').getD s)
           | (s', .error c) =>
             let s' := s'.modCtx x.ctx (fun k => { k with level := v })
             .next (if c = .broken then s'.breakChoreo x.ctx else s'))
        else if !s.firstInOrder grid x then .next s
        else match s.placeNext grid x (r :: rs) task (some frame) with
          | none => .next s
          | some s' =>
            let new := s'.tasks.filter (fun e => (s.task? e.1).isNone)
            let placed := (r :: rs).filterMap (fun q => new.find? (fun e => e.2.index = q.index))
            let note (a : State × Bool) (e : Nat × Task) : State × Bool :=
              if a.2 then a.1.noteChoreo grid x { index := e.2.index, retries := e.2.retries } e.2.core e.2.base none
              else a
            -- an entry whose write is held holds the placement
            let noted := placed.foldl note (s', true)
            if noted.2 then .next noted.1
            else
              let v := (s.ctx x.ctx).level
              .next ((placed.foldl note (s, true)).1.modCtx x.ctx (fun k => { k with level := v }))

/-- PENDING_LAUNCH_HANDOFF (R338): the oldest entry of a core's queue that the front end has not taken. -/
def execPendingLaunchHandoff (core : Nat) (s : State) : Out :=
  match (s.core core).launches.find? (fun g => match s.grid? g with
    | some x => !x.handed
    | none => false) with
  | some g => .next (((s.modGrid g (fun x => { x with handed := true })).giveOrdinal g).afterRun g)
  | none => .next s

/-- PLACEMENT_WAIT_EXPIRY (R355): a grid whose next cohort fits no core is seen to wait; 1 ms later it reserves the cluster
it used last. -/
def execPlacementWaitExpiry (grid : Nat) (s : State) : Out :=
  match s.grid? grid with
  | none => .next s
  | some x =>
    if (s.nextCohorts x).isEmpty || s.fitsNow grid x then .next s
    else match x.waitSince with
      | none => .next (s.setGrid grid { x with waitSince := some s.time })
      | some t => if t + 100000 ≤ s.time then .next (s.setGrid grid { x with expired := true }) else .next s

/-- A cluster holds no cohort, resident or swapped out. -/
def State.clusterEmpty (s : State) (k : Nat) : Bool := s.tasks.all (fun e => clusterOf e.2.core ≠ k)

/-- Resident cohorts of a cluster. -/
def State.clusterCohorts (s : State) (k : Nat) : Nat :=
  (s.tasks.filter (fun e => clusterOf e.2.core = k && e.2.resident && !e.2.finished)).length

/-- The cluster of the other mode with the fewest resident cohorts. -/
def State.fewestOf (s : State) (fused : Bool) : Option Nat :=
  ((span 0 16).filter (fun k => (s.cluster k).fused = fused)).foldl (fun best k => match best with
    | none => some k
    | some b => if s.clusterCohorts k < s.clusterCohorts b then some k else some b) none

/-- A cluster's mode changes, and its eight L1s are invalidated (R229). -/
def State.flipMode (s : State) (cluster : Nat) : State :=
  (span (8 * cluster) 8).foldl (fun s c => s.modCore c (fun k => { k with l1 := [] }))
    (s.modCluster cluster (fun k => { k with fused := !k.fused, draining := none }))

/-- Some cluster empties for a grid (R229). -/
def State.drainsFor (s : State) (g : Nat) : Bool := (span 0 16).any (fun j => (s.cluster j).draining = some g)

/-- The cluster to change for a grid that fits none of its own mode: the lowest empty one of the other mode, or with none empty the
one that holds the fewest cohorts (R229). DESIGN CHOICE: for a grid whose next place the log or a choreography names, that place's
cluster (log 58). -/
def State.flipFor (s : State) (e : Nat × Grid) : Option Nat :=
  match s.nextCohorts e.2 with
  | [] => none
  | r :: _ =>
    if s.bound e.2.ctx then
      ((s.namedPlace e.1 e.2 r).map (fun q => clusterOf q.1)).filter (fun k => (s.cluster k).fused ≠ e.2.record.fuse)
    else if s.fitsNow e.1 e.2 then none
    else
      match (span 0 16).find? (fun j => (s.cluster j).fused ≠ e.2.record.fuse && s.clusterEmpty j) with
      | some j => some j
      | none => s.fewestOf (!e.2.record.fuse)

/-- CLUSTER_MODE_CHANGE (R229): a cluster that a grid needs in the other mode changes if it is empty; if not, once the grid has waited
1 ms, it takes no more cohorts until it empties: one for a grid. -/
def execClusterModeChange (cluster : Nat) (s : State) : Out :=
  let k := s.cluster cluster
  if 16 ≤ cluster then .next s
  else if k.draining.isSome then .next (if s.clusterEmpty cluster then s.flipMode cluster else s)
  else
    let wants := s.grids.filter (fun e => s.flipFor e = some cluster)
    if wants.isEmpty then .next s
    else if s.clusterEmpty cluster then .next (s.flipMode cluster)
    else
      let waited := wants.find? (fun e => !s.drainsFor e.1 && (match e.2.waitSince with
        | some t => decide (t + 100000 ≤ s.time)
        | none => false))
      .next (match waited with
        | some e => s.setCluster cluster { k with draining := some e.1 }
        | none => s)

/-! ## Swap-out -/

/-- Waits long enough, and nothing forbids its swap (R213, R216, R339, R405). -/
def State.maySwap (s : State) (tid : Nat) (k : Task) : Bool :=
  let c := s.core k.core
  let thr := s.creg k.ctx oSWTHR % 2 ^ 20
  k.resident && !k.finished && s.gangCount k = 1 && thr ≠ 0 && !s.failingGang k &&
  (match k.waitingSince with
   | some t => decide (t + 100 * thr ≤ s.time)
   | none => false) &&
  !k.teams.all (fun f => s.gone (.team tid f.1) f.2) && k.teams.all (fun f => f.2.freeze = .no && f.2.tx.isNone) &&
  !c.recs.any (fun r => r.2.held = some tid) && !c.holder.any (fun h => h.2.1 = tid)

/-- The slot of a cohort's ordinal-0 team. -/
def Task.slot0 (k : Task) : Nat := match AMap.find k.teams 0 with
  | some t => t.slot
  | none => 8

/-- The cohorts of a core that may be swapped out, the longest wait first (R339). -/
def State.swapOrder (s : State) (core : Nat) : List (Nat × Task) :=
  (s.tasks.filter (fun e => e.2.core = core && s.maySwap e.1 e.2)).mergeSort (fun a b =>
    let x := a.2.waitingSince.getD 0
    let y := b.2.waitingSince.getD 0
    decide (x < y) || (decide (x = y) && decide (a.2.slot0 ≤ b.2.slot0)))

/-- Takes a cohort out of its core's slots and scratchpad. -/
def State.away (s : State) (tid : Nat) : State := s.modTask tid (fun k => { k with resident := false, scratch := [] })

/-- A grid's next cohort or gang does not fit now, and would fit in the given state. -/
def State.gridFits (s s' : State) (g : Nat) (x : Grid) : Bool := !s.fitsNow g x && s'.fitsNow g x

/-- An eligible cohort has room to return, under the base that the log or a choreography names for it, or the best (R340, R373). -/
def State.returnFits (s : State) (k : Task) : Bool :=
  let n := k.teams.length
  let base : Option Nat := match s.grid? k.grid with
    | some x => if s.bound k.ctx then (s.namedPlace k.grid x { index := k.index, retries := k.retries }).map (·.2)
        else some (s.bestBase k.core n)
    | none => none
  base.any (fun b => s.coreRoom k.core n b k.scratchSize)

/-- A cohort that waits for room would fit with the given cohorts of a core away: one that returns to that core, or a grid's next
(R339). -/
def State.waiterFits (s : State) (core : Nat) (s' : State) : Bool :=
  s.tasks.any (fun e => e.2.core = core && s.eligible e.1 e.2 && !s.returnFits e.2 && s'.returnFits e.2) ||
  s.grids.any (fun e => s.gridFits s' e.1 e.2)

/-- The states with the first one, two, … cohorts of the order away. -/
def awayPrefixes : List (Nat × Task) → State → List State
  | [], _ => []
  | e :: es, s =>
    let s' := s.away e.1
    s' :: awayPrefixes es s'

/-- The replayed log places a cohort again: the event that ends its chunks with cause 5 is its swap-out (R373, R385). -/
def State.comesAgain (s : State) (tid : Nat) : Bool :=
  match s.task? tid with
  | some k => (match s.grid? k.grid with
    | some x => s.replay.script.any (fun r => r.kind = 6 && (dispatchOf r).1 = x.ordinal && (dispatchOf r).2.1 = k.index)
    | none => false)
  | none => false

/-- In a replay a cohort is swapped out where the log ends the chunks of all its teams for it, each in its turn (R385); none while a
team has not come so far. -/
def State.swapLogged (s : State) (tid : Nat) (k : Task) : Option State :=
  if !s.comesAgain tid then none
  else k.teams.foldl (fun o f => o.bind (fun s =>
    match s.team? (.team tid f.1), s.logged (.team tid f.1) with
    | some t, some r =>
      if r.kind = 0 && r.payload = [5#8] && t.firstAccess.isNone then
        (match endChunk s (.team tid f.1) t 0 [5#8] t.over none with
         | .go s t => some (s.setTeam (.team tid f.1) t)
         | _ => none)
      else none
    | _, _ => none)) (some s)

/-- SWAP_OUT (R339, R340): the longest-waiting cohort of a core goes to its frame, when its going, with those after it, makes
room for a cohort that waits. -/
def execSwapOut (task : Nat) (s : State) : Out :=
  match s.task? task with
  | none => .next s
  | some k =>
    let order := s.swapOrder k.core
    if s.replaying k.ctx then
      .next (if !k.resident || k.finished then s else match s.swapLogged task k with
        | some s => ((k.teams.foldl (fun s f => s.saveTeam task f.1) s).frameScratch k).away task
        | none => s)
    else if (order.head?.map (·.1)) ≠ some task || !(awayPrefixes order s).any (fun s' => s.waiterFits k.core s') then .next s
    else
      let s := k.teams.foldl (fun s f => (s.cutChunk (.team task f.1) 5).saveTeam task f.1) s
      .next ((s.frameScratch k).away task)

/-- A cohort takes its slots again, its scratchpad and registers from its frame (R213, R340). -/
def State.comeBack (s : State) (tid : Nat) (k : Task) (base : Nat) (slots : List (Nat × Nat)) : State :=
  let scratch := s.framedScratch k
  let teams := (k.teams.zip slots).map (fun e => (e.1.1, { e.1.2 with partition := e.2.1, slot := e.2.2, age := 0 }))
  let s := s.setTask tid { k with resident := true, base := base, scratch := scratch, teams := teams, waitingSince := none }
  (teams.foldl (fun s f => s.loadTeam tid f.1) s).stopNew tid

/-- SWAP_RETURN (R340, R373): an eligible cohort returns to its core, a placement of its own. -/
def execSwapReturn (task : Nat) (s : State) : Out :=
  match s.task? task with
  | none => .next s
  | some k => match s.grid? k.grid with
    | none => .next s
    | some x =>
      let n := k.teams.length
      let r : Retry := { index := k.index, retries := k.retries }
      let go (s : State) (base : Nat) (slots : List (Nat × Nat)) (entry : Option Nat) : Out :=
        let a := s.noteChoreo k.grid x r k.core base entry
        if a.2 then .next ((a.1.comeBack task k base slots).noteDispatch task x.ordinal k.index base) else .next a.1
      if !s.eligible task k || s.failingGang k || (s.ctx k.ctx).snapPaused || !s.clocksFit k.ctx then .next s
      else if s.replaying k.ctx then
        (let recs := s.nextDispatch n
         match recs with
         | [] => .next s
         | d :: _ =>
           let q := dispatchOf d
           let slots := recs.map (fun e => fieldSlot e.team)
           if q.1 ≠ x.ordinal || q.2.1 ≠ k.index || !s.inTurn d || !s.slotsRoom k.core k.scratchSize slots then .next s
           else .next (recs.foldl State.metRecord (s.comeBack task k q.2.2 slots)))
      else match s.choreoOf k.grid x r with
        | (s, .wait) => .next s
        | (s, .broken) => .next (s.breakChoreo k.ctx)
        | (s, .at _ base i) =>
          if s.coreRoom k.core n base k.scratchSize then go s base (s.slotsFor k.core base n) (some i) else .next s
        | (s, .free) =>
          let base := s.bestBase k.core n
          if s.coreRoom k.core n base k.scratchSize then go s base (s.slotsFor k.core base n) none else .next s

end Sys2Proof.Machine
end

