-- ==== Sys2Proof/Machine/Recorder.lean ====
section
/-!
DEFINITION. Snapshots (R382, R383), and the replay driver: reading the log of a live anchor, starting, breaking and going on
(R384 to R387, R421).
-/

namespace Sys2Proof.Machine

/-! ## Snapshots -/

/-- Writes SNAPREQ's state: context in [5:0], paused [8], busy [9]. -/
def State.setSnap (s : State) (c : Nat) (paused busy : Bool) : State :=
  s.setReg rSNAPREQ (BitVec.ofNat 64 (c + 256 * b2n paused + 512 * b2n busy))

/-- The context of the snapshot that is being taken or held (R383). -/
def State.snapCtx (s : State) : Nat := ((s.ctxs.find? (fun e => e.2.snapPaused)).map (·.1)).getD 0

/-- SNAPSHOT_TAKE (R383): a write of SNAPREQ with take set; one that breaks a condition is ignored. -/
def execSnapshotTake (value : Word) (s : State) : Out :=
  let v := value.toNat
  let c := nbits v 0 6
  let now := (s.reg rSNAPREQ).toNat
  if !nbit v 6 then .next s
  else if v / 2 ^ 10 ≠ 0 || nbit v 7 || nbit now 8 || nbit now 9 || !(s.ctx c).level.recording then .next s.setDevErr
  else .next ((s.setSnap c false true).modCtx c (fun k => { k with snapPaused := true }))

/-- No access or matrix word of a context's teams, no engine operation, and no commit is in flight (R269). What waits for a
paused team, as for the device's ticket or a page fault, is not in flight. -/
def State.drained (s : State) (c : Nat) : Bool :=
  s.allTeams.all (fun x => x.2.2.1.ctx ≠ c ||
    (x.2.2.2.pend.all (fun q => q.done || (match q.kind with
      | .mem _ | .matrix _ _ _ _ _ => s.ticket.isSome
      | _ => true)) &&
     (match x.2.2.2.hold with
      | .commit _ | .txe _ _ _ => s.ticket.isSome
      | _ => true))) &&
  s.cores.all (fun e => e.2.engines.all (fun q => q.2.all (fun o => o.fault.isSome || (match s.task? o.task with
    | some k => k.ctx ≠ c
    | none => true))))

/-- What a snapshot of a context holds (R382). -/
def State.snapOf (s : State) (c : Nat) : Snap :=
  let tasks := s.tasks.filter (fun e => e.2.ctx = c)
  { ctx := s.ctx c, tasks := tasks, grids := s.grids.filter (fun e => e.2.ctx = c)
    cores := s.cores.filter (fun e => tasks.any (fun k => k.2.core = e.1)), gangBars := s.gangBars }

/-- SNAPSHOT_ANCHOR_DONE (R382, R383): the paused context's teams are saved to their frames, the list of its frames is
written (layout, log 26), the open blocks and the anchor are logged, and paused reads 1. -/
def execSnapshotAnchorDone (frameList : Word64) (s : State) : Out :=
  let v := (s.reg rSNAPREQ).toNat
  let c := s.snapCtx
  let tasks := s.tasks.filter (fun e => e.2.ctx = c && !e.2.finished)
  if !nbit v 9 || !s.drained c || memorySize < frameList.toNat + 8 * tasks.length then .next s
  else
    let s := tasks.foldl (fun s e =>
      if e.2.resident then
        (e.2.teams.foldl (fun s f => (s.cutChunk (.team e.1 f.1) 5).saveLive e.1 f.1) s).frameScratch e.2
      else s) s
    let s := s.poke frameList.toNat (tasks.flatMap (fun e => toBytes 8 e.2.frame))
    let s := (s.flushCtx c).addAnchor c 1 frameList none
    let s : State := { s with log := { s.log with snaps := AMap.set s.log.snaps (s.log.nextAnchor - 1) (s.snapOf c) } }
    .next ((s.setSnap (nbits v 0 6) true false).raise c 7)

/-- SNAPSHOT_RESUME (R383): a write of SNAPREQ with res set; every team of the paused context goes on. -/
def execSnapshotResume (value : Word) (s : State) : Out :=
  let v := value.toNat
  let c := nbits v 0 6
  let now := (s.reg rSNAPREQ).toNat
  if !nbit v 7 then .next s
  else if v / 2 ^ 10 ≠ 0 || nbit v 6 || !nbit now 8 || !(s.ctx c).snapPaused then .next s.setDevErr
  else .next ((s.setSnap c false false).modCtx c (fun k => { k with snapPaused := false }))

/-! ## Reading the log (R377, R378) -/

/-- Bytes of a varint at the head of a list. -/
def varintLen : Nat → List Byte → Nat
  | 0, _ | _, [] => 0
  | n + 1, b :: bs => if b.toNat < 128 then 1 else 1 + varintLen n bs

/-- Bytes of a record's payload. -/
def payloadLen (kind : Nat) (bs : List Byte) : Nat :=
  let h := bytesAt bs 0 1
  let v (n : Nat) : Nat := varintLen 10 (bs.drop n)
  match kind with
  | 0 => 1
  | 1 => 1 + (h % 32 + 1) * (if 128 ≤ h then 8 else 4)
  | 2 => 4
  | 3 => 5 + v 5 + 64
  | 4 => if 128 ≤ h then 2 + v 2 else 2
  | 5 => 9
  | 6 => v 0 + v (v 0) + 1
  | 7 => v 0
  | _ => v 0 + 1

/-- The difference that a zigzag code stands for. -/
def unzigzag (n : Nat) : Int := if n % 2 = 0 then ((n / 2 : Nat) : Int) else -((n / 2 + 1 : Nat) : Int)

/-- The records of a block from an offset: its number in the ring, bytes used, the previous stamp and the dictionary. -/
def readRecords (block used : Nat) (bytes : List Byte) : Nat → Nat → Nat → List Nat → List LogRec
  | 0, _, _, _ => []
  | n + 1, off, last, dict =>
    let bs := bytes.drop off
    let h := bytesAt bs 0 1
    let kind := h / 16
    if used ≤ off || kind = 15 then []
    else
      let wide := decide (h % 16 = 15)
      let team := if wide then bytesAt bs 1 2 else dict.getD (h % 16) 0xFFFF
      let dict := if wide && team ≠ 0xFFFF && dict.length < 15 then dict ++ [team] else dict
      let at1 := if wide then 3 else 1
      let stamp := ((last : Int) + unzigzag (readVarint 10 (bs.drop at1)).1).toNat
      let at2 := at1 + varintLen 10 (bs.drop at1)
      let counted := decide (team ≠ 0xFFFF)
      let delta := if counted then (readVarint 10 (bs.drop at2)).1 else 0
      let at3 := at2 + (if counted then varintLen 10 (bs.drop at2) else 0)
      let len := payloadLen kind (bs.drop at3)
      { pos := block * 4096 + off, kind := kind, team := team, stamp := stamp, delta := delta
        payload := (bs.drop at3).take len } ::
        readRecords block used bytes n (off + at3 + len) stamp dict

/-- The records of block `k` of the ring, when it is one of context `c`. -/
def State.readBlock (s : State) (c k : Nat) : List LogRec :=
  let bytes := readBytes s.mem (s.logBase + 4096 * (1 + k % (s.logSlots - 1))) 4096
  if bytesAt bytes 9 1 = c then readRecords k (bytesAt bytes 10 2) bytes 4096 16 (bytesAt bytes 0 8) [] else []

/-- A record of a prologue: a read of a clock or counter, a trap or a mark that bears no team (R174, R175, R378). -/
def LogRec.ofPrologue (r : LogRec) : Bool :=
  r.team = 0xFFFF && (r.kind = 4 || r.kind = 5 || (r.kind = 7 && decide (markValue 3 r.payload < 16384)))

/-- What a replay from an anchor goes by: the context's records after the anchor, in stamp order, without those that nothing
in the run performs: ANCHOR records and the front end's own MARK records. With them come the records before a launch's anchor of
the prologues that run again in the replay (R174, R175, R177). -/
def State.scriptOf (s : State) (a : Anchor) : List LogRec :=
  let spans := ((AMap.find s.log.sides a.number).map (·.spans)).getD []
  let again (r : LogRec) : Bool := r.ofPrologue && spans.any (fun e => e.1 < r.stamp && (match e.2 with
    | some n => decide (r.stamp ≤ n)
    | none => true))
  (((span a.first (s.log.head - a.first)).flatMap (s.readBlock a.ctx)).filter (fun r =>
    (a.stamp < r.stamp && r.kind ≠ 8 && !(r.kind = 7 && r.team = 0xFFFF && !r.ofPrologue)) || again r)).mergeSort
      (fun x y => decide (x.stamp ≤ y.stamp))

/-! ## Starting a replay -/

/-- Puts back into a core what the given tasks held there at a snapshot. -/
def Core.restore (k old : Core) (tids : List Nat) : Core :=
  let mine (t : Nat) : Bool := tids.contains t
  let held := (old.holder.filter (fun h => mine h.2.1)).map (·.1)
  let recs := old.recs.filter (fun r => match r.2.held with
    | some t => mine t
    | none => false)
  let tileOf (n : Nat) : Bool := held.contains (n / 16384)
  let rowOf (n : Nat) : Bool := held.contains (n / 128)
  let rows (now was : AMap Word) : AMap Word :=
    (was.filter (fun e => rowOf e.1)).foldl (fun m e => AMap.set m e.1 e.2) (now.filter (fun e => !rowOf e.1))
  { k with
    holder := (old.holder.filter (fun h => mine h.2.1)).foldl (fun m h => AMap.set m h.1 h.2) k.holder
    tiles := (old.tiles.filter (fun e => tileOf e.1)).foldl (fun m e => AMap.set m e.1 e.2) (k.tiles.filter (fun e => !tileOf e.1))
    rowMax := rows k.rowMax old.rowMax
    rowSum := rows k.rowSum old.rowSum
    rowFac := rows k.rowFac old.rowFac
    recs := recs.foldl (fun m r => AMap.set m r.1 r.2) k.recs
    ob := recs.foldl (fun m r =>
      let mine (e : Nat × Byte) : Bool := r.2.lo ≤ e.1 && e.1 < r.2.lo + r.2.size
      (old.ob.filter mine).foldl (fun m e => AMap.set m e.1 e.2) (m.filter (fun e => !mine e))) k.ob
    locks := k.locks ++ old.locks.filter (fun r => mine r.task)
    engines := old.engines.foldl (fun m e => AMap.set m e.1 (AMap.get [] m e.1 ++ e.2.filter (fun o => mine o.task))) k.engines
    colls := k.colls ++ old.colls.filter (fun o => mine o.task)
    obQ := k.obQ ++ old.obQ.filter (fun w => mine w.task) }

/-- A replay from a snapshot begins with the cohorts that its anchor holds, in place of the context's present ones (R384). -/
def State.reinstate (s : State) (c : Nat) (x : Snap) : State :=
  let tids := x.tasks.map (·.1)
  let s := s.tasks.foldl (fun s e => if e.2.ctx = c then (s.freeTask e.1 e.2).dropTask e.1 else s) s
  let s := x.tasks.foldl (fun s e => s.setTask e.1 e.2) s
  let s := x.cores.foldl (fun s e => s.modCore e.1 (fun k => k.restore e.2 tids)) s
  let s : State := { s with
    grids := x.grids.foldl (fun m e => AMap.set m e.1 e.2) (s.grids.filter (fun e => e.2.ctx ≠ c))
    gangBars := (x.gangBars.filter (fun e => (AMap.find x.grids (e.1 / 2 ^ 34)).isSome)).foldl
      (fun m e => AMap.set m e.1 e.2) s.gangBars }
  let s := if (s.ctx c).snapPaused then s.setSnap (nbits (s.reg rSNAPREQ).toNat 0 6) false false else s
  s.modCtx c (fun k => { x.ctx with
    faultSeq := k.faultSeq, heldFaults := k.heldFaults, svcSeq := k.svcSeq, heldSvc := k.heldSvc, subs := k.subs
    consumed := k.consumed, subSeq := k.subSeq, subRej := k.subRej, notify := k.notify, epoch := k.epoch, err := k.err
    snapPaused := false })

/-- The flows and mailboxes of a replayed context stand as they did at the anchor: the messages that its mailboxes held then are there
again, and in a replay of the whole pod its flows go on with the numbers recorded (R387, R422; log 27). -/
def State.resetFlows (s : State) (c : Nat) (x : AnchorSide) (pod : Bool) : State :=
  let mine (b : Nat) : Bool := s.boundTo b = some c
  let s : State := { s with
    mailboxes := (x.boxes.filter (fun e => mine e.1)).foldl (fun m e => AMap.put [] m e.1 e.2) (s.mailboxes.filter (fun e => !mine e.1)) }
  if pod then
    { s.modCtx c (fun k => { k with routeEpoch := x.epochs, flowSeq := x.seqs }) with
      flows := x.flows.filter (fun f => mine f.2.2.1) ++ s.flows.filter (fun f => !mine f.2.2.1)
      arrivals := s.arrivals.filter (fun m => !mine m.mbox) }
  else s

/-- A launch that no packet made runs again from its anchor: its grid as it stood, with its argument copy made (R382, R384). -/
def State.rechild (s : State) (x : Option Grid) : State :=
  match x with
  | none => s
  | some x =>
    let a := s.addGrid { x with parent := none, handed := true }
    a.1.modCtx x.ctx (fun k => { k with nextOrdinal := x.ordinal + 1 })

/-- A replay from a launch anchor begins with its launch, as the next packet of the context, and at the ordinal of the first
placement that the log names; packets that came after it are submitted again by system software (log 27). -/
def State.relaunch (s : State) (a : Anchor) (script : List LogRec) : State :=
  let again (k : Ctx) : Ctx :=
    match AMap.find k.packets a.extra.toNat with
    | some x =>
      if x.kind = 0 then
        { k with packets := AMap.set k.packets k.nextPacket { x with stage := .accepted, span := none }, nextPacket := k.nextPacket + 1 }
      else k
    | none => k
  let ordinal (k : Ctx) : Ctx :=
    match script.find? (fun r => r.kind = 6) with
    | some r => { k with nextOrdinal := (dispatchOf r).1 }
    | none => k
  if a.kind = 0 then
    (s.modCtx a.ctx (fun k => ordinal (again k))).rechild ((AMap.find s.log.sides a.number).bind (·.child))
  else s

/-- REPLAY_GO (R384, R387, R421): a write of RPCTL with go set starts a replay from a live anchor, or goes on from a breakpoint.
A log recorded before the core map shrank is refused (R452). -/
def execReplayGo (value : Word64) (s : State) : Out :=
  let v := value.toNat
  let number := nbits v 32 32
  let c := nbits v 4 6
  let fields := nbits v 1 1 * 2 + nbits v 2 2 * 4 + c * 16 + number * 2 ^ 32
  let same := s.replay.anchor = number && s.replay.ctx = c && nbit (s.reg rRPCTL).toNat 1 = nbit v 1
  let set (s : State) : State := s.setReg rRPCTL (BitVec.ofNat 64 fields)
  if !nbit v 0 then .next s
  else if nbits v 10 22 ≠ 0 || nbits v 2 2 = 3 || (s.replay.state = 1 && !same) then .next s.setDevErr
  else if s.replay.state = 1 then .next (set s)
  else if s.replay.state = 2 && same then
    .next (set { s with replay := { s.replay with state := 1, passed := s.breakRecord.map (·.stamp) } })
  else
    let s := if s.replay.state = 2 then State.writeHeld { s with replay := { s.replay with state := 0 } } else s
    match s.log.anchors.find? (fun a => a.number = number && a.ctx = c &&
      (match s.shrunk with
       | some st => decide (st < a.stamp)
       | none => true)) with
    | none =>
      .next (State.setDevErr (set { s with replay := { state := 0, position := 0, script := [], ctx := c, anchor := number, passed := none } }))
    | some a =>
      let script := s.scriptOf a
      let s := match AMap.find s.log.snaps number with
        | some x => s.reinstate c x
        | none => s.relaunch a script
      let s := match AMap.find s.log.sides number with
        | some x => s.resetFlows c x (nbit v 1)
        | none => s
      .next (set { s with replay :=
        { state := if script.isEmpty then 4 else 1, position := 0, script := script, ctx := c, anchor := number, passed := none } })

/-- REPLAY_BREAKPOINT (R387): every record below the named one is complete, so the replay stops at the cut; the Surveyors write
their open blocks (R377). -/
def execReplayBreakpoint (s : State) : Out :=
  if s.replay.state ≠ 1 then .next s
  else match s.breakRecord with
    | none => .next s
    | some b =>
      if s.replay.script.any (fun r => r.stamp < b.stamp) then .next s
      else .next (State.flushCtx { s with replay := { s.replay with state := 2 } } s.replay.ctx)

end Sys2Proof.Machine
end

