-- ==== Sys2Proof/Machine/Inputs.lean ====
section
/-!
DEFINITION. What reaches the device from outside it: Meridian messages and links (R157, R425 to R428), ring tails (R439), the steward
leader's lease and its request queues (R429, R430, R442), notify registers (R443, R444), PCIe peers (R445), and the
application cores' stores (R225, R276).
-/

namespace Sys2Proof.Machine

/-! ## Meridian -/

/-- MERIDIAN_LINK_LOSS (R425): messages go by other links; none is dropped. -/
def execMeridianLinkLoss (port : Nat) (s : State) : Out :=
  .next (if port < 16 then { s with ports := AMap.set s.ports port false } else s)

/-- An arrival: a second copy is discarded, one before its turn is held, and one whose mailbox is full or unbound is not
accepted, so its departure waits (R425, R426, R428). -/
def State.arrive (s : State) (m : Message) : State × Bool :=
  let next := s.flowNext m
  if m.seq < next then (s, true)
  else if next < m.seq then
    if s.arrivals.any (fun x => x.same m) then (s, true) else ({ s with arrivals := s.arrivals ++ [m] }, true)
  else if s.boxOpen m.mbox then
    (deliverHeld (s.arrivals.length) (State.deliver { s with arrivals := s.arrivals.filter (fun x => !x.same m) } m), true)
  else (s, false)

/-- The message that an ARRIVE record holds. -/
def messageOf (r : LogRec) : Message :=
  let b := r.payload
  let v := varintLen 10 (b.drop 5)
  { mbox := bytesAt b 0 1, srcDev := bytesAt b 1 2, srcCtx := bytesAt b 3 1, dstDev := 0, epoch := bytesAt b 4 1
    seq := (readVarint 10 (b.drop 5)).1, body := b.drop (5 + v), grid := 0 }

/-- The replay is one of every device of the pod (R387). -/
def State.pod (s : State) : Bool := nbit (s.reg rRPCTL).toNat 1

/-- An arrival at a mailbox of a context that is replayed (R385, R387, R423): a pod-wide replay holds it for its turn in the log; a
replay of one device takes none. -/
def State.arriveLogged (s : State) (m : Message) : State × Bool :=
  if !s.pod then (s, false)
  else if m.seq < s.flowNext m || s.arrivals.any (fun x => x.same m) then (s, true)
  else ({ s with arrivals := s.arrivals ++ [m] }, true)

/-- The ARRIVE record whose turn has come, if its mailbox has room and, in a pod-wide replay, its message has arrived. -/
def State.nextArrival (s : State) : Option LogRec :=
  s.replay.script.find? (fun r => r.kind = 3 && s.inTurn r &&
    decide ((AMap.get [] s.mailboxes (messageOf r).mbox).length < 32) && (!s.pod || s.arrivals.any (fun x => x.same (messageOf r))))

/-- In a replay the mailboxes deliver in ARRIVE order (R385, R387): the logged messages in place of live ones, of which those of this
device's own that they stand for count as accepted; or, pod-wide, the messages that have arrived, each checked against its record. -/
def deliverLogged : Nat → State → State
  | 0, s => s
  | n + 1, s => match s.nextArrival with
    | none => s
    | some r =>
      let l := messageOf r
      match (if s.pod then s.arrivals.find? (fun x => x.same l) else none) with
      | some m =>
        if l.body ≠ m.body then s.diverged r.pos
        else deliverLogged n (State.metRecord (State.deliver { s with arrivals := s.arrivals.erase m } m) r)
      | none =>
        let stands := s.sent.find? (fun x => x.dstDev = x.srcDev && x.srcDev = l.srcDev && x.srcCtx = l.srcCtx && x.mbox = l.mbox)
        let s : State := { s with
          mailboxes := AMap.set s.mailboxes l.mbox (AMap.get [] s.mailboxes l.mbox ++ [l])
          sent := match stands with
            | some x => s.sent.erase x
            | none => s.sent }
        deliverLogged n (s.metRecord r)

/-- What the mailboxes of a replayed context do of themselves; once the replay is done they take the arrivals it has held. -/
def State.replayArrivals (s : State) : State :=
  if s.replay.state = 1 then deliverLogged s.replay.script.length s
  else if s.replay.state = 4 then deliverHeld s.arrivals.length s
  else s

/-- MESSAGE_ARRIVAL (R426, R428): a message from another device, or one of this device's own that has departed. A device without
a number accepts none (R427); at a breakpoint of a pod-wide replay this device's departures are withheld (R387). -/
def execMessageArrival (mbox srcDev srcCtx epoch seq : Nat) (body : List Byte) (s : State) : Out :=
  let own := (s.reg rMDEVNO).toNat
  let m : Message := { mbox := mbox, srcDev := srcDev, srcCtx := srcCtx, dstDev := own, epoch := epoch % 256, seq := seq
                       body := (body ++ List.replicate 64 0#8).take 64, grid := 0 }
  let sentOne := s.sent.find? (fun x => x.dstDev = own && x.same m)
  let replayed := match s.boundTo mbox with
    | some c => s.replaying c
    | none => false
  let withheld := s.replay.state = 2 && s.pod && s.replay.ctx = srcCtx
  if own = 0xFFFF then .next s
  else if srcDev = own then
    match sentOne with
    | none => .next s
    | some x =>
      if withheld then .next s
      else
        let a := if replayed then s.arriveLogged x
          else if s.flowNext x < x.seq then (s, false)
          else s.arrive x
        .next (if a.2 then { a.1 with sent := a.1.sent.erase x } else a.1)
  else .next (if replayed then (s.arriveLogged m).1 else (s.arrive m).1)

/-- Another device has accepted the `n`-th of the messages that have departed and are not accepted (R353, R428); at a breakpoint of a
pod-wide replay departures are withheld (R387). -/
def State.acceptedAbroad (s : State) (n : Nat) : State :=
  match s.sent[n]? with
  | none => s
  | some m =>
    if m.dstDev = m.srcDev || (s.replay.state = 2 && s.pod && s.replay.ctx = m.srcCtx) then s
    else { s with sent := s.sent.eraseIdx n }

/-- MAILBOX_BIND (R427). -/
def execMailboxBind (mbox : Nat) (value : Word) (s : State) : Out :=
  if 256 ≤ mbox then .next s
  else if value.toNat / 2 ^ 7 ≠ 0 || !(AMap.get [] s.mailboxes mbox).isEmpty then .next s.setDevErr
  else
    let s := s.setReg (rMBXBIND mbox) (value.setWidth 64)
    .next (deliverHeld s.arrivals.length s)

/-- ROUTE_ENTRY_WRITE (R426, R427): a write that leaves the entry valid raises its epoch and restarts the flows to its device. -/
def execRouteEntryWrite (ctx entry : Nat) (value : Word) (s : State) : Out :=
  let v := value.toNat
  if 64 ≤ entry then .next s
  else if v / 2 ^ 17 ≠ 0 then .next (s.setCtxErr ctx)
  else
    let s := s.setCreg ctx (oMRT entry) v
    if nbit v 16 then
      .next (s.modCtx ctx (fun k => { k with
        routeEpoch := AMap.put 0 k.routeEpoch entry ((AMap.get 0 k.routeEpoch entry + 1) % 256)
        flowSeq := k.flowSeq.filter (fun e => e.1 / 256 ≠ nbits v 0 16) }))
    else .next s

/-! ## Ring tails (R439) -/

/-- FRTAIL_WRITE (R439): the waiting records take the room. -/
def execFrtailWrite (ctx : Nat) (value : Word) (s : State) : Out :=
  let s := s.setCreg ctx oFRTAIL value.toNat
  .next (s.drainFaults ctx (s.ctx ctx).heldFaults.length)

/-- SRTAIL_WRITE (R439): the waiting entries take the room. -/
def execSrtailWrite (ctx : Nat) (value : Word) (s : State) : Out :=
  let s := s.setCreg ctx oSRTAIL value.toNat
  .next (s.drainSvc ctx (s.ctx ctx).heldSvc.length)

/-! ## The leader (R442) -/

/-- FOLLOWER_HEARTBEAT (R442). -/
def execFollowerHeartbeat (die : Nat) (s : State) : Out :=
  if 6 ≤ die || s.leader.die = some die then .next s
  else .next (s.modSteward die (fun x => { x with beat := some s.time }))

/-- LEADER_LEASE_RENEW (R442, R449): the leader renews before its lease runs out, and copies the power limit to its spwl. -/
def execLeaderLeaseRenew (s : State) : Out :=
  match s.leader.die with
  | none => .next s
  | some d =>
    if s.leaseOut then .next s
    else .next (State.judgePower (State.modSteward { s with leader := { s.leader with renewed := s.time } } d
      (fun x => { x with spwl := (s.reg rPWRLIM).setWidth 32 })))

/-- LEADER_LEASE_LAPSE (R442): the lease has lapsed, and the lowest steward with a heartbeat of the last 10 ms takes it in the next
epoch. -/
def execLeaderLeaseLapse (s : State) : Out :=
  if !s.leaseOut then .next s
  else
    let live := (span 0 6).filter (fun d => match (s.steward d).beat with
      | some t => decide (s.time < t + 1000000)
      | none => false)
    match live with
    | [] => .next { s with leader := { s.leader with die := none } }
    | d :: _ =>
      let e := s.leader.epoch + 1
      .next (State.judgePower (State.modSteward { s with leader := { die := some d, epoch := e, renewed := s.time } } d
        (fun x => { x with epoch := e, spwl := (s.reg rPWRLIM).setWidth 32 })))

/-! ## The request queue (R430) -/

/-- Address of the queue's next entry. -/
def State.requestAt (s : State) (c : Nat) : Nat :=
  s.creg c oSQBASE + 64 * (s.creg c oSQHEAD % 2 ^ nbits (s.creg c oSQCTL) 0 5)

/-- The queue holds an entry, and a leader serves it (R442). -/
def State.requestWaits (s : State) (c : Nat) : Bool :=
  !s.leaseOut && s.creg c oSQHEAD ≠ s.creg c oSQTAIL

/-- The leader goes on to the next entry. -/
def State.nextRequest (s : State) (c : Nat) : State :=
  (s.setCreg c oSQHEAD ((s.creg c oSQHEAD + 1) % 2 ^ 32)).modCtx c (fun k => { k with answer := none })

/-- Writes the result and then the status of the entry on which the leader has acted, raises the MSI and goes on; a write that a page
fault holds is made again, and a denied one skips the entry (R430). -/
def State.writeAnswer (s : State) (c status result : Nat) : State :=
  let at_ := s.requestAt c
  let n := s.creg c oSQHEAD
  match s.fePut c 5 n (at_ + 0x20) (toBytes 8 result) with
  | (s, .held) => s
  | (s, .denied) => s.nextRequest c
  | (s, .ok _) => match s.fePut c 5 n (at_ + 1) (toBytes 1 status) with
    | (s, .held) => s
    | (s, .denied) => s.nextRequest c
    | (s, .ok _) => (s.raise c 8).nextRequest c

/-- The leader acts on the entry, and then answers it (R430). -/
def State.finishRequest (s : State) (c status result : Nat) (act : State → State) : State :=
  ((act s).modCtx c (fun k => { k with answer := some (status, result) })).writeAnswer c status result

/-- An event of the request queue: with the leader's answer to the entry still to be written, that comes first (R430). -/
def State.serve (s : State) (c : Nat) (act : State → Out) : Out :=
  if !s.requestWaits c then .next s
  else match (s.ctx c).answer with
    | some (status, result) => .next (s.writeAnswer c status result)
    | none => act s

/-- A step request names a team of its own context with its reserved bits 0 (R180, R430). -/
def stepArgOk (c a0 : Nat) : Bool := !nbit a0 15 && a0 / 2 ^ 22 = 0 && nbits a0 16 6 = c

/-- The participants that an open names, from its list's bytes. -/
def listOf (bs : List Byte) (n : Nat) : List (Nat × Nat) :=
  (span 0 n).map (fun i => (bytesAt bs (4 * i) 2, nbits (bytesAt bs (4 * i) 4) 16 6))

/-- Every entry of a participant list keeps its reserved bits 0. -/
def listOk (bs : List Byte) (n : Nat) : Bool := (span 0 n).all (fun i => bytesAt bs (4 * i) 4 / 2 ^ 22 = 0)

/-- What the leader makes of the next entry. -/
inductive Request where
  | openGroup (group : Nat) (members : List (Nat × Nat))
  | closeGroup (group : Nat)
  | stepTeam (word : Nat)
  | bad
  deriving DecidableEq, Repr

/-- Reads the next entry, and the list of an open (R430, R454); a denied read skips it. -/
def State.readRequest (s : State) (c : Nat) : State × Option Request :=
  let n := s.creg c oSQHEAD
  match s.feGet c 5 n (s.requestAt c) 64 with
  | (s, .held) => (s, none)
  | (s, .denied) => (s.nextRequest c, none)
  | (s, .ok bs) =>
    let code := bytesAt bs 0 1
    let a0 := bytesAt bs 8 8
    let a1 := bytesAt bs 0x10 8
    let a2 := bytesAt bs 0x18 8
    let zero := bytesAt bs 2 2 = 0 && (span 0x28 24).all (fun i => bytesAt bs i 1 = 0)
    let known := (AMap.find (s.ctx c).groups (a0 % 16)).isSome
    let opening := match AMap.find (s.ctx c).groups (a0 % 16) with
      | some g => g.opening.isSome
      | none => false
    if !zero then (s, some .bad)
    else match code with
      | 1 =>
        if a0 / 16 ≠ 0 || a1 = 0 || 4096 < a1 || a2 % 8 ≠ 0 || (known && !opening) then (s, some .bad)
        else (match s.feGet c 5 n a2 (4 * a1) with
          | (s, .held) => (s, none)
          | (s, .denied) => (s.nextRequest c, none)
          | (s, .ok l) => (s, some (if listOk l a1 then .openGroup (a0 % 16) (listOf l a1) else .bad)))
      | 2 => (s, some (if a0 / 16 ≠ 0 || !known then .bad else .closeGroup (a0 % 16)))
      | 3 => (s, some (if stepArgOk c a0 then .stepTeam a0 else .bad))
      | _ => (s, some .bad)

/-- OPEN_COLLECTIVE_GROUP (R429, R430): a group of this device's own contexts opens at once; one that lists others opens when
their answers have come, which is an input. -/
def execOpenCollectiveGroup (ctx : Nat) (s : State) : Out :=
  s.serve ctx (fun s => match s.readRequest ctx with
    | (s, some (.openGroup g members)) =>
      let put (s : State) (o : Option Nat) : State :=
        s.modCtx ctx (fun k => { k with groups := AMap.set k.groups g { members := members, opening := o } })
      let here := members.all (fun m => m.1 = (s.reg rMDEVNO).toNat)
      if here || (AMap.find (s.ctx ctx).groups g).isSome then .next (s.finishRequest ctx 1 0 (fun s => put s none))
      else .next (put s (some s.time))
    | (s, _) => .next s)

/-- GROUP_OPEN_TIMEOUT (R430): 10 ms without every answer; the open fails. -/
def execGroupOpenTimeout (ctx : Nat) (s : State) : Out :=
  s.serve ctx (fun s => match (s.ctx ctx).groups.find? (fun e => e.2.opening.isSome) with
    | none => .next s
    | some (g, x) =>
      if x.opening.getD 0 + 1000000 ≤ s.time then
        .next (s.finishRequest ctx 3 0 (fun s => s.modCtx ctx (fun k => { k with groups := AMap.erase k.groups g })))
      else .next s)

/-- A `coll` of the group is outstanding in the context. -/
def State.collOut (s : State) (c g : Nat) : Bool :=
  s.allTeams.any (fun x => x.2.2.1.ctx = c && x.2.2.2.pend.any (fun q => !q.done && (match q.kind with
    | .collective n => n = g
    | _ => false)))

/-- CLOSE_COLLECTIVE_GROUP (R430): once no `coll` of the group is outstanding. -/
def execCloseCollectiveGroup (ctx : Nat) (s : State) : Out :=
  s.serve ctx (fun s => match s.readRequest ctx with
    | (s, some (.closeGroup g)) =>
      if s.collOut ctx g then .next s
      else .next (s.finishRequest ctx 1 0 (fun s => s.modCtx ctx (fun k => { k with groups := AMap.erase k.groups g })))
    | (s, _) => .next s)

/-- STEP_TEAM_REQUEST (R180, R430): the step begins, and its status is written once it has ended, or after 10 µs. -/
def execStepTeamRequest (ctx : Nat) (s : State) : Out :=
  s.serve ctx (fun s => match (s.ctx ctx).stepReq with
    | some r =>
      let clear (s : State) : State := s.modCtx ctx (fun k => { k with stepReq := none })
      (match r.status with
       | some n => .next (s.finishRequest ctx 1 n clear)
       | none =>
         if r.since + 1000 ≤ s.time then
           .next (if (s.team? (.team r.task r.ord)).isSome then s.stepExpires r.task r.ord
             else s.modCtx ctx (fun k => { k with stepReq := some { r with status := some 1 } }))
         else .next s)
    | none => match s.readRequest ctx with
      | (s, some (.stepTeam w)) =>
        let b := s.beginStep w
        let req : StepReq := { task := b.2.2.1, ord := b.2.2.2, since := s.time, status := b.2.1 }
        .next (b.1.modCtx ctx (fun k => { k with stepReq := some req }))
      | (s, _) => .next s)

/-- STEWARD_REQUEST_REJECT (R430): a bad entry gets status 2, and nothing else happens. -/
def execStewardRequestReject (ctx : Nat) (s : State) : Out :=
  s.serve ctx (fun s =>
    if (s.ctx ctx).stepReq.isSome then .next s
    else match s.readRequest ctx with
      | (s, some .bad) => .next (s.finishRequest ctx 2 0 id)
      | (s, _) => .next s)

/-! ## Notify registers (R443, R444) -/

/-- A write reaches a notify register: it stores its value, and a halted prologue of the context wakes (R181). -/
def State.notifyTo (s : State) (c n : Nat) (v : Word) : State :=
  s.modCtx c (fun k => { k with
    notify := AMap.put 0#32 k.notify n v, prologue := k.prologue.map (fun q => { q with woken := true }) })

/-- NOTIFY_WRITE (R443, R444): captured while the aperture is gated or the latch holds an entry; a full latch holds the write
back. -/
def execNotifyWrite (ctx n : Nat) (value : Word) (s : State) : Out :=
  if 64 ≤ n || 64 ≤ ctx then .next s
  else if !s.gated && s.latch.isEmpty then .next (s.notifyTo ctx n value)
  else if s.latch.length < 64 then .next { s with latch := s.latch ++ [{ ctx := ctx, n := n, value := value }] }
  else .next s

/-- NOTIFY_LATCH_DELIVER (R444): the aperture awake, the oldest captured write is delivered. -/
def execNotifyLatchDeliver (s : State) : Out :=
  match s.latch with
  | [] => .next s
  | x :: rest => .next (State.notifyTo { s with latch := rest, gated := false } x.ctx x.n x.value)

/-- A team parks on a notify register. -/
def State.parksNotify (s : State) : Bool :=
  s.allTeams.any (fun x => match x.2.2.2.hold with
    | .park kind _ _ _ => kind = 2
    | _ => false)

/-- NOTIFY_APERTURE_GATE (R444). -/
def execNotifyApertureGate (s : State) : Out :=
  .next (if s.parksNotify || !s.latch.isEmpty then s else { s with gated := true })

/-! ## PCIe and application cores -/

/-- PCIE_LINK_TRAIN (R445): a port comes up in FLIT mode, or stays down. -/
def execPcieLinkTrain (port : Nat) (flit : Bool) (s : State) : Out :=
  .next (if port < 4 then { s with pcie := AMap.set s.pcie port flit } else s)

/-- An application core may reach [pa, pa + n): memory that the part has, and no replica (R278, R279). -/
def State.reachable (s : State) (pa n : Nat) : Bool :=
  n ≠ 0 && pa + n ≤ memorySize && (span pa n).all (fun a => !s.inReplica a)

/-- Stores the bytes of a peer's write at their places, each run of adjacent ones as one write. -/
def State.peerStore (s : State) : List (Nat × List Byte) → State
  | [] => s
  | e :: rest => State.peerStore (s.outsideWrite e.1 e.2) rest

/-- Bytes with their addresses as runs of adjacent ones. -/
def runsAt : List Nat → List Byte → List (Nat × List Byte)
  | a :: as, b :: bs =>
    (match runsAt as bs with
     | (a', ds) :: rest => if a' = a + 1 then (a, b :: ds) :: rest else (a, [b]) :: (a', ds) :: rest
     | [] => [(a, [b])])
  | _, _ => []

/-- PEER_WRITE (R445): translated by the IOMMU, it enters memory as a committed write, once no sector of it is held (R266); what is
not translated or is denied is reported and touches no memory (R446). -/
def execPeerWrite (addr : Nat) (data : List Byte) (s : State) : Out :=
  if !s.peerUp then .next s
  else match s.peerAccess addr data.length true with
    | .error s' => .next s'
    | .ok pas =>
      if pas.any (fun a => s.locHeld none (.glob a) 1) then .next s
      else .next (s.peerStore (runsAt pas data))

/-- PEER_READ (R445): translated by the IOMMU, it returns committed values, recalled from the application cores first (R276); else it
is reported (R446). -/
def execPeerRead (addr n : Nat) (s : State) : Out :=
  if !s.peerUp then .next s
  else match s.peerAccess addr n false with
    | .error s' => .next s'
    | .ok pas =>
      if pas.any (fun a => s.regionBusy a 1) then .next s
      else .next { pas.foldl (fun s a => s.recall a 1) s with readData := some (pas.map (readByte s.mem)) }

/-- A store that an application core's cache takes: under a lease, with the line's last written-back bytes kept until it is
written back (R268, R276). -/
def State.cacheStore (s : State) (agent addr n : Nat) : State :=
  (span (addr / 128) ((addr + n - 1) / 128 - addr / 128 + 1)).foldl (fun s l =>
    if AMap.get false s.bias (l / 512) then s
    else
      let s := s.request (4 + agent) l true
      if s.dirty.any (fun d => d.agent = 4 + agent && d.addr = 128 * l) then s
      else { s with dirty := s.dirty ++ [{ agent := 4 + agent, addr := 128 * l, data := readBytes s.mem (128 * l) 128 }] }) s

/-- A load of an application core: it returns committed values; where the bias lets it, its complex holds the lines under a shared
lease, and another complex's newer bytes are written back first (R225, R267, R276). -/
def State.appCoreLoad (s : State) (agent addr n : Nat) : State :=
  match ioPlace addr n with
  | some (port, off) => { s with readData := some (s.ioLoad port off n) }
  | none =>
  if 2 ≤ agent || !s.reachable addr n || s.regionBusy addr n then s
  else
    let lines := span (addr / 128) ((addr + n - 1) / 128 - addr / 128 + 1)
    let s := lines.foldl (fun s l => if AMap.get false s.bias (l / 512) then s else s.request (4 + agent) l false) s
    { s with readData := some (readBytes s.mem addr n) }

/-- A plain read of a register from outside (R431): one of a notify register waits until every captured write is delivered (R444);
one that a register's read changes goes through its own event. -/
def State.readOutside (s : State) (off width : Nat) : State :=
  match pageOf off with
  | (.context _, o) => if 0x8000 ≤ o && !s.latch.isEmpty then s else s.returns off width
  | _ => s.returns off width

/-- APP_CORE_STORE (R225): a committed write, cached by its complex where the block's bias lets it (R276); or one of the IOMMU's
registers (R446). -/
def execAppCoreStore (agent addr : Nat) (data : List Byte) (s : State) : Out :=
  match ioPlace addr data.length with
  | some (port, off) => .next (if 2 ≤ agent then s else s.ioStore port off data)
  | none =>
  if 2 ≤ agent || !s.reachable addr data.length || s.locHeld none (.glob addr) data.length then .next s
  else
    let s := s.cacheStore agent addr data.length
    .next { s.outsideWrite addr data with dirty := s.dirty }

end Sys2Proof.Machine
end

