-- ==== Sys2Proof/Machine/Integer.lean ====
section
/-!
DEFINITION. Integer instructions on registers and pairs, and compares (R84 to R91): functions of words, applied in each
lane that takes part, or once for the team (R69).
-/

namespace Sys2Proof.Machine

/-! ## Functions of words -/

/-- High half of the unsigned product (R85). -/
def mulHigh (a c : Word) : Word := BitVec.ofNat 32 (a.toNat * c.toNat / 2 ^ 32)

/-- Shift amounts are C AND 0xFF; 32 or more gives 0, or copies of the sign (R86). -/
def shiftAmount (c : Word) : Nat := c.toNat % 256
def shlWord (a c : Word) : Word := a <<< shiftAmount c
def shrWord (a c : Word) : Word := a >>> shiftAmount c
def sarWord (a c : Word) : Word := a.sshiftRight (shiftAmount c)
def rotWord (a c : Word) : Word := a.rotateLeft (c.toNat % 32)

/-- The field that C describes (R87): position and length, cut to the word. -/
def fieldPos (c : Word) : Nat := c.toNat % 32
def fieldLen (c : Word) : Nat := min (nbits c.toNat 8 6) (32 - fieldPos c)

def bfxWord (a c : Word) : Word :=
  let len := fieldLen c
  let f := nbits a.toNat (fieldPos c) len
  if nbit c.toNat 15 && 0 < len && nbit f (len - 1) then BitVec.ofNat 32 (f + (2 ^ 32 - 2 ^ len)) else BitVec.ofNat 32 f

def bfiWord (d a c : Word) : Word :=
  let mask : Word := BitVec.ofNat 32 (2 ^ fieldLen c - 1)
  (d &&& ~~~ (mask <<< fieldPos c)) ||| ((a &&& mask) <<< fieldPos c)

/-- Bits of a word (R89). -/
def popcWord (a : Word) : Word := BitVec.ofNat 32 (popBits a.toNat 32)
def clzWord (a : Word) : Word := if a.toNat = 0 then 32#32 else BitVec.ofNat 32 (31 - Nat.log2 a.toNat)
def ctzFrom (a : Nat) : Nat → Nat → Nat
  | i, 0 => i
  | i, n + 1 => if nbit a i then i else ctzFrom a (i + 1) n
def ctzWord (a : Word) : Word := BitVec.ofNat 32 (ctzFrom a.toNat 0 32)
def brevWord (a : Word) : Word := a.reverse

/-- The conditions of R46 on integers (R91). -/
def condInt (k : Nat) (a c : Int) : Bool :=
  match k with
  | 0 => a = c
  | 1 => a ≠ c
  | 2 => a < c
  | 3 => a ≤ c
  | 4 => a > c
  | _ => a ≥ c

/-! ## Forms -/

/-- D from A and C (R69, R85). -/
def aluOp (f : Word → Word → Word) (d a c : Nat) (t : Team) : Team := t.write d (fun l => f (t.reg a l) (t.reg c l))

/-- D from A (R89). -/
def unaryOp (f : Word → Word) (d a : Nat) (t : Team) : Team := t.write d (fun l => f (t.reg a l))

/-- Pair D from pairs A and C (R90). -/
def pairOp (f : Word64 → Word64 → Word64) (d a c : Nat) (t : Team) : Team :=
  t.writePair d (fun l => f (t.pair a l) (t.pair c l))

/-! ## Instructions -/

def execIaddi (h : Hdr) (d a i : BitVec 7) (s : State) : Out :=
  issueTeam (.iaddi h d a i) h s (unaryOp (fun x => x + i.signExtend 32) d.toNat a.toNat)

def execMov (h : Hdr) (d a : BitVec 7) (s : State) : Out :=
  issueTeam (.mov h d a) h s (unaryOp id d.toNat a.toNat)

def execPopc (h : Hdr) (d a : BitVec 7) (s : State) : Out :=
  issueTeam (.popc h d a) h s (unaryOp popcWord d.toNat a.toNat)

def execClz (h : Hdr) (d a : BitVec 7) (s : State) : Out :=
  issueTeam (.clz h d a) h s (unaryOp clzWord d.toNat a.toNat)

def execCtz (h : Hdr) (d a : BitVec 7) (s : State) : Out :=
  issueTeam (.ctz h d a) h s (unaryOp ctzWord d.toNat a.toNat)

def execBrev (h : Hdr) (d a : BitVec 7) (s : State) : Out :=
  issueTeam (.brev h d a) h s (unaryOp brevWord d.toNat a.toNat)

def execIadd (h : Hdr) (d a c : BitVec 7) (s : State) : Out :=
  issueTeam (.iadd h d a c) h s (aluOp (· + ·) d.toNat a.toNat c.toNat)

def execIsub (h : Hdr) (d a c : BitVec 7) (s : State) : Out :=
  issueTeam (.isub h d a c) h s (aluOp (· - ·) d.toNat a.toNat c.toNat)

def execImul (h : Hdr) (d a c : BitVec 7) (s : State) : Out :=
  issueTeam (.imul h d a c) h s (aluOp (· * ·) d.toNat a.toNat c.toNat)

def execImulh (h : Hdr) (d a c : BitVec 7) (s : State) : Out :=
  issueTeam (.imulh h d a c) h s (aluOp mulHigh d.toNat a.toNat c.toNat)

def execAndB (h : Hdr) (d a c : BitVec 7) (s : State) : Out :=
  issueTeam (.andB h d a c) h s (aluOp (· &&& ·) d.toNat a.toNat c.toNat)

def execOrB (h : Hdr) (d a c : BitVec 7) (s : State) : Out :=
  issueTeam (.orB h d a c) h s (aluOp (· ||| ·) d.toNat a.toNat c.toNat)

def execXorB (h : Hdr) (d a c : BitVec 7) (s : State) : Out :=
  issueTeam (.xorB h d a c) h s (aluOp (· ^^^ ·) d.toNat a.toNat c.toNat)

def execAndnB (h : Hdr) (d a c : BitVec 7) (s : State) : Out :=
  issueTeam (.andnB h d a c) h s (aluOp (fun x y => x &&& ~~~ y) d.toNat a.toNat c.toNat)

def execShl (h : Hdr) (d a c : BitVec 7) (s : State) : Out :=
  issueTeam (.shl h d a c) h s (aluOp shlWord d.toNat a.toNat c.toNat)

def execShr (h : Hdr) (d a c : BitVec 7) (s : State) : Out :=
  issueTeam (.shr h d a c) h s (aluOp shrWord d.toNat a.toNat c.toNat)

def execSar (h : Hdr) (d a c : BitVec 7) (s : State) : Out :=
  issueTeam (.sar h d a c) h s (aluOp sarWord d.toNat a.toNat c.toNat)

def execRot (h : Hdr) (d a c : BitVec 7) (s : State) : Out :=
  issueTeam (.rot h d a c) h s (aluOp rotWord d.toNat a.toNat c.toNat)

def execBfx (h : Hdr) (d a c : BitVec 7) (s : State) : Out :=
  issueTeam (.bfx h d a c) h s (aluOp bfxWord d.toNat a.toNat c.toNat)

def execBfi (h : Hdr) (d a c : BitVec 7) (s : State) : Out :=
  issueTeam (.bfi h d a c) h s (fun t =>
    t.write d.toNat (fun l => bfiWord (t.reg d.toNat l) (t.reg a.toNat l) (t.reg c.toNat l)))

/-- R88: by the branch predicate of the lane, or of the team for a uniform destination. -/
def execSel (h : Hdr) (d a c : BitVec 7) (s : State) : Out :=
  issueTeam (.sel h d a c) h s (fun t =>
    t.write d.toNat (fun l =>
      if (if 96 ≤ d.toNat then t.bpAny else t.bpMask.getLsbD l) then t.reg a.toNat l else t.reg c.toNat l))

def execLea (h : Hdr) (d a c : BitVec 7) (s : State) : Out :=
  issueTeam (.lea h d a c) h s (fun t => t.writePair d.toNat (fun l => t.pair a.toNat l + sext64 (t.reg c.toNat l)))

def execAdd64 (h : Hdr) (d a c : BitVec 7) (s : State) : Out :=
  issueTeam (.add64 h d a c) h s (pairOp (· + ·) d.toNat a.toNat c.toNat)

def execSub64 (h : Hdr) (d a c : BitVec 7) (s : State) : Out :=
  issueTeam (.sub64 h d a c) h s (pairOp (· - ·) d.toNat a.toNat c.toNat)

def execShl64 (h : Hdr) (d a : BitVec 7) (n : BitVec 6) (s : State) : Out :=
  issueTeam (.shl64 h d a n) h s (fun t => t.writePair d.toNat (fun l => t.pair a.toNat l <<< n.toNat))

def execShr64 (h : Hdr) (d a : BitVec 7) (n : BitVec 6) (s : State) : Out :=
  issueTeam (.shr64 h d a n) h s (fun t => t.writePair d.toNat (fun l => t.pair a.toNat l >>> n.toNat))

def execIcmp (h : Hdr) (p : BitVec 4) (k : BitVec 3) (a c : BitVec 7) (s : State) : Out :=
  issueTeam (.icmp h p k a c) h s (fun t =>
    t.writePred p.toNat (fun l => condInt k.toNat (t.reg a.toNat l).toInt (t.reg c.toNat l).toInt))

def execUcmp (h : Hdr) (p : BitVec 4) (k : BitVec 3) (a c : BitVec 7) (s : State) : Out :=
  issueTeam (.ucmp h p k a c) h s (fun t =>
    t.writePred p.toNat (fun l => condInt k.toNat (t.reg a.toNat l).toNat (t.reg c.toNat l).toNat))

end Sys2Proof.Machine
end

