-- ==== Sys2Proof/Machine/LoadStore.lean ====
section
/-!
DEFINITION. Loads and stores (R125 to R127), argument reads (R128), and cache hints (R145).
-/

namespace Sys2Proof.Machine

/-- An access of 4 or 8 bytes with an offset in units of its size (R125). -/
def offset64 (o : BitVec 7) (size : Nat) : Word64 := o.signExtend 64 * BitVec.ofNat 64 size
def offset32 (o : BitVec 7) (size : Nat) : Word := o.signExtend 32 * BitVec.ofNat 32 size

/-- An ordered form (R126): acquire, or release, or both for `.sc`. -/
def orderedForm (space : Space) (kind : MemKind) (bytes : Nat) (sc : Bool) (scope : BitVec 3) (spec : Nat) : MemForm :=
  { plainForm space kind bytes false spec with
    acq := sc || kind = .load, rel := sc || kind = .store, scope := scope.toNat }

/-- A uniform form, made once for the team (R127). -/
def uniformForm (kind : MemKind) (bytes : Nat) (spec : Nat) : MemForm :=
  { plainForm .global kind bytes false spec with once := true }

def execLdB32 (h : Hdr) (d a o : BitVec 7) (s : State) : Out :=
  issue (.ldB32 h d a o) h s
    (memOp (.ldB32 h d a o) (plainForm .global .load 4 false d.toNat) (globalAddr a.toNat (offset64 o 4)))

def execLdB64 (h : Hdr) (d a o : BitVec 7) (s : State) : Out :=
  issue (.ldB64 h d a o) h s
    (memOp (.ldB64 h d a o) (plainForm .global .load 8 false d.toNat) (globalAddr a.toNat (offset64 o 8)))

def execStB32 (h : Hdr) (d a o : BitVec 7) (s : State) : Out :=
  issue (.stB32 h d a o) h s
    (memOp (.stB32 h d a o) (plainForm .global .store 4 false d.toNat) (globalAddr a.toNat (offset64 o 4)))

def execStB64 (h : Hdr) (d a o : BitVec 7) (s : State) : Out :=
  issue (.stB64 h d a o) h s
    (memOp (.stB64 h d a o) (plainForm .global .store 8 false d.toNat) (globalAddr a.toNat (offset64 o 8)))

def execLdsB32 (h : Hdr) (d a o : BitVec 7) (s : State) : Out :=
  issue (.ldsB32 h d a o) h s
    (memOp (.ldsB32 h d a o) (plainForm .own .load 4 false d.toNat) (scratchAddr a.toNat (offset32 o 4)))

def execStsB32 (h : Hdr) (d a o : BitVec 7) (s : State) : Out :=
  issue (.stsB32 h d a o) h s
    (memOp (.stsB32 h d a o) (plainForm .own .store 4 false d.toNat) (scratchAddr a.toNat (offset32 o 4)))

def execLdAcqB32 (h : Hdr) (c : BitVec 3) (d a : BitVec 7) (s : State) : Out :=
  issue (.ldAcqB32 h c d a) h s
    (memOp (.ldAcqB32 h c d a) (orderedForm .global .load 4 false c d.toNat) (globalAddr a.toNat 0#64))

def execLdScB32 (h : Hdr) (c : BitVec 3) (d a : BitVec 7) (s : State) : Out :=
  issue (.ldScB32 h c d a) h s
    (memOp (.ldScB32 h c d a) (orderedForm .global .load 4 true c d.toNat) (globalAddr a.toNat 0#64))

def execLdAcqB64 (h : Hdr) (c : BitVec 3) (d a : BitVec 7) (s : State) : Out :=
  issue (.ldAcqB64 h c d a) h s
    (memOp (.ldAcqB64 h c d a) (orderedForm .global .load 8 false c d.toNat) (globalAddr a.toNat 0#64))

def execLdScB64 (h : Hdr) (c : BitVec 3) (d a : BitVec 7) (s : State) : Out :=
  issue (.ldScB64 h c d a) h s
    (memOp (.ldScB64 h c d a) (orderedForm .global .load 8 true c d.toNat) (globalAddr a.toNat 0#64))

def execStRelB32 (h : Hdr) (c : BitVec 3) (d a : BitVec 7) (s : State) : Out :=
  issue (.stRelB32 h c d a) h s
    (memOp (.stRelB32 h c d a) (orderedForm .global .store 4 false c d.toNat) (globalAddr a.toNat 0#64))

def execStScB32 (h : Hdr) (c : BitVec 3) (d a : BitVec 7) (s : State) : Out :=
  issue (.stScB32 h c d a) h s
    (memOp (.stScB32 h c d a) (orderedForm .global .store 4 true c d.toNat) (globalAddr a.toNat 0#64))

def execStRelB64 (h : Hdr) (c : BitVec 3) (d a : BitVec 7) (s : State) : Out :=
  issue (.stRelB64 h c d a) h s
    (memOp (.stRelB64 h c d a) (orderedForm .global .store 8 false c d.toNat) (globalAddr a.toNat 0#64))

def execStScB64 (h : Hdr) (c : BitVec 3) (d a : BitVec 7) (s : State) : Out :=
  issue (.stScB64 h c d a) h s
    (memOp (.stScB64 h c d a) (orderedForm .global .store 8 true c d.toNat) (globalAddr a.toNat 0#64))

def execLdsAcq (h : Hdr) (c : BitVec 3) (d a : BitVec 7) (s : State) : Out :=
  issue (.ldsAcq h c d a) h s
    (memOp (.ldsAcq h c d a) (orderedForm .gang .load 4 false c d.toNat) (scratchAddr a.toNat 0#32))

def execLdsSc (h : Hdr) (c : BitVec 3) (d a : BitVec 7) (s : State) : Out :=
  issue (.ldsSc h c d a) h s
    (memOp (.ldsSc h c d a) (orderedForm .gang .load 4 true c d.toNat) (scratchAddr a.toNat 0#32))

def execStsRel (h : Hdr) (c : BitVec 3) (d a : BitVec 7) (s : State) : Out :=
  issue (.stsRel h c d a) h s
    (memOp (.stsRel h c d a) (orderedForm .gang .store 4 false c d.toNat) (scratchAddr a.toNat 0#32))

def execStsSc (h : Hdr) (c : BitVec 3) (d a : BitVec 7) (s : State) : Out :=
  issue (.stsSc h c d a) h s
    (memOp (.stsSc h c d a) (orderedForm .gang .store 4 true c d.toNat) (scratchAddr a.toNat 0#32))

def execLdB8 (h : Hdr) (d a : BitVec 7) (s : State) : Out :=
  issue (.ldB8 h d a) h s
    (memOp (.ldB8 h d a) (plainForm .global .load 1 false d.toNat) (globalAddr a.toNat 0#64))

def execLdB16 (h : Hdr) (d a : BitVec 7) (s : State) : Out :=
  issue (.ldB16 h d a) h s
    (memOp (.ldB16 h d a) (plainForm .global .load 2 false d.toNat) (globalAddr a.toNat 0#64))

def execLdS8 (h : Hdr) (d a : BitVec 7) (s : State) : Out :=
  issue (.ldS8 h d a) h s
    (memOp (.ldS8 h d a) (plainForm .global .load 1 true d.toNat) (globalAddr a.toNat 0#64))

def execLdS16 (h : Hdr) (d a : BitVec 7) (s : State) : Out :=
  issue (.ldS16 h d a) h s
    (memOp (.ldS16 h d a) (plainForm .global .load 2 true d.toNat) (globalAddr a.toNat 0#64))

def execStB8 (h : Hdr) (d a : BitVec 7) (s : State) : Out :=
  issue (.stB8 h d a) h s
    (memOp (.stB8 h d a) (plainForm .global .store 1 false d.toNat) (globalAddr a.toNat 0#64))

def execStB16 (h : Hdr) (d a : BitVec 7) (s : State) : Out :=
  issue (.stB16 h d a) h s
    (memOp (.stB16 h d a) (plainForm .global .store 2 false d.toNat) (globalAddr a.toNat 0#64))

def execLdsB8 (h : Hdr) (d a : BitVec 7) (s : State) : Out :=
  issue (.ldsB8 h d a) h s
    (memOp (.ldsB8 h d a) (plainForm .own .load 1 false d.toNat) (scratchAddr a.toNat 0#32))

def execLdsB16 (h : Hdr) (d a : BitVec 7) (s : State) : Out :=
  issue (.ldsB16 h d a) h s
    (memOp (.ldsB16 h d a) (plainForm .own .load 2 false d.toNat) (scratchAddr a.toNat 0#32))

def execLdsS8 (h : Hdr) (d a : BitVec 7) (s : State) : Out :=
  issue (.ldsS8 h d a) h s
    (memOp (.ldsS8 h d a) (plainForm .own .load 1 true d.toNat) (scratchAddr a.toNat 0#32))

def execLdsS16 (h : Hdr) (d a : BitVec 7) (s : State) : Out :=
  issue (.ldsS16 h d a) h s
    (memOp (.ldsS16 h d a) (plainForm .own .load 2 true d.toNat) (scratchAddr a.toNat 0#32))

def execStsB8 (h : Hdr) (d a : BitVec 7) (s : State) : Out :=
  issue (.stsB8 h d a) h s
    (memOp (.stsB8 h d a) (plainForm .own .store 1 false d.toNat) (scratchAddr a.toNat 0#32))

def execStsB16 (h : Hdr) (d a : BitVec 7) (s : State) : Out :=
  issue (.stsB16 h d a) h s
    (memOp (.stsB16 h d a) (plainForm .own .store 2 false d.toNat) (scratchAddr a.toNat 0#32))

def execLdsB64 (h : Hdr) (d a : BitVec 7) (s : State) : Out :=
  issue (.ldsB64 h d a) h s
    (memOp (.ldsB64 h d a) (plainForm .own .load 8 false d.toNat) (scratchAddr a.toNat 0#32))

def execStsB64 (h : Hdr) (d a : BitVec 7) (s : State) : Out :=
  issue (.stsB64 h d a) h s
    (memOp (.stsB64 h d a) (plainForm .own .store 8 false d.toNat) (scratchAddr a.toNat 0#32))

def execLdr (h : Hdr) (d a : BitVec 7) (s : State) : Out :=
  issue (.ldr h d a) h s
    (memOp (.ldr h d a) (plainForm .gang .load 4 false d.toNat) (scratchAddr a.toNat 0#32))

def execStr (h : Hdr) (d a : BitVec 7) (s : State) : Out :=
  issue (.str h d a) h s
    (memOp (.str h d a) (plainForm .gang .store 4 false d.toNat) (scratchAddr a.toNat 0#32))

def execLdkB32 (h : Hdr) (d a : BitVec 7) (s : State) : Out :=
  issue (.ldkB32 h d a) h s
    (memOp (.ldkB32 h d a) (uniformForm .load 4 d.toNat) (globalAddr a.toNat 0#64))

def execLdkB64 (h : Hdr) (d a : BitVec 7) (s : State) : Out :=
  issue (.ldkB64 h d a) h s
    (memOp (.ldkB64 h d a) (uniformForm .load 8 d.toNat) (globalAddr a.toNat 0#64))

def execStkB32 (h : Hdr) (d a : BitVec 7) (s : State) : Out :=
  issue (.stkB32 h d a) h s
    (memOp (.stkB32 h d a) (uniformForm .store 4 d.toNat) (globalAddr a.toNat 0#64))

def execStkB64 (h : Hdr) (d a : BitVec 7) (s : State) : Out :=
  issue (.stkB64 h d a) h s
    (memOp (.stkB64 h d a) (uniformForm .store 8 d.toNat) (globalAddr a.toNat 0#64))

/-- Bytes of the launch's argument copy (R128). -/
def State.argBytes (s : State) (p : Party) : List Byte :=
  match (s.taskOf p).bind (fun k => s.grid? k.grid) with
  | some g => g.args
  | none => []

/-- `ldarg` (R128): reads past the declared size take ACCESS, with the byte offset in the address field (R184); none is made when no
lane takes part (R146). -/
def ldargRes (d a n : Nat) (s : State) (p : Party) (t : Team) : Res :=
  let args := s.argBytes p
  if d < 96 && t.lanes.isEmpty then .ok s t
  else if args.length < a * n + n then .trap (trapOf 21 (BitVec.ofNat 64 (a * n)) 0)
  else
    let v := bytesAt args (a * n) n
    .ok s (if n = 8 then t.writePair d (fun _ => BitVec.ofNat 64 v) else t.write d (fun _ => BitVec.ofNat 32 v))

def execLdargB8 (h : Hdr) (d a : BitVec 7) (s : State) : Out :=
  issue (.ldargB8 h d a) h s (ldargRes d.toNat a.toNat 1)

def execLdargB16 (h : Hdr) (d a : BitVec 7) (s : State) : Out :=
  issue (.ldargB16 h d a) h s (ldargRes d.toNat a.toNat 2)

def execLdargB32 (h : Hdr) (d a : BitVec 7) (s : State) : Out :=
  issue (.ldargB32 h d a) h s (ldargRes d.toNat a.toNat 4)

def execLdargB64 (h : Hdr) (d a : BitVec 7) (s : State) : Out :=
  issue (.ldargB64 h d a) h s (ldargRes d.toNat a.toNat 8)

/-- The address of a hint's line: a walk that it needs is made at once, and one that finds no page drops the hint (R145, R272). -/
def State.hintAddr (s : State) (p : Party) (va : Word64) : State × Xlat :=
  let c := s.ctxOf p
  match p with
  | .team _ _ | .lead _ _ =>
    (match s.lookup (s.coreOf p) c .user .load va.toNat with
     | .miss =>
       if s.walkBusy c va.toNat then (s, .busy)
       else (match s.walk c va.toNat .load with
         | some (l, m) => (s.fillTlb (s.coreOf p) c va.toNat l m .load, s.judge .user .load l.flags (l.pa + va.toNat % l.size))
         | none => (s, .noTranslation))
     | x => (s, x))
  | _ => s.xlatNow c .sup .load va.toNat

/-- What a hint does to the L1 in the lanes that take part, for each whose line passes the checks of R122 and meets no registered
range; the other lanes' are dropped (R145, R245). Code on no core has no L1. -/
def hintLines (f : State → Nat → State) (a : Nat) (p : Party) (t : Team) : List Nat → State → Res
  | [], s => .ok s t
  | l :: ls, s =>
    let va := t.pair a l
    match s.hintAddr p va with
    | (_, .busy) => .wait
    | (s, .ok pa) =>
      let drop := (partyTask p).isNone || s.rangeLocked p (.glob pa) (BitVec.ofNat 64 (va.toNat / 128 * 128)) 128 true ||
        !s.l1Caches (s.coreOf p) (s.ctxOf p) (pa / 128) va
      hintLines f a p t ls (if drop then s else f s (pa / 128))
    | (s, _) => hintLines f a p t ls s

/-- `pref` (R145): `.l1` brings the line into the core's L1; `.l3` changes nothing that State holds. -/
def execPref (h : Hdr) (a : BitVec 7) (l : BitVec 3) (s : State) : Out :=
  issue (.pref h a l) h s (fun s p t =>
    if l = 0#3 then hintLines (fun s n => s.l1Access (s.coreOf p) n) a.toNat p t t.lanes s else .ok s t)

/-- `cctl` (R145): `.l1` evicts the line from the core's L1; `.l3` writes committed content back, which State holds as one with
what lies in HBM4. -/
def execCctl (h : Hdr) (a : BitVec 7) (o : BitVec 3) (s : State) : Out :=
  issue (.cctl h a o) h s (fun s p t =>
    if o = 0#3 then hintLines (fun s n => s.l1Evict (s.coreOf p) n) a.toNat p t t.lanes s else .ok s t)

end Sys2Proof.Machine
end

