-- ==== Sys2Proof/Machine/Predicate.lean ====
section
/-!
DEFINITION. The predicate group (R92, R93).
-/

namespace Sys2Proof.Machine

/-- pd from two predicates. -/
def predOp (f : Bool → Bool → Bool) (d a c : Nat) (t : Team) : Team :=
  t.writePred d (fun l => f (t.predAt a l) (t.predAt c l))

def execPand (h : Hdr) (d a c : BitVec 4) (s : State) : Out :=
  issueTeam (.pand h d a c) h s (predOp and d.toNat a.toNat c.toNat)

def execPor (h : Hdr) (d a c : BitVec 4) (s : State) : Out :=
  issueTeam (.por h d a c) h s (predOp or d.toNat a.toNat c.toNat)

def execPxor (h : Hdr) (d a c : BitVec 4) (s : State) : Out :=
  issueTeam (.pxor h d a c) h s (predOp xor d.toNat a.toNat c.toNat)

def execPnot (h : Hdr) (d a : BitVec 4) (s : State) : Out :=
  issueTeam (.pnot h d a) h s (fun t => t.writePred d.toNat (fun l => !t.predAt a.toNat l))

def execPset (h : Hdr) (d : BitVec 4) (a : BitVec 7) (s : State) : Out :=
  issueTeam (.pset h d a) h s (fun t => t.writePred d.toNat (fun l => t.reg a.toNat l ≠ 0#32))

def execPget (h : Hdr) (d : BitVec 7) (p : BitVec 4) (s : State) : Out :=
  issueTeam (.pget h d p) h s (fun t => t.write d.toNat (fun l => if t.predAt p.toNat l then 1#32 else 0#32))

end Sys2Proof.Machine
end

