-- ==== Sys2Proof/Machine/Engraver.lean ====
section
/-!
DEFINITION. The Engraver's work on a kernel (R309 to R319): tracing paths with the values that are static on them,
folding words by running them, unrolling loops, and emitting plate words with their map. A place is a source word in one
copy of the unrolled loops around it; facts are kept per place, the stacks of R25 per path.
-/

namespace Sys2Proof.Machine

/-! ## Places, values, stacks -/

/-- A source word, by index, within iterations of unrolled loops: `lset` index, iteration and count, outermost first. -/
structure Spot where
  idx : Nat
  ctx : List (Nat × Nat × Nat)
  deriving DecidableEq, Repr

/-- What is known of a sequence slot: whether its last write was folded with one value, and the places it may name;
`none` when it may name anything (R310, R319). -/
structure SlotVal where
  stat : Bool
  vals : Option (List Spot)
  deriving DecidableEq, Repr

/-- A field of md: whether its last write was folded, and its value where every path gives one (R309). -/
structure MdField where
  stat : Bool
  val : Option Nat
  deriving DecidableEq, Repr

/-- What holds at a place on every path to it (R309). -/
structure Known where
  /-- No path has gone through a slot that is not static (R310). -/
  live : Bool
  regs : AMap (Option Word)
  preds : AMap (Option Bool)
  slots : List SlotVal
  /-- One for each field of R21, as `mdFields` lists them. -/
  md : List MdField
  tw : Option Nat
  /-- The mask is the team's full start mask. -/
  full : Bool
  /-- The least lane-register budget of the roles whose paths come here. -/
  budget : Nat
  deriving DecidableEq, Repr

/-- An entry of the divergence stack on a path. -/
inductive DivVal where
  | rejoin (full : Bool)
  /-- Its target, when its mask may hold lanes. -/
  | pending (dest : Option Spot)
  deriving DecidableEq, Repr

/-- The stacks on a path: calls with the depths beneath them; loops by `lset` index, and whether unrolled. -/
structure Stacks where
  div : List DivVal
  calls : List (Spot × Nat × Nat)
  loops : List (Nat × Bool)
  deriving DecidableEq, Repr

/-- What the tracing keeps of a place: what holds there, the stacks found there, and what was made of its `lset`. -/
structure Node where
  place : Spot
  known : Known
  stks : List Stacks
  unroll : Option Nat
  deriving DecidableEq, Repr

/-- A kernel to engrave: its code address, its source, the launch, the entry of its prologue if it has one, and the loops not to
unroll: an `lset` in all its copies, or in one. -/
structure PlateJob where
  code : Word64
  src : List Nat
  grid : Grid
  prologue : Option Word64
  barred : List (Nat × Option (List (Nat × Nat × Nat)))
  deriving DecidableEq, Repr

/-! ## Joining paths -/

/-- A map that keeps what two maps agree on. -/
def agree {α : Type} [DecidableEq α] (a b : AMap (Option α)) : AMap (Option α) :=
  a.filter (fun e => e.2.isSome && AMap.get none b e.1 = e.2)

/-- A value that two paths agree on. -/
def same {α : Type} [DecidableEq α] (a b : Option α) : Option α := if a = b then a else none

def SlotVal.meet (a b : SlotVal) : SlotVal :=
  let vals := match a.vals, b.vals with
    | some x, some y => some (x ++ y.filter (fun p => !x.contains p))
    | _, _ => none
  { stat := a.stat && b.stat && decide ((vals.map List.length) = some 1), vals := vals }

def MdField.meet (a b : MdField) : MdField :=
  { stat := a.stat && b.stat && decide (a.val = b.val), val := same a.val b.val }

def Known.meet (a b : Known) : Known :=
  { live := a.live && b.live, regs := agree a.regs b.regs, preds := agree a.preds b.preds
    slots := (a.slots.zip b.slots).map (fun p => p.1.meet p.2), md := (a.md.zip b.md).map (fun p => p.1.meet p.2)
    tw := same a.tw b.tw, full := a.full && b.full, budget := min a.budget b.budget }

/-- After a transfer through a slot that is not static, no value is (R310). -/
def Known.bare (k : Known) : Known :=
  { k with live := false, regs := [], preds := [], slots := k.slots.map (fun v => { v with stat := false })
           md := k.md.map (fun v => { v with stat := false }), tw := none }

/-! ## What words read and write -/

/-- The fields of md (R21), each by its lowest bit and its width: 0 g, 1 gi, 2 type, 3 rnd, 4 sat, 5 to 16 the flush bits,
17 abs, 18 red, 19 bp. -/
def mdFields : List (Nat × Nat) :=
  [(0, 3), (3, 1), (4, 4), (8, 3), (11, 1)] ++ (span 12 12).map (fun b => (b, 1)) ++ [(24, 1), (25, 1), (28, 3)]

/-- The fields in a part of md: 0 `.lo`, 1 `.fl`, 2 `.hi`. -/
def mdPartFields (n : Nat) : List Nat := if n = 0 then span 0 5 else if n = 1 then span 5 12 else span 17 3

/-- A field's value in an md word. -/
def mdFieldOf (md : Word) (f : Nat) : Nat :=
  match mdFields[f]? with
  | some e => nbits md.toNat e.1 e.2
  | none => 0

/-- Value of an md field, 0 when it is not known. -/
def Known.mdVal (k : Known) (f : Nat) : Nat := ((k.md[f]?).bind (·.val)).getD 0
def Known.mdStat (k : Known) (f : Nat) : Bool := k.live && ((k.md[f]?).map (·.stat)).getD false
def Known.mdKnown (k : Known) (f : Nat) : Bool := ((k.md[f]?).bind (·.val)).isSome

/-- md as far as it is known. -/
def Known.mdWord (k : Known) : Word :=
  BitVec.ofNat 32 ((mdFields.zipIdx.map (fun e => 2 ^ e.1.1 * k.mdVal e.2)).sum)

/-- A part of md, as far as it is known. -/
def mdPart (md : Word) (n : Nat) : Nat := if n = 2 then nbits md.toNat 24 8 else nbits md.toNat (12 * n) 12

/-- The types that md may hold. -/
def Known.types (k : Known) : List Nat := if k.mdKnown 2 then [k.mdVal 2] else span 0 13

/-- The tile widths that tw may hold. -/
def Known.widths (k : Known) : List Nat :=
  match k.tw with
  | some w => [w]
  | none => span 1 5

/-- A word that takes D as an operand beside its listed sources (R83, R87, R101, R102, R133). -/
def readsD : Instr → Option Nat
  | .movhi _ d _ | .bfi _ d _ _ | .fma _ d _ _ | .fmaN _ d _ _ | .dot _ d _ _ | .atomScratchpad _ d _ _ _
  | .atomRlx _ d _ _ _ | .atomAcq _ d _ _ _ | .atomRel _ d _ _ _ | .atomAr _ d _ _ _ | .atomSc _ d _ _ _ => some d.toNat
  | _ => none

def expandUses (l : List RegUse) : List Nat := l.flatMap (fun r => if r.pair then [r.spec, r.spec + 1] else [r.spec])

/-- Registers a word writes, under a type. -/
def dstRegs (t : Nat) (i : Instr) : List Nat :=
  expandUses (uses t i).dst ++ (match i with
    | .cvt _ d _ y => span d.toNat (spanRegs t (cvtCount y.toNat t))
    | .unpack _ d _ => span d.toNat (tyCount t)
    | .mdrain _ _ k _ _ n => if k.toNat = 0 then span (4 * n.toNat) (spanRegs t 32) else []
    | _ => [])

/-- Registers a word reads, under a type. -/
def srcRegs (t : Nat) (i : Instr) : List Nat :=
  expandUses (uses t i).src ++ (match i with
    | .cvt _ _ a y => span a.toNat (spanRegs y.toNat (cvtCount y.toNat t))
    | .pack _ _ a => span a.toNat (tyCount t)
    | _ => []) ++ (match readsD i with
    | some d => (expandUses (uses t i).dst).filter (fun r => decide (d ≤ r))
    | none => [])

/-- Predicates a word writes, p0 apart. -/
def dstPreds (i : Instr) : List Nat := ((uses 0 i).pdst.map (·.1)).filter (fun c => c ≠ 0)

/-- The major opcode of a word. -/
def majorOf (i : Instr) : Nat := encodeNat i / 2 ^ 26

/-- R50: the classes on which B is honoured. -/
def honours : Instr → Bool
  | .lset _ _ | .lsetImm _ _ | .msetLo _ _ | .msetFl _ _ | .msetHi _ _ | .mput _ _ | .mget _ _ | .tile _ _
  | .jmov _ _ _ => true
  | .sreg _ _ n => 7 ≤ n.toNat && n.toNat ≤ 9
  | .ldargB8 _ _ _ | .ldargB16 _ _ _ | .ldargB32 _ _ _ | .ldargB64 _ _ _ => true
  | i => i.isWord && ((2 ≤ majorOf i && majorOf i ≤ 7) || (0x10 ≤ majorOf i && majorOf i ≤ 0x31))

/-- Bytes that an `ldarg` reads: first and number. -/
def ldargRange : Instr → Option (Nat × Nat)
  | .ldargB8 _ _ a => some (a.toNat, 1)
  | .ldargB16 _ _ a => some (2 * a.toNat, 2)
  | .ldargB32 _ _ a => some (4 * a.toNat, 4)
  | .ldargB64 _ _ a => some (8 * a.toNat, 8)
  | _ => none

/-- A word with no lane destination, whose result is the team's. -/
def laneDst (i : Instr) : Bool := (uses 0 i).dst.any (fun r => r.spec < 96) || (uses 0 i).pdst.any (fun p => p.1 < 8)

/-- The md fields of a type's operand flush bit, and of its result flush bit (R60). -/
def flushInField (t : Nat) : List Nat := ((flushBit t).map (fun b => b - 7)).toList
def flushOutField (t : Nat) : List Nat := ((flushBit t).map (fun b => b - 6)).toList
def flushInFields : List Nat := [5, 7, 9, 11, 13, 15]

/-- The md fields that bring a result of a type into its format: integers into range (R59), floats rounded and flushed. -/
def resultFields (t : Nat) : List Nat := if (fmtOf t).isSome then 3 :: 4 :: flushOutField t else [4]

/-- The md fields that a word's own effect reads under a type, its guard apart (R21, R22, R58 to R60, R79, R97 to R111, R116,
R117, R149, R154, R163 to R166). -/
def mdArith (t : Nat) (i : Instr) : List Nat :=
  let float := (fmtOf t).isSome
  match i with
  | .mget _ _ => span 0 20
  | .sel _ _ _ _ => [19]
  | .mkabs _ _ _ => [2, 19]
  | .addT _ _ _ _ | .subT _ _ _ _ | .mulT _ _ _ _ | .divT _ _ _ _ | .fma _ _ _ _ | .fmaN _ _ _ _ =>
    2 :: 17 :: (flushInField t ++ resultFields t)
  | .minT _ _ _ _ | .maxT _ _ _ _ => 2 :: (if float then flushInField t ++ flushOutField t else [])
  | .absT _ _ _ | .negT _ _ _ => 2 :: (if float then flushInField t ++ flushOutField t else [4])
  | .sqrt _ _ _ | .rcp _ _ _ | .rsq _ _ _ | .exp2 _ _ _ | .log2 _ _ _ | .sinpi _ _ _ | .cospi _ _ _ =>
    2 :: (flushInField t ++ resultFields t)
  | .dot _ _ _ _ => 2 :: (if float then flushInField t ++ flushInField 6 ++ resultFields 6 else [4])
  | .fcmp _ _ _ _ _ => 2 :: flushInField t
  | .classify _ _ _ _ | .pack _ _ _ | .unpack _ _ _ => [2]
  | .cvt _ _ _ y =>
    let src := y.toNat
    2 :: (if (fmtOf src).isSome then flushInField src else []) ++
      (if float then (if src = t then flushOutField t else resultFields t) else if (fmtOf src).isSome then [3] else [])
  | .cvtmx _ _ _ => 2 :: flushInField 6 ++ flushOutField t
  | .cvtmxH16 _ _ _ | .cvtmxH32 _ _ _ => 2 :: 17 :: flushInField 6
  | .tred _ _ _ o => 2 :: (if o.toNat < 3 then flushInField t ++ resultFields t else [])
  | .scan _ _ _ _ => 2 :: (flushInField t ++ resultFields t)
  | .tcopy _ _ _ | .chain _ _ _ => 3 :: 4 :: 17 :: span 5 12
  | .coll _ _ _ => span 5 12
  | .mma _ _ _ _ | .mmaTile _ _ _ _ _ => 18 :: flushInFields
  | .mdrain _ _ k _ _ _ => 18 :: (if k.toNat = 3 then [] else 2 :: resultFields t)
  | .mmz _ _ _ | .mld _ _ _ | .smx _ _ _ | .sexp _ _ _ | .srsc _ _ _ => [18]
  | _ => []

/-- A word whose effect the guard restricts (R23): on lanes' registers, predicates or accesses, on a transaction's lanes, on the
lanes that trap (R170), or on the rows of a tile (R162). -/
def readsGuard (t : Nat) (i : Instr) : Bool :=
  match i with
  | .rdlane _ _ _ => false
  | .txbCoh _ | .txbDev _ | .txe _ _ _ | .txa _ _ | .trap _ _ | .pref _ _ _ | .cctl _ _ _ | .mmz _ _ _ | .mld _ _ _ | .mma _ _ _ _
  | .mmaTile _ _ _ _ _ | .mdrain _ _ _ _ _ _ | .smx _ _ _ | .sexp _ _ _ | .srsc _ _ _ => true
  | _ => laneDst i || (uses t i).src.any (fun r => r.spec < 96) || majorOf i = 0x32 || majorOf i = 0x33 ||
      [TxUse.global, .scratchpad, .lane].contains (txUse i)

/-- The md fields that a word's own effect reads under a type. -/
def mdReads (t : Nat) (i : Instr) : List Nat := (if readsGuard t i then [0, 1] else []) ++ mdArith t i

/-- Words that read tw (R24, R111). -/
def readsTw (i : Instr) : Bool :=
  match i with
  | .cvtmx _ _ _ | .cvtmxH16 _ _ _ | .cvtmxH32 _ _ _ => true
  | _ => majorOf i = 0x32 || majorOf i = 0x33

/-- Words that read the branch predicate in their own effect (R88, R105). -/
def readsBp : Instr → Bool
  | .sel _ _ _ _ | .mkabs _ _ _ => true
  | _ => false

/-- A word with another sequencing code and B mark. -/
def recode (i : Instr) (code : Nat) (b : Bool) : Instr :=
  match i.hdr? with
  | some h => decodeNat (encodeNat i - hdrNat h + hdrNat { seq := BitVec.ofNat 4 code, b := b })
  | none => i

def seqOf (i : Instr) : Nat :=
  match i.hdr? with
  | some h => h.seq.toNat
  | none => 14
/-- The B bit of a word. -/
def bitB (i : Instr) : Bool :=
  match i.hdr? with
  | some h => h.b
  | none => false

/-! ## The source -/

def PlateJob.word (j : PlateJob) (i : Nat) : Instr := decodeNat (j.src.getD i 0)

/-- The word whose `lp` closes a loop (R315), from an index on, with nested loops matched. -/
def PlateJob.closeFrom (j : PlateJob) : Nat → Nat → Nat → Option Nat
  | _, _, 0 => none
  | i, depth, fuel + 1 =>
    if j.src.length ≤ i then none
    else
      let opens := match j.word i with
        | .lset _ _ | .lsetImm _ _ => 1
        | _ => 0
      if seqOf (j.word i) = 8 then
        if depth + opens = 0 then some i else PlateJob.closeFrom j (i + 1) (depth + opens - 1) fuel
      else PlateJob.closeFrom j (i + 1) (depth + opens) fuel

/-- The closing word of the loop that an `lset` opens, when the body keeps within 256 words. -/
def PlateJob.close (j : PlateJob) (l : Nat) : Option Nat := j.closeFrom (l + 1) 0 256

/-- A word lies in the body of a loop. -/
def PlateJob.inBody (j : PlateJob) (l i : Nat) : Bool :=
  match j.close l with
  | some c => decide (l < i) && decide (i ≤ c)
  | none => false

/-- A place seen from within unrolled loops: those whose bodies hold it (R319). -/
def PlateJob.at' (j : PlateJob) (ctx : List (Nat × Nat × Nat)) (i : Nat) : Spot :=
  { idx := i, ctx := ctx.filter (fun e => j.inBody e.1 i) }

/-- Index of a source word by address. -/
def PlateJob.index (j : PlateJob) (a : Word64) : Option Nat :=
  let d := (a - j.code).toNat
  if d % 4 = 0 && d / 4 < j.src.length then some (d / 4) else none

/-- The word that a `jset` names; none outside the source. -/
def PlateJob.jsetTarget (j : PlateJob) (i : Nat) : Option Nat :=
  match j.word i with
  | .jset _ _ n =>
    let t : Int := (i : Int) + n.toInt
    if 0 ≤ t && t < (j.src.length : Int) then some t.toNat else none
  | _ => none

/-- A word whose B is honoured (R50): an `ldarg` only when all it reads lies in the static range. -/
def PlateJob.marked (j : PlateJob) (i : Instr) : Bool :=
  bitB i && honours i && (match ldargRange i with
    | some r => decide (r.1 + r.2 ≤ j.grid.record.staticSize)
    | none => true)

/-- Words that lead slices and the prologue reach: from a word to the next, and to where it sets a slot (R310). -/
def PlateJob.reached (j : PlateJob) : Nat → List Nat → List Nat → List Nat
  | 0, _, seen => seen
  | _ + 1, [], seen => seen
  | fuel + 1, i :: work, seen =>
    if seen.contains i || j.src.length ≤ i then PlateJob.reached j fuel work seen
    else
      let on := if [4, 5, 7, 10, 12].contains (seqOf (j.word i)) then [] else [i + 1]
      PlateJob.reached j fuel (on ++ (j.jsetTarget i).toList ++ work) (i :: seen)
def PlateJob.apart (j : PlateJob) : List Nat :=
  j.reached (4 * j.src.length + 4) (j.grid.roles.filterMap (fun r => if r.lead = 0#64 then none else j.index r.lead) ++
    (j.prologue.bind j.index).toList) []

/-- The words of the kernel code: those on a traced path, and those that no lead slice or prologue reaches (R310). -/
def PlateJob.kernelWords (j : PlateJob) (nodes : List Node) : List Nat :=
  let apart := j.apart
  (span 0 j.src.length).filter (fun i => !apart.contains i || nodes.any (fun n => n.place.idx = i))

/-- Entries of the launch's roles. -/
def PlateJob.entries (j : PlateJob) : List (Option Nat) := j.grid.roles.map (fun r => j.index r.entry)

/-! ## Folding -/

/-- Runs a word that may be folded, by its own meaning (R311). -/
def foldStep (i : Instr) (s : State) : Out :=
  match i with
  | .msetLo h v => execMsetLo h v s
  | .msetFl h v => execMsetFl h v s
  | .msetHi h v => execMsetHi h v s
  | .mput h a => execMput h a s
  | .mget h d => execMget h d s
  | .tile h w => execTile h w s
  | .sreg h d n => execSreg h d n s
  | .movi h d i => execMovi h d i s
  | .movhi h d i => execMovhi h d i s
  | .iaddi h d a i => execIaddi h d a i s
  | .mov h d a => execMov h d a s
  | .popc h d a => execPopc h d a s
  | .clz h d a => execClz h d a s
  | .ctz h d a => execCtz h d a s
  | .brev h d a => execBrev h d a s
  | .pand h d a c => execPand h d a c s
  | .por h d a c => execPor h d a c s
  | .pxor h d a c => execPxor h d a c s
  | .pnot h d a => execPnot h d a s
  | .pset h d a => execPset h d a s
  | .pget h d p => execPget h d p s
  | .ldargB8 h d a => execLdargB8 h d a s
  | .ldargB16 h d a => execLdargB16 h d a s
  | .ldargB32 h d a => execLdargB32 h d a s
  | .ldargB64 h d a => execLdargB64 h d a s
  | .iadd h d a c => execIadd h d a c s
  | .isub h d a c => execIsub h d a c s
  | .imul h d a c => execImul h d a c s
  | .imulh h d a c => execImulh h d a c s
  | .andB h d a c => execAndB h d a c s
  | .orB h d a c => execOrB h d a c s
  | .xorB h d a c => execXorB h d a c s
  | .andnB h d a c => execAndnB h d a c s
  | .shl h d a c => execShl h d a c s
  | .shr h d a c => execShr h d a c s
  | .sar h d a c => execSar h d a c s
  | .rot h d a c => execRot h d a c s
  | .bfx h d a c => execBfx h d a c s
  | .bfi h d a c => execBfi h d a c s
  | .sel h d a c => execSel h d a c s
  | .lea h d a c => execLea h d a c s
  | .add64 h d a c => execAdd64 h d a c s
  | .sub64 h d a c => execSub64 h d a c s
  | .shl64 h d a n => execShl64 h d a n s
  | .shr64 h d a n => execShr64 h d a n s
  | .icmp h p k a c => execIcmp h p k a c s
  | .ucmp h p k a c => execUcmp h p k a c s
  | .addT h d a c => execAddT h d a c s
  | .subT h d a c => execSubT h d a c s
  | .mulT h d a c => execMulT h d a c s
  | .minT h d a c => execMinT h d a c s
  | .maxT h d a c => execMaxT h d a c s
  | .divT h d a c => execDivT h d a c s
  | .dot h d a c => execDot h d a c s
  | .fcmp h p k a c => execFcmp h p k a c s
  | .classify h p a m => execClassify h p a m s
  | .absT h d a => execAbsT h d a s
  | .negT h d a => execNegT h d a s
  | .sqrt h d a => execSqrt h d a s
  | .rcp h d a => execRcp h d a s
  | .rsq h d a => execRsq h d a s
  | .exp2 h d a => execExp2 h d a s
  | .log2 h d a => execLog2 h d a s
  | .sinpi h d a => execSinpi h d a s
  | .cospi h d a => execCospi h d a s
  | .mkabs h d a => execMkabs h d a s
  | .fma h d a c => execFma h d a c s
  | .fmaN h d a c => execFmaN h d a c s
  | .cvt h d a t => execCvt h d a t s
  | .cvtmx h d a => execCvtmx h d a s
  | .cvtmxH16 h d a => execCvtmxH16 h d a s
  | .cvtmxH32 h d a => execCvtmxH32 h d a s
  | .pack h d a => execPack h d a s
  | .unpack h d a => execUnpack h d a s
  | _ => .next s

/-- A predicate of a team with one value in every lane. -/
def Team.benchPred (t : Team) (c : Nat) (b : Bool) : Team :=
  if c < 8 then { t with p := AMap.put 0#1024 t.p c (if b then allLanes else 0#1024) }
  else { t with q := if b then t.q ||| (1#4 <<< (c - 8)) else t.q &&& ~~~ (1#4 <<< (c - 8)) }

/-- A machine with one team of one group that is about to run a word at a place, with what is known there. -/
def PlateJob.bench (j : PlateJob) (k : Known) (i : Nat) : State × Team :=
  let t := Team.start .kernel 0 0 1 k.budget j.code k.mdWord
  let t := k.regs.foldl (fun t e => match e.2 with
    | some w => if e.1 < 96 then t.setLanes e.1 (fun _ => w) (span 0 32) else t.setK (e.1 - 96) w
    | none => t) t
  let t := k.preds.foldl (fun t e => match e.2 with
    | some b => t.benchPred e.1 b
    | none => t) t
  let t := { t with pc := j.code + BitVec.ofNat 64 (4 * i), tw := BitVec.ofNat 32 (k.tw.getD 5) }
  let task : Task :=
    { ctx := 0, grid := 0, index := 0, core := 0, base := 0, frame := 0, priority := 0
      scratchSize := 0, scratch := [], bars := [], commits := 0, version := [], messages := [], taken := []
      retries := 0, teams := [(0, t)], leads := [], failing := none, primary := false, resident := true
      finished := false, waitingSince := none, ticket := none, ticketQ := [], touched := [], partials := [] }
  ({ State.reset with cur := some (.team 0 0), tasks := [(0, task)], grids := [(0, j.grid)] }, t)

/-- A word that passes every check of R48 at a place, under some type and tile width that it may meet there (R49). -/
def PlateJob.passes (j : PlateJob) (k : Known) (i : Instr) : Bool :=
  k.types.any (fun t => k.widths.any (fun w =>
    (failedCheck i { Team.start .kernel 0 0 1 k.budget j.code (BitVec.ofNat 32 (16 * t)) with
      tw := BitVec.ofNat 32 w }).isNone))

/-- A predicate is known: p0 always holds (R18, R20). -/
def Known.pred (k : Known) (c : Nat) : Option Bool := if c = 0 then some true else AMap.get none k.preds c

/-- p[md.bp], when it is static. -/
def Known.bp (k : Known) : Option Bool := if k.mdStat 19 then k.pred (mdBp k.mdWord) else none

/-- The guard is static and true (R311). -/
def Known.guarded (k : Known) : Bool := k.mdStat 0 && k.mdStat 1 && k.pred (mdG k.mdWord) = some (!mdGi k.mdWord)

/-- Everything that a word reads is static at its place (R309, R311). -/
def PlateJob.ready (j : PlateJob) (k : Known) (i : Instr) : Bool :=
  let t := mdType k.mdWord
  k.live && (srcRegs t i).all (fun r => (AMap.get none k.regs r).isSome) && (uses t i).psrc.all (fun c => (k.pred c).isSome) &&
  (mdReads t i).all k.mdStat && (!readsTw i || k.tw.isSome) && (!readsBp i || k.bp.isSome) &&
  (!laneDst i || (k.full && k.guarded)) && j.marked i

/-- The value of a register of the bench's team, the same in every lane. -/
def uniformReg (t : Team) (r : Nat) : Option Word :=
  if 96 ≤ r then some (t.kreg (r - 96))
  else if (span 0 32).all (fun l => t.vreg r l = t.vreg r 0) then some (t.vreg r 0) else none

/-- The value of a predicate of the bench's team. -/
def uniformPred (t : Team) (c : Nat) : Option Bool :=
  if (span 0 32).all (fun l => t.predAt c l = t.predAt c 0) then some (t.predAt c 0) else none

/-- md parts that a word writes. -/
def mdWrites : Instr → List Nat
  | .msetLo _ _ => [0]
  | .msetFl _ _ => [1]
  | .msetHi _ _ => [2]
  | .mput _ _ => [0, 1, 2]
  | _ => []

/-- md fields that a word writes. -/
def mdFieldsWritten (i : Instr) : List Nat := (mdWrites i).flatMap mdPartFields

/-- What holds after a folded word (R311); none when the word is residual. -/
def PlateJob.foldWord (j : PlateJob) (p : Spot) (k : Known) : Option Known :=
  let i := j.word p.idx
  if !j.ready k i then none
  else
    let b := j.bench k p.idx
    if (failedCheck i b.2).isSome then none
    else match i with
      | .jset _ s _ => (j.jsetTarget p.idx).map (fun t =>
          { k with slots := k.slots.set s.toNat { stat := true, vals := some [j.at' p.ctx t] } })
      | .jmov _ s a => (j.index (b.2.pair a.toNat 0)).map (fun t =>
          { k with slots := k.slots.set s.toNat { stat := true, vals := some [j.at' p.ctx t] } })
      | .lset _ _ | .lsetImm _ _ => none
      | _ =>
        match foldStep (recode i 0 false) b.1 with
        | .next s =>
          (match s.team? (.team 0 0) with
           | none => none
           | some t =>
             if t.pc ≠ b.2.pc + 4#64 then none
             else
               let regs := (dstRegs (mdType k.mdWord) i).map (fun r => (r, uniformReg t r))
               let preds := (dstPreds i).map (fun c => (c, uniformPred t c))
               if regs.any (fun e => e.2.isNone) || preds.any (fun e => e.2.isNone) then none
               else some { k with
                 regs := regs.foldl (fun m e => AMap.put none m e.1 e.2) k.regs
                 preds := preds.foldl (fun m e => AMap.put none m e.1 e.2) k.preds
                 md := (mdFieldsWritten i).foldl (fun m f => m.set f { stat := true, val := some (mdFieldOf t.md f) }) k.md
                 tw := match i with
                   | .tile _ w => some w.toNat
                   | _ => k.tw })
        | _ => none

/-- The static count of a marked `lset` (R315). -/
def PlateJob.count (j : PlateJob) (p : Spot) (k : Known) : Option Nat :=
  let i := j.word p.idx
  if !j.marked i || !k.live || (failedCheck i (j.bench k p.idx).2).isSome then none
  else match i with
    | .lsetImm _ n => some n.toNat
    | .lset _ a => (AMap.get none k.regs a.toNat).map BitVec.toNat
    | _ => none

/-- What holds after a residual word: what it may write is not static. -/
def PlateJob.residual (j : PlateJob) (p : Spot) (k : Known) : Known :=
  let i := j.word p.idx
  let regs := k.types.flatMap (fun t => dstRegs t i)
  let written (v : Option Word) : List MdField :=
    (mdFieldsWritten i).foldl (fun m f => m.set f { stat := false, val := v.map (fun w => mdFieldOf w f) }) k.md
  { k with
    regs := regs.foldl AMap.erase k.regs, preds := (dstPreds i).foldl AMap.erase k.preds
    slots := match i with
      | .jset _ s _ => k.slots.set s.toNat { stat := false, vals := (j.jsetTarget p.idx).map (fun t => [j.at' p.ctx t]) }
      | .jmov _ s _ => k.slots.set s.toNat { stat := false, vals := none }
      | _ => k.slots
    md := match i with
      | .msetLo _ v => written (some (setMd 0#32 0 v.toNat))
      | .msetFl _ v => written (some (setMd 0#32 1 v.toNat))
      | .msetHi _ v => written (some (setMd 0#32 2 v.toNat))
      | _ => written none
    tw := match i with
      | .tile _ _ => none
      | _ => k.tw }

/-- What holds after the word at a place. -/
def PlateJob.after (j : PlateJob) (p : Spot) (k : Known) : Known := (j.foldWord p k).getD (j.residual p k)

/-- A word that may resolve its sequencing (R314): honoured, and passing the checks of R48; one that fails them is carried
unchanged (R49). -/
def PlateJob.resolves (j : PlateJob) (k : Known) (i : Instr) : Bool := j.marked i && j.passes k i

/-- The sequencing code that the plate's word carries: a honoured `bu` whose predicate is static resolves (R314). -/
def PlateJob.codeAt (j : PlateJob) (p : Spot) (k : Known) : Nat :=
  let i := j.word p.idx
  match seqOf i, j.resolves k i, (j.after p k).bp with
  | 3, true, some b => if b then 4 else 0
  | c, _, _ => c

/-- The word closes the innermost unrolled loop around it (R316). -/
def PlateJob.closes (j : PlateJob) (p : Spot) : Bool :=
  match p.ctx.getLast? with
  | some e => j.close e.1 = some p.idx
  | none => false

/-! ## Tracing (R310) -/

/-- An `lset` opens a loop that is unrolled here, with its count (R315). A body that holds a role's entry stays a loop: its copies
have no place for a team that starts without the loop's entry on its stack and traps at the `lp` (R25, R327). -/
def PlateJob.unrolls (j : PlateJob) (n : Node) : Option Nat :=
  let p := n.place
  match j.count p n.known with
  | none => none
  | some c =>
    match j.close p.idx with
    | none => none
    | some last =>
      let body := (span (p.idx + 1) (last - p.idx))
      if 1 ≤ c && c ≤ 64 && [0, 11, 13].contains (j.codeAt p n.known) && p.ctx.length < 4 &&
        n.stks.all (fun k => k.loops.length < 4) &&
        !j.barred.any (fun b => b.1 = p.idx && (b.2 = none || b.2 = some p.ctx)) &&
        !j.entries.any (fun e => match e with
          | some i => body.contains i
          | none => false) &&
        body.all (fun i => match j.word i with
          | .lbrk _ => false
          | _ => true)
      then some c else none

/-- One way on from a place: the place, the stacks and what holds; and whether a call, return or loop leads there. -/
structure Way where
  place : Spot
  stks : Stacks
  known : Known
  inner : Bool
  deriving DecidableEq, Repr

/-- The places that every jset and every folded jmov names, and the entries: where a slot of unknown value may lead. -/
def targetsIn (nodes : List Node) : List Spot :=
  nodes.flatMap (fun n => n.known.slots.flatMap (fun v => v.vals.getD []))

/-- The ways on through a slot, when it is taken (R310); `all` is where one of unknown value may lead. -/
def viaSlot (n : Nat) (k : Known) (stks : Stacks) (all : List Spot) (inner : Bool) : List Way :=
  match k.slots[n]? with
  | none => []
  | some v =>
    match v.vals with
    | some [p] => [{ place := p, stks := stks, known := if v.stat && k.live then k else k.bare, inner := inner }]
    | some ps => ps.map (fun p => { place := p, stks := stks, known := k.bare, inner := inner })
    | none =>
      let held := stks.calls.map (·.1) ++ stks.div.filterMap (fun d => match d with
        | .pending q => q
        | .rejoin _ => none)
      (all ++ held).map (fun p => { place := p, stks := stks, known := k.bare, inner := true })

/-- A slot's value is static. -/
def staticSlot (n : Nat) (k : Known) : Bool := k.live && ((k.slots[n]?).map (·.stat)).getD false

/-- The ways on by a sequencing code, after the word's own effect (R25, R310, R314). -/
def PlateJob.bySeq (j : PlateJob) (p : Spot) (code : Nat) (mark : Bool) (k : Known) (st : Stacks) (all : List Spot) :
    List Way :=
  let next (s : Stacks) (k : Known) : List Way := [{ place := j.at' p.ctx (p.idx + 1), stks := s, known := k, inner := false }]
  let go (n : Nat) : List Way :=
    if mark && staticSlot n k then viaSlot n k st all false else viaSlot n k st all false ++ next st k
  match code with
  | 1 | 2 =>
    if 30 < st.div.length then []
    else
      let taken := { st with div := .pending (some (j.at' p.ctx (p.idx + 1))) :: .rejoin k.full :: st.div }
      let whole := { st with div := .pending none :: .rejoin k.full :: st.div }
      (match if mark then k.bp.map (fun b => b == decide (code = 1)) else none with
       | some true => viaSlot 0 k whole all false
       | some false => next whole k
       | none => viaSlot 0 { k with full := false } taken all false ++ next whole k)
  | 3 => viaSlot 0 k st all false ++ next st k
  | 4 => go 0
  | 5 => go 1
  | 6 =>
    if 8 ≤ st.calls.length then []
    else
      let st' := { st with calls := (j.at' p.ctx (p.idx + 1), st.div.length, st.loops.length) :: st.calls }
      viaSlot 1 k st' all true ++ next st k
  | 7 =>
    (match st.calls with
     | [] => []
     | e :: rest =>
       if e.2.1 ≠ st.div.length || e.2.2 ≠ st.loops.length then []
       else [{ place := e.1, stks := { st with calls := rest }, known := k, inner := true }])
  | 8 =>
    (match st.loops with
     | [] => []
     | (l, true) :: rest =>
       (match p.ctx.getLast? with
        | some (m, it, n) =>
          if m ≠ l || !j.closes p then []
          else if it + 1 < n then
            [{ place := { idx := l + 1, ctx := p.ctx.dropLast ++ [(m, it + 1, n)] }, stks := st, known := k, inner := true }]
          else [{ place := j.at' p.ctx.dropLast (p.idx + 1), stks := { st with loops := rest }, known := k, inner := true }]
        | none => [])
     | (l, false) :: rest =>
       { place := j.at' p.ctx (l + 1), stks := st, known := k, inner := true } ::
         next { st with loops := rest } k)
  | 9 =>
    (match st.div with
     | [] => []
     | .rejoin f :: rest => next { st with div := rest } { k with full := f }
     | .pending d :: rest =>
       (match d with
        | some q => [{ place := q, stks := { st with div := rest }, known := { k with full := false }, inner := false }]
        | none => []) ++
       (match rest with
        | .rejoin f :: rest => next { st with div := rest } { k with full := f }
        | _ => []))
  | 10 => viaSlot 0 k st all false ++ next st k
  | 0 | 11 | 13 => next st k
  | _ => []

/-- The ways on from a place with given stacks. -/
def PlateJob.waysOn (j : PlateJob) (n : Node) (st : Stacks) (all : List Spot) : List Way :=
  let p := n.place
  let i := j.word p.idx
  let k := j.after p n.known
  if j.src.length ≤ p.idx then []
  else match i with
    | .lset _ _ | .lsetImm _ _ =>
      if 4 ≤ st.loops.length then []
      else
        let open' (u : Bool) : Stacks := { st with loops := (p.idx, u) :: st.loops }
        (match n.unroll, j.count p n.known with
         | some c, _ =>
           [{ place := { idx := p.idx + 1, ctx := p.ctx ++ [(p.idx, 0, c)] }, stks := open' true, known := k, inner := true }]
         | none, some 0 => viaSlot 1 k st all false
         | none, some _ => j.bySeq p (j.codeAt p n.known) (j.resolves n.known i) k (open' false) all
         | none, none => j.bySeq p (j.codeAt p n.known) (j.resolves n.known i) k (open' false) all ++
            (match i with
             | .lsetImm _ c => if c.toNat = 0 then viaSlot 1 k st all false else []
             | _ => viaSlot 1 k st all false))
    | .lbrk _ => (match st.loops with
      | [] => []
      | _ :: rest => j.bySeq p (j.codeAt p n.known) (j.resolves n.known i) k { st with loops := rest } all)
    | .illegalOp _ => []
    | _ => j.bySeq p (j.codeAt p n.known) (j.resolves n.known i) k st all

/-- Enters a way into the nodes: the nodes, and the paths that are now to be followed. -/
def enter (w : Way) : List Node → List Node × List (Spot × Stacks)
  | [] => ([{ place := w.place, known := w.known, stks := [w.stks], unroll := none }], [(w.place, w.stks)])
  | n :: rest =>
    if n.place = w.place then
      let k := n.known.meet w.known
      let stks := if n.stks.contains w.stks then n.stks else n.stks ++ [w.stks]
      if k ≠ n.known then ({ n with known := k, stks := stks } :: rest, stks.map (fun s => (w.place, s)))
      else if n.stks.contains w.stks then (n :: rest, [])
      else ({ n with stks := stks } :: rest, [(w.place, w.stks)])
    else
      let r := enter w rest
      (n :: r.1, r.2)

/-- Follows paths until nothing changes. A loop whose unrolling turns out to rest on a value that is not static is named,
to be traced anew without it. -/
def PlateJob.trace (j : PlateJob) : Nat → List Node → List (Spot × Stacks) →
    Except (Nat × Option (List (Nat × Nat × Nat))) (List Node)
  | 0, nodes, _ => .ok nodes
  | _ + 1, nodes, [] => .ok nodes
  | fuel + 1, nodes, (p, st) :: work =>
    match nodes.find? (fun n => n.place = p) with
    | none => PlateJob.trace j fuel nodes work
    | some n =>
      let u := j.unrolls n
      if n.unroll.isSome && n.unroll ≠ u then .error (p.idx, some p.ctx)
      else
        let fresh := decide (n.unroll ≠ u)
        let nodes := nodes.map (fun m => if m.place = p then { m with unroll := u } else m)
        let all := targetsIn nodes
        let stks := if fresh then n.stks else [st]
        let r := (stks.flatMap (fun st => j.waysOn { n with unroll := u } st all)).foldl
          (fun (acc : List Node × List (Spot × Stacks)) w =>
            let e := enter w acc.1
            (e.1, acc.2 ++ e.2)) (nodes, [])
        PlateJob.trace j fuel r.1 (work ++ r.2)

/-- The start of a role (R20): its slots hold its entry; its md is the default md, which nothing has folded. -/
def PlateJob.startWay (j : PlateJob) (i budget : Nat) : Way :=
  { place := { idx := i, ctx := [] }, stks := { div := [], calls := [], loops := [] }, inner := false
    known := { live := true, regs := [], preds := []
               slots := List.replicate 4 { stat := false, vals := some [{ idx := i, ctx := [] }] }
               md := (span 0 20).map (fun f => { stat := false, val := some (mdFieldOf j.grid.md f) }), tw := none
               full := true, budget := budget } }

/-- The slots that a word's transfer may go through, by its code and, for an `lset`, its count (R25, R75). -/
def PlateJob.slotsTaken (j : PlateJob) (n : Node) : List Nat :=
  (match j.codeAt n.place n.known with
   | 1 | 2 | 3 | 4 | 10 => [0]
   | 5 | 6 => [1]
   | _ => []) ++
  (match j.word n.place.idx, j.count n.place n.known with
   | .lset _ _, none | .lset _ _, some 0 => [1]
   | .lsetImm _ c, _ => if c.toNat = 0 then [1] else []
   | _, _ => [])

/-- A transfer may leave the plate, or lead anywhere in it: the slot that it takes is of unknown value (R319). -/
def PlateJob.leaves (j : PlateJob) (n : Node) : Bool :=
  (j.slotsTaken n).any (fun s => (((j.after n.place n.known).slots[s]?).map (fun v => v.vals.isNone)).getD false)

/-- Follows every path again while a slot of unknown value may lead to places found since. -/
def PlateJob.retrace (j : PlateJob) : Nat → List Node → Except (Nat × Option (List (Nat × Nat × Nat))) (List Node)
  | 0, nodes => .ok nodes
  | fuel + 1, nodes =>
    if !nodes.any j.leaves then .ok nodes
    else match j.trace (2 ^ 64) nodes (nodes.flatMap (fun n => n.stks.map (fun s => (n.place, s)))) with
      | .error b => .error b
      | .ok nodes' => if nodes' = nodes then .ok nodes else PlateJob.retrace j fuel nodes'

/-- The tracing of a kernel, with loops that must not be unrolled found on the way. -/
def PlateJob.traced (j : PlateJob) : Nat → PlateJob × List Node
  | 0 => (j, [])
  | fuel + 1 =>
    let r := j.grid.roles.foldl (fun (acc : List Node × List (Spot × Stacks)) q =>
      match j.index q.entry with
      | some i =>
        let e := enter (j.startWay i q.budget) acc.1
        (e.1, acc.2 ++ e.2)
      | none => acc) ([], [])
    match (j.trace (2 ^ 64) r.1 r.2).bind (fun nodes => j.retrace (2 ^ 64) nodes) with
    | .ok nodes => (j, nodes)
    | .error b => PlateJob.traced { j with barred := b :: j.barred } fuel

/-! ## What R315 forbids -/

/-- How the plate treats the word at a place. -/
inductive Treat where
  /-- Copied, with its code. -/
  | residual (code : Nat)
  /-- Folded, with the code it leaves. -/
  | folded (code : Nat)
  /-- An `lset` left out, with its code: its loop is unrolled here. -/
  | unrolled (code : Nat)
  /-- An `lset` of a residual loop with a static count (R312). -/
  | counted (n code : Nat)
  deriving DecidableEq, Repr

def PlateJob.treat (j : PlateJob) (n : Node) : Treat :=
  let p := n.place
  let code := if j.closes p && j.passes n.known (j.word p.idx) then 0 else j.codeAt p n.known
  match n.unroll, j.count p n.known with
  | some _, _ => .unrolled code
  | none, some 0 => if staticSlot 1 n.known then .folded 5 else .counted 0 code
  | none, some c => .counted c code
  | none, none => if (j.foldWord p n.known).isSome then .folded code else .residual code

/-- The word that a `jmov` names whose value is static, whether or not it is folded (R309, R319). -/
def PlateJob.jmovTarget (j : PlateJob) (n : Node) : Option Nat :=
  match j.word n.place.idx with
  | .jmov _ _ a =>
    if n.known.live && (AMap.get none n.known.regs a.toNat).isSome && (AMap.get none n.known.regs (a.toNat + 1)).isSome then
      j.index ((j.bench n.known n.place.idx).2.pair a.toNat 0)
    else none
  | _ => none

/-- The source words that a jset of the kernel code or a static jmov value names (R319). -/
def PlateJob.targetWords (j : PlateJob) (nodes : List Node) : List Nat :=
  (j.kernelWords nodes).filterMap j.jsetTarget ++ (targetsIn nodes).map (·.idx) ++ nodes.filterMap j.jmovTarget

/-- Loops whose unrolling breaks a condition of R315: a residual word of the body that carries a sequencing code, a target
inside it from outside, a path that leaves it or loops from elsewhere, an `lset` within that would find the loop stack full
(R25, R327). -/
def PlateJob.broken (j : PlateJob) (nodes : List Node) : List (Nat × Option (List (Nat × Nat × Nat))) :=
  let all := targetsIn nodes
  let opened := nodes.filter (fun n => n.unroll.isSome)
  let bar (l : Nat) : Nat × Option (List (Nat × Nat × Nat)) := (l, none)
  let words := nodes.flatMap (fun n =>
    match j.treat n with
    | .residual c | .counted _ c => if c ≠ 0 && c ≠ 8 then n.place.ctx.map (fun e => bar e.1) else []
    | _ => [])
  let into (i t : Nat) : List (Nat × Option (List (Nat × Nat × Nat))) :=
    (opened.filter (fun o => j.inBody o.place.idx t && !j.inBody o.place.idx i)).map (fun o => bar o.place.idx)
  let named := (span 0 j.src.length).flatMap (fun i => (j.jsetTarget i).toList.flatMap (into i)) ++
    nodes.flatMap (fun n => (j.jmovTarget n).toList.flatMap (into n.place.idx))
  let left := nodes.flatMap (fun n => n.stks.flatMap (fun st =>
    (if j.codeAt n.place n.known = 8 then match st.loops with
      | (l, true) :: _ => if j.closes n.place && (n.place.ctx.getLast?).map (·.1) = some l then [] else [bar l]
      | _ => []
     else []) ++
    (match j.word n.place.idx, st.loops with
     | .lbrk _, (l, true) :: _ => [bar l]
     | _, _ => []) ++
    (j.waysOn n st all).flatMap (fun w =>
      if w.inner then [] else (n.place.ctx.filter (fun e => !w.place.ctx.contains e)).map (fun e => bar e.1))))
  let deep := nodes.flatMap (fun n => match j.word n.place.idx with
    | .lset _ _ | .lsetImm _ _ => n.stks.flatMap (fun st =>
        if 4 ≤ st.loops.length then (st.loops.filter (·.2)).map (fun l => bar l.1) else [])
    | _ => [])
  (words ++ named ++ left ++ deep).eraseDups

/-- The plan: every loop unrolled that R315 allows. -/
def PlateJob.plan (j : PlateJob) : Nat → PlateJob × List Node
  | 0 => (j, [])
  | fuel + 1 =>
    let r := j.traced 4096
    match r.1.broken r.2 with
    | [] => r
    | bad => PlateJob.plan { r.1 with barred := bad ++ r.1.barred } fuel

/-! ## What is read later (R312) -/

/-- Values as bits: registers 0 to 127, predicates from 128, slots from 144, md fields from 152, tw at 172. -/
abbrev Values := BitVec 176

def bitsOf (l : List Nat) : Values := l.foldl (fun v n => v ||| (1#176 <<< n)) 0#176

/-- The guard as a word that writes lanes reads it. -/
def Known.guardBits (k : Known) : List Nat :=
  152 :: 153 :: (if k.mdKnown 0 then [128 + mdG k.mdWord] else span 128 8)

/-- Values that a sequencing code reads. -/
def Known.seqBits (k : Known) (code : Nat) : List Nat :=
  let bp := 171 :: (if k.mdKnown 19 then [128 + mdBp k.mdWord] else span 128 8)
  match code with
  | 1 | 2 | 3 => 144 :: bp
  | 4 | 10 => [144]
  | 5 | 6 => [145]
  | _ => []

/-- Values that a word writes. -/
def PlateJob.writesAt (j : PlateJob) (p : Spot) (k : Known) : List Nat :=
  let i := j.word p.idx
  k.types.flatMap (fun t => dstRegs t i) ++ (dstPreds i).map (128 + ·) ++ (mdFieldsWritten i).map (152 + ·) ++
    (match i with
     | .jset _ s _ | .jmov _ s _ => [144 + s.toNat]
     | .tile _ _ => [172]
     | _ => [])

/-- Values that are read at a place, and those that are written whole there, when the word is residual. -/
def PlateJob.residualBits (j : PlateJob) (p : Spot) (k : Known) (code : Nat) : Values × Values :=
  let i := j.word p.idx
  let k' := j.residual p k
  let md := k.types.flatMap (fun t => mdReads t i)
  let regs := k.types.flatMap (fun t => srcRegs t i)
  let preds := (uses 0 i).psrc.map (128 + ·) ++ (if readsBp i then (k.seqBits 1).filter (fun b => b ≠ 144) else [])
  let guard := if md.contains 0 then k.guardBits else []
  let slot := match i with
    | .jget _ _ s => [144 + s.toNat]
    | .lset _ _ => [145]
    | .lsetImm _ c => if c.toNat = 0 then [145] else []
    | _ => []
  let sure := k.full && k.mdKnown 0 && k.mdKnown 1 && mdG k.mdWord = 0 && !mdGi k.mdWord
  let writes := (j.writesAt p k).filter (fun b => sure || 96 ≤ b && !(128 ≤ b && b < 136))
  let writes := if k.mdKnown 2 then writes else writes.filter (fun b => 128 ≤ b)
  (bitsOf (regs ++ preds ++ guard ++ md.map (152 + ·) ++ slot ++ (if readsTw i then [172] else []) ++ k'.seqBits code), bitsOf writes)

/-- Values read from a place on, given those read after it. -/
def PlateJob.liveAt (j : PlateJob) (n : Node) (out : Values) : Values :=
  let p := n.place
  match j.treat n with
  | .residual code =>
    let b := j.residualBits p n.known code
    b.1 ||| (out &&& ~~~ b.2)
  | .unrolled _ => out
  | .counted c code =>
    out ||| bitsOf ((j.after p n.known).seqBits code ++ (if c = 0 then [145] else []))
  | .folded code =>
    let w := bitsOf (j.writesAt p n.known)
    let out := out ||| bitsOf ((j.after p n.known).seqBits code)
    (out &&& ~~~ w) |||
      (if out &&& w ≠ 0#176 && laneDst (j.word p.idx) then bitsOf n.known.guardBits else 0#176)

/-- One pass over all places, from what is read on entering each. -/
def PlateJob.livePass (j : PlateJob) (nodes : List Node) (edges : List (Spot × List Spot)) (ins : List (Spot × Values)) :
    List (Spot × Values) :=
  let inOf (p : Spot) : Values := ((ins.find? (fun e => e.1 = p)).map (·.2)).getD 0#176
  nodes.map (fun n =>
    let next := ((edges.find? (fun e => e.1 = n.place)).map (·.2)).getD []
    let out := if j.leaves n then BitVec.allOnes 176 else next.foldl (fun v p => v ||| inOf p) 0#176
    (n.place, j.liveAt n out))

/-- Passes until nothing changes. -/
def PlateJob.liveIter (j : PlateJob) (nodes : List Node) (edges : List (Spot × List Spot)) :
    Nat → List (Spot × Values) → List (Spot × Values)
  | 0, ins => ins
  | fuel + 1, ins =>
    let ins' := j.livePass nodes edges ins
    if ins' = ins then ins else PlateJob.liveIter j nodes edges fuel ins'

/-! ## The plate's words -/

/-- A word of the plate before its labels are placed: a word, or a `jset` of a slot to a place, with its code and its B bit. -/
inductive PlateWord where
  | word (w : Nat)
  | jset (slot : Nat) (target : Spot) (code : Nat) (b : Bool)
  deriving DecidableEq, Repr

def plainHdr : Hdr := { seq := 0#4, b := false }

/-- A constant into a register (R312, R83). -/
def constWords (r : Nat) (c : Word) : List PlateWord :=
  let v := toInt 32 c.toNat
  let d : BitVec 7 := BitVec.ofNat 7 r
  let movi (x : Nat) : PlateWord := .word (encodeNat (.movi plainHdr d (BitVec.ofNat 14 x)))
  let movhi (x : Nat) : PlateWord := .word (encodeNat (.movhi plainHdr d (BitVec.ofNat 14 x)))
  let n := c.toNat
  if -8192 ≤ v && v ≤ 8191 then [movi n]
  else if -(2 ^ 27) ≤ v && v < 2 ^ 27 then [movi (n / 2 ^ 14), movhi n]
  else [movi (ofInt 14 (toInt 4 (n / 2 ^ 28))), movhi (n / 2 ^ 14), movhi n]

/-- A predicate's value (R312). -/
def predWords (c : Nat) (b : Bool) : List PlateWord :=
  let d : BitVec 4 := BitVec.ofNat 4 c
  if c < 8 then
    [.word (encodeNat (if b then .por plainHdr d 0#4 0#4 else .pxor plainHdr d 0#4 0#4))]
  else .word (encodeNat (.pxor plainHdr d d d)) :: (if b then [.word (encodeNat (.pnot plainHdr d d))] else [])

/-- An md part's value. -/
def mdWords (n v : Nat) : List PlateWord :=
  [.word (encodeNat (match n with
    | 0 => .msetLo plainHdr (BitVec.ofNat 12 v)
    | 1 => .msetFl plainHdr (BitVec.ofNat 12 v)
    | _ => .msetHi plainHdr (BitVec.ofNat 8 v)))]

/-- Puts a sequencing code on the last of a place's words; with no words, it stands on a `nop` (R313). -/
def withCode (code : Nat) (ws : List PlateWord) : List PlateWord :=
  let h : Hdr := { seq := BitVec.ofNat 4 code, b := false }
  if code = 0 then ws
  else match ws.getLast? with
    | none => [.word (encodeNat (.nop h))]
    | some (.word w) => ws.dropLast ++ [.word (w + code * 2 ^ 22)]
    | some (.jset s t _ b) => ws.dropLast ++ [.jset s t code b]

/-- md parts at run time, where every path gives one value. -/
abbrev RunMd := List (Option Nat)

/-- The words that materialise what a folded word writes (R312). -/
def PlateJob.materials (j : PlateJob) (p : Spot) (k : Known) (run : RunMd) : List PlateWord :=
  let i := j.word p.idx
  let k' := j.after p k
  (dstRegs (mdType k.mdWord) i).eraseDups.flatMap (fun r => constWords r ((AMap.get none k'.regs r).getD 0#32)) ++
  (dstPreds i).flatMap (fun c => predWords c ((k'.pred c).getD false)) ++
  (mdWrites i).flatMap (fun n => if run.getD n none = some (mdPart k'.mdWord n) then [] else mdWords n (mdPart k'.mdWord n)) ++
  (match i with
   | .tile _ w => [.word (encodeNat (.tile plainHdr w))]
   | .jset _ s _ | .jmov _ s _ =>
     (match (k'.slots[s.toNat]?).bind (·.vals) with
      | some [t] => [.jset s.toNat t 0 false]
      | _ => [])
   | _ => [])

/-- A folded word writes something that is read later. -/
def PlateJob.needed (j : PlateJob) (n : Node) (out : Values) : Bool :=
  (out ||| bitsOf ((j.after n.place n.known).seqBits (match j.treat n with
    | .folded c => c
    | _ => 0))) &&& bitsOf (j.writesAt n.place n.known) ≠ 0#176

/-- md at run time after a place. -/
def PlateJob.runAfter (j : PlateJob) (n : Node) (out : Values) (run : RunMd) : RunMd :=
  let i := j.word n.place.idx
  let set (f : Nat → Option Nat) : RunMd := (mdWrites i).foldl (fun r m => r.set m (f m)) run
  match j.treat n with
  | .folded _ => if j.needed n out then set (fun m => some (mdPart (j.after n.place n.known).mdWord m)) else run
  | .residual _ => set (fun m => match i with
      | .mput _ _ => none
      | _ => some (mdPart (j.residual n.place n.known).mdWord m))
  | _ => run

/-- Carries md at run time along the edges, `none` where no path has come yet. -/
def PlateJob.runPass (j : PlateJob) (nodes : List Node) (edges : List (Spot × List Spot)) (outs : List (Spot × Values))
    (runs : List (Spot × RunMd)) : List (Spot × RunMd) :=
  nodes.foldl (fun runs n =>
    match runs.find? (fun e => e.1 = n.place) with
    | none => runs
    | some e =>
      let out := ((outs.find? (fun x => x.1 = n.place)).map (·.2)).getD 0#176
      let after := j.runAfter n out e.2
      (((edges.find? (fun x => x.1 = n.place)).map (·.2)).getD []).foldl (fun runs p =>
        if runs.any (fun x => x.1 = p) then
          runs.map (fun x => if x.1 = p then (p, (x.2.zip after).map (fun y => same y.1 y.2)) else x)
        else runs ++ [(p, after)]) runs) runs

def PlateJob.runIter (j : PlateJob) (nodes : List Node) (edges : List (Spot × List Spot)) (outs : List (Spot × Values)) :
    Nat → List (Spot × RunMd) → List (Spot × RunMd)
  | 0, runs => runs
  | fuel + 1, runs =>
    let runs' := j.runPass nodes edges outs runs
    if runs' = runs then runs else PlateJob.runIter j nodes edges outs fuel runs'

/-- What is settled about a traced kernel before its words are written. -/
structure PlatePlan where
  nodes : List Node
  outs : List (Spot × Values)
  runs : List (Spot × RunMd)
  targets : List Nat
  deriving DecidableEq, Repr

/-- The words of a place (R311 to R316): nothing where no path leads, unless it is a target word. -/
def PlateJob.wordsAt (j : PlateJob) (q : PlatePlan) (p : Spot) : List PlateWord :=
  let i := j.word p.idx
  let copied (code : Nat) (ctx : List (Nat × Nat × Nat)) : List PlateWord :=
    match i, j.jsetTarget p.idx with
    | .jset _ s _, some t => [.jset s.toNat (j.at' ctx t) code (bitB i)]
    | _, _ => [.word (encodeNat (recode i code (bitB i)))]
  match q.nodes.find? (fun n => n.place = p) with
  | none => if q.targets.contains p.idx then copied (seqOf i) p.ctx else []
  | some n =>
    let out := ((q.outs.find? (fun e => e.1 = p)).map (·.2)).getD 0#176
    let run := ((q.runs.find? (fun e => e.1 = p)).map (·.2)).getD [none, none, none]
    match j.treat n with
    | .unrolled code => withCode code []
    | .residual code => copied code p.ctx
    | .folded code => withCode code (if j.needed n out then j.materials p n.known run else [])
    | .counted c code =>
      if c ≤ 16383 then [.word (encodeNat (.lsetImm { seq := BitVec.ofNat 4 code, b := false } (BitVec.ofNat 14 c)))]
      else match i with
        | .lset _ a => constWords a.toNat (BitVec.ofNat 32 c) ++ copied code p.ctx
        | _ => copied code p.ctx

/-- The words of a stretch of source in plate order, with each place where it begins (R316, R319). -/
def PlateJob.emit (j : PlateJob) (q : PlatePlan) (ctx : List (Nat × Nat × Nat)) : Nat → Nat → Nat →
    List (Spot × List PlateWord)
  | _, _, 0 => []
  | i, last, fuel + 1 =>
    if last ≤ i then []
    else
      let p : Spot := { idx := i, ctx := ctx }
      match (q.nodes.find? (fun n => n.place = p)).bind (·.unroll), j.close i with
      | some c, some z =>
        (p, j.wordsAt q p) :: ((span 0 c).flatMap (fun it => PlateJob.emit j q (ctx ++ [(i, it, c)]) (i + 1) (z + 1) fuel) ++
          PlateJob.emit j q ctx (z + 1) last fuel)
      | _, _ => (p, j.wordsAt q p) :: PlateJob.emit j q ctx (i + 1) last fuel

/-- The iteration vector of a place (R183, R316). -/
def Spot.vector (p : Spot) : Word :=
  BitVec.ofNat 32 ((span 0 4).foldl (fun v l => v + 256 ^ l * (match p.ctx[l]? with
    | some e => e.2.1
    | none => 255)) 0)

/-- Index of the first word at or after a place, given each place's words in order. -/
def plateIndex (l : List (Spot × List PlateWord)) (p : Spot) : Nat → Option Nat :=
  fun n => match l with
    | [] => none
    | e :: rest => if e.1 = p then some n else plateIndex rest p (n + e.2.length)

/-- A finished plate: its words, its map, and the index of each role's entry. -/
structure Engraved where
  words : List Word
  map : List (Word × Word)
  entries : List Nat
  grid : Bool
  deriving DecidableEq, Repr

/-- Places the labels (R319); none when a jset of the source, in the plate or left out, names a word that no plate word
follows. -/
def PlateJob.finishPlate (j : PlateJob) (nodes : List Node) (l : List (Spot × List PlateWord)) : Option Engraved :=
  let flat := l.flatMap (fun e => e.2.map (fun w => (e.1, w)))
  let total := flat.length
  let find (p : Spot) : Option Nat := (plateIndex l p 0).bind (fun n => if n < total then some n else none)
  let words := flat.zipIdx.map (fun e => match e.1.2 with
    | .word w => some (BitVec.ofNat 32 w)
    | .jset s t code b => (find t).map (fun n =>
        BitVec.ofNat 32 (encodeNat (.jset { seq := BitVec.ofNat 4 code, b := b } (BitVec.ofNat 2 s)
          (BitVec.ofInt 19 ((n : Int) - (e.2 : Int)))))))
  let entries := j.entries.map (fun e => e.bind (fun i => find { idx := i, ctx := [] }))
  let kernel := j.kernelWords nodes
  let bare := l.any (fun e => match j.jsetTarget e.1.idx with
    | some t => kernel.contains e.1.idx && (find (j.at' e.1.ctx t)).isNone
    | none => false)
  if bare || words.any Option.isNone || entries.any Option.isNone then none
  else some
    { words := words.filterMap id
      map := flat.map (fun e => (BitVec.ofNat 32 (4 * e.1.idx), e.1.vector))
      entries := entries.filterMap id
      grid := nodes.any (fun n => (j.foldWord n.place n.known).isSome && (match j.word n.place.idx with
        | .sreg _ _ _ => true
        | _ => false)) }

/-- The plate of a plan. -/
def PlateJob.write (j : PlateJob) (nodes : List Node) : Option Engraved :=
  let all := targetsIn nodes
  let edges := nodes.map (fun n => (n.place, ((n.stks.flatMap (fun s => j.waysOn n s all)).map (·.place)).eraseDups))
  let ins := j.liveIter nodes edges (2 ^ 64) []
  let outs := nodes.map (fun n => (n.place, if j.leaves n then BitVec.allOnes 176
    else (((edges.find? (fun e => e.1 = n.place)).map (·.2)).getD []).foldl (fun v p =>
      v ||| ((ins.find? (fun e => e.1 = p)).map (·.2)).getD 0#176) 0#176))
  let start : RunMd := (span 0 3).map (fun n => some (mdPart j.grid.md n))
  let runs := j.runIter nodes edges outs (2 ^ 64) ((j.entries.filterMap id).eraseDups.map (fun i => ({ idx := i, ctx := [] }, start)))
  let q : PlatePlan := { nodes := nodes, outs := outs, runs := runs, targets := j.targetWords nodes }
  j.finishPlate nodes (j.emit q [] 0 j.src.length (2 ^ 64))

/-- The loop that R317 rolls back: the most deeply nested, and of those the one with the highest address. -/
def deepest (nodes : List Node) : Option Nat :=
  ((nodes.filter (fun n => n.unroll.isSome)).foldl (fun (best : Option (Nat × Nat)) n =>
    let c := (n.place.ctx.length, n.place.idx)
    match best with
    | none => some c
    | some b => if b.1 < c.1 || (b.1 = c.1 && b.2 < c.2) then some c else best) none).map (·.2)

/-- Engraves under the limits of R317, rolling loops back; none runs the source itself (R318). Lead slices and prologues do not
count: B is ignored in them (R310). -/
def PlateJob.engrave (j : PlateJob) : Nat → Option Engraved
  | 0 => none
  | fuel + 1 =>
    let r := j.plan 4096
    let nodes := r.2
    if j.entries.any Option.isNone || !(j.kernelWords nodes).any (fun i => j.marked (j.word i)) ||
      (j.kernelWords nodes).any (fun i => match j.word i with
        | .jset _ _ _ => (j.jsetTarget i).isNone
        | _ => false) then none
    else match r.1.write nodes with
      | none => none
      | some e =>
        if e.words.length ≤ min (4 * j.src.length) 131072 then some e
        else match deepest nodes with
          | none => none
          | some l => PlateJob.engrave { r.1 with barred := (l, none) :: r.1.barred } fuel

end Sys2Proof.Machine
end

