-- ==== Sys2Proof/Machine/Plates.lean ====
section
/-!
DEFINITION. Plate memory and the plate cache (R320 to R324): how a launch that may be engraved finds its plate, has it built,
or runs its source.
-/

namespace Sys2Proof.Machine

/-- Plate memory: its base and size in bytes (R320). -/
def State.plateBase (s : State) : Nat := (s.reg rPLBASE).toNat / 2 ^ 30 * 2 ^ 30
def State.plateSize (s : State) : Nat := nbits (s.reg rPLSIZE).toNat 0 5 * 2 ^ 26

/-- Bytes that a plate of so many words and its map take (R324). -/
def plateBytes (words : Nat) : Nat := 12 * words

/-- Why the Engraver has not read a kernel's source: a region of it or of its tables changes, or a word cannot be fetched. -/
inductive NoSource where
  | busy | absent
  deriving DecidableEq, Repr

/-- Reads the words at the given indices of a kernel's source through its context's tables, with their A bits set (R270, R310). -/
def readSource (c : Nat) (code : Word64) : List Nat → State → State × Except NoSource (List Nat)
  | [], s => (s, .ok [])
  | i :: is, s =>
    match s.xlatNow c .user .fetch (code + BitVec.ofNat 64 (4 * i)).toNat with
    | (s, .ok pa) =>
      if s.regionBusy pa 4 then (s, .error .busy)
      else match readSource c code is (s.recall pa 4) with
        | (s', .ok ws) => (s', .ok (readNat s.mem pa 4 :: ws))
        | r => r
    | (s, .busy) => (s, .error .busy)
    | (s, _) => (s, .error .absent)

/-- The source words of a kernel (log 29). -/
def State.sourceWords (s : State) (c : Nat) (code : Word64) : State × Except NoSource (List Nat) :=
  readSource c code (span 0 (textWords c code)) s

/-- The generation of a kernel's code (R323). -/
def State.generation (s : State) (c : Nat) (code : Word64) : Nat :=
  match s.kernels.find? (fun k => k.ctx = c && k.code = code) with
  | some k => k.gen
  | none => 1

/-- The static inputs of a plate's key (R322). -/
def plateKey (x : Grid) (dims : Bool) : List Byte :=
  x.args.take x.record.staticSize ++
    (if dims then toBytes 4 x.record.gx ++ toBytes 4 x.record.gy ++ toBytes 4 x.record.gz else [])

/-- What a role gives a plate's key (R322): its entry address, its lead-slice address and its lane-register budget. -/
def Role.keyed (r : Role) : Word64 × Word64 × Nat := (r.entry, r.lead, r.budget)

/-- A plate is of a launch's key (R322). -/
def Plate.keyed (p : Plate) (x : Grid) (gen : Nat) (dims : Bool) : Bool :=
  p.ctx = x.ctx && p.code = x.record.code && p.key = plateKey x dims && p.md = x.md &&
    p.roles.map Role.keyed = x.roles.map Role.keyed && p.gen = gen && p.revision = Config.revision

/-- A grid has a cohort placed or waiting: of this run, or of one still to come (R321, R352). -/
def State.cohortsLeft (s : State) (g : Nat) (x : Grid) : Bool :=
  !x.complete && (s.tasks.any (fun e => e.2.grid = g) || !x.retry.isEmpty || x.next < x.record.cohorts || x.run + 1 < x.runs)

/-- A plate is used by a grid with a cohort placed or waiting (R321). -/
def State.plateUsed (s : State) (n : Nat) : Bool :=
  s.grids.any (fun e => e.2.plate = some n && e.2.engraved && s.cohortsLeft e.1 e.2)

/-- A range of plate memory is free of the plates listed. -/
def plateFree (ps : AMap Plate) (lo n : Nat) : Bool :=
  ps.all (fun e => lo + n ≤ e.2.offset || e.2.offset + plateBytes e.2.words.length ≤ lo)

/-- Eviction can make room for so many bytes and one more plate (R321). -/
def State.plateRoom (s : State) (n : Nat) : Bool :=
  let held := s.plates.filter (fun e => s.plateUsed e.1)
  let starts := 0 :: held.map (fun e => (e.2.offset + plateBytes e.2.words.length + 4095) / 4096 * 4096)
  held.length < 4096 && starts.any (fun o => o + n ≤ s.plateSize && plateFree held o n)

/-- Evicts plates that no grid uses, least recently used first, until a range is free for one more plate (R321). -/
def State.evictPlates (s : State) (lo n : Nat) : Nat → Option State
  | 0 => none
  | fuel + 1 =>
    if plateFree s.plates lo n && s.plates.length < 4096 then some s
    else
      let old := (s.plates.filter (fun e => !s.plateUsed e.1)).foldl (fun (best : Option (Nat × Nat)) e =>
        match best with
        | none => some (e.2.lastUse, e.1)
        | some b => if e.2.lastUse < b.1 then some (e.2.lastUse, e.1) else best) none
      match old with
      | none => none
      | some b => State.evictPlates { s with plates := AMap.erase s.plates b.2 } lo n fuel

/-- The bytes of a plate and its map (R324). -/
def Plate.image (p : Plate) : List Byte :=
  p.words.flatMap (fun w => toBytes 4 w.toNat) ++ p.map.flatMap (fun m => toBytes 4 m.1.toNat ++ toBytes 4 m.2.toNat)

/-- A launch runs its source (R318). -/
def State.runSource (s : State) (g : Nat) (x : Grid) : State := s.setGrid g { x with settled := true, engraved := false }

/-- A launch runs a plate. -/
def State.runPlate (s : State) (g : Nat) (x : Grid) (n : Nat) : State :=
  { s.setGrid g { x with settled := true, engraved := true, plate := some n } with
    plates := AMap.modify s.plates n (fun p => { p with lastUse := s.tick }) }

/-- Whether a launch waits to be settled: to run on a plate, or its source. -/
def Grid.unsettled (x : Grid) : Bool := x.started && x.handed && !x.settled && !x.complete

/-- A grid's plate by its key: the one in the cache, or one built at the given offset (R321, R322). -/
def State.engraveGrid (s : State) (g : Nat) (x : Grid) (src : List Nat) (offset : Nat) : State :=
  let pro := x.packet.bind (fun n => (AMap.find (s.ctx x.ctx).packets n).bind (fun q => q.prologue.map (fun b =>
    BitVec.ofNat 64 (bytesAt b 0 8))))
  let job : PlateJob := { code := x.record.code, src := src, grid := x, prologue := pro, barred := [] }
  match job.engrave 4096 with
  | none => s.runSource g x
  | some e =>
    let gen := s.generation x.ctx x.record.code
    let p : Plate := { ctx := x.ctx, code := x.record.code, gen := gen, revision := Config.revision, key := plateKey x e.grid, roles := x.roles, md := x.md
                       offset := offset, words := e.words, map := e.map, entries := e.entries, lastUse := s.tick }
    match s.plates.find? (fun q => q.2.keyed x gen e.grid) with
    | some q => s.runPlate g x q.1
    | none =>
      let n := plateBytes p.words.length
      if !s.plateRoom n || memorySize < s.plateBase + s.plateSize then s.runSource g x
      else if offset % 4096 ≠ 0 || s.plateSize < offset + n then s
      else match s.evictPlates offset n 4097 with
        | none => s
        | some s =>
          let id := AMap.fresh s.plates 0 4097
          State.runPlate { s.poke (s.plateBase + offset) p.image with plates := AMap.set s.plates id p } g x id

/-- The Engraver settles a waiting launch, with the place it has chosen for a new plate; a place it cannot take leaves the
launch waiting (R321). -/
def execPlateBuild (g offset : Nat) (s : State) : Out :=
  match s.grid? g with
  | none => .next s
  | some x =>
    if !x.unsettled then .next s
    else if !s.engraves x.ctx then .next (s.runSource g x)
    else match s.sourceWords x.ctx x.record.code with
      | (s, .error .busy) => .next s
      | (s, .error .absent) => .next (s.runSource g x)
      | (s, .ok src) => .next (s.engraveGrid g x src offset)

end Sys2Proof.Machine
end

