-- ==== Sys2Proof/Machine/Dispatch.lean ====
section
/-!
DEFINITION. The one match that gives each instruction its meaning.
-/

namespace Sys2Proof.Machine

def exec (i : Instr) (s : State) : Host.Outcome State Fault Refusal :=
  match i with
  | .nop h => Sys2Proof.Machine.execNop h s
  | .jmov h j a => Sys2Proof.Machine.execJmov h j a s
  | .jget h d j => Sys2Proof.Machine.execJget h d j s
  | .lset h a => Sys2Proof.Machine.execLset h a s
  | .lsetImm h n => Sys2Proof.Machine.execLsetImm h n s
  | .lbrk h => Sys2Proof.Machine.execLbrk h s
  | .msetLo h v => Sys2Proof.Machine.execMsetLo h v s
  | .msetFl h v => Sys2Proof.Machine.execMsetFl h v s
  | .msetHi h v => Sys2Proof.Machine.execMsetHi h v s
  | .mput h a => Sys2Proof.Machine.execMput h a s
  | .mget h d => Sys2Proof.Machine.execMget h d s
  | .tile h w => Sys2Proof.Machine.execTile h w s
  | .sreg h d n => Sys2Proof.Machine.execSreg h d n s
  | .rdlane h d a => Sys2Proof.Machine.execRdlane h d a s
  | .jset h j im => Sys2Proof.Machine.execJset h j im s
  | .movi h d im => Sys2Proof.Machine.execMovi h d im s
  | .movhi h d im => Sys2Proof.Machine.execMovhi h d im s
  | .iaddi h d a im => Sys2Proof.Machine.execIaddi h d a im s
  | .mov h d a => Sys2Proof.Machine.execMov h d a s
  | .popc h d a => Sys2Proof.Machine.execPopc h d a s
  | .clz h d a => Sys2Proof.Machine.execClz h d a s
  | .ctz h d a => Sys2Proof.Machine.execCtz h d a s
  | .brev h d a => Sys2Proof.Machine.execBrev h d a s
  | .pand h d a c => Sys2Proof.Machine.execPand h d a c s
  | .por h d a c => Sys2Proof.Machine.execPor h d a c s
  | .pxor h d a c => Sys2Proof.Machine.execPxor h d a c s
  | .pnot h d a => Sys2Proof.Machine.execPnot h d a s
  | .pset h d a => Sys2Proof.Machine.execPset h d a s
  | .pget h d p => Sys2Proof.Machine.execPget h d p s
  | .ldB32 h d a o => Sys2Proof.Machine.execLdB32 h d a o s
  | .ldB64 h d a o => Sys2Proof.Machine.execLdB64 h d a o s
  | .stB32 h d a o => Sys2Proof.Machine.execStB32 h d a o s
  | .stB64 h d a o => Sys2Proof.Machine.execStB64 h d a o s
  | .ldsB32 h d a o => Sys2Proof.Machine.execLdsB32 h d a o s
  | .stsB32 h d a o => Sys2Proof.Machine.execStsB32 h d a o s
  | .ldAcqB32 h c d a => Sys2Proof.Machine.execLdAcqB32 h c d a s
  | .ldScB32 h c d a => Sys2Proof.Machine.execLdScB32 h c d a s
  | .ldAcqB64 h c d a => Sys2Proof.Machine.execLdAcqB64 h c d a s
  | .ldScB64 h c d a => Sys2Proof.Machine.execLdScB64 h c d a s
  | .ldsAcq h c d a => Sys2Proof.Machine.execLdsAcq h c d a s
  | .ldsSc h c d a => Sys2Proof.Machine.execLdsSc h c d a s
  | .stRelB32 h c d a => Sys2Proof.Machine.execStRelB32 h c d a s
  | .stScB32 h c d a => Sys2Proof.Machine.execStScB32 h c d a s
  | .stRelB64 h c d a => Sys2Proof.Machine.execStRelB64 h c d a s
  | .stScB64 h c d a => Sys2Proof.Machine.execStScB64 h c d a s
  | .stsRel h c d a => Sys2Proof.Machine.execStsRel h c d a s
  | .stsSc h c d a => Sys2Proof.Machine.execStsSc h c d a s
  | .ldB8 h d a => Sys2Proof.Machine.execLdB8 h d a s
  | .ldB16 h d a => Sys2Proof.Machine.execLdB16 h d a s
  | .ldS8 h d a => Sys2Proof.Machine.execLdS8 h d a s
  | .ldS16 h d a => Sys2Proof.Machine.execLdS16 h d a s
  | .stB8 h d a => Sys2Proof.Machine.execStB8 h d a s
  | .stB16 h d a => Sys2Proof.Machine.execStB16 h d a s
  | .ldsB8 h d a => Sys2Proof.Machine.execLdsB8 h d a s
  | .ldsB16 h d a => Sys2Proof.Machine.execLdsB16 h d a s
  | .ldsS8 h d a => Sys2Proof.Machine.execLdsS8 h d a s
  | .ldsS16 h d a => Sys2Proof.Machine.execLdsS16 h d a s
  | .stsB8 h d a => Sys2Proof.Machine.execStsB8 h d a s
  | .stsB16 h d a => Sys2Proof.Machine.execStsB16 h d a s
  | .ldsB64 h d a => Sys2Proof.Machine.execLdsB64 h d a s
  | .stsB64 h d a => Sys2Proof.Machine.execStsB64 h d a s
  | .ldkB32 h d a => Sys2Proof.Machine.execLdkB32 h d a s
  | .ldkB64 h d a => Sys2Proof.Machine.execLdkB64 h d a s
  | .stkB32 h d a => Sys2Proof.Machine.execStkB32 h d a s
  | .stkB64 h d a => Sys2Proof.Machine.execStkB64 h d a s
  | .ldr h d a => Sys2Proof.Machine.execLdr h d a s
  | .str h d a => Sys2Proof.Machine.execStr h d a s
  | .ldargB8 h d a => Sys2Proof.Machine.execLdargB8 h d a s
  | .ldargB16 h d a => Sys2Proof.Machine.execLdargB16 h d a s
  | .ldargB32 h d a => Sys2Proof.Machine.execLdargB32 h d a s
  | .ldargB64 h d a => Sys2Proof.Machine.execLdargB64 h d a s
  | .iadd h d a c => Sys2Proof.Machine.execIadd h d a c s
  | .isub h d a c => Sys2Proof.Machine.execIsub h d a c s
  | .imul h d a c => Sys2Proof.Machine.execImul h d a c s
  | .imulh h d a c => Sys2Proof.Machine.execImulh h d a c s
  | .andB h d a c => Sys2Proof.Machine.execAndB h d a c s
  | .orB h d a c => Sys2Proof.Machine.execOrB h d a c s
  | .xorB h d a c => Sys2Proof.Machine.execXorB h d a c s
  | .andnB h d a c => Sys2Proof.Machine.execAndnB h d a c s
  | .shl h d a c => Sys2Proof.Machine.execShl h d a c s
  | .shr h d a c => Sys2Proof.Machine.execShr h d a c s
  | .sar h d a c => Sys2Proof.Machine.execSar h d a c s
  | .rot h d a c => Sys2Proof.Machine.execRot h d a c s
  | .bfx h d a c => Sys2Proof.Machine.execBfx h d a c s
  | .bfi h d a c => Sys2Proof.Machine.execBfi h d a c s
  | .sel h d a c => Sys2Proof.Machine.execSel h d a c s
  | .lea h d a c => Sys2Proof.Machine.execLea h d a c s
  | .add64 h d a c => Sys2Proof.Machine.execAdd64 h d a c s
  | .sub64 h d a c => Sys2Proof.Machine.execSub64 h d a c s
  | .shl64 h d a n => Sys2Proof.Machine.execShl64 h d a n s
  | .shr64 h d a n => Sys2Proof.Machine.execShr64 h d a n s
  | .icmp h p k a c => Sys2Proof.Machine.execIcmp h p k a c s
  | .ucmp h p k a c => Sys2Proof.Machine.execUcmp h p k a c s
  | .addT h d a c => Sys2Proof.Machine.execAddT h d a c s
  | .subT h d a c => Sys2Proof.Machine.execSubT h d a c s
  | .mulT h d a c => Sys2Proof.Machine.execMulT h d a c s
  | .minT h d a c => Sys2Proof.Machine.execMinT h d a c s
  | .maxT h d a c => Sys2Proof.Machine.execMaxT h d a c s
  | .divT h d a c => Sys2Proof.Machine.execDivT h d a c s
  | .dot h d a c => Sys2Proof.Machine.execDot h d a c s
  | .fcmp h p k a c => Sys2Proof.Machine.execFcmp h p k a c s
  | .classify h p a m => Sys2Proof.Machine.execClassify h p a m s
  | .absT h d a => Sys2Proof.Machine.execAbsT h d a s
  | .negT h d a => Sys2Proof.Machine.execNegT h d a s
  | .sqrt h d a => Sys2Proof.Machine.execSqrt h d a s
  | .rcp h d a => Sys2Proof.Machine.execRcp h d a s
  | .rsq h d a => Sys2Proof.Machine.execRsq h d a s
  | .exp2 h d a => Sys2Proof.Machine.execExp2 h d a s
  | .log2 h d a => Sys2Proof.Machine.execLog2 h d a s
  | .sinpi h d a => Sys2Proof.Machine.execSinpi h d a s
  | .cospi h d a => Sys2Proof.Machine.execCospi h d a s
  | .mkabs h d a => Sys2Proof.Machine.execMkabs h d a s
  | .fma h d a c => Sys2Proof.Machine.execFma h d a c s
  | .fmaN h d a c => Sys2Proof.Machine.execFmaN h d a c s
  | .cvt h d a t => Sys2Proof.Machine.execCvt h d a t s
  | .cvtmx h d a => Sys2Proof.Machine.execCvtmx h d a s
  | .cvtmxH16 h d a => Sys2Proof.Machine.execCvtmxH16 h d a s
  | .cvtmxH32 h d a => Sys2Proof.Machine.execCvtmxH32 h d a s
  | .pack h d a => Sys2Proof.Machine.execPack h d a s
  | .unpack h d a => Sys2Proof.Machine.execUnpack h d a s
  | .voteAny h p q => Sys2Proof.Machine.execVoteAny h p q s
  | .voteAll h p q => Sys2Proof.Machine.execVoteAll h p q s
  | .voteBallot h d q => Sys2Proof.Machine.execVoteBallot h d q s
  | .voteUni h p q => Sys2Proof.Machine.execVoteUni h p q s
  | .tred h d a o => Sys2Proof.Machine.execTred h d a o s
  | .scan h d a o => Sys2Proof.Machine.execScan h d a o s
  | .matchLanes h d a => Sys2Proof.Machine.execMatchLanes h d a s
  | .elect h p q => Sys2Proof.Machine.execElect h p q s
  | .cntp h d q => Sys2Proof.Machine.execCntp h d q s
  | .shfl h d a m n => Sys2Proof.Machine.execShfl h d a m n s
  | .wait h l e p t => Sys2Proof.Machine.execWait h l e p t s
  | .fence h o c => Sys2Proof.Machine.execFence h o c s
  | .vcommit h => Sys2Proof.Machine.execVcommit h s
  | .park h k n a c => Sys2Proof.Machine.execPark h k n a c s
  | .bararr h im n => Sys2Proof.Machine.execBararr h im n s
  | .barwait h im n => Sys2Proof.Machine.execBarwait h im n s
  | .gbar h im => Sys2Proof.Machine.execGbar h im s
  | .txbCoh h => Sys2Proof.Machine.execTxbCoh h s
  | .txbDev h => Sys2Proof.Machine.execTxbDev h s
  | .txe h p d => Sys2Proof.Machine.execTxe h p d s
  | .txa h c => Sys2Proof.Machine.execTxa h c s
  | .pref h a l => Sys2Proof.Machine.execPref h a l s
  | .cctl h a o => Sys2Proof.Machine.execCctl h a o s
  | .atomScratchpad h d a o r => Sys2Proof.Machine.execAtomScratchpad h d a o r s
  | .atomRlx h d a o c => Sys2Proof.Machine.execAtomRlx h d a o c s
  | .atomAcq h d a o c => Sys2Proof.Machine.execAtomAcq h d a o c s
  | .atomRel h d a o c => Sys2Proof.Machine.execAtomRel h d a o c s
  | .atomAr h d a o c => Sys2Proof.Machine.execAtomAr h d a o c s
  | .atomSc h d a o c => Sys2Proof.Machine.execAtomSc h d a o c s
  | .mredAdd h d a c => Sys2Proof.Machine.execMredAdd h d a c s
  | .mredAddRel h d a c => Sys2Proof.Machine.execMredAddRel h d a c s
  | .mredFadd h d a c => Sys2Proof.Machine.execMredFadd h d a c s
  | .mredFaddRel h d a c => Sys2Proof.Machine.execMredFaddRel h d a c s
  | .tcopy h a p => Sys2Proof.Machine.execTcopy h a p s
  | .chain h a p => Sys2Proof.Machine.execChain h a p s
  | .obres h n c => Sys2Proof.Machine.execObres h n c s
  | .obset h n a => Sys2Proof.Machine.execObset h n a s
  | .obrel h n => Sys2Proof.Machine.execObrel h n s
  | .leadN h n => Sys2Proof.Machine.execLeadN h n s
  | .qpushVal h a => Sys2Proof.Machine.execQpushVal h a s
  | .qpushLd h a => Sys2Proof.Machine.execQpushLd h a s
  | .qpushOb h a n => Sys2Proof.Machine.execQpushOb h a n s
  | .qpop h d => Sys2Proof.Machine.execQpop h d s
  | .coll h a p => Sys2Proof.Machine.execColl h a p s
  | .launch h a => Sys2Proof.Machine.execLaunch h a s
  | .msend h a c => Sys2Proof.Machine.execMsend h a c s
  | .mrecv h a c => Sys2Proof.Machine.execMrecv h a c s
  | .mres h t => Sys2Proof.Machine.execMres h t s
  | .mrel h t => Sys2Proof.Machine.execMrel h t s
  | .mmz h t s1 => Sys2Proof.Machine.execMmz h t s1 s
  | .mld h t a => Sys2Proof.Machine.execMld h t a s
  | .mma h t a b => Sys2Proof.Machine.execMma h t a b s
  | .mmaTile h t s1 c b => Sys2Proof.Machine.execMmaTile h t s1 c b s
  | .mdrain h t k n o im => Sys2Proof.Machine.execMdrain h t k n o im s
  | .smx h t c => Sys2Proof.Machine.execSmx h t c s
  | .sexp h t c => Sys2Proof.Machine.execSexp h t c s
  | .srsc h o s1 => Sys2Proof.Machine.execSrsc h o s1 s
  | .trap h c => Sys2Proof.Machine.execTrap h c s
  | .sysReq h c a => Sys2Proof.Machine.execSysReq h c a s
  | .rdclk h d => Sys2Proof.Machine.execRdclk h d s
  | .rdtime h d => Sys2Proof.Machine.execRdtime h d s
  | .mark h n => Sys2Proof.Machine.execMark h n s
  | .csrr h d c => Sys2Proof.Machine.execCsrr h d c s
  | .csrw h a c => Sys2Proof.Machine.execCsrw h a c s
  | .probe h d a => Sys2Proof.Machine.execProbe h d a s
  | .pcnt h d n => Sys2Proof.Machine.execPcnt h d n s
  | .dstep h d a => Sys2Proof.Machine.execDstep h d a s
  | .halt h => Sys2Proof.Machine.execHalt h s
  | .illegalOp w => Sys2Proof.Machine.execIllegalOp w s
  | .loadResultWrite p id => Sys2Proof.Machine.execLoadResultWrite p id s
  | .storePerformed p id => Sys2Proof.Machine.execStorePerformed p id s
  | .atomicRequestExecute p id req => Sys2Proof.Machine.execAtomicRequestExecute p id req s
  | .commit p => Sys2Proof.Machine.execCommit p s
  | .txValidation task ord lane => Sys2Proof.Machine.execTxValidation task ord lane s
  | .ticketGrant dev task => Sys2Proof.Machine.execTicketGrant dev task s
  | .parkReread p => Sys2Proof.Machine.execParkReread p s
  | .yieldResume p => Sys2Proof.Machine.execYieldResume p s
  | .haltWake p => Sys2Proof.Machine.execHaltWake p s
  | .registerLineFill task ord line => Sys2Proof.Machine.execRegisterLineFill task ord line s
  | .registerLineWriteback task ord line evict => Sys2Proof.Machine.execRegisterLineWriteback task ord line evict s
  | .tlbWalkEnd p => Sys2Proof.Machine.execTlbWalkEnd p s
  | .leadFetchComplete task ord id n => Sys2Proof.Machine.execLeadFetchComplete task ord id n s
  | .obRecordGrant core => Sys2Proof.Machine.execObRecordGrant core s
  | .tileGrant core tile => Sys2Proof.Machine.execTileGrant core tile s
  | .matrixArrayTake core quad => Sys2Proof.Machine.execMatrixArrayTake core quad s
  | .matrixWordComplete p id => Sys2Proof.Machine.execMatrixWordComplete p id s
  | .engineOperationRun core eng n => Sys2Proof.Machine.execEngineOperationRun core eng n s
  | .engineCompletion core id => Sys2Proof.Machine.execEngineCompletion core id s
  | .collectiveCombine ctx group others => Sys2Proof.Machine.execCollectiveCombine ctx group others s
  | .pendingLaunchHandoff core => Sys2Proof.Machine.execPendingLaunchHandoff core s
  | .messageArrival mbox srcDev srcCtx epoch seq body => Sys2Proof.Machine.execMessageArrival mbox srcDev srcCtx epoch seq body s
  | .meridianLinkLoss port => Sys2Proof.Machine.execMeridianLinkLoss port s
  | .submissionWrite ctx value => Sys2Proof.Machine.execSubmissionWrite ctx value s
  | .mailboxEntryConsume ctx => Sys2Proof.Machine.execMailboxEntryConsume ctx s
  | .launchPacket ctx => Sys2Proof.Machine.execLaunchPacket ctx s
  | .copyPacket ctx seq n => Sys2Proof.Machine.execCopyPacket ctx seq n s
  | .drainPacket ctx seq => Sys2Proof.Machine.execDrainPacket ctx seq s
  | .determinismLevelPacket ctx seq => Sys2Proof.Machine.execDeterminismLevelPacket ctx seq s
  | .packetStart ctx seq => Sys2Proof.Machine.execPacketStart ctx seq s
  | .prologueRun ctx seq => Sys2Proof.Machine.execPrologueRun ctx seq s
  | .prologueLimitExpiry ctx => Sys2Proof.Machine.execPrologueLimitExpiry ctx s
  | .runStart grid => Sys2Proof.Machine.execRunStart grid s
  | .plateBuild grid offset => Sys2Proof.Machine.execPlateBuild grid offset s
  | .cohortPlace grid task frame => Sys2Proof.Machine.execCohortPlace grid task frame s
  | .teamSlotRelease task ord => Sys2Proof.Machine.execTeamSlotRelease task ord s
  | .cohortEnd task => Sys2Proof.Machine.execCohortEnd task s
  | .phaseCheckClose ctx => Sys2Proof.Machine.execPhaseCheckClose ctx s
  | .gridCompletion grid => Sys2Proof.Machine.execGridCompletion grid s
  | .faddTreeApply grid => Sys2Proof.Machine.execFaddTreeApply grid s
  | .swapOut task => Sys2Proof.Machine.execSwapOut task s
  | .swapReturn task => Sys2Proof.Machine.execSwapReturn task s
  | .clusterModeChange cluster => Sys2Proof.Machine.execClusterModeChange cluster s
  | .placementWaitExpiry grid => Sys2Proof.Machine.execPlacementWaitExpiry grid s
  | .taskFail task => Sys2Proof.Machine.execTaskFail task s
  | .codeGenerationRaise ctx code => Sys2Proof.Machine.execCodeGenerationRaise ctx code s
  | .chunkSignatureHit task ord => Sys2Proof.Machine.execChunkSignatureHit task ord s
  | .chunkCountExpiry task ord => Sys2Proof.Machine.execChunkCountExpiry task ord s
  | .snapshotTake value => Sys2Proof.Machine.execSnapshotTake value s
  | .snapshotAnchorDone frameList => Sys2Proof.Machine.execSnapshotAnchorDone frameList s
  | .snapshotResume value => Sys2Proof.Machine.execSnapshotResume value s
  | .replayGo value => Sys2Proof.Machine.execReplayGo value s
  | .replayBreakpoint => Sys2Proof.Machine.execReplayBreakpoint s
  | .clusterStop cluster => Sys2Proof.Machine.execClusterStop cluster s
  | .clstopReq cluster value => Sys2Proof.Machine.execClstopReq cluster value s
  | .clstopRel cluster value => Sys2Proof.Machine.execClstopRel cluster value s
  | .dstepTimeout p => Sys2Proof.Machine.execDstepTimeout p s
  | .pfresRetry ctx value => Sys2Proof.Machine.execPfresRetry ctx value s
  | .pfresFail ctx value => Sys2Proof.Machine.execPfresFail ctx value s
  | .preemptGo ctx value => Sys2Proof.Machine.execPreemptGo ctx value s
  | .preemptResume ctx value => Sys2Proof.Machine.execPreemptResume ctx value s
  | .preemptDeadline ctx => Sys2Proof.Machine.execPreemptDeadline ctx s
  | .contextReset ctx value => Sys2Proof.Machine.execContextReset ctx value s
  | .leaseRenew agent => Sys2Proof.Machine.execLeaseRenew agent s
  | .leaseExpiry agent => Sys2Proof.Machine.execLeaseExpiry agent s
  | .regionMerge base size => Sys2Proof.Machine.execRegionMerge base size s
  | .leaseClockWrap => Sys2Proof.Machine.execLeaseClockWrap s
  | .tinvContext value => Sys2Proof.Machine.execTinvContext value s
  | .tinvPage value => Sys2Proof.Machine.execTinvPage value s
  | .tinvAll value => Sys2Proof.Machine.execTinvAll value s
  | .tinvGstage value => Sys2Proof.Machine.execTinvGstage value s
  | .invalidationComplete => Sys2Proof.Machine.execInvalidationComplete s
  | .tinvsRead => Sys2Proof.Machine.execTinvsRead s
  | .biasFlip value => Sys2Proof.Machine.execBiasFlip value s
  | .biasFlipDone => Sys2Proof.Machine.execBiasFlipDone s
  | .replicaMark n value => Sys2Proof.Machine.execReplicaMark n value s
  | .replicaUnmark n value => Sys2Proof.Machine.execReplicaUnmark n value s
  | .replicaBusyClear n => Sys2Proof.Machine.execReplicaBusyClear n s
  | .lapseRead => Sys2Proof.Machine.execLapseRead s
  | .dstatRead => Sys2Proof.Machine.execDstatRead s
  | .cstatRead ctx => Sys2Proof.Machine.execCstatRead ctx s
  | .mbstatRead ctx => Sys2Proof.Machine.execMbstatRead ctx s
  | .mailboxBind mbox value => Sys2Proof.Machine.execMailboxBind mbox value s
  | .routeEntryWrite ctx entry value => Sys2Proof.Machine.execRouteEntryWrite ctx entry value s
  | .frtailWrite ctx value => Sys2Proof.Machine.execFrtailWrite ctx value s
  | .srtailWrite ctx value => Sys2Proof.Machine.execSrtailWrite ctx value s
  | .openCollectiveGroup ctx => Sys2Proof.Machine.execOpenCollectiveGroup ctx s
  | .closeCollectiveGroup ctx => Sys2Proof.Machine.execCloseCollectiveGroup ctx s
  | .stepTeamRequest ctx => Sys2Proof.Machine.execStepTeamRequest ctx s
  | .groupOpenTimeout ctx => Sys2Proof.Machine.execGroupOpenTimeout ctx s
  | .leaderLeaseRenew => Sys2Proof.Machine.execLeaderLeaseRenew s
  | .leaderLeaseLapse => Sys2Proof.Machine.execLeaderLeaseLapse s
  | .powerLimitExceeded watts => Sys2Proof.Machine.execPowerLimitExceeded watts s
  | .clockStep up => Sys2Proof.Machine.execClockStep up s
  | .powerMonitorTrip die watts => Sys2Proof.Machine.execPowerMonitorTrip die watts s
  | .deviceReset flash ed mld => Sys2Proof.Machine.execDeviceReset flash ed mld s
  | .recoveryImageLoad ed mld => Sys2Proof.Machine.execRecoveryImageLoad ed mld s
  | .coreRetire phys => Sys2Proof.Machine.execCoreRetire phys s
  | .spareRemap core => Sys2Proof.Machine.execSpareRemap core s
  | .notifyWrite ctx n value => Sys2Proof.Machine.execNotifyWrite ctx n value s
  | .notifyLatchDeliver => Sys2Proof.Machine.execNotifyLatchDeliver s
  | .peerWrite addr data => Sys2Proof.Machine.execPeerWrite addr data s
  | .peerRead addr n => Sys2Proof.Machine.execPeerRead addr n s
  | .pcieLinkTrain port flit => Sys2Proof.Machine.execPcieLinkTrain port flit s
  | .appCoreStore agent addr data => Sys2Proof.Machine.execAppCoreStore agent addr data s
  | .registerWrite offset width value => Sys2Proof.Machine.execRegisterWrite offset width value s
  | .replaceRequested part => Sys2Proof.Machine.execReplaceRequested part s
  | .followerHeartbeat die => Sys2Proof.Machine.execFollowerHeartbeat die s
  | .notifyApertureGate => Sys2Proof.Machine.execNotifyApertureGate s
  | .pwrnowCrossedPwrlim watts => Sys2Proof.Machine.execPwrnowCrossedPwrlim watts s
  | .stewardRequestReject ctx => Sys2Proof.Machine.execStewardRequestReject ctx s

end Sys2Proof.Machine
end

