-- ==== Sys2Proof/Machine/Turns.lean ====
section
/-!
DEFINITION. Whose word is issued next and where it is fetched: code fetch (R28, R270), a partition's choice among its
ready teams (R201 to R204, R434), a lead engine's (R296), and the passing of time.
-/

namespace Sys2Proof.Machine

/-- Translates a party's program counter: teams and lead slices through their core's TLB, prologue and steward by a
walk (R270, R272). -/
def State.fetchAddr (s : State) (p : Party) (t : Team) : State × Xlat :=
  match p with
  | .team _ _ | .lead _ _ => (s, s.lookup (s.coreOf p) (s.ctxOf p) .user .fetch t.pc.toNat)
  | _ => s.xlatNow (s.ctxOf p) .sup .fetch t.pc.toNat

/-- Takes the issuing party out of the state once its word has run. -/
def clearCur : Out → Out
  | .next s => .next { s with cur := none }
  | o => o

/-! ## Replay -/

/-- Codes of traps whose cause lies outside the program, of class 1: ECC_UNCORR, VERSION_FULL, POWER_LIMIT (R385). -/
def outsideTrap (code : Nat) : Bool := 33 ≤ code && code ≤ 35

/-- What a replay makes of a party's turn before its next instruction (R385). -/
inductive ReplayTurn where
  | run
  | wait
  /-- An end logged at this boundary: the record is met. -/
  | meet (r : LogRec)
  | raise (tr : TrapInfo)
  | diverge (r : LogRec)
  deriving DecidableEq, Repr

/-- A trap whose cause lies outside the program, as a replay raises it: the log holds its code alone, so the address of the data or of
the region is free, and the power is that of the replay (R184, R385; log 21). -/
def State.injected (s : State) (cls code : Nat) : TrapInfo :=
  { trapOf code (if code = 33 || code = 65 then (Config.injectedFault s.tick).1 else 0#64)
      (if code = 35 then s.power.now % 2 ^ 12 else 0) with cls := cls }

/-- Instructions of a team that are over, with one whose hold is over. -/
def State.overAt (s : State) (p : Party) (t : Team) : Nat := if s.holdOver p t.hold then t.retired else t.over

/-- The next record of a party's log against its count of retired instructions: a chunk that ends at a boundary ends there,
a trap from outside the program is raised there, an atomic, the end of a transaction or the registration of a range by the lead slice
has its turn first, and a trap that has not recurred stops the replay (R385, R386, R387). A party that cannot issue only meets the end of a chunk at the boundary where it stands. -/
def State.replayTurn (s : State) (p : Party) (t : Team) : ReplayTurn :=
  match p, s.logged p with
  | .prologue _, some _ | .steward _, some _ | _, none => .run
  | .lead tid o, some r =>
    let code := bytesAt r.payload 1 1
    (match s.team? (.team tid o) with
     | none => .run
     | some u =>
       if r.kind ≠ 4 || bytesAt r.payload 0 1 < 128 || r.payload.drop 2 ≠ varint 10 t.retired then .run
       else if u.retired - u.chunk.last < r.delta then .wait
       else if bytesAt r.payload 0 1 = 129 && outsideTrap code then .raise (s.injected 1 code)
       else .run)
  | .team tid _, some r =>
    let n := s.overAt p t - t.chunk.last
    let cls := bytesAt r.payload 0 1
    let code := bytesAt r.payload 1 1
    let ends := r.kind = 0 && (cls = 2 || cls = 3 || cls = 5) && r.delta ≤ n && !(cls = 5 && s.comesAgain tid)
    if !s.canIssue p t then (if ends && s.acting p && !s.isAway p && t.freeze ≠ .frozen then .meet r else .wait)
    else if r.kind = 4 then
      (if n < r.delta then .run
       else if r.delta < n then (if t.awaits r then .run else .diverge r)
       else if 128 ≤ cls then .wait
       else if (cls = 1 && outsideTrap code) || cls = 3 then .raise (s.injected cls code)
       else if cls = 2 && code ≠ 49 then .meet r
       else .run)
    else if ends || (r.kind = 0 && cls = 0 && r.delta = n) then .meet r
    else if r.kind = 0 && cls = 5 && r.delta ≤ n then .wait
    else if r.kind = 0 && cls = 6 && r.delta = n then .wait
    else if (r.kind = 1 || r.kind = 2) && n + 1 = r.delta && !s.inTurn r then .wait
    else .run

/-- An injected stop is raised again where its chunk ends (R413). The log does not tell a stop from the other injected events: DEDUCED,
with debug enabled for the context it is a stop, and the team freezes until system software releases the cluster (log 27). -/
def State.reinject (s : State) (p : Party) (r : LogRec) : State :=
  match p, s.taskOf p with
  | .team tid ord, some k =>
    if r.kind = 0 && r.payload = [5#8] && s.debugOn k.ctx then
      (s.modCluster (clusterOf k.core) (fun c => { c with stops := k.ctx :: c.stops.erase k.ctx })).freezeTeam tid ord
    else s
  | _, _ => s

/-- A party meets a record that its own instruction does not produce, in its turn (R385). -/
def State.meet (s : State) (p : Party) (t : Team) (r : LogRec) : State :=
  match endChunk s p t r.kind r.payload (s.overAt p t) none with
  | .go s t => (s.setTeam p t).reinject p r
  | .hold => s
  | .diverge s => s

/-- The fault record of an injected PAGE_FAULT (R422; log 21). -/
def State.injectFault (s : State) (p : Party) (t : Team) : State :=
  match p, s.taskOf p with
  | .team tid _, some k =>
    let f := Config.injectedFault s.tick
    s.queueFault (s.trapRecord p tid k t.pc
      { cls := 0, code := 1, addr := f.1, lane := f.2.1 % 2 ^ 16, detail := f.2.2 &&& 3#32, engine := false })
  | _, _ => s

/-- A replayed PAGE_FAULT: where the word at its count faults again or walks, that is what happens; where the translation is
valid the team resumes at once, so its fault record is written, its log record is met, and the word runs next (R385, R422;
log 21). -/
def State.meetFault (s s' : State) (p : Party) (t : Team) : State :=
  match s.logged p with
  | some r =>
    let walks := match s'.team? p with
      | some u => (match u.hold with
        | .walk _ _ _ => true
        | _ => false)
      | none => false
    if r.kind = 4 && bytesAt r.payload 0 1 = 0 && r.delta = t.retired - t.chunk.last && !walks &&
        (s'.replay.state ≠ s.replay.state || s'.logged p = some r) then
      let s'' := s.meet p t r
      if s''.logged p = some r then s'' else s''.injectFault p t
    else s'
  | none => s'

/-- The register lines of a word that has begun are the most recently used (R206). -/
def State.noteLines (before s : State) (p : Party) (i : Instr) (t : Team) : State :=
  match p, s.team? p with
  | .team _ _, some u => s.setTeam p (u.touchLines before.tick (linesNamed i t))
  | _, _ => s

/-- A word's fetch reads its line of memory: under its die's lease, which the task has used (R267, R268), and newer bytes of an
application core are recalled (R276). -/
def State.noteFetch (s : State) (p : Party) (pa : Nat) : State :=
  match partyTask p with
  | some tid => s.touch tid (s.coreOf p) pa 4 false
  | none => s.recall pa 4

/-- What a word that has begun leaves beside its effect. -/
def State.noteBegun (before : State) (p : Party) (i : Instr) (t : Team) (pa : Nat) : Out → Out
  | .next s =>
    (match s.team? p with
     | some u => if u.passes = t.passes then .next s else .next ((before.noteLines s p i t).noteFetch p pa)
     | none => .next s)
  | o => o

/-- Fetches, decodes and runs a party's next word. A fetch that finds no translation waits for a walk, or is a
PAGE_FAULT; one that the page denies is ACCESS at the target (R28); one of a block that changes its bias waits (R277). -/
def fetchWord (s : State) (p : Party) (t : Team) : Out :=
  match s.fetchAddr p t with
      | (s, .ok pa) =>
        if s.regionBusy pa 4 then .next s
        else (match decodeBytes (readBytes s.mem pa 4) with
         | .ok (i, _) => s.noteBegun p i t pa (clearCur (exec i { s with cur := some p }))
         | .error _ => .next s)
      | (s, .miss) => .next (s.setTeam p { t.released' with hold := .walk t.pc How.fetch.code 0xFFFF })
      | (s, .noTranslation) =>
        .next ((s.setTeam p t.released').raiseTrap p t.pc
          { cls := 0, code := 1, addr := t.pc, lane := 0xFFFF, detail := 2#32, engine := false })
      | (s, .denied) => .next ((s.setTeam p t.released').raiseTrap p t.pc (trapOf 21 t.pc 0))
      | (s, .busy) => .next s
      | (_, .nowhere pa) => .fault (.noSuchAddress pa)

/-- An instruction of the party that has held it is over, and its `brk` or the step of the team ends (R27, R180). -/
def State.settles (s : State) (p : Party) (t : Team) : Bool :=
  s.canIssue p t && (t.brk || (t.hold ≠ .none && !t.hold.fresh && t.freeze = .stepping))

/-- What ends between two instructions of a party, without a start: an instruction that is over settles, and a replay meets or raises
what its log holds at this boundary (R27, R180, R385). -/
def State.prelude (s : State) (p : Party) : State :=
  match s.team? p with
  | none => s
  | some t =>
    if s.settles p t then (s.setTeam p { t with hold := .none }).settle p
    else match s.replayTurn p t with
      | .run | .wait => s
      | .meet r => s.meet p t r
      | .raise tr =>
        if tr.cls = 3 then s.loseTask [] ((partyTask p).getD 0) tr.code tr.addr
        else (s.setTeam p t.released').raiseTrap p t.pc tr
      | .diverge r => s.diverged r.pos

/-- Issues a party's next word, if nothing is to end before it. -/
def issueWord (s : State) (p : Party) : Out :=
  match s.team? p with
  | none => .next s
  | some t =>
    if !s.canIssue p t || s.settles p t || s.replayTurn p t ≠ .run then .next s
    else match fetchWord s p t with
      | .next s' => .next (if s.replaying (s.ctxOf p) then s.meetFault s' p t else s')
      | o => o

/-- A party's turn: what ends before its next word ends, and the word issues. -/
def runWord (s : State) (p : Party) : Out := issueWord (s.prelude p) p

/-- The party has only come to wait: for its word's resource, in its place in a queue, or for a walk of its fetch (R201, R272). -/
def joins (s s' : State) (p : Party) : Bool :=
  match s.team? p, s'.team? p with
  | some t, some u => t.passes = u.passes && t.retired = u.retired && t.hold ≠ u.hold &&
      (u.hold.fresh || (match u.hold with
        | .walk _ _ _ => true
        | _ => false))
  | _, _ => false

/-- The party's next word can begin: running it changes something, beyond the party's coming to wait (R201). -/
def begins (s : State) (p : Party) : Bool :=
  match issueWord s p with
  | .next s' => decide (s' ≠ s) && !joins s s' p
  | _ => true

/-- A party whose next word cannot begin comes to wait for what it needs; it uses no issue slot (R201). -/
def State.joinWait (s : State) (p : Party) : State :=
  match issueWord s p with
  | .next s' => if joins s s' p then s' else s
  | _ => s

/-! ## Partitions -/

/-- Teams that yielded for a turn may go on when no other team is ready (R204). -/
def State.endTurns (s : State) (core part : Nat) : State :=
  (s.residents core part).foldl (fun s x =>
    if x.2.2.2.yld = .onTurn false then s.setTeam (.team x.1 x.2.1) { x.2.2.2 with yld := .onTurn true } else s) s

/-- The ready teams of a partition. -/
def readyTeams (s : State) (core part : Nat) : List (Nat × Nat × Task × Team) :=
  (s.residents core part).filter (fun x => begins s (.team x.1 x.2.1))

/-- Effective priority of a context's team on a partition (R202, R434). -/
def State.effectivePriority (s : State) (core part c priority : Nat) : Nat :=
  let starts := AMap.get [] (s.core core).starts part
  let ctxs := ((s.residents core part).map (fun x => x.2.2.1.ctx)).eraseDups
  let sum := (ctxs.map s.issueShare).sum
  let mine := starts.count c
  let iss := s.issueShare c
  if sum = 0 then priority
  else if mine * sum < iss * starts.length then min 3 (priority + 1)
  else if mine * sum > 2 * iss * starts.length then priority - 1
  else priority

/-- The better of two ready teams by a key, the first kept on a tie. -/
def bestBy (key : Nat × Nat × Task × Team → Nat) :
    List (Nat × Nat × Task × Team) → Option (Nat × Nat × Task × Team)
  | [] => none
  | x :: xs => match bestBy key xs with
    | none => some x
    | some y => if key x ≥ key y then some x else some y

/-- R202: the team that starts, among the ready teams given. -/
def pick (s : State) (core part : Nat) (ready : List (Nat × Nat × Task × Team)) :
    Option (Nat × Nat × Task × Team) :=
  let n := (s.residents core part).length
  let last := AMap.get 7 (s.core core).last part
  let inSlots := fun (first : Nat) => (span 0 8).flatMap (fun i =>
    ready.filter (fun x => x.2.2.2.slot = (first + i) % 8))
  if ready.any (fun x => 2 * n ≤ x.2.2.2.age) then bestBy (fun x => x.2.2.2.age) (inSlots 0)
  else bestBy (fun x => s.effectivePriority core part x.2.2.1.ctx x.2.2.1.priority) (inSlots (last + 1))

/-- What a start does to the partition's teams: ages, turns passed to teams that yielded, and the count of R434. -/
def State.markStart (s : State) (core part : Nat) (ready : List (Nat × Nat × Task × Team))
    (x : Nat × Nat × Task × Team) : State :=
  let s := (s.residents core part).foldl (fun s y =>
    let t := y.2.2.2
    let chosen := y.1 = x.1 && y.2.1 = x.2.1
    let isReady := ready.any (fun z => z.1 = y.1 && z.2.1 = y.2.1)
    s.setTeam (.team y.1 y.2.1) { t with
      age := if chosen || !isReady then 0 else t.age + 1
      yld := if !chosen && t.yld = .onTurn false then .onTurn true else t.yld }) s
  s.modCore core (fun k => { k with
    last := AMap.put 7 k.last part x.2.2.2.slot
    starts := AMap.put [] k.starts part ((x.2.2.1.ctx :: AMap.get [] k.starts part).take 4096) })

/-- Passes that a party's turn has made: one at least. -/
def passesMade (before after : State) (p : Party) : Nat :=
  match before.team? p, after.team? p with
  | some t, some u => max 1 (u.passes - t.passes)
  | _, _ => 1

/-- A unit of a core, a partition or with 32 the lead engine, is in the passes of an instruction until they are over, one an arithmetic
clock (R200, R296). -/
def State.unitBusy (s : State) (core unit : Nat) : Bool := decide (s.ac < AMap.get 0 (s.core core).busy unit)
def occupy (before : State) (core unit : Nat) (p : Party) : Out → Out
  | .next s => .next (s.modCore core (fun k => { k with
      busy := AMap.put 0 k.busy unit (before.ac + passesMade before s p) }))
  | o => o

/-- The start of a team's word on a partition (R202). -/
def startTeam (s : State) (core part : Nat) (ready : List (Nat × Nat × Task × Team)) (x : Nat × Nat × Task × Team) : Out :=
  occupy s core part (.team x.1 x.2.1) (issueWord (s.markStart core part ready x) (.team x.1 x.2.1))

/-- What ends on a partition before its next start, and its teams that cannot begin come to wait (R201). -/
def State.beforeStart (s : State) (core part : Nat) : State :=
  let s := (s.residents core part).foldl (fun s x => s.prelude (.team x.1 x.2.1)) s
  (s.residents core part).foldl (fun s x => s.joinWait (.team x.1 x.2.1)) s

/-- A partition's next start (R202), when no instruction is in its passes there (R200). -/
def runPartition (s : State) (core part : Nat) : Out :=
  let s := s.beforeStart core part
  let go (s : State) : Option Out :=
    let ready := readyTeams s core part
    (pick s core part ready).map (startTeam s core part ready)
  if s.unitBusy core part then .next s
  else match go s with
  | some o => o
  | none => match go (s.endTurns core part) with
    | some o => o
    | none => .next s

/-! ## Lead engines -/

/-- The lead slices of a core's resident teams, with their place in the order of R296. -/
def State.leadsOf (s : State) (core : Nat) : List (Nat × Nat × Nat) :=
  s.tasks.flatMap (fun e => if e.2.core = core && e.2.resident then
    e.2.leads.filterMap (fun f => match AMap.find e.2.teams f.1 with
      | some t => if t.released then none else some (t.partition * 8 + t.slot, e.1, f.1)
      | none => none) else [])

/-- A lead engine's next start (R296): the next ready slice after the last, cyclically, one an arithmetic clock. -/
def runLead (s : State) (core : Nat) : Out :=
  let s := (s.leadsOf core).foldl (fun s x => (s.prelude (.lead x.2.1 x.2.2)).joinWait (.lead x.2.1 x.2.2)) s
  let ready := (s.leadsOf core).filter (fun x => begins s (.lead x.2.1 x.2.2))
  let last := (s.core core).leadLast
  let order := (span 1 256).flatMap (fun i => ready.filter (fun x => x.1 = (last + i) % 256))
  match order with
  | [] => .next s
  | x :: _ =>
    if s.unitBusy core 32 then .next s
    else occupy s core 32 (.lead x.2.1 x.2.2)
      (issueWord (s.modCore core (fun k => { k with leadLast := x.1 })) (.lead x.2.1 x.2.2))

/-! ## A step -/

/-- The team waits under R211, or has ended. -/
def State.waitsAt (s : State) (p : Party) (t : Team) : Bool :=
  s.gone p t || (match t.hold with
    | .park _ _ _ _ => true
    | .bar _ _ | .gbar _ _ | .recv _ | .full => !s.holdOver p t.hold
    | _ => false)

/-- Notes since when every team of a task has waited (R339). -/
def State.markWaits (s : State) : AMap Task :=
  AMap.mapVals (fun tid k =>
    let waits := k.teams.all (fun f => s.waitsAt (.team tid f.1) f.2)
    { k with waitingSince := if waits then some (k.waitingSince.getD s.time) else none }) s.tasks

/-- Notes since when the next cohort of a grid has fitted no core (R229, R355). -/
def State.markGridWaits (s : State) : AMap Grid :=
  AMap.mapVals (fun g x =>
    if (s.nextCohorts x).isEmpty then x
    else { x with waitSince := if s.fitsNow g x then none else some (x.waitSince.getD s.time) }) s.grids

/-- Resident teams, with their parties. -/
def State.resident (s : State) : List (Party × Team) :=
  (s.allTeams.filter (fun x => x.2.2.1.resident && !x.2.2.2.released)).map (fun x => (.team x.1 x.2.1, x.2.2.2))

/-- A team that was ready and of which its partition has made no pass counts the clocks that have passed (R179, counter 2). -/
def State.countIdle (before s : State) (clocks : Nat) : State :=
  s.resident.foldl (fun s x =>
    match before.team? x.1 with
    | some t => if t.passes = x.2.passes && begins before x.1 then s.setTeam x.1 { x.2 with idle := x.2.idle + clocks } else s
    | none => s) s

/-- The party stands at a word whose counter is at its maximum (R129). -/
def State.atFullCounter (s : State) (p : Party) (t : Team) : Bool :=
  s.canIssue p t && (match s.fetchAddr p t with
    | (s, .ok pa) => (match decodeBytes (readBytes s.mem pa 4) with
      | .ok (i, _) => counterFull i t.released'
      | .error _ => false)
    | _ => false)

/-- An operation at the head of an engine's queue of a core, or a collective, waits on a registered range (R245). -/
def State.engineWaits (s : State) (core : Nat) (k : Core) : Bool :=
  (k.engines.filterMap (fun q => q.2.head?) ++ k.colls).any (fun o => s.lockWait core o.task o.seq)

/-- Adds to a counter of a core (R179). -/
def State.addCount (s : State) (core n clocks : Nat) : State :=
  s.modCore core (fun k => { k with counters := AMap.put 0 k.counters n (AMap.get 0 k.counters n + clocks) })

/-- Counters 6 and 7 of the cores on which an engine operation waited on a registered range, or a team on a full counter (R179). -/
def State.countWaits (before s : State) (clocks : Nat) : State :=
  let engines := (before.cores.filter (fun c => before.engineWaits c.1 c.2)).map (·.1)
  let teams := (before.resident.filter (fun x => before.atFullCounter x.1 x.2)).map (fun x => before.coreOf x.1)
  teams.eraseDups.foldl (fun s c => s.addCount c 7 clocks) (engines.foldl (fun s c => s.addCount c 6 clocks) s)

/-- A team that is not ready has no age (R202). -/
def State.dropAges (s : State) : State :=
  s.resident.foldl (fun s x => if x.2.age ≠ 0 && !begins s x.1 then s.setTeam x.1 { x.2 with age := 0 } else s) s

/-- Arithmetic clocks that pass in a step: a free number; several units of the device may act at one clock, but front ends and stewards,
whose words come one after another, take one at least (log 5). -/
def State.clocks (s : State) : Turn → Nat
  | .prologue _ | .steward _ => 1 + Config.acPassed s.tick
  | _ => Config.acPassed s.tick

/-- Time passes: one step, a number of arithmetic clocks, and the ticks of the 100 MHz timebase that they come to at the
frequency at which that domain runs (R3, R172; log 5). -/
def State.passTime (s : State) (clocks : Nat) : State :=
  let p := s.phase + 100 * clocks
  { s with tasks := s.markWaits, grids := s.markGridWaits, tick := s.tick + 1, ac := s.ac + clocks
           time := s.time + p / s.power.arith, phase := p % s.power.arith }

/-- In a replay a team whose slot is given back meets the ends that its log still holds for it (R385). -/
def State.meetReleased (s : State) : State :=
  (s.allTeams.filter (fun x => x.2.2.2.released && !x.2.2.1.finished && s.replaying x.2.2.1.ctx)).foldl
    (fun s x => s.prelude (.team x.1 x.2.1)) s

/-- What follows every step: the counts and ages of teams, clock records and replayed arrivals whose turn has come, and the passing of
time. -/
def State.advance (turn : Turn) (before s : State) : State :=
  let n := before.clocks turn
  ((State.countWaits before (State.countIdle before s n) n).dropAges.flushClocks.replayArrivals.meetReleased).passTime n

def advanceOut (turn : Turn) (before : State) : Out → Out
  | .next s => .next (State.advance turn before s)
  | o => o

/-- The two events of R447 that bring the device up: until then cores, application cores, PCIe and Meridian are held. -/
def bringsUp : Instr → Bool
  | .deviceReset _ _ _ | .recoveryImageLoad _ _ => true
  | _ => false

/-- The events by which what is in flight completes, which go on while the lease clock wraps (R269). -/
def drains : Instr → Bool
  | .loadResultWrite _ _ | .storePerformed _ _ | .atomicRequestExecute _ _ _ | .commit _ | .txValidation _ _ _
  | .leadFetchComplete _ _ _ _ | .matrixArrayTake _ _ | .matrixWordComplete _ _ | .engineOperationRun _ _ _
  | .engineCompletion _ _ | .collectiveCombine _ _ _ | .tlbWalkEnd _ | .registerLineFill _ _ _
  | .registerLineWriteback _ _ _ _ | .leaseClockWrap => true
  | _ => false

/-- The event performs accesses of a recorded or replayed team, which belong to one chunk together (R375, R376; log 31). -/
def State.undivided (s : State) (i : Instr) : Bool :=
  match i with
  | .loadResultWrite p _ | .storePerformed p _ | .matrixWordComplete p _ => s.traced (s.ctxOf p)
  | _ => false

/-- An event as it is made for one lane's access alone (R240). -/
def runPart (s : State) (i : Instr) (lane : Nat) : Out :=
  if s.undivided i then exec i s
  else match exec i { s with only := some lane } with
  | .next s => .next { s with only := none }
  | o => o

/-- The team that a step's end by time would end, and that step's own instruction can begin: the step goes on (R180, R396). -/
def State.stepGoesOn (s : State) (i : Instr) : Bool :=
  match i with
  | .dstepTimeout p => (match (s.team? p).map (·.hold) with
    | some (Hold.step task ord _ _) => begins s (.team task ord)
    | _ => false)
  | .stepTeamRequest c => (match (s.ctx (c % 64)).stepReq with
    | some r => r.status.isNone && begins s (.team r.task r.ord)
    | none => false)
  | _ => false

/-- Takes a move of a device that is up. An instruction word is no event: it is issued only by a party. While the lease clock
wraps nothing issues and no request comes in (R269). -/
def runUp (s : State) : Turn → Out
  | .partition core part => if s.wrapping then .next s else runPartition s (core % 128) (part % 32)
  | .lead core => if s.wrapping then .next s else runLead s (core % 128)
  | .prologue c => if s.wrapping then .next s else runWord s (.prologue (c % 64))
  | .steward d => if s.wrapping then .next s else runWord s (.steward (d % 6))
  | .event i =>
    if i.isWord || (s.wrapping && !drains i && !bringsUp i) || s.stepGoesOn i then .next s else exec i s
  | .part i lane => if i.isWord || (s.wrapping && !drains i) then .next s else runPart s i lane
  | .upset f => .next { s with flaws := s.flaws ++ [f] }
  | .ask task => .next (if (s.task? task).isSome then { s with asked := task :: s.asked } else s)
  | .accepted n => .next (s.acceptedAbroad n)
  | .appLoad agent addr n => .next (if s.wrapping then s else s.appCoreLoad agent addr n)
  | .regRead off width => .next (s.readOutside off width)
  | .heat d t => .next (s.modSteward (d % 6) (fun x => { x with temp := BitVec.ofNat 32 (t % 2 ^ 16) }))

/-- Takes a move: before the device is up, only those of R447 do anything. -/
def runTurn (s : State) (t : Turn) : Out :=
  if s.boot.up then runUp s t
  else match t with
    | .event i => if bringsUp i then exec i s else .next s
    | _ => .next s

/-- The move to take and the state without it: the first of the agenda, or the device's own (log 2). -/
def State.nextMove (s : State) : Turn × State :=
  match s.agenda with
  | [] => (Config.nextTurn s.tick, s)
  | t :: rest => (t, { s with agenda := rest })

end Sys2Proof.Machine
end

