-- ==== Sys2Proof/Machine/Step.lean ====
section
/-!
DEFINITION. One step of the device, and a state in which the next step runs a given word.
-/

namespace Sys2Proof.Machine

/-- One step: the next move, and the passing of time. -/
def step (s : State) : Host.Outcome State Fault Refusal :=
  advanceOut s.nextMove.1 s.nextMove.2 (runTurn s.nextMove.2 s.nextMove.1)

/-- Address at which a placed word is fetched. -/
def placeAddr : Nat := 0x10000

/-- A launch record of one cohort. -/
def placeRecord : LaunchRec :=
  { code := BitVec.ofNat 64 placeAddr, table := 0#64, gx := 1, gy := 1, gz := 1, roleBytes := 0x80#32, scratch := 1024
    argSize := 0, staticSize := 0, argAddr := 0#64, compAddr := 0#64, compValue := 0#32, flags := 5#32 }

/-- A grid of one cohort. -/
def placeGrid : Grid :=
  { ctx := 0, packet := none, parent := none, record := placeRecord, md := mdReset
    roles := [{ entry := BitVec.ofNat 64 placeAddr, lead := 0#64, budget := 96, groups := 1, teams := 1 }]
    args := [], run := 0, runs := 1, ordinal := 0, handed := true, copied := true, started := true, next := 1, retry := [], ended := 0, failed := false
    lastCluster := none, waitSince := none, expired := false, plate := none, engraved := false, settled := true, sums := []
    sumsApplied := false, atCheck := false, checked := false, complete := false, anchor := false }

/-- Its task, on core 0, with one team of one group on partition 0. -/
def placeTask (leads : AMap Team) : Task :=
  { ctx := 0, grid := 0, index := 0, core := 0, base := 0, frame := 0x100000, priority := 0, scratchSize := 1024
    scratch := [], bars := [], commits := 0, version := [], messages := [], taken := [], retries := 0
    teams := [(0, Team.start .kernel 0 0 1 96 (BitVec.ofNat 64 placeAddr) mdReset)], leads := leads, failing := none, primary := false
    resident := true, finished := false, waitingSince := none, ticket := none, ticketQ := [], touched := [], partials := [] }

/-- A translation of every address below 2^34, a page of 16 GiB, to itself, with every right of a user page. -/
def placeTlb : TlbEntry := { ctx := 0, lo := 0, size := 2 ^ 34, pa := 0, flags := 0xDF, vs := (0, 2 ^ 34), gs := (0, 2 ^ 34) }

/-- A packet whose prologue runs. -/
def placePacket : Packet :=
  { kind := 1, queue := 0, addr := 0#64, body := [], ranges := [], prologue := none, md := mdReset, roles := []
    stage := .inPrologue, copied := 0 }

/-- A prologue of context 0. -/
def placePrologue : Prologue :=
  { team := Team.single .prologue (BitVec.ofNat 64 placeAddr) mdReset, packet := 0
    csr := { lgx := 1#32, lgy := 1#32, lgz := 1#32, largl := 0#32, largh := 0#32, lruns := 1#32 }
    issued := 0, since := 0, haltedTicks := 0, haltSince := none, woken := false }

/-- The party that may issue an instruction: a lead slice for its own words (R51), a prologue for the privileged
ones, a team for every other. -/
def placeTurn (i : Instr) : Turn :=
  if streamOk .kernel i then .partition 0 0
  else if streamOk .lead i then .lead 0
  else .prologue 0

/-- The word laid out in memory where the party fetches it. For a team or a lead slice a task is resident on core 0
with a translation in its TLB; for a prologue, page tables with one leaf of 1 GiB stand at 0x20000, 0x21000 and 0x22000. The
device is up, as after a reset that has verified its firmware (R447; log 4). -/
def State.withFetchWord (s : State) (nbits w : Nat) : State :=
  let n := w % 2 ^ nbits % 2 ^ 32
  let i := decodeNat n
  let turn := placeTurn i
  let s : State := { s with
    mem := writeBytes s.mem placeAddr (wordBytes n), agenda := [turn], cur := none, boot := { s.boot with up := true } }
  match turn with
  | .prologue _ =>
    let tables (m : AMap Byte) : AMap Byte :=
      writeNat (writeNat (writeNat m 0x20000 8 (0x21 * 2 ^ 10 + 1)) 0x21000 8 (0x22 * 2 ^ 10 + 1)) 0x22000 8 0xCF
    let s : State := { s with mem := tables s.mem }
    (s.setCreg 0 oCSATP (10 * 2 ^ 60 + 0x20)).modCtx 0 (fun k =>
      { k with prologue := some placePrologue, packets := AMap.set k.packets 0 placePacket })
  | _ =>
    let leads : AMap Team := if turn = .lead 0 then
        [(0, Team.single .lead (BitVec.ofNat 64 placeAddr) mdReset)] else []
    ((s.setGrid 0 placeGrid).setTask 0 (placeTask leads)).modCore 0 (fun k => { k with tlb := placeTlb :: k.tlb })

end Sys2Proof.Machine
end

