-- ==== Sys2Proof/Safety.lean ====
section
/-!
DEFINITION. The terms that the statements use: when a word issues, what its completion is, what a word writes, and the
well-formedness of a state that every step keeps.
-/

namespace Sys2Proof.Machine

/-! ## Issue and completion -/

/-- The word `i` issues: it is the party's move, nothing holds the party's stream (R201), and the word's own checks find neither a
trap nor a wait (R48, R129, R130). -/
structure Issues (s : State) (p : Party) (t : Team) (i : Instr) : Prop where
  cur : s.cur = some p
  team : s.team? p = some t
  free : s.canIssue p t = true
  clear : s.preIssue p i t.released' = none

/-- The stream as the word's effect finds it: what held it is over, and the word is counted. -/
def Team.opened (t : Team) (i : Instr) : Team := t.released'.begin i

/-- The word completes with its own effect, which leaves the state `s'` and the stream `t'`: its sequencing code acts on `t'` (R11,
R25), and unless that code takes a trap of its own the word answers a next state. `op` is the operation it started (R26). -/
def Completes (i : Instr) (h : Hdr) (s : State) (p : Party) (op : Option Nat) (s' : State) (t' : Team) : Prop :=
  ∀ u, seqAct h.seq.toNat op (s'.breaks p) t' = .ok u → exec i s = .next ((s'.setTeam p u).settle p)

/-- A word that changes only its own stream completes, leaving the stream `t'`. -/
def CompletesAs (i : Instr) (h : Hdr) (s : State) (p : Party) (t' : Team) : Prop :=
  Completes i h s p none (s.countIssue p) t'

/-- A word that starts no operation completes, leaving the state `s'` and its stream `t'`. -/
def CompletesIn (i : Instr) (h : Hdr) (s : State) (p : Party) (s' : State) (t' : Team) : Prop := Completes i h s p none s' t'

/-- A word takes a trap in place of its effect (R10, R182). -/
def Traps (i : Instr) (s : State) (p : Party) (t : Team) (tr : TrapInfo) : Prop :=
  exec i s = .next (((s.setTeam p { t.released' with passes := t.passes + passesOf i t.released' })).raiseTrap p t.pc tr)

/-- A word cannot begin, and the state stays as it is (R201). -/
def Waits (i : Instr) (s : State) : Prop := exec i s = .next s

/-! ## What a word writes -/

/-- The lane takes part: it exists, is active, and its guard is true (R23, R69). -/
def Team.Takes (t : Team) (l : Nat) : Prop := l < 32 * t.groups ∧ l < 1024 ∧ t.takePart.getLsbD l = true

/-- The only change from `t` to `t'` is that registers `d` to `d + n - 1` hold `f 0` to `f (n - 1)`: a lane register in each lane that
takes part, a uniform register once, from lane 0's value (R16, R69). -/
structure WritesSpan (t t' : Team) (d n : Nat) (f : Nat → Nat → Word) : Prop where
  lane : d < 96 → ∀ i < n, ∀ l, t.Takes l → t'.vreg (d + i) l = f i l
  idle : ∀ r l, l < 1024 → ¬ (t.Takes l ∧ d < 96 ∧ d ≤ r ∧ r < d + n) → t'.vreg r l = t.vreg r l
  uniform : 96 ≤ d → ∀ i < n, t'.kreg (d - 96 + i) = f i 0
  others : ∀ r, ¬ (96 ≤ d ∧ d - 96 ≤ r ∧ r < d - 96 + n) → t'.kreg r = t.kreg r
  rest : { t' with v := t.v, k := t.k } = t

/-- One register. -/
def WritesReg (t t' : Team) (d : Nat) (f : Nat → Word) : Prop := WritesSpan t t' d 1 (fun _ l => f l)

/-- A pair: low half in `d`, high half in `d + 1` (R17). -/
def WritesPair (t t' : Team) (d : Nat) (f : Nat → Word64) : Prop :=
  WritesSpan t t' d 2 (fun i l => if i = 0 then lowHalf (f l) else highHalf (f l))

/-- A typed value: a pair under type 12, else a register (R47). -/
def WritesVal (t t' : Team) (d : Nat) (f : Nat → Nat) : Prop :=
  if mdType t.md = 12 then WritesPair t t' d (fun l => BitVec.ofNat 64 (f l))
  else WritesReg t t' d (fun l => BitVec.ofNat 32 (f l))

/-- The only change from `t` to `t'` is the predicate of code `c`: p0 discards the write, a p takes `f` in each lane that takes
part, a q takes `f 0` (R18, R93). -/
structure WritesPred (t t' : Team) (c : Nat) (f : Nat → Bool) : Prop where
  lane : 1 ≤ c → c < 8 → ∀ l, t.Takes l → t'.predAt c l = f l
  idle : ∀ e l, e < 8 → l < 1024 → ¬ (e = c ∧ t.takePart.getLsbD l = true) → t'.predAt e l = t.predAt e l
  uniform : 8 ≤ c → t'.q.getLsbD (c - 8) = f 0
  others : ∀ e, ¬ (8 ≤ c ∧ e = c - 8) → t'.q.getLsbD e = t.q.getLsbD e
  rest : { t' with p := t.p, q := t.q } = t

/-! ## What a word that issues does -/

/-- It completes, having changed only its own stream, by `f`. -/
def Changes (s : State) (p : Party) (t : Team) (h : Hdr) (i : Instr) (f : Team → Team) : Prop :=
  Issues s p t i → CompletesAs i h s p (f (t.opened i))

/-- It completes, having written only register `d`. -/
def Computes (s : State) (p : Party) (t : Team) (h : Hdr) (i : Instr) (d : Nat) (f : Nat → Word) : Prop :=
  Issues s p t i → ∃ t', WritesReg (t.opened i) t' d f ∧ CompletesAs i h s p t'

/-- It completes, having written only pair `d`. -/
def ComputesPair (s : State) (p : Party) (t : Team) (h : Hdr) (i : Instr) (d : Nat) (f : Nat → Word64) : Prop :=
  Issues s p t i → ∃ t', WritesPair (t.opened i) t' d f ∧ CompletesAs i h s p t'

/-- It completes, having written only the typed value at `d`. -/
def ComputesVal (s : State) (p : Party) (t : Team) (h : Hdr) (i : Instr) (d : Nat) (f : Nat → Nat) : Prop :=
  Issues s p t i → ∃ t', WritesVal (t.opened i) t' d f ∧ CompletesAs i h s p t'

/-- It completes, having written only the `n` registers from `d`. -/
def ComputesSpan (s : State) (p : Party) (t : Team) (h : Hdr) (i : Instr) (d n : Nat) (f : Nat → Nat → Word) : Prop :=
  Issues s p t i → ∃ t', WritesSpan (t.opened i) t' d n f ∧ CompletesAs i h s p t'

/-- It completes, having written only the predicate of code `c`. -/
def ComputesPred (s : State) (p : Party) (t : Team) (h : Hdr) (i : Instr) (c : Nat) (f : Nat → Bool) : Prop :=
  Issues s p t i → ∃ t', WritesPred (t.opened i) t' c f ∧ CompletesAs i h s p t'

/-- The stream with one more outstanding operation, of a counter and a kind (R129). -/
def Team.withOp (t : Team) (i : Instr) (c : Counter) (k : PendKind) : Team :=
  { t.opened i with
    pend := t.pend ++ [{ id := t.nextId, cls := c, done := false, pc := t.pc, md := t.md, point := t.retired + 1, kind := k }]
    nextId := t.nextId + 1 }

/-- A memory word: its form and the address that each lane forms (R125 to R134). -/
structure MemRow where
  i : Instr
  form : MemForm
  addr : Nat → Word64

/-- The lanes a memory word acts for: those that take part, or one access for the team (R122, R127). -/
def MemRow.lanes (r : MemRow) (t : Team) : List Nat := if r.form.once then [0] else t.lanes

/-- The accesses of a memory word whose lanes' addresses lie at the given places; the one access of a team is in no lane (R183). -/
def MemRow.accesses (r : MemRow) (t : Team) (loc : Nat → Loc) : List Access :=
  (r.lanes t).map (fun l =>
    { lane := if r.form.once then 0xFFFF else l, va := r.addr l, loc := loc l, data := (r.form.data t l).1, data2 := (r.form.data t l).2 })

/-- The operation that a memory word of a party starts (R125 to R134): its release side orders for the parties that its scope takes
in (R233), its acquire side the team's own later accesses (R234). -/
def MemRow.op (r : MemRow) (s : State) (p : Party) (t : Team) (loc : Nat → Loc) : MemOp :=
  let accs := r.accesses t loc
  { kind := r.form.kind, bytes := r.form.bytes, signed := r.form.signed, dest := r.form.spec, accs := accs
    acq := r.form.acq && !accs.isEmpty, rel := r.form.rel && accs.any (fun a => s.ordersFor p (s.scopeAt p r.form a)), scope := r.form.scope, op := r.form.op
    reqs := if r.form.kind = .atomic then requestsOf s p r.form accs else [], held := some [] }

/-- The counter of a memory word: ld for what returns a value, st for the rest (R129). -/
def MemRow.counter (r : MemRow) : Counter := if r.form.kind = .load || r.form.kind = .atomic then .ld else .st

/-- The stream of a memory word that has started its operation; an access with a release side at `.dev` or `.sys` holds it
for the commit (R126, R134, R255). -/
def MemRow.after (r : MemRow) (s : State) (p : Party) (t : Team) (loc : Nat → Loc) : Team :=
  let u := t.withOp r.i r.counter (.mem (r.op s p t loc))
  if r.form.kind ≠ .atomic ∧ r.form.rel = true ∧ 5 ≤ r.form.scope ∧ r.accesses t loc ≠ [] then { u with hold := .commit .plain }
  else u

/-- The context is neither recorded nor replayed, so an event that ends a chunk leaves no record (R375). -/
structure State.Quiet (s : State) (c : Nat) : Prop where
  level : (s.ctx c).level.recording = false
  replay : s.replaying c = false

/-- A new chunk begins at the stream's count of instructions (R375). -/
def Team.newChunk (t : Team) : Team := { t with chunk := { last := t.retired, begun := t.retired } }

/-- It completes, its operation queued on an engine of a core behind those there, its ranges registered (R149, R244, R299); an
overlap with ranges registered before ends the chunk (R375). `s'` is the state once the descriptor has been read. -/
def StartsEngine (i : Instr) (h : Hdr) (s : State) (tid ord : Nat) (t : Team) (s' : State) (core eng : Nat) (desc : List Byte)
    (ls : List LockSpan) : Prop :=
  let r := (s'.core core).register tid ord t.nextId s'.tick false ls
  let o : EngOp :=
    { task := tid, ord := ord, op := t.nextId, desc := desc, md := t.md, seq := r.2, pc := t.pc, pos := 0, out := [], beside := []
      block := [], fault := none }
  let u := t.withOp i .cp (.engine eng)
  Completes i h s (.team tid ord) (some t.nextId)
    ((s'.setCore core r.1).modCore core (fun c => { c with engines := AMap.set c.engines eng (AMap.get [] c.engines eng ++ [o]) }))
    (if s'.overlaps core tid ls then u.newChunk else u)

/-- It completes, its matrix word queued on the array of the team's quadrant behind those there (R162, R288). -/
def QueuesWord (i : Instr) (h : Hdr) (s : State) (tid ord : Nat) (t u : Team) (s' : State) (core tile seq : Nat)
    (w : MatrixWord) : Prop :=
  let q := t.partition / 8
  let e : ArrayEntry := { task := tid, ord := ord, op := t.nextId }
  Completes i h s (.team tid ord) (some t.nextId)
    (s'.setCore core { s'.core core with
      arrays := AMap.set (s'.core core).arrays q (AMap.get [] (s'.core core).arrays q ++ [e]) })
    { u with
      pend := t.pend ++ [{ id := t.nextId, cls := .tl, done := false, pc := t.pc, md := t.md, point := t.retired + 1
                           kind := .matrix w tile t.matrixRows false seq }]
      nextId := t.nextId + 1 }

/-- The team holds a tile of its own quadrant (R162, R163). -/
def Core.owns (k : Core) (t : Team) (tid ord tile : Nat) : Prop :=
  tile / 2 = t.partition / 8 ∧ AMap.find k.holder tile = some (tid, ord)

/-- The party's outstanding operation `id` is the memory operation `m` of `x`, and it may be performed: the party acts, its accesses
follow the order of R234 and R376, and no byte of it is held (R123, R129, R138, R182). -/
structure Performs (s : State) (p : Party) (t : Team) (id : Nat) (x : Pend) (m : MemOp) : Prop where
  team : s.team? p = some t
  op : t.pend? id = some x
  kind : x.kind = .mem m
  acts : s.acting p = true
  order : s.ordered p t (some id) = true
  first : mayPerform m t.pend id = true
  free : ∀ a ∈ m.accs, s.locHeld (some p) a.loc m.bytes = false

/-- The watchpoints see each access of an operation (R401). -/
def State.watchAll (s : State) (p : Party) (x : Pend) (m : MemOp) (reads writes : Bool) (accs : List Access) : State :=
  accs.foldl (fun s a => s.watch (accessor p x.pc false) a.loc reads writes a.va m.bytes a.lane) s

/-- Nothing but the next instruction is expected of the team: it is not frozen, has not ended, and no `brk` waits. -/
structure Team.Plain (t : Team) : Prop where
  free : t.freeze = .no
  going : t.ended = false
  calm : t.brk = false

/-- It takes a trap in place of its effect. -/
def TrapsWith (s : State) (p : Party) (t : Team) (i : Instr) (tr : TrapInfo) : Prop := Issues s p t i → Traps i s p t tr

end Sys2Proof.Machine

namespace Sys2Proof

open Sys2Proof.Machine

/-! ## Invariants -/

/-- Committed memory is in its canonical form. -/
def MemoryCanonical (s : State) : Prop := Memory.wf s.mem = true

/-- The step answers a next state, neither a fault nor a refusal. -/
def Goes (s : State) : Prop := ∃ s', step s = .next s'

end Sys2Proof
end

