-- ==== Sys2Proof/Certificates/Slice0/Obligations.lean ====
section
/-!
DEFINITION. The statements for the provers. Each says in its docstring which rules of the manual it formalises.
-/

open Sys2Proof Sys2Proof.Machine

/-! ## Words that change only their own stream -/

/-- R71 to R82: the words of the control group that write a slot, md, tw or a register. -/
def Obligations.ControlWordsWriteTheirOneTarget : Prop :=
  ∀ (s : State) (p : Party) (t : Team) (h : Hdr) (d a : BitVec 7) (j : BitVec 2) (im : BitVec 19) (v : BitVec 12)
    (v8 : BitVec 8) (w : BitVec 3) (im14 : BitVec 14),
    Changes s p t h (.nop h) id ∧
    Changes s p t h (.jset h j im) (fun t' => t'.setJ j.toNat (t.pc + 4#64 * im.signExtend 64)) ∧
    Changes s p t h (.jmov h j a) (fun t' => t'.setJ j.toNat (t.pair a.toNat 0)) ∧
    ComputesPair s p t h (.jget h d j) d.toNat (fun _ => t.slotJ j.toNat) ∧
    Changes s p t h (.msetLo h v) (fun t' => { t' with md := t.md.extractLsb' 12 20 ++ v }) ∧
    Changes s p t h (.msetFl h v) (fun t' => { t' with md := t.md.extractLsb' 24 8 ++ v ++ t.md.extractLsb' 0 12 }) ∧
    Changes s p t h (.msetHi h v8) (fun t' => { t' with md := v8 ++ t.md.extractLsb' 0 24 }) ∧
    (mdLegal (t.reg a.toNat 0) = true → Changes s p t h (.mput h a) (fun t' => { t' with md := t.reg a.toNat 0 })) ∧
    Computes s p t h (.mget h d) d.toNat (fun _ => t.md) ∧
    Changes s p t h (.tile h w) (fun t' => { t' with tw := w.setWidth 32 }) ∧
    Computes s p t h (.rdlane h d a) d.toNat (fun _ => t.reg a.toNat (t.activeLanes.headD 0)) ∧
    Computes s p t h (.movi h d im14) d.toNat (fun _ => im14.signExtend 32) ∧
    Computes s p t h (.movhi h d im14) d.toNat (fun l => (t.reg d.toNat l).extractLsb' 0 18 ++ im14)

/-- R81: what `sreg` reads in a team of kernel code. R128, R146, R184: `ldarg` reads unit A of its size of the launch's argument
copy, or takes ACCESS with the byte offset past it; into a lane register with no lane taking part it does nothing. -/
def Obligations.WordsReadTheirTasksOwnData : Prop :=
  (∀ (s : State) (tid ord : Nat) (t : Team) (k : Task) (g : Grid) (h : Hdr) (d n : BitVec 7),
     s.task? tid = some k → s.grid? k.grid = some g →
     let r := g.record
     Computes s (.team tid ord) t h (.sreg h d n) d.toNat (fun l => BitVec.ofNat 32
       (match n.toNat with
        | 0 => l
        | 1 => l / 32
        | 2 => t.index
        | 3 => t.role
        | 4 => k.index % r.gx
        | 5 => k.index / r.gx % r.gy
        | 6 => k.index / r.gx / r.gy
        | 7 => r.gx
        | 8 => r.gy
        | 9 => r.gz
        | 10 => k.index % r.gangSize
        | 11 => k.core
        | _ => r.gz))) ∧
  (∀ (s : State) (p : Party) (t : Team) (h : Hdr) (d a : BitVec 7),
     let args := s.argBytes p
     let value (n : Nat) : Nat := ofBytes ((args.drop (n * a.toNat)).take n)
     let past (n : Nat) (i : Instr) : Prop :=
       ((d.toNat < 96 → t.lanes ≠ []) → args.length < n * (a.toNat + 1) →
         TrapsWith s p t i (trapOf 21 (BitVec.ofNat 64 (n * a.toNat)) 0)) ∧
       (d.toNat < 96 → t.lanes = [] → Changes s p t h i id)
     (a.toNat + 1 ≤ args.length → Computes s p t h (.ldargB8 h d a) d.toNat (fun _ => BitVec.ofNat 32 (value 1))) ∧
     (2 * (a.toNat + 1) ≤ args.length → Computes s p t h (.ldargB16 h d a) d.toNat (fun _ => BitVec.ofNat 32 (value 2))) ∧
     (4 * (a.toNat + 1) ≤ args.length → Computes s p t h (.ldargB32 h d a) d.toNat (fun _ => BitVec.ofNat 32 (value 4))) ∧
     (8 * (a.toNat + 1) ≤ args.length → ComputesPair s p t h (.ldargB64 h d a) d.toNat (fun _ => BitVec.ofNat 64 (value 8))) ∧
     past 1 (.ldargB8 h d a) ∧ past 2 (.ldargB16 h d a) ∧ past 4 (.ldargB32 h d a) ∧ past 8 (.ldargB64 h d a))

/-- R75, R76: loops open, close and are skipped; a count of 0 continues at j1 whatever the sequencing code; an empty loop stack
gives lc and lh their values of the team's start; and a lane register as the count is refused by the register check (R48), as
ILLEGAL_REG. -/
def Obligations.LoopWordsActOnTheLoopStack : Prop :=
  ∀ (s : State) (p : Party) (t : Team) (h : Hdr) (a : BitVec 7) (n : BitVec 14),
    let opens (i : Instr) (count : Nat) : Prop :=
      Issues s p t i →
        (count ≠ 0 → t.loops.length < 4 →
          CompletesAs i h s p { t.opened i with loops := { lc := BitVec.ofNat 32 count, lh := t.pc + 4#64 } :: t.loops }) ∧
        (count ≠ 0 → 4 ≤ t.loops.length → Traps i s p t (trapOf 25 0#64 t.loops.length)) ∧
        (count = 0 → t.j1.toNat % 4 = 0 →
          exec i s = .next ((((s.countIssue p).setTeam p { t.opened i with pc := t.j1 }).settle p)))
    opens (.lset h a) (t.reg a.toNat 0).toNat ∧ opens (.lsetImm h n) n.toNat ∧
    (∀ e rest, t.loops = e :: rest → Changes s p t h (.lbrk h) (fun t' => { t' with loops := rest })) ∧
    (t.loops = [] → TrapsWith s p t (.lbrk h) (trapOf 25 0#64 0)) ∧
    (t.loops = [] → t.lc = 0#32 ∧ t.lh = t.entry) ∧ (∀ e rest, t.loops = e :: rest → t.lc = e.lc ∧ t.lh = e.lh) ∧
    (a.toNat < 96 → regsOk t.single1 t.budget (uses (mdType t.md) (.lset h a)) = false)

/-- R84 to R89: D from A and C, or from A, in each lane that takes part or once for the team. -/
def Obligations.IntegerWordsComputeTheirResult : Prop :=
  ∀ (s : State) (p : Party) (t : Team) (h : Hdr) (d a c im : BitVec 7),
    let A := fun l => t.reg a.toNat l
    let C := fun l => t.reg c.toNat l
    let D := fun l => t.reg d.toNat l
    let pos := fun l => (C l).toNat % 32
    let len := fun l => min ((C l).toNat / 256 % 64) (32 - pos l)
    let mask := fun l => BitVec.ofNat 32 (2 ^ len l - 1)
    Computes s p t h (.iadd h d a c) d.toNat (fun l => A l + C l) ∧
    Computes s p t h (.isub h d a c) d.toNat (fun l => A l - C l) ∧
    Computes s p t h (.imul h d a c) d.toNat (fun l => A l * C l) ∧
    Computes s p t h (.imulh h d a c) d.toNat (fun l => BitVec.ofNat 32 ((A l).toNat * (C l).toNat / 2 ^ 32)) ∧
    Computes s p t h (.andB h d a c) d.toNat (fun l => A l &&& C l) ∧
    Computes s p t h (.orB h d a c) d.toNat (fun l => A l ||| C l) ∧
    Computes s p t h (.xorB h d a c) d.toNat (fun l => A l ^^^ C l) ∧
    Computes s p t h (.andnB h d a c) d.toNat (fun l => A l &&& ~~~ C l) ∧
    Computes s p t h (.shl h d a c) d.toNat
      (fun l => if 32 ≤ (C l).toNat % 256 then 0#32 else A l <<< ((C l).toNat % 256)) ∧
    Computes s p t h (.shr h d a c) d.toNat
      (fun l => if 32 ≤ (C l).toNat % 256 then 0#32 else A l >>> ((C l).toNat % 256)) ∧
    Computes s p t h (.sar h d a c) d.toNat
      (fun l => if 32 ≤ (C l).toNat % 256 then (if (A l).msb then BitVec.allOnes 32 else 0#32)
        else (A l).sshiftRight ((C l).toNat % 256)) ∧
    Computes s p t h (.rot h d a c) d.toNat
      (fun l => A l <<< ((C l).toNat % 32) ||| A l >>> (32 - (C l).toNat % 32)) ∧
    Computes s p t h (.bfx h d a c) d.toNat (fun l =>
      let f := (A l >>> pos l) &&& mask l
      if (C l).getLsbD 15 = true ∧ 0 < len l ∧ f.getLsbD (len l - 1) = true then f ||| ~~~ mask l else f) ∧
    Computes s p t h (.bfi h d a c) d.toNat (fun l =>
      (D l &&& ~~~ (mask l <<< pos l)) ||| ((A l &&& mask l) <<< pos l)) ∧
    Computes s p t h (.sel h d a c) d.toNat (fun l =>
      if (if 96 ≤ d.toNat then t.bpAny else t.predAt (mdBp t.md) l) then A l else C l) ∧
    Computes s p t h (.iaddi h d a im) d.toNat (fun l => A l + im.signExtend 32) ∧
    Computes s p t h (.mov h d a) d.toNat A ∧
    Computes s p t h (.popc h d a) d.toNat
      (fun l => BitVec.ofNat 32 ((List.range 32).countP (fun b => (A l).getLsbD b))) ∧
    Computes s p t h (.clz h d a) d.toNat (fun l => (A l).clz) ∧
    Computes s p t h (.ctz h d a) d.toNat (fun l => (A l).reverse.clz) ∧
    Computes s p t h (.brev h d a) d.toNat (fun l => (A l).reverse)

/-- R90: pairs. -/
def Obligations.PairWordsComputeTheirResult : Prop :=
  ∀ (s : State) (p : Party) (t : Team) (h : Hdr) (d a c : BitVec 7) (n : BitVec 6),
    let A := fun l => t.pair a.toNat l
    let C := fun l => t.pair c.toNat l
    ComputesPair s p t h (.add64 h d a c) d.toNat (fun l => A l + C l) ∧
    ComputesPair s p t h (.sub64 h d a c) d.toNat (fun l => A l - C l) ∧
    ComputesPair s p t h (.lea h d a c) d.toNat (fun l => A l + (t.reg c.toNat l).signExtend 64) ∧
    ComputesPair s p t h (.shl64 h d a n) d.toNat (fun l => A l <<< n.toNat) ∧
    ComputesPair s p t h (.shr64 h d a n) d.toNat (fun l => A l >>> n.toNat)

/-- R91, R92: compares and the predicate group. A destination of code 12 to 15 is no predicate and fails the word's check
(`EveryWordIsCheckedBeforeItActs`). -/
def Obligations.PredicateWordsComputeTheirResult : Prop :=
  ∀ (s : State) (p : Party) (t : Team) (h : Hdr) (pd pa pc : BitVec 4) (k : BitVec 3) (d a c : BitVec 7), pd.toNat < 12 →
    let A := fun l => t.reg a.toNat l
    let C := fun l => t.reg c.toNat l
    let cond (x y : Int) : Bool :=
      match k.toNat with
      | 0 => x = y
      | 1 => x ≠ y
      | 2 => x < y
      | 3 => x ≤ y
      | 4 => y < x
      | _ => y ≤ x
    ComputesPred s p t h (.icmp h pd k a c) pd.toNat (fun l => cond (A l).toInt (C l).toInt) ∧
    ComputesPred s p t h (.ucmp h pd k a c) pd.toNat (fun l => cond (A l).toNat (C l).toNat) ∧
    ComputesPred s p t h (.pand h pd pa pc) pd.toNat (fun l => t.predAt pa.toNat l && t.predAt pc.toNat l) ∧
    ComputesPred s p t h (.por h pd pa pc) pd.toNat (fun l => t.predAt pa.toNat l || t.predAt pc.toNat l) ∧
    ComputesPred s p t h (.pxor h pd pa pc) pd.toNat (fun l => t.predAt pa.toNat l != t.predAt pc.toNat l) ∧
    ComputesPred s p t h (.pnot h pd pa) pd.toNat (fun l => !t.predAt pa.toNat l) ∧
    ComputesPred s p t h (.pset h pd a) pd.toNat (fun l => A l != 0#32) ∧
    Computes s p t h (.pget h d pa) d.toNat (fun l => if t.predAt pa.toNat l then 1#32 else 0#32)

/-! ## Typed, conversion and cross-lane words -/

/-- R96 to R107: the typed words apply the element functions of the format that md names, to registers or to pairs under type 12. R54,
R58 to R63, R98 to R107: what those functions give, element by element: an integer result is exact, at the end of its range under
saturation, or reduced modulo 2^w - 1, and never the absent code; a NaN operand gives the canonical NaN; absent propagates or stands
aside as md.abs and the word say; a floating result is rounded once as md.rnd says, an overflow by R58's table, a subnormal flushed by
the bits of its format. -/
def Obligations.TypedWordsApplyTheElementFunctions : Prop :=
  (∀ (s : State) (p : Party) (t : Team) (h : Hdr) (pd : BitVec 4) (k : BitVec 3) (d a c m : BitVec 7), pd.toNat < 12 →
    let A := fun l => t.val a.toNat l
    let C := fun l => t.val c.toNat l
    let bin (op : BinOp) := fun l => regBin op t.md (A l) (C l)
    let un (op : UnOp) := fun l => regUn op t.md (A l)
    ComputesVal s p t h (.addT h d a c) d.toNat (bin .add) ∧
    ComputesVal s p t h (.subT h d a c) d.toNat (bin .sub) ∧
    ComputesVal s p t h (.mulT h d a c) d.toNat (bin .mul) ∧
    ComputesVal s p t h (.minT h d a c) d.toNat (bin .min) ∧
    ComputesVal s p t h (.maxT h d a c) d.toNat (bin .max) ∧
    ComputesVal s p t h (.divT h d a c) d.toNat (bin .div) ∧
    ComputesVal s p t h (.absT h d a) d.toNat (un .abs) ∧
    ComputesVal s p t h (.negT h d a) d.toNat (un .neg) ∧
    ComputesVal s p t h (.sqrt h d a) d.toNat (un .sqrt) ∧
    ComputesVal s p t h (.rcp h d a) d.toNat (un .rcp) ∧
    ComputesVal s p t h (.rsq h d a) d.toNat (un .rsq) ∧
    ComputesVal s p t h (.exp2 h d a) d.toNat (un .exp2) ∧
    ComputesVal s p t h (.log2 h d a) d.toNat (un .log2) ∧
    ComputesVal s p t h (.sinpi h d a) d.toNat (un .sinpi) ∧
    ComputesVal s p t h (.cospi h d a) d.toNat (un .cospi) ∧
    ComputesVal s p t h (.fma h d a c) d.toNat (fun l => regFma false t.md (A l) (C l) (t.val d.toNat l)) ∧
    ComputesVal s p t h (.fmaN h d a c) d.toNat (fun l => regFma true t.md (A l) (C l) (t.val d.toNat l)) ∧
    ComputesVal s p t h (.mkabs h d a) d.toNat (fun l =>
      if (if 96 ≤ d.toNat then t.bpAny else t.predAt (mdBp t.md) l) then regAbsent (mdType t.md) else A l) ∧
    Computes s p t h (.dot h d a c) d.toNat (fun l => BitVec.ofNat 32
      (regDot t.md (t.reg a.toNat l).toNat (t.reg c.toNat l).toNat (t.reg d.toNat l).toNat)) ∧
    ComputesPred s p t h (.fcmp h pd k a c) pd.toNat (fun l => regCmp t.md k.toNat (A l) (C l)) ∧
    ComputesPred s p t h (.classify h pd a m) pd.toNat (fun l => regClass (mdType t.md) m.toNat (A l))) ∧
  (∀ (md : Word) (a b c e : Nat),
    let ty := mdType md
    let w := tyWidth ty
    let at_ (x : Nat) : Nat := x / 2 ^ (w * e) % 2 ^ w
    e < tyCount ty →
    (∀ op, at_ (regBin op md a b) = elemBin op md ty (at_ a) (at_ b) % 2 ^ w) ∧
    (∀ op, at_ (regUn op md a) = elemUn op md ty (at_ a) % 2 ^ w) ∧
    (∀ neg, at_ (regFma neg md a b c) = elemFma neg md ty (at_ a) (at_ b) (at_ c) % 2 ^ w) ∧
    at_ (regAbsent ty) = absentOf ty % 2 ^ w) ∧
  (∀ (md : Word) (ty a b c : Nat), ty ≤ 5 → a < 2 ^ tyWidth ty → b < 2 ^ tyWidth ty → c < 2 ^ tyWidth ty →
    let n : Int := 2 ^ tyWidth ty - 1
    let A := intVal ty a
    let B := intVal ty b
    let absent := absentOf ty
    let ranged (exact : Int) (r : Nat) : Prop :=
      r < 2 ^ tyWidth ty ∧ r ≠ absent ∧
      (intMin ty ≤ exact → exact ≤ intMax ty → intVal ty r = exact) ∧
      (mdSat md = true → intMax ty < exact → intVal ty r = intMax ty) ∧
      (mdSat md = true → exact < intMin ty → intVal ty r = intMin ty) ∧
      (mdSat md = false → intMin ty ≤ intVal ty r ∧ intVal ty r ≤ intMax ty ∧ (intVal ty r - exact) % n = 0)
    (a ≠ absent → b ≠ absent →
      ranged (A + B) (elemBin .add md ty a b) ∧ ranged (A - B) (elemBin .sub md ty a b) ∧
      ranged (A * B) (elemBin .mul md ty a b) ∧
      (B ≠ 0 → intVal ty (elemBin .div md ty a b) = A.tdiv B) ∧
      (B = 0 → intVal ty (elemBin .div md ty a b) = if A = 0 then 0 else if 0 < A then intMax ty else intMin ty) ∧
      intVal ty (elemBin .min md ty a b) = min A B ∧ intVal ty (elemBin .max md ty a b) = max A B ∧
      (c ≠ absent → ranged (intVal ty c + A * B) (elemFma false md ty a b c) ∧
        ranged (intVal ty c - A * B) (elemFma true md ty a b c))) ∧
    (a ≠ absent → ranged (-A) (elemUn .neg md ty a) ∧ intVal ty (elemUn .abs md ty a) = A.natAbs) ∧
    (∀ op ∈ [BinOp.add, .sub, .mul, .div],
      (mdAbs md = false → elemBin op md ty absent b = absent ∧ elemBin op md ty a absent = absent) ∧
      (mdAbs md = true → elemBin op md ty absent b = b ∧ elemBin op md ty a absent = a)) ∧
    (∀ op ∈ [BinOp.min, .max], elemBin op md ty absent b = b ∧ elemBin op md ty a absent = a)) ∧
  (∀ (md : Word) (ty a b : Nat) (f : Fmt), fmtOf ty = some f →
    let x := operand f md ty a
    let y := operand f md ty b
    (∀ op, (x = .nan ∧ y ≠ .absent) ∨ (x ≠ .absent ∧ y = .nan) → elemBin op md ty a b = f.nan) ∧
    (∀ op ∈ [BinOp.add, .sub, .mul, .div],
      (mdAbs md = false → x = .absent ∨ y = .absent → elemBin op md ty a b = f.absent) ∧
      (x = .absent → y = .absent → elemBin op md ty a b = f.absent) ∧
      (mdAbs md = true → x = .absent → y ≠ .absent → elemBin op md ty a b = pack f (mdRound md ty) y) ∧
      (mdAbs md = true → x ≠ .absent → y = .absent → elemBin op md ty a b = pack f (mdRound md ty) x)) ∧
    (∀ op ∈ [BinOp.min, .max], (x = .absent → y = .absent → elemBin op md ty a b = f.absent) ∧
      (x = .absent → y = .nan → elemBin op md ty a b = f.nan)) ∧
    (∀ op, (x = .absent → elemUn op md ty a = f.absent) ∧ (x = .nan → elemUn op md ty a = f.nan)) ∧
    (x ≠ .absent → y ≠ .absent → elemBin .add md ty a b = pack f (mdRound md ty) (addNum (decide (mdRnd md = 2)) x y) ∧
      elemBin .mul md ty a b = pack f (mdRound md ty) (mulNum x y)) ∧
    (∀ cc < 8, x = .nan ∨ y = .nan ∨ x = .absent ∨ y = .absent →
      elemCmp f md ty cc a b = (cc = 1 || cc = 6 || (cc = 7 && (x = .absent || y = .absent))))) ∧
  (∀ md : Word,
    let most (neg : Bool) : Nat :=
      (if neg then 0x80000000 else 0) + (if mdSat md || decide (mdRnd md = 1) || decide (mdRnd md = if neg then 3 else 2) then 0x7F7FFFFF else 0x7F800000)
    let tiny (n : Nat) : Nat := if mdFlushOut md 6 then 0 else n
    elemBin .add md 6 0x7F7FFFFF 0x7F7FFFFF = most false ∧ elemBin .add md 6 0xFF7FFFFF 0xFF7FFFFF = most true ∧
    elemBin .mul md 6 0x7F800000 0xBF800000 = (if mdSat md then 0xFF7FFFFF else 0xFF800000) ∧
    elemBin .div md 6 0x3F800000 0x80000000 = (if mdSat md then 0xFF7FFFFF else 0xFF800000) ∧
    elemBin .div md 6 0 0x80000000 = 0x7FC00000 ∧ elemBin .mul md 6 0 0x7F800000 = 0x7FC00000 ∧
    elemBin .sub md 6 0x7F800000 0x7F800000 = 0x7FC00000 ∧
    elemBin .add md 6 0x3F800000 0x33800000 = (if 3 ≤ mdRnd md then 0x3F800001 else 0x3F800000) ∧
    elemBin .sub md 6 0x3F800000 0x3F800000 = (if mdRnd md = 2 then 0x80000000 else 0) ∧
    elemBin .mul md 6 0x00800000 0x3F000000 = tiny 0x00400000 ∧
    elemBin .add md 6 1 0 = (if mdFlushIn md 6 then 0 else tiny 1) ∧
    elemBin .min md 6 0 0x80000000 = 0x80000000 ∧ elemBin .max md 6 0x80000000 0 = 0 ∧
    elemBin .min md 6 0xFFC00001 0x40000000 = 0x40000000 ∧ elemBin .max md 6 0xBF800000 0x40000000 = 0x40000000 ∧
    elemUn .abs md 6 0xC0000000 = 0x40000000 ∧ elemUn .neg md 6 0x40000000 = 0xC0000000 ∧
    elemUn .sqrt md 6 0x40800000 = 0x40000000 ∧ elemUn .sqrt md 6 0xBF800000 = 0x7FC00000 ∧
    elemUn .rcp md 6 0x40400000 = (if mdRnd md = 1 ∨ mdRnd md = 2 then 0x3EAAAAAA else 0x3EAAAAAB) ∧
    elemUn .rsq md 6 0x40800000 = 0x3F000000 ∧ elemUn .exp2 md 6 0x40400000 = 0x41000000 ∧
    elemUn .log2 md 6 0x41000000 = 0x40400000 ∧ elemUn .sinpi md 6 0x3F000000 = 0x3F800000 ∧
    elemUn .cospi md 6 0x3F800000 = 0xBF800000 ∧
    elemFma false md 6 0x3F800800 0x3F800800 0xBF801000 = 0x33800000 ∧
    elemFma true md 6 0x3F800800 0x3F800800 0x3F801000 = 0xB3800000) ∧
  regDot 0x40#32 0x0580FD02 0x80090404 10 = 6 ∧ regDot 0x40#32 0x80808080 0x80090404 10 = 10 ∧
  regCmp 0x70#32 7 0x4000FE01 0 = false ∧ regCmp 0x60#32 2 0x3F800000 0x40000000 = true ∧ regCmp 0x60#32 0 0 0x80000000 = true ∧
  regClass 6 0x24 0xFF800000 = true ∧ regClass 6 0x24 0x80000000 = true ∧ regClass 6 0x24 1 = false ∧ regClass 6 0x50 0x80000001 = true ∧
  regClass 6 0x50 1 = false

/-- R108 to R111: conversions. A source element lies in its span of registers, an element at width w in bits w·e upward; the results
are packed the same way. `pack` and `unpack` move elements between a register and one register each. R63, R109: absent stays absent
in every format, a conversion to an integer clamps whatever md.sat holds and gives 0 of NaN, and one to a floating format rounds once. -/
def Obligations.ConversionWordsConvertElements : Prop :=
  (∀ (s : State) (p : Party) (t : Team) (h : Hdr) (d a : BitVec 7) (src : BitVec 4),
    let ty := mdType t.md
    let w := tyWidth ty
    let n := cvtCount src.toNat ty
    let elem (e l : Nat) : Nat := t.spanElem a.toNat (tyWidth src.toNat) e l
    let mx (had : Bool) (i l : Nat) : Word :=
      let q := t.quantTile a.toNat had (l / t.tileWidth * t.tileWidth)
      if i = 0 then BitVec.ofNat 32 (packElems w ((q.codes.drop (l % t.tileWidth / (32 / w) * (32 / w))).take (32 / w)))
      else BitVec.ofNat 32 (q.scale + 256 * q.special)
    ComputesSpan s p t h (.cvt h d a src) d.toNat (spanRegs ty n) (fun i l =>
      BitVec.ofNat 32 (packElems w ((span 0 n).map (fun e => elemCvt t.md src.toNat ty (elem e l))) / 2 ^ (32 * i))) ∧
    (∀ i f, (i, f) ∈ [(Instr.cvtmx h d a, false), (Instr.cvtmxH16 h d a, true), (Instr.cvtmxH32 h d a, true)] →
      ∃ g : Nat → Nat → Word, ComputesSpan s p t h i d.toNat 2 g ∧
        ∀ r l, l / t.tileWidth < 32 * t.groups / t.tileWidth → g r l = mx f r l) ∧
    Computes s p t h (.pack h d a) d.toNat (fun l => BitVec.ofNat 32
      (packElems w ((span 0 (tyCount ty)).map (fun e => (t.reg (a.toNat + e) l).toNat)))) ∧
    ComputesSpan s p t h (.unpack h d a) d.toNat (tyCount ty) (fun i l =>
      BitVec.ofNat 32 ((t.reg a.toNat l).toNat / 2 ^ (i * w) % 2 ^ w))) ∧
  (∀ (md : Word) (src dst a : Nat) (f g : Fmt),
    let x := operand f md src a
    let clamped (r : Nat) (i : Int) : Prop := intVal dst r = max (intMin dst) (min (intMax dst) i)
    (dst ≤ 5 →
      (src ≤ 5 → a < 2 ^ tyWidth src → elemCvt md src dst (absentOf src) = absentOf dst ∧
        (a ≠ absentOf src → clamped (elemCvt md src dst a) (intVal src a))) ∧
      (fmtOf src = some f → (x = .absent → elemCvt md src dst a = absentOf dst) ∧ (x = .nan → elemCvt md src dst a = 0) ∧
        (∀ neg, x = .inf neg → intVal dst (elemCvt md src dst a) = if neg then intMin dst else intMax dst) ∧
        (∀ neg m e, x = .fin neg m e → clamped (elemCvt md src dst a) (roundToInt (mdRnd md) neg m e)))) ∧
    (fmtOf dst = some g →
      (src ≤ 5 → a < 2 ^ tyWidth src → elemCvt md src dst (absentOf src) = g.absent ∧
        (a ≠ absentOf src → elemCvt md src dst a =
          pack g (mdRound md dst) (.fin (decide (intVal src a < 0)) (intVal src a).natAbs 0))) ∧
      (fmtOf src = some f → (x = .absent → elemCvt md src dst a = g.absent) ∧ (x = .nan → elemCvt md src dst a = g.nan) ∧
        (src ≠ dst → x ≠ .absent → x ≠ .nan → elemCvt md src dst a = pack g (mdRound md dst) x)))) ∧
  packElems 8 ([0x3F800000, 0x43FA0000, 0xFFC00001, 0xBA83126F].map (elemCvt 0x90#32 6 9)) = 0x81FF7F38 ∧
  elemCvt 0x890#32 6 9 0x43FA0000 = 0x7E ∧ elemCvt 0x200090#32 6 9 0xBA83126F = 0x80 ∧
  elemCvt 0x40#32 6 4 0xC3FA0000 = 0x81 ∧ elemCvt 0x50#32 0 5 0xFFFFFFFF = 0

/-- R112 to R118: the cross-lane words, over the lanes of the issuing lane's tile that take part. R116: a lane that takes no part
gives the identity of its operation to a reduction, and the absent code to `.add`, `.min` and `.max`. -/
def Obligations.CrossLaneWordsStayInTheirTile : Prop :=
  (∀ (s : State) (p : Party) (t : Team) (h : Hdr) (pd q : BitVec 4) (d a : BitVec 7) (o : BitVec 3) (so m : BitVec 2)
     (n : BitVec 5), pd.toNat < 12 →
     let w := t.tileWidth
     let base (l : Nat) := l / w * w
     let part (l : Nat) : Bool := t.takePart.getLsbD l
     let vote (l : Nat) : Bool := part l && t.predAt q.toNat l
     let lanesFor (l : Nat) : List Nat :=
       if 8 ≤ pd.toNat then List.range 1024 else (List.range w).map (fun i => base l + i)
     let A := fun l => t.reg a.toNat l
     ComputesPred s p t h (.voteAny h pd q) pd.toNat (fun l => (lanesFor l).any vote) ∧
     ComputesPred s p t h (.voteAll h pd q) pd.toNat (fun l => (lanesFor l).all (fun x => vote x || !part x)) ∧
     ComputesPred s p t h (.voteUni h pd q) pd.toNat (fun l =>
       (lanesFor l).all (fun x => vote x || !part x) || (lanesFor l).all (fun x => !vote x)) ∧
     (∃ f : Nat → Word, Computes s p t h (.voteBallot h d q) d.toNat f ∧
       ∀ l i, i < 32 → (f l).getLsbD i = (decide (i < w) && vote (base l + i))) ∧
     (∃ f : Nat → Word, Computes s p t h (.matchLanes h d a) d.toNat f ∧
       ∀ l i, i < 32 → (f l).getLsbD i = (decide (i < w) && part (base l + i) && decide (A (base l + i) = A l))) ∧
     ComputesPred s p t h (.elect h pd q) pd.toNat (fun l =>
       vote l && (List.range (l % w)).all (fun i => !vote (base l + i))) ∧
     Computes s p t h (.cntp h d q) d.toNat (fun l =>
       BitVec.ofNat 32 ((List.range (l % w)).countP (fun i => vote (base l + i)))) ∧
     Computes s p t h (.shfl h d a m n) d.toNat (fun l =>
       match m.toNat with
       | 0 => A (base l + n.toNat % w)
       | 1 => if n.toNat ≤ l % w then A (l - n.toNat) else A l
       | 2 => if l % w + n.toNat < w then A (l + n.toNat) else A l
       | _ => A (base l + (l % w ^^^ n.toNat % w))) ∧
     (∃ f : Nat → Nat, ComputesVal s p t h (.tred h d a o) d.toNat f ∧ ∀ l, l / w < 32 * t.groups / w →
       f l = tredOut t.md o.toNat (treeFold (tredOp t o.toNat).1 (t.tw.toNat % 8)
         ((span (base l) w).map (fun x => if part x then tredIn t.md o.toNat (t.val a.toNat x) else (tredOp t o.toNat).2)))) ∧
     (∃ f : Nat → Nat, ComputesVal s p t h (.scan h d a so) d.toNat f ∧ ∀ l, l / w < 32 * t.groups / w →
       f l = tredOut t.md so.toNat (((span (base l) (l % w + 1)).map (fun x =>
         if part x then tredIn t.md so.toNat (t.val a.toNat x) else (tredOp t so.toNat).2)).foldl
           (tredOp t so.toNat).1 (tredOp t so.toNat).2))) ∧
  (∀ (t : Team) (x : Nat), x < 2 ^ t.valBits →
     (∀ o < 3, (tredOp t o).2 = regAbsent (mdType t.md)) ∧
     (tredOp t 3).1 x (tredOp t 3).2 = x ∧ (tredOp t 4).1 x (tredOp t 4).2 = x ∧ (tredOp t 5).1 x (tredOp t 5).2 = x ∧
     (∀ o ≥ 3, tredIn t.md o x = x ∧ tredOut t.md o x = x))

/-! ## Memory words -/

/-- R122, R125 to R134, R233: outside a transaction, a load, a store, an atomic or a `mred` whose lanes' accesses all pass their
checks starts one operation that carries them, with the size, the order, the scope and the destination of its row. Its release side
orders where the scope takes in another party that can see the accesses, its acquire side always; a scratchpad atomic's scope is `.coh`
in the cohort's own scratchpad and the gang's in another member's. -/
def Obligations.MemoryWordsStartTheirOperation : Prop :=
  ∀ (s : State) (p : Party) (t : Team) (h : Hdr) (d a off : BitVec 7) (o : BitVec 4) (c r : BitVec 3) (loc : Nat → Loc),
    let g (k : Nat) (l : Nat) : Word64 := t.pair a.toNat l + off.signExtend 64 * BitVec.ofNat 64 k
    let x (k : Nat) (l : Nat) : Word64 := (t.reg a.toNat l + off.signExtend 32 * BitVec.ofNat 32 k).setWidth 64
    let plain (i : Instr) (sp : Space) (kind : MemKind) (n : Nat) (sg once : Bool) (addr : Nat → Word64) : MemRow :=
      { i := i, form := ⟨sp, kind, n, sg, d.toNat, once, false, false, 0, 0⟩, addr := addr }
    let ord (i : Instr) (sp : Space) (kind : MemKind) (n : Nat) (acq rel : Bool) (addr : Nat → Word64) : MemRow :=
      { i := i, form := ⟨sp, kind, n, false, d.toNat, false, acq, rel, c.toNat, 0⟩, addr := addr }
    let red (i : Instr) (op : Nat) (rel : Bool) : MemRow :=
      { i := i, form := ⟨.global, .mred, 4, false, d.toNat, false, false, rel, c.toNat, op⟩, addr := g 0 }
    let wide : Nat := if o.toNat = 11 ∨ o.toNat = 12 then 8 else 4
    let atom (i : Instr) (acq rel : Bool) : MemRow :=
      { i := i, form := ⟨.global, .atomic, wide, false, d.toNat, false, acq, rel, c.toNat, o.toNat⟩, addr := g 0 }
    (∀ (f : MemForm) (x : Access) (n : Nat), (∀ pa, x.loc = .glob pa → s.scopeAt p f x = f.scope) ∧
      (∀ u off, x.loc = .spd u off → (f.kind ≠ .atomic → s.scopeAt p f x = f.scope) ∧
        (f.kind = .atomic → partyTask p = some u → s.scopeAt p f x = 1) ∧
        (∀ tid k q, f.kind = .atomic → partyTask p = some tid → tid ≠ u → s.task? tid = some k → s.recordOf k = some q →
          s.scopeAt p f x = 2 + q.gangClass)) ∧
      (5 ≤ n → s.ordersFor p n = true) ∧
      (∀ k, n < 5 → s.taskOf p = some k → s.gangCount k ≤ (s.gangTasks k).length →
        (∀ y ∈ s.gangTasks k, ∀ z ∈ y.2.teams, .team y.1 z.1 ≠ p → z.2.released = false →
          s.inInstance n p (.team y.1 z.1) = false) → s.ordersFor p n = false)) ∧
    ∀ row ∈ [
        plain (.ldB32 h d a off) .global .load 4 false false (g 4), plain (.ldB64 h d a off) .global .load 8 false false (g 8),
        plain (.stB32 h d a off) .global .store 4 false false (g 4), plain (.stB64 h d a off) .global .store 8 false false (g 8),
        plain (.ldsB32 h d a off) .own .load 4 false false (x 4), plain (.stsB32 h d a off) .own .store 4 false false (x 4),
        plain (.ldB8 h d a) .global .load 1 false false (g 0), plain (.ldB16 h d a) .global .load 2 false false (g 0),
        plain (.ldS8 h d a) .global .load 1 true false (g 0), plain (.ldS16 h d a) .global .load 2 true false (g 0),
        plain (.stB8 h d a) .global .store 1 false false (g 0), plain (.stB16 h d a) .global .store 2 false false (g 0),
        plain (.ldsB8 h d a) .own .load 1 false false (x 0), plain (.ldsB16 h d a) .own .load 2 false false (x 0),
        plain (.ldsS8 h d a) .own .load 1 true false (x 0), plain (.ldsS16 h d a) .own .load 2 true false (x 0),
        plain (.stsB8 h d a) .own .store 1 false false (x 0), plain (.stsB16 h d a) .own .store 2 false false (x 0),
        plain (.ldsB64 h d a) .own .load 8 false false (x 0), plain (.stsB64 h d a) .own .store 8 false false (x 0),
        plain (.ldr h d a) .gang .load 4 false false (x 0), plain (.str h d a) .gang .store 4 false false (x 0),
        plain (.ldkB32 h d a) .global .load 4 false true (g 0), plain (.ldkB64 h d a) .global .load 8 false true (g 0),
        plain (.stkB32 h d a) .global .store 4 false true (g 0), plain (.stkB64 h d a) .global .store 8 false true (g 0),
        ord (.ldAcqB32 h c d a) .global .load 4 true false (g 0), ord (.ldScB32 h c d a) .global .load 4 true true (g 0),
        ord (.ldAcqB64 h c d a) .global .load 8 true false (g 0), ord (.ldScB64 h c d a) .global .load 8 true true (g 0),
        ord (.ldsAcq h c d a) .gang .load 4 true false (x 0), ord (.ldsSc h c d a) .gang .load 4 true true (x 0),
        ord (.stRelB32 h c d a) .global .store 4 false true (g 0), ord (.stScB32 h c d a) .global .store 4 true true (g 0),
        ord (.stRelB64 h c d a) .global .store 8 false true (g 0), ord (.stScB64 h c d a) .global .store 8 true true (g 0),
        ord (.stsRel h c d a) .gang .store 4 false true (x 0), ord (.stsSc h c d a) .gang .store 4 true true (x 0),
        atom (.atomRlx h d a o c) false false, atom (.atomAcq h d a o c) true false, atom (.atomRel h d a o c) false true,
        atom (.atomAr h d a o c) true true, atom (.atomSc h d a o c) true true,
        { i := .atomScratchpad h d a o r,
          form := ⟨.gang, .atomic, wide, false, d.toNat, false, decide (r.toNat = 1 ∨ 3 ≤ r.toNat), decide (2 ≤ r.toNat), 1,
            o.toNat⟩,
          addr := x 0 },
        red (.mredAdd h d a c) 13 false, red (.mredAddRel h d a c) 13 true, red (.mredFadd h d a c) 14 false,
        red (.mredFaddRel h d a c) 14 true],
      t.tx = none →
      (∀ l ∈ row.lanes t, (s.countIssue p).checkAccess p row.form.space (if row.form.kind = .load then .load else .store)
        (row.addr l) row.form.bytes false = (s.countIssue p, .ok (loc l))) →
      Issues s p t row.i → Completes row.i h s p (some t.nextId) (s.countIssue p) (row.after (s.countIssue p) p t loc)

/-- R122, R123, R184: the first lane, in ascending order, whose access is misaligned or not allowed takes that trap for the whole
word, with its address and its number; a page without translation is a page fault there. -/
def Obligations.TheLowestFailingLaneTakesTheTrap : Prop :=
  ∀ (s : State) (p : Party) (t : Team) (i : Instr) (f : MemForm) (addr : Nat → Word64) (ls rest : List Nat) (l : Nat)
    (loc : Nat → Loc) (accs : List Access),
    t.tx = none →
    (∀ x ∈ ls, s.checkAccess p f.space f.how (addr x) f.bytes false = (s, .ok (loc x))) →
    let g : Gather := { s := s, t := t, accs := accs }
    let run := gather i f p addr (ls ++ l :: rest) g
    (∀ s' code, code ≠ 28 → s.checkAccess p f.space f.how (addr l) f.bytes false = (s', .fail code) →
      run = .error (.trap (accessTrap f code (addr l) l 0))) ∧
    (∀ s', s.checkAccess p f.space f.how (addr l) f.bytes false = (s', .page) →
      run = .error (.trap (accessTrap f 1 (addr l) l (if f.kind = .load then 0 else 1)))) ∧
    ((addr l).toNat % f.bytes ≠ 0 → run = .error (.trap (accessTrap f 20 (addr l) l 0)))

/-- R131, R140, R145, R233, R255: the words that wait for earlier operations, and then change nothing but their own stream; a release
at `.dev` or `.sys` and `vcommit` hold the team for a commit, and one at a scope that takes in nobody who could see the accesses waits
for nothing. A cache hint of kernel code changes at most what an L1 holds and counts; one whose line the TLBs do not hold walks, and is
dropped where it finds no page (R272). -/
def Obligations.WaitingWordsGoOnWhenNothingIsLeft : Prop :=
  ∀ (s : State) (p : Party) (t : Team) (h : Hdr) (l e c : BitVec 5) (tl : BitVec 6) (o sc w : BitVec 3) (a : BitVec 7),
    let met (k : Counter) (n : Nat) : Prop := k.max ≤ n ∨ t.count k ≤ n
    let commit (t' : Team) : Team := { t' with hold := .commit .plain }
    (met .ld l.toNat → met .st e.toNat → met .cp c.toNat → met .tl tl.toNat → Changes s p t h (.wait h l e c tl) id) ∧
    (¬ (met .ld l.toNat ∧ met .st e.toNat ∧ met .cp c.toNat ∧ met .tl tl.toNat) →
      Issues s p t (.wait h l e c tl) → Waits (.wait h l e c tl) s) ∧
    (o.toNat = 1 → t.loadBusy = false → Changes s p t h (.fence h o sc) id) ∧
    (o.toNat ≠ 1 → sc.toNat < 5 → (t.memBusy = false ∨ s.ordersFor p sc.toNat = false) → (t.loadBusy = false ∨ o.toNat = 2) →
      Changes s p t h (.fence h o sc) id) ∧
    (o.toNat ≠ 1 → 5 ≤ sc.toNat → Changes s p t h (.fence h o sc) commit) ∧
    (o.toNat = 1 → t.loadBusy = true → Issues s p t (.fence h o sc) → Waits (.fence h o sc) s) ∧
    (o.toNat ≠ 1 → sc.toNat < 5 → (t.memBusy = true ∧ s.ordersFor p sc.toNat = true ∨ t.loadBusy = true ∧ o.toNat ≠ 2) →
      Issues s p t (.fence h o sc) → Waits (.fence h o sc) s) ∧
    Changes s p t h (.vcommit h) commit ∧
    (w ≠ 0#3 → Changes s p t h (.pref h a w) id ∧ Changes s p t h (.cctl h a w) id) ∧
    (∀ i ∈ [Instr.pref h a 0#3, .cctl h a 0#3], ∀ tid ord, p = .team tid ord →
      let core := s.coreOf p
      let ctx := s.ctxOf p
      let held (l : Nat) : Xlat := s.lookup core ctx .user .load (t.pair a.toNat l).toNat
      (t.lanes = [] → Changes s p t h i id) ∧
      ((∀ l ∈ t.lanes, held l ≠ .miss) → Issues s p t i →
        ∃ s', CompletesIn i h s p s' (t.opened i) ∧ { s' with cores := s.cores } = s ∧
          ∀ n, { s'.core n with counters := [], l1 := [] } = { s.core n with counters := [], l1 := [] }) ∧
      (∀ l va, t.lanes = [l] → held l = .miss → va = (t.pair a.toNat l).toNat → s.walkBusy ctx va = false →
        (s.walk ctx va .load = none → Changes s p t h i id) ∧
        (∀ leaf m, s.walk ctx va .load = some (leaf, m) → Issues s p t i →
          let filled := s.fillTlb core ctx va leaf m .load
          ∃ s', CompletesIn i h s p s' (t.opened i) ∧ { s' with cores := s.cores } = { filled with cores := s.cores } ∧
            ∀ n, { s'.core n with counters := [], l1 := [] } = { filled.core n with counters := [], l1 := [] })))

/-! ## Synchronisation and transactions -/

/-- R143, R208: an arrival at a named barrier joins the phase, or completes it and releases its waiters, or traps; the barrier's word
in the frame of its cohort's frozen first team follows. -/
def Obligations.NamedBarriersCountArrivals : Prop :=
  ∀ (s : State) (tid ord : Nat) (t : Team) (k : Task) (h : Hdr) (id n : BitVec 4),
    s.task? tid = some k → s.Quiet k.ctx → t.memBusy = false →
    let p := Party.team tid ord
    let b := AMap.get Barrier.start k.bars id.toNat
    let expected := if b.arrived = 0#8 then n.toNat else b.expected.toNat
    let all := b.arrived ||| (1#8 <<< ord)
    let put (b' : Barrier) : State := s.setBar tid id.toNat b'
    let joins := expected = n.toNat ∧ n.toNat ≤ k.teams.length ∧ b.arrived.getLsbD ord = false
    let last := popBits all.toNat 8 = n.toNat
    let waiting := (k.teams.filter (fun f => f.2.hold = .bar id.toNat b.phase.toNat)).map (fun f => Party.team tid f.1)
    let arrives (i : Instr) (waits : Bool) : Prop :=
      Issues s p t i →
        (joins → ¬ last → Completes i h s p none (put { b with expected := n, arrived := all })
          { (t.opened i).newChunk with hold := if waits then .bar id.toNat b.phase.toNat else .none }) ∧
        (joins → last → Completes i h s p none
          (waiting.foldl State.releaseTeam (put { phase := b.phase + 1#16, expected := 0#4, arrived := 0#8 }))
          (t.opened i).newChunk) ∧
        (b.arrived.getLsbD ord = true → Traps i s p t (trapOf 27 0#64 (id.toNat + 16 * expected))) ∧
        (b.arrived.getLsbD ord = false → (expected ≠ n.toNat ∨ k.teams.length < n.toNat) →
          Traps i s p t (trapOf 26 0#64 (id.toNat + 16 * expected)))
    arrives (.bararr h id n) false ∧ arrives (.barwait h id n) true

/-- R142, R144, R147, R444: `gbar` joins its gang's phase and waits for it; `park` goes on when its word meets its condition, else
it waits, armed, and a notify aperture is awake for it; it waits for what its read must not pass, and an uncorrectable error in its
word is ECC_UNCORR. -/
def Obligations.GangBarriersAndParksWait : Prop :=
  ∀ (s : State) (tid ord : Nat) (t : Team) (k : Task) (h : Hdr) (id kind n : BitVec 2) (a c : BitVec 5) (s1 s2 : State)
    (w : ParkWord),
    s.task? tid = some k →
    let p := Party.team tid ord
    let b := s.gangBar k id.toNat
    let key := s.gangKey k * 4 + id.toNat
    let joined : State := { s with
      gangBars := AMap.put GangBar.start s.gangBars key { b with arrived := b.arrived ++ [tid * 8 + ord] } }
    let addr := if kind.toNat = 0 then t.kpair a.toNat else (t.kreg a.toNat).setWidth 64
    let eq := decide (n.toNat = 1)
    let value := (s2.watchPark p t.pc addr w).parkValue p w
    let passed := match w with
      | .at l => t.passes' l 4 || l.busy s1 4
      | .notify _ => !s1.latch.isEmpty || t.acqBusy
    let met := if n.toNat = 1 then value = t.kreg c.toNat else value ≠ t.kreg c.toNat
    (s.Quiet k.ctx → t.memBusy = false → Issues s p t (.gbar h id) →
      Completes (.gbar h id) h s p none (joined.gangCheck k id.toNat)
        { (t.opened (.gbar h id)).newChunk with hold := .gbar id.toNat b.phase }) ∧
    (s.parkWord p kind.toNat addr = (s1, .ok w) → Issues s p t (.park h kind n a c) →
      (passed = true → Waits (.park h kind n a c) s) ∧
      (∀ tr, passed = false → s1.parkFlaws p addr w = (s2, some tr) → Traps (.park h kind n a c) s p t tr) ∧
      (passed = false → s1.parkFlaws p addr w = (s2, none) →
        Completes (.park h kind n a c) h s p none
          (if met then s2.watchPark p t.pc addr w
           else { s2.watchPark p t.pc addr w with gated := (s2.watchPark p t.pc addr w).gated && decide (kind.toNat ≠ 2) })
          { t.opened (.park h kind n a c) with hold := if met then .none else .park kind.toNat eq addr (t.kreg c.toNat) }))

/-- R136, R138, R139, R201: `txb` opens a transaction over the lanes that take part; for a lane that has aborted 8 times it first asks
for the ticket of its domain, and begins once that is granted (steward code, which has no cohort, asks for none of one, log 13); `txa`
dooms lanes; `txe` resolves the lanes and waits for their validation, or closes a transaction of no lanes; without a transaction `txe`
and `txa`, and with one `txb`, take TX_MISUSE. R136: a lane's store is kept in its write set, its later load of those bytes reads them
back and a load of others reads memory, whose sector joins its read set; a ninth read sector or a fifth written one dooms the lane with
CAPACITY, and a doomed lane tracks no more. -/
def Obligations.TransactionWordsOpenDoomAndResolve : Prop :=
  (∀ (s : State) (p : Party) (t : Team) (h : Hdr) (cd : BitVec 8) (pd : BitVec 4) (d : BitVec 7),
    let s0 := s.countIssue p
    let fresh (dev : Bool) : Tx :=
      { dev := dev, lanes := maskOf t.lanes (fun _ => true), tx := [], ticket := none, winners := [], intra := [], validated := [] }
    let opens (i : Instr) (dev : Bool) : Prop :=
      (t.ticketLane = none → Changes s p t h i (fun t' => { t' with tx := some (fresh dev) })) ∧
      (∀ l, t.ticketLane = some l →
        (t.hold = .ticket dev l → Changes s p t h i (fun t' => { t' with tx := some { fresh dev with ticket := some l } })) ∧
        (t.hold ≠ .ticket dev l →
          (dev = true → Issues s p t i → exec i s = .next (State.setTeam { s0 with ticketQ := s0.ticketQ ++ [p] } p
            { t.released' with hold := .ticket true l })) ∧
          (∀ tid, dev = false → partyTask p = some tid → Issues s p t i →
            exec i s = .next ((s0.modTask tid (fun k => { k with ticketQ := k.ticketQ ++ [partyOrd p] })).setTeam p
              { t.released' with hold := .ticket false l })) ∧
          (dev = false → partyTask p = none → Changes s p t h i (fun t' => { t' with tx := some (fresh false) }))))
    let misused (i : Instr) : Prop :=
      s.cur = some p → s.team? p = some t → s.canIssue p t = true → failedCheck i t.released' = none → s.prologueSpent p = false →
        unfilled i t.released' = false → interlocked i t.released' = false → counterFull i t.released' = false →
        exec i s = .next ((s.setTeam p t.released').raiseTrap p t.pc (trapOf 28 0#64 (encode i).toNat))
    opens (.txbCoh h) false ∧ opens (.txbDev h) true ∧
    (t.tx = none → misused (.txe h pd d) ∧ misused (.txa h cd)) ∧
    (t.tx ≠ none → misused (.txbCoh h) ∧ misused (.txbDev h)) ∧
    (∀ x, t.tx = some x → Issues s p t (.txa h cd) →
      ∃ x', { x' with tx := x.tx } = x ∧
        (∀ l, x'.lane l = if l ∈ t.lanes ∧ x.lanes.getLsbD l = true ∧ (x.lane l).doomed = false
          then { x.lane l with doom := some (4, cd.toNat) } else x.lane l) ∧
        CompletesAs (.txa h cd) h s p { t.opened (.txa h cd) with tx := some x' }) ∧
    (∀ x, t.tx = some x → x.lanes = 0#1024 → Changes s p t h (.txe h pd d) (fun t' => { t' with tx := none })) ∧
    (∀ x, t.tx = some x → x.lanes ≠ 0#1024 → Issues s p t (.txe h pd d) →
      exec (.txe h pd d) s = .next (s0.setTeam p { t.opened (.txe h pd d) with
        tx := some { x with winners := x.resolveAll.1, intra := x.resolveAll.2, validated := [] }
        hold := .txe pd.toNat d.toNat h.seq.toNat }))) ∧
  (∀ (s : State) (tid ord : Nat) (t : Team) (h : Hdr) (d a off : BitVec 7) (x : Tx) (l : Nat) (loc : Loc),
    let p := Party.team tid ord
    let st := Instr.stB32 h d a off
    let ld := Instr.ldB32 h d a off
    let va : Word64 := t.pair a.toNat l + off.signExtend 64 * 4#64
    let y := x.lane l
    let got := y.load loc.key (toBytes 4 (s.readLoc (some tid) loc 4)) (s.sectorAt (some tid) loc)
    let op (kind : MemKind) (held : List (Nat × Word64)) : MemOp :=
      { kind := kind, bytes := 4, signed := false, dest := d.toNat, accs := [], acq := false, rel := false, scope := 0, op := 0
        reqs := [], held := some held }
    let tracks (i : Instr) (s' : State) (c : Counter) (m : MemOp) (y' : LaneTx) : Prop :=
      ∃ x', { x' with tx := x.tx } = x ∧ (∀ n, x'.lane n = if n = l then y'.form (loc.key / 32) va else x.lane n) ∧
        Completes i h s p (some t.nextId) s' { t.withOp i c (.mem m) with tx := some x' }
    t.tx = some x → t.lanes = [l] → x.lanes.getLsbD l = true →
    (s.checkAccess p .global .store va 4 true = (s, .ok loc) → Issues s p t st →
      tracks st s .st (op .store []) (y.store loc.key (toBytes 4 (t.reg d.toNat l).toNat))) ∧
    (s.checkAccess p .global .load va 4 true = (s, .ok loc) → t.passes' loc 4 = false → s.ordered p (t.opened ld) none = true →
      loc.busy s 4 = false → s.flaws = [] → Issues s p t ld →
      tracks ld (noteTxLoads (plainForm .global .load 4 false d.toNat) s p (t.opened ld)
        [{ lane := l, va := va, loc := loc, data := 0#64, data2 := 0#64 }]) .ld (op .load [(l, BitVec.ofNat 64 got.2)]) got.1)) ∧
  (∀ (y : LaneTx) (a i : Nat) (mem sector data : List Byte) (b : Byte),
    let ld := y.load a mem sector
    let st := y.store a data
    ld.2 = ofBytes (y.see a mem) ∧
    (mem[i]? = some b → (y.see a mem)[i]? = some ((y.own (a + i)).getD b)) ∧
    (y.doomed = true → st = y ∧ ld.1 = y) ∧
    (y.doomed = false →
      (a / 32 ∈ y.wrSec ∨ y.wrSec.length < 4 →
        (data[i]? = some b → st.own (a + i) = some b) ∧ (i < a ∨ a + data.length ≤ i → st.own i = y.own i) ∧
        (∀ n, n ∈ st.wrSec ↔ n ∈ y.wrSec ∨ n = a / 32) ∧ st.rd = y.rd ∧ st.rdSec = y.rdSec ∧ st.doomed = false) ∧
      (a / 32 ∉ y.wrSec → 4 ≤ y.wrSec.length → st = { y with doom := some (3, 0) }) ∧
      (a / 32 ∈ y.wrSec → ld.1 = y) ∧
      (a / 32 ∉ y.wrSec → a / 32 ∉ y.rdSec → y.rdSec.length < 8 →
        ld.1 = { y with rdSec := y.rdSec ++ [a / 32], rd := y.rd ++ List.zip (span (32 * (a / 32)) 32) sector }) ∧
      (a / 32 ∉ y.wrSec → a / 32 ∉ y.rdSec → 8 ≤ y.rdSec.length → ld.1 = { y with doom := some (3, 0) })))

/-- R137: of the lanes of a group, the winners share no sector that one of them writes, a lane that loses meets a winner, and a
doomed lane is neither. R137, R138, R258, R264, R289: a winner is locked and compared; when every winner has been, each is compared
again with what the winners before it leave, the lanes that passed write their bytes and every lane gets its code; a lane doomed by
a fault whose reads still hold raises it; without room in the version pool `txe` takes VERSION_FULL; a free ticket goes to the party
that has waited longest. -/
def Obligations.TransactionsResolveValidateAndEnd : Prop :=
  (∀ (x : Tx) (ls win intra : List Nat), x.resolve ls ([], []) = (win, intra) →
     (∀ a ∈ win, ∀ b ∈ win, a ≠ b → (x.lane a).conflicts (x.lane b) = false) ∧
     (∀ l ∈ intra, ∃ a ∈ win, (x.lane a).conflicts (x.lane l) = true) ∧
     (∀ l ∈ ls, (x.lane l).doomed = true → l ∉ win ∧ l ∉ intra) ∧
     (∀ l ∈ ls, (x.lane l).doomed = false → l ∈ win ∨ l ∈ intra)) ∧
  (∀ (s s1 : State) (tid ord : Nat) (k : Task) (t : Team) (x : Tx) (pd d seq lane next before : Nat) (q : Party) (rest : List Party)
     (os : List Nat) (pc : Word64) (tr : TrapInfo),
     let p := Party.team tid ord
     let y := x.lane lane
     let ok := x.ticket = some lane ∨ (s.readsHold p x.dev y = true ∧ s.meetsPin p x.dev y = false)
     let z := Tx.recheck s p x
     let seen := z.wins.foldl (fun s l => s.watchLane p t.ipc x.dev (x.lane l) l) s1
     let after := if x.dev = true ∧ z.wins ≠ [] then ((seen.hitVersion tid).commitTask tid).1 else seen
     let ended (u : Team) : State := (after.setTeam p u).freeTx p x.dev
     let whole := s.task? tid = some k ∧ s.Quiet k.ctx ∧ s.team? p = some t ∧ s.acting p = true ∧ t.memBusy = false ∧
       t.hold = .txe pd d seq ∧ t.tx = some x
     let judged := (∀ l ∈ x.winners, ∃ b, AMap.find x.validated l = some b) ∧ (x.dev = true → s.txBlocked p z = false)
     (whole → lane ∈ x.winners → AMap.find x.validated lane = none →
       (ok → exec (.txValidation (some tid) ord lane) s = .next (State.setTeam
         { s with locked := if x.dev then s.locked ++ (y.rdSec ++ y.wrSec).map (fun a => (a, p)) else s.locked } p
         { t with tx := some { x with validated := x.validated ++ [(lane, true)] } })) ∧
       (¬ ok → exec (.txValidation (some tid) ord lane) s =
         .next (s.setTeam p { t with tx := some { x with validated := x.validated ++ [(lane, false)] } }))) ∧
     (s.replaying (s.ctxOf p) = false → x.winners = [lane, next] → next ≠ lane → AMap.find x.validated lane = some true →
       AMap.find x.validated next = some true →
       (AMap.find z.validated lane = some true ↔ ok) ∧
       (ok → s.commitLane p x.dev y = some s1 → (AMap.find z.validated next = some true ↔ x.ticket = some next ∨
         (s1.readsHold p x.dev (x.lane next) = true ∧ s1.meetsPin p x.dev (x.lane next) = false)))) ∧
     (whole → judged → x.lanes ≠ 0#1024 → s.commitLanes p z z.wins = some s1 →
       after.Quiet k.ctx → after.ctxOf p = k.ctx →
       ((∀ l ∈ x.allLanes, (x.lane l).fault = none) → ∀ u, seqAct seq none (s.breaks p) (t.newChunk.closeTx z pd d) = .ok u →
         exec (.txValidation (some tid) ord lane) s = .next (((ended u).frozenTx p).settle p)) ∧
       (lane ∈ x.allLanes → (∀ l ∈ x.allLanes, l < lane → (x.lane l).fault = none) → y.fault = some (pc, tr) →
         s1.readsHold p x.dev y = true →
         exec (.txValidation (some tid) ord 0) s = .next ((ended t.newChunk).raiseTrap p pc tr))) ∧
     (whole → judged → s.commitLanes p z z.wins = none → exec (.txValidation (some tid) ord lane) s =
       .next ((s.freeTx p x.dev).raiseTrap p t.ipc { trapOf 34 0#64 0 with point := some t.retired })) ∧
     (lane < 1024 → (x.lanes.getLsbD lane = true → d < 96 →
         (t.closeTx x pd d).vreg d lane = x.code (AMap.get 0 t.aborts lane) lane) ∧
       (x.lanes.getLsbD lane = false → ∀ r, (t.closeTx x pd d).vreg r lane = t.vreg r lane)) ∧
     (AMap.find x.validated lane = some true → x.ticket ≠ some lane → x.code before lane = 0#32) ∧
     (s.ticket = none → s.ticketQ = q :: rest →
       exec (.ticketGrant true tid) s = .next { s with ticket := some q, ticketQ := rest }) ∧
     (s.task? tid = some k → k.ticket = none → k.ticketQ = ord :: os →
       exec (.ticketGrant false tid) s = .next (s.setTask tid { k with ticket := some ord, ticketQ := os })))

/-! ## Engine words -/

/-- R148 to R154, R244, R299: a copy, a chain or a collective whose descriptor is read and legal is queued with its ranges; a chain
of no elements completes at once. -/
def Obligations.EngineWordsQueueTheirOperation : Prop :=
  ∀ (s : State) (tid ord : Nat) (t : Team) (k : Task) (h : Hdr) (a : BitVec 7) (sp : BitVec 1) (s1 s2 : State)
    (d0 d : List Byte) (g : Group),
    let p := Party.team tid ord
    let x := descAt t a.toNat (sp = 1#1)
    let s3 := s2.watchBlock p t.pc x.1 x.2 d.length
    let core := s3.core k.core
    let c := parseCopy d
    let r := core.obRec c.record
    let chainSpans := chainSpan d 0 0 false :: (if chainUsesB d then [chainSpan d 8 1 false] else []) ++ [chainSpan d 0x10 2 true]
    let rank := bytesAt d0 0x12 1
    let queue (eng : Nat) := (AMap.get [] core.engines eng).length
    let n := bytesAt d 0x10 4 * elemSize (bytesAt d 0x14 1)
    let m := if bytesAt d 0x15 1 = 4 then n * g.members.length else n
    let collSpans := [lockSpan false (bytesAt d 0 8) (bytesAt d 0 8 + n - 1) false,
      lockSpan false (bytesAt d 8 8) (bytesAt d 8 8 + m - 1) true]
    s3.taskOf p = some k → s3.Quiet k.ctx →
    (readBlock s p (t.opened (.tcopy h a sp)) x.1 x.2 64 32 = .ok (s1, d0) →
      readBlock s1 p (t.opened (.tcopy h a sp)) x.1 x.2 64 (32 + 24 * rank) = .ok (s2, d) →
      1 ≤ rank → rank ≤ 16 → c.legal d = true → (c.sc = 11 → c.raw = true) →
      (c.dstSpace = 2 → copyObOk tid c r = true ∧ (c.dc = 11 → c.raw = false → c.count0 % r.blockLen = 0) ∧
        ∀ b ∈ c.blockStarts r, core.sagOk tid r b = true) →
      queue core.copyEngine < 16 → core.lockRoom (copySpans c r).length = true → Issues s p t (.tcopy h a sp) →
      StartsEngine (.tcopy h a sp) h s tid ord t s3 k.core core.copyEngine d (copySpans c r)) ∧
    (readBlock s p (t.opened (.chain h a sp)) x.1 x.2 64 64 = .ok (s2, d) → d.length = 64 → chainLegal d = true →
      bytesAt d 0x1C 1 ≤ 8 → (bytesAt d 0x1C 1 ≤ 5 → ∀ o ∈ chainOps d, o.1 < 11) → Issues s p t (.chain h a sp) →
      (bytesAt d 0x18 4 = 0 → Completes (.chain h a sp) h s p (some t.nextId) s3
        ((t.withOp (.chain h a sp) .cp (.engine 2)).complete t.nextId)) ∧
      (bytesAt d 0x18 4 ≠ 0 → queue 2 < 16 → core.lockRoom chainSpans.length = true →
        StartsEngine (.chain h a sp) h s tid ord t s3 k.core 2 d chainSpans)) ∧
    (readBlock s p (t.opened (.coll h a sp)) x.1 x.2 64 64 = .ok (s2, d) → d.length = 64 → collLegal d = true → collType (bytesAt d 0x14 1) = true →
      AMap.find (s3.ctx k.ctx).groups (bytesAt d 0x18 2) = some g → g.opening = none → core.lockRoom 2 = true →
      Issues s p t (.coll h a sp) →
      let reg := core.register tid ord t.nextId s3.tick false collSpans
      let o : EngOp :=
        { task := tid, ord := ord, op := t.nextId, desc := d ++ toBytes 4 (encodeNat (.coll h a sp)), md := t.md, seq := reg.2
          pc := t.pc, pos := 0, out := [], beside := [], block := [], fault := none }
      let u := t.withOp (.coll h a sp) .cp (.collective (bytesAt d 0x18 2))
      Completes (.coll h a sp) h s p (some t.nextId)
        ((s3.setCore k.core reg.1).modCore k.core (fun c => { c with colls := c.colls ++ [o] }))
        (if s3.overlaps k.core tid collSpans then u.newChunk else u))

/-- R158, R159, R201, R292: a record is held with a free run of granules, or waited for, and the word begins once it is granted; it
is set and released by the cohort that holds it, once no operation uses it; else OB_RECORD. -/
def Obligations.OperandBufferRecordsAreHeldSetAndReleased : Prop :=
  ∀ (s : State) (tid ord : Nat) (t : Team) (k : Task) (h : Hdr) (n a : BitVec 5), s.task? tid = some k →
    let p := Party.team tid ord
    let c := s.core k.core
    let r := c.obRec n.toNat
    let len := (t.kreg a.toNat).toNat
    let w1 := t.kreg a.toNat
    let w2 := t.kreg (a.toNat + 1)
    let change (i : Instr) (k' : Core) : Prop := CompletesIn i h s p (s.setCore k.core k') (t.opened i)
    (1 ≤ len → len ≤ 128 → r.held ≠ some tid → t.hold ≠ .obres n.toNat len → Issues s p t (.obres h n a) →
      (∀ base, c.obQ = [] → r.held = none → c.freeRun len = some base → change (.obres h n a)
        (c.setObRec n.toNat { held := some tid, length := len, base := base, word1 := 0#32, word2 := 0#32 })) ∧
      (c.obQ ≠ [] ∨ r.held ≠ none ∨ c.freeRun len = none →
        exec (.obres h n a) s = .next ((s.setCore k.core
          { c with obQ := c.obQ ++ [{ task := tid, ord := ord, n := n.toNat, len := len }] }).setTeam p
          { t.released' with hold := .obres n.toNat len }))) ∧
    (t.hold = .obres n.toNat len → Changes s p t h (.obres h n a) id) ∧
    (len = 0 ∨ 128 < len ∨ r.held = some tid → t.hold ≠ .obres n.toNat len → TrapsWith s p t (.obres h n a) (trapOf 31 0#64 (256 * n.toNat))) ∧
    (r.held = some tid → obWordsOk w1.toNat w2.toNat = true → s.obBusy tid n.toNat k = false → Issues s p t (.obset h n a) →
      change (.obset h n a) (c.setObRec n.toNat { r with word1 := w1, word2 := w2 })) ∧
    (r.held ≠ some tid ∨ obWordsOk w1.toNat w2.toNat = false →
      TrapsWith s p t (.obset h n a) (trapOf 31 0#64 (256 * n.toNat))) ∧
    (r.held = some tid → s.obBusy tid n.toNat k = false → Issues s p t (.obrel h n) →
      change (.obrel h n) (c.setObRec n.toNat ObRec.reset)) ∧
    (r.held ≠ some tid → TrapsWith s p t (.obrel h n) (trapOf 31 0#64 (256 * n.toNat)))

/-- R160, R161: a lead slice pushes values, loads and records into its team's queue of 16 and waits for room or for the queue to run
down; its team pops the head once it is complete, and reads all ones from an ended slice's empty queue, as a team without a slice
does by the model's choice (log 17). R375: a fetch whose source overlaps a registered range ends its team's chunk. R161, R184, R277, R289: a lead queue's load gets the word its team sees; a record copy moves
its next bytes into the record's run, and its last ones with the rest; an uncorrectable error in the source is ECC_UNCORR at the
lead slice's word. -/
def Obligations.LeadQueuesPassWordsInOrder : Prop :=
  (∀ (s : State) (tid ord : Nat) (t u : Team) (k : Task) (h : Hdr) (n a : BitVec 5) (d : BitVec 7) (l : Loc)
     (parts : List (Nat × Nat)) (e : LeadEntry) (rest : List LeadEntry) (w : Word) (seq : Option Nat),
     s.task? tid = some k → s.team? (.team tid ord) = some u →
     let p := Party.lead tid ord
     let c := s.core k.core
     let va := t.kpair a.toNat
     let pushed (s : State) (e : LeadEntry) : State := s.setTeam (.team tid ord) { u with leadQ := u.leadQ ++ [e] }
     let span1 (n : Nat) : List LockSpan := [{ ob := false, spd := false, lo := va.toNat, hi := va.toNat + n - 1, dest := false }]
     let fetch (n : Nat) : Core × Nat := c.register tid ord 0 s.tick true (span1 n)
     let fetched (n : Nat) (e : LeadEntry) : State :=
       if s.overlaps k.core tid (span1 n) then ((s.setTeam (.team tid ord) u.newChunk).setCore k.core (fetch n).1).setTeam (.team tid ord)
         { u.newChunk with leadQ := u.leadQ ++ [e] }
       else pushed (s.setCore k.core (fetch n).1) e
     let r := c.obRec n.toNat
     (u.leadQ.length ≤ n.toNat → Changes s p t h (.leadN h n) id) ∧
     (n.toNat < u.leadQ.length → Issues s p t (.leadN h n) → Waits (.leadN h n) s) ∧
     (u.leadQ.length < 16 → Issues s p t (.qpushVal h a) →
       CompletesIn (.qpushVal h a) h s p (pushed s (.val (t.kreg a.toNat))) (t.opened (.qpushVal h a))) ∧
     (u.leadQ.length = 16 → Issues s p t (.qpushVal h a) → Waits (.qpushVal h a) s) ∧
     (u.leadQ.length < 16 → s.checkAccess p .global .load va 4 false = (s, .ok l) → c.lockRoom 1 = true → s.Quiet k.ctx →
       Issues s p t (.qpushLd h a) →
       CompletesIn (.qpushLd h a) h s p
         (fetched 4 (.ld (fetch 4).2 { lane := 0, va := va, loc := l, data := 0#64, data2 := 0#64 } none t.pc))
         (t.opened (.qpushLd h a))) ∧
     (u.leadQ.length < 16 → r.held = some tid → sourceParts p va (r.size / 64) s = .ok (s, parts) → c.lockRoom 1 = true →
       s.Quiet k.ctx → Issues s p t (.qpushOb h a n) →
       CompletesIn (.qpushOb h a n) h s p (fetched r.size (.ob (fetch r.size).2 n.toNat va parts 0 r.size t.pc))
         (t.opened (.qpushOb h a n))) ∧
     (u.memBusy = false → u.leadQ = e :: rest → e.ready = some (w, seq) → Issues s (.team tid ord) u (.qpop h d) →
       ∃ u', WritesReg { u.opened (.qpop h d) with leadQ := rest } u' d.toNat (fun _ => w) ∧
         CompletesIn (.qpop h d) h s (.team tid ord)
           (match seq with
            | some n => s.modCore k.core (fun c => c.unlock n)
            | none => s) u') ∧
     (u.memBusy = false → u.leadQ = [] → s.leadEnded (.team tid ord) = true →
       Computes s (.team tid ord) u h (.qpop h d) d.toNat (fun _ => 0xFFFFFFFF#32))) ∧
  (∀ (s s1 : State) (tid ord id n : Nat) (k : Task) (t : Team) (a : Access) (pc va wa : Word64) (rest : List LeadEntry)
     (r done total pa len : Nat) (x : Site) (ps : List (Nat × Nat)),
     let p := Party.team tid ord
     let lead := Party.lead tid ord
     let parts := (pa, len) :: ps
     let who : Accessor := { task := tid, ord := ord, lead := true, engine := false, pc := pc }
     let m := min n (total - done)
     let bs := partBytes s1 tid parts done m
     let at0 := ((s1.core k.core).obRec r).lo + done
     let moved := (s1.modCore k.core (fun c => { c with ob := writeBytes c.ob at0 bs })).cleanse
       (Site.inOb k.core [(at0, at0 + bs.length - 1)])
     s.task? tid = some k → s.team? p = some t → t.hold = .none → s.acting p = true → s.ordered lead t none = true →
     (t.leadQ = .ld id a none pc :: rest → a.loc.busy s 4 = false →
       (s.meetFlaws (s.readsSite (some tid) a.loc 4) = (s1, some x) → exec (.leadFetchComplete tid ord id n) s =
         .next (s1.raiseTrap lead pc (trapOf 33 a.va 0))) ∧
       (s.meetFlaws (s.readsSite (some tid) a.loc 4) = (s1, none) → exec (.leadFetchComplete tid ord id n) s =
         .next ((s1.watch who a.loc true false a.va 4 0xFFFF).setTeam p { t with leadQ := t.leadQ.map (fun e => match e with
           | .ld i a v q => if i = id then .ld i a (some (BitVec.ofNat 32 (s1.readLoc (some tid) a.loc 4))) q else .ld i a v q
           | e => e) }))) ∧
     (t.leadQ = .ob id r va parts done total pc :: rest → done < total → (∀ q ∈ parts, s.regionBusy q.1 q.2 = false) →
       (fetchFlaws s tid va parts done m = (s1, some wa) → exec (.leadFetchComplete tid ord id n) s =
         .next (s1.raiseTrap lead pc (trapOf 33 wa 0))) ∧
       (fetchFlaws s tid va parts done m = (s1, none) → exec (.leadFetchComplete tid ord id n) s =
         .next ((if done + m < total then moved else moved.watch who (.glob pa) true false va total 0xFFFF).setTeam p
           { t with leadQ := t.leadQ.map (fun e => match e with
             | .ob i r' v ps d tt q => if i = id then .ob i r' v ps (done + m) tt q else .ob i r' v ps d tt q
             | e => e) }))))

/-- R129, R155, R157, R201: a launch reads its record and role table and holds the team for its commit; with a full queue it waits
at its word; a message is held for the next commit; a receive takes the head of its mailbox and stores it, or waits at its word for
one; a message waits while cp, a receive while st, stands at its maximum. -/
def Obligations.LaunchesAndMessagesTakeTheirBlocks : Prop :=
  ∀ (s : State) (tid ord : Nat) (t : Team) (k : Task) (h : Hdr) (a c : BitVec 5) (va : BitVec 7) (s1 s2 : State)
    (d table : List Byte) (l : Loc) (m : Message) (rest : List Message),
    let p := Party.team tid ord
    let r := parseRecord d
    let addr := t.pair va.toNat 0
    let target := t.kreg a.toNat
    let dev := target.toNat / 2 ^ 8 % 2 ^ 16
    let msg : Message :=
      { mbox := target.toNat % 2 ^ 8, srcDev := (s2.reg rMDEVNO).toNat % 2 ^ 16, srcCtx := k.ctx, dstDev := dev, epoch := 0
        seq := 0, body := d, grid := k.grid }
    let box := (t.kreg c.toNat).toNat
    let bind := (s.reg (rMBXBIND box)).toNat
    let taken : State := (deliverHeld s.arrivals.length { s with mailboxes := AMap.put [] s.mailboxes box rest }).modTask tid
      (fun k => { k with taken := k.taken ++ [m] })
    let store : MemOp :=
      { kind := .store, bytes := 8, signed := false, dest := 0, accs := bodyAccesses (t.kpair a.toNat) l m.body, acq := false
        rel := false, scope := 0, op := 0, reqs := [], held := none }
    s.task? tid = some k →
    (readBlock s p (t.opened (.launch h va)) .global addr 64 64 = .ok (s1, d) → r.ok = true →
      readBlock s1 p (t.opened (.launch h va)) .global r.table 8 (tableSize r.roleCount) = .ok (s2, table) →
      tableOk r table = true → s2.couldPlace (s2.ctxOf p) r (rolesOf r table) = true → Issues s p t (.launch h va) →
      (s2.launchRoom (s2.coreOf p) = true → CompletesIn (.launch h va) h s p
        ((s2.watchBlock p t.pc .global addr 64).watchBlock p t.pc .global r.table table.length)
        { t.opened (.launch h va) with hold := .commit (.launch d table) }) ∧
      (s2.launchRoom (s2.coreOf p) = false →
        exec (.launch h va) s = .next (s2.setTeam p { t.released' with hold := .full }))) ∧
    (target.toNat < 2 ^ 24 → (s.route k.ctx dev).isSome = true →
      readBlock s p (t.opened (.msend h a c)) .global (t.kpair c.toNat) 64 64 = .ok (s1, d) →
      s2 = s1.watchBlock p t.pc .global (t.kpair c.toNat) 64 → (s2.taskOf p).map (·.grid) = some k.grid →
      Issues s p t (.msend h a c) →
      Completes (.msend h a c) h s p (some t.nextId)
        (s2.modTask tid (fun k => { k with messages := k.messages ++ [msg] }))
        ((t.withOp (.msend h a c) .cp .message).complete t.nextId)) ∧
    (31 ≤ t.count .cp → counterFull (.msend h a c) t = true) ∧ (31 ≤ t.count .st → counterFull (.mrecv h a c) t = true) ∧
    (box < 256 → bind / 2 ^ 6 % 2 = 1 → bind % 2 ^ 6 = k.ctx → s.checkAccess p .global .store (t.kpair a.toNat) 64 false = (s, .ok l) →
      AMap.get [] s.mailboxes box = [] → Issues s p t (.mrecv h a c) →
      exec (.mrecv h a c) s = .next (s.setTeam p { t.released' with hold := .recv box })) ∧
    (box < 256 → bind / 2 ^ 6 % 2 = 1 → bind % 2 ^ 6 = k.ctx → s.Quiet k.ctx →
      s.checkAccess p .global .store (t.kpair a.toNat) 64 false = (s, .ok l) → AMap.get [] s.mailboxes box = m :: rest →
      Issues s p t (.mrecv h a c) →
      Completes (.mrecv h a c) h s p (some t.nextId) taken
        (t.withOp (.mrecv h a c) .st (.mem store)).newChunk)

/-! ## Matrix words -/

/-- R162 to R166, R201, R288, R289, R298: tiles are held, over whatever error stood in them, waited for and released; a word on
tiles that the team holds is queued on the array of its quadrant; a tile of another quadrant or holder takes TILE_OWNER. R168: a
redundant drain waits for the words before it and compares the pair as it issues, and one that differs takes REDUNDANCY with nothing
queued (at which moment it compares is the model's, log 39). -/
def Obligations.MatrixWordsQueueOnTheirArray : Prop :=
  ∀ (s : State) (tid ord : Nat) (t : Team) (k : Task) (h : Hdr) (x y : BitVec 3) (a b : BitVec 5) (z : BitVec 1)
    (kind norm blk : BitVec 2) (rows : List Access) (row : Nat), s.task? tid = some k →
    let p := Party.team tid ord
    let c := s.core k.core
    let tile := x.toNat
    let queue := AMap.get [] c.tileQ tile
    let room (c : Core) := (AMap.get [] c.arrays (t.partition / 8)).length < 16
    let own (n : Nat) := c.owns t tid ord n
    let both := own tile ∧ (mdRed t.md = true → own (tile ^^^ 1))
    let lanes := rowList t.matrixRows
    let idle := ∀ n ∈ pairTiles t.md tile, t.usesTile n = false
    let clean := mdRed t.md = true → idle ∧ c.mismatch tile lanes = none
    let queues (i : Instr) (w : MatrixWord) : Prop := QueuesWord i h s tid ord t (t.opened i) s k.core tile c.lockSeq w
    (tile / 2 = t.partition / 8 → c.owns t tid ord tile → Changes s p t h (.mres h x) id) ∧
    (tile / 2 = t.partition / 8 → AMap.find c.holder tile = none → queue = [] → s.tileBusy k.core tile = false →
      Issues s p t (.mres h x) →
      CompletesIn (.mres h x) h s p ((s.setCore k.core (c.holdTile tile tid ord)).cleanse
        (Site.inTile k.core [tile] (span 0 128) (span 0 128))) (t.opened (.mres h x))) ∧
    (tile / 2 = t.partition / 8 → AMap.find c.holder tile ≠ some (tid, ord) →
      (AMap.find c.holder tile ≠ none ∨ queue ≠ [] ∨ s.tileBusy k.core tile = true) → Issues s p t (.mres h x) →
      exec (.mres h x) s = .next ((s.setCore k.core
        { c with tileQ := AMap.put [] c.tileQ tile (queue ++ [(tid, ord)]) }).setTeam p { t.released' with hold := .tile tile })) ∧
    (tile / 2 ≠ t.partition / 8 → TrapsWith s p t (.mres h x) (trapOf 32 0#64 tile)) ∧
    (own tile → t.usesTile tile = false → Issues s p t (.mrel h x) →
      CompletesIn (.mrel h x) h s p (s.setCore k.core { c with holder := AMap.erase c.holder tile }) (t.opened (.mrel h x))) ∧
    (¬ own tile → TrapsWith s p t (.mrel h x) (trapOf 32 0#64 tile)) ∧
    (both → room c → Issues s p t (.mmz h x z) → queues (.mmz h x z) (.mmz (z = 1#1))) ∧
    (both → room c → Issues s p t (.smx h x a) → queues (.smx h x a) (.smx (t.kreg a.toNat))) ∧
    (both → room c → Issues s p t (.sexp h x a) → queues (.sexp h x a) (.sexp (t.kreg a.toNat))) ∧
    (both → own y.toNat → room c → Issues s p t (.srsc h x y) → queues (.srsc h x y) (.srsc y.toNat)) ∧
    (both → mmaTrap c tid tile (some a.toNat) b.toNat 0 lanes = none → room c → Issues s p t (.mma h x a b) →
      queues (.mma h x a b) (.mma a.toNat b.toNat)) ∧
    (both → own y.toNat → mmaTrap c tid tile none b.toNat kind.toNat lanes = none → room c →
      Issues s p t (.mmaTile h x y kind b) → queues (.mmaTile h x y kind b) (.mmaTile y.toNat kind.toNat b.toNat)) ∧
    (both → rowParts .global .load p (t.kpair a.toNat) 16 2048 lanes s = .ok (s, rows) → t.rowsWait rows = false →
      room c → Issues s p t (.mld h x a) → queues (.mld h x a) (.mld rows)) ∧
    (both → mdRed t.md = true → ¬ idle → Issues s p t (.mdrain h x kind norm blk a) → Waits (.mdrain h x kind norm blk a) s) ∧
    (both → mdRed t.md = true → idle → c.mismatch tile lanes = some row →
      TrapsWith s p t (.mdrain h x kind norm blk a) (trapOf 29 0#64 (256 * row + tile))) ∧
    (both → clean → kind.toNat = 0 → room c → Issues s p t (.mdrain h x kind norm blk a) →
      queues (.mdrain h x kind norm blk a) (.mdrain norm.toNat (.reg (4 * a.toNat) blk.toNat))) ∧
    (both → clean → kind.toNat ≠ 0 → s.Quiet k.ctx →
      let wide := decide (kind.toNat = 3)
      let n := if kind.toNat = 3 then 2048 else 128 * elemSize (mdType t.md)
      let al := if kind.toNat = 3 then 16 else elemSize (mdType t.md)
      let base := if kind.toNat = 1 then (t.kreg a.toNat).setWidth 64 else t.kpair a.toNat
      let ls := drainSpan rows (decide (kind.toNat = 1))
      let r := c.register tid ord t.nextId s.tick false ls
      rowParts (if kind.toNat = 1 then .own else .global) .store p base al n lanes s = .ok (s, rows) →
      t.rowsWait rows = false → room c → c.lockRoom ls.length = true → Issues s p t (.mdrain h x kind norm blk a) →
      let u := t.opened (.mdrain h x kind norm blk a)
      QueuesWord (.mdrain h x kind norm blk a) h s tid ord t (if s.overlaps k.core tid ls then u.newChunk else u)
        (s.setCore k.core r.1) k.core tile r.2 (.mdrain norm.toNat (.mem wide rows)))

/-- R64, R65, R162 to R166, R290: what a queued word does once its array has taken it. It acts in the tiles it names and in nothing
else of the core but them and its counter. `mmz` zeroes its rows; `mld` puts count and value of each entry in its place; `mma` adds to
each entry the products of its row of A and its column of B, group by group; `smx`, `sexp` and `srsc` rescale their rows by the side
registers; a drained element is absent where nothing was counted, else the value divided as the word asks and rounded once. -/
def Obligations.MatrixEffectsStayInTheirTiles : Prop :=
  (∀ (s : State) (p : Party) (w : MatrixWord) (md : Word) (tile : Nat) (rows : List Nat) (k : Core) (n row col : Nat),
    tile < 8 → (∀ i ∈ rows, i < 128) → col < 128 → row < 128 → (∀ r norm, w ≠ .mdrain norm r) →
    (∀ parts, w = .mld parts → ∀ a ∈ parts, a.lane < 128 ∧ a.data.toNat + a.data2.toNat ≤ 2048) →
    let k' := matrixEffect s p w md tile rows k
    (n ∉ pairTiles md tile → k'.entry n row col = k.entry n row col ∧ k'.rmax n row = k.rmax n row ∧
      k'.rsum n row = k.rsum n row ∧ k'.rfac n row = k.rfac n row) ∧
    { k' with tiles := k.tiles, rowMax := k.rowMax, rowSum := k.rowSum, rowFac := k.rowFac } = k) ∧
  (∀ (s : State) (p : Party) (md c : Word) (tile : Nat) (rows : List Nat) (k : Core) (n row col a b src block i : Nat) (side : Bool)
     (part : Access) (parts : List Access),
    tile < 8 → (∀ i ∈ rows, i < 128) → rows.Nodup → col < 128 → row ∈ rows → n ∈ pairTiles md tile →
    let does (w : MatrixWord) : Core := matrixEffect s p w md tile rows k
    let cell (k : Core) : BitVec 80 := AMap.get 0#80 k.tiles (n * 16384 + row * 128 + col)
    let held (e : Nat × Nat) : BitVec 80 := BitVec.ofNat 80 (e.1 * 2 ^ 64 + e.2)
    let e := k.entry n row col
    let rb := k.obRec b
    let d := depthOf rb.fmt
    let B := (span 0 d).map (k.operandAt rb md (rb.lo + 64 * col))
    let sides (k : Core) := (k.rmax n row, k.rsum n row, k.rfac n row)
    ((does (.mmz side)).entry n row col = (0, 0) ∧
      sides (does (.mmz side)) = if side then (sideMax.toNat, 0, sideFac.toNat) else sides k) ∧
    (part.lane = row → part.data.toNat + part.data2.toNat ≤ 2048 → i < part.data2.toNat / 16 →
      let bs := toBytes part.data2.toNat (s.readLoc (partyTask p) part.loc part.data2.toNat)
      AMap.get 0#80 (does (.mld [part])).tiles (n * 16384 + row * 128 + (part.data.toNat / 16 + i)) =
        held (bytesAt bs (16 * i + 8) 2, holdValue (bytesAt bs (16 * i) 8))) ∧
    (mdRed md = false →
      does (.mld (part :: parts)) = matrixEffect s p (.mld parts) md tile rows (does (.mld [part]))) ∧
    cell (does (.mma a b)) = held (mmaEntry rb.had e
      (List.zip ((span 0 d).map (k.operandAt (k.obRec a) md ((k.obRec a).lo + 64 * row))) B)) ∧
    cell (does (.mmaTile src block b)) = held (mmaEntry rb.had e
      (List.zip ((span 0 d).map (fun j => k.downAt md rb.fmt src row (block * d + j))) B)) ∧
    (let present := (span 0 128).filterMap (fun j => if (k.entry n row j).1 = 0 then none
       else some (rne32 (tileNum fmtF64 (k.entry n row j).2)))
     let k' := does (.smx c)
     cell k' = cell k ∧
     (present = [] → sides k' = (k.rmax n row, k.rsum n row, sideFac.toNat)) ∧
     (∀ y ys, present = y :: ys →
       let x := ys.foldl max32 y
       let m := k.rmax n row
       let f := softExp c (tileNum fmtF32 m) (tileNum fmtF32 (max32 m x))
       (m = sideMax.toNat → sides k' = (x % 2 ^ 32, k.rsum n row, sideFac.toNat)) ∧
       (m ≠ sideMax.toNat → sides k' = (max32 m x % 2 ^ 32,
         rne32 (mulNum (tileNum fmtF32 (k.rsum n row)) (tileNum fmtF32 f)) % 2 ^ 32, f % 2 ^ 32)))) ∧
    (let m : Machine.Num := if k.rmax n row = sideMax.toNat then .fin false 0 0 else tileNum fmtF32 (k.rmax n row)
     let p (j : Nat) : Nat := softExp c (tileNum fmtF64 (k.entry n row j).2) m
     let k' := does (.sexp c)
     cell k' = (if e.1 = 0 then cell k else held (e.1, rne64 (tileNum fmtF32 (p col)))) ∧
     sides k' = (k.rmax n row, (span 0 128).foldl (fun l j => if (k.entry n row j).1 = 0 then l
       else rne32 (addNum false (tileNum fmtF32 l) (tileNum fmtF32 (p j))) % 2 ^ 32) (k.rsum n row), k.rfac n row)) ∧
    (let k' := does (.srsc src)
     cell k' = held (e.1, rne64 (mulNum (tileNum fmtF64 e.2) (tileNum fmtF32 (k.rfac src row)))) ∧
     sides k' = (k.rmax n row, k.rsum src row, k.rfac n row))) ∧
  (∀ (had : Nat) (e : Nat × Nat) (ps : List (Machine.Num × Machine.Num)) (x y : Machine.Num),
    (ps.length = 32 → mmaEntry had e ps = if (groupSum ps).2 = 0 then e
      else (min 0xFFFF (e.1 + (groupSum ps).2), rne64 (addNum false (tileNum fmtF64 e.2) (scaleNum (hadShift had) (groupSum ps).1)))) ∧
    ((x.isAbsent || y.isAbsent) = true → groupSum ((x, y) :: ps) = groupSum ps) ∧
    ((x.isAbsent || y.isAbsent) = false →
      groupSum ((x, y) :: ps) = (addNum false (groupSum ps).1 (mulNum x y), (groupSum ps).2 + 1))) ∧
  mmaEntry 0 (3, 0x3FF0000000000000) ((.fin false 3 0, .fin true 1 1) :: List.replicate 31 (.absent, .nan)) =
    (4, 0xC014000000000000) ∧
  (∀ (k : Core) (t : Team) (md : Word) (norm tile first block row r col : Nat) (rows : List Nat) (f : Fmt),
    let ty := mdType md
    let e := k.entry tile row col
    let v := tileNum fmtF64 e.2
    (row < 128 → (∀ i ∈ rows, i < 128) → row ∈ rows → r < tyWidth ty → (drainRegs k md norm tile first block rows t).vreg (first + r) row =
      BitVec.ofNat 32 (packElems (tyWidth ty) ((span 0 32).map (fun j => k.drained md norm tile row (32 * block + j))) / 2 ^ (32 * r))) ∧
    (fmtOf ty = some f → e.1 = 0 → k.drained md norm tile row col = f.absent) ∧
    (fmtOf ty = some f → e.1 ≠ 0 → k.drained md norm tile row col = pack f (mdRound md ty)
      (if norm = 1 then tileNum fmtF64 (divCode fmtF64 rne v (.fin false e.1 0))
       else if norm = 2 then tileNum fmtF64 (divCode fmtF64 rne v (tileNum fmtF32 (k.rsum tile row))) else v)))

/-! ## System words -/

/-- R170: `trap` takes SW_TRAP in the lowest lane that takes part, and does nothing where none does; R40, R184: a word that no row
assigns takes ILLEGAL_OP, with the word as its detail, in every stream. -/
def Obligations.TrapsOnPurpose : Prop :=
  ∀ (s : State) (p : Party) (t : Team) (h : Hdr) (c : BitVec 8) (w : Word),
    (∀ l rest, t.lanes = l :: rest → TrapsWith s p t (.trap h c)
      { cls := 1, code := 36, addr := 0#64, lane := l, detail := c.setWidth 32, engine := false }) ∧
    (t.lanes = [] → Changes s p t h (.trap h c) id) ∧
    (s.cur = some p → s.team? p = some t → s.canIssue p t = true →
      exec (.illegalOp w) s = .next ((s.setTeam p { t with hold := .none, yld := .none }).raiseTrap p t.pc
        { cls := 1, code := 16, addr := 0#64, lane := 0xFFFF, detail := w, engine := false }))

/-- R171, R173, R174, R179: a service request holds its stream; the clocks are read into a pair, waiting for nothing; `pcnt` reads
the team's counters 0 to 2 and the core's from 3. R175, R376: `mark` changes nothing but its stream where nothing is recorded, and leaves a MARK record where it is,
put off until the stream's earlier accesses are performed and its earlier records written (log 31). -/
def Obligations.ServicesMarksAndCounters : Prop :=
  (∀ (s : State) (tid ord die ctx : Nat) (p : Party) (t : Team) (k : Task) (h : Hdr) (c : BitVec 8) (a : BitVec 5)
     (d n : BitVec 7),
     let value := t.kpair a.toNat
     let i := Instr.pcnt h d n
     (s.task? tid = some k →
       Changes s (.team tid ord) t h (.sysReq h c a) (fun t' => { t' with hold := .commit (.sys c.toNat value) })) ∧
     (Issues s (.steward die) t (.sysReq h c a) → CompletesIn (.sysReq h c a) h s (.steward die)
       { s with requests := s.requests ++ [svcEntry c.toNat die 0 0 value.toNat s.time s.requests.length] }
       (t.opened (.sysReq h c a))) ∧
     (s.Quiet ctx → Issues s (.prologue ctx) t (.sysReq h c a) →
       let r := (s.countIssue (.prologue ctx)).postSvc (.prologue ctx) c.toNat value
       CompletesIn (.sysReq h c a) h s (.prologue ctx) r.1 { t.opened (.sysReq h c a) with hold := .post r.2 }) ∧
     (s.task? tid = some k → s.Quiet k.ctx → p = .team tid ord →
       (Issues s p t (.rdclk h d) → ∃ t', WritesPair (t.opened (.rdclk h d)).newChunk t' d.toNat (fun _ => BitVec.ofNat 64 s.ac) ∧
         CompletesAs (.rdclk h d) h s p t') ∧
       (Issues s p t (.rdtime h d) →
         ∃ t', WritesPair (t.opened (.rdtime h d)).newChunk t' d.toNat (fun _ => BitVec.ofNat 64 s.time) ∧
           CompletesAs (.rdtime h d) h s p t') ∧
       (n.toNat = 0 → ComputesPair s p t h i d.toNat (fun _ => BitVec.ofNat 64 t.retired)) ∧
       (n.toNat = 1 → Issues s p t i →
         ∃ t', WritesPair (t.opened i).newChunk t' d.toNat (fun _ => BitVec.ofNat 64 (t.opened i).passes) ∧
           CompletesAs i h s p t') ∧
       (n.toNat = 2 → Issues s p t i →
         ∃ t', WritesPair (t.opened i).newChunk t' d.toNat (fun _ => BitVec.ofNat 64 t.idle) ∧ CompletesAs i h s p t') ∧
       (3 ≤ n.toNat → Issues s p t i →
         ∃ t', WritesPair (t.opened i).newChunk t' d.toNat (fun _ =>
             BitVec.ofNat 64 (AMap.get 0 (s.core (s.coreOf p)).counters n.toNat)) ∧
           CompletesAs i h s p t'))) ∧
  (∀ (s : State) (tid ord : Nat) (t : Team) (k : Task) (h : Hdr) (n : BitVec 14), s.task? tid = some k →
     let p := Party.team tid ord
     (s.Quiet k.ctx → Changes s p t h (.mark h n) id) ∧
     (s.recording k.ctx = true → s.replaying k.ctx = false → s.logField p ≠ 0xFFFF → Issues s p t (.mark h n) →
       (t.late = [] ∧ t.firstAccess = none → CompletesIn (.mark h n) h s p
         (s.note (s.surveyorOf p) k.ctx 7 (s.logField p) (some (t.retired + 1 - t.chunk.last)) (varint 3 n.toNat))
         { t.opened (.mark h n) with chunk := { t.chunk with last := t.retired + 1 } }) ∧
       (¬(t.late = [] ∧ t.firstAccess = none) → CompletesIn (.mark h n) h s p s
         ((t.opened (.mark h n)).putOff 7 (varint 3 n.toNat) (t.retired + 1)))))

/-- R176 to R181: control and status registers, unit probes, single steps and halts. -/
def Obligations.SystemWordsReachTheirUnits : Prop :=
  ∀ (s : State) (die ctx : Nat) (p : Party) (t : Team) (h : Hdr) (d a : BitVec 5) (c : BitVec 7) (q : Prologue),
    let w := (t.kreg a.toNat).toNat
    let unit := s.unit (w % 2 ^ 8) (w / 2 ^ 8 % 2 ^ 8)
    Computes s p t h (.csrr h d c) (96 + d.toNat) (fun _ => (s.countIssue p).readCsr p c.toNat) ∧
    (csrAccepts c.toNat (t.kreg a.toNat) = true → Issues s p t (.csrw h a c) →
      CompletesIn (.csrw h a c) h s p ((s.countIssue p).writeCsr p c.toNat (t.kreg a.toNat)) (t.opened (.csrw h a c))) ∧
    (csrAccepts c.toNat (t.kreg a.toNat) = false →
      TrapsWith s p t (.csrw h a c) (trapOf 16 0#64 (encodeNat (.csrw h a c)))) ∧
    ((s.countIssue p).probeUnit (t.kreg a.toNat) = s.probeUnit (t.kreg a.toNat)) ∧
    Computes s p t h (.probe h d a) (96 + d.toNat) (fun _ =>
      if w < 2 ^ 16 ∧ w / 2 ^ 8 % 2 ^ 8 < unitCount (w % 2 ^ 8) then
        BitVec.ofNat 32 ((if unit.present then 1 else 0) + (if unit.enabled then 2 else 0) + (if unit.error then 4 else 0) +
          2 ^ 8 * min 255 unit.corrected + 2 ^ 16 * min 255 unit.uncorrected)
      else 0#32) ∧
    (s.stepTarget w = none → Computes s (.steward die) t h (.dstep h d a) (96 + d.toNat) (fun _ => 3#32)) ∧
    (∀ tid o k u, s.stepTarget w = some (tid, o, k, u) → u.freeze ≠ .frozen →
      Computes s (.steward die) t h (.dstep h d a) (96 + d.toNat) (fun _ => 2#32)) ∧
    (∀ s' n tid o, (s.countIssue p).beginStep w = (s', some n, tid, o) → Issues s p t (.dstep h d a) →
      CompletesIn (.dstep h d a) h s p s' ((t.opened (.dstep h d a)).setK d.toNat (BitVec.ofNat 32 n))) ∧
    (∀ s' tid o, (s.countIssue p).beginStep w = (s', none, tid, o) → Issues s p t (.dstep h d a) →
      CompletesIn (.dstep h d a) h s p s' { t.opened (.dstep h d a) with hold := .step tid o d.toNat s'.time }) ∧
    Changes s (.steward die) t h (.halt h) (fun t' => { t' with hold := .halt }) ∧
    ((s.ctx ctx).prologue = some q → Issues s (.prologue ctx) t (.halt h) →
      CompletesIn (.halt h) h s (.prologue ctx)
        (s.modCtx ctx (fun k => { k with prologue := some { q with issued := q.issued + 1, haltSince := some s.time, woken := false } }))
        { t.opened (.halt h) with hold := .halt })

/-! ## Operations as they complete, and the streams that wait -/

/-- R125, R127, R129, R133, R240, R289: a load that may be performed writes what the task sees at each lane's place, extended, and
counts off, or takes ECC_UNCORR where an uncorrectable error spoils a lane's bytes; a lane's access may be performed by itself; an
atomic whose requests have executed writes the old values. -/
def Obligations.LoadsWriteWhatTheTaskSees : Prop :=
  ∀ (s s' : State) (p : Party) (t : Team) (x : Pend) (m : MemOp) (id l n v : Nat) (olds : List (Nat × Word64)) (b : Access),
    (s.team? p = some t → t.pend? id = some x → x.kind = .mem m → t.hold = .none → t.freeze = .no → s.isAway p = false →
      s.linesOut p t x = false →
      (m.kind = .load → s.ordered p t (some id) = true → s.acting p = true →
        (s.only = none → mayPerform m t.pend id = true → (∀ a ∈ m.accs, a.loc.busy s m.bytes = false) →
          (m.held = some [] → s.readFlaws p m.bytes m.accs = (s', none) →
            exec (.loadResultWrite p id) s = .next (((s'.watchAll p x m true false m.accs).l1Reads p m.bytes m.accs).setTeam p
              ((m.accs.foldl (fun t a =>
                t.putLoaded m a.lane (extendLoad m (s'.readLoc (partyTask p) a.loc m.bytes))) t).complete id))) ∧
          (s.readFlaws p m.bytes m.accs = (s', some b) → exec (.loadResultWrite p id) s = .next (s'.raiseTrap p x.pc
            { laneTrap 33 b.va (if 96 ≤ m.dest then 0xFFFF else b.lane) 0 with point := some x.point }))) ∧
        (s.only = some b.lane → s.chosen m = [b] → m.accs ≠ [b] → m.accs.Nodup → m.held = some [] →
          mayPerform { m with accs := [b] } t.pend id = true → b.loc.busy s m.bytes = false →
          s.readFlaws p m.bytes [b] = (s', none) →
          exec (.loadResultWrite p id) s = .next (((s'.watchAll p x m true false [b]).l1Reads p m.bytes [b]).setTeam p
            ((t.putLoaded m b.lane (extendLoad m (s'.readLoc (partyTask p) b.loc m.bytes))).modPend id
              (fun _ => .mem (m.without [b])))))) ∧
      (m.kind = .atomic → (∀ r ∈ m.reqs, r.done = true) → m.held = some olds →
        exec (.loadResultWrite p id) s =
          .next (s.setTeam p ((olds.foldl (fun t e => t.putLoaded m e.1 e.2.toNat) t).complete id)))) ∧
    (m.signed = false → extendLoad m v = v) ∧
    (m.signed = true → m.bytes = 1 → v < 2 ^ 8 → BitVec.ofNat 32 (extendLoad m v) = (BitVec.ofNat 8 v).signExtend 32) ∧
    (m.signed = true → m.bytes = 2 → v < 2 ^ 16 → BitVec.ofNat 32 (extendLoad m v) = (BitVec.ofNat 16 v).signExtend 32) ∧
    (m.dest < 96 → l < 1024 → (t.putLoaded m l v).vreg m.dest l = BitVec.ofNat 32 v ∧
      (m.bytes = 8 → (t.putLoaded m l v).vreg (m.dest + 1) l = BitVec.ofNat 32 (v / 2 ^ 32)) ∧
      (n < 1024 → n ≠ l → ∀ r, (t.putLoaded m l v).vreg r n = t.vreg r n)) ∧
    (96 ≤ m.dest → (t.putLoaded m l v).kreg (m.dest - 96) = BitVec.ofNat 32 v ∧
      (m.bytes = 8 → (t.putLoaded m l v).kreg (m.dest - 95) = BitVec.ofNat 32 (v / 2 ^ 32)) ∧
      ∀ r, (t.putLoaded m l v).v = t.v ∧ (r ≠ m.dest - 96 → r ≠ m.dest - 95 → (t.putLoaded m l v).kreg r = t.kreg r))

/-- R225, R256, R340: a task's store of device memory is seen by its own task alone, and leaves committed memory as it is; a store
to a scratchpad is in place at once, in the frame of a cohort that has been swapped out. R123, R129, R134, R240, R258, R366: a store
or a `mred` performs its lanes in ascending order and counts off, or one lane's access by itself; without room in the version pool
it takes VERSION_FULL and stores nothing. -/
def Obligations.StoresStayInTheirVersion : Prop :=
  (∀ (s s' : State) (tid pa a : Nat) (k : Task) (bs : List Byte), s.task? tid = some k →
     (s.storeLoc (some tid) (.glob pa) bs = some s' →
       s'.mem = s.mem ∧ (∀ u, u ≠ tid → s'.view (some u) = s.view (some u)) ∧
       (∀ i, i < bs.length → readByte (s'.view (some tid)) (pa + i) = bs.getD i 0#8) ∧
       (a < pa ∨ pa + bs.length ≤ a → readByte (s'.view (some tid)) a = readByte (s.view (some tid)) a)) ∧
     (s.storeLoc (some tid) (.spd tid pa) bs = some s' → k.scratchAway = true → s.replicas = [] →
       pa + bs.length ≤ k.scratchSize → a < k.scratchFrame + pa ∨ k.scratchFrame + pa + bs.length ≤ a →
       readByte s'.mem a = readByte s.mem a ∧
       ∀ i, i < bs.length → readByte s'.mem (k.scratchFrame + pa + i) = bs.getD i 0#8) ∧
     (s.storeLoc (some tid) (.spd tid pa) bs = some s' → k.scratchAway = false →
       s'.mem = s.mem ∧ (∀ u, s'.view u = s.view u) ∧ (∀ u, u ≠ tid → s'.scratchOf u = s.scratchOf u) ∧
       (∀ i, i < bs.length → readByte (s'.scratchOf tid) (pa + i) = bs.getD i 0#8) ∧
       (a < pa ∨ pa + bs.length ≤ a → readByte (s'.scratchOf tid) a = readByte (s.scratchOf tid) a))) ∧
  (∀ (s s1 : State) (p : Party) (t : Team) (id : Nat) (x : Pend) (m : MemOp) (b : Access), t.hold = .none →
     m.kind = .store ∨ m.kind = .mred → s.textBars p m.bytes m.accs = false →
     (Performs s p t id x m → s.only = some b.lane → s.chosen m = [b] → m.accs ≠ [b] → m.accs.Nodup →
       storeAll p m (s.redirects p m) [b] s = some s1 →
       exec (.storePerformed p id) s =
         .next ((s1.watchAll p x m (decide (m.kind = .mred)) true [b]).setTeam p (t.modPend id (fun _ => .mem (m.without [b]))))) ∧
     (Performs s p t id x m → s.only = none → storeAll p m (s.redirects p m) m.accs s = some s1 →
       exec (.storePerformed p id) s =
         .next ((s1.watchAll p x m (decide (m.kind = .mred)) true m.accs).setTeam p (t.complete id))) ∧
     (Performs s p t id x m → s.only = none → storeAll p m (s.redirects p m) m.accs s = none →
       exec (.storePerformed p id) s = .next (s.raiseTrap p x.pc
         { cls := 1, code := 34, addr := 0#64, lane := 0xFFFF, detail := 0#32, engine := false, point := some x.point })))

/-- R133, R225, R243: a request of one lane replaces the word at its place by the operation's result and keeps the old value for its
lane: of the task's scratchpad in place, of device memory in the task's version; a request that is a commit point commits the
version with it, and the word acted on is the committed one. -/
def Obligations.AtomicRequestsActOnTheirWord : Prop :=
  ∀ (s : State) (tid ord id req : Nat) (k : Task) (t : Team) (x : Pend) (m : MemOp) (a : Access) (g : Nat)
    (c : Bool),
    let p := Party.team tid ord
    s.task? tid = some k → s.Quiet k.ctx → Performs s p t id x m → m.kind = .atomic →
    m.reqs[req]? = some { group := g, accs := [a], commits := c, done := false } → a ∈ m.accs → s.sigs = [] → s.flaws = [] →
    (∀ off, a.loc = .spd tid off → c = false → k.scratchAway = false → ∃ s', exec (.atomicRequestExecute p id req) s = .next s' ∧
      readNat (s'.scratchOf tid) off m.bytes =
        atomFun m.op (readNat (s.scratchOf tid) off m.bytes) a.data.toNat a.data2.toNat % 256 ^ m.bytes ∧
      s'.mem = s.mem ∧
      ∃ t', s'.team? p = some t' ∧ t'.pend? id = some { x with kind := .mem { m with
        reqs := m.reqs.set req { group := g, accs := [a], commits := c, done := true }
        held := some (m.held.getD [] ++ [(a.lane, BitVec.ofNat 64 (readNat (s.scratchOf tid) off m.bytes))]) } }) ∧
    (∀ pa, a.loc = .glob pa → c = false → s.redirects p m = false →
      (∀ w, s.poolRoom tid (k.version ++ [.update { pa := pa, bytes := m.bytes, op := m.op, x := a.data, y := a.data2 } w]) = true) →
      ∃ s', exec (.atomicRequestExecute p id req) s = .next s' ∧ s'.mem = s.mem ∧
        readNat (s'.view (some tid)) pa m.bytes =
          atomFun m.op (readNat (s.view (some tid)) pa m.bytes) a.data.toNat a.data2.toNat % 256 ^ m.bytes ∧
        (∀ b, b < pa ∨ pa + m.bytes ≤ b → readByte (s'.view (some tid)) b = readByte (s.view (some tid)) b)) ∧
    (∀ pa, a.loc = .glob pa → c = true → s.redirects p m = false → s.replicas = [] → tid ∉ s.asked →
      (∀ q ∈ m.reqs.take req, q.done = true) → earlierDone t.pend id = true → s.commitBlocked tid = false →
      s.textHeld pa m.bytes = false →
      let committed := k.version.foldl applyWrite s.mem
      ∃ s', exec (.atomicRequestExecute p id req) s = .next s' ∧
        readNat s'.mem pa m.bytes = atomFun m.op (readNat committed pa m.bytes) a.data.toNat a.data2.toNat % 256 ^ m.bytes ∧
        (∀ b, b < pa ∨ pa + m.bytes ≤ b → readByte s'.mem b = readByte committed b) ∧
        ∃ k', s'.task? tid = some k' ∧ k'.version = [] ∧ k'.commits = k.commits + 1)

/-- R206, R259: a commit publishes the task's version under the next stamp, each atomic's update acting again on the committed word
(R243), raises its commit index, takes the register snapshot that has been asked for, and lets the team go on; a stream of no task
has nothing to publish. -/
def Obligations.CommitsPublishTheVersion : Prop :=
  ∀ (s : State) (p : Party) (t : Team) (w : CommitWork), s.team? p = some t → t.hold = .commit w → s.commitReady p t = true →
    (partyTask p = none → exec (.commit p) s = .next (s.afterCommit p w)) ∧
    (∀ tid ord k, p = .team tid ord → s.task? tid = some k → s.Quiet k.ctx → t.Plain → w = .plain → k.messages = [] →
      s.replicas = [] → s.sigs = [] →
      ∃ s' k' t', exec (.commit p) s = .next s' ∧ (tid ∉ s.asked → s'.mem = k.version.foldl applyWrite s.mem) ∧
        s'.asked = s.asked.filter (· ≠ tid) ∧ s'.stamp = s.stamp + 1 ∧
        s'.task? tid = some k' ∧ k'.version = [] ∧ k'.commits = k.commits + 1 ∧ k'.scratch = k.scratch ∧
        s'.team? p = some t' ∧ t' = { t.newChunk with hold := .none })

/-- R142, R147, R181, R204, R212, R444: what a stream waits for is looked at again, and the stream goes on once it is there; a
park's read takes ECC_UNCORR where an uncorrectable error spoils its word. R198, R206, R270, R272: a register line goes to its place
in the team's frame, unless a freeze has put it there, and comes back from it, into a cache with room; the line that goes next leaves the cache; a walk fills the TLBs
or is a page fault at the waiting instruction; an ended team whose operations are over gives its slot back. -/
def Obligations.WaitsLinesWalksAndSlots : Prop :=
  (∀ (s s1 s2 : State) (p : Party) (t : Team) (tr : TrapInfo) (kind : Nat) (eq : Bool) (a : Word64) (c : Word) (w : ParkWord) (ctx die : Nat)
     (q : Prologue), s.team? p = some t →
     (t.hold = .park kind eq a c → t.Plain → s.acting p = true → s.faultOf p = false → s.isAway p = false →
       s.parkWord p kind a = (s1, .ok w) → (∀ l, w = .at l → l.busy s1 4 = false) → (∀ n, w = .notify n → s1.latch = []) →
       (s1.parkFlaws p a w = (s2, some tr) → exec (.parkReread p) s = .next (s2.raiseTrap p t.ipc tr)) ∧
       (s1.parkFlaws p a w = (s2, none) → s2.team? p = some t →
         let s3 := s2.watchPark p t.ipc a w
         ((if eq then s3.parkValue p w = c else s3.parkValue p w ≠ c) →
           exec (.parkReread p) s = .next (s3.setTeam p { t with hold := .none })) ∧
         (¬ (if eq then s3.parkValue p w = c else s3.parkValue p w ≠ c) → exec (.parkReread p) s = .next s3))) ∧
     (t.yld ≠ .none → t.yieldOver = true → exec (.yieldResume p) s = .next (s.setTeam p { t with yld := .none })) ∧
     (p = .steward die → t.hold = .halt → exec (.haltWake p) s = .next (s.setTeam p { t with hold := .none })) ∧
     (p = .prologue ctx → (s.ctx ctx).prologue = some q → q.team.hold = .halt → q.woken = true →
       exec (.haltWake p) s = .next (s.modCtx ctx (fun k => { k with prologue := some { q with
         team := { q.team with hold := .none }, woken := false, haltSince := none
         haltedTicks := q.haltedTicks + (s.time - q.haltSince.getD s.time) } })))) ∧
  (∀ (s : State) (tid ord line : Nat) (k : Task) (p : Party) (t : Team) (va : Word64) (how lane : Nat) (l : Leaf) (m : AMap Byte),
     let q := Party.team tid ord
     let frame := t.lineAt (k.teamFrame ord) line
     (s.task? tid = some k → s.team? q = some t → line < 96 * 32 →
       (line ∈ t.evicted → k.resident = true → (s.partLines k.core t.partition).length < 512 → ∃ t', exec (.registerLineFill tid ord line) s = .next (s.setTeam q t') ∧
         (∀ i, i < 32 → t'.vreg (line / 32) (32 * (line % 32) + i) = BitVec.ofNat 32 (readNat s.mem (frame + 4 * i) 4)) ∧
         (∀ r n, n < 1024 → r ≠ line / 32 ∨ n / 32 ≠ line % 32 → t'.vreg r n = t.vreg r n) ∧
         line ∉ t'.evicted ∧ { t' with v := t.v, evicted := t.evicted, used := t.used } = t) ∧
       (k.resident = true → t.released = false → line ∈ t.lines → line ∉ t.evicted → t.freeze = .frozen → t.whole = true →
         exec (.registerLineWriteback tid ord line false) s = .next s) ∧
       (k.resident = true → t.released = false → line ∈ t.lines → line ∉ t.evicted → (t.freeze = .frozen → t.whole = false) →
         let saved := s.poke frame (t.lineBytes line)
         exec (.registerLineWriteback tid ord line false) s = .next saved ∧
         (saved.nextVictim k.core t.partition (fun _ => false) = some (tid, ord, line) →
           exec (.registerLineWriteback tid ord line true) s = .next ((saved.poke frame (t.lineBytes line)).setTeam q
             { t with evicted := line :: t.evicted, used := AMap.erase t.used line })) ∧
         (saved.nextVictim k.core t.partition (fun _ => false) ≠ some (tid, ord, line) →
           exec (.registerLineWriteback tid ord line true) s = .next saved))) ∧
     (s.team? p = some t → t.hold = .walk va how lane → s.walkers.idxOf p < 64 → s.walkBusy (s.ctxOf p) va.toNat = false →
       (s.walk (s.ctxOf p) va.toNat (howOf how) = some (l, m) → exec (.tlbWalkEnd p) s =
         .next ((s.fillTlb (s.coreOf p) (s.ctxOf p) va.toNat l m (howOf how)).setTeam p { t with hold := .none })) ∧
       (s.walk (s.ctxOf p) va.toNat (howOf how) = none → exec (.tlbWalkEnd p) s =
         .next ((s.setTeam p { t with hold := .none }).raiseTrap p t.pc
           { cls := 0, code := 1, addr := va, lane := lane, detail := BitVec.ofNat 32 how, engine := false }))) ∧
     (s.team? q = some t → t.ended = true → t.hold = .none → t.released = false → t.pend = [] → t.freeze = .no →
       exec (.teamSlotRelease tid ord) s = .next ((s.setTeam q { t with released := true }).teamEnded q)))

/-- R180, R375: under recording a signature hit ends the chunk with cause 2 and 65,536 instructions end it with cause 3, at the
team's instruction boundary; without recording neither leaves anything; a step that a steward or a prologue waits for ends blocked
once it has lasted 10 µs, unless the instruction that held the team is over (R397). -/
def Obligations.ChunksEndAndStepsTimeOut : Prop :=
  ∀ (s : State) (tid ord : Nat) (k : Task) (t u : Team) (w : Party) (d since : Nat),
    let p := Party.team tid ord
    let cut (cause : Byte) : State :=
      let r := (s.dropSig p).drawStamp
      (r.1.logRecord (s.surveyorOf p) k.ctx 0 (s.logField p) r.2 (some (t.boundary - t.chunk.last)) [cause]).setTeam p
        { t with chunk := { last := t.boundary, begun := t.boundary } }
    (s.task? tid = some k → s.team? p = some t →
      (s.recording k.ctx = true → s.logField p ≠ 0xFFFF → t.late = [] →
        (t.released = false → t.early 0 [2#8] t.boundary = false → exec (.chunkSignatureHit tid ord) s = .next (cut 2#8)) ∧
        (65536 ≤ t.retired - t.chunk.begun → t.early 0 [3#8] t.boundary = false →
          exec (.chunkCountExpiry tid ord) s = .next (cut 3#8))) ∧
      (s.recording k.ctx = false → exec (.chunkSignatureHit tid ord) s = .next s ∧
        exec (.chunkCountExpiry tid ord) s = .next s)) ∧
    (s.team? w = some u → u.hold = .step tid ord d since → since + 1000 ≤ s.time →
      (s.team? p = some t →
        let moves := s.canIssue p t = true ∧ t.hold ≠ .none ∧ t.hold.fresh = false
        (¬ moves → exec (.dstepTimeout w) s = .next (s.endStep tid ord (s.standsAt p t) 1)) ∧
        (moves → exec (.dstepTimeout w) s = .next ((s.setTeam p { t with hold := .none }).settle p))) ∧
      (s.team? p = none → exec (.dstepTimeout w) s = .next (s.setTeam w { u.setK d 1#32 with hold := .none })))

/-! ## Units as they act -/

/-- R201, R288, R292: the cohort at the head of the record queue gets its record and run as soon as both are free; one that waits
for a held record leaves the others their turn, and one that needs more granules than are free holds back those behind it; a free
tile goes to the team that asked first, over whatever error stood in it; an array takes its words in order. -/
def Obligations.RecordsTilesAndArraysServeInOrder : Prop :=
  ∀ (s : State) (core tile quad tid ord : Nat) (base : Nat) (w w2 : ObWait) (ws : List ObWait) (t : Team) (rest : List (Nat × Nat))
    (e : ArrayEntry) (es : List ArrayEntry),
    let c := s.core core
    let gives (w : ObWait) (ws : List ObWait) : State := s.setCore core { c.setObRec w.n
      { held := some w.task, length := w.len, base := base, word1 := 0#32, word2 := 0#32 } with obQ := ws }
    (c.obQ = w :: ws → (c.obRec w.n).held = none → c.freeRun w.len = some base →
      exec (.obRecordGrant core) s = .next (gives w ws)) ∧
    (c.obQ = w :: w2 :: ws → (c.obRec w.n).held ≠ none → c.freeRun w.len ≠ none → w2.n ≠ w.n → (c.obRec w2.n).held = none →
      c.freeRun w2.len = some base → exec (.obRecordGrant core) s = .next (gives w2 (w :: ws))) ∧
    (c.obQ = w :: ws → c.freeRun w.len = none → exec (.obRecordGrant core) s = .next s) ∧
    (AMap.get [] c.tileQ tile = (tid, ord) :: rest → AMap.find c.holder tile = none → s.tileBusy core tile = false →
      exec (.tileGrant core tile) s = .next ((s.setCore core
        { c.holdTile tile tid ord with tileQ := AMap.put [] c.tileQ tile rest }).cleanse
          (Site.inTile core [tile] (span 0 128) (span 0 128)))) ∧
    (AMap.get [] c.arrays quad = e :: es → s.team? (.team e.task e.ord) = some t → exec (.matrixArrayTake core quad) s =
      .next ((s.setCore core { c with arrays := AMap.put [] c.arrays quad es }).setTeam (.team e.task e.ord)
        { t with pend := t.pend.map (fun x => match x.kind with
          | .matrix w tile rows _ seq => if x.id = e.op then { x with kind := .matrix w tile rows true seq } else x
          | _ => x) }))

/-- R162 to R166, R179, R258, R289, R290, R294: a word that its array has taken completes once earlier words on its tiles have and
the writes it waits for have landed, and a multiply is counted; an uncorrectable error in what it reads is ECC_UNCORR; a drain without
room in the version pool takes VERSION_FULL. -/
def Obligations.MatrixWordsCompleteInOrder : Prop :=
  ∀ (s sf s1 : State) (tid ord : Nat) (k : Task) (t : Team) (id : Nat) (x : Pend) (w : MatrixWord)
    (tile seq norm first block : Nat) (mask : LaneMask) (a80 : Bool) (parts : List Access) (tr : TrapInfo),
    let p := Party.team tid ord
    let c := s.core k.core
    let rows := rowList mask
    let free (ps : List Access) := ∀ a ∈ ps, s.locHeld (some p) a.loc a.data2.toNat = false
    let meets := matrixFlaws s p k.core w x.md tile rows
    let sw := parts.foldl (fun s a => s.watch (accessor p x.pc false) a.loc true false a.va a.data2.toNat a.lane) sf
    let acts (s : State) : State := (s.setCore k.core ((matrixEffect s p w x.md tile rows c).countMma w)).cleanse
      (w.clears k.core x.md tile rows)
    s.only = none → s.task? tid = some k → s.team? p = some t → t.pend? id = some x → x.kind = .matrix w tile mask true seq →
    s.acting p = true → tilesFirst (w.tiles x.md tile) id t.pend = true → s.isAway p = false → s.linesOut p t x = false →
    s.obWritesPending k.core k seq (c.obReads w rows) = false → t.hold = .none → t.freeze = .no →
    (w.accesses = true → s.ordered p t (some id) = true) → (∀ n d ps, w = .mdrain n (.mem d ps) → free ps) →
    (∀ ps, w = .mld ps → ∀ a ∈ ps, a.loc.busy s a.data2.toNat = false) →
    (meets = (sf, some tr) → exec (.matrixWordComplete p id) s =
      .next (sf.raiseTrap p x.pc { tr with point := some x.point })) ∧
    (meets = (sf, none) →
      (w.accesses = false → (∀ n d, w ≠ .mdrain n d) → exec (.matrixWordComplete p id) s =
        .next ((acts sf).setTeam p (t.complete id))) ∧
      (w = .mld parts → exec (.matrixWordComplete p id) s = .next ((acts sw).setTeam p (t.complete id))) ∧
      (w = .mdrain norm (.reg first block) → exec (.matrixWordComplete p id) s =
        .next (sf.setTeam p ((drainRegs c x.md norm tile first block rows t).complete id))) ∧
      (w = .mdrain norm (.mem a80 parts) → drainParts c p x.pc x.md norm tile a80 parts sf = some s1 →
        exec (.matrixWordComplete p id) s =
          .next ((s1.modCore k.core (fun c => c.unlock seq)).setTeam p (t.complete id))) ∧
      (w = .mdrain norm (.mem a80 parts) → drainParts c p x.pc x.md norm tile a80 parts sf = none →
        exec (.matrixWordComplete p id) s = .next (sf.raiseTrap p x.pc { trapOf 34 0#64 0 with point := some x.point })))

/-- R149, R150, R153, R154, R168, R245, R246, R258, R299: the operation at the head of an engine's queue processes its elements in
order; a page fault suspends it, any other fault fails its task; once all are done its bytes are stored, its ranges released and its
counter falls, or it takes VERSION_FULL; each participant of a collective gets the sources as combined under the md of its own
`coll`, and one whose participants disagree takes ILLEGAL_OP in each of them, with nothing registered or counted. The form in which
other devices' shares come is the model's (log 20). -/
def Obligations.EnginesProcessAndComplete : Prop :=
  ∀ (s s1 s2 : State) (core eng n id ctx group : Nat) (o o1 : EngOp) (rest : List EngOp) (t : Team) (g : Group)
    (others srcs : List (List Byte)) (shape : Nat × Nat × Nat),
    let c := s.core core
    let element := if eng < 2 then copyStep s core o else chainStep s core o
    let lands := runsOf (o.lands (Config.freeWord s.tick).toNat)
    let own := (s.reg rMDEVNO).toNat % 2 ^ 16
    let local_ := g.members.filter (fun m => m.1 = own)
    let ops := local_.filterMap (fun m => s.collOp m.2 group)
    let shapes := ops.map (fun o => collShape o.2.desc) ++ others.map collShape
    (AMap.get [] c.engines eng = o :: rest → s.engReady core o = true →
      (o.total eng ≤ o.pos → exec (.engineOperationRun core eng n) s = .next (s.setEngOp core eng o)) ∧
      (o.pos < o.total eng →
        (element = (s1, .ok o1) → exec (.engineOperationRun core eng 1) s = .next (s1.setEngOp core eng o1)) ∧
        (∀ va w, element = (s1, .error (.page va w)) → exec (.engineOperationRun core eng (n + 1)) s =
          .next ((s1.engPageFault core o va w).1.setEngOp core eng (s1.engPageFault core o va w).2)) ∧
        (∀ code va, code ≠ 31 → element = (s1, .error (.fail code va)) → exec (.engineOperationRun core eng (n + 1)) s =
          .next ((s1.setEngOp core eng o).takeTrap (.team o.task o.ord) o.pc
            { cls := 1, code := code, addr := va, lane := 0xFFFF, detail := 0#32, engine := true
              point := (s1.setEngOp core eng o).opPoint o })))) ∧
    (eng < 3 → AMap.get [] c.engines eng = o :: rest → o.seq = id →
      (∀ e, e < 3 → ∀ o', (AMap.get [] c.engines e).head? = some o' → o'.seq = id → e = eng) →
      o.total eng ≤ o.pos → o.fault = none → s.acting o.party = true → s.outFree o = true →
      (storeRuns o.task core lands s = some s1 → s1.team? o.party = some t → t.hold = .none →
        exec (.engineCompletion core id) s = .next ((s1.modCore core (fun k =>
          { k.unlock o.seq with engines := AMap.put [] (k.unlock o.seq).engines eng ((AMap.get [] (k.unlock o.seq).engines eng).drop 1) })).setTeam
            o.party (t.complete o.op))) ∧
      (storeRuns o.task core lands s = none → exec (.engineCompletion core id) s =
        .next (s.engineTrap o (trapOf 34 0#64 0)))) ∧
    (o.beside = [] → o.lands n = o.out.reverse) ∧
    (AMap.find (s.ctx ctx).groups group = some g → ops.length = local_.length → others.length = g.members.length - local_.length →
      (∀ x ∈ ops, s.engReady x.1 x.2 = true) → shape ∈ shapes →
      ((∀ y ∈ shapes, y = shape) → gatherSources own group g.members others s = (s1, .ok srcs) →
        let read := local_.filterMap (fun m => s1.collOp m.2 group)
        let ready := if ops.all (fun o => decide (o.2.collCount ≤ o.2.block.length)) then read else read.map (fun o => (o.1, o.2.anew))
        scatterResults (fun md => collResult md shape.2.1 shape.2.2 shape.1
          (decide (1 ≤ (s.ctx ctx).level.level) || ops.any (fun o => nbit (bytesAt o.2.desc 0x16 1) 0)) srcs) ready [] s1 = .next s2 →
        (s1.ctx ctx).level = (s.ctx ctx).level → exec (.collectiveCombine ctx group others) s = .next s2) ∧
      ((∃ y ∈ shapes, y ≠ shape) → exec (.collectiveCombine ctx group others) s =
        .next (ops.foldl (fun s o => s.collRefused o.1 o.2) s)))

/-! ## The front end and the distributor -/

/-- R341, R342, R440, R441: a submission takes the next number and waits its turn, or is rejected; consuming one takes the packets
of its queue up to its tail, each under the next sequence number, and one of a disabled queue only loses its tail; it waits while no
steward holds the leader's lease (R442); a packet's read
moves the queue's head past it. R343 to R349, R370, R454: a packet is accepted in its turn under its sequence number, with its
ranges and the packet before it in its queue, none where that was rejected, when the interval table has room; an unknown kind is
rejected with ILLEGAL_OP; a range or prologue packet joins the open group of its queue. A packet whose read was denied is dropped with its group (that what follows it up to a launch is its group is
the model's, log 54). -/
def Obligations.PacketsAreAcceptedInTheirTurn : Prop :=
  (∀ (s s' : State) (ctx q tail n : Nat) (rest : List (Nat × Nat × Nat)) (p : Incoming) (bs : List Byte), q < 16 → tail < 2 ^ 16 →
     let k := s.ctx ctx
     let v : Word64 := BitVec.ofNat 64 (q + 16 * tail)
     let m := (k.subSeq + 1) % 2 ^ 32
     let next := (s.creg ctx (oQHEAD q) + (s.unread ctx q).length) % 2 ^ (s.creg ctx (oQCTL q) % 2 ^ 5)
     (k.subs.length < 256 → tail < 2 ^ (s.creg ctx (oQCTL q) % 2 ^ 5) → exec (.submissionWrite ctx v) s =
       .next (s.modCtx ctx (fun k => { k with subSeq := m, subs := k.subs ++ [(m, q, tail)] }))) ∧
     (256 ≤ k.subs.length ∨ 2 ^ (s.creg ctx (oQCTL q) % 2 ^ 5) ≤ tail → exec (.submissionWrite ctx v) s =
       .next ((s.modCtx ctx (fun k => { k with subRej := true })).raise ctx 6)) ∧
     (s.leaseOut = true → exec (.mailboxEntryConsume ctx) s = .next s) ∧
     (k.subs = (n, q, tail) :: rest → s.leaseOut = false →
       let s1 := s.modCtx ctx (fun k => { k with subs := rest, consumed := n })
       (s.creg ctx (oQCTL q) / 2 ^ 6 % 2 = 1 → exec (.mailboxEntryConsume ctx) s =
         .next (takePackets ctx q tail (2 ^ (s.creg ctx (oQCTL q) % 2 ^ 5)) s1)) ∧
       (s.creg ctx (oQCTL q) / 2 ^ 6 % 2 = 0 → exec (.mailboxEntryConsume ctx) s = .next s1)) ∧
     (next = tail → takePackets ctx q tail n s = s) ∧
     (next ≠ tail → s.unread ctx q ≠ [] → takePackets ctx q tail (n + 1) s = takePackets ctx q tail n (s.modCtx ctx (fun k =>
       { k with nextPacket := k.nextPacket + 1, incoming := k.incoming ++
         [{ queue := q, addr := BitVec.ofNat 64 (s.creg ctx (oQBASE q) + 64 * next), num := k.nextPacket, body := none }] }))) ∧
     (p.queue = q → p.body = none → s.feGet ctx 0 p.num p.addr.toNat 64 = (s', .ok bs) → (s.readPacket ctx p).2 = some bs ∧
       (s.readPacket ctx p).1.creg ctx (oQHEAD q) = (s'.creg ctx (oQHEAD q) + 1) % 2 ^ (s'.creg ctx (oQCTL q) % 2 ^ 5))) ∧
  (∀ (s s1 : State) (ctx n : Nat) (p : Incoming) (bs table : List Byte) (rs : List Range),
     let kind := packetKind bs
     let r := parseRecord bs
     let s2 := s.modCtx ctx (fun k => { k with skip := k.skip.filter (fun q => q ≠ p.queue) })
     let before (s : State) : Option Nat :=
       ((((s.ctx ctx).packets.filter (fun q => q.1 < p.num && q.2.queue = p.queue)).getLast?).map (·.1)).filter
         (fun n => AMap.get 0 (s.ctx ctx).rejected p.queue ≤ n)
     let enter (s : State) (x : Packet) : State := (s.takeIncoming ctx p).modCtx ctx (fun k => { k with
       packets := AMap.set k.packets p.num { x with prev := before s }, partials := AMap.erase k.partials p.queue })
     let x : Packet := { kind := kind, queue := p.queue, addr := p.addr, body := bs, ranges := rs, prologue := none, md := mdReset
                         roles := [], stage := .accepted, copied := 0 }
     let args : List Range := if r.argSize = 0 then [] else
       [{ lo := r.argAddr.toNat, hi := r.argAddr.toNat + r.argSize - 1, write := false }]
     nextIncoming s ctx (s.ctx ctx).incoming [] = some p →
     (p.body = some [] → exec (.launchPacket ctx) s = .next ((s.takeIncoming ctx p).modCtx ctx (fun k =>
       { k with partials := AMap.erase k.partials p.queue, rejected := AMap.put 0 k.rejected p.queue (p.num + 1)
                skip := p.queue :: k.skip }))) ∧
     (p.body = some bs → bs.length = 64 → p.queue ∉ (s.ctx ctx).skip →
     (AMap.get [] (s.ctx ctx).partials p.queue = [] → AMap.find (s.ctx ctx).packets p.num = none →
       (simpleRanges bs = some rs → s2.rangesHeld ctx + rs.length ≤ 4096 →
         (kind = 3 → exec (.copyPacket ctx p.num n) s = .next (enter s2 x)) ∧
         (kind = 4 → exec (.determinismLevelPacket ctx p.num) s = .next (enter s2 x)) ∧
         (kind = 5 → exec (.drainPacket ctx p.num) s = .next (enter s2 x))) ∧
       (kind = 0 → r.ok = true → s.feGet ctx 4 p.num r.table.toNat (tableSize r.roleCount) = (s1, .ok table) →
         tableOk r table = true → s1.couldPlace ctx r (rolesOf r table) = true →
         s1.rangesHeld ctx + args.length ≤ 4096 → exec (.launchPacket ctx) s = .next (enter s1 { x with
           ranges := args, md := tableMd table, roles := rolesOf r table }))) ∧
     (7 ≤ kind → exec (.launchPacket ctx) s =
       .next (((s.takeIncoming ctx p).modCtx ctx (fun k => { k with skip := k.skip.filter (fun q => q ≠ p.queue) })).reject ctx p bs)) ∧
     (kind = 6 → AMap.get [] (s.ctx ctx).partials p.queue = [] → prologueOk bs = true → exec (.launchPacket ctx) s =
       .next (((s.takeIncoming ctx p).modCtx ctx (fun k => { k with skip := k.skip.filter (fun q => q ≠ p.queue) })).modCtx ctx
         (fun k => { k with partials := AMap.set k.partials p.queue [p] })))))

/-- R346, R348, R351, R352, R370, R371: an accepted packet that nothing blocks starts; a copy writes its bytes in order and
completes after the last; a drain and a level packet complete once every packet before them has. -/
def Obligations.PacketsRunAndComplete : Prop :=
  ∀ (s s1 s2 : State) (ctx seq : Nat) (x : Packet) (b : List Byte) (bs : List Byte),
    let k := s.ctx ctx
    let size := bytesAt x.body 0x10 8
    let staged (s : State) (g : PacketStage) : State := s.modPacket ctx seq (fun p => { p with stage := g })
    AMap.find k.packets seq = some x →
    (x.stage = .accepted → s.mayStart ctx = true → s.packetBlocked ctx seq x = false →
      (x.kind = 3 ∨ (x.kind = 0 ∧ x.prologue = some bs) → exec (.packetStart ctx seq) s = .next (staged s .started)) ∧
      (x.kind = 0 → x.prologue = none → ∃ s' y, exec (.packetStart ctx seq) s = .next s' ∧
        s'.grid? s.nextGrid = some { newGrid ctx (some seq) none (parseRecord x.body) x.md x.roles 1 with
          ordinal := k.nextOrdinal } ∧
        AMap.find (s'.ctx ctx).packets seq = some y ∧ y.stage = .running ∧ (s'.ctx ctx).nextOrdinal = k.nextOrdinal + 1)) ∧
    (x.stage = .accepted → s.mayStart ctx = true → s.packetBlocked ctx seq x = true →
      exec (.packetStart ctx seq) s = .next s) ∧
    (x.kind = 3 → x.stage = .started → k.snapPaused = false → x.copied < size →
      s.feGet ctx 2 seq (bytesAt x.body 0 8 + x.copied) 1 = (s1, .ok b) →
      s1.fePut ctx 2 seq (bytesAt x.body 8 8 + x.copied) b = (s2, .ok true) → AMap.find (s2.ctx ctx).packets seq = some x →
      let s3 := s2.modPacket ctx seq (fun p => { p with copied := p.copied + 1 })
      (x.copied + 1 < size → exec (.copyPacket ctx seq 1) s = .next s3) ∧
      (x.copied + 1 = size → bytesAt x.body 0x18 8 = 0 → exec (.copyPacket ctx seq 1) s = .next (staged s3 .complete))) ∧
    (x.kind = 5 → x.stage = .accepted → s.mayStart ctx = true → s.allBefore ctx seq = true → bytesAt x.body 0x18 8 = 0 →
      exec (.drainPacket ctx seq) s = .next (staged s .complete)) ∧
    (x.kind = 4 → x.stage = .accepted → s.mayStart ctx = true → s.allBefore ctx seq = true → bytesAt x.body 0x18 8 = 0 →
      (∀ e ∈ s.grids, e.2.ctx = ctx → e.2.complete = true) → exec (.determinismLevelPacket ctx seq) s =
        .next (staged ((staged s .running).setLevel ctx (levelOf x.body)) .complete)) ∧
    (∀ v : Level, k.level.recording = false → v.recording = false →
      s.setLevel ctx v = s.modCtx ctx (fun k => { k with level := v, nextOrdinal := 0 }))

/-- R177, R181, R351: a prologue starts with its packet's two pairs and the launch's values; once it has ended its launch begins
with what it wrote; one that has not reached its end after 4,096 uncore clocks ends with ILLEGAL_OP (its record's form is the
model's, log 25). -/
def Obligations.ProloguesRunAndEnd : Prop :=
  ∀ (s : State) (ctx seq : Nat) (x : Packet) (bs : List Byte) (q : Prologue),
    let k := s.ctx ctx
    let r := parseRecord x.body
    let halted := q.haltedTicks + (match q.haltSince with
      | some t => s.time - t
      | none => 0)
    AMap.find k.packets seq = some x → x.prologue = some bs → x.kind = 0 →
    (k.prologue = none → x.stage = .started → s.mayStart ctx = true → s.prologueWaits ctx = false → ∃ s' q', exec (.prologueRun ctx seq) s = .next s' ∧
      (s'.ctx ctx).prologue = some q' ∧ q'.packet = seq ∧ q'.issued = 0 ∧ q'.team.stream = .prologue ∧
      q'.team.pc = BitVec.ofNat 64 (bytesAt bs 0 8) ∧ q'.team.kpair 0 = BitVec.ofNat 64 (bytesAt bs 8 8) ∧
      q'.team.kpair 2 = BitVec.ofNat 64 (bytesAt bs 0x10 8) ∧ q'.csr.lgx.toNat = r.gx ∧ q'.csr.lgy.toNat = r.gy ∧
      q'.csr.lgz.toNat = r.gz ∧ q'.csr.lruns = 1#32 ∧ joinPair q'.csr.largl q'.csr.largh = r.argAddr) ∧
    (k.prologue = some q → q.packet = seq → q.team.ended = true → q.team.hold = .none → q.team.pend = [] →
      let runs := q.csr.lruns.toNat % 2 ^ 16
      let r' : LaunchRec := { r with
        gx := q.csr.lgx.toNat, gy := q.csr.lgy.toNat, gz := q.csr.lgz.toNat, argAddr := joinPair q.csr.largl q.csr.largh }
      runs = 0 ∨ (r'.ok = true ∧ s.couldPlace ctx r' x.roles = true) → ∃ s', exec (.prologueRun ctx seq) s = .next s' ∧
        (s'.ctx ctx).prologue = none ∧
        s'.grid? s.nextGrid = some { newGrid ctx (some seq) none r' x.md x.roles runs with ordinal := k.nextOrdinal }) ∧
    (k.prologue = some q → q.team.ended = false → 4096 * 100 < (s.time - q.since - halted) * s.power.uncore →
      exec (.prologueLimitExpiry ctx) s = .next ((s.prologueRecord ctx q.team.pc).endPrologue ctx))

/-- R128, R318, R320 to R324, R331, R338, R352: a run copies its argument block, unless a device-side launch's has been copied; such
a launch is handed over under its context's next ordinal; a launch of a context without a plate window runs its source, one whose
plate is in the cache runs the plate, and another's plate is written with its map. R332, R353, R354, R366, R454: a phase check
closes once no traffic of the old tag is left, operations, fetches, copies and messages; a checked grid writes its completion word in order,
or adds to it in one step, and is complete, without it where the word is denied; the sums of a level-1 grid are applied along the
fixed tree. -/
def Obligations.GridsStartSettleAndComplete : Prop :=
  (∀ (s s1 s2 : State) (g core offset : Nat) (x : Grid) (bs : List Byte) (src : List Nat) (e : Engraved) (q : Nat × Plate)
     (rest : List Nat), s.grid? g = some x →
     (x.started = false → x.complete = false → x.runs ≠ 0 → 0 < x.record.cohorts →
       (x.run = 0 → ∀ k ∈ s.kernels, k.ctx = x.ctx → k.code = x.record.code → s.textWaits k = false) →
       (x.copied = false → s.feGet x.ctx 7 g x.record.argAddr.toNat x.record.argSize = (s1, .ok bs) → exec (.runStart g) s =
         .next (s1.setGrid g { x with args := bs, copied := true, started := true, next := 0, ended := 0, settled := false })) ∧
       (x.copied = true → exec (.runStart g) s =
         .next (s.setGrid g { x with started := true, next := 0, ended := 0, settled := false }))) ∧
     (x.started = false → x.complete = false → x.runs = 0 →
       (x.run = 0 → ∀ k ∈ s.kernels, k.ctx = x.ctx → k.code = x.record.code → s.textWaits k = false) →
       exec (.runStart g) s = .next ((s.setGrid g { x with started := true }).reachCheck g)) ∧
     ((s.core core).launches = g :: rest → x.handed = false → x.started = false →
       exec (.pendingLaunchHandoff core) s = .next ((s.setGrid g { x with handed := true, ordinal := (s.ctx x.ctx).nextOrdinal }).modCtx
         x.ctx (fun k => { k with nextOrdinal := k.nextOrdinal + 1 }))) ∧
     (x.unsettled = true →
       (s.engraves x.ctx = false → exec (.plateBuild g offset) s =
         .next (s.setGrid g { x with settled := true, engraved := false })) ∧
       (s.engraves x.ctx = true → s.sourceWords x.ctx x.record.code = (s2, .error .absent) → exec (.plateBuild g offset) s =
         .next (s2.setGrid g { x with settled := true, engraved := false })) ∧
       (s.engraves x.ctx = true → s.sourceWords x.ctx x.record.code = (s2, .error .busy) → exec (.plateBuild g offset) s = .next s2) ∧
       (s.engraves x.ctx = true → s.sourceWords x.ctx x.record.code = (s2, .ok src) →
         let prologue : Option Word64 := x.packet.bind (fun n => (AMap.find (s2.ctx x.ctx).packets n).bind (fun q =>
           q.prologue.map (fun b => BitVec.ofNat 64 (bytesAt b 0 8))))
         PlateJob.engrave { code := x.record.code, src := src, grid := x, prologue := prologue, barred := [] } 4096 = some e →
         let p : Plate := { ctx := x.ctx, code := x.record.code, gen := s2.generation x.ctx x.record.code
                            revision := Config.revision, key := plateKey x e.grid
                            roles := x.roles, md := x.md, offset := offset, words := e.words, map := e.map, entries := e.entries
                            lastUse := s2.tick }
         let same (q : Plate) : Bool := q.ctx = p.ctx && q.code = p.code && q.key = p.key && q.md = p.md &&
           q.roles.map Role.keyed = p.roles.map Role.keyed && q.gen = p.gen && q.revision = p.revision
         (s2.plates.find? (fun q => same q.2) = some q →
           exec (.plateBuild g offset) s = .next { s2.setGrid g { x with settled := true, engraved := true, plate := some q.1 } with
             plates := AMap.modify s2.plates q.1 (fun p => { p with lastUse := s2.tick }) }) ∧
         (s2.plates.find? (fun q => same q.2) = none →
           s2.plateRoom (12 * e.words.length) = true → s2.plateBase + s2.plateSize ≤ memorySize → offset % 4096 = 0 →
           offset + 12 * e.words.length ≤ s2.plateSize → s2.evictPlates offset (12 * e.words.length) 4097 = some s1 →
           exec (.plateBuild g offset) s = .next (State.runPlate
             { s1.poke (s1.plateBase + offset) p.image with plates := AMap.set s1.plates (AMap.fresh s1.plates 0 4097) p } g x (AMap.fresh s1.plates 0 4097)))))) ∧
  (∀ (s s1 : State) (g ctx a : Nat) (x : Grid) (q : PhaseCheck) (leaves : List (Nat × Word)),
     ((s.ctx ctx).check = some q → (∀ w ∈ q.waits, s.stillOut w = false) → (∀ m ∈ q.messages, m ∉ s.sent) →
       (∀ n ∈ q.copies, n ∉ s.copiesOut ctx) → exec (.phaseCheckClose ctx) s =
         .next (((q.grids.foldl (fun s g => s.modGrid g (fun x => { x with checked := true })) s).modCtx ctx
           (fun k => { k with check := none })).openCheck ctx)) ∧
     (s.grid? g = some x → x.checked = true → x.complete = false → (∀ m ∈ s.sent, m.grid ≠ g) →
       (∀ e ∈ s.grids, e.1 ≠ g → e.2.ctx = x.ctx → e.2.checked = true → e.2.complete = true) →
       (x.record.addMode = false →
         s.fePut x.ctx 1 g x.record.compAddr.toNat (toBytes 4 x.record.compValue.toNat) = (s1, .ok true) →
         exec (.gridCompletion g) s = .next (s1.endGrid g)) ∧
       (x.record.addMode = false →
         s.fePut x.ctx 1 g x.record.compAddr.toNat (toBytes 4 x.record.compValue.toNat) = (s1, .denied) →
         exec (.gridCompletion g) s = .next (s1.endGrid g)) ∧
       (∀ pa ps, x.record.addMode = true → s.feWaiting x.ctx 1 g = false → s.feFails x.ctx 1 g = none →
         s.feXlat x.ctx .store x.record.compAddr.toNat 4 = (s1, .ok (pa :: ps)) → s1.putHeld 1 g (pa :: ps) = false →
         exec (.gridCompletion g) s =
           .next ((s1.commitBytes pa (toBytes 4 (readNat s1.mem pa 4 + x.record.compValue.toNat))).endGrid g))) ∧
     (s.grid? g = some x → x.complete = false → x.started = true → x.record.cohorts ≤ x.ended → (x.failed = true ∨ x.runs ≤ x.run + 1) →
       x.sums = [(a, leaves)] → x.sumsApplied = false → s.bytesHeld true (span a 4) = false → exec (.faddTreeApply g) s =
         .next (((s.commitBytes a (toBytes 4 (faddWord (readNat s.mem a 4)
           (sumTree leaves (treeHeight 96 x.record.cohorts) 0)))).setGrid g { x with sumsApplied := true }).afterRun g)))

/-- R195 to R197, R355 to R357: the grid that is first in order has its next cohorts placed where they fit; each team starts at its
role's entry on the partition that its ordinal gives, with every lane of its groups active. R198, R243, R259, R261 to R263, R408: a
cohort whose teams are over commits and is gone; a task that has failed is discarded with its version, once its record is written
(R439) and the loads already issued are complete, and placed again while its launch's budget lasts, its cohort once, in ascending
order of its index. -/
def Obligations.CohortsArePlacedAndEnd : Prop :=
  (∀ (s s' : State) (g tid frame core base n : Nat) (x : Grid) (r : Retry) (rs : List Retry) (slots : List (Nat × Nat)),
     (s.grid? g = some x → s.idFree tid = true → s.nextCohorts x = r :: rs → s.replaying x.ctx = false → s.bound x.ctx = false →
       s.firstInOrder g x = true → s.placeNext g x (r :: rs) tid (some frame) = some s' → (s'.ctx x.ctx).level.level ≠ 2 →
       exec (.cohortPlace g tid frame) s = .next s') ∧
     (∀ e q, x.roles = [q] → n < q.teams → slots.length = q.teams → slots[n]? = some e →
       ∃ k t, (s.start g x r tid core base frame slots).task? tid = some k ∧ k.core = core ∧ k.index = r.index ∧
         k.version = [] ∧ k.commits = 0 ∧ k.resident = true ∧ AMap.find k.teams n = some t ∧ t.partition = e.1 ∧ t.slot = e.2 ∧
         t.role = 0 ∧ t.index = n ∧ t.pc = s.entryOf x 0 q ∧ t.md = x.md ∧ (∀ l < 1024, t.mask.getLsbD l = decide (l < 32 * q.groups)) ∧ t.v = [] ∧ t.k = [] ∧
         t.hold = .none ∧ t.ended = false) ∧
     (∀ i, i < n → (s.slotsFor core base n)[i]? = some (8 * (i % 4) + (base + i / 4) % 8, s.freeSlot core (8 * (i % 4) + (base + i / 4) % 8)))) ∧
  (∀ (s : State) (tid : Nat) (k : Task) (x : Grid) (t : Team), s.task? tid = some k → s.grid? k.grid = some x →
     s.gangTasks k = [(tid, k)] → s.gangCount k = 1 → s.sigs = [] → s.replicas = [] →
     (s.cohortOver tid k = true → AMap.find k.teams 0 = some t → s.Quiet k.ctx → k.messages = [] →
       tid ∉ s.asked → (∀ b ∈ s.log.blocks, b.ctx ≠ k.ctx) →
       ∃ s', exec (.cohortEnd tid) s = .next s' ∧ s'.mem = k.version.foldl applyWrite s.mem ∧ s'.task? tid = none ∧ s'.stamp = s.stamp + 1) ∧
     (s.failingGang k = true → k.primary = true → k.finished = false → s.recordWaits tid k = false → k.loading = false →
       ∃ s', exec (.taskFail tid) s = .next s' ∧ s'.mem = s.mem ∧ s'.task? tid = none ∧
         (s.wouldRetry k = true → ∃ y, s'.grid? k.grid = some y ∧
           let i := s.gangNo k * s.gangSize k
           y.retry = x.retry.filter (fun r => r.index < i) ++ [{ index := i, retries := k.retries + 1 }] ++
             x.retry.filter (fun r => i < r.index))) ∧
     (s.failingGang k = true → s.recordWaits tid k = true ∨ k.loading = true → exec (.taskFail tid) s = .next s))

/-- R206, R207, R213, R229, R339, R340, R355: the cohort that has waited longest goes to its frame when that makes room, and comes
back to its core once it may go on; a grid that fits nowhere is seen to wait, and after 1 ms keeps its cluster; an empty cluster of
the other mode changes for it, its L1s invalidated, and with none empty one cluster drains for it. -/
def Obligations.CohortsSwapAndClustersChange : Prop :=
  ∀ (s : State) (tid g cluster since : Nat) (k : Task) (x : Grid) (rest : List (Nat × Task)) (empties : List Nat),
    let base := s.bestBase k.core k.teams.length
    let c := s.cluster cluster
    (s.task? tid = some k → s.Quiet k.ctx →
      (s.swapOrder k.core = (tid, k) :: rest → (∃ s' ∈ awayPrefixes (s.swapOrder k.core) s, s.waiterFits k.core s' = true) →
        let s1 := k.teams.foldl (fun s f => s.saveTeam tid f.1) s
        exec (.swapOut tid) s =
          .next ((s1.poke (k.teamFrame 8) ((span 0 k.scratchSize).map (fun i => readByte k.scratch i))).away tid)) ∧
      (s.grid? k.grid = some x → s.eligible tid k = true → s.failingGang k = false → (s.ctx k.ctx).snapPaused = false →
        x.ctx = k.ctx → (s.ctx k.ctx).level.level ≠ 2 → s.coreRoom k.core k.teams.length base k.scratchSize = true →
        exec (.swapReturn tid) s = .next ((s.comeBack tid k base (s.slotsFor k.core base k.teams.length)).noteDispatch tid
          x.ordinal k.index base))) ∧
    (s.grid? g = some x → s.nextCohorts x ≠ [] → s.fitsNow g x = false →
      (x.waitSince = none → exec (.placementWaitExpiry g) s = .next (s.setGrid g { x with waitSince := some s.time })) ∧
      (x.waitSince = some since → since + 100000 ≤ s.time → exec (.placementWaitExpiry g) s =
        .next (s.setGrid g { x with expired := true }))) ∧
    (cluster < 16 →
      let flip := (span (8 * cluster) 8).foldl (fun s c => s.modCore c (fun k => { k with l1 := [] }))
        (s.setCluster cluster { c with fused := !c.fused, draining := none })
      (c.draining ≠ none → s.clusterEmpty cluster = true → exec (.clusterModeChange cluster) s = .next flip) ∧
      (c.draining = none → s.grid? g = some x → s.bound x.ctx = false → s.nextCohorts x ≠ [] → s.fitsNow g x = false → x.record.fuse ≠ c.fused →
        ((span 0 16).filter (fun j => (s.cluster j).fused = c.fused && s.clusterEmpty j) = cluster :: empties →
          exec (.clusterModeChange cluster) s = .next flip) ∧
        ((∀ j < 16, (s.cluster j).fused = c.fused → s.clusterEmpty j = false) → s.fewestOf c.fused = some cluster →
          x.waitSince = some since → since + 100000 ≤ s.time → (∀ j < 16, (s.cluster j).draining ≠ some g) →
          (∀ e ∈ s.grids, e.1 ≠ g → s.nextCohorts e.2 = []) →
          exec (.clusterModeChange cluster) s = .next (s.setCluster cluster { c with draining := some g }))))

/-! ## What system software and the outside do -/

/-- R212, R407, R454: retry clears a suspension so that the instruction, element or access starts afresh, and fail is an ACCESS trap
at the same place, that of the park where a park's reread has faulted; a denied access of the front end notes its record; a number
that names no pending fault sets CSTAT.err. -/
def Obligations.PageFaultsAreAnswered : Prop :=
  ∀ (s : State) (ctx seq tid ord core eng what n : Nat) (f : PageFault) (t : Team) (o : EngOp) (va : Word64) (kind : Nat)
    (eq : Bool) (w : Word),
    let find := (s.ctx ctx).pageFaults.find? (fun f => f.seq = seq)
    let s1 := s.modCtx ctx (fun k => { k with pageFaults := k.pageFaults.filter (fun g => g ≠ f) })
    let retry := exec (.pfresRetry ctx (BitVec.ofNat 32 seq)) s
    let fail := exec (.pfresFail ctx (BitVec.ofNat 32 (seq + 2 ^ 16))) s
    let access : TrapInfo := { cls := 1, code := 21, addr := f.va, lane := f.lane, detail := 0#32, engine := false }
    seq < 2 ^ 16 →
    (find = none → retry = .next (s.setCtxErr ctx) ∧ fail = .next (s.setCtxErr ctx)) ∧
    (find = some f →
      (∀ p, (f.who = .team tid ord ∧ p = .team tid ord) ∨ (f.who = .lead tid ord ∧ p = .lead tid ord) → s.team? p = some t →
        (t.hold = .pageFault seq va →
          retry = .next (s1.setTeam p { t with hold := .none }) ∧
          fail = .next ((s1.setTeam p { t with hold := .none }).raiseTrap p t.pc access)) ∧
        (t.hold = .park kind eq va w →
          retry = .next (s1.setTeam p t) ∧ fail = .next ((s1.setTeam p t).raiseTrap p t.ipc access))) ∧
      (f.who = .engine core eng → (s.core core).faulted eng = some o →
        retry = .next (s1.modCore core (fun k => k.clearFault eng)) ∧
        let s2 := s1.modCore core (fun k => k.clearFault eng)
        fail = .next (s2.takeTrap (.team o.task o.ord) o.pc { access with engine := true, point := s2.opPoint o })) ∧
      (f.who = .frontEnd what n →
        retry = .next s1 ∧
        fail = .next ((s1.frontEndRecord ctx 1 21 f.va 0#32).modCtx ctx
          (fun k => { k with feFailed := (what, n, (k.faultSeq + 65535) % 65536) :: k.feFailed }))))

/-- R391 to R393, R403, R404: the stop that a hit has sent freezes, from 6 arithmetic clocks after it, the teams of its context on
the cluster, the hitting team's record first; a request freezes them without records; a release ends it. -/
def Obligations.StopsFreezeAndRelease : Prop :=
  ∀ (s : State) (cluster c : Nat) (h : Hit), cluster < 16 → c < 64 →
    let k := s.cluster cluster
    let xs := s.toFreeze cluster h.ctx
    let mine (x : Nat × Nat × Task × Team) : Bool := x.1 = h.task && x.2.1 = h.ord
    let s1 := s.setReg (rCLSTOP cluster) (BitVec.ofNat 64 (8 * c))
    (k.hit = some h → s.ac < h.since + 6 → exec (.clusterStop cluster) s = .next s) ∧
    (k.hit = some h → h.stopped = false → h.since + 6 ≤ s.ac → exec (.clusterStop cluster) s =
      .next (((xs.filter mine ++ xs.filter (fun x => !mine x)).foldl (fun s x => (s.watchRecord h x).stopTeam x) s).setCluster cluster
        { k with hit := some { h with stopped := true }, stops := h.ctx :: k.stops.erase h.ctx })) ∧
    (exec (.clstopReq cluster (BitVec.ofNat 32 (2 + 8 * c))) s =
      .next (((s.toFreeze cluster c).foldl State.stopTeam s1).modCluster cluster (fun k => { k with stops := c :: k.stops.erase c }))) ∧
    (exec (.clstopRel cluster (BitVec.ofNat 32 (4 + 8 * c))) s = .next (s1.release cluster c)) ∧
    (∀ tid ord t, s.team? (.team tid ord) = some t → t.freeze = .frozen →
      ∃ t', (s.unfreeze tid ord).team? (.team tid ord) = some t' ∧ t'.freeze = .no ∧ t'.pc = t.pc ∧ t'.hold = t.hold)

/-- R206, R207, R375, R410 to R412: go ends the chunks of the context's teams, saves them to their frames, stops starts and placement
and notes the time; done reads 1 while none of its cohorts is left, with its interrupt as it comes; a write with go 0 lets placement go
on; past the deadline, or on CTXRST, the context is reset by force; a reserved bit sets CSTAT.err. That go saves at once, and that a
later prologue's halt stays, are the model's choices (logs 12 and 25). -/
def Obligations.ContextsArePreemptedAndReset : Prop :=
  ∀ (s : State) (c since : Nat) (v : Word), c < 64 →
    let gone : State := ((s.cutCtx c).saveCtx c).setCreg c oPREEMPT 3
    (s.creg c oPREEMPT % 2 = 0 → exec (.preemptGo c 1#32) s =
      .next (((gone.modCtx c (fun k => { k with preemptSince := some s.time })).endHalted c false).checkDone c)) ∧
    (s.creg c oPREEMPT % 2 = 1 → exec (.preemptGo c 1#32) s = .next s) ∧
    (s.Quiet c → (∀ e ∈ s.tasks, e.2.ctx = c → s.task? e.1 = some e.2) → s.cutCtx c = s) ∧
    (s.ctxIdle c = true → s.cutCtx c = s ∧ s.saveCtx c = s) ∧
    ((s.ctx c).prologue = none → s.endHalted c false = s) ∧
    (∀ q, (s.ctx c).prologue = some q →
      (q.team.hold ≠ .halt → s.endHalted c false = s) ∧
      (q.team.hold = .halt → s.endHalted c false = (s.prologueRecord c q.team.pc).endPrologue c)) ∧
    ((s.ctx c).preemptSince = some since →
      (s.ctxIdle c = true → s.checkDone c = (s.modCtx c (fun k => { k with preemptSince := none })).raise c 2) ∧
      (s.ctxIdle c = false → s.checkDone c = s)) ∧
    (s.creg c oPREEMPT = 3 → s.readReg (ctxPage c oPREEMPT) 4 = if s.ctxIdle c then 3 else 1) ∧
    (s.creg c oPREEMPT = 2 → s.readReg (ctxPage c oPREEMPT) 4 = if s.ctxIdle c then 2 else 0) ∧
    (exec (.preemptResume c 0#32) s =
      .next ((s.setCreg c oPREEMPT 2).modCtx c (fun k => { k with preemptSince := none }))) ∧
    ((s.ctx c).preemptSince = some since → since + 100 * s.creg c oPDEAD ≤ s.time →
      exec (.preemptDeadline c) s = .next (s.forceReset c)) ∧
    ((s.ctx c).preemptSince = some since → s.time < since + 100 * s.creg c oPDEAD → exec (.preemptDeadline c) s = .next s) ∧
    (exec (.contextReset c 1#32) s = .next (s.forceReset c)) ∧
    (2 ≤ v.toNat → exec (.contextReset c v) s = .next (s.setCtxErr c)) ∧
    (∀ e ∈ (s.forceReset c).tasks, e.2.ctx ≠ c)

/-- R382 to R387, R421: a snapshot pauses a recorded context and, once its accesses are drained, is anchored; a replay starts from a
live anchor of its context, stops at its breakpoint and goes on from it. The frame list's form and the relaunch from a launch anchor
are the model's (logs 26 and 27). -/
def Obligations.SnapshotsAndReplays : Prop :=
  ∀ (s : State) (c number b : Nat) (frameList : Word64) (a : Anchor) (r : LogRec) (script : List LogRec), c < 64 → number < 2 ^ 32 →
    let now := (s.reg rSNAPREQ).toNat
    let tasks := s.tasks.filter (fun e => e.2.ctx = c && !e.2.finished)
    let go : Word64 := BitVec.ofNat 64 (1 + c * 2 ^ 4 + b * 2 ^ 2 + number * 2 ^ 32)
    let set (s : State) : State := s.setReg rRPCTL (BitVec.ofNat 64 (b * 2 ^ 2 + c * 2 ^ 4 + number * 2 ^ 32))
    (now / 2 ^ 8 % 4 = 0 → (s.ctx c).level.recording = true → exec (.snapshotTake (BitVec.ofNat 32 (c + 64))) s =
      .next ((s.setReg rSNAPREQ (BitVec.ofNat 64 (c + 512))).modCtx c (fun k => { k with snapPaused := true }))) ∧
    (now = c + 512 → s.snapCtx = c → s.drained c = true → frameList.toNat + 8 * tasks.length ≤ memorySize →
      let s0 := tasks.foldl (fun (s : State) (e : Nat × Task) =>
        if e.2.resident then
          (e.2.teams.foldl (fun s f => (s.cutChunk (.team e.1 f.1) 5).saveLive e.1 f.1) s).frameScratch e.2
        else s) s
      let frames := tasks.flatMap (fun e => toBytes 8 e.2.frame)
      let s1 := (State.flushCtx (s0.poke frameList.toNat frames) c).addAnchor c 1 frameList none
      exec (.snapshotAnchorDone frameList) s = .next ((State.setReg { s1 with log := { s1.log with
        snaps := AMap.set s1.log.snaps (s1.log.nextAnchor - 1) (s1.snapOf c) } } rSNAPREQ (BitVec.ofNat 64 (c + 256))).raise c 7)) ∧
    (now = c + 256 → (s.ctx c).snapPaused = true → exec (.snapshotResume (BitVec.ofNat 32 (c + 128))) s =
      .next ((s.setReg rSNAPREQ (BitVec.ofNat 64 c)).modCtx c (fun k => { k with snapPaused := false }))) ∧
    (b < 3 → s.replay.state ≠ 1 → s.replay.state ≠ 2 → s.shrunk = none →
      s.log.anchors.find? (fun a => a.number = number && a.ctx = c) = some a →
      s.scriptOf a = script → script ≠ [] →
      let s1 := match AMap.find s.log.snaps number with
        | some x => s.reinstate c x
        | none => s.relaunch a script
      let s1 := match AMap.find s1.log.sides number with
        | some x => s1.resetFlows c x false
        | none => s1
      exec (.replayGo go) s = .next (set { s1 with replay :=
        { state := 1, position := 0, script := script, ctx := c, anchor := number, passed := none } })) ∧
    (b < 3 → s.replay.state = 2 → s.replay.anchor = number → s.replay.ctx = c → (s.reg rRPCTL).toNat / 2 % 2 = 0 →
      exec (.replayGo go) s =
        .next (set { s with replay := { s.replay with state := 1, passed := s.breakRecord.map (·.stamp) } })) ∧
    (s.replay.state = 1 → s.breakRecord = some r → (∀ x ∈ s.replay.script, r.stamp ≤ x.stamp) → exec .replayBreakpoint s =
      .next (State.flushCtx { s with replay := { s.replay with state := 2 } } s.replay.ctx))

/-- R267 to R269, R452, R453: leases are renewed, lapse after 1,000 µs and take with them what used them; sibling regions merge
after 1 ms without a request; the lease clock's wrap stops issue, and once what is in flight has drained drops every lease. -/
def Obligations.LeasesRenewLapseAndMerge : Prop :=
  ∀ (s : State) (agent base size : Nat) (x y : Lease) (rest : List Lease),
    (∃ s' : State, exec (.leaseRenew agent) s = .next s' ∧ s'.mem = s.mem ∧
      ∀ i : Nat, s'.leases[i]? = (s.leases[i]?).map (fun (x : Lease) => if x.agent = agent then { x with renewed := s.time } else x)) ∧
    (s.leases.filter (fun (x : Lease) => x.agent = agent && decide (x.renewed + 100000 ≤ s.time)) = x :: rest →
      (4 ≤ agent → exec (.leaseExpiry agent) s = .next ((x :: rest).foldl State.lapseLease s)) ∧
      (agent < 4 → ∃ s' : State, exec (.leaseExpiry agent) s = .next s' ∧ s'.shrunk.isSome = true ∧
        ∀ c, c / 32 = agent → (s'.core c).retired = true)) ∧
    (s.leases = [x, y] → x.base = base → y.base = base + size / 2 → x.size = size / 2 → y.size = size / 2 → 256 ≤ size →
      size ≤ 65536 → size % 2 = 0 → base % size = 0 → x.agent = y.agent → x.owned = y.owned → x.granted + 100000 ≤ s.time →
      y.granted + 100000 ≤ s.time → exec (.regionMerge base size) s = .next { s with leases := [{ x with
        size := size, granted := min x.granted y.granted, renewed := min x.renewed y.renewed, lines := x.lines ++ y.lines }] }) ∧
    (s.wrapping = true → (s.inFlight = true → exec .leaseClockWrap s = .next s) ∧
      (s.inFlight = false → exec .leaseClockWrap s = .next { s.l1Drop (fun _ => true) with
        leases := [], dirty := [], leaseZero := s.time, wrapping := false })) ∧
    (s.wrapping = false → s.time < s.leaseZero + 2 ^ 32 * 100 → exec .leaseClockWrap s = .next s) ∧
    (s.wrapping = false → s.leaseZero + 2 ^ 32 * 100 ≤ s.time → (∀ c < 64, s.recording c = false) → (∀ e ∈ s.tasks, s.recording e.2.ctx = false) →
      exec .leaseClockWrap s = .next { s with wrapping := true })

/-- R272 to R274, R277 to R279, R323: an invalidation takes its entries out of every TLB at once, raises the generation and is
complete when no earlier request is under way; a sixteenth is refused; a bias flip and a replica mark hold their blocks until they
are done, the mark with its copy, and an unmarked range is dropped once what was in flight to it has arrived; a write to the text of
a running kernel lands when no grid of it runs. -/
def Obligations.InvalidationsBiasAndReplicas : Prop :=
  ∀ (s : State) (v : Word64) (x : Inval) (rest : List Inval) (n : Nat) (ctx : Nat) (code : Word64) (k : Kernel),
    let op := v.toNat % 8
    let lo := (s.reg (rRPLPRI n)).toNat / 2 ^ 16 * 2 ^ 16
    let dst := (s.reg (rRPLSEC n)).toNat / 2 ^ 16 * 2 ^ 16
    let size := 2 ^ ((s.reg (rRPLPRI n)).toNat / 4 % 2 ^ 6) * 2 ^ 16
    let event : Nat → Option Instr := fun op => match op with
      | 0 => some (.tinvContext v)
      | 1 => some (.tinvPage v)
      | 2 => some (.tinvAll v)
      | 3 => some (.tinvGstage v)
      | _ => none
    (∀ i, event op = some i → v.toNat / 8 % 8 = 0 →
      (s.invals.length < 15 → ∃ s', exec i s = .next s' ∧ s'.transGen = (s.transGen + 1) % 16 ∧ s'.mem = s.mem ∧
        s'.invals = s.invals ++ [{ op := op, ctx := v.toNat / 2 ^ 6 % 2 ^ 6, page := v.toNat / 4096 * 4096
                                   gen := (s.transGen + 1) % 16, waits := s.underWay }] ∧
        ∀ c, (s'.core c).tlb = (s.core c).tlb.filter (fun e => !e.covered v.toNat) ∧
          (s'.cluster c).tlb = (s.cluster c).tlb.filter (fun e => !e.covered v.toNat)) ∧
      (15 ≤ s.invals.length → exec i s = .next { s with tinvFull := true })) ∧
    (s.invals = x :: rest → (∀ w ∈ x.waits, s.isUnderWay w = false) → x.op ≠ 2 →
      exec .invalidationComplete s = .next (State.raise { s with invals := rest } x.ctx 3)) ∧
    (v.toNat / 4 % 2 ^ 14 = 0 → (s.reg rBFLIP).toNat % 2 = 0 → exec (.biasFlip v) s = .next (s.setReg rBFLIP v)) ∧
    ((s.reg rBFLIP).toNat % 4 = 3 → ∃ s', exec .biasFlipDone s = .next s' ∧
      AMap.get false s'.bias ((s.reg rBFLIP).toNat / 2 ^ 16) = true ∧
      ((∀ e ∈ s.ctxs, e.2.heldFaults = [] ∧ e.2.heldSvc = []) → s'.mem = s.mem) ∧
      ∀ d ∈ s'.dirty, d ∈ s.dirty ∧ d.addr / 2 ^ 16 ≠ (s.reg rBFLIP).toNat / 2 ^ 16) ∧
    (n < 256 → v.toNat % 2 = 1 → (s.reg (rRPLPRI n)).toNat % 4 = 0 → s.markOk n v.toNat = true → exec (.replicaMark n v) s =
      .next (s.setReg (rRPLPRI n) (BitVec.ofNat 64 (v.toNat / 2 ^ 16 * 2 ^ 16 + v.toNat / 4 % 2 ^ 6 * 4 + 2)))) ∧
    (n < 256 → v.toNat % 2 = 0 → (s.reg (rRPLPRI n)).toNat % 4 = 1 → v.toNat / 2 ^ 8 % 2 ^ 8 = 0 →
      exec (.replicaUnmark n v) s = .next { s.setReg (rRPLPRI n) (s.reg (rRPLPRI n) + 2#64) with
        unmarks := AMap.put [] s.unmarks n (s.underWayTo lo size) }) ∧
    (n < 256 → (s.reg (rRPLPRI n)).toNat % 4 = 3 → let waits := AMap.get [] s.unmarks n
      ((∃ w ∈ waits, s.isUnderWay w = true) → exec (.replicaBusyClear n) s = .next s) ∧
      ((∀ w ∈ waits, s.isUnderWay w = false) → exec (.replicaBusyClear n) s =
        .next { s.setReg (rRPLPRI n) (s.reg (rRPLPRI n) - 3#64) with unmarks := AMap.put [] s.unmarks n [] })) ∧
    (n < 256 → (s.reg (rRPLPRI n)).toNat % 4 = 2 → (∀ e ∈ s.ctxs, e.2.heldFaults = [] ∧ e.2.heldSvc = []) →
      ∃ s', exec (.replicaBusyClear n) s = .next s' ∧ s'.reg (rRPLPRI n) = s.reg (rRPLPRI n) - 1#64 ∧
        s'.mem = copyRange s.mem lo dst size) ∧
    (s.kernels.find? (fun k => k.ctx = ctx && k.code = code) = some k → k.writes ≠ [] → s.kernelRuns k = false →
      exec (.codeGenerationRaise ctx code) s = .next (k.writes.foldl (fun s w => s.outsideWrite w.1 w.2)
        { s with kernels := s.kernels.map (fun q => if q = k then { q with writes := [] } else q) }))

/-- R273, R379, R431, R432, R439, R440, R449, R450: the five reads that clear return the register as it stood; an accepted write of
a plain register is stored and any other sets its page's error bit; a log ring starts anew at its new place with its header written,
and a power limit is judged at once and taken by the leader; a ring's tail lets waiting records follow. -/
def Obligations.RegistersAreReadAndWritten : Prop :=
  ∀ (s : State) (c off width : Nat) (v : Word64) (w : Word),
    let stored := s.setReg off (BitVec.ofNat 64 (keptBits (s.reg off).toNat off (v.toNat % 2 ^ (8 * width))))
    (exec .tinvsRead s = .next { s with readData := some (toBytes 4 s.tinvs), tinvFull := false, tinvErr := false }) ∧
    (exec .lapseRead s = .next { s with readData := some (toBytes 8 s.lapseWord), lapse := s.lapse.drop 1 }) ∧
    (exec .dstatRead s = .next { s with readData := some (toBytes 4 s.dstat), devErr := false }) ∧
    (c < 64 → exec (.cstatRead c) s = .next (State.modCtx { s with readData := some (toBytes 4 (s.cstat c)) } c
      (fun k => { k with chbrk := false, err := false }))) ∧
    (c < 64 → exec (.mbstatRead c) s = .next (State.modCtx { s with readData := some (toBytes 8 (s.mbstat c)) } c
      (fun k => { k with subRej := false }))) ∧
    (regWidth off = some width → ownEvent s off (v.toNat % 2 ^ (8 * width)) = false →
      (s.accepts off (v.toNat % 2 ^ (8 * width)) = true → off ≠ rLRBASE → off ≠ rLRSIZE → off ≠ rPWRLIM →
        exec (.registerWrite off width v) s =
          .next stored) ∧
      (s.accepts off (v.toNat % 2 ^ (8 * width)) = true → off = rLRBASE ∨ off = rLRSIZE →
        exec (.registerWrite off width v) s = .next (State.writeLogHeader { stored with log := { stored.log with
          head := 0, tail := 0, anchors := [], held := [], snaps := [], sides := [] } })) ∧
      (s.accepts off (v.toNat % 2 ^ (8 * width)) = true → off = rPWRLIM → exec (.registerWrite off width v) s =
        .next (State.crossing (State.judgePower (match s.leading with
          | some d => stored.modSteward d (fun x => { x with spwl := BitVec.ofNat 32 (v.toNat % 2 ^ (8 * width)) })
          | none => stored)))) ∧
      (s.accepts off (v.toNat % 2 ^ (8 * width)) = false →
        exec (.registerWrite off width v) s = .next (s.pageErr off (v.toNat % 2 ^ (8 * width))))) ∧
    (regWidth off ≠ some width → exec (.registerWrite off width v) s = .next (s.pageErr off (v.toNat % 2 ^ (8 * width)))) ∧
    (exec (.frtailWrite c w) s = .next ((s.setCreg c oFRTAIL w.toNat).drainFaults c (s.ctx c).heldFaults.length)) ∧
    (exec (.srtailWrite c w) s = .next ((s.setCreg c oSRTAIL w.toNat).drainSvc c (s.ctx c).heldSvc.length)) ∧
    ((s.ctx c).heldFaults = [] → (s.setCreg c oFRTAIL w.toNat).drainFaults c (s.ctx c).heldFaults.length =
      s.setCreg c oFRTAIL w.toNat)

/-- R157, R425 to R428: a message is put into its bound mailbox in its flow's order, a later one is held and a second copy
discarded; bindings and routes take their values, a valid route in a new epoch. -/
def Obligations.MessagesArriveInOrder : Prop :=
  ∀ (s : State) (mbox dev srcCtx epoch seq c e port : Nat) (body : List Byte) (v : Word),
    let own := (s.reg rMDEVNO).toNat
    let m : Message :=
      { mbox := mbox, srcDev := dev, srcCtx := srcCtx, dstDev := own, epoch := epoch, seq := seq, body := body, grid := 0 }
    let arrival := exec (.messageArrival mbox dev srcCtx epoch seq body) s
    (own ≠ 0xFFFF → dev ≠ own → epoch < 256 → body.length = 64 → s.boundTo mbox = some c → s.replaying c = false →
      s.recording c = false →
      (seq < s.flowNext m → arrival = .next s) ∧
      (s.flowNext m < seq → (∀ x ∈ s.arrivals, x.same m = false) → arrival = .next { s with arrivals := s.arrivals ++ [m] }) ∧
      (seq = s.flowNext m → s.arrivals = [] → (AMap.get [] s.mailboxes mbox).length < 32 → ∃ s', arrival = .next s' ∧
        AMap.get [] s'.mailboxes mbox = AMap.get [] s.mailboxes mbox ++ [m] ∧ s'.flowNext m = seq + 1 ∧ s'.mem = s.mem)) ∧
    (mbox < 256 → v.toNat < 2 ^ 7 → AMap.get [] s.mailboxes mbox = [] → s.arrivals = [] →
      exec (.mailboxBind mbox v) s = .next (s.setReg (rMBXBIND mbox) (v.setWidth 64))) ∧
    (e < 64 → v.toNat < 2 ^ 17 → v.toNat / 2 ^ 16 % 2 = 1 → exec (.routeEntryWrite c e v) s =
      .next ((s.setCreg c (oMRT e) v.toNat).modCtx c (fun k => { k with
        routeEpoch := AMap.put 0 k.routeEpoch e ((AMap.get 0 k.routeEpoch e + 1) % 256)
        flowSeq := k.flowSeq.filter (fun x => x.1 / 256 ≠ v.toNat % 2 ^ 16) }))) ∧
    (port < 16 → exec (.meridianLinkLoss port) s = .next { s with ports := AMap.set s.ports port false })

/-- R430, R442: the leader renews its lease or loses it to the lowest steward with a recent heartbeat, in a new epoch; it acts on the
entries of a context's request queue in order, and answers each once it has acted on it: the result, then the status, then the MSI and
the next entry; an answer still to be written comes before anything else. -/
def Obligations.TheLeaderServesRequests : Prop :=
  ∀ (s s1 s2 : State) (ctx die d g w n since : Nat) (members : List (Nat × Nat)) (x : Group) (r : StepReq),
    let live := (span 0 6).filter (fun d => match (s.steward d).beat with
      | some t => decide (s.time < t + 1000000)
      | none => false)
    let put (s : State) (o : Option Nat) : State :=
      s.modCtx ctx (fun k => { k with groups := AMap.set k.groups g { members := members, opening := o } })
    let close (s : State) : State := s.modCtx ctx (fun k => { k with groups := AMap.erase k.groups g })
    let clear (s : State) : State := s.modCtx ctx (fun k => { k with stepReq := none })
    let at_ := s.creg ctx oSQBASE + 64 * (s.creg ctx oSQHEAD % 2 ^ (s.creg ctx oSQCTL % 2 ^ 5))
    let onward (s : State) : State :=
      (s.setCreg ctx oSQHEAD ((s.creg ctx oSQHEAD + 1) % 2 ^ 32)).modCtx ctx (fun k => { k with answer := none })
    (s.fePut ctx 5 (s.creg ctx oSQHEAD) (at_ + 0x20) (toBytes 8 w) = (s1, .ok true) →
      (s1.fePut ctx 5 (s.creg ctx oSQHEAD) (at_ + 1) (toBytes 1 n) = (s2, .ok true) →
        s.writeAnswer ctx n w = onward (s2.raise ctx 8)) ∧
      (s1.fePut ctx 5 (s.creg ctx oSQHEAD) (at_ + 1) (toBytes 1 n) = (s2, .held) → s.writeAnswer ctx n w = s2) ∧
      (s1.fePut ctx 5 (s.creg ctx oSQHEAD) (at_ + 1) (toBytes 1 n) = (s2, .denied) → s.writeAnswer ctx n w = onward s2)) ∧
    (s.fePut ctx 5 (s.creg ctx oSQHEAD) (at_ + 0x20) (toBytes 8 w) = (s1, .held) → s.writeAnswer ctx n w = s1) ∧
    (s.fePut ctx 5 (s.creg ctx oSQHEAD) (at_ + 0x20) (toBytes 8 w) = (s1, .denied) → s.writeAnswer ctx n w = onward s1) ∧
    (∀ act : State → State, s.finishRequest ctx n w act =
      State.writeAnswer ((act s).modCtx ctx (fun k => { k with answer := some (n, w) })) ctx n w) ∧
    (s.requestWaits ctx = true → (s.ctx ctx).answer = some (n, w) → ∀ i ∈ [Instr.openCollectiveGroup ctx, .closeCollectiveGroup ctx,
      .stepTeamRequest ctx, .stewardRequestReject ctx, .groupOpenTimeout ctx], exec i s = .next (s.writeAnswer ctx n w)) ∧
    (die < 6 → s.leader.die ≠ some die →
      exec (.followerHeartbeat die) s = .next (s.modSteward die (fun x => { x with beat := some s.time }))) ∧
    (s.leader.die = some d → s.time < s.leader.renewed + 1000000 → exec .leaderLeaseRenew s = .next (State.judgePower (State.modSteward
      { s with leader := { s.leader with renewed := s.time } } d (fun x => { x with spwl := (s.reg rPWRLIM).setWidth 32 })))) ∧
    (s.leader.die = none ∨ s.leader.renewed + 1000000 ≤ s.time →
      (live = [] → exec .leaderLeaseLapse s = .next { s with leader := { s.leader with die := none } }) ∧
      (∀ rest, live = d :: rest → exec .leaderLeaseLapse s = .next (State.judgePower (State.modSteward
        { s with leader := { die := some d, epoch := s.leader.epoch + 1, renewed := s.time } } d
        (fun x => { x with epoch := s.leader.epoch + 1, spwl := (s.reg rPWRLIM).setWidth 32 }))))) ∧
    (s.requestWaits ctx = true → (s.ctx ctx).answer = none →
      (s.readRequest ctx = (s1, some (.openGroup g members)) →
        ((∀ m ∈ members, m.1 = (s1.reg rMDEVNO).toNat) →
          exec (.openCollectiveGroup ctx) s = .next (s1.finishRequest ctx 1 0 (fun s => put s none))) ∧
        ((∃ m ∈ members, m.1 ≠ (s1.reg rMDEVNO).toNat) → AMap.find (s1.ctx ctx).groups g = none →
          exec (.openCollectiveGroup ctx) s = .next (put s1 (some s1.time)))) ∧
      (s.readRequest ctx = (s1, some (.closeGroup g)) → s1.collOut ctx g = false →
        exec (.closeCollectiveGroup ctx) s = .next (s1.finishRequest ctx 1 0 close)) ∧
      ((s.ctx ctx).stepReq = none → s.readRequest ctx = (s1, some (.stepTeam w)) →
        let b := s1.beginStep w
        let req : StepReq := { task := b.2.2.1, ord := b.2.2.2, since := s1.time, status := b.2.1 }
        exec (.stepTeamRequest ctx) s = .next (b.1.modCtx ctx (fun k => { k with stepReq := some req }))) ∧
      ((s.ctx ctx).stepReq = some r → r.status = some n →
        exec (.stepTeamRequest ctx) s = .next (s.finishRequest ctx 1 n clear)) ∧
      ((s.ctx ctx).stepReq = none → s.readRequest ctx = (s1, some .bad) →
        exec (.stewardRequestReject ctx) s = .next (s1.finishRequest ctx 2 0 id)) ∧
      ((s.ctx ctx).groups.find? (fun e => e.2.opening.isSome) = some (g, x) → x.opening = some since →
        since + 1000000 ≤ s.time → exec (.groupOpenTimeout ctx) s = .next (s.finishRequest ctx 3 0 close)))

/-- R369, R436, R449 to R453: the clocks step by 25 MHz and 50 MHz, not below 25 MHz (the floor is the model's, log 30), while the
power is above its limit, or with a level-2 context
resident its shares are halved; above spwl level-2 tasks stop in their place; the clocks come back below 95 %; a core past its
threshold takes no new cohort and then a spare; a slice or a stack past its threshold is in error and asks for its die. -/
def Obligations.PowerClocksAndSpares : Prop :=
  ∀ (s : State) (w : BitVec 12) (t u die phys core kind n : Nat),
    let p := s.power
    let lim := (s.reg rPWRLIM).toNat
    let q := (State.judgePower { s with power := { p with now := w.toNat } }).crossing
    let steps (p : Power) : Power := if p.arith ≤ 25 then p else { p with arith := p.arith - 25, uncore := p.uncore - 50 }
    let stopped := s.stopLocked w.toNat
    let unit := s.setUnit kind n { s.unit kind n with error := true }
    let home := if kind = 2 then 4 + n / 64 else 4 + n / 6
    let part : DiePart := if kind = 2 then .slice n else .stack n
    let req := (s.reg rREPLREQ).toNat
    (q.power.now = w.toNat ∧ q.power.above = (if lim < w.toNat then some (p.above.getD s.time) else none) ∧
      q.power.below = (if w.toNat * 100 ≤ lim * 95 then some (p.below.getD s.time) else none) ∧
      q.power.overSpwl = (if s.spwl < w.toNat then some (p.overSpwl.getD s.time) else none)) ∧
    (w.toNat ≤ lim → w.toNat ≤ s.spwl → exec (.powerLimitExceeded w) s = .next q) ∧
    (p.above = some t → t + 100000 ≤ s.time → lim < w.toNat →
      (s.locked2 = false → exec (.powerLimitExceeded w) s =
        .next { q with power := steps { q.power with above := some s.time } }) ∧
      (s.locked2 = true → p.overSpwl = some u → s.spwl < w.toNat →
        let halved : State := { q with power := { q.power with above := some s.time, halved := p.halved + 1 } }
        (s.time < u + 100000 → exec (.powerLimitExceeded w) s = .next halved) ∧
        (u + 100000 ≤ s.time → exec (.powerLimitExceeded w) s = .next (State.stopLocked
          { halved with power := { halved.power with overSpwl := some s.time } } w.toNat)))) ∧
    (p.above = some t → t + 100000 ≤ s.time → s.locked2 = false → exec (.clockStep false) s =
      .next { s with power := steps { p with above := some s.time } }) ∧
    (p.below = some t → t + 100000 ≤ s.time → ∃ s', exec (.clockStep true) s = .next s' ∧
      s'.power.arith = min 600 (p.arith + 25) ∧ s'.power.uncore = min 1200 (p.uncore + 50) ∧ s'.power.halved = p.halved - 1 ∧
      s'.power.below = some s.time) ∧
    (2800 < w.toNat → die < 6 → exec (.powerMonitorTrip die w) s =
      .next { stopped with power := { steps stopped.power with monitor := true } }) ∧
    (s.locked2 = false → stopped = s) ∧
    (∃ s', exec (.pwrnowCrossedPwrlim w) s = .next s' ∧ s'.power.now = w.toNat ∧ s'.power.crossed = decide (lim < w.toNat) ∧
      (p.crossed = decide (lim < w.toNat) → s'.msis = s.msis) ∧
      (p.crossed ≠ decide (lim < w.toNat) → s'.msis.length = s.msis.length + 1)) ∧
    (phys < 136 → ∃ s', exec (.coreRetire phys) s = .next s' ∧ (s'.unit 1 phys).error = true ∧
      ∀ c < 128, (s.core c).phys = phys → (s.core c).retired = false → (s'.core c).retiring = true) ∧
    (core < 128 → (s.core core).retiring = true → (∀ e ∈ s.tasks, e.2.core = core → e.2.resident = false ∨ e.2.finished = true) → 0 < (s.steward (core / 32)).spare →
      exec (.spareRemap core) s = .next ((s.modCore core (fun k => { k with
        phys := core / 32 * 34 + 34 - (s.steward (core / 32)).spare, retiring := false })).modSteward (core / 32)
        (fun x => { x with spare := x.spare - 1 }))) ∧
    (core < 128 → (s.core core).retiring = true → (∀ e ∈ s.tasks, e.2.core = core → e.2.resident = false ∨ e.2.finished = true) → (s.steward (core / 32)).spare = 0 →
      ∃ s', exec (.spareRemap core) s = .next s' ∧ (s'.core core).retired = true ∧ (s'.unit 0 core).present = false) ∧
    ((kind = 2 ∧ n < 128) ∨ (kind = 3 ∧ n < 12) →
      (req / 2 ^ home % 2 = 0 → exec (.replaceRequested part) s =
        .next ((unit.setReg rREPLREQ (BitVec.ofNat 64 (req ||| 2 ^ home))).raiseDevice 1)) ∧
      (req / 2 ^ home % 2 = 1 → exec (.replaceRequested part) s = .next unit))

/-- R225, R266, R278, R443 to R447: application cores write committed memory, and peers what the IOMMU lets them reach, and read it;
the IOMMU hands a peer's access through while its directory is bare, and reports one to its fault queue while it is off (its form is
the RISC-V IOMMU's, PRESUMED in log 48); a notify write is stored at once, or captured while its aperture is gated; a reset leaves the reset state, up when its image verifies. -/
def Obligations.OutsideWritesAndReads : Prop :=
  ∀ (s s1 : State) (addr n c port agent : Nat) (data : List Byte) (v : Word) (x : Latched) (rest : List Latched) (pas : List Nat)
    (flash ed mld write : Bool),
    (s.peerUp = true → s.peerAccess addr data.length true = .ok pas → (∀ a ∈ pas, s.locHeld none (.glob a) 1 = false) →
      s.kernels = [] → s.sigs = [] → s.replicas = [] → ∃ s', exec (.peerWrite addr data) s = .next s' ∧
        s'.mem = (pas.zip data).foldl (fun m e => writeByte m e.1 e.2) s.mem) ∧
    (s.peerUp = true → s.peerAccess addr n false = .ok pas → (∀ a ∈ pas, s.regionBusy a 1 = false) →
      ∃ s', exec (.peerRead addr n) s = .next s' ∧ s'.readData = some (pas.map (readByte s.mem)) ∧ s'.mem = s.mem) ∧
    (s.peerUp = true →
      (s.peerAccess addr data.length true = .error s1 → exec (.peerWrite addr data) s = .next s1) ∧
      (s.peerAccess addr n false = .error s1 → exec (.peerRead addr n) s = .next s1)) ∧
    (s.peerUp = false → exec (.peerWrite addr data) s = .next s ∧ exec (.peerRead addr n) s = .next s) ∧
    ((∀ p < 4, s.io64 p ioDDTP % 16 = 1) → s.reachable addr n = true →
      s.peerAccess addr n write = .ok ((List.range n).map (fun i => addr + i))) ∧
    ((∀ p < 4, s.io64 p ioDDTP % 16 = 0) → 0 < n → ∃ p < 4, ∃ did, s.peerAccess addr n write = .error (s.ioFault p did 256 addr write)) ∧
    (port < 4 → s.io port ioFQCSR / 2 ^ 16 % 2 = 0 → s.ioFault port c n addr write = s) ∧
    (agent < 2 → s.reachable addr data.length = true → s.locHeld none (.glob addr) data.length = false →
      s.kernels = [] → s.sigs = [] → s.replicas = [] → ∃ s', exec (.appCoreStore agent addr data) s = .next s' ∧
        s'.mem = writeBytes s.mem addr data) ∧
    (port < 4 → exec (.pcieLinkTrain port ed) s = .next { s with pcie := AMap.set s.pcie port ed }) ∧
    (n < 64 → c < 64 → s.gated = false → s.latch = [] → exec (.notifyWrite c n v) s = .next (s.modCtx c (fun k => { k with
      notify := AMap.put 0#32 k.notify n v, prologue := k.prologue.map (fun q => { q with woken := true }) }))) ∧
    (n < 64 → c < 64 → s.gated = true ∨ s.latch ≠ [] → s.latch.length < 64 →
      exec (.notifyWrite c n v) s = .next { s with latch := s.latch ++ [{ ctx := c, n := n, value := v }] }) ∧
    (s.latch = x :: rest → exec .notifyLatchDeliver s = .next (State.modCtx { s with latch := rest, gated := false } x.ctx
      (fun k => { k with notify := AMap.put 0#32 k.notify x.n x.value, prologue := k.prologue.map (fun q => { q with woken := true }) }))) ∧
    (s.parksNotify = false → s.latch = [] → exec .notifyApertureGate s = .next { s with gated := true }) ∧
    (exec (.deviceReset flash ed mld) s = .next { State.reset with
      agenda := s.agenda, tick := s.tick
      boot := { up := flash && ed && mld, ed := flash && ed, mld := flash && mld, recovered := false
                recovery := !(flash && ed && mld) } }) ∧
    (s.boot.recovery = true → exec (.recoveryImageLoad ed mld) s = .next { s with boot :=
      { up := ed && mld, ed := ed, mld := mld, recovered := ed && mld, recovery := !(ed && mld) } })

/-! ## The machine as a whole -/

/-- R48, R130, R139, R201, R351: what every word does before its own effect. A word that no party issues is refused; a held stream
issues nothing; the first check that fails is the word's one trap, with the word as its detail; a prologue's 257th word fails; a
word waits for its registers and its counter; and a word that an open transaction does not allow takes TX_MISUSE. R29, R37, R51,
R176, R177: which stream may issue which word, and with which sequencing codes. -/
def Obligations.EveryWordIsCheckedBeforeItActs : Prop :=
  (∀ (s : State) (p : Party) (t : Team) (i : Instr), i.isWord = true →
     let traps (code : Nat) : Prop :=
       exec i s = .next ((s.setTeam p t.released').raiseTrap p t.pc (trapOf code 0#64 (encode i).toNat))
     (s.cur = none → exec i s = .refused .noIssuer) ∧
     (s.cur = some p → s.team? p = some t →
       (s.canIssue p t = false → Waits i s) ∧
       (s.canIssue p t = true →
         (i.selects = false ∨ streamOk t.stream i = false ∨ codesListed t.stream i = false → traps 16) ∧
         (∀ h, i.hdr? = some h → i.selects = true → streamOk t.stream i = true → codesListed t.stream i = true →
           (seqAllowed t.stream h.seq.toNat = false → traps 17) ∧
           (seqAllowed t.stream h.seq.toNat = true → regsOk t.single1 t.budget (uses (mdType t.md) i) = false → traps 19) ∧
           (seqAllowed t.stream h.seq.toNat = true → regsOk t.single1 t.budget (uses (mdType t.md) i) = true →
             modeOk t.md t.tw i = false → traps 18)) ∧
         (failedCheck i t = none →
           (s.prologueSpent p = true → traps 16) ∧
           (s.prologueSpent p = false → unfilled i t = true ∨ interlocked i t = true ∨ counterFull i t = true → Waits i s) ∧
           (s.prologueSpent p = false → unfilled i t = false → interlocked i t = false → counterFull i t = false →
             txMisuse i t = true → traps 28))))) ∧
  (∀ (st : Stream) (h : Hdr) (d x y : BitVec 7) (k : BitVec 5) (n : BitVec 7) (c : Nat) (u : RegUse) (budget : Nat),
     (streamOk st (.csrr h k n) = true ↔ st = .prologue ∨ st = .steward) ∧
     (streamOk st (.halt h) = true ↔ st = .prologue ∨ st = .steward) ∧
     (streamOk st (.qpushVal h k) = true ↔ st = .lead) ∧ (streamOk st (.tcopy h d 0#1) = true ↔ st = .kernel) ∧
     (streamOk st (.ldB8 h d x) = true ↔ st = .kernel ∨ st = .steward) ∧ (streamOk st (.ldkB32 h d x) = true ↔ st ≠ .lead) ∧
     streamOk st (.iadd h d x y) = true ∧
     (codesListed st (.csrr h k n) = true ↔
       (st = .prologue ∧ n.toNat ≤ 6) ∨ (st = .steward ∧ 0x40 ≤ n.toNat ∧ n.toNat ≤ 0x44)) ∧
     (st = .lead ∨ st = .prologue → (seqAllowed st c = true ↔ c ∈ [0, 3, 4, 5, 8, 12])) ∧
     (st = .kernel → (seqAllowed st c = true ↔ c ≤ 13)) ∧
     (u.spec < 128 → (regOk true budget u = true ↔ 96 ≤ u.spec ∧ u.need ≠ .lane ∧ (u.pair = true → u.spec % 2 = 0))))

/-- R25: the effect of each sequencing code on the stream that the instruction's own effect has left, the traps of split, join,
call, return, loop and end, ILLEGAL_SEQ for codes 14 and 15, and the release of an ended team's slot. -/
def Obligations.SequencingFollowsItsCode : Prop :=
  ∀ (s : State) (tid ord : Nat) (t : Team) (op : Option Nat) (dbg : Bool) (taken : LaneMask) (st : Stream),
    let act (code : Nat) := seqAct code op dbg t
    let on (u : Team) : Except SeqTrap Team := .ok { u with pc := t.pc + 4#64 }
    let jump (u : Team) (a : Word64) : Except SeqTrap Team :=
      if a.toNat % 4 = 0 then .ok { u with pc := a } else .error { code := 20, addr := a, detail := 0 }
    let splits (code : Nat) : Prop :=
      (30 < t.div.length → act code = .error { code := 23, addr := 0#64, detail := t.div.length }) ∧
      (t.div.length ≤ 30 →
        act code = if taken = 0#1024
          then on { t with div := [.pending t.j0 0#1024, .rejoin t.mask] ++ t.div }
          else jump { t with div := [.pending (t.pc + 4#64) (t.mask &&& ~~~ taken), .rejoin t.mask] ++ t.div, mask := taken } t.j0)
    act 0 = on t ∧
    ((∀ l, l < 1024 → taken.getLsbD l = (t.mask.getLsbD l && t.predAt (mdBp t.md) l)) → splits 1) ∧
    ((∀ l, l < 1024 → taken.getLsbD l = (t.mask.getLsbD l && !t.predAt (mdBp t.md) l)) → splits 2) ∧
    act 3 = (if t.bpAny then jump t t.j0 else on t) ∧
    act 4 = jump t t.j0 ∧
    act 5 = jump t t.j1 ∧
    act 6 = (if 8 ≤ t.calls.length then .error { code := 24, addr := 0#64, detail := t.calls.length }
      else jump { t with calls := { ret := t.pc + 4#64, divDepth := t.div.length, loopDepth := t.loops.length } :: t.calls } t.j1) ∧
    (t.calls = [] → act 7 = .error { code := 24, addr := 0#64, detail := 0 }) ∧
    (∀ e rest, t.calls = e :: rest → act 7 =
      if e.divDepth ≠ t.div.length then .error { code := 23, addr := 0#64, detail := t.div.length }
      else if e.loopDepth ≠ t.loops.length then .error { code := 25, addr := 0#64, detail := t.loops.length }
      else jump { t with calls := rest } e.ret) ∧
    (t.loops = [] → act 8 = .error { code := 25, addr := 0#64, detail := 0 }) ∧
    (∀ e rest, t.loops = e :: rest → act 8 =
      if 1 < e.lc.toNat then jump { t with loops := { lc := e.lc - 1#32, lh := e.lh } :: rest } e.lh
      else on { t with loops := rest }) ∧
    (t.div = [] → act 9 = .error { code := 23, addr := 0#64, detail := 0 }) ∧
    (∀ m rest, t.div = .rejoin m :: rest → act 9 = on { t with div := rest, mask := m }) ∧
    (∀ pc m rest, t.div = .pending pc m :: rest → m ≠ 0#1024 → act 9 = jump { t with div := rest, mask := m } pc) ∧
    (∀ pc m rest, t.div = .pending pc 0#1024 :: .rejoin m :: rest → act 9 = on { t with div := rest, mask := m }) ∧
    (let y : Yield := match op with
       | some n => .onOp n
       | none => .onTurn false
     act 10 = jump { t with yld := y } t.j0 ∧ act 11 = on { t with yld := y }) ∧
    act 12 = (if t.div = [] then on { t with ended := true }
      else .error { code := 23, addr := 0#64, detail := t.div.length }) ∧
    act 13 = on { t with brk := dbg } ∧
    seqAllowed st 14 = false ∧ seqAllowed st 15 = false ∧
    (let p := Party.team tid ord
     s.team? p = some t → t.hold = .none → t.freeze = .no →
      (t.brk = true → t.ended = false → s.replaying (s.ctxOf p) = false →
        s.settle p = (s.setTeam p { t with brk := false }).takeTrap p t.ipc
          { cls := 2, code := 49, addr := 0#64, lane := 0xFFFF, detail := 0#32, engine := false }) ∧
      (t.ended = true → t.released = false →
        (t.pend = [] → exec (.teamSlotRelease tid ord) s = .next ((s.setTeam p { t with released := true }).teamEnded p)) ∧
        (t.pend ≠ [] → exec (.teamSlotRelease tid ord) s = .next s)) ∧
      (t.ended = true → s.canIssue p t = false)) ∧
    (∀ i h, Instr.hdr? i = some h → 14 ≤ h.seq.toNat → i.selects = true → streamOk t.stream i = true →
      codesListed t.stream i = true → failedCheck i t = some 17)

/-- R20, R69, R129: a word that changes only its own stream leaves every other stream, all memory and every other part of the state
as they were; of its own stream only what the word writes and what sequencing moves. -/
def Obligations.WordsLeaveTheRestOfTheMachine : Prop :=
  ∀ (s : State) (p q : Party) (t u v : Team) (i : Instr) (h : Hdr) (a : Nat),
    s.team? p = some t → CompletesAs i h s p u →
    seqAct h.seq.toNat none ((s.countIssue p).breaks p) u = .ok v → v.hold = .none → v.Plain →
    ∃ s', exec i s = .next s' ∧ s'.team? p = some v ∧ (q ≠ p → s'.team? q = s.team? q) ∧
      readByte s'.mem a = readByte s.mem a ∧ { s' with tasks := s.tasks, ctxs := s.ctxs, stewards := s.stewards } = s ∧
      (∀ n, (s'.task? n).map (fun k => { k with teams := [], leads := [] }) =
        (s.task? n).map (fun k => { k with teams := [], leads := [] })) ∧
      (∀ c, { s'.ctx c with prologue := none } = { s.ctx c with prologue := none }) ∧
      ∀ d, { s'.steward d with team := v } = { s.steward d with team := v }

/-- R182, R183, R404, R406, R408: taking a trap. Its record, with the trap's class, code, address, lane, detail and pc, is queued
for the context's fault ring. A recoverable trap then suspends the stream until it is answered, a failing one fails its task, and a
debug trap freezes the team; the chunk ends, just before the instruction that trapped (R378). -/
def Obligations.TrapsAreTakenByTheirClass : Prop :=
  ∀ (s : State) (tid ord : Nat) (k : Task) (t : Team) (pc : Word64) (tr : TrapInfo) (n : Nat),
    s.task? tid = some k → AMap.find k.teams ord = some t → s.Quiet k.ctx → s.plateOf k = none →
    let p := Party.team tid ord
    let seq := (s.ctx k.ctx).faultSeq
    let first := tr.cls = 1 ∧ s.failingGang k = false
    let r : FaultRec :=
      { cls := tr.cls, code := tr.code, ctx := k.ctx
        flags := (if first then 1 else 0) + (if tr.engine then 2 else 0) + (if first ∧ s.wouldRetry k = true then 32 else 0)
        task := tid, team := teamField k.core t.partition t.slot, plate := pc, src := pc, addr := tr.addr, iter := 0xFFFFFFFF#32
        commit := k.commits % 2 ^ 32, lane := tr.lane, detail := tr.detail, time := s.time, cohort := k.index
        retries := k.retries }
    let point := match tr.point with
      | some n => max t.chunk.last (n - 1)
      | none => t.retired
    let cut : Team := { t with chunk := { last := point, begun := point } }
    let s1 := s.setTeam p cut
    (tr.cls = 0 → s.takeTrap p pc tr = ((s1.modCtx k.ctx (fun x => { x with
        pageFaults := x.pageFaults ++ [{ seq := seq, va := tr.addr, lane := tr.lane, who := .team tid ord }] })).setTeam p
        { cut with hold := .pageFault seq tr.addr }).queueFault r) ∧
    (tr.cls = 1 → s.takeTrap p pc tr = (s1.queueFault r).modTask tid (fun x => { x with
        failing := some (x.failing.getD tr), primary := x.primary || !s.failingGang k })) ∧
    (tr.cls = 2 → s.takeTrap p pc tr = (s1.queueFault r).freezeTeam tid ord) ∧
    (r.cls < 256 → r.code < 256 → r.ctx < 64 → r.lane < 2 ^ 16 → r.task < 2 ^ 14 → n < 2 ^ 16 →
      (r.bytes n).length = 64 ∧ bytesAt (r.bytes n) 0 1 = tr.cls ∧ bytesAt (r.bytes n) 1 1 = tr.code ∧
      bytesAt (r.bytes n) 2 1 = k.ctx ∧ bytesAt (r.bytes n) 4 2 = tid ∧ bytesAt (r.bytes n) 8 8 = pc.toNat ∧
      bytesAt (r.bytes n) 0x10 8 = pc.toNat ∧ bytesAt (r.bytes n) 0x18 8 = tr.addr.toNat ∧
      bytesAt (r.bytes n) 0x28 4 = tr.lane ∧ bytesAt (r.bytes n) 0x2C 4 = tr.detail.toNat ∧ bytesAt (r.bytes n) 0x3E 2 = n)

/-- R3, R28, R172, R200 to R204, R206, R240, R269, R277, R296, R431, R447 (the order of moves is the model's, log 2, and how many clocks
a step passes, log 5): a step makes the next move. The party whose turn it is runs the word that its program counter fetches; on a
partition and a lead engine what ends between words ends, the others come to wait, and the choice falls among those whose word can begin
once no instruction is in its passes; an event runs by itself, or for one lane's access; a plain read of a register or of an application
core's returns its value; before the device is up only the events of R447 do anything, and while the lease clock wraps only what is in
flight completes; and time passes. -/
def Obligations.AStepRunsTheDecodedWord : Prop :=
  ∀ (s s0 s1 : State) (p : Party) (t : Team) (pa n off width agent addr : Nat) (i e : Instr) (rest : List Byte) (turn : Turn)
    (core part : Nat) (x : Nat × Nat × Task × Team) (y : Nat × Nat × Nat) (ys : List (Nat × Nat × Nat)),
    let stands := Host.Outcome.next (State.advance turn s0 s0)
    (s0.team? p = some t → s0.canIssue p t = true → t.brk = false → t.freeze = .no → s0.replaying (s0.ctxOf p) = false →
      s0.fetchAddr p t = (s1, .ok pa) →
      (s1.regionBusy pa 4 = true → runWord s0 p = .next s1) ∧
      (s1.regionBusy pa 4 = false → decodeBytes (readBytes s1.mem pa 4) = .ok (i, rest) →
        runWord s0 p = s1.noteBegun p i t pa (clearCur (exec i { s1 with cur := some p })))) ∧
    (s.nextMove = (turn, s0) → s0.boot.up = true →
      (s0.wrapping = false →
        (core < 64 → turn = .prologue core → step s = advanceOut turn s0 (runWord s0 (.prologue core))) ∧
        (core < 6 → turn = .steward core → step s = advanceOut turn s0 (runWord s0 (.steward core))) ∧
        (core < 128 → part < 32 → turn = .partition core part → s0.beforeStart core part = s1 →
          let starts (z : State) (w : Nat × Nat × Task × Team) : Out := occupy z core part (.team w.1 w.2.1)
            (issueWord (z.markStart core part (readyTeams z core part) w) (.team w.1 w.2.1))
          let z := s1.endTurns core part
          (s1.ac < AMap.get 0 (s1.core core).busy part → step s = .next (State.advance turn s0 s1)) ∧
          (AMap.get 0 (s1.core core).busy part ≤ s1.ac →
            (pick s1 core part (readyTeams s1 core part) = some x → step s = advanceOut turn s0 (starts s1 x)) ∧
            (pick s1 core part (readyTeams s1 core part) = none →
              (pick z core part (readyTeams z core part) = some x → step s = advanceOut turn s0 (starts z x)) ∧
              (pick z core part (readyTeams z core part) = none → step s = .next (State.advance turn s0 s1))))) ∧
        (core < 128 → turn = .lead core →
          (s0.leadsOf core).foldl (fun z w => (z.prelude (.lead w.2.1 w.2.2)).joinWait (.lead w.2.1 w.2.2)) s0 = s1 →
          ((span 1 256).flatMap (fun n => ((s1.leadsOf core).filter (fun z => begins s1 (.lead z.2.1 z.2.2))).filter
            (fun z => z.1 = ((s1.core core).leadLast + n) % 256))) = y :: ys →
          (s1.ac < AMap.get 0 (s1.core core).busy 32 → step s = .next (State.advance turn s0 s1)) ∧
          (AMap.get 0 (s1.core core).busy 32 ≤ s1.ac → step s = advanceOut turn s0 (occupy s1 core 32 (.lead y.2.1 y.2.2)
            (issueWord (s1.modCore core (fun k => { k with leadLast := y.1 })) (.lead y.2.1 y.2.2))))) ∧
        (turn = .appLoad agent addr n → step s = .next (State.advance turn s0 (s0.appCoreLoad agent addr n)))) ∧
      (turn = .event e → e.isWord = false → s0.wrapping = false ∨ drains e = true ∨ bringsUp e = true →
        (s0.stepGoesOn e = false → step s = advanceOut turn s0 (exec e s0)) ∧ (s0.stepGoesOn e = true → step s = stands)) ∧
      (turn = .part e part → e.isWord = false → s0.wrapping = false ∨ drains e = true →
        step s = advanceOut turn s0 (runPart s0 e part)) ∧
      (turn = .regRead off width → step s = .next (State.advance turn s0 (s0.readOutside off width))) ∧
      (∀ f, turn = .upset f → step s = .next (State.advance turn s0 { s0 with flaws := s0.flaws ++ [f] })) ∧
      (turn = .accepted n → step s = .next (State.advance turn s0 (s0.acceptedAbroad n))) ∧
      (s0.wrapping = true → ((∃ c n, turn = .partition c n) ∨ (∃ c, turn = .lead c ∨ turn = .prologue c ∨ turn = .steward c) ∨
          (∃ f, turn = .event f ∧ drains f = false ∧ bringsUp f = false) ∨ turn = .appLoad agent addr n) →
        step s = stands)) ∧
    (s.nextMove = (turn, s0) → s0.boot.up = false → (∀ e, turn = .event e → bringsUp e = false) → step s = stands) ∧
    (∀ w, s.agenda = w :: [] → s.nextMove = (w, { s with agenda := [] })) ∧
    (s.passTime n).ac = s.ac + n ∧ (s.passTime n).tick = s.tick + 1 ∧
    (s.passTime n).time = s.time + (s.phase + 100 * n) / s.power.arith ∧
    (s.passTime n).phase = (s.phase + 100 * n) % s.power.arith

/-- R9, R13, R40 to R46: words written out from the encodings decode to the instructions they stand for; among them the words of the
manual's own examples. -/
def Obligations.SpecWordsDecode : Prop :=
  let h (n : Nat) : Hdr := { seq := BitVec.ofNat 4 n, b := false }
  decode 0x8C4280E2#32 = .icmp (h 1) 1#4 2#3 1#7 98#7 ∧
  decode 0x0400F280#32 = .lset (h 0) 101#7 ∧ decode 0x04010010#32 = .lsetImm (h 0) 16#14 ∧
  decode 0x0401897A#32 = .msetLo (h 0) 0x97A#12 ∧ decode 0x0401A031#32 = .msetHi (h 0) 0x31#8 ∧
  decode 0x04028080#32 = .sreg (h 0) 1#7 0#7 ∧ decode 0x0C180001#32 = .movi (h 0) 96#7 1#14 ∧
  decode 0x101808D1#32 = .movhi (h 0) 96#7 0x8D1#14 ∧ decode 0x1C000860#32 = .pand (h 0) 2#4 1#4 8#4 ∧
  decodeBytes [0xE2#8, 0x80#8, 0x42#8, 0x8C#8, 0x77#8] = .ok (.icmp (h 1) 1#4 2#3 1#7 98#7, [0x77#8]) ∧
  decodeBytes [0xE2#8, 0x80#8, 0x42#8] = .error .truncated ∧
  (∀ n < 2 ^ 26, decode (BitVec.ofNat 32 n) = .illegalOp (BitVec.ofNat 32 n))

/-- R9, R13, R15, R40 to R46: decoding the word of a well-formed instruction gives the instruction back, with every operand; and
every word is the word of what it decodes to, so no bit of it is dropped. -/
def Obligations.DecodeOfEncodeIsTheInstruction : Prop :=
  (∀ i : Instr, i.wellFormed = true → decode (encode i) = i) ∧ (∀ w : Word, encode (decode w) = w)

/-- Every step keeps committed memory in its canonical form (the form of memory is the model's, log 1). -/
def Obligations.StepsKeepMemoryCanonical : Prop :=
  ∀ s s' : State, MemoryCanonical s → step s = .next s' → MemoryCanonical s'

/-- R20, R21, R159, R208, R431, R449, R451: what reset leaves, and what a team finds at its entry. Memory that nothing has written
reads as 0, which is the model's choice (log 1). -/
def Obligations.ResetAndTeamStartValues : Prop :=
  let r := State.reset
  MemoryCanonical r ∧ (∀ a, readByte r.mem a = 0#8) ∧ r.boot.up = false ∧ r.tasks = [] ∧ r.time = 0 ∧
  (r.power.arith = 600 ∧ r.power.uncore = 1200) ∧
  (r.reg rVPSIZE = 16#64 ∧ r.reg rPLSIZE = 4#64 ∧ r.reg rLRSIZE = 33#64 ∧ r.reg rMDEVNO = 0xFFFF#64 ∧ r.reg rPWRLIM = 2800#64) ∧
  (∀ c < 64, r.creg c oFRCTL = 6 ∧ r.creg c oSRCTL = 6 ∧ r.creg c oSWTHR = 20 ∧ r.creg c oPDEAD = 50000 ∧ r.creg c oSQCTL = 4 ∧
    r.creg c oDBGCTL = 0 ∧ r.creg c oCSATP = 0 ∧ ∀ q < 16, r.creg c (oQCTL q) = 6) ∧
  mdReset = 0x10000060#32 ∧
  ∀ (st : Stream) (role index groups budget : Nat) (entry : Word64) (md : Word) (n l : Nat),
    let t := Team.start st role index groups budget entry md
    groups ≤ 32 →
      t.pc = entry ∧ t.vreg n l = 0#32 ∧ t.kreg n = 0#32 ∧ (l < 1024 → t.predAt 0 l = true) ∧
      (1 ≤ n → n < 8 → t.predAt n l = false) ∧ t.q = 0#4 ∧ t.slotJ n = entry ∧ t.lc = 0#32 ∧ t.lh = entry ∧ t.md = md ∧
      t.tw = 5#32 ∧ t.div = [] ∧ t.loops = [] ∧ t.calls = [] ∧ t.pend = [] ∧
      (l < 1024 → t.mask.getLsbD l = decide (l < 32 * groups))
end

