-- ==== Sys2Proof/Laws/Issue.lean ====
section
/-!
SUPPORT. What issuing a word does, for each way its effect can end: the one place where the shared operation of every word is
unfolded.
-/

namespace Sys2Proof.Machine

variable {i : Instr} {h : Hdr} {s : State} {eff : State → Party → Team → Res} {p : Party} {t : Team}

/-- A word that issues answers what its effect's result says. -/
theorem issue_eq (hi : Issues s p t i) :
    issue i h s eff =
      match eff (s.countIssue p) p (t.opened i) with
      | .ok s' t' => finish h (s.setTeam p { t.released' with passes := t.passes + passesOf i t.released' }) p t.pc none s' t'
      | .started s' t' op =>
        finish h (s.setTeam p { t.released' with passes := t.passes + passesOf i t.released' }) p t.pc (some op) s' t'
      | .jump s' t' pc =>
        (match goTo t' pc with
         | .ok t' => .next ((s'.setTeam p t').settle p)
         | .error e => .next ((s.setTeam p { t.released' with passes := t.passes + passesOf i t.released' }).raiseTrap p t.pc
             (trapOf e.code e.addr e.detail)))
      | .open s' t' => .next (s'.setTeam p t')
      | .trap tr =>
        .next ((s.setTeam p { t.released' with passes := t.passes + passesOf i t.released' }).raiseTrap p t.pc tr)
      | .walk va how lane =>
        .next ((s.setTeam p { t.released' with passes := t.passes + passesOf i t.released' }).resume p
          (fun t => { t with hold := .walk va how.code lane }))
      | .hold s' w => .next (s'.setTeam p { t.released' with hold := w })
      | .wait => .next s
      | .diverged s' => .next s'
      | .stop f => .fault f := by
  have hp : t.released'.passes = t.passes := rfl
  simp only [issue, hi.cur, hi.team, hi.free, hi.clear, Bool.not_true, Bool.false_eq_true, if_false, hp]
  rfl

/-- An effect that ends well completes. -/
theorem issue_ok (hi : Issues s p t i) {s' : State} {t' : Team} (he : eff (s.countIssue p) p (t.opened i) = .ok s' t')
    {u : Team} (hu : seqAct h.seq.toNat none (s'.breaks p) t' = .ok u) :
    issue i h s eff = .next ((s'.setTeam p u).settle p) := by
  rw [issue_eq hi, he]
  simp only [finish, hu]

/-- An effect that starts an operation completes. -/
theorem issue_started (hi : Issues s p t i) {s' : State} {t' : Team} {op : Nat}
    (he : eff (s.countIssue p) p (t.opened i) = .started s' t' op) {u : Team}
    (hu : seqAct h.seq.toNat (some op) (s'.breaks p) t' = .ok u) :
    issue i h s eff = .next ((s'.setTeam p u).settle p) := by
  rw [issue_eq hi, he]
  simp only [finish, hu]

/-- An effect that takes a trap leaves the stream as it was, but for its pass count. -/
theorem issue_trap (hi : Issues s p t i) {tr : TrapInfo} (he : eff (s.countIssue p) p (t.opened i) = .trap tr) :
    issue i h s eff =
      .next ((s.setTeam p { t.released' with passes := t.passes + passesOf i t.released' }).raiseTrap p t.pc tr) := by
  rw [issue_eq hi, he]

/-- An effect that cannot begin, at which the stream comes to wait. -/
theorem issue_hold (hi : Issues s p t i) {s' : State} {w : Hold} (he : eff (s.countIssue p) p (t.opened i) = .hold s' w) :
    issue i h s eff = .next (s'.setTeam p { t.released' with hold := w }) := by
  rw [issue_eq hi, he]

/-- An effect that cannot begin leaves the state. -/
theorem issue_wait (hi : Issues s p t i) (he : eff (s.countIssue p) p (t.opened i) = .wait) : issue i h s eff = .next s := by
  rw [issue_eq hi, he]

/-- A word that changes only its stream. -/
theorem issueTeam_ok (hi : Issues s p t i) {f : Team → Team} {u : Team}
    (hu : seqAct h.seq.toNat none ((s.countIssue p).breaks p) (f (t.opened i)) = .ok u) :
    issueTeam i h s f = .next (((s.countIssue p).setTeam p u).settle p) :=
  issue_ok hi (by rfl) hu

/-- A word that fails one of its own checks takes that trap (R48). -/
theorem issue_check (hc : s.cur = some p) (ht : s.team? p = some t) (hf : s.canIssue p t = true) {tr : TrapInfo}
    (he : s.preIssue p i t.released' = some (some tr)) :
    issue i h s eff = .next ((s.setTeam p t.released').raiseTrap p t.pc tr) := by
  simp only [issue, hc, ht, hf, he, Bool.not_true, Bool.false_eq_true, if_false]
  rfl

/-- A stream that something holds issues nothing (R201). -/
theorem issue_held (hc : s.cur = some p) (ht : s.team? p = some t) (hf : s.canIssue p t = false) :
    issue i h s eff = .next s := by
  simp only [issue, hc, ht, hf, Bool.not_false, if_true]

end Sys2Proof.Machine
end

