-- ==== Sys2Proof/Laws/Maps.lean ====
section
/-!
SUPPORT. Laws of finite maps: what a read gives after a write, and that writes keep the canonical form.
-/

namespace Sys2Proof.Machine

theorem AMap.find_erase {α : Type} (m : AMap α) (k j : Nat) :
    AMap.find (AMap.erase m k) j = if j = k then none else AMap.find m j := by
  induction m with
  | nil => simp [AMap.erase, AMap.find]
  | cons e m ih =>
    by_cases h : e.1 = k
    · simp only [AMap.erase, h, if_true, ih, AMap.find]
      by_cases hj : j = k
      · simp [hj]
      · simp [hj, Ne.symm hj]
    · simp only [AMap.erase, h, if_false, AMap.find, ih]
      by_cases hj : e.1 = j
      · have : j ≠ k := fun hk => h (hj.trans hk)
        simp [hj, this]
      · simp [hj]

theorem AMap.find_place {α : Type} (m : AMap α) (k j : Nat) (v : α) (hk : AMap.find m k = none) :
    AMap.find (AMap.place m k v) j = if j = k then some v else AMap.find m j := by
  induction m with
  | nil => by_cases h : j = k <;> simp [AMap.place, AMap.find, h, Ne.symm]
  | cons e m ih =>
    have hne : e.1 ≠ k := by
      intro h
      simp [AMap.find, h] at hk
    have hk' : AMap.find m k = none := by simpa [AMap.find, hne] using hk
    by_cases h : k < e.1
    · by_cases hj : j = k
      · simp [AMap.place, h, AMap.find, hj]
      · simp [AMap.place, h, AMap.find, hj, Ne.symm hj]
    · by_cases hj : j = k
      · subst hj; simp [AMap.place, h, AMap.find, hne, ih hk']
      · simp [AMap.place, h, AMap.find, hj, ih hk']

@[simp] theorem AMap.find_set {α : Type} (m : AMap α) (k j : Nat) (v : α) :
    AMap.find (AMap.set m k v) j = if j = k then some v else AMap.find m j := by
  rw [AMap.set, AMap.find_place _ _ _ _ (by simp [AMap.find_erase]), AMap.find_erase]
  by_cases h : j = k <;> simp [h]

/-- Reading after a write: the value written at its key, and every other key as before. -/
theorem AMap.get_put {α : Type} [DecidableEq α] (d : α) (m : AMap α) (k j : Nat) (v : α) :
    AMap.get d (AMap.put d m k v) j = if j = k then v else AMap.get d m j := by
  unfold AMap.get AMap.put
  by_cases hv : v = d
  · by_cases h : j = k <;> simp [hv, AMap.find_erase, h]
  · by_cases h : j = k <;> simp [hv, h]

@[simp] theorem AMap.get_put_self {α : Type} [DecidableEq α] (d : α) (m : AMap α) (k : Nat) (v : α) :
    AMap.get d (AMap.put d m k v) k = v := by simp [AMap.get_put]

/-! ## Canonical form -/

/-- Keys rising, in the form that inductions use. -/
theorem AMap.rising_cons {α : Type} (e : Nat × α) (m : AMap α) :
    AMap.rising (e :: m) = true ↔ (∀ f ∈ m, e.1 < f.1) ∧ AMap.rising m = true := by
  induction m generalizing e with
  | nil => simp [AMap.rising]
  | cons f m ih =>
    constructor
    · intro h
      have h1 : e.1 < f.1 ∧ AMap.rising (f :: m) = true := by simpa [AMap.rising] using h
      refine ⟨?_, h1.2⟩
      intro g hg
      rcases List.mem_cons.1 hg with rfl | hg
      · exact h1.1
      · exact lt_trans h1.1 (((ih f).1 h1.2).1 g hg)
    · intro h
      simpa [AMap.rising] using And.intro (h.1 f (by simp)) h.2

theorem AMap.mem_erase {α : Type} (m : AMap α) (k : Nat) (e : Nat × α) (h : e ∈ AMap.erase m k) :
    e ∈ m ∧ e.1 ≠ k := by
  induction m with
  | nil => simp [AMap.erase] at h
  | cons f m ih =>
    by_cases hf : f.1 = k
    · simp only [AMap.erase, hf, if_true] at h
      exact ⟨List.mem_cons_of_mem _ (ih h).1, (ih h).2⟩
    · simp only [AMap.erase, hf, if_false] at h
      rcases List.mem_cons.1 h with rfl | h
      · exact ⟨by simp, hf⟩
      · exact ⟨List.mem_cons_of_mem _ (ih h).1, (ih h).2⟩

theorem AMap.mem_place {α : Type} (m : AMap α) (k : Nat) (v : α) (e : Nat × α) (h : e ∈ AMap.place m k v) :
    e = (k, v) ∨ e ∈ m := by
  induction m with
  | nil => simpa [AMap.place] using h
  | cons f m ih =>
    by_cases hf : k < f.1
    · simpa [AMap.place, hf] using h
    · rcases List.mem_cons.1 (by simpa [AMap.place, hf] using h : e ∈ f :: AMap.place m k v) with rfl | h
      · simp
      · rcases ih h with h | h
        · exact .inl h
        · exact .inr (by simp [h])

theorem AMap.rising_erase {α : Type} (m : AMap α) (k : Nat) (h : AMap.rising m = true) :
    AMap.rising (AMap.erase m k) = true := by
  induction m with
  | nil => rfl
  | cons f m ih =>
    have h' := (AMap.rising_cons f m).1 h
    by_cases hf : f.1 = k
    · simpa [AMap.erase, hf] using ih h'.2
    · simp only [AMap.erase, hf, if_false]
      exact (AMap.rising_cons _ _).2 ⟨fun e he => h'.1 e (AMap.mem_erase m k e he).1, ih h'.2⟩

theorem AMap.rising_place {α : Type} (m : AMap α) (k : Nat) (v : α) (h : AMap.rising m = true)
    (hk : ∀ e ∈ m, e.1 ≠ k) : AMap.rising (AMap.place m k v) = true := by
  induction m with
  | nil => rfl
  | cons f m ih =>
    have h' := (AMap.rising_cons f m).1 h
    by_cases hf : k < f.1
    · simp only [AMap.place, hf, if_true]
      refine (AMap.rising_cons _ _).2 ⟨?_, h⟩
      intro e he
      rcases List.mem_cons.1 he with rfl | he
      · exact hf
      · exact lt_trans hf (h'.1 e he)
    · simp only [AMap.place, hf, if_false]
      have hne := hk f (by simp)
      refine (AMap.rising_cons _ _).2 ⟨?_, ih h'.2 (fun e he => hk e (by simp [he]))⟩
      intro e he
      rcases AMap.mem_place m k v e he with rfl | he
      · exact lt_of_le_of_ne (Nat.le_of_not_lt hf) hne
      · exact h'.1 e he

/-- A write keeps the canonical form. -/
theorem AMap.canonical_put {α : Type} [DecidableEq α] (d : α) (m : AMap α) (k : Nat) (v : α)
    (h : AMap.canonical d m = true) : AMap.canonical d (AMap.put d m k v) = true := by
  simp only [AMap.canonical, Bool.and_eq_true, List.all_eq_true, decide_eq_true_eq] at h ⊢
  have he : ∀ e ∈ AMap.erase m k, e.1 ≠ k := fun e he => (AMap.mem_erase m k e he).2
  by_cases hv : v = d
  · simp only [AMap.put, hv, if_true]
    exact ⟨AMap.rising_erase m k h.1, fun e he => h.2 e (AMap.mem_erase m k e he).1⟩
  · simp only [AMap.put, hv, if_false, AMap.set]
    refine ⟨AMap.rising_place _ k v (AMap.rising_erase m k h.1) he, fun e hm => ?_⟩
    rcases AMap.mem_place _ k v e hm with rfl | hm
    · exact hv
    · exact h.2 e (AMap.mem_erase m k e hm).1

end Sys2Proof.Machine
end

