-- ==== Sys2Proof/Laws/Operands.lean ====
section
/-!
SUPPORT. What writing a register, a pair, a span or a predicate does: the value written where a lane takes part, and
nothing else.
-/

namespace Sys2Proof.Machine

/-! ## Lanes -/

theorem mem_lanesFrom (m : LaneMask) (l : Nat) :
    ∀ n i, l ∈ lanesFrom m i n ↔ i ≤ l ∧ l < i + n ∧ m.getLsbD l = true := by
  intro n
  induction n with
  | zero => intro i; simp [lanesFrom]; omega
  | succ n ih =>
    intro i
    by_cases h : m.getLsbD i = true
    · simp only [lanesFrom, h, if_true, List.mem_cons, ih]
      constructor
      · rintro (rfl | ⟨a, b, c⟩)
        · exact ⟨le_refl _, by omega, h⟩
        · exact ⟨by omega, by omega, c⟩
      · rintro ⟨a, b, c⟩
        by_cases hl : l = i
        · exact .inl hl
        · exact .inr ⟨by omega, by omega, c⟩
    · simp only [lanesFrom, h, Bool.false_eq_true, if_false, ih]
      constructor
      · rintro ⟨a, b, c⟩
        exact ⟨by omega, by omega, c⟩
      · rintro ⟨a, b, c⟩
        have : l ≠ i := by rintro rfl; exact h c
        exact ⟨by omega, by omega, c⟩

/-- The lanes that take part, as a list and as a property. -/
theorem Team.mem_lanes (t : Team) (l : Nat) : l ∈ t.lanes ↔ t.Takes l := by
  unfold Team.lanes lanesOf Team.Takes
  rw [mem_lanesFrom]
  constructor
  · rintro ⟨_, h, c⟩
    refine ⟨by omega, ?_, c⟩
    by_contra hl
    rw [BitVec.getLsbD_of_ge _ _ (by omega)] at c
    simp at c
  · rintro ⟨h, _, c⟩
    exact ⟨by omega, by omega, c⟩

/-! ## One register -/

@[simp] theorem Team.setV_vreg (t : Team) (r l r' l' : Nat) (w : Word) :
    (t.setV r l w).vreg r' l' = if r' * 1024 + l' = r * 1024 + l then w else t.vreg r' l' := by
  simp [Team.setV, Team.vreg, AMap.get_put]
@[simp] theorem Team.setV_k (t : Team) (r l : Nat) (w : Word) : (t.setV r l w).k = t.k := rfl
@[simp] theorem Team.setK_v (t : Team) (n : Nat) (w : Word) : (t.setK n w).v = t.v := rfl
@[simp] theorem Team.setK_kreg (t : Team) (n m : Nat) (w : Word) :
    (t.setK n w).kreg m = if m = n then w else t.kreg m := by
  simp [Team.setK, Team.kreg, AMap.get_put]

/-- Two teams that differ at most in their registers. -/
def SameButRegs (t t' : Team) : Prop := { t' with v := t.v, k := t.k } = t

theorem SameButRegs.refl (t : Team) : SameButRegs t t := rfl
theorem SameButRegs.setV {t u : Team} (h : SameButRegs t u) (r l : Nat) (w : Word) : SameButRegs t (u.setV r l w) := h
theorem SameButRegs.setK {t u : Team} (h : SameButRegs t u) (n : Nat) (w : Word) : SameButRegs t (u.setK n w) := h

/-! ## Spans -/

/-- Writes of register `i` of a span in some lanes, one after another: `g` says what has been written so far. -/
structure SpanInv (t u : Team) (d : Nat) (done : Nat → Nat → Prop) (f : Nat → Nat → Word) : Prop where
  hit : ∀ i l, done i l → l < 1024 → u.vreg (d + i) l = f i l
  miss : ∀ r l, l < 1024 → (∀ i, r = d + i → ¬ done i l) → u.vreg r l = t.vreg r l
  k : u.k = t.k
  rest : SameButRegs t u

theorem SpanInv.start (t : Team) (d : Nat) (f : Nat → Nat → Word) : SpanInv t t d (fun _ _ => False) f :=
  ⟨fun _ _ h => h.elim, fun _ _ _ _ => rfl, rfl, rfl⟩

theorem SpanInv.congr {t u : Team} {d : Nat} {p q : Nat → Nat → Prop} {f : Nat → Nat → Word}
    (h : SpanInv t u d p f) (e : ∀ i l, p i l ↔ q i l) : SpanInv t u d q f := by
  have : p = q := by funext i l; exact propext (e i l)
  exact this ▸ h

theorem SpanInv.step {t u : Team} {d : Nat} {p : Nat → Nat → Prop} {f : Nat → Nat → Word} (h : SpanInv t u d p f)
    (i l : Nat) (hl : l < 1024) :
    SpanInv t (u.setV (d + i) l (f i l)) d (fun i' l' => p i' l' ∨ (i' = i ∧ l' = l)) f := by
  refine ⟨?_, ?_, h.k, h.rest⟩
  · intro i' l' hd hl'
    rw [Team.setV_vreg]
    by_cases he : (d + i') * 1024 + l' = (d + i) * 1024 + l
    · have h1 : i' = i := by omega
      have h2 : l' = l := by omega
      simp [h1, h2]
    · simp only [he, if_false]
      rcases hd with hd | ⟨rfl, rfl⟩
      · exact h.hit i' l' hd hl'
      · exact absurd rfl he
  · intro r l' hl' hn
    rw [Team.setV_vreg]
    have he : ¬ r * 1024 + l' = (d + i) * 1024 + l := by
      intro he
      exact hn i (by omega) (.inr ⟨rfl, by omega⟩)
    simp only [he, if_false]
    exact h.miss r l' hl' (fun i' hr hp => hn i' hr (.inl hp))

theorem SpanInv.lanes {t : Team} {d : Nat} {f : Nat → Nat → Word} (i : Nat) :
    ∀ (ls : List Nat) (u : Team), (∀ l ∈ ls, l < 1024) → ∀ (p : Nat → Nat → Prop), SpanInv t u d p f →
      SpanInv t (u.setLanes (d + i) (f i) ls) d (fun i' l' => p i' l' ∨ (i' = i ∧ l' ∈ ls)) f := by
  intro ls
  induction ls with
  | nil => intro u _ p h; simpa [Team.setLanes] using h
  | cons l ls ih =>
    intro u hl p h
    have h1 := h.step i l (hl l (by simp))
    have h2 := ih (u.setV (d + i) l (f i l)) (fun x hx => hl x (by simp [hx])) _ h1
    refine SpanInv.congr h2 ?_
    intro i' l'
    simp only [List.mem_cons]
    constructor
    · rintro ((h | ⟨a, b⟩) | ⟨a, b⟩)
      · exact .inl h
      · exact .inr ⟨a, .inl b⟩
      · exact .inr ⟨a, .inr b⟩
    · rintro (h | ⟨a, b | b⟩)
      · exact .inl (.inl h)
      · exact .inl (.inr ⟨a, b⟩)
      · exact .inr ⟨a, b⟩

theorem mem_span (n i x : Nat) : x ∈ span i n ↔ i ≤ x ∧ x < i + n := by
  induction n generalizing i with
  | zero => simp [span]
  | succ n ih => simp only [span, List.mem_cons, ih]; omega

theorem SpanInv.spans {t : Team} {d : Nat} {f : Nat → Nat → Word} (ls : List Nat) (hl : ∀ l ∈ ls, l < 1024) :
    ∀ (is : List Nat) (u : Team) (p : Nat → Nat → Prop), SpanInv t u d p f →
      SpanInv t (is.foldl (fun u i => u.setLanes (d + i) (f i) ls) u) d
        (fun i' l' => p i' l' ∨ (i' ∈ is ∧ l' ∈ ls)) f := by
  intro is
  induction is with
  | nil => intro u p h; simpa using h
  | cons i is ih =>
    intro u p h
    have h2 := ih _ _ (SpanInv.lanes (t := t) (d := d) (f := f) i ls u hl p h)
    refine SpanInv.congr h2 ?_
    intro i' l'
    simp only [List.mem_cons]
    tauto

theorem setK_span (t : Team) (d : Nat) (f : Nat → Word) :
    ∀ (n a : Nat) (u : Team), SameButRegs t u → u.v = t.v →
      (((span a n).foldl (fun u i => u.setK (d + i) (f i)) u).v = t.v) ∧
      SameButRegs t ((span a n).foldl (fun u i => u.setK (d + i) (f i)) u) ∧
      (∀ r, ((span a n).foldl (fun u i => u.setK (d + i) (f i)) u).kreg r =
        if d + a ≤ r ∧ r < d + a + n then f (r - d) else u.kreg r) := by
  intro n
  induction n with
  | zero => intro a u h hv; exact ⟨hv, h, fun r => by simp [span]⟩
  | succ n ih =>
    intro a u h hv
    have h2 := ih (a + 1) (u.setK (d + a) (f a)) (h.setK _ _) hv
    refine ⟨h2.1, h2.2.1, fun r => ?_⟩
    have h3 := h2.2.2 r
    simp only [span, List.foldl_cons]
    rw [h3, Team.setK_kreg]
    by_cases e : r = d + a
    · subst e
      have : ¬ (d + (a + 1) ≤ d + a ∧ d + a < d + (a + 1) + n) := by omega
      have h' : d + a ≤ d + a ∧ d + a < d + a + (n + 1) := by omega
      rw [if_neg this, if_pos h']
      simp
    · by_cases c : d + (a + 1) ≤ r ∧ r < d + (a + 1) + n
      · have c' : d + a ≤ r ∧ r < d + a + (n + 1) := by omega
        simp [c, c']
      · have c' : ¬ (d + a ≤ r ∧ r < d + a + (n + 1)) := by omega
        simp [c, c', e]

/-- Writing a span writes its registers, in the lanes that take part or once, and nothing else. -/
theorem Team.writeSpan_writes (t : Team) (d n : Nat) (f : Nat → Nat → Word) : WritesSpan t (t.writeSpan d n f) d n f := by
  by_cases hd : 96 ≤ d
  · have h := setK_span t (d - 96) (fun i => f i 0) n 0 t rfl rfl
    have e : t.writeSpan d n f = (span 0 n).foldl (fun u i => u.setK (d - 96 + i) (f i 0)) t := by
      simp [Team.writeSpan, hd]
    rw [e]
    refine ⟨fun h' => absurd h' (by omega), ?_, ?_, ?_, h.2.1⟩
    · intro r l _ _
      simp [Team.vreg, h.1]
    · intro _ i hi
      rw [h.2.2]
      have : d - 96 + 0 ≤ d - 96 + i ∧ d - 96 + i < d - 96 + 0 + n := by omega
      rw [if_pos this]
      simp
    · intro r hr
      rw [h.2.2]
      have : ¬ (d - 96 + 0 ≤ r ∧ r < d - 96 + 0 + n) := by omega
      rw [if_neg this]
  · have e : t.writeSpan d n f = (span 0 n).foldl (fun u i => u.setLanes (d + i) (f i) t.lanes) t := by
      simp [Team.writeSpan, hd]
    have hl : ∀ l ∈ t.lanes, l < 1024 := fun l hl => ((Team.mem_lanes t l).1 hl).2.1
    have h := SpanInv.spans (t := t) (d := d) (f := f) t.lanes hl (span 0 n) t _ (SpanInv.start t d f)
    rw [e]
    refine ⟨?_, ?_, fun h' => absurd h' hd, ?_, h.rest⟩
    · intro _ i hi l hT
      exact h.hit i l (.inr ⟨(mem_span _ _ _).2 ⟨by omega, by omega⟩, (Team.mem_lanes t l).2 hT⟩) hT.2.1
    · intro r l hl' hn
      refine h.miss r l hl' ?_
      rintro i rfl (hf | ⟨hi, hm⟩)
      · exact hf
      · have := (mem_span _ _ _).1 hi
        exact hn ⟨(Team.mem_lanes t l).1 hm, by omega, by omega, by omega⟩
    · intro r _
      show Team.kreg _ r = Team.kreg t r
      unfold Team.kreg
      rw [h.k]

theorem Team.write_eq_span (t : Team) (d : Nat) (f : Nat → Word) : t.write d f = t.writeSpan d 1 (fun _ => f) := by
  simp [Team.write, Team.writeSpan, span]

/-- Writing a register writes it, and nothing else. -/
theorem Team.write_writes (t : Team) (d : Nat) (f : Nat → Word) : WritesReg t (t.write d f) d f := by
  rw [Team.write_eq_span]
  exact Team.writeSpan_writes t d 1 _

/-! ## Pairs -/

theorem SpanInv.pairs {t : Team} {d : Nat} {f : Nat → Nat → Word} :
    ∀ (ls : List Nat) (u : Team), (∀ l ∈ ls, l < 1024) → ∀ (p : Nat → Nat → Prop), SpanInv t u d p f →
      SpanInv t (ls.foldl (fun u l => (u.setV (d + 0) l (f 0 l)).setV (d + 1) l (f 1 l)) u) d
        (fun i' l' => p i' l' ∨ (i' < 2 ∧ l' ∈ ls)) f := by
  intro ls
  induction ls with
  | nil => intro u _ p h; simpa using h
  | cons l ls ih =>
    intro u hl p h
    have hl0 := hl l (by simp)
    have h2 := ih _ (fun x hx => hl x (by simp [hx])) _ ((h.step 0 l hl0).step 1 l hl0)
    refine SpanInv.congr h2 ?_
    intro i' l'
    simp only [List.mem_cons]
    constructor
    · rintro (((h | ⟨a, b⟩) | ⟨a, b⟩) | ⟨a, b⟩)
      · exact .inl h
      · exact .inr ⟨by omega, .inl b⟩
      · exact .inr ⟨by omega, .inl b⟩
      · exact .inr ⟨a, .inr b⟩
    · rintro (h | ⟨a, b | b⟩)
      · exact .inl (.inl (.inl h))
      · have : i' = 0 ∨ i' = 1 := by omega
        rcases this with c | c
        · exact .inl (.inl (.inr ⟨c, b⟩))
        · exact .inl (.inr ⟨c, b⟩)
      · exact .inr ⟨a, b⟩

/-- Writing a pair writes its halves, and nothing else. -/
theorem Team.writePair_writes (t : Team) (d : Nat) (f : Nat → Word64) : WritesPair t (t.writePair d f) d f := by
  by_cases hd : 96 ≤ d
  · have h := setK_span t (d - 96) (fun i => if i = 0 then lowHalf (f 0) else highHalf (f 0)) 2 0 t rfl rfl
    have e : t.writePair d f =
        (span 0 2).foldl (fun u i => u.setK (d - 96 + i) (if i = 0 then lowHalf (f 0) else highHalf (f 0))) t := by
      simp [Team.writePair, hd, span, Team.setKPair]
    rw [e]
    refine ⟨fun h' => absurd h' (by omega), ?_, ?_, ?_, h.2.1⟩
    · intro r l _ _
      simp [Team.vreg, h.1]
    · intro _ i hi
      rw [h.2.2]
      have : d - 96 + 0 ≤ d - 96 + i ∧ d - 96 + i < d - 96 + 0 + 2 := by omega
      rw [if_pos this]
      simp
    · intro r hr
      rw [h.2.2]
      have : ¬ (d - 96 + 0 ≤ r ∧ r < d - 96 + 0 + 2) := by omega
      rw [if_neg this]
  · let g : Nat → Nat → Word := fun i l => if i = 0 then lowHalf (f l) else highHalf (f l)
    have e : t.writePair d f = t.lanes.foldl (fun u l => (u.setV (d + 0) l (g 0 l)).setV (d + 1) l (g 1 l)) t := by
      simp [Team.writePair, hd, g]
    have hl : ∀ l ∈ t.lanes, l < 1024 := fun l hl => ((Team.mem_lanes t l).1 hl).2.1
    have h := SpanInv.pairs (t := t) (d := d) (f := g) t.lanes t hl _ (SpanInv.start t d g)
    rw [e]
    refine ⟨?_, ?_, fun h' => absurd h' hd, ?_, h.rest⟩
    · intro _ i hi l hT
      exact h.hit i l (.inr ⟨hi, (Team.mem_lanes t l).2 hT⟩) hT.2.1
    · intro r l hl' hn
      refine h.miss r l hl' ?_
      rintro i rfl (hf | ⟨hi, hm⟩)
      · exact hf
      · exact hn ⟨(Team.mem_lanes t l).1 hm, by omega, by omega, by omega⟩
    · intro r _
      show Team.kreg _ r = Team.kreg t r
      unfold Team.kreg
      rw [h.k]

/-- Writing a typed value. -/
theorem Team.writeVal_writes (t : Team) (d : Nat) (f : Nat → Nat) : WritesVal t (t.writeVal d f) d f := by
  unfold WritesVal Team.writeVal
  by_cases h : mdType t.md = 12
  · simp only [h, if_true]; exact Team.writePair_writes t d _
  · simp only [h, if_false]; exact Team.write_writes t d _

/-! ## Predicates -/

theorem getLsbD_maskOf (f : Nat → Bool) (l : Nat) (hl : l < 1024) :
    ∀ (ls : List Nat) (m : LaneMask),
      (ls.foldl (fun m i => if f i then m ||| (1#1024 <<< i) else m) m).getLsbD l =
        (m.getLsbD l || (decide (l ∈ ls) && f l)) := by
  intro ls
  induction ls with
  | nil => intro m; simp
  | cons i ls ih =>
    intro m
    simp only [List.foldl_cons, ih]
    have hone : (1#1024 <<< i).getLsbD l = decide (l = i) := by
      rw [BitVec.getLsbD_shiftLeft]
      by_cases h : l = i
      · subst h; simp [hl]
      · by_cases h2 : l < i
        · simp [h, h2]
        · have : l - i ≠ 0 := by omega
          simp [h, hl, this]
    by_cases h : l = i
    · subst h
      by_cases hf : f l = true <;> simp [hf, hone]
    · by_cases hf : f i = true <;> simp [hf, hone, h]

theorem maskOf_getLsbD (ls : List Nat) (f : Nat → Bool) (l : Nat) (hl : l < 1024) :
    (maskOf ls f).getLsbD l = (decide (l ∈ ls) && f l) := by
  simp [maskOf, getLsbD_maskOf f l hl]

/-- What a lane reads of a predicate after a write to the lanes of `p`. -/
theorem getLsbD_merge (a p m : LaneMask) (l : Nat) (hl : l < 1024) :
    ((a &&& ~~~ p) ||| m).getLsbD l = ((a.getLsbD l && !p.getLsbD l) || m.getLsbD l) := by
  rw [BitVec.getLsbD_or, BitVec.getLsbD_and, BitVec.getLsbD_not]
  simp only [hl, decide_true, Bool.true_and]

/-- What a bit of q holds after a write of one. -/
theorem setBit4 (q : BitVec 4) (i e : Nat) (b : Bool) (hi : i < 4) :
    (if b then q ||| (1#4 <<< i) else q &&& ~~~ (1#4 <<< i)).getLsbD e = if e = i then b else q.getLsbD e := by
  by_cases he : e < 4
  · have : ∀ (q : BitVec 4) (i e : Fin 4) (b : Bool),
        (if b then q ||| (1#4 <<< i.val) else q &&& ~~~ (1#4 <<< i.val)).getLsbD e.val =
          if e.val = i.val then b else q.getLsbD e.val := by decide
    exact this q ⟨i, hi⟩ ⟨e, he⟩ b
  · have hne : e ≠ i := by omega
    rw [BitVec.getLsbD_of_ge _ _ (by omega), BitVec.getLsbD_of_ge _ _ (by omega), if_neg hne]

/-- Writing a predicate writes it, and nothing else. -/
theorem Team.writePred_writes (t : Team) (c : Nat) (f : Nat → Bool) (hc : c < 12) : WritesPred t (t.writePred c f) c f := by
  by_cases h0 : c = 0
  · subst h0
    have e : t.writePred 0 f = t := by simp [Team.writePred]
    rw [e]
    exact ⟨fun h => absurd h (by omega), fun _ _ _ _ _ => rfl, fun h => absurd h (by omega), fun _ _ => rfl, rfl⟩
  · by_cases h8 : c < 8
    · have e : t.writePred c f =
          { t with p := AMap.put 0#1024 t.p c ((t.pmask c &&& ~~~ t.takePart) ||| maskOf t.lanes f) } := by
        simp [Team.writePred, h0, h8]
      rw [e]
      refine ⟨?_, ?_, fun h => absurd h (by omega), fun _ _ => rfl, rfl⟩
      · intro _ _ l hT
        have hm := (Team.mem_lanes t l).2 hT
        have hp := hT.2.2
        simp only [Team.predAt, Team.pmask, h0, h8, if_true, if_false, AMap.get_put_self]
        rw [getLsbD_merge _ _ _ _ hT.2.1, maskOf_getLsbD _ _ _ hT.2.1, hp]
        simp only [hm, decide_true, Bool.true_and, Bool.not_true, Bool.and_false, Bool.false_or]
      · intro e l he hl hn
        by_cases hce : e = c
        · subst hce
          have hp : t.takePart.getLsbD l = false := by simpa using fun hp => hn ⟨rfl, hp⟩
          have hm : l ∉ t.lanes := fun hm => by
            have := ((Team.mem_lanes t l).1 hm).2.2
            rw [hp] at this
            exact absurd this (by simp)
          simp only [Team.predAt, Team.pmask, h0, h8, if_true, if_false, AMap.get_put_self]
          rw [getLsbD_merge _ _ _ _ hl, maskOf_getLsbD _ _ _ hl, hp]
          simp only [hm, decide_false, Bool.false_and, Bool.not_false, Bool.and_true, Bool.or_false]
        · simp [Team.predAt, Team.pmask, AMap.get_put, hce]
    · have e : t.writePred c f =
          { t with q := if f 0 then t.q ||| (1#4 <<< (c - 8)) else t.q &&& ~~~ (1#4 <<< (c - 8)) } := by
        simp [Team.writePred, h0, h8]
      rw [e]
      refine ⟨fun _ h => absurd h h8, ?_, ?_, ?_, rfl⟩
      · intro e l he _ _
        simp [Team.predAt, Team.pmask, he]
      · intro _
        show (if f 0 then _ else _ : BitVec 4).getLsbD (c - 8) = _
        rw [setBit4 _ _ _ _ (by omega)]
        simp
      · intro e hn
        show (if f 0 then _ else _ : BitVec 4).getLsbD e = _
        rw [setBit4 _ _ _ _ (by omega), if_neg (fun h => hn ⟨by omega, h⟩)]

end Sys2Proof.Machine
end

