-- ==== Sys2Proof/Laws/State.lean ====
section
/-!
SUPPORT. What each update of a part of State leaves as it was, field by field, and what a read of a part gives after a write of it.
-/

namespace Sys2Proof.Machine

@[simp] theorem State.setCore_agenda (s : State) (c : Nat) (x : Core) : (s.setCore c x).agenda = s.agenda := rfl
@[simp] theorem State.setCore_cur (s : State) (c : Nat) (x : Core) : (s.setCore c x).cur = s.cur := rfl
@[simp] theorem State.setCore_only (s : State) (c : Nat) (x : Core) : (s.setCore c x).only = s.only := rfl
@[simp] theorem State.setCore_tick (s : State) (c : Nat) (x : Core) : (s.setCore c x).tick = s.tick := rfl
@[simp] theorem State.setCore_ac (s : State) (c : Nat) (x : Core) : (s.setCore c x).ac = s.ac := rfl
@[simp] theorem State.setCore_time (s : State) (c : Nat) (x : Core) : (s.setCore c x).time = s.time := rfl
@[simp] theorem State.setCore_phase (s : State) (c : Nat) (x : Core) : (s.setCore c x).phase = s.phase := rfl
@[simp] theorem State.setCore_leaseZero (s : State) (c : Nat) (x : Core) : (s.setCore c x).leaseZero = s.leaseZero := rfl
@[simp] theorem State.setCore_wrapping (s : State) (c : Nat) (x : Core) : (s.setCore c x).wrapping = s.wrapping := rfl
@[simp] theorem State.setCore_mem (s : State) (c : Nat) (x : Core) : (s.setCore c x).mem = s.mem := rfl
@[simp] theorem State.setCore_flaws (s : State) (c : Nat) (x : Core) : (s.setCore c x).flaws = s.flaws := rfl
@[simp] theorem State.setCore_regs (s : State) (c : Nat) (x : Core) : (s.setCore c x).regs = s.regs := rfl
@[simp] theorem State.setCore_tasks (s : State) (c : Nat) (x : Core) : (s.setCore c x).tasks = s.tasks := rfl
@[simp] theorem State.setCore_grids (s : State) (c : Nat) (x : Core) : (s.setCore c x).grids = s.grids := rfl
@[simp] theorem State.setCore_nextGrid (s : State) (c : Nat) (x : Core) : (s.setCore c x).nextGrid = s.nextGrid := rfl
@[simp] theorem State.setCore_clusters (s : State) (c : Nat) (x : Core) : (s.setCore c x).clusters = s.clusters := rfl
@[simp] theorem State.setCore_ctxs (s : State) (c : Nat) (x : Core) : (s.setCore c x).ctxs = s.ctxs := rfl
@[simp] theorem State.setCore_stewards (s : State) (c : Nat) (x : Core) : (s.setCore c x).stewards = s.stewards := rfl
@[simp] theorem State.setCore_units (s : State) (c : Nat) (x : Core) : (s.setCore c x).units = s.units := rfl
@[simp] theorem State.setCore_asked (s : State) (c : Nat) (x : Core) : (s.setCore c x).asked = s.asked := rfl
@[simp] theorem State.setCore_unmarks (s : State) (c : Nat) (x : Core) : (s.setCore c x).unmarks = s.unmarks := rfl
@[simp] theorem State.setCore_gangBars (s : State) (c : Nat) (x : Core) : (s.setCore c x).gangBars = s.gangBars := rfl
@[simp] theorem State.setCore_stamp (s : State) (c : Nat) (x : Core) : (s.setCore c x).stamp = s.stamp := rfl
@[simp] theorem State.setCore_shrunk (s : State) (c : Nat) (x : Core) : (s.setCore c x).shrunk = s.shrunk := rfl
@[simp] theorem State.setCore_recorded (s : State) (c : Nat) (x : Core) : (s.setCore c x).recorded = s.recorded := rfl
@[simp] theorem State.setCore_locked (s : State) (c : Nat) (x : Core) : (s.setCore c x).locked = s.locked := rfl
@[simp] theorem State.setCore_ticket (s : State) (c : Nat) (x : Core) : (s.setCore c x).ticket = s.ticket := rfl
@[simp] theorem State.setCore_ticketQ (s : State) (c : Nat) (x : Core) : (s.setCore c x).ticketQ = s.ticketQ := rfl
@[simp] theorem State.setCore_invals (s : State) (c : Nat) (x : Core) : (s.setCore c x).invals = s.invals := rfl
@[simp] theorem State.setCore_transGen (s : State) (c : Nat) (x : Core) : (s.setCore c x).transGen = s.transGen := rfl
@[simp] theorem State.setCore_tinvFull (s : State) (c : Nat) (x : Core) : (s.setCore c x).tinvFull = s.tinvFull := rfl
@[simp] theorem State.setCore_tinvErr (s : State) (c : Nat) (x : Core) : (s.setCore c x).tinvErr = s.tinvErr := rfl
@[simp] theorem State.setCore_bias (s : State) (c : Nat) (x : Core) : (s.setCore c x).bias = s.bias := rfl
@[simp] theorem State.setCore_lapse (s : State) (c : Nat) (x : Core) : (s.setCore c x).lapse = s.lapse := rfl
@[simp] theorem State.setCore_leases (s : State) (c : Nat) (x : Core) : (s.setCore c x).leases = s.leases := rfl
@[simp] theorem State.setCore_dirty (s : State) (c : Nat) (x : Core) : (s.setCore c x).dirty = s.dirty := rfl
@[simp] theorem State.setCore_devErr (s : State) (c : Nat) (x : Core) : (s.setCore c x).devErr = s.devErr := rfl
@[simp] theorem State.setCore_mailboxes (s : State) (c : Nat) (x : Core) : (s.setCore c x).mailboxes = s.mailboxes := rfl
@[simp] theorem State.setCore_arrivals (s : State) (c : Nat) (x : Core) : (s.setCore c x).arrivals = s.arrivals := rfl
@[simp] theorem State.setCore_flows (s : State) (c : Nat) (x : Core) : (s.setCore c x).flows = s.flows := rfl
@[simp] theorem State.setCore_sent (s : State) (c : Nat) (x : Core) : (s.setCore c x).sent = s.sent := rfl
@[simp] theorem State.setCore_latch (s : State) (c : Nat) (x : Core) : (s.setCore c x).latch = s.latch := rfl
@[simp] theorem State.setCore_gated (s : State) (c : Nat) (x : Core) : (s.setCore c x).gated = s.gated := rfl
@[simp] theorem State.setCore_requests (s : State) (c : Nat) (x : Core) : (s.setCore c x).requests = s.requests := rfl
@[simp] theorem State.setCore_leader (s : State) (c : Nat) (x : Core) : (s.setCore c x).leader = s.leader := rfl
@[simp] theorem State.setCore_power (s : State) (c : Nat) (x : Core) : (s.setCore c x).power = s.power := rfl
@[simp] theorem State.setCore_boot (s : State) (c : Nat) (x : Core) : (s.setCore c x).boot = s.boot := rfl
@[simp] theorem State.setCore_ports (s : State) (c : Nat) (x : Core) : (s.setCore c x).ports = s.ports := rfl
@[simp] theorem State.setCore_pcie (s : State) (c : Nat) (x : Core) : (s.setCore c x).pcie = s.pcie := rfl
@[simp] theorem State.setCore_ioRegs (s : State) (c : Nat) (x : Core) : (s.setCore c x).ioRegs = s.ioRegs := rfl
@[simp] theorem State.setCore_kernels (s : State) (c : Nat) (x : Core) : (s.setCore c x).kernels = s.kernels := rfl
@[simp] theorem State.setCore_plates (s : State) (c : Nat) (x : Core) : (s.setCore c x).plates = s.plates := rfl
@[simp] theorem State.setCore_log (s : State) (c : Nat) (x : Core) : (s.setCore c x).log = s.log := rfl
@[simp] theorem State.setCore_sigs (s : State) (c : Nat) (x : Core) : (s.setCore c x).sigs = s.sigs := rfl
@[simp] theorem State.setCore_replay (s : State) (c : Nat) (x : Core) : (s.setCore c x).replay = s.replay := rfl
@[simp] theorem State.setCore_msis (s : State) (c : Nat) (x : Core) : (s.setCore c x).msis = s.msis := rfl
@[simp] theorem State.setCore_readData (s : State) (c : Nat) (x : Core) : (s.setCore c x).readData = s.readData := rfl

@[simp] theorem State.setCluster_agenda (s : State) (c : Nat) (x : Cluster) : (s.setCluster c x).agenda = s.agenda := rfl
@[simp] theorem State.setCluster_cur (s : State) (c : Nat) (x : Cluster) : (s.setCluster c x).cur = s.cur := rfl
@[simp] theorem State.setCluster_only (s : State) (c : Nat) (x : Cluster) : (s.setCluster c x).only = s.only := rfl
@[simp] theorem State.setCluster_tick (s : State) (c : Nat) (x : Cluster) : (s.setCluster c x).tick = s.tick := rfl
@[simp] theorem State.setCluster_ac (s : State) (c : Nat) (x : Cluster) : (s.setCluster c x).ac = s.ac := rfl
@[simp] theorem State.setCluster_time (s : State) (c : Nat) (x : Cluster) : (s.setCluster c x).time = s.time := rfl
@[simp] theorem State.setCluster_phase (s : State) (c : Nat) (x : Cluster) : (s.setCluster c x).phase = s.phase := rfl
@[simp] theorem State.setCluster_leaseZero (s : State) (c : Nat) (x : Cluster) : (s.setCluster c x).leaseZero = s.leaseZero := rfl
@[simp] theorem State.setCluster_wrapping (s : State) (c : Nat) (x : Cluster) : (s.setCluster c x).wrapping = s.wrapping := rfl
@[simp] theorem State.setCluster_mem (s : State) (c : Nat) (x : Cluster) : (s.setCluster c x).mem = s.mem := rfl
@[simp] theorem State.setCluster_flaws (s : State) (c : Nat) (x : Cluster) : (s.setCluster c x).flaws = s.flaws := rfl
@[simp] theorem State.setCluster_regs (s : State) (c : Nat) (x : Cluster) : (s.setCluster c x).regs = s.regs := rfl
@[simp] theorem State.setCluster_tasks (s : State) (c : Nat) (x : Cluster) : (s.setCluster c x).tasks = s.tasks := rfl
@[simp] theorem State.setCluster_grids (s : State) (c : Nat) (x : Cluster) : (s.setCluster c x).grids = s.grids := rfl
@[simp] theorem State.setCluster_nextGrid (s : State) (c : Nat) (x : Cluster) : (s.setCluster c x).nextGrid = s.nextGrid := rfl
@[simp] theorem State.setCluster_cores (s : State) (c : Nat) (x : Cluster) : (s.setCluster c x).cores = s.cores := rfl
@[simp] theorem State.setCluster_ctxs (s : State) (c : Nat) (x : Cluster) : (s.setCluster c x).ctxs = s.ctxs := rfl
@[simp] theorem State.setCluster_stewards (s : State) (c : Nat) (x : Cluster) : (s.setCluster c x).stewards = s.stewards := rfl
@[simp] theorem State.setCluster_units (s : State) (c : Nat) (x : Cluster) : (s.setCluster c x).units = s.units := rfl
@[simp] theorem State.setCluster_asked (s : State) (c : Nat) (x : Cluster) : (s.setCluster c x).asked = s.asked := rfl
@[simp] theorem State.setCluster_unmarks (s : State) (c : Nat) (x : Cluster) : (s.setCluster c x).unmarks = s.unmarks := rfl
@[simp] theorem State.setCluster_gangBars (s : State) (c : Nat) (x : Cluster) : (s.setCluster c x).gangBars = s.gangBars := rfl
@[simp] theorem State.setCluster_stamp (s : State) (c : Nat) (x : Cluster) : (s.setCluster c x).stamp = s.stamp := rfl
@[simp] theorem State.setCluster_shrunk (s : State) (c : Nat) (x : Cluster) : (s.setCluster c x).shrunk = s.shrunk := rfl
@[simp] theorem State.setCluster_recorded (s : State) (c : Nat) (x : Cluster) : (s.setCluster c x).recorded = s.recorded := rfl
@[simp] theorem State.setCluster_locked (s : State) (c : Nat) (x : Cluster) : (s.setCluster c x).locked = s.locked := rfl
@[simp] theorem State.setCluster_ticket (s : State) (c : Nat) (x : Cluster) : (s.setCluster c x).ticket = s.ticket := rfl
@[simp] theorem State.setCluster_ticketQ (s : State) (c : Nat) (x : Cluster) : (s.setCluster c x).ticketQ = s.ticketQ := rfl
@[simp] theorem State.setCluster_invals (s : State) (c : Nat) (x : Cluster) : (s.setCluster c x).invals = s.invals := rfl
@[simp] theorem State.setCluster_transGen (s : State) (c : Nat) (x : Cluster) : (s.setCluster c x).transGen = s.transGen := rfl
@[simp] theorem State.setCluster_tinvFull (s : State) (c : Nat) (x : Cluster) : (s.setCluster c x).tinvFull = s.tinvFull := rfl
@[simp] theorem State.setCluster_tinvErr (s : State) (c : Nat) (x : Cluster) : (s.setCluster c x).tinvErr = s.tinvErr := rfl
@[simp] theorem State.setCluster_bias (s : State) (c : Nat) (x : Cluster) : (s.setCluster c x).bias = s.bias := rfl
@[simp] theorem State.setCluster_lapse (s : State) (c : Nat) (x : Cluster) : (s.setCluster c x).lapse = s.lapse := rfl
@[simp] theorem State.setCluster_leases (s : State) (c : Nat) (x : Cluster) : (s.setCluster c x).leases = s.leases := rfl
@[simp] theorem State.setCluster_dirty (s : State) (c : Nat) (x : Cluster) : (s.setCluster c x).dirty = s.dirty := rfl
@[simp] theorem State.setCluster_devErr (s : State) (c : Nat) (x : Cluster) : (s.setCluster c x).devErr = s.devErr := rfl
@[simp] theorem State.setCluster_mailboxes (s : State) (c : Nat) (x : Cluster) : (s.setCluster c x).mailboxes = s.mailboxes := rfl
@[simp] theorem State.setCluster_arrivals (s : State) (c : Nat) (x : Cluster) : (s.setCluster c x).arrivals = s.arrivals := rfl
@[simp] theorem State.setCluster_flows (s : State) (c : Nat) (x : Cluster) : (s.setCluster c x).flows = s.flows := rfl
@[simp] theorem State.setCluster_sent (s : State) (c : Nat) (x : Cluster) : (s.setCluster c x).sent = s.sent := rfl
@[simp] theorem State.setCluster_latch (s : State) (c : Nat) (x : Cluster) : (s.setCluster c x).latch = s.latch := rfl
@[simp] theorem State.setCluster_gated (s : State) (c : Nat) (x : Cluster) : (s.setCluster c x).gated = s.gated := rfl
@[simp] theorem State.setCluster_requests (s : State) (c : Nat) (x : Cluster) : (s.setCluster c x).requests = s.requests := rfl
@[simp] theorem State.setCluster_leader (s : State) (c : Nat) (x : Cluster) : (s.setCluster c x).leader = s.leader := rfl
@[simp] theorem State.setCluster_power (s : State) (c : Nat) (x : Cluster) : (s.setCluster c x).power = s.power := rfl
@[simp] theorem State.setCluster_boot (s : State) (c : Nat) (x : Cluster) : (s.setCluster c x).boot = s.boot := rfl
@[simp] theorem State.setCluster_ports (s : State) (c : Nat) (x : Cluster) : (s.setCluster c x).ports = s.ports := rfl
@[simp] theorem State.setCluster_pcie (s : State) (c : Nat) (x : Cluster) : (s.setCluster c x).pcie = s.pcie := rfl
@[simp] theorem State.setCluster_ioRegs (s : State) (c : Nat) (x : Cluster) : (s.setCluster c x).ioRegs = s.ioRegs := rfl
@[simp] theorem State.setCluster_kernels (s : State) (c : Nat) (x : Cluster) : (s.setCluster c x).kernels = s.kernels := rfl
@[simp] theorem State.setCluster_plates (s : State) (c : Nat) (x : Cluster) : (s.setCluster c x).plates = s.plates := rfl
@[simp] theorem State.setCluster_log (s : State) (c : Nat) (x : Cluster) : (s.setCluster c x).log = s.log := rfl
@[simp] theorem State.setCluster_sigs (s : State) (c : Nat) (x : Cluster) : (s.setCluster c x).sigs = s.sigs := rfl
@[simp] theorem State.setCluster_replay (s : State) (c : Nat) (x : Cluster) : (s.setCluster c x).replay = s.replay := rfl
@[simp] theorem State.setCluster_msis (s : State) (c : Nat) (x : Cluster) : (s.setCluster c x).msis = s.msis := rfl
@[simp] theorem State.setCluster_readData (s : State) (c : Nat) (x : Cluster) : (s.setCluster c x).readData = s.readData := rfl

@[simp] theorem State.setCtx_agenda (s : State) (c : Nat) (x : Ctx) : (s.setCtx c x).agenda = s.agenda := rfl
@[simp] theorem State.setCtx_cur (s : State) (c : Nat) (x : Ctx) : (s.setCtx c x).cur = s.cur := rfl
@[simp] theorem State.setCtx_only (s : State) (c : Nat) (x : Ctx) : (s.setCtx c x).only = s.only := rfl
@[simp] theorem State.setCtx_tick (s : State) (c : Nat) (x : Ctx) : (s.setCtx c x).tick = s.tick := rfl
@[simp] theorem State.setCtx_ac (s : State) (c : Nat) (x : Ctx) : (s.setCtx c x).ac = s.ac := rfl
@[simp] theorem State.setCtx_time (s : State) (c : Nat) (x : Ctx) : (s.setCtx c x).time = s.time := rfl
@[simp] theorem State.setCtx_phase (s : State) (c : Nat) (x : Ctx) : (s.setCtx c x).phase = s.phase := rfl
@[simp] theorem State.setCtx_leaseZero (s : State) (c : Nat) (x : Ctx) : (s.setCtx c x).leaseZero = s.leaseZero := rfl
@[simp] theorem State.setCtx_wrapping (s : State) (c : Nat) (x : Ctx) : (s.setCtx c x).wrapping = s.wrapping := rfl
@[simp] theorem State.setCtx_mem (s : State) (c : Nat) (x : Ctx) : (s.setCtx c x).mem = s.mem := rfl
@[simp] theorem State.setCtx_flaws (s : State) (c : Nat) (x : Ctx) : (s.setCtx c x).flaws = s.flaws := rfl
@[simp] theorem State.setCtx_regs (s : State) (c : Nat) (x : Ctx) : (s.setCtx c x).regs = s.regs := rfl
@[simp] theorem State.setCtx_tasks (s : State) (c : Nat) (x : Ctx) : (s.setCtx c x).tasks = s.tasks := rfl
@[simp] theorem State.setCtx_grids (s : State) (c : Nat) (x : Ctx) : (s.setCtx c x).grids = s.grids := rfl
@[simp] theorem State.setCtx_nextGrid (s : State) (c : Nat) (x : Ctx) : (s.setCtx c x).nextGrid = s.nextGrid := rfl
@[simp] theorem State.setCtx_cores (s : State) (c : Nat) (x : Ctx) : (s.setCtx c x).cores = s.cores := rfl
@[simp] theorem State.setCtx_clusters (s : State) (c : Nat) (x : Ctx) : (s.setCtx c x).clusters = s.clusters := rfl
@[simp] theorem State.setCtx_stewards (s : State) (c : Nat) (x : Ctx) : (s.setCtx c x).stewards = s.stewards := rfl
@[simp] theorem State.setCtx_units (s : State) (c : Nat) (x : Ctx) : (s.setCtx c x).units = s.units := rfl
@[simp] theorem State.setCtx_asked (s : State) (c : Nat) (x : Ctx) : (s.setCtx c x).asked = s.asked := rfl
@[simp] theorem State.setCtx_unmarks (s : State) (c : Nat) (x : Ctx) : (s.setCtx c x).unmarks = s.unmarks := rfl
@[simp] theorem State.setCtx_gangBars (s : State) (c : Nat) (x : Ctx) : (s.setCtx c x).gangBars = s.gangBars := rfl
@[simp] theorem State.setCtx_stamp (s : State) (c : Nat) (x : Ctx) : (s.setCtx c x).stamp = s.stamp := rfl
@[simp] theorem State.setCtx_shrunk (s : State) (c : Nat) (x : Ctx) : (s.setCtx c x).shrunk = s.shrunk := rfl
@[simp] theorem State.setCtx_recorded (s : State) (c : Nat) (x : Ctx) : (s.setCtx c x).recorded = s.recorded := rfl
@[simp] theorem State.setCtx_locked (s : State) (c : Nat) (x : Ctx) : (s.setCtx c x).locked = s.locked := rfl
@[simp] theorem State.setCtx_ticket (s : State) (c : Nat) (x : Ctx) : (s.setCtx c x).ticket = s.ticket := rfl
@[simp] theorem State.setCtx_ticketQ (s : State) (c : Nat) (x : Ctx) : (s.setCtx c x).ticketQ = s.ticketQ := rfl
@[simp] theorem State.setCtx_invals (s : State) (c : Nat) (x : Ctx) : (s.setCtx c x).invals = s.invals := rfl
@[simp] theorem State.setCtx_transGen (s : State) (c : Nat) (x : Ctx) : (s.setCtx c x).transGen = s.transGen := rfl
@[simp] theorem State.setCtx_tinvFull (s : State) (c : Nat) (x : Ctx) : (s.setCtx c x).tinvFull = s.tinvFull := rfl
@[simp] theorem State.setCtx_tinvErr (s : State) (c : Nat) (x : Ctx) : (s.setCtx c x).tinvErr = s.tinvErr := rfl
@[simp] theorem State.setCtx_bias (s : State) (c : Nat) (x : Ctx) : (s.setCtx c x).bias = s.bias := rfl
@[simp] theorem State.setCtx_lapse (s : State) (c : Nat) (x : Ctx) : (s.setCtx c x).lapse = s.lapse := rfl
@[simp] theorem State.setCtx_leases (s : State) (c : Nat) (x : Ctx) : (s.setCtx c x).leases = s.leases := rfl
@[simp] theorem State.setCtx_dirty (s : State) (c : Nat) (x : Ctx) : (s.setCtx c x).dirty = s.dirty := rfl
@[simp] theorem State.setCtx_devErr (s : State) (c : Nat) (x : Ctx) : (s.setCtx c x).devErr = s.devErr := rfl
@[simp] theorem State.setCtx_mailboxes (s : State) (c : Nat) (x : Ctx) : (s.setCtx c x).mailboxes = s.mailboxes := rfl
@[simp] theorem State.setCtx_arrivals (s : State) (c : Nat) (x : Ctx) : (s.setCtx c x).arrivals = s.arrivals := rfl
@[simp] theorem State.setCtx_flows (s : State) (c : Nat) (x : Ctx) : (s.setCtx c x).flows = s.flows := rfl
@[simp] theorem State.setCtx_sent (s : State) (c : Nat) (x : Ctx) : (s.setCtx c x).sent = s.sent := rfl
@[simp] theorem State.setCtx_latch (s : State) (c : Nat) (x : Ctx) : (s.setCtx c x).latch = s.latch := rfl
@[simp] theorem State.setCtx_gated (s : State) (c : Nat) (x : Ctx) : (s.setCtx c x).gated = s.gated := rfl
@[simp] theorem State.setCtx_requests (s : State) (c : Nat) (x : Ctx) : (s.setCtx c x).requests = s.requests := rfl
@[simp] theorem State.setCtx_leader (s : State) (c : Nat) (x : Ctx) : (s.setCtx c x).leader = s.leader := rfl
@[simp] theorem State.setCtx_power (s : State) (c : Nat) (x : Ctx) : (s.setCtx c x).power = s.power := rfl
@[simp] theorem State.setCtx_boot (s : State) (c : Nat) (x : Ctx) : (s.setCtx c x).boot = s.boot := rfl
@[simp] theorem State.setCtx_ports (s : State) (c : Nat) (x : Ctx) : (s.setCtx c x).ports = s.ports := rfl
@[simp] theorem State.setCtx_pcie (s : State) (c : Nat) (x : Ctx) : (s.setCtx c x).pcie = s.pcie := rfl
@[simp] theorem State.setCtx_ioRegs (s : State) (c : Nat) (x : Ctx) : (s.setCtx c x).ioRegs = s.ioRegs := rfl
@[simp] theorem State.setCtx_kernels (s : State) (c : Nat) (x : Ctx) : (s.setCtx c x).kernels = s.kernels := rfl
@[simp] theorem State.setCtx_plates (s : State) (c : Nat) (x : Ctx) : (s.setCtx c x).plates = s.plates := rfl
@[simp] theorem State.setCtx_log (s : State) (c : Nat) (x : Ctx) : (s.setCtx c x).log = s.log := rfl
@[simp] theorem State.setCtx_sigs (s : State) (c : Nat) (x : Ctx) : (s.setCtx c x).sigs = s.sigs := rfl
@[simp] theorem State.setCtx_replay (s : State) (c : Nat) (x : Ctx) : (s.setCtx c x).replay = s.replay := rfl
@[simp] theorem State.setCtx_msis (s : State) (c : Nat) (x : Ctx) : (s.setCtx c x).msis = s.msis := rfl
@[simp] theorem State.setCtx_readData (s : State) (c : Nat) (x : Ctx) : (s.setCtx c x).readData = s.readData := rfl

@[simp] theorem State.setSteward_agenda (s : State) (c : Nat) (x : Steward) : (s.setSteward c x).agenda = s.agenda := rfl
@[simp] theorem State.setSteward_cur (s : State) (c : Nat) (x : Steward) : (s.setSteward c x).cur = s.cur := rfl
@[simp] theorem State.setSteward_only (s : State) (c : Nat) (x : Steward) : (s.setSteward c x).only = s.only := rfl
@[simp] theorem State.setSteward_tick (s : State) (c : Nat) (x : Steward) : (s.setSteward c x).tick = s.tick := rfl
@[simp] theorem State.setSteward_ac (s : State) (c : Nat) (x : Steward) : (s.setSteward c x).ac = s.ac := rfl
@[simp] theorem State.setSteward_time (s : State) (c : Nat) (x : Steward) : (s.setSteward c x).time = s.time := rfl
@[simp] theorem State.setSteward_phase (s : State) (c : Nat) (x : Steward) : (s.setSteward c x).phase = s.phase := rfl
@[simp] theorem State.setSteward_leaseZero (s : State) (c : Nat) (x : Steward) : (s.setSteward c x).leaseZero = s.leaseZero := rfl
@[simp] theorem State.setSteward_wrapping (s : State) (c : Nat) (x : Steward) : (s.setSteward c x).wrapping = s.wrapping := rfl
@[simp] theorem State.setSteward_mem (s : State) (c : Nat) (x : Steward) : (s.setSteward c x).mem = s.mem := rfl
@[simp] theorem State.setSteward_flaws (s : State) (c : Nat) (x : Steward) : (s.setSteward c x).flaws = s.flaws := rfl
@[simp] theorem State.setSteward_regs (s : State) (c : Nat) (x : Steward) : (s.setSteward c x).regs = s.regs := rfl
@[simp] theorem State.setSteward_tasks (s : State) (c : Nat) (x : Steward) : (s.setSteward c x).tasks = s.tasks := rfl
@[simp] theorem State.setSteward_grids (s : State) (c : Nat) (x : Steward) : (s.setSteward c x).grids = s.grids := rfl
@[simp] theorem State.setSteward_nextGrid (s : State) (c : Nat) (x : Steward) : (s.setSteward c x).nextGrid = s.nextGrid := rfl
@[simp] theorem State.setSteward_cores (s : State) (c : Nat) (x : Steward) : (s.setSteward c x).cores = s.cores := rfl
@[simp] theorem State.setSteward_clusters (s : State) (c : Nat) (x : Steward) : (s.setSteward c x).clusters = s.clusters := rfl
@[simp] theorem State.setSteward_ctxs (s : State) (c : Nat) (x : Steward) : (s.setSteward c x).ctxs = s.ctxs := rfl
@[simp] theorem State.setSteward_units (s : State) (c : Nat) (x : Steward) : (s.setSteward c x).units = s.units := rfl
@[simp] theorem State.setSteward_asked (s : State) (c : Nat) (x : Steward) : (s.setSteward c x).asked = s.asked := rfl
@[simp] theorem State.setSteward_unmarks (s : State) (c : Nat) (x : Steward) : (s.setSteward c x).unmarks = s.unmarks := rfl
@[simp] theorem State.setSteward_gangBars (s : State) (c : Nat) (x : Steward) : (s.setSteward c x).gangBars = s.gangBars := rfl
@[simp] theorem State.setSteward_stamp (s : State) (c : Nat) (x : Steward) : (s.setSteward c x).stamp = s.stamp := rfl
@[simp] theorem State.setSteward_shrunk (s : State) (c : Nat) (x : Steward) : (s.setSteward c x).shrunk = s.shrunk := rfl
@[simp] theorem State.setSteward_recorded (s : State) (c : Nat) (x : Steward) : (s.setSteward c x).recorded = s.recorded := rfl
@[simp] theorem State.setSteward_locked (s : State) (c : Nat) (x : Steward) : (s.setSteward c x).locked = s.locked := rfl
@[simp] theorem State.setSteward_ticket (s : State) (c : Nat) (x : Steward) : (s.setSteward c x).ticket = s.ticket := rfl
@[simp] theorem State.setSteward_ticketQ (s : State) (c : Nat) (x : Steward) : (s.setSteward c x).ticketQ = s.ticketQ := rfl
@[simp] theorem State.setSteward_invals (s : State) (c : Nat) (x : Steward) : (s.setSteward c x).invals = s.invals := rfl
@[simp] theorem State.setSteward_transGen (s : State) (c : Nat) (x : Steward) : (s.setSteward c x).transGen = s.transGen := rfl
@[simp] theorem State.setSteward_tinvFull (s : State) (c : Nat) (x : Steward) : (s.setSteward c x).tinvFull = s.tinvFull := rfl
@[simp] theorem State.setSteward_tinvErr (s : State) (c : Nat) (x : Steward) : (s.setSteward c x).tinvErr = s.tinvErr := rfl
@[simp] theorem State.setSteward_bias (s : State) (c : Nat) (x : Steward) : (s.setSteward c x).bias = s.bias := rfl
@[simp] theorem State.setSteward_lapse (s : State) (c : Nat) (x : Steward) : (s.setSteward c x).lapse = s.lapse := rfl
@[simp] theorem State.setSteward_leases (s : State) (c : Nat) (x : Steward) : (s.setSteward c x).leases = s.leases := rfl
@[simp] theorem State.setSteward_dirty (s : State) (c : Nat) (x : Steward) : (s.setSteward c x).dirty = s.dirty := rfl
@[simp] theorem State.setSteward_devErr (s : State) (c : Nat) (x : Steward) : (s.setSteward c x).devErr = s.devErr := rfl
@[simp] theorem State.setSteward_mailboxes (s : State) (c : Nat) (x : Steward) : (s.setSteward c x).mailboxes = s.mailboxes := rfl
@[simp] theorem State.setSteward_arrivals (s : State) (c : Nat) (x : Steward) : (s.setSteward c x).arrivals = s.arrivals := rfl
@[simp] theorem State.setSteward_flows (s : State) (c : Nat) (x : Steward) : (s.setSteward c x).flows = s.flows := rfl
@[simp] theorem State.setSteward_sent (s : State) (c : Nat) (x : Steward) : (s.setSteward c x).sent = s.sent := rfl
@[simp] theorem State.setSteward_latch (s : State) (c : Nat) (x : Steward) : (s.setSteward c x).latch = s.latch := rfl
@[simp] theorem State.setSteward_gated (s : State) (c : Nat) (x : Steward) : (s.setSteward c x).gated = s.gated := rfl
@[simp] theorem State.setSteward_requests (s : State) (c : Nat) (x : Steward) : (s.setSteward c x).requests = s.requests := rfl
@[simp] theorem State.setSteward_leader (s : State) (c : Nat) (x : Steward) : (s.setSteward c x).leader = s.leader := rfl
@[simp] theorem State.setSteward_power (s : State) (c : Nat) (x : Steward) : (s.setSteward c x).power = s.power := rfl
@[simp] theorem State.setSteward_boot (s : State) (c : Nat) (x : Steward) : (s.setSteward c x).boot = s.boot := rfl
@[simp] theorem State.setSteward_ports (s : State) (c : Nat) (x : Steward) : (s.setSteward c x).ports = s.ports := rfl
@[simp] theorem State.setSteward_pcie (s : State) (c : Nat) (x : Steward) : (s.setSteward c x).pcie = s.pcie := rfl
@[simp] theorem State.setSteward_ioRegs (s : State) (c : Nat) (x : Steward) : (s.setSteward c x).ioRegs = s.ioRegs := rfl
@[simp] theorem State.setSteward_kernels (s : State) (c : Nat) (x : Steward) : (s.setSteward c x).kernels = s.kernels := rfl
@[simp] theorem State.setSteward_plates (s : State) (c : Nat) (x : Steward) : (s.setSteward c x).plates = s.plates := rfl
@[simp] theorem State.setSteward_log (s : State) (c : Nat) (x : Steward) : (s.setSteward c x).log = s.log := rfl
@[simp] theorem State.setSteward_sigs (s : State) (c : Nat) (x : Steward) : (s.setSteward c x).sigs = s.sigs := rfl
@[simp] theorem State.setSteward_replay (s : State) (c : Nat) (x : Steward) : (s.setSteward c x).replay = s.replay := rfl
@[simp] theorem State.setSteward_msis (s : State) (c : Nat) (x : Steward) : (s.setSteward c x).msis = s.msis := rfl
@[simp] theorem State.setSteward_readData (s : State) (c : Nat) (x : Steward) : (s.setSteward c x).readData = s.readData := rfl

@[simp] theorem State.setTask_agenda (s : State) (c : Nat) (x : Task) : (s.setTask c x).agenda = s.agenda := rfl
@[simp] theorem State.setTask_cur (s : State) (c : Nat) (x : Task) : (s.setTask c x).cur = s.cur := rfl
@[simp] theorem State.setTask_only (s : State) (c : Nat) (x : Task) : (s.setTask c x).only = s.only := rfl
@[simp] theorem State.setTask_tick (s : State) (c : Nat) (x : Task) : (s.setTask c x).tick = s.tick := rfl
@[simp] theorem State.setTask_ac (s : State) (c : Nat) (x : Task) : (s.setTask c x).ac = s.ac := rfl
@[simp] theorem State.setTask_time (s : State) (c : Nat) (x : Task) : (s.setTask c x).time = s.time := rfl
@[simp] theorem State.setTask_phase (s : State) (c : Nat) (x : Task) : (s.setTask c x).phase = s.phase := rfl
@[simp] theorem State.setTask_leaseZero (s : State) (c : Nat) (x : Task) : (s.setTask c x).leaseZero = s.leaseZero := rfl
@[simp] theorem State.setTask_wrapping (s : State) (c : Nat) (x : Task) : (s.setTask c x).wrapping = s.wrapping := rfl
@[simp] theorem State.setTask_mem (s : State) (c : Nat) (x : Task) : (s.setTask c x).mem = s.mem := rfl
@[simp] theorem State.setTask_flaws (s : State) (c : Nat) (x : Task) : (s.setTask c x).flaws = s.flaws := rfl
@[simp] theorem State.setTask_regs (s : State) (c : Nat) (x : Task) : (s.setTask c x).regs = s.regs := rfl
@[simp] theorem State.setTask_grids (s : State) (c : Nat) (x : Task) : (s.setTask c x).grids = s.grids := rfl
@[simp] theorem State.setTask_nextGrid (s : State) (c : Nat) (x : Task) : (s.setTask c x).nextGrid = s.nextGrid := rfl
@[simp] theorem State.setTask_cores (s : State) (c : Nat) (x : Task) : (s.setTask c x).cores = s.cores := rfl
@[simp] theorem State.setTask_clusters (s : State) (c : Nat) (x : Task) : (s.setTask c x).clusters = s.clusters := rfl
@[simp] theorem State.setTask_ctxs (s : State) (c : Nat) (x : Task) : (s.setTask c x).ctxs = s.ctxs := rfl
@[simp] theorem State.setTask_stewards (s : State) (c : Nat) (x : Task) : (s.setTask c x).stewards = s.stewards := rfl
@[simp] theorem State.setTask_units (s : State) (c : Nat) (x : Task) : (s.setTask c x).units = s.units := rfl
@[simp] theorem State.setTask_asked (s : State) (c : Nat) (x : Task) : (s.setTask c x).asked = s.asked := rfl
@[simp] theorem State.setTask_unmarks (s : State) (c : Nat) (x : Task) : (s.setTask c x).unmarks = s.unmarks := rfl
@[simp] theorem State.setTask_gangBars (s : State) (c : Nat) (x : Task) : (s.setTask c x).gangBars = s.gangBars := rfl
@[simp] theorem State.setTask_stamp (s : State) (c : Nat) (x : Task) : (s.setTask c x).stamp = s.stamp := rfl
@[simp] theorem State.setTask_shrunk (s : State) (c : Nat) (x : Task) : (s.setTask c x).shrunk = s.shrunk := rfl
@[simp] theorem State.setTask_recorded (s : State) (c : Nat) (x : Task) : (s.setTask c x).recorded = s.recorded := rfl
@[simp] theorem State.setTask_locked (s : State) (c : Nat) (x : Task) : (s.setTask c x).locked = s.locked := rfl
@[simp] theorem State.setTask_ticket (s : State) (c : Nat) (x : Task) : (s.setTask c x).ticket = s.ticket := rfl
@[simp] theorem State.setTask_ticketQ (s : State) (c : Nat) (x : Task) : (s.setTask c x).ticketQ = s.ticketQ := rfl
@[simp] theorem State.setTask_invals (s : State) (c : Nat) (x : Task) : (s.setTask c x).invals = s.invals := rfl
@[simp] theorem State.setTask_transGen (s : State) (c : Nat) (x : Task) : (s.setTask c x).transGen = s.transGen := rfl
@[simp] theorem State.setTask_tinvFull (s : State) (c : Nat) (x : Task) : (s.setTask c x).tinvFull = s.tinvFull := rfl
@[simp] theorem State.setTask_tinvErr (s : State) (c : Nat) (x : Task) : (s.setTask c x).tinvErr = s.tinvErr := rfl
@[simp] theorem State.setTask_bias (s : State) (c : Nat) (x : Task) : (s.setTask c x).bias = s.bias := rfl
@[simp] theorem State.setTask_lapse (s : State) (c : Nat) (x : Task) : (s.setTask c x).lapse = s.lapse := rfl
@[simp] theorem State.setTask_leases (s : State) (c : Nat) (x : Task) : (s.setTask c x).leases = s.leases := rfl
@[simp] theorem State.setTask_dirty (s : State) (c : Nat) (x : Task) : (s.setTask c x).dirty = s.dirty := rfl
@[simp] theorem State.setTask_devErr (s : State) (c : Nat) (x : Task) : (s.setTask c x).devErr = s.devErr := rfl
@[simp] theorem State.setTask_mailboxes (s : State) (c : Nat) (x : Task) : (s.setTask c x).mailboxes = s.mailboxes := rfl
@[simp] theorem State.setTask_arrivals (s : State) (c : Nat) (x : Task) : (s.setTask c x).arrivals = s.arrivals := rfl
@[simp] theorem State.setTask_flows (s : State) (c : Nat) (x : Task) : (s.setTask c x).flows = s.flows := rfl
@[simp] theorem State.setTask_sent (s : State) (c : Nat) (x : Task) : (s.setTask c x).sent = s.sent := rfl
@[simp] theorem State.setTask_latch (s : State) (c : Nat) (x : Task) : (s.setTask c x).latch = s.latch := rfl
@[simp] theorem State.setTask_gated (s : State) (c : Nat) (x : Task) : (s.setTask c x).gated = s.gated := rfl
@[simp] theorem State.setTask_requests (s : State) (c : Nat) (x : Task) : (s.setTask c x).requests = s.requests := rfl
@[simp] theorem State.setTask_leader (s : State) (c : Nat) (x : Task) : (s.setTask c x).leader = s.leader := rfl
@[simp] theorem State.setTask_power (s : State) (c : Nat) (x : Task) : (s.setTask c x).power = s.power := rfl
@[simp] theorem State.setTask_boot (s : State) (c : Nat) (x : Task) : (s.setTask c x).boot = s.boot := rfl
@[simp] theorem State.setTask_ports (s : State) (c : Nat) (x : Task) : (s.setTask c x).ports = s.ports := rfl
@[simp] theorem State.setTask_pcie (s : State) (c : Nat) (x : Task) : (s.setTask c x).pcie = s.pcie := rfl
@[simp] theorem State.setTask_ioRegs (s : State) (c : Nat) (x : Task) : (s.setTask c x).ioRegs = s.ioRegs := rfl
@[simp] theorem State.setTask_kernels (s : State) (c : Nat) (x : Task) : (s.setTask c x).kernels = s.kernels := rfl
@[simp] theorem State.setTask_plates (s : State) (c : Nat) (x : Task) : (s.setTask c x).plates = s.plates := rfl
@[simp] theorem State.setTask_log (s : State) (c : Nat) (x : Task) : (s.setTask c x).log = s.log := rfl
@[simp] theorem State.setTask_sigs (s : State) (c : Nat) (x : Task) : (s.setTask c x).sigs = s.sigs := rfl
@[simp] theorem State.setTask_replay (s : State) (c : Nat) (x : Task) : (s.setTask c x).replay = s.replay := rfl
@[simp] theorem State.setTask_msis (s : State) (c : Nat) (x : Task) : (s.setTask c x).msis = s.msis := rfl
@[simp] theorem State.setTask_readData (s : State) (c : Nat) (x : Task) : (s.setTask c x).readData = s.readData := rfl

@[simp] theorem State.dropTask_agenda (s : State) (c : Nat) : (s.dropTask c).agenda = s.agenda := rfl
@[simp] theorem State.dropTask_cur (s : State) (c : Nat) : (s.dropTask c).cur = s.cur := rfl
@[simp] theorem State.dropTask_only (s : State) (c : Nat) : (s.dropTask c).only = s.only := rfl
@[simp] theorem State.dropTask_tick (s : State) (c : Nat) : (s.dropTask c).tick = s.tick := rfl
@[simp] theorem State.dropTask_ac (s : State) (c : Nat) : (s.dropTask c).ac = s.ac := rfl
@[simp] theorem State.dropTask_time (s : State) (c : Nat) : (s.dropTask c).time = s.time := rfl
@[simp] theorem State.dropTask_phase (s : State) (c : Nat) : (s.dropTask c).phase = s.phase := rfl
@[simp] theorem State.dropTask_leaseZero (s : State) (c : Nat) : (s.dropTask c).leaseZero = s.leaseZero := rfl
@[simp] theorem State.dropTask_wrapping (s : State) (c : Nat) : (s.dropTask c).wrapping = s.wrapping := rfl
@[simp] theorem State.dropTask_mem (s : State) (c : Nat) : (s.dropTask c).mem = s.mem := rfl
@[simp] theorem State.dropTask_flaws (s : State) (c : Nat) : (s.dropTask c).flaws = s.flaws := rfl
@[simp] theorem State.dropTask_regs (s : State) (c : Nat) : (s.dropTask c).regs = s.regs := rfl
@[simp] theorem State.dropTask_grids (s : State) (c : Nat) : (s.dropTask c).grids = s.grids := rfl
@[simp] theorem State.dropTask_nextGrid (s : State) (c : Nat) : (s.dropTask c).nextGrid = s.nextGrid := rfl
@[simp] theorem State.dropTask_cores (s : State) (c : Nat) : (s.dropTask c).cores = s.cores := rfl
@[simp] theorem State.dropTask_clusters (s : State) (c : Nat) : (s.dropTask c).clusters = s.clusters := rfl
@[simp] theorem State.dropTask_ctxs (s : State) (c : Nat) : (s.dropTask c).ctxs = s.ctxs := rfl
@[simp] theorem State.dropTask_stewards (s : State) (c : Nat) : (s.dropTask c).stewards = s.stewards := rfl
@[simp] theorem State.dropTask_units (s : State) (c : Nat) : (s.dropTask c).units = s.units := rfl
@[simp] theorem State.dropTask_asked (s : State) (c : Nat) : (s.dropTask c).asked = s.asked := rfl
@[simp] theorem State.dropTask_unmarks (s : State) (c : Nat) : (s.dropTask c).unmarks = s.unmarks := rfl
@[simp] theorem State.dropTask_gangBars (s : State) (c : Nat) : (s.dropTask c).gangBars = s.gangBars := rfl
@[simp] theorem State.dropTask_stamp (s : State) (c : Nat) : (s.dropTask c).stamp = s.stamp := rfl
@[simp] theorem State.dropTask_shrunk (s : State) (c : Nat) : (s.dropTask c).shrunk = s.shrunk := rfl
@[simp] theorem State.dropTask_recorded (s : State) (c : Nat) : (s.dropTask c).recorded = s.recorded := rfl
@[simp] theorem State.dropTask_locked (s : State) (c : Nat) : (s.dropTask c).locked = s.locked := rfl
@[simp] theorem State.dropTask_ticket (s : State) (c : Nat) : (s.dropTask c).ticket = s.ticket := rfl
@[simp] theorem State.dropTask_ticketQ (s : State) (c : Nat) : (s.dropTask c).ticketQ = s.ticketQ := rfl
@[simp] theorem State.dropTask_invals (s : State) (c : Nat) : (s.dropTask c).invals = s.invals := rfl
@[simp] theorem State.dropTask_transGen (s : State) (c : Nat) : (s.dropTask c).transGen = s.transGen := rfl
@[simp] theorem State.dropTask_tinvFull (s : State) (c : Nat) : (s.dropTask c).tinvFull = s.tinvFull := rfl
@[simp] theorem State.dropTask_tinvErr (s : State) (c : Nat) : (s.dropTask c).tinvErr = s.tinvErr := rfl
@[simp] theorem State.dropTask_bias (s : State) (c : Nat) : (s.dropTask c).bias = s.bias := rfl
@[simp] theorem State.dropTask_lapse (s : State) (c : Nat) : (s.dropTask c).lapse = s.lapse := rfl
@[simp] theorem State.dropTask_leases (s : State) (c : Nat) : (s.dropTask c).leases = s.leases := rfl
@[simp] theorem State.dropTask_dirty (s : State) (c : Nat) : (s.dropTask c).dirty = s.dirty := rfl
@[simp] theorem State.dropTask_devErr (s : State) (c : Nat) : (s.dropTask c).devErr = s.devErr := rfl
@[simp] theorem State.dropTask_mailboxes (s : State) (c : Nat) : (s.dropTask c).mailboxes = s.mailboxes := rfl
@[simp] theorem State.dropTask_arrivals (s : State) (c : Nat) : (s.dropTask c).arrivals = s.arrivals := rfl
@[simp] theorem State.dropTask_flows (s : State) (c : Nat) : (s.dropTask c).flows = s.flows := rfl
@[simp] theorem State.dropTask_sent (s : State) (c : Nat) : (s.dropTask c).sent = s.sent := rfl
@[simp] theorem State.dropTask_latch (s : State) (c : Nat) : (s.dropTask c).latch = s.latch := rfl
@[simp] theorem State.dropTask_gated (s : State) (c : Nat) : (s.dropTask c).gated = s.gated := rfl
@[simp] theorem State.dropTask_requests (s : State) (c : Nat) : (s.dropTask c).requests = s.requests := rfl
@[simp] theorem State.dropTask_leader (s : State) (c : Nat) : (s.dropTask c).leader = s.leader := rfl
@[simp] theorem State.dropTask_power (s : State) (c : Nat) : (s.dropTask c).power = s.power := rfl
@[simp] theorem State.dropTask_boot (s : State) (c : Nat) : (s.dropTask c).boot = s.boot := rfl
@[simp] theorem State.dropTask_ports (s : State) (c : Nat) : (s.dropTask c).ports = s.ports := rfl
@[simp] theorem State.dropTask_pcie (s : State) (c : Nat) : (s.dropTask c).pcie = s.pcie := rfl
@[simp] theorem State.dropTask_ioRegs (s : State) (c : Nat) : (s.dropTask c).ioRegs = s.ioRegs := rfl
@[simp] theorem State.dropTask_kernels (s : State) (c : Nat) : (s.dropTask c).kernels = s.kernels := rfl
@[simp] theorem State.dropTask_plates (s : State) (c : Nat) : (s.dropTask c).plates = s.plates := rfl
@[simp] theorem State.dropTask_log (s : State) (c : Nat) : (s.dropTask c).log = s.log := rfl
@[simp] theorem State.dropTask_sigs (s : State) (c : Nat) : (s.dropTask c).sigs = s.sigs := rfl
@[simp] theorem State.dropTask_replay (s : State) (c : Nat) : (s.dropTask c).replay = s.replay := rfl
@[simp] theorem State.dropTask_msis (s : State) (c : Nat) : (s.dropTask c).msis = s.msis := rfl
@[simp] theorem State.dropTask_readData (s : State) (c : Nat) : (s.dropTask c).readData = s.readData := rfl

@[simp] theorem State.setGrid_agenda (s : State) (c : Nat) (x : Grid) : (s.setGrid c x).agenda = s.agenda := rfl
@[simp] theorem State.setGrid_cur (s : State) (c : Nat) (x : Grid) : (s.setGrid c x).cur = s.cur := rfl
@[simp] theorem State.setGrid_only (s : State) (c : Nat) (x : Grid) : (s.setGrid c x).only = s.only := rfl
@[simp] theorem State.setGrid_tick (s : State) (c : Nat) (x : Grid) : (s.setGrid c x).tick = s.tick := rfl
@[simp] theorem State.setGrid_ac (s : State) (c : Nat) (x : Grid) : (s.setGrid c x).ac = s.ac := rfl
@[simp] theorem State.setGrid_time (s : State) (c : Nat) (x : Grid) : (s.setGrid c x).time = s.time := rfl
@[simp] theorem State.setGrid_phase (s : State) (c : Nat) (x : Grid) : (s.setGrid c x).phase = s.phase := rfl
@[simp] theorem State.setGrid_leaseZero (s : State) (c : Nat) (x : Grid) : (s.setGrid c x).leaseZero = s.leaseZero := rfl
@[simp] theorem State.setGrid_wrapping (s : State) (c : Nat) (x : Grid) : (s.setGrid c x).wrapping = s.wrapping := rfl
@[simp] theorem State.setGrid_mem (s : State) (c : Nat) (x : Grid) : (s.setGrid c x).mem = s.mem := rfl
@[simp] theorem State.setGrid_flaws (s : State) (c : Nat) (x : Grid) : (s.setGrid c x).flaws = s.flaws := rfl
@[simp] theorem State.setGrid_regs (s : State) (c : Nat) (x : Grid) : (s.setGrid c x).regs = s.regs := rfl
@[simp] theorem State.setGrid_tasks (s : State) (c : Nat) (x : Grid) : (s.setGrid c x).tasks = s.tasks := rfl
@[simp] theorem State.setGrid_nextGrid (s : State) (c : Nat) (x : Grid) : (s.setGrid c x).nextGrid = s.nextGrid := rfl
@[simp] theorem State.setGrid_cores (s : State) (c : Nat) (x : Grid) : (s.setGrid c x).cores = s.cores := rfl
@[simp] theorem State.setGrid_clusters (s : State) (c : Nat) (x : Grid) : (s.setGrid c x).clusters = s.clusters := rfl
@[simp] theorem State.setGrid_ctxs (s : State) (c : Nat) (x : Grid) : (s.setGrid c x).ctxs = s.ctxs := rfl
@[simp] theorem State.setGrid_stewards (s : State) (c : Nat) (x : Grid) : (s.setGrid c x).stewards = s.stewards := rfl
@[simp] theorem State.setGrid_units (s : State) (c : Nat) (x : Grid) : (s.setGrid c x).units = s.units := rfl
@[simp] theorem State.setGrid_asked (s : State) (c : Nat) (x : Grid) : (s.setGrid c x).asked = s.asked := rfl
@[simp] theorem State.setGrid_unmarks (s : State) (c : Nat) (x : Grid) : (s.setGrid c x).unmarks = s.unmarks := rfl
@[simp] theorem State.setGrid_gangBars (s : State) (c : Nat) (x : Grid) : (s.setGrid c x).gangBars = s.gangBars := rfl
@[simp] theorem State.setGrid_stamp (s : State) (c : Nat) (x : Grid) : (s.setGrid c x).stamp = s.stamp := rfl
@[simp] theorem State.setGrid_shrunk (s : State) (c : Nat) (x : Grid) : (s.setGrid c x).shrunk = s.shrunk := rfl
@[simp] theorem State.setGrid_recorded (s : State) (c : Nat) (x : Grid) : (s.setGrid c x).recorded = s.recorded := rfl
@[simp] theorem State.setGrid_locked (s : State) (c : Nat) (x : Grid) : (s.setGrid c x).locked = s.locked := rfl
@[simp] theorem State.setGrid_ticket (s : State) (c : Nat) (x : Grid) : (s.setGrid c x).ticket = s.ticket := rfl
@[simp] theorem State.setGrid_ticketQ (s : State) (c : Nat) (x : Grid) : (s.setGrid c x).ticketQ = s.ticketQ := rfl
@[simp] theorem State.setGrid_invals (s : State) (c : Nat) (x : Grid) : (s.setGrid c x).invals = s.invals := rfl
@[simp] theorem State.setGrid_transGen (s : State) (c : Nat) (x : Grid) : (s.setGrid c x).transGen = s.transGen := rfl
@[simp] theorem State.setGrid_tinvFull (s : State) (c : Nat) (x : Grid) : (s.setGrid c x).tinvFull = s.tinvFull := rfl
@[simp] theorem State.setGrid_tinvErr (s : State) (c : Nat) (x : Grid) : (s.setGrid c x).tinvErr = s.tinvErr := rfl
@[simp] theorem State.setGrid_bias (s : State) (c : Nat) (x : Grid) : (s.setGrid c x).bias = s.bias := rfl
@[simp] theorem State.setGrid_lapse (s : State) (c : Nat) (x : Grid) : (s.setGrid c x).lapse = s.lapse := rfl
@[simp] theorem State.setGrid_leases (s : State) (c : Nat) (x : Grid) : (s.setGrid c x).leases = s.leases := rfl
@[simp] theorem State.setGrid_dirty (s : State) (c : Nat) (x : Grid) : (s.setGrid c x).dirty = s.dirty := rfl
@[simp] theorem State.setGrid_devErr (s : State) (c : Nat) (x : Grid) : (s.setGrid c x).devErr = s.devErr := rfl
@[simp] theorem State.setGrid_mailboxes (s : State) (c : Nat) (x : Grid) : (s.setGrid c x).mailboxes = s.mailboxes := rfl
@[simp] theorem State.setGrid_arrivals (s : State) (c : Nat) (x : Grid) : (s.setGrid c x).arrivals = s.arrivals := rfl
@[simp] theorem State.setGrid_flows (s : State) (c : Nat) (x : Grid) : (s.setGrid c x).flows = s.flows := rfl
@[simp] theorem State.setGrid_sent (s : State) (c : Nat) (x : Grid) : (s.setGrid c x).sent = s.sent := rfl
@[simp] theorem State.setGrid_latch (s : State) (c : Nat) (x : Grid) : (s.setGrid c x).latch = s.latch := rfl
@[simp] theorem State.setGrid_gated (s : State) (c : Nat) (x : Grid) : (s.setGrid c x).gated = s.gated := rfl
@[simp] theorem State.setGrid_requests (s : State) (c : Nat) (x : Grid) : (s.setGrid c x).requests = s.requests := rfl
@[simp] theorem State.setGrid_leader (s : State) (c : Nat) (x : Grid) : (s.setGrid c x).leader = s.leader := rfl
@[simp] theorem State.setGrid_power (s : State) (c : Nat) (x : Grid) : (s.setGrid c x).power = s.power := rfl
@[simp] theorem State.setGrid_boot (s : State) (c : Nat) (x : Grid) : (s.setGrid c x).boot = s.boot := rfl
@[simp] theorem State.setGrid_ports (s : State) (c : Nat) (x : Grid) : (s.setGrid c x).ports = s.ports := rfl
@[simp] theorem State.setGrid_pcie (s : State) (c : Nat) (x : Grid) : (s.setGrid c x).pcie = s.pcie := rfl
@[simp] theorem State.setGrid_ioRegs (s : State) (c : Nat) (x : Grid) : (s.setGrid c x).ioRegs = s.ioRegs := rfl
@[simp] theorem State.setGrid_kernels (s : State) (c : Nat) (x : Grid) : (s.setGrid c x).kernels = s.kernels := rfl
@[simp] theorem State.setGrid_plates (s : State) (c : Nat) (x : Grid) : (s.setGrid c x).plates = s.plates := rfl
@[simp] theorem State.setGrid_log (s : State) (c : Nat) (x : Grid) : (s.setGrid c x).log = s.log := rfl
@[simp] theorem State.setGrid_sigs (s : State) (c : Nat) (x : Grid) : (s.setGrid c x).sigs = s.sigs := rfl
@[simp] theorem State.setGrid_replay (s : State) (c : Nat) (x : Grid) : (s.setGrid c x).replay = s.replay := rfl
@[simp] theorem State.setGrid_msis (s : State) (c : Nat) (x : Grid) : (s.setGrid c x).msis = s.msis := rfl
@[simp] theorem State.setGrid_readData (s : State) (c : Nat) (x : Grid) : (s.setGrid c x).readData = s.readData := rfl

@[simp] theorem State.setUnit_agenda (s : State) (n c : Nat) (x : Unit) : (s.setUnit n c x).agenda = s.agenda := rfl
@[simp] theorem State.setUnit_cur (s : State) (n c : Nat) (x : Unit) : (s.setUnit n c x).cur = s.cur := rfl
@[simp] theorem State.setUnit_only (s : State) (n c : Nat) (x : Unit) : (s.setUnit n c x).only = s.only := rfl
@[simp] theorem State.setUnit_tick (s : State) (n c : Nat) (x : Unit) : (s.setUnit n c x).tick = s.tick := rfl
@[simp] theorem State.setUnit_ac (s : State) (n c : Nat) (x : Unit) : (s.setUnit n c x).ac = s.ac := rfl
@[simp] theorem State.setUnit_time (s : State) (n c : Nat) (x : Unit) : (s.setUnit n c x).time = s.time := rfl
@[simp] theorem State.setUnit_phase (s : State) (n c : Nat) (x : Unit) : (s.setUnit n c x).phase = s.phase := rfl
@[simp] theorem State.setUnit_leaseZero (s : State) (n c : Nat) (x : Unit) : (s.setUnit n c x).leaseZero = s.leaseZero := rfl
@[simp] theorem State.setUnit_wrapping (s : State) (n c : Nat) (x : Unit) : (s.setUnit n c x).wrapping = s.wrapping := rfl
@[simp] theorem State.setUnit_mem (s : State) (n c : Nat) (x : Unit) : (s.setUnit n c x).mem = s.mem := rfl
@[simp] theorem State.setUnit_flaws (s : State) (n c : Nat) (x : Unit) : (s.setUnit n c x).flaws = s.flaws := rfl
@[simp] theorem State.setUnit_regs (s : State) (n c : Nat) (x : Unit) : (s.setUnit n c x).regs = s.regs := rfl
@[simp] theorem State.setUnit_tasks (s : State) (n c : Nat) (x : Unit) : (s.setUnit n c x).tasks = s.tasks := rfl
@[simp] theorem State.setUnit_grids (s : State) (n c : Nat) (x : Unit) : (s.setUnit n c x).grids = s.grids := rfl
@[simp] theorem State.setUnit_nextGrid (s : State) (n c : Nat) (x : Unit) : (s.setUnit n c x).nextGrid = s.nextGrid := rfl
@[simp] theorem State.setUnit_cores (s : State) (n c : Nat) (x : Unit) : (s.setUnit n c x).cores = s.cores := rfl
@[simp] theorem State.setUnit_clusters (s : State) (n c : Nat) (x : Unit) : (s.setUnit n c x).clusters = s.clusters := rfl
@[simp] theorem State.setUnit_ctxs (s : State) (n c : Nat) (x : Unit) : (s.setUnit n c x).ctxs = s.ctxs := rfl
@[simp] theorem State.setUnit_stewards (s : State) (n c : Nat) (x : Unit) : (s.setUnit n c x).stewards = s.stewards := rfl
@[simp] theorem State.setUnit_asked (s : State) (n c : Nat) (x : Unit) : (s.setUnit n c x).asked = s.asked := rfl
@[simp] theorem State.setUnit_unmarks (s : State) (n c : Nat) (x : Unit) : (s.setUnit n c x).unmarks = s.unmarks := rfl
@[simp] theorem State.setUnit_gangBars (s : State) (n c : Nat) (x : Unit) : (s.setUnit n c x).gangBars = s.gangBars := rfl
@[simp] theorem State.setUnit_stamp (s : State) (n c : Nat) (x : Unit) : (s.setUnit n c x).stamp = s.stamp := rfl
@[simp] theorem State.setUnit_shrunk (s : State) (n c : Nat) (x : Unit) : (s.setUnit n c x).shrunk = s.shrunk := rfl
@[simp] theorem State.setUnit_recorded (s : State) (n c : Nat) (x : Unit) : (s.setUnit n c x).recorded = s.recorded := rfl
@[simp] theorem State.setUnit_locked (s : State) (n c : Nat) (x : Unit) : (s.setUnit n c x).locked = s.locked := rfl
@[simp] theorem State.setUnit_ticket (s : State) (n c : Nat) (x : Unit) : (s.setUnit n c x).ticket = s.ticket := rfl
@[simp] theorem State.setUnit_ticketQ (s : State) (n c : Nat) (x : Unit) : (s.setUnit n c x).ticketQ = s.ticketQ := rfl
@[simp] theorem State.setUnit_invals (s : State) (n c : Nat) (x : Unit) : (s.setUnit n c x).invals = s.invals := rfl
@[simp] theorem State.setUnit_transGen (s : State) (n c : Nat) (x : Unit) : (s.setUnit n c x).transGen = s.transGen := rfl
@[simp] theorem State.setUnit_tinvFull (s : State) (n c : Nat) (x : Unit) : (s.setUnit n c x).tinvFull = s.tinvFull := rfl
@[simp] theorem State.setUnit_tinvErr (s : State) (n c : Nat) (x : Unit) : (s.setUnit n c x).tinvErr = s.tinvErr := rfl
@[simp] theorem State.setUnit_bias (s : State) (n c : Nat) (x : Unit) : (s.setUnit n c x).bias = s.bias := rfl
@[simp] theorem State.setUnit_lapse (s : State) (n c : Nat) (x : Unit) : (s.setUnit n c x).lapse = s.lapse := rfl
@[simp] theorem State.setUnit_leases (s : State) (n c : Nat) (x : Unit) : (s.setUnit n c x).leases = s.leases := rfl
@[simp] theorem State.setUnit_dirty (s : State) (n c : Nat) (x : Unit) : (s.setUnit n c x).dirty = s.dirty := rfl
@[simp] theorem State.setUnit_devErr (s : State) (n c : Nat) (x : Unit) : (s.setUnit n c x).devErr = s.devErr := rfl
@[simp] theorem State.setUnit_mailboxes (s : State) (n c : Nat) (x : Unit) : (s.setUnit n c x).mailboxes = s.mailboxes := rfl
@[simp] theorem State.setUnit_arrivals (s : State) (n c : Nat) (x : Unit) : (s.setUnit n c x).arrivals = s.arrivals := rfl
@[simp] theorem State.setUnit_flows (s : State) (n c : Nat) (x : Unit) : (s.setUnit n c x).flows = s.flows := rfl
@[simp] theorem State.setUnit_sent (s : State) (n c : Nat) (x : Unit) : (s.setUnit n c x).sent = s.sent := rfl
@[simp] theorem State.setUnit_latch (s : State) (n c : Nat) (x : Unit) : (s.setUnit n c x).latch = s.latch := rfl
@[simp] theorem State.setUnit_gated (s : State) (n c : Nat) (x : Unit) : (s.setUnit n c x).gated = s.gated := rfl
@[simp] theorem State.setUnit_requests (s : State) (n c : Nat) (x : Unit) : (s.setUnit n c x).requests = s.requests := rfl
@[simp] theorem State.setUnit_leader (s : State) (n c : Nat) (x : Unit) : (s.setUnit n c x).leader = s.leader := rfl
@[simp] theorem State.setUnit_power (s : State) (n c : Nat) (x : Unit) : (s.setUnit n c x).power = s.power := rfl
@[simp] theorem State.setUnit_boot (s : State) (n c : Nat) (x : Unit) : (s.setUnit n c x).boot = s.boot := rfl
@[simp] theorem State.setUnit_ports (s : State) (n c : Nat) (x : Unit) : (s.setUnit n c x).ports = s.ports := rfl
@[simp] theorem State.setUnit_pcie (s : State) (n c : Nat) (x : Unit) : (s.setUnit n c x).pcie = s.pcie := rfl
@[simp] theorem State.setUnit_ioRegs (s : State) (n c : Nat) (x : Unit) : (s.setUnit n c x).ioRegs = s.ioRegs := rfl
@[simp] theorem State.setUnit_kernels (s : State) (n c : Nat) (x : Unit) : (s.setUnit n c x).kernels = s.kernels := rfl
@[simp] theorem State.setUnit_plates (s : State) (n c : Nat) (x : Unit) : (s.setUnit n c x).plates = s.plates := rfl
@[simp] theorem State.setUnit_log (s : State) (n c : Nat) (x : Unit) : (s.setUnit n c x).log = s.log := rfl
@[simp] theorem State.setUnit_sigs (s : State) (n c : Nat) (x : Unit) : (s.setUnit n c x).sigs = s.sigs := rfl
@[simp] theorem State.setUnit_replay (s : State) (n c : Nat) (x : Unit) : (s.setUnit n c x).replay = s.replay := rfl
@[simp] theorem State.setUnit_msis (s : State) (n c : Nat) (x : Unit) : (s.setUnit n c x).msis = s.msis := rfl
@[simp] theorem State.setUnit_readData (s : State) (n c : Nat) (x : Unit) : (s.setUnit n c x).readData = s.readData := rfl

@[simp] theorem State.setReg_agenda (s : State) (c : Nat) (x : Word64) : (s.setReg c x).agenda = s.agenda := rfl
@[simp] theorem State.setReg_cur (s : State) (c : Nat) (x : Word64) : (s.setReg c x).cur = s.cur := rfl
@[simp] theorem State.setReg_only (s : State) (c : Nat) (x : Word64) : (s.setReg c x).only = s.only := rfl
@[simp] theorem State.setReg_tick (s : State) (c : Nat) (x : Word64) : (s.setReg c x).tick = s.tick := rfl
@[simp] theorem State.setReg_ac (s : State) (c : Nat) (x : Word64) : (s.setReg c x).ac = s.ac := rfl
@[simp] theorem State.setReg_time (s : State) (c : Nat) (x : Word64) : (s.setReg c x).time = s.time := rfl
@[simp] theorem State.setReg_phase (s : State) (c : Nat) (x : Word64) : (s.setReg c x).phase = s.phase := rfl
@[simp] theorem State.setReg_leaseZero (s : State) (c : Nat) (x : Word64) : (s.setReg c x).leaseZero = s.leaseZero := rfl
@[simp] theorem State.setReg_wrapping (s : State) (c : Nat) (x : Word64) : (s.setReg c x).wrapping = s.wrapping := rfl
@[simp] theorem State.setReg_mem (s : State) (c : Nat) (x : Word64) : (s.setReg c x).mem = s.mem := rfl
@[simp] theorem State.setReg_flaws (s : State) (c : Nat) (x : Word64) : (s.setReg c x).flaws = s.flaws := rfl
@[simp] theorem State.setReg_tasks (s : State) (c : Nat) (x : Word64) : (s.setReg c x).tasks = s.tasks := rfl
@[simp] theorem State.setReg_grids (s : State) (c : Nat) (x : Word64) : (s.setReg c x).grids = s.grids := rfl
@[simp] theorem State.setReg_nextGrid (s : State) (c : Nat) (x : Word64) : (s.setReg c x).nextGrid = s.nextGrid := rfl
@[simp] theorem State.setReg_cores (s : State) (c : Nat) (x : Word64) : (s.setReg c x).cores = s.cores := rfl
@[simp] theorem State.setReg_clusters (s : State) (c : Nat) (x : Word64) : (s.setReg c x).clusters = s.clusters := rfl
@[simp] theorem State.setReg_ctxs (s : State) (c : Nat) (x : Word64) : (s.setReg c x).ctxs = s.ctxs := rfl
@[simp] theorem State.setReg_stewards (s : State) (c : Nat) (x : Word64) : (s.setReg c x).stewards = s.stewards := rfl
@[simp] theorem State.setReg_units (s : State) (c : Nat) (x : Word64) : (s.setReg c x).units = s.units := rfl
@[simp] theorem State.setReg_asked (s : State) (c : Nat) (x : Word64) : (s.setReg c x).asked = s.asked := rfl
@[simp] theorem State.setReg_unmarks (s : State) (c : Nat) (x : Word64) : (s.setReg c x).unmarks = s.unmarks := rfl
@[simp] theorem State.setReg_gangBars (s : State) (c : Nat) (x : Word64) : (s.setReg c x).gangBars = s.gangBars := rfl
@[simp] theorem State.setReg_stamp (s : State) (c : Nat) (x : Word64) : (s.setReg c x).stamp = s.stamp := rfl
@[simp] theorem State.setReg_shrunk (s : State) (c : Nat) (x : Word64) : (s.setReg c x).shrunk = s.shrunk := rfl
@[simp] theorem State.setReg_recorded (s : State) (c : Nat) (x : Word64) : (s.setReg c x).recorded = s.recorded := rfl
@[simp] theorem State.setReg_locked (s : State) (c : Nat) (x : Word64) : (s.setReg c x).locked = s.locked := rfl
@[simp] theorem State.setReg_ticket (s : State) (c : Nat) (x : Word64) : (s.setReg c x).ticket = s.ticket := rfl
@[simp] theorem State.setReg_ticketQ (s : State) (c : Nat) (x : Word64) : (s.setReg c x).ticketQ = s.ticketQ := rfl
@[simp] theorem State.setReg_invals (s : State) (c : Nat) (x : Word64) : (s.setReg c x).invals = s.invals := rfl
@[simp] theorem State.setReg_transGen (s : State) (c : Nat) (x : Word64) : (s.setReg c x).transGen = s.transGen := rfl
@[simp] theorem State.setReg_tinvFull (s : State) (c : Nat) (x : Word64) : (s.setReg c x).tinvFull = s.tinvFull := rfl
@[simp] theorem State.setReg_tinvErr (s : State) (c : Nat) (x : Word64) : (s.setReg c x).tinvErr = s.tinvErr := rfl
@[simp] theorem State.setReg_bias (s : State) (c : Nat) (x : Word64) : (s.setReg c x).bias = s.bias := rfl
@[simp] theorem State.setReg_lapse (s : State) (c : Nat) (x : Word64) : (s.setReg c x).lapse = s.lapse := rfl
@[simp] theorem State.setReg_leases (s : State) (c : Nat) (x : Word64) : (s.setReg c x).leases = s.leases := rfl
@[simp] theorem State.setReg_dirty (s : State) (c : Nat) (x : Word64) : (s.setReg c x).dirty = s.dirty := rfl
@[simp] theorem State.setReg_devErr (s : State) (c : Nat) (x : Word64) : (s.setReg c x).devErr = s.devErr := rfl
@[simp] theorem State.setReg_mailboxes (s : State) (c : Nat) (x : Word64) : (s.setReg c x).mailboxes = s.mailboxes := rfl
@[simp] theorem State.setReg_arrivals (s : State) (c : Nat) (x : Word64) : (s.setReg c x).arrivals = s.arrivals := rfl
@[simp] theorem State.setReg_flows (s : State) (c : Nat) (x : Word64) : (s.setReg c x).flows = s.flows := rfl
@[simp] theorem State.setReg_sent (s : State) (c : Nat) (x : Word64) : (s.setReg c x).sent = s.sent := rfl
@[simp] theorem State.setReg_latch (s : State) (c : Nat) (x : Word64) : (s.setReg c x).latch = s.latch := rfl
@[simp] theorem State.setReg_gated (s : State) (c : Nat) (x : Word64) : (s.setReg c x).gated = s.gated := rfl
@[simp] theorem State.setReg_requests (s : State) (c : Nat) (x : Word64) : (s.setReg c x).requests = s.requests := rfl
@[simp] theorem State.setReg_leader (s : State) (c : Nat) (x : Word64) : (s.setReg c x).leader = s.leader := rfl
@[simp] theorem State.setReg_power (s : State) (c : Nat) (x : Word64) : (s.setReg c x).power = s.power := rfl
@[simp] theorem State.setReg_boot (s : State) (c : Nat) (x : Word64) : (s.setReg c x).boot = s.boot := rfl
@[simp] theorem State.setReg_ports (s : State) (c : Nat) (x : Word64) : (s.setReg c x).ports = s.ports := rfl
@[simp] theorem State.setReg_pcie (s : State) (c : Nat) (x : Word64) : (s.setReg c x).pcie = s.pcie := rfl
@[simp] theorem State.setReg_ioRegs (s : State) (c : Nat) (x : Word64) : (s.setReg c x).ioRegs = s.ioRegs := rfl
@[simp] theorem State.setReg_kernels (s : State) (c : Nat) (x : Word64) : (s.setReg c x).kernels = s.kernels := rfl
@[simp] theorem State.setReg_plates (s : State) (c : Nat) (x : Word64) : (s.setReg c x).plates = s.plates := rfl
@[simp] theorem State.setReg_log (s : State) (c : Nat) (x : Word64) : (s.setReg c x).log = s.log := rfl
@[simp] theorem State.setReg_sigs (s : State) (c : Nat) (x : Word64) : (s.setReg c x).sigs = s.sigs := rfl
@[simp] theorem State.setReg_replay (s : State) (c : Nat) (x : Word64) : (s.setReg c x).replay = s.replay := rfl
@[simp] theorem State.setReg_msis (s : State) (c : Nat) (x : Word64) : (s.setReg c x).msis = s.msis := rfl
@[simp] theorem State.setReg_readData (s : State) (c : Nat) (x : Word64) : (s.setReg c x).readData = s.readData := rfl

@[simp] theorem State.raise_agenda (s : State) (c n : Nat) : (s.raise c n).agenda = s.agenda := rfl
@[simp] theorem State.raise_cur (s : State) (c n : Nat) : (s.raise c n).cur = s.cur := rfl
@[simp] theorem State.raise_only (s : State) (c n : Nat) : (s.raise c n).only = s.only := rfl
@[simp] theorem State.raise_tick (s : State) (c n : Nat) : (s.raise c n).tick = s.tick := rfl
@[simp] theorem State.raise_ac (s : State) (c n : Nat) : (s.raise c n).ac = s.ac := rfl
@[simp] theorem State.raise_time (s : State) (c n : Nat) : (s.raise c n).time = s.time := rfl
@[simp] theorem State.raise_phase (s : State) (c n : Nat) : (s.raise c n).phase = s.phase := rfl
@[simp] theorem State.raise_leaseZero (s : State) (c n : Nat) : (s.raise c n).leaseZero = s.leaseZero := rfl
@[simp] theorem State.raise_wrapping (s : State) (c n : Nat) : (s.raise c n).wrapping = s.wrapping := rfl
@[simp] theorem State.raise_mem (s : State) (c n : Nat) : (s.raise c n).mem = s.mem := rfl
@[simp] theorem State.raise_flaws (s : State) (c n : Nat) : (s.raise c n).flaws = s.flaws := rfl
@[simp] theorem State.raise_regs (s : State) (c n : Nat) : (s.raise c n).regs = s.regs := rfl
@[simp] theorem State.raise_tasks (s : State) (c n : Nat) : (s.raise c n).tasks = s.tasks := rfl
@[simp] theorem State.raise_grids (s : State) (c n : Nat) : (s.raise c n).grids = s.grids := rfl
@[simp] theorem State.raise_nextGrid (s : State) (c n : Nat) : (s.raise c n).nextGrid = s.nextGrid := rfl
@[simp] theorem State.raise_cores (s : State) (c n : Nat) : (s.raise c n).cores = s.cores := rfl
@[simp] theorem State.raise_clusters (s : State) (c n : Nat) : (s.raise c n).clusters = s.clusters := rfl
@[simp] theorem State.raise_ctxs (s : State) (c n : Nat) : (s.raise c n).ctxs = s.ctxs := rfl
@[simp] theorem State.raise_stewards (s : State) (c n : Nat) : (s.raise c n).stewards = s.stewards := rfl
@[simp] theorem State.raise_units (s : State) (c n : Nat) : (s.raise c n).units = s.units := rfl
@[simp] theorem State.raise_asked (s : State) (c n : Nat) : (s.raise c n).asked = s.asked := rfl
@[simp] theorem State.raise_unmarks (s : State) (c n : Nat) : (s.raise c n).unmarks = s.unmarks := rfl
@[simp] theorem State.raise_gangBars (s : State) (c n : Nat) : (s.raise c n).gangBars = s.gangBars := rfl
@[simp] theorem State.raise_stamp (s : State) (c n : Nat) : (s.raise c n).stamp = s.stamp := rfl
@[simp] theorem State.raise_shrunk (s : State) (c n : Nat) : (s.raise c n).shrunk = s.shrunk := rfl
@[simp] theorem State.raise_recorded (s : State) (c n : Nat) : (s.raise c n).recorded = s.recorded := rfl
@[simp] theorem State.raise_locked (s : State) (c n : Nat) : (s.raise c n).locked = s.locked := rfl
@[simp] theorem State.raise_ticket (s : State) (c n : Nat) : (s.raise c n).ticket = s.ticket := rfl
@[simp] theorem State.raise_ticketQ (s : State) (c n : Nat) : (s.raise c n).ticketQ = s.ticketQ := rfl
@[simp] theorem State.raise_invals (s : State) (c n : Nat) : (s.raise c n).invals = s.invals := rfl
@[simp] theorem State.raise_transGen (s : State) (c n : Nat) : (s.raise c n).transGen = s.transGen := rfl
@[simp] theorem State.raise_tinvFull (s : State) (c n : Nat) : (s.raise c n).tinvFull = s.tinvFull := rfl
@[simp] theorem State.raise_tinvErr (s : State) (c n : Nat) : (s.raise c n).tinvErr = s.tinvErr := rfl
@[simp] theorem State.raise_bias (s : State) (c n : Nat) : (s.raise c n).bias = s.bias := rfl
@[simp] theorem State.raise_lapse (s : State) (c n : Nat) : (s.raise c n).lapse = s.lapse := rfl
@[simp] theorem State.raise_leases (s : State) (c n : Nat) : (s.raise c n).leases = s.leases := rfl
@[simp] theorem State.raise_dirty (s : State) (c n : Nat) : (s.raise c n).dirty = s.dirty := rfl
@[simp] theorem State.raise_devErr (s : State) (c n : Nat) : (s.raise c n).devErr = s.devErr := rfl
@[simp] theorem State.raise_mailboxes (s : State) (c n : Nat) : (s.raise c n).mailboxes = s.mailboxes := rfl
@[simp] theorem State.raise_arrivals (s : State) (c n : Nat) : (s.raise c n).arrivals = s.arrivals := rfl
@[simp] theorem State.raise_flows (s : State) (c n : Nat) : (s.raise c n).flows = s.flows := rfl
@[simp] theorem State.raise_sent (s : State) (c n : Nat) : (s.raise c n).sent = s.sent := rfl
@[simp] theorem State.raise_latch (s : State) (c n : Nat) : (s.raise c n).latch = s.latch := rfl
@[simp] theorem State.raise_gated (s : State) (c n : Nat) : (s.raise c n).gated = s.gated := rfl
@[simp] theorem State.raise_requests (s : State) (c n : Nat) : (s.raise c n).requests = s.requests := rfl
@[simp] theorem State.raise_leader (s : State) (c n : Nat) : (s.raise c n).leader = s.leader := rfl
@[simp] theorem State.raise_power (s : State) (c n : Nat) : (s.raise c n).power = s.power := rfl
@[simp] theorem State.raise_boot (s : State) (c n : Nat) : (s.raise c n).boot = s.boot := rfl
@[simp] theorem State.raise_ports (s : State) (c n : Nat) : (s.raise c n).ports = s.ports := rfl
@[simp] theorem State.raise_pcie (s : State) (c n : Nat) : (s.raise c n).pcie = s.pcie := rfl
@[simp] theorem State.raise_ioRegs (s : State) (c n : Nat) : (s.raise c n).ioRegs = s.ioRegs := rfl
@[simp] theorem State.raise_kernels (s : State) (c n : Nat) : (s.raise c n).kernels = s.kernels := rfl
@[simp] theorem State.raise_plates (s : State) (c n : Nat) : (s.raise c n).plates = s.plates := rfl
@[simp] theorem State.raise_log (s : State) (c n : Nat) : (s.raise c n).log = s.log := rfl
@[simp] theorem State.raise_sigs (s : State) (c n : Nat) : (s.raise c n).sigs = s.sigs := rfl
@[simp] theorem State.raise_replay (s : State) (c n : Nat) : (s.raise c n).replay = s.replay := rfl
@[simp] theorem State.raise_readData (s : State) (c n : Nat) : (s.raise c n).readData = s.readData := rfl

@[simp] theorem State.raiseDevice_agenda (s : State) (n : Nat) : (s.raiseDevice n).agenda = s.agenda := rfl
@[simp] theorem State.raiseDevice_cur (s : State) (n : Nat) : (s.raiseDevice n).cur = s.cur := rfl
@[simp] theorem State.raiseDevice_only (s : State) (n : Nat) : (s.raiseDevice n).only = s.only := rfl
@[simp] theorem State.raiseDevice_tick (s : State) (n : Nat) : (s.raiseDevice n).tick = s.tick := rfl
@[simp] theorem State.raiseDevice_ac (s : State) (n : Nat) : (s.raiseDevice n).ac = s.ac := rfl
@[simp] theorem State.raiseDevice_time (s : State) (n : Nat) : (s.raiseDevice n).time = s.time := rfl
@[simp] theorem State.raiseDevice_phase (s : State) (n : Nat) : (s.raiseDevice n).phase = s.phase := rfl
@[simp] theorem State.raiseDevice_leaseZero (s : State) (n : Nat) : (s.raiseDevice n).leaseZero = s.leaseZero := rfl
@[simp] theorem State.raiseDevice_wrapping (s : State) (n : Nat) : (s.raiseDevice n).wrapping = s.wrapping := rfl
@[simp] theorem State.raiseDevice_mem (s : State) (n : Nat) : (s.raiseDevice n).mem = s.mem := rfl
@[simp] theorem State.raiseDevice_flaws (s : State) (n : Nat) : (s.raiseDevice n).flaws = s.flaws := rfl
@[simp] theorem State.raiseDevice_regs (s : State) (n : Nat) : (s.raiseDevice n).regs = s.regs := rfl
@[simp] theorem State.raiseDevice_tasks (s : State) (n : Nat) : (s.raiseDevice n).tasks = s.tasks := rfl
@[simp] theorem State.raiseDevice_grids (s : State) (n : Nat) : (s.raiseDevice n).grids = s.grids := rfl
@[simp] theorem State.raiseDevice_nextGrid (s : State) (n : Nat) : (s.raiseDevice n).nextGrid = s.nextGrid := rfl
@[simp] theorem State.raiseDevice_cores (s : State) (n : Nat) : (s.raiseDevice n).cores = s.cores := rfl
@[simp] theorem State.raiseDevice_clusters (s : State) (n : Nat) : (s.raiseDevice n).clusters = s.clusters := rfl
@[simp] theorem State.raiseDevice_ctxs (s : State) (n : Nat) : (s.raiseDevice n).ctxs = s.ctxs := rfl
@[simp] theorem State.raiseDevice_stewards (s : State) (n : Nat) : (s.raiseDevice n).stewards = s.stewards := rfl
@[simp] theorem State.raiseDevice_units (s : State) (n : Nat) : (s.raiseDevice n).units = s.units := rfl
@[simp] theorem State.raiseDevice_asked (s : State) (n : Nat) : (s.raiseDevice n).asked = s.asked := rfl
@[simp] theorem State.raiseDevice_unmarks (s : State) (n : Nat) : (s.raiseDevice n).unmarks = s.unmarks := rfl
@[simp] theorem State.raiseDevice_gangBars (s : State) (n : Nat) : (s.raiseDevice n).gangBars = s.gangBars := rfl
@[simp] theorem State.raiseDevice_stamp (s : State) (n : Nat) : (s.raiseDevice n).stamp = s.stamp := rfl
@[simp] theorem State.raiseDevice_shrunk (s : State) (n : Nat) : (s.raiseDevice n).shrunk = s.shrunk := rfl
@[simp] theorem State.raiseDevice_recorded (s : State) (n : Nat) : (s.raiseDevice n).recorded = s.recorded := rfl
@[simp] theorem State.raiseDevice_locked (s : State) (n : Nat) : (s.raiseDevice n).locked = s.locked := rfl
@[simp] theorem State.raiseDevice_ticket (s : State) (n : Nat) : (s.raiseDevice n).ticket = s.ticket := rfl
@[simp] theorem State.raiseDevice_ticketQ (s : State) (n : Nat) : (s.raiseDevice n).ticketQ = s.ticketQ := rfl
@[simp] theorem State.raiseDevice_invals (s : State) (n : Nat) : (s.raiseDevice n).invals = s.invals := rfl
@[simp] theorem State.raiseDevice_transGen (s : State) (n : Nat) : (s.raiseDevice n).transGen = s.transGen := rfl
@[simp] theorem State.raiseDevice_tinvFull (s : State) (n : Nat) : (s.raiseDevice n).tinvFull = s.tinvFull := rfl
@[simp] theorem State.raiseDevice_tinvErr (s : State) (n : Nat) : (s.raiseDevice n).tinvErr = s.tinvErr := rfl
@[simp] theorem State.raiseDevice_bias (s : State) (n : Nat) : (s.raiseDevice n).bias = s.bias := rfl
@[simp] theorem State.raiseDevice_lapse (s : State) (n : Nat) : (s.raiseDevice n).lapse = s.lapse := rfl
@[simp] theorem State.raiseDevice_leases (s : State) (n : Nat) : (s.raiseDevice n).leases = s.leases := rfl
@[simp] theorem State.raiseDevice_dirty (s : State) (n : Nat) : (s.raiseDevice n).dirty = s.dirty := rfl
@[simp] theorem State.raiseDevice_devErr (s : State) (n : Nat) : (s.raiseDevice n).devErr = s.devErr := rfl
@[simp] theorem State.raiseDevice_mailboxes (s : State) (n : Nat) : (s.raiseDevice n).mailboxes = s.mailboxes := rfl
@[simp] theorem State.raiseDevice_arrivals (s : State) (n : Nat) : (s.raiseDevice n).arrivals = s.arrivals := rfl
@[simp] theorem State.raiseDevice_flows (s : State) (n : Nat) : (s.raiseDevice n).flows = s.flows := rfl
@[simp] theorem State.raiseDevice_sent (s : State) (n : Nat) : (s.raiseDevice n).sent = s.sent := rfl
@[simp] theorem State.raiseDevice_latch (s : State) (n : Nat) : (s.raiseDevice n).latch = s.latch := rfl
@[simp] theorem State.raiseDevice_gated (s : State) (n : Nat) : (s.raiseDevice n).gated = s.gated := rfl
@[simp] theorem State.raiseDevice_requests (s : State) (n : Nat) : (s.raiseDevice n).requests = s.requests := rfl
@[simp] theorem State.raiseDevice_leader (s : State) (n : Nat) : (s.raiseDevice n).leader = s.leader := rfl
@[simp] theorem State.raiseDevice_power (s : State) (n : Nat) : (s.raiseDevice n).power = s.power := rfl
@[simp] theorem State.raiseDevice_boot (s : State) (n : Nat) : (s.raiseDevice n).boot = s.boot := rfl
@[simp] theorem State.raiseDevice_ports (s : State) (n : Nat) : (s.raiseDevice n).ports = s.ports := rfl
@[simp] theorem State.raiseDevice_pcie (s : State) (n : Nat) : (s.raiseDevice n).pcie = s.pcie := rfl
@[simp] theorem State.raiseDevice_ioRegs (s : State) (n : Nat) : (s.raiseDevice n).ioRegs = s.ioRegs := rfl
@[simp] theorem State.raiseDevice_kernels (s : State) (n : Nat) : (s.raiseDevice n).kernels = s.kernels := rfl
@[simp] theorem State.raiseDevice_plates (s : State) (n : Nat) : (s.raiseDevice n).plates = s.plates := rfl
@[simp] theorem State.raiseDevice_log (s : State) (n : Nat) : (s.raiseDevice n).log = s.log := rfl
@[simp] theorem State.raiseDevice_sigs (s : State) (n : Nat) : (s.raiseDevice n).sigs = s.sigs := rfl
@[simp] theorem State.raiseDevice_replay (s : State) (n : Nat) : (s.raiseDevice n).replay = s.replay := rfl
@[simp] theorem State.raiseDevice_readData (s : State) (n : Nat) : (s.raiseDevice n).readData = s.readData := rfl

@[simp] theorem State.modTask_agenda (s : State) (c : Nat) (f : Task → Task) : (s.modTask c f).agenda = s.agenda := by
  unfold State.modTask; split <;> rfl
@[simp] theorem State.modTask_cur (s : State) (c : Nat) (f : Task → Task) : (s.modTask c f).cur = s.cur := by
  unfold State.modTask; split <;> rfl
@[simp] theorem State.modTask_only (s : State) (c : Nat) (f : Task → Task) : (s.modTask c f).only = s.only := by
  unfold State.modTask; split <;> rfl
@[simp] theorem State.modTask_tick (s : State) (c : Nat) (f : Task → Task) : (s.modTask c f).tick = s.tick := by
  unfold State.modTask; split <;> rfl
@[simp] theorem State.modTask_ac (s : State) (c : Nat) (f : Task → Task) : (s.modTask c f).ac = s.ac := by
  unfold State.modTask; split <;> rfl
@[simp] theorem State.modTask_time (s : State) (c : Nat) (f : Task → Task) : (s.modTask c f).time = s.time := by
  unfold State.modTask; split <;> rfl
@[simp] theorem State.modTask_phase (s : State) (c : Nat) (f : Task → Task) : (s.modTask c f).phase = s.phase := by
  unfold State.modTask; split <;> rfl
@[simp] theorem State.modTask_leaseZero (s : State) (c : Nat) (f : Task → Task) : (s.modTask c f).leaseZero = s.leaseZero := by
  unfold State.modTask; split <;> rfl
@[simp] theorem State.modTask_wrapping (s : State) (c : Nat) (f : Task → Task) : (s.modTask c f).wrapping = s.wrapping := by
  unfold State.modTask; split <;> rfl
@[simp] theorem State.modTask_mem (s : State) (c : Nat) (f : Task → Task) : (s.modTask c f).mem = s.mem := by
  unfold State.modTask; split <;> rfl
@[simp] theorem State.modTask_flaws (s : State) (c : Nat) (f : Task → Task) : (s.modTask c f).flaws = s.flaws := by
  unfold State.modTask; split <;> rfl
@[simp] theorem State.modTask_regs (s : State) (c : Nat) (f : Task → Task) : (s.modTask c f).regs = s.regs := by
  unfold State.modTask; split <;> rfl
@[simp] theorem State.modTask_grids (s : State) (c : Nat) (f : Task → Task) : (s.modTask c f).grids = s.grids := by
  unfold State.modTask; split <;> rfl
@[simp] theorem State.modTask_nextGrid (s : State) (c : Nat) (f : Task → Task) : (s.modTask c f).nextGrid = s.nextGrid := by
  unfold State.modTask; split <;> rfl
@[simp] theorem State.modTask_cores (s : State) (c : Nat) (f : Task → Task) : (s.modTask c f).cores = s.cores := by
  unfold State.modTask; split <;> rfl
@[simp] theorem State.modTask_clusters (s : State) (c : Nat) (f : Task → Task) : (s.modTask c f).clusters = s.clusters := by
  unfold State.modTask; split <;> rfl
@[simp] theorem State.modTask_ctxs (s : State) (c : Nat) (f : Task → Task) : (s.modTask c f).ctxs = s.ctxs := by
  unfold State.modTask; split <;> rfl
@[simp] theorem State.modTask_stewards (s : State) (c : Nat) (f : Task → Task) : (s.modTask c f).stewards = s.stewards := by
  unfold State.modTask; split <;> rfl
@[simp] theorem State.modTask_units (s : State) (c : Nat) (f : Task → Task) : (s.modTask c f).units = s.units := by
  unfold State.modTask; split <;> rfl
@[simp] theorem State.modTask_asked (s : State) (c : Nat) (f : Task → Task) : (s.modTask c f).asked = s.asked := by
  unfold State.modTask; split <;> rfl
@[simp] theorem State.modTask_unmarks (s : State) (c : Nat) (f : Task → Task) : (s.modTask c f).unmarks = s.unmarks := by
  unfold State.modTask; split <;> rfl
@[simp] theorem State.modTask_gangBars (s : State) (c : Nat) (f : Task → Task) : (s.modTask c f).gangBars = s.gangBars := by
  unfold State.modTask; split <;> rfl
@[simp] theorem State.modTask_stamp (s : State) (c : Nat) (f : Task → Task) : (s.modTask c f).stamp = s.stamp := by
  unfold State.modTask; split <;> rfl
@[simp] theorem State.modTask_shrunk (s : State) (c : Nat) (f : Task → Task) : (s.modTask c f).shrunk = s.shrunk := by
  unfold State.modTask; split <;> rfl
@[simp] theorem State.modTask_recorded (s : State) (c : Nat) (f : Task → Task) : (s.modTask c f).recorded = s.recorded := by
  unfold State.modTask; split <;> rfl
@[simp] theorem State.modTask_locked (s : State) (c : Nat) (f : Task → Task) : (s.modTask c f).locked = s.locked := by
  unfold State.modTask; split <;> rfl
@[simp] theorem State.modTask_ticket (s : State) (c : Nat) (f : Task → Task) : (s.modTask c f).ticket = s.ticket := by
  unfold State.modTask; split <;> rfl
@[simp] theorem State.modTask_ticketQ (s : State) (c : Nat) (f : Task → Task) : (s.modTask c f).ticketQ = s.ticketQ := by
  unfold State.modTask; split <;> rfl
@[simp] theorem State.modTask_invals (s : State) (c : Nat) (f : Task → Task) : (s.modTask c f).invals = s.invals := by
  unfold State.modTask; split <;> rfl
@[simp] theorem State.modTask_transGen (s : State) (c : Nat) (f : Task → Task) : (s.modTask c f).transGen = s.transGen := by
  unfold State.modTask; split <;> rfl
@[simp] theorem State.modTask_tinvFull (s : State) (c : Nat) (f : Task → Task) : (s.modTask c f).tinvFull = s.tinvFull := by
  unfold State.modTask; split <;> rfl
@[simp] theorem State.modTask_tinvErr (s : State) (c : Nat) (f : Task → Task) : (s.modTask c f).tinvErr = s.tinvErr := by
  unfold State.modTask; split <;> rfl
@[simp] theorem State.modTask_bias (s : State) (c : Nat) (f : Task → Task) : (s.modTask c f).bias = s.bias := by
  unfold State.modTask; split <;> rfl
@[simp] theorem State.modTask_lapse (s : State) (c : Nat) (f : Task → Task) : (s.modTask c f).lapse = s.lapse := by
  unfold State.modTask; split <;> rfl
@[simp] theorem State.modTask_leases (s : State) (c : Nat) (f : Task → Task) : (s.modTask c f).leases = s.leases := by
  unfold State.modTask; split <;> rfl
@[simp] theorem State.modTask_dirty (s : State) (c : Nat) (f : Task → Task) : (s.modTask c f).dirty = s.dirty := by
  unfold State.modTask; split <;> rfl
@[simp] theorem State.modTask_devErr (s : State) (c : Nat) (f : Task → Task) : (s.modTask c f).devErr = s.devErr := by
  unfold State.modTask; split <;> rfl
@[simp] theorem State.modTask_mailboxes (s : State) (c : Nat) (f : Task → Task) : (s.modTask c f).mailboxes = s.mailboxes := by
  unfold State.modTask; split <;> rfl
@[simp] theorem State.modTask_arrivals (s : State) (c : Nat) (f : Task → Task) : (s.modTask c f).arrivals = s.arrivals := by
  unfold State.modTask; split <;> rfl
@[simp] theorem State.modTask_flows (s : State) (c : Nat) (f : Task → Task) : (s.modTask c f).flows = s.flows := by
  unfold State.modTask; split <;> rfl
@[simp] theorem State.modTask_sent (s : State) (c : Nat) (f : Task → Task) : (s.modTask c f).sent = s.sent := by
  unfold State.modTask; split <;> rfl
@[simp] theorem State.modTask_latch (s : State) (c : Nat) (f : Task → Task) : (s.modTask c f).latch = s.latch := by
  unfold State.modTask; split <;> rfl
@[simp] theorem State.modTask_gated (s : State) (c : Nat) (f : Task → Task) : (s.modTask c f).gated = s.gated := by
  unfold State.modTask; split <;> rfl
@[simp] theorem State.modTask_requests (s : State) (c : Nat) (f : Task → Task) : (s.modTask c f).requests = s.requests := by
  unfold State.modTask; split <;> rfl
@[simp] theorem State.modTask_leader (s : State) (c : Nat) (f : Task → Task) : (s.modTask c f).leader = s.leader := by
  unfold State.modTask; split <;> rfl
@[simp] theorem State.modTask_power (s : State) (c : Nat) (f : Task → Task) : (s.modTask c f).power = s.power := by
  unfold State.modTask; split <;> rfl
@[simp] theorem State.modTask_boot (s : State) (c : Nat) (f : Task → Task) : (s.modTask c f).boot = s.boot := by
  unfold State.modTask; split <;> rfl
@[simp] theorem State.modTask_ports (s : State) (c : Nat) (f : Task → Task) : (s.modTask c f).ports = s.ports := by
  unfold State.modTask; split <;> rfl
@[simp] theorem State.modTask_pcie (s : State) (c : Nat) (f : Task → Task) : (s.modTask c f).pcie = s.pcie := by
  unfold State.modTask; split <;> rfl
@[simp] theorem State.modTask_ioRegs (s : State) (c : Nat) (f : Task → Task) : (s.modTask c f).ioRegs = s.ioRegs := by
  unfold State.modTask; split <;> rfl
@[simp] theorem State.modTask_kernels (s : State) (c : Nat) (f : Task → Task) : (s.modTask c f).kernels = s.kernels := by
  unfold State.modTask; split <;> rfl
@[simp] theorem State.modTask_plates (s : State) (c : Nat) (f : Task → Task) : (s.modTask c f).plates = s.plates := by
  unfold State.modTask; split <;> rfl
@[simp] theorem State.modTask_log (s : State) (c : Nat) (f : Task → Task) : (s.modTask c f).log = s.log := by
  unfold State.modTask; split <;> rfl
@[simp] theorem State.modTask_sigs (s : State) (c : Nat) (f : Task → Task) : (s.modTask c f).sigs = s.sigs := by
  unfold State.modTask; split <;> rfl
@[simp] theorem State.modTask_replay (s : State) (c : Nat) (f : Task → Task) : (s.modTask c f).replay = s.replay := by
  unfold State.modTask; split <;> rfl
@[simp] theorem State.modTask_msis (s : State) (c : Nat) (f : Task → Task) : (s.modTask c f).msis = s.msis := by
  unfold State.modTask; split <;> rfl
@[simp] theorem State.modTask_readData (s : State) (c : Nat) (f : Task → Task) : (s.modTask c f).readData = s.readData := by
  unfold State.modTask; split <;> rfl

@[simp] theorem State.modGrid_agenda (s : State) (c : Nat) (f : Grid → Grid) : (s.modGrid c f).agenda = s.agenda := by
  unfold State.modGrid; split <;> rfl
@[simp] theorem State.modGrid_cur (s : State) (c : Nat) (f : Grid → Grid) : (s.modGrid c f).cur = s.cur := by
  unfold State.modGrid; split <;> rfl
@[simp] theorem State.modGrid_only (s : State) (c : Nat) (f : Grid → Grid) : (s.modGrid c f).only = s.only := by
  unfold State.modGrid; split <;> rfl
@[simp] theorem State.modGrid_tick (s : State) (c : Nat) (f : Grid → Grid) : (s.modGrid c f).tick = s.tick := by
  unfold State.modGrid; split <;> rfl
@[simp] theorem State.modGrid_ac (s : State) (c : Nat) (f : Grid → Grid) : (s.modGrid c f).ac = s.ac := by
  unfold State.modGrid; split <;> rfl
@[simp] theorem State.modGrid_time (s : State) (c : Nat) (f : Grid → Grid) : (s.modGrid c f).time = s.time := by
  unfold State.modGrid; split <;> rfl
@[simp] theorem State.modGrid_phase (s : State) (c : Nat) (f : Grid → Grid) : (s.modGrid c f).phase = s.phase := by
  unfold State.modGrid; split <;> rfl
@[simp] theorem State.modGrid_leaseZero (s : State) (c : Nat) (f : Grid → Grid) : (s.modGrid c f).leaseZero = s.leaseZero := by
  unfold State.modGrid; split <;> rfl
@[simp] theorem State.modGrid_wrapping (s : State) (c : Nat) (f : Grid → Grid) : (s.modGrid c f).wrapping = s.wrapping := by
  unfold State.modGrid; split <;> rfl
@[simp] theorem State.modGrid_mem (s : State) (c : Nat) (f : Grid → Grid) : (s.modGrid c f).mem = s.mem := by
  unfold State.modGrid; split <;> rfl
@[simp] theorem State.modGrid_flaws (s : State) (c : Nat) (f : Grid → Grid) : (s.modGrid c f).flaws = s.flaws := by
  unfold State.modGrid; split <;> rfl
@[simp] theorem State.modGrid_regs (s : State) (c : Nat) (f : Grid → Grid) : (s.modGrid c f).regs = s.regs := by
  unfold State.modGrid; split <;> rfl
@[simp] theorem State.modGrid_tasks (s : State) (c : Nat) (f : Grid → Grid) : (s.modGrid c f).tasks = s.tasks := by
  unfold State.modGrid; split <;> rfl
@[simp] theorem State.modGrid_nextGrid (s : State) (c : Nat) (f : Grid → Grid) : (s.modGrid c f).nextGrid = s.nextGrid := by
  unfold State.modGrid; split <;> rfl
@[simp] theorem State.modGrid_cores (s : State) (c : Nat) (f : Grid → Grid) : (s.modGrid c f).cores = s.cores := by
  unfold State.modGrid; split <;> rfl
@[simp] theorem State.modGrid_clusters (s : State) (c : Nat) (f : Grid → Grid) : (s.modGrid c f).clusters = s.clusters := by
  unfold State.modGrid; split <;> rfl
@[simp] theorem State.modGrid_ctxs (s : State) (c : Nat) (f : Grid → Grid) : (s.modGrid c f).ctxs = s.ctxs := by
  unfold State.modGrid; split <;> rfl
@[simp] theorem State.modGrid_stewards (s : State) (c : Nat) (f : Grid → Grid) : (s.modGrid c f).stewards = s.stewards := by
  unfold State.modGrid; split <;> rfl
@[simp] theorem State.modGrid_units (s : State) (c : Nat) (f : Grid → Grid) : (s.modGrid c f).units = s.units := by
  unfold State.modGrid; split <;> rfl
@[simp] theorem State.modGrid_asked (s : State) (c : Nat) (f : Grid → Grid) : (s.modGrid c f).asked = s.asked := by
  unfold State.modGrid; split <;> rfl
@[simp] theorem State.modGrid_unmarks (s : State) (c : Nat) (f : Grid → Grid) : (s.modGrid c f).unmarks = s.unmarks := by
  unfold State.modGrid; split <;> rfl
@[simp] theorem State.modGrid_gangBars (s : State) (c : Nat) (f : Grid → Grid) : (s.modGrid c f).gangBars = s.gangBars := by
  unfold State.modGrid; split <;> rfl
@[simp] theorem State.modGrid_stamp (s : State) (c : Nat) (f : Grid → Grid) : (s.modGrid c f).stamp = s.stamp := by
  unfold State.modGrid; split <;> rfl
@[simp] theorem State.modGrid_shrunk (s : State) (c : Nat) (f : Grid → Grid) : (s.modGrid c f).shrunk = s.shrunk := by
  unfold State.modGrid; split <;> rfl
@[simp] theorem State.modGrid_recorded (s : State) (c : Nat) (f : Grid → Grid) : (s.modGrid c f).recorded = s.recorded := by
  unfold State.modGrid; split <;> rfl
@[simp] theorem State.modGrid_locked (s : State) (c : Nat) (f : Grid → Grid) : (s.modGrid c f).locked = s.locked := by
  unfold State.modGrid; split <;> rfl
@[simp] theorem State.modGrid_ticket (s : State) (c : Nat) (f : Grid → Grid) : (s.modGrid c f).ticket = s.ticket := by
  unfold State.modGrid; split <;> rfl
@[simp] theorem State.modGrid_ticketQ (s : State) (c : Nat) (f : Grid → Grid) : (s.modGrid c f).ticketQ = s.ticketQ := by
  unfold State.modGrid; split <;> rfl
@[simp] theorem State.modGrid_invals (s : State) (c : Nat) (f : Grid → Grid) : (s.modGrid c f).invals = s.invals := by
  unfold State.modGrid; split <;> rfl
@[simp] theorem State.modGrid_transGen (s : State) (c : Nat) (f : Grid → Grid) : (s.modGrid c f).transGen = s.transGen := by
  unfold State.modGrid; split <;> rfl
@[simp] theorem State.modGrid_tinvFull (s : State) (c : Nat) (f : Grid → Grid) : (s.modGrid c f).tinvFull = s.tinvFull := by
  unfold State.modGrid; split <;> rfl
@[simp] theorem State.modGrid_tinvErr (s : State) (c : Nat) (f : Grid → Grid) : (s.modGrid c f).tinvErr = s.tinvErr := by
  unfold State.modGrid; split <;> rfl
@[simp] theorem State.modGrid_bias (s : State) (c : Nat) (f : Grid → Grid) : (s.modGrid c f).bias = s.bias := by
  unfold State.modGrid; split <;> rfl
@[simp] theorem State.modGrid_lapse (s : State) (c : Nat) (f : Grid → Grid) : (s.modGrid c f).lapse = s.lapse := by
  unfold State.modGrid; split <;> rfl
@[simp] theorem State.modGrid_leases (s : State) (c : Nat) (f : Grid → Grid) : (s.modGrid c f).leases = s.leases := by
  unfold State.modGrid; split <;> rfl
@[simp] theorem State.modGrid_dirty (s : State) (c : Nat) (f : Grid → Grid) : (s.modGrid c f).dirty = s.dirty := by
  unfold State.modGrid; split <;> rfl
@[simp] theorem State.modGrid_devErr (s : State) (c : Nat) (f : Grid → Grid) : (s.modGrid c f).devErr = s.devErr := by
  unfold State.modGrid; split <;> rfl
@[simp] theorem State.modGrid_mailboxes (s : State) (c : Nat) (f : Grid → Grid) : (s.modGrid c f).mailboxes = s.mailboxes := by
  unfold State.modGrid; split <;> rfl
@[simp] theorem State.modGrid_arrivals (s : State) (c : Nat) (f : Grid → Grid) : (s.modGrid c f).arrivals = s.arrivals := by
  unfold State.modGrid; split <;> rfl
@[simp] theorem State.modGrid_flows (s : State) (c : Nat) (f : Grid → Grid) : (s.modGrid c f).flows = s.flows := by
  unfold State.modGrid; split <;> rfl
@[simp] theorem State.modGrid_sent (s : State) (c : Nat) (f : Grid → Grid) : (s.modGrid c f).sent = s.sent := by
  unfold State.modGrid; split <;> rfl
@[simp] theorem State.modGrid_latch (s : State) (c : Nat) (f : Grid → Grid) : (s.modGrid c f).latch = s.latch := by
  unfold State.modGrid; split <;> rfl
@[simp] theorem State.modGrid_gated (s : State) (c : Nat) (f : Grid → Grid) : (s.modGrid c f).gated = s.gated := by
  unfold State.modGrid; split <;> rfl
@[simp] theorem State.modGrid_requests (s : State) (c : Nat) (f : Grid → Grid) : (s.modGrid c f).requests = s.requests := by
  unfold State.modGrid; split <;> rfl
@[simp] theorem State.modGrid_leader (s : State) (c : Nat) (f : Grid → Grid) : (s.modGrid c f).leader = s.leader := by
  unfold State.modGrid; split <;> rfl
@[simp] theorem State.modGrid_power (s : State) (c : Nat) (f : Grid → Grid) : (s.modGrid c f).power = s.power := by
  unfold State.modGrid; split <;> rfl
@[simp] theorem State.modGrid_boot (s : State) (c : Nat) (f : Grid → Grid) : (s.modGrid c f).boot = s.boot := by
  unfold State.modGrid; split <;> rfl
@[simp] theorem State.modGrid_ports (s : State) (c : Nat) (f : Grid → Grid) : (s.modGrid c f).ports = s.ports := by
  unfold State.modGrid; split <;> rfl
@[simp] theorem State.modGrid_pcie (s : State) (c : Nat) (f : Grid → Grid) : (s.modGrid c f).pcie = s.pcie := by
  unfold State.modGrid; split <;> rfl
@[simp] theorem State.modGrid_ioRegs (s : State) (c : Nat) (f : Grid → Grid) : (s.modGrid c f).ioRegs = s.ioRegs := by
  unfold State.modGrid; split <;> rfl
@[simp] theorem State.modGrid_kernels (s : State) (c : Nat) (f : Grid → Grid) : (s.modGrid c f).kernels = s.kernels := by
  unfold State.modGrid; split <;> rfl
@[simp] theorem State.modGrid_plates (s : State) (c : Nat) (f : Grid → Grid) : (s.modGrid c f).plates = s.plates := by
  unfold State.modGrid; split <;> rfl
@[simp] theorem State.modGrid_log (s : State) (c : Nat) (f : Grid → Grid) : (s.modGrid c f).log = s.log := by
  unfold State.modGrid; split <;> rfl
@[simp] theorem State.modGrid_sigs (s : State) (c : Nat) (f : Grid → Grid) : (s.modGrid c f).sigs = s.sigs := by
  unfold State.modGrid; split <;> rfl
@[simp] theorem State.modGrid_replay (s : State) (c : Nat) (f : Grid → Grid) : (s.modGrid c f).replay = s.replay := by
  unfold State.modGrid; split <;> rfl
@[simp] theorem State.modGrid_msis (s : State) (c : Nat) (f : Grid → Grid) : (s.modGrid c f).msis = s.msis := by
  unfold State.modGrid; split <;> rfl
@[simp] theorem State.modGrid_readData (s : State) (c : Nat) (f : Grid → Grid) : (s.modGrid c f).readData = s.readData := by
  unfold State.modGrid; split <;> rfl

@[simp] theorem State.setTeam_agenda (s : State) (p : Party) (x : Team) : (s.setTeam p x).agenda = s.agenda := by
  cases p <;> simp [State.setTeam, State.modCtx, State.modSteward]
@[simp] theorem State.setTeam_cur (s : State) (p : Party) (x : Team) : (s.setTeam p x).cur = s.cur := by
  cases p <;> simp [State.setTeam, State.modCtx, State.modSteward]
@[simp] theorem State.setTeam_only (s : State) (p : Party) (x : Team) : (s.setTeam p x).only = s.only := by
  cases p <;> simp [State.setTeam, State.modCtx, State.modSteward]
@[simp] theorem State.setTeam_tick (s : State) (p : Party) (x : Team) : (s.setTeam p x).tick = s.tick := by
  cases p <;> simp [State.setTeam, State.modCtx, State.modSteward]
@[simp] theorem State.setTeam_ac (s : State) (p : Party) (x : Team) : (s.setTeam p x).ac = s.ac := by
  cases p <;> simp [State.setTeam, State.modCtx, State.modSteward]
@[simp] theorem State.setTeam_time (s : State) (p : Party) (x : Team) : (s.setTeam p x).time = s.time := by
  cases p <;> simp [State.setTeam, State.modCtx, State.modSteward]
@[simp] theorem State.setTeam_phase (s : State) (p : Party) (x : Team) : (s.setTeam p x).phase = s.phase := by
  cases p <;> simp [State.setTeam, State.modCtx, State.modSteward]
@[simp] theorem State.setTeam_leaseZero (s : State) (p : Party) (x : Team) : (s.setTeam p x).leaseZero = s.leaseZero := by
  cases p <;> simp [State.setTeam, State.modCtx, State.modSteward]
@[simp] theorem State.setTeam_wrapping (s : State) (p : Party) (x : Team) : (s.setTeam p x).wrapping = s.wrapping := by
  cases p <;> simp [State.setTeam, State.modCtx, State.modSteward]
@[simp] theorem State.setTeam_mem (s : State) (p : Party) (x : Team) : (s.setTeam p x).mem = s.mem := by
  cases p <;> simp [State.setTeam, State.modCtx, State.modSteward]
@[simp] theorem State.setTeam_flaws (s : State) (p : Party) (x : Team) : (s.setTeam p x).flaws = s.flaws := by
  cases p <;> simp [State.setTeam, State.modCtx, State.modSteward]
@[simp] theorem State.setTeam_regs (s : State) (p : Party) (x : Team) : (s.setTeam p x).regs = s.regs := by
  cases p <;> simp [State.setTeam, State.modCtx, State.modSteward]
@[simp] theorem State.setTeam_grids (s : State) (p : Party) (x : Team) : (s.setTeam p x).grids = s.grids := by
  cases p <;> simp [State.setTeam, State.modCtx, State.modSteward]
@[simp] theorem State.setTeam_nextGrid (s : State) (p : Party) (x : Team) : (s.setTeam p x).nextGrid = s.nextGrid := by
  cases p <;> simp [State.setTeam, State.modCtx, State.modSteward]
@[simp] theorem State.setTeam_cores (s : State) (p : Party) (x : Team) : (s.setTeam p x).cores = s.cores := by
  cases p <;> simp [State.setTeam, State.modCtx, State.modSteward]
@[simp] theorem State.setTeam_clusters (s : State) (p : Party) (x : Team) : (s.setTeam p x).clusters = s.clusters := by
  cases p <;> simp [State.setTeam, State.modCtx, State.modSteward]
@[simp] theorem State.setTeam_units (s : State) (p : Party) (x : Team) : (s.setTeam p x).units = s.units := by
  cases p <;> simp [State.setTeam, State.modCtx, State.modSteward]
@[simp] theorem State.setTeam_asked (s : State) (p : Party) (x : Team) : (s.setTeam p x).asked = s.asked := by
  cases p <;> simp [State.setTeam, State.modCtx, State.modSteward]
@[simp] theorem State.setTeam_unmarks (s : State) (p : Party) (x : Team) : (s.setTeam p x).unmarks = s.unmarks := by
  cases p <;> simp [State.setTeam, State.modCtx, State.modSteward]
@[simp] theorem State.setTeam_gangBars (s : State) (p : Party) (x : Team) : (s.setTeam p x).gangBars = s.gangBars := by
  cases p <;> simp [State.setTeam, State.modCtx, State.modSteward]
@[simp] theorem State.setTeam_stamp (s : State) (p : Party) (x : Team) : (s.setTeam p x).stamp = s.stamp := by
  cases p <;> simp [State.setTeam, State.modCtx, State.modSteward]
@[simp] theorem State.setTeam_shrunk (s : State) (p : Party) (x : Team) : (s.setTeam p x).shrunk = s.shrunk := by
  cases p <;> simp [State.setTeam, State.modCtx, State.modSteward]
@[simp] theorem State.setTeam_recorded (s : State) (p : Party) (x : Team) : (s.setTeam p x).recorded = s.recorded := by
  cases p <;> simp [State.setTeam, State.modCtx, State.modSteward]
@[simp] theorem State.setTeam_locked (s : State) (p : Party) (x : Team) : (s.setTeam p x).locked = s.locked := by
  cases p <;> simp [State.setTeam, State.modCtx, State.modSteward]
@[simp] theorem State.setTeam_ticket (s : State) (p : Party) (x : Team) : (s.setTeam p x).ticket = s.ticket := by
  cases p <;> simp [State.setTeam, State.modCtx, State.modSteward]
@[simp] theorem State.setTeam_ticketQ (s : State) (p : Party) (x : Team) : (s.setTeam p x).ticketQ = s.ticketQ := by
  cases p <;> simp [State.setTeam, State.modCtx, State.modSteward]
@[simp] theorem State.setTeam_invals (s : State) (p : Party) (x : Team) : (s.setTeam p x).invals = s.invals := by
  cases p <;> simp [State.setTeam, State.modCtx, State.modSteward]
@[simp] theorem State.setTeam_transGen (s : State) (p : Party) (x : Team) : (s.setTeam p x).transGen = s.transGen := by
  cases p <;> simp [State.setTeam, State.modCtx, State.modSteward]
@[simp] theorem State.setTeam_tinvFull (s : State) (p : Party) (x : Team) : (s.setTeam p x).tinvFull = s.tinvFull := by
  cases p <;> simp [State.setTeam, State.modCtx, State.modSteward]
@[simp] theorem State.setTeam_tinvErr (s : State) (p : Party) (x : Team) : (s.setTeam p x).tinvErr = s.tinvErr := by
  cases p <;> simp [State.setTeam, State.modCtx, State.modSteward]
@[simp] theorem State.setTeam_bias (s : State) (p : Party) (x : Team) : (s.setTeam p x).bias = s.bias := by
  cases p <;> simp [State.setTeam, State.modCtx, State.modSteward]
@[simp] theorem State.setTeam_lapse (s : State) (p : Party) (x : Team) : (s.setTeam p x).lapse = s.lapse := by
  cases p <;> simp [State.setTeam, State.modCtx, State.modSteward]
@[simp] theorem State.setTeam_leases (s : State) (p : Party) (x : Team) : (s.setTeam p x).leases = s.leases := by
  cases p <;> simp [State.setTeam, State.modCtx, State.modSteward]
@[simp] theorem State.setTeam_dirty (s : State) (p : Party) (x : Team) : (s.setTeam p x).dirty = s.dirty := by
  cases p <;> simp [State.setTeam, State.modCtx, State.modSteward]
@[simp] theorem State.setTeam_devErr (s : State) (p : Party) (x : Team) : (s.setTeam p x).devErr = s.devErr := by
  cases p <;> simp [State.setTeam, State.modCtx, State.modSteward]
@[simp] theorem State.setTeam_mailboxes (s : State) (p : Party) (x : Team) : (s.setTeam p x).mailboxes = s.mailboxes := by
  cases p <;> simp [State.setTeam, State.modCtx, State.modSteward]
@[simp] theorem State.setTeam_arrivals (s : State) (p : Party) (x : Team) : (s.setTeam p x).arrivals = s.arrivals := by
  cases p <;> simp [State.setTeam, State.modCtx, State.modSteward]
@[simp] theorem State.setTeam_flows (s : State) (p : Party) (x : Team) : (s.setTeam p x).flows = s.flows := by
  cases p <;> simp [State.setTeam, State.modCtx, State.modSteward]
@[simp] theorem State.setTeam_sent (s : State) (p : Party) (x : Team) : (s.setTeam p x).sent = s.sent := by
  cases p <;> simp [State.setTeam, State.modCtx, State.modSteward]
@[simp] theorem State.setTeam_latch (s : State) (p : Party) (x : Team) : (s.setTeam p x).latch = s.latch := by
  cases p <;> simp [State.setTeam, State.modCtx, State.modSteward]
@[simp] theorem State.setTeam_gated (s : State) (p : Party) (x : Team) : (s.setTeam p x).gated = s.gated := by
  cases p <;> simp [State.setTeam, State.modCtx, State.modSteward]
@[simp] theorem State.setTeam_requests (s : State) (p : Party) (x : Team) : (s.setTeam p x).requests = s.requests := by
  cases p <;> simp [State.setTeam, State.modCtx, State.modSteward]
@[simp] theorem State.setTeam_leader (s : State) (p : Party) (x : Team) : (s.setTeam p x).leader = s.leader := by
  cases p <;> simp [State.setTeam, State.modCtx, State.modSteward]
@[simp] theorem State.setTeam_power (s : State) (p : Party) (x : Team) : (s.setTeam p x).power = s.power := by
  cases p <;> simp [State.setTeam, State.modCtx, State.modSteward]
@[simp] theorem State.setTeam_boot (s : State) (p : Party) (x : Team) : (s.setTeam p x).boot = s.boot := by
  cases p <;> simp [State.setTeam, State.modCtx, State.modSteward]
@[simp] theorem State.setTeam_ports (s : State) (p : Party) (x : Team) : (s.setTeam p x).ports = s.ports := by
  cases p <;> simp [State.setTeam, State.modCtx, State.modSteward]
@[simp] theorem State.setTeam_pcie (s : State) (p : Party) (x : Team) : (s.setTeam p x).pcie = s.pcie := by
  cases p <;> simp [State.setTeam, State.modCtx, State.modSteward]
@[simp] theorem State.setTeam_ioRegs (s : State) (p : Party) (x : Team) : (s.setTeam p x).ioRegs = s.ioRegs := by
  cases p <;> simp [State.setTeam, State.modCtx, State.modSteward]
@[simp] theorem State.setTeam_kernels (s : State) (p : Party) (x : Team) : (s.setTeam p x).kernels = s.kernels := by
  cases p <;> simp [State.setTeam, State.modCtx, State.modSteward]
@[simp] theorem State.setTeam_plates (s : State) (p : Party) (x : Team) : (s.setTeam p x).plates = s.plates := by
  cases p <;> simp [State.setTeam, State.modCtx, State.modSteward]
@[simp] theorem State.setTeam_log (s : State) (p : Party) (x : Team) : (s.setTeam p x).log = s.log := by
  cases p <;> simp [State.setTeam, State.modCtx, State.modSteward]
@[simp] theorem State.setTeam_sigs (s : State) (p : Party) (x : Team) : (s.setTeam p x).sigs = s.sigs := by
  cases p <;> simp [State.setTeam, State.modCtx, State.modSteward]
@[simp] theorem State.setTeam_replay (s : State) (p : Party) (x : Team) : (s.setTeam p x).replay = s.replay := by
  cases p <;> simp [State.setTeam, State.modCtx, State.modSteward]
@[simp] theorem State.setTeam_msis (s : State) (p : Party) (x : Team) : (s.setTeam p x).msis = s.msis := by
  cases p <;> simp [State.setTeam, State.modCtx, State.modSteward]
@[simp] theorem State.setTeam_readData (s : State) (p : Party) (x : Team) : (s.setTeam p x).readData = s.readData := by
  cases p <;> simp [State.setTeam, State.modCtx, State.modSteward]

/-! ## Reads after writes -/

@[simp] theorem State.core_setCore (s : State) (c d : Nat) (x : Core) :
    (s.setCore c x).core d = if d = c then x else s.core d := by
  by_cases h : d = c
  · subst h; simp [State.core, State.setCore]
  · simp only [State.core, State.setCore, h, if_false, AMap.get, AMap.put]
    split <;> simp [AMap.find_erase, h]

@[simp] theorem State.ctx_setCtx (s : State) (c d : Nat) (x : Ctx) :
    (s.setCtx c x).ctx d = if d = c then x else s.ctx d := AMap.get_put _ _ _ _ _

@[simp] theorem State.cluster_setCluster (s : State) (c d : Nat) (x : Cluster) :
    (s.setCluster c x).cluster d = if d = c then x else s.cluster d := AMap.get_put _ _ _ _ _

@[simp] theorem State.steward_setSteward (s : State) (c d : Nat) (x : Steward) :
    (s.setSteward c x).steward d = if d = c then x else s.steward d := by
  by_cases h : d = c
  · subst h; simp [State.steward, State.setSteward]
  · simp only [State.steward, State.setSteward, h, if_false, AMap.get, AMap.put]
    split <;> simp [AMap.find_erase, h]

@[simp] theorem State.task?_setTask (s : State) (c d : Nat) (x : Task) :
    (s.setTask c x).task? d = if d = c then some x else s.task? d := AMap.find_set _ _ _ _

@[simp] theorem State.grid?_setGrid (s : State) (c d : Nat) (x : Grid) :
    (s.setGrid c x).grid? d = if d = c then some x else s.grid? d := AMap.find_set _ _ _ _

@[simp] theorem State.reg_setReg (s : State) (c d : Nat) (x : Word64) :
    (s.setReg c x).reg d = if d = c then x else s.reg d := by
  by_cases h : d = c
  · subst h; simp [State.reg, State.setReg]
  · simp only [State.reg, State.setReg, h, if_false, AMap.get, AMap.put]
    split <;> simp [AMap.find_erase, h]

theorem State.task?_modTask (s : State) (c d : Nat) (f : Task → Task) :
    (s.modTask c f).task? d = if d = c then (s.task? d).map f else s.task? d := by
  unfold State.modTask
  by_cases h : d = c
  · subst h; cases hk : s.task? d <;> simp [hk]
  · cases hk : s.task? c <;> simp [h]

/-- What a stream of a party holds after it is stored. -/
theorem State.team?_setTeam (s : State) (p : Party) (t x : Team) (h : s.team? p = some t) :
    (s.setTeam p x).team? p = some x := by
  cases p with
  | team a o | lead a o =>
    simp only [State.team?, State.setTeam, State.task?_modTask, if_true] at h ⊢
    cases hk : s.task? a <;> simp_all
  | prologue c =>
    simp only [State.team?, State.setTeam, State.modCtx, State.ctx_setCtx, if_true] at h ⊢
    cases hq : (s.ctx c).prologue <;> simp_all
  | steward d => simp [State.team?, State.setTeam, State.modSteward]

/-- A stream that is stored and plain is not settled further. -/
theorem State.settle_plain (s : State) (p : Party) (t : Team) (h : s.team? p = some t) (hh : t.hold = .none)
    (hf : t.freeze = .no) (he : t.ended = false) (hb : t.brk = false) : s.settle p = s := by
  cases p with
  | team a o => simp [State.settle, h, hh, hf, he, hb, State.holdOver, Hold.fresh]
  | lead a o => simp [State.settle]
  | prologue c => simp [State.settle]
  | steward d => simp [State.settle]

end Sys2Proof.Machine
end

