-- ==== Sys2Proof/Laws/Complete.lean ====
section
/-!
SUPPORT. From a meaning's effect to the statement that its word completes, traps or waits; and what an event that ends a chunk does
in a context that is neither recorded nor replayed.
-/

namespace Sys2Proof.Machine

variable {i : Instr} {h : Hdr} {s s' : State} {p : Party} {t t' : Team}

/-! ## Words -/

theorem completesIn_of_ok {eff : State → Party → Team → Res} (hi : Issues s p t i) (e : exec i s = issue i h s eff)
    (he : eff (s.countIssue p) p (t.opened i) = .ok s' t') : CompletesIn i h s p s' t' := by
  intro u hu; rw [e]; exact issue_ok hi he hu

theorem completes_of_started {eff : State → Party → Team → Res} {op : Nat} (hi : Issues s p t i) (e : exec i s = issue i h s eff)
    (he : eff (s.countIssue p) p (t.opened i) = .started s' t' op) : Completes i h s p (some op) s' t' := by
  intro u hu; rw [e]; exact issue_started hi he hu

theorem traps_of_trap {eff : State → Party → Team → Res} {tr : TrapInfo} (hi : Issues s p t i) (e : exec i s = issue i h s eff)
    (he : eff (s.countIssue p) p (t.opened i) = .trap tr) : Traps i s p t tr := by
  unfold Traps; rw [e]; exact issue_trap hi he

theorem waits_of_wait {eff : State → Party → Team → Res} (hi : Issues s p t i) (e : exec i s = issue i h s eff)
    (he : eff (s.countIssue p) p (t.opened i) = .wait) : Waits i s := by
  unfold Waits; rw [e]; exact issue_wait hi he

/-- A word that changes only its own stream, by `F`, which agrees with `f` on the stream it finds. -/
theorem changes_of {f : Team → Team} (F : Team → Team) (e : exec i s = issueTeam i h s F) (eF : F (t.opened i) = f (t.opened i)) :
    Changes s p t h i f := by
  intro hi u hu; rw [e]; rw [← eF] at hu; exact issueTeam_ok hi hu

theorem computes_of {d : Nat} {f : Nat → Word} (F : Team → Team) (e : exec i s = issueTeam i h s F)
    (eF : F (t.opened i) = (t.opened i).write d f) : Computes s p t h i d f := by
  intro hi; exact ⟨_, Team.write_writes _ d f, fun u hu => by rw [e]; rw [← eF] at hu; exact issueTeam_ok hi hu⟩

theorem computesPair_of {d : Nat} {f : Nat → Word64} (F : Team → Team) (e : exec i s = issueTeam i h s F)
    (eF : F (t.opened i) = (t.opened i).writePair d f) : ComputesPair s p t h i d f := by
  intro hi; exact ⟨_, Team.writePair_writes _ d f, fun u hu => by rw [e]; rw [← eF] at hu; exact issueTeam_ok hi hu⟩

theorem computesVal_of {d : Nat} {f : Nat → Nat} (F : Team → Team) (e : exec i s = issueTeam i h s F)
    (eF : F (t.opened i) = (t.opened i).writeVal d f) : ComputesVal s p t h i d f := by
  intro hi; exact ⟨_, Team.writeVal_writes _ d f, fun u hu => by rw [e]; rw [← eF] at hu; exact issueTeam_ok hi hu⟩

theorem computesSpan_of {d n : Nat} {f : Nat → Nat → Word} (F : Team → Team) (e : exec i s = issueTeam i h s F)
    (eF : F (t.opened i) = (t.opened i).writeSpan d n f) : ComputesSpan s p t h i d n f := by
  intro hi; exact ⟨_, Team.writeSpan_writes _ d n f, fun u hu => by rw [e]; rw [← eF] at hu; exact issueTeam_ok hi hu⟩

theorem computesPred_of {c : Nat} {f : Nat → Bool} (F : Team → Team) (hc : c < 12) (e : exec i s = issueTeam i h s F)
    (eF : F (t.opened i) = (t.opened i).writePred c f) : ComputesPred s p t h i c f := by
  intro hi; exact ⟨_, Team.writePred_writes _ c f hc, fun u hu => by rw [e]; rw [← eF] at hu; exact issueTeam_ok hi hu⟩

/-! ## The opened stream reads as the stream -/

@[simp] theorem Team.opened_reg (t : Team) (i : Instr) : (t.opened i).reg = t.reg := rfl
@[simp] theorem Team.opened_pair (t : Team) (i : Instr) : (t.opened i).pair = t.pair := rfl
@[simp] theorem Team.opened_predAt (t : Team) (i : Instr) : (t.opened i).predAt = t.predAt := rfl
@[simp] theorem Team.opened_md (t : Team) (i : Instr) : (t.opened i).md = t.md := rfl
@[simp] theorem Team.opened_pc (t : Team) (i : Instr) : (t.opened i).pc = t.pc := rfl

/-! ## Tasks and contexts of a team -/

theorem State.taskOf_team {tid ord : Nat} {k : Task} (h : s.task? tid = some k) : s.taskOf (.team tid ord) = some k := by
  simp only [State.taskOf, partyTask, Option.bind_some, h]

theorem State.ctxOf_team {tid ord : Nat} {k : Task} (h : s.task? tid = some k) : s.ctxOf (.team tid ord) = k.ctx := by
  simp only [State.ctxOf, h]

/-! ## Chunks -/

theorem State.Quiet.traced {c : Nat} (h : s.Quiet c) : s.traced c = false := by
  simp only [State.traced, h.level, h.replay, Bool.or_self]

/-- In a context that is neither recorded nor replayed the end of a chunk only starts the next one. -/
theorem endChunk_quiet {kind point : Nat} {payload : List Byte} {stamp : Option Nat} (hq : s.Quiet (s.ctxOf p)) :
    endChunk s p t kind payload point stamp = .go s { t with chunk := { last := point, begun := point } } := by
  unfold endChunk
  simp only [hq.level, hq.replay, hq.traced, Bool.false_and, Bool.false_eq_true, if_false]

/-- Nothing of such a context is cut. -/
theorem State.cutChunk_quiet {cause : Nat} (hq : s.Quiet (s.ctxOf p)) : s.cutChunk p cause = s := by
  unfold State.cutChunk State.recording
  cases s.team? p <;> simp [hq.level]

/-- A commit point in such a context cuts no chunk of its task's other teams. -/
theorem State.hitMates_quiet {tid ord : Nat} {k : Task} (h : s.task? tid = some k) (hq : s.Quiet k.ctx) : s.hitMates tid ord = s := by
  have one (o : Nat) : s.cutChunk (.team tid o) 2 = s := State.cutChunk_quiet (by rwa [State.ctxOf_team h])
  have all (os : List Nat) : os.foldl (fun s o => s.cutChunk (.team tid o) 2) s = s := by
    induction os with
    | nil => rfl
    | cons o os ih => rw [List.foldl_cons, one, ih]
  simp only [State.hitMates, h, all]

/-- In such a context each request of an atomic executes by itself. -/
theorem State.requestSpan_quiet {m : MemOp} {r : AtomicReq} (hq : s.Quiet (s.ctxOf p)) : s.requestSpan p m r = r := by
  simp only [State.requestSpan, hq.traced, Bool.false_eq_true, if_false]

theorem State.requestsAfter_quiet {m : MemOp} {r : AtomicReq} {n : Nat} (hq : s.Quiet (s.ctxOf p)) :
    s.requestsAfter p m n r = m.reqs.set n { r with done := true } := by
  simp only [State.requestsAfter, hq.traced, Bool.false_eq_true, if_false]

/-- A store that is no commit point is performed by itself. -/
theorem State.storeCommit_none {u : State} {x : Pend} (h : t.hold = .none) : s.storeCommit u p t x = u := by
  simp only [State.storeCommit, Team.commitsWith, h, Bool.and_false, Bool.false_eq_true, if_false]

/-- Nor does one wait for its commit in a context that is neither recorded nor replayed. -/
theorem State.storeCommit_quiet {u : State} {x : Pend} (hq : s.Quiet (s.ctxOf p)) : s.storeCommit u p t x = u := by
  simp only [State.storeCommit, hq.traced, Bool.false_and, Bool.false_eq_true, if_false]

end Sys2Proof.Machine
end

