-- ==== Sys2Proof/Laws/Access.lean ====
section
/-!
SUPPORT. What the shared operation of the memory words does when every lane's access passes its checks.
-/

namespace Sys2Proof.Machine

/-- Without an open transaction no lane is in one. -/
theorem Team.inTx_false {t : Team} (h : t.tx = none) (l : Nat) : t.inTx l = false := by simp [Team.inTx, h]

/-- Lanes whose accesses pass their checks are gathered in order, and the state stays as it is. -/
theorem gather_ok {i : Instr} {f : MemForm} {p : Party} {addr : Nat → Word64} {s : State} {t : Team} {loc : Nat → Loc} (ht : t.tx = none) :
   ∀ (ls rest : List Nat) (accs : List Access), (∀ l ∈ ls, s.checkAccess p f.space f.how (addr l) f.bytes false = (s, .ok (loc l))) →
    gather i f p addr (ls ++ rest) { s := s, t := t, accs := accs } = gather i f p addr rest { s := s, t := t, accs := accs ++ ls.map (fun l => { lane := if f.once then 0xFFFF else l, va := addr l, loc := loc l, data := (f.data t l).1, data2 := (f.data t l).2 }) } := by
  intro ls
  induction ls with
  | nil => intro rest accs _; simp
  | cons l ls ih =>
    intro rest accs hc
    have h1 := hc l (by simp)
    rw [List.cons_append, gather]
    simp only [Team.inTx_false ht, Bool.and_false, h1]
    rw [ih _ _ (fun x hx => hc x (by simp [hx]))]
    simp

/-- Without an open transaction no access is one of a transaction. -/
theorem txAccesses_none {f : MemForm} {s : State} {p : Party} {t : Team} (ht : t.tx = none) : ∀ accs, txAccesses f s p accs t = (t, []) := by
  intro accs
  induction accs with
  | nil => rfl
  | cons a as ih => rw [txAccesses]; simp only [Team.inTx_false ht, Bool.not_false, Bool.or_true, if_true]; exact ih

/-- Without an open transaction loads leave nothing beside their operation. -/
theorem noteTxLoads_none {f : MemForm} {s : State} {p : Party} {t : Team} (ht : t.tx = none) (accs : List Access) :
    noteTxLoads f s p t accs = s := by
  unfold noteTxLoads
  split
  · simp [Team.inTx_false ht]
  · rfl

/-- What a memory word does outside a transaction when every access passes its checks: it starts one operation. -/
theorem memOp_ok {i : Instr} {f : MemForm} {p : Party} {addr : Team → Nat → Word64} {s : State} {t : Team} {loc : Nat → Loc} (ht : t.tx = none)
    (hc : ∀ l ∈ (if f.once then [0] else t.lanes), s.checkAccess p f.space f.how (addr t l) f.bytes false = (s, .ok (loc l))) :
    let accs := (if f.once then [0] else t.lanes).map (fun l => { lane := if f.once then 0xFFFF else l, va := addr t l, loc := loc l, data := (f.data t l).1, data2 := (f.data t l).2 })
    let m : MemOp := { kind := f.kind, bytes := f.bytes, signed := f.signed, dest := f.spec, accs := accs
                       acq := f.acq && !accs.isEmpty, rel := f.rel && accs.any (fun a => s.ordersFor p (s.scopeAt p f a)), scope := f.scope, op := f.op
                       reqs := if f.kind = .atomic then requestsOf s p f accs else [], held := some [] }
    let u := t.start' (if f.kind = .load || f.kind = .atomic then .ld else .st) (.mem m)
    memOp i f addr s p t = .started s (if f.commits && !accs.isEmpty then { u with hold := .commit .plain } else u) t.nextId := by
  intro accs m u
  have hg := gather_ok (i := i) (f := f) (p := p) (addr := addr t) (s := s) (loc := loc) ht (if f.once then [0] else t.lanes) [] [] hc
  rw [List.append_nil] at hg
  unfold memOp
  dsimp only
  rw [hg, gather]
  have hfil : ∀ (l : List Access), l.filter (fun a => f.once || !t.inTx a.lane) = l := by
    intro l; simp [Team.inTx_false ht]
  have hany : ∀ (l : List Access) (q : Access → Bool), l.any (fun a => !f.once && t.inTx a.lane && q a) = false := by
    intro l q; simp [Team.inTx_false ht]
  simp only [hany, Bool.and_false, Bool.false_eq_true, if_false, txAccesses_none ht, hfil, List.nil_append, noteTxLoads_none ht]
  rfl

/-- The same, for a word given by its row. -/
theorem completes_memRow {s : State} {p : Party} {t : Team} {loc : Nat → Loc} {row : MemRow} {h : Hdr} {addr : Team → Nat → Word64}
    (e : exec row.i s = issue row.i h s (memOp row.i row.form addr))
    (ea : addr (t.opened row.i) = row.addr) (ht : t.tx = none)
    (hc : ∀ l ∈ row.lanes t, (s.countIssue p).checkAccess p row.form.space (if row.form.kind = .load then .load else .store)
        (row.addr l) row.form.bytes false = (s.countIssue p, .ok (loc l))) (hi : Issues s p t row.i) :
    Completes row.i h s p (some t.nextId) (s.countIssue p) (row.after (s.countIssue p) p t loc) := by
  intro u hu
  rw [e]
  have hm := memOp_ok (i := row.i) (f := row.form) (p := p) (addr := addr) (s := s.countIssue p) (t := t.opened row.i) (loc := loc) ht (by rw [ea]; exact hc)
  refine issue_started hi hm ?_
  rw [← hu]
  congr 1
  unfold MemRow.after
  rw [ea]
  unfold MemForm.commits
  by_cases hk : row.form.kind ≠ .atomic ∧ row.form.rel = true ∧ 5 ≤ row.form.scope ∧ row.accesses t loc ≠ []
  · have hb : (row.form.kind ≠ .atomic && row.form.rel && decide (5 ≤ row.form.scope)) = true := by simp [hk.1, hk.2.1, hk.2.2.1]
    have hne : (row.accesses t loc).isEmpty = false := by
      have := hk.2.2.2
      cases h : row.accesses t loc <;> simp_all
    rw [if_pos hk]
    have h2 : (decide (row.form.kind ≠ .atomic) && row.form.rel && decide (5 ≤ row.form.scope) && !(row.accesses t loc).isEmpty) = true := by
      simp [hk.1, hk.2.1, hk.2.2.1, hne]
    exact if_pos h2
  · rw [if_neg hk]
    have h2 : ¬ (decide (row.form.kind ≠ .atomic) && row.form.rel && decide (5 ≤ row.form.scope) && !(row.accesses t loc).isEmpty) = true := by
      intro h
      apply hk
      simp at h
      exact ⟨h.1.1.1, h.1.1.2, h.1.2, by simpa using h.2⟩
    exact if_neg h2

end Sys2Proof.Machine
end

