-- ==== Sys2Proof/Laws/Memory.lean ====
section
/-!
SUPPORT. Laws of memory: what a byte reads as after a write, and that every operation over memory keeps its canonical form.
-/

namespace Sys2Proof.Machine

/-! ## Reads after writes -/

@[simp] theorem readByte_writeByte (m : AMap Byte) (a b : Nat) (v : Byte) :
    readByte (writeByte m a v) b = if b = a then v else readByte m b := AMap.get_put _ _ _ _ _

/-- A write of bytes leaves every byte outside them. -/
theorem readByte_writeBytes_outside (bs : List Byte) (m : AMap Byte) (a b : Nat) (h : b < a ∨ a + bs.length ≤ b) :
    readByte (writeBytes m a bs) b = readByte m b := by
  induction bs generalizing m a with
  | nil => rfl
  | cons v bs ih =>
    simp only [List.length_cons] at h
    rw [writeBytes, ih _ _ (by omega), readByte_writeByte, if_neg (by omega)]

/-- A byte that a write covers reads as written. -/
theorem readByte_writeBytes_inside (bs : List Byte) (m : AMap Byte) (a i : Nat) (h : i < bs.length) :
    readByte (writeBytes m a bs) (a + i) = bs.getD i 0#8 := by
  induction bs generalizing m a i with
  | nil => simp at h
  | cons v bs ih =>
    rw [writeBytes]
    cases i with
    | zero => rw [Nat.add_zero, readByte_writeBytes_outside _ _ _ _ (by omega)]; simp
    | succ i =>
      have e : a + (i + 1) = a + 1 + i := by omega
      rw [e, ih _ _ _ (by simpa using h)]
      simp

@[simp] theorem readBytes_length (m : AMap Byte) (n a : Nat) : (readBytes m a n).length = n := by
  induction n generalizing a with
  | zero => rfl
  | succ n ih => simp [readBytes, ih]

/-- Bytes just written read back. -/
theorem readBytes_writeBytes (bs : List Byte) (m : AMap Byte) (a : Nat) :
    readBytes (writeBytes m a bs) a bs.length = bs := by
  induction bs generalizing m a with
  | nil => rfl
  | cons v bs ih =>
    rw [List.length_cons, readBytes, writeBytes, ih, readByte_writeBytes_outside _ _ _ _ (by omega)]
    simp

/-! ## Canonical form -/

theorem Memory.wf_writeByte (m : AMap Byte) (a : Nat) (v : Byte) (h : Memory.wf m = true) :
    Memory.wf (writeByte m a v) = true := AMap.canonical_put _ _ _ _ h

theorem Memory.wf_writeBytes (bs : List Byte) (m : AMap Byte) (a : Nat) (h : Memory.wf m = true) :
    Memory.wf (writeBytes m a bs) = true := by
  induction bs generalizing m a with
  | nil => exact h
  | cons v bs ih => exact ih _ _ (Memory.wf_writeByte _ _ _ h)

theorem Memory.wf_writeNat (m : AMap Byte) (a n v : Nat) (h : Memory.wf m = true) : Memory.wf (writeNat m a n v) = true :=
  Memory.wf_writeBytes _ _ _ h

theorem Memory.wf_applyDelta (m : AMap Byte) (d : Delta) (h : Memory.wf m = true) : Memory.wf (applyDelta m d) = true :=
  Memory.wf_writeNat _ _ _ _ h

theorem Memory.wf_applyWrite (m : AMap Byte) (w : VWrite) (h : Memory.wf m = true) : Memory.wf (applyWrite m w) = true := by
  cases w with
  | bytes pa data => exact Memory.wf_writeBytes _ _ _ h
  | delta d | update d _ => exact Memory.wf_applyDelta _ _ h

theorem Memory.wf_seeWrite (m : AMap Byte) (w : VWrite) (h : Memory.wf m = true) : Memory.wf (seeWrite m w) = true := by
  cases w with
  | bytes pa data => exact Memory.wf_writeBytes _ _ _ h
  | delta d => exact Memory.wf_applyDelta _ _ h
  | update d r => exact Memory.wf_writeBytes _ _ _ h

/-- A fold of operations that each keep the form keeps it. -/
theorem Memory.wf_foldl {α : Type} (f : AMap Byte → α → AMap Byte)
    (hf : ∀ m x, Memory.wf m = true → Memory.wf (f m x) = true) (xs : List α) (m : AMap Byte) (h : Memory.wf m = true) :
    Memory.wf (xs.foldl f m) = true := by
  induction xs generalizing m with
  | nil => exact h
  | cons x xs ih => exact ih _ (hf _ _ h)

theorem Memory.wf_overlay (m : AMap Byte) (v : List VWrite) (h : Memory.wf m = true) : Memory.wf (overlay m v) = true :=
  Memory.wf_foldl _ Memory.wf_seeWrite _ _ h

theorem Memory.wf_mirrorBytes (rs : List (Nat × Nat × Nat)) (n pa : Nat) (m : AMap Byte) (h : Memory.wf m = true) :
    Memory.wf (mirrorBytes rs m pa n) = true := by
  induction n generalizing m pa with
  | zero => exact h
  | succ n ih =>
    refine ih _ _ (Memory.wf_foldl _ ?_ _ _ h)
    intro m r hm
    split
    · exact Memory.wf_writeByte _ _ _ hm
    · exact hm

theorem AMap.rising_filter {α : Type} (q : Nat × α → Bool) (m : AMap α) (h : AMap.rising m = true) :
    AMap.rising (m.filter q) = true := by
  induction m with
  | nil => rfl
  | cons e m ih =>
    have h' := (AMap.rising_cons e m).1 h
    rw [List.filter_cons]
    split
    · exact (AMap.rising_cons _ _).2 ⟨fun f hf => h'.1 f (List.mem_of_mem_filter hf), ih h'.2⟩
    · exact ih h'.2

theorem Memory.wf_filter (q : Nat × Byte → Bool) (m : AMap Byte) (h : Memory.wf m = true) : Memory.wf (m.filter q) = true := by
  simp only [Memory.wf, AMap.canonical, Bool.and_eq_true, List.all_eq_true] at h ⊢
  exact ⟨AMap.rising_filter q m h.1, fun e he => h.2 e (List.mem_of_mem_filter he)⟩

theorem Memory.wf_copyRange (m : AMap Byte) (lo dst size : Nat) (h : Memory.wf m = true) :
    Memory.wf (copyRange m lo dst size) = true :=
  Memory.wf_foldl _ (fun _ _ hm => Memory.wf_writeByte _ _ _ hm) _ _ (Memory.wf_filter _ _ h)

theorem Memory.wf_setAD (m : AMap Byte) (l : Leaf) (how : How) (h : Memory.wf m = true) : Memory.wf (setAD m l how) = true :=
  Memory.wf_writeNat _ _ _ _ h

/-- The states whose committed memory is in its canonical form are closed under the named operations of memory. -/
theorem State.wf_mirror (s : State) (pa n : Nat) (h : Memory.wf s.mem = true) : Memory.wf (s.mirror pa n).mem = true := by
  unfold State.mirror
  split
  · exact h
  · exact Memory.wf_mirrorBytes _ _ _ _ h

/-- A fold of operations on states that each keep the form keeps it. -/
theorem State.wf_foldl {α : Type} (f : State → α → State)
    (hf : ∀ s x, Memory.wf s.mem = true → Memory.wf (f s x).mem = true) (xs : List α) (s : State) (h : Memory.wf s.mem = true) :
    Memory.wf (xs.foldl f s).mem = true := by
  induction xs generalizing s with
  | nil => exact h
  | cons x xs ih => exact ih _ (hf _ _ h)

theorem State.wf_atHome (s : State) (pa n : Nat) (h : Memory.wf s.mem = true) : Memory.wf (s.atHome pa n).mem = true :=
  State.wf_mirror _ _ _ h

theorem State.wf_poke (s : State) (pa : Nat) (data : List Byte) (h : Memory.wf s.mem = true) :
    Memory.wf (s.poke pa data).mem = true := State.wf_atHome _ _ _ (Memory.wf_writeBytes _ _ _ h)

theorem State.wf_applyNow (s : State) (w : VWrite) (h : Memory.wf s.mem = true) : Memory.wf (s.applyNow w).mem = true :=
  State.wf_atHome _ _ _ (Memory.wf_applyWrite _ _ h)

theorem State.wf_publish (s : State) (v : List VWrite) (h : Memory.wf s.mem = true) : Memory.wf (s.publish v).mem = true :=
  State.wf_foldl _ State.wf_applyNow v s h

theorem State.wf_mirrorPtes (s : State) (ps : List Nat) (m : AMap Byte) (h : Memory.wf m = true) :
    Memory.wf (s.mirrorPtes ps m) = true := by
  unfold State.mirrorPtes
  split
  · exact h
  · exact Memory.wf_foldl _ (fun _ _ hm => Memory.wf_mirrorBytes _ _ _ _ hm) _ _ h

theorem Memory.wf_setTableAD (hg : Nat) (u : Bool) (as : List Nat) (m : AMap Byte) (h : Memory.wf m = true) :
    Memory.wf (setTableAD hg u as m) = true := by
  induction as generalizing m with
  | nil => exact h
  | cons a as ih =>
    refine ih _ ?_
    split
    · exact Memory.wf_setAD _ _ _ h
    · exact h

theorem State.wf_walk (s : State) (c va : Nat) (how : How) (l : Leaf) (m : AMap Byte) (h : Memory.wf s.mem = true)
    (hw : s.walk c va how = some (l, m)) : Memory.wf m = true := by
  unfold State.walk at hw
  dsimp only at hw
  split at hw
  · cases hw
  · split at hw
    · split at hw
      · cases hw
      · split at hw
        · cases hw
        · cases hw
          exact State.wf_mirrorPtes _ _ _ (Memory.wf_setAD _ _ _ (Memory.wf_setAD _ _ _ (Memory.wf_setTableAD _ _ _ _ h)))
    · split at hw
      · cases hw
      · cases hw; exact State.wf_mirrorPtes _ _ _ (Memory.wf_setAD _ _ _ h)

theorem State.wf_recallWalk (s : State) (c va : Nat) (h : Memory.wf s.mem = true) :
    Memory.wf (s.recallWalk c va).mem = true := by
  unfold State.recallWalk
  split
  · exact h
  · exact State.wf_foldl (fun s a => s.recall a 8) (fun _ _ hs => hs) _ _ h

theorem State.wf_xlatNow (s : State) (c : Nat) (priv : Priv) (how : How) (va : Nat) (h : Memory.wf s.mem = true) :
    Memory.wf (s.xlatNow c priv how va).1.mem = true := by
  unfold State.xlatNow
  split
  · exact h
  · split
    · exact State.wf_recallWalk _ _ _ h
    · rename_i l m hw
      split
      · exact State.wf_walk s c va how l m h hw
      · exact State.wf_recallWalk _ _ _ h

/-! ## The log's writes -/

theorem State.wf_writeLogHeader (s : State) (h : Memory.wf s.mem = true) : Memory.wf s.writeLogHeader.mem = true :=
  State.wf_poke _ _ _ h

theorem State.wf_putBlock (s : State) (b : Block) (h : Memory.wf s.mem = true) : Memory.wf (s.putBlock b).mem = true :=
  State.wf_writeLogHeader _ (State.wf_poke _ _ _ h)

theorem State.wf_closeBlock (s : State) (b : Block) (h : Memory.wf s.mem = true) : Memory.wf (s.closeBlock b).mem = true :=
  State.wf_putBlock _ _ h

theorem State.wf_writeHeld (s : State) (h : Memory.wf s.mem = true) : Memory.wf s.writeHeld.mem = true := by
  unfold State.writeHeld
  exact State.wf_foldl _ State.wf_closeBlock _ _ (State.wf_foldl _ State.wf_putBlock _ _ h)

theorem State.wf_writeBlock (s : State) (b : Block) (full : Bool) (h : Memory.wf s.mem = true) :
    Memory.wf (s.writeBlock b full).mem = true := by
  unfold State.writeBlock
  split
  · exact State.wf_closeBlock _ _ h
  · split <;> exact h

theorem State.wf_logRecord (s : State) (v c k t n : Nat) (d : Option Nat) (bs : List Byte) (h : Memory.wf s.mem = true) :
    Memory.wf (s.logRecord v c k t n d bs).mem = true := by
  simp only [State.logRecord]
  split
  · exact h
  · split
    · exact h
    · exact State.wf_writeBlock _ _ _ h

theorem State.wf_dropSig (s : State) (p : Party) (h : Memory.wf s.mem = true) : Memory.wf (s.dropSig p).mem = true := by
  cases p <;> exact h

theorem State.wf_writeEnd (s : State) (p : Party) (t : Team) (k : Nat) (bs : List Byte) (n : Nat) (st : Option Nat)
    (h : Memory.wf s.mem = true) : Memory.wf (s.writeEnd p t k bs n st).1.mem = true := by
  cases st <;> exact State.wf_logRecord _ _ _ _ _ _ _ _ (State.wf_dropSig _ _ h)

theorem State.wf_note (s : State) (a c k f : Nat) (d : Option Nat) (bs : List Byte) (h : Memory.wf s.mem = true) :
    Memory.wf (s.note a c k f d bs).mem = true := by
  unfold State.note
  split
  · exact State.wf_logRecord _ _ _ _ _ _ _ _ h
  · exact h

theorem State.wf_writeOne (s : State) (p : Party) (t : Team) (x : Nat × List Byte × Nat) (h : Memory.wf s.mem = true) :
    Memory.wf (s.writeOne p t x).1.mem = true := by
  unfold State.writeOne
  split
  · exact State.wf_note _ _ _ _ _ _ _ h
  · exact State.wf_writeEnd _ _ _ _ _ _ _ h

theorem State.wf_writeLate (s : State) (p : Party) (t : Team) (n : Nat) (h : Memory.wf s.mem = true) :
    Memory.wf (s.writeLate p t n).1.mem = true := by
  have key : ∀ (xs : List (Nat × List Byte × Nat)) (r : State × Team), Memory.wf r.1.mem = true →
      Memory.wf (xs.foldl (fun r x => r.1.writeOne p r.2 x) r).1.mem = true := by
    intro xs
    induction xs with
    | nil => intro r hr; exact hr
    | cons x xs ih => intro r hr; exact ih _ (State.wf_writeOne _ _ _ _ hr)
  exact key _ _ h

theorem State.wf_metRecord (s : State) (r : LogRec) (h : Memory.wf s.mem = true) : Memory.wf (s.metRecord r).mem = true := by
  simp only [State.metRecord]
  split
  · exact State.wf_writeHeld _ h
  · exact h

theorem State.wf_diverged (s : State) (n : Nat) (h : Memory.wf s.mem = true) : Memory.wf (s.diverged n).mem = true :=
  State.wf_writeHeld _ h

/-- The state that the end of a chunk leads to. -/
def RecRes.state (s : State) : RecRes → State
  | .go s' _ => s'
  | .hold => s
  | .diverge s' => s'

theorem State.wf_endChunk (s : State) (p : Party) (t : Team) (k : Nat) (bs : List Byte) (n : Nat) (st : Option Nat)
    (h : Memory.wf s.mem = true) : Memory.wf ((endChunk s p t k bs n st).state s).mem = true := by
  unfold endChunk
  dsimp only
  repeat' split
  all_goals first
    | exact h
    | exact State.wf_diverged _ _ h
    | exact State.wf_metRecord _ _ h
    | exact State.wf_writeEnd _ _ _ _ _ _ _ (State.wf_writeLate _ _ _ _ h)

theorem State.wf_cutChunk (s : State) (p : Party) (n : Nat) (h : Memory.wf s.mem = true) :
    Memory.wf (s.cutChunk p n).mem = true := by
  unfold State.cutChunk
  split
  · exact h
  · split
    · rename_i t _ _
      have e := State.wf_endChunk s p t 0 [BitVec.ofNat 8 n] t.boundary none h
      split
      · rename_i he
        rw [he] at e
        rw [State.setTeam_mem]
        exact e
      · exact h
    · exact h

theorem State.wf_hit (s : State) (f : Sig → Bool) (h : Memory.wf s.mem = true) : Memory.wf (s.hit f).mem = true :=
  State.wf_foldl _ (fun _ _ hs => State.wf_cutChunk _ _ _ hs) _ _ h

theorem State.wf_hitLines (s : State) (b : Option (Nat × Nat)) (ls : List Nat) (h : Memory.wf s.mem = true) :
    Memory.wf (s.hitLines b ls).mem = true := State.wf_hit _ _ h

theorem State.wf_commitBytes (s : State) (pa : Nat) (data : List Byte) (h : Memory.wf s.mem = true) :
    Memory.wf (s.commitBytes pa data).mem = true := State.wf_poke _ _ _ (State.wf_hitLines _ _ _ h)

/-! ## Stores -/

@[simp] theorem State.besideWrite_mem (s : State) (t pa n : Nat) : (s.besideWrite t pa n).mem = s.mem := by
  unfold State.besideWrite
  split <;> rfl

theorem State.wf_versionWrite (s s' : State) (task : Option Nat) (w : VWrite) (h : Memory.wf s.mem = true)
    (hs : s.versionWrite task w = some s') : Memory.wf s'.mem = true := by
  unfold State.versionWrite at hs
  split at hs
  · cases hs; exact State.wf_applyNow _ _ (State.wf_hitLines _ _ _ h)
  · split at hs
    · cases hs; exact h
    · split at hs
      · cases hs; simpa using h
      · cases hs

theorem State.wf_writeScratch (s : State) (t off : Nat) (data : List Byte) (h : Memory.wf s.mem = true) :
    Memory.wf (s.writeScratch t off data).mem = true := by
  unfold State.writeScratch
  split
  · split
    · exact State.wf_poke _ _ _ h
    · exact h
  · exact h

theorem State.wf_storeLoc (s s' : State) (task : Option Nat) (l : Loc) (data : List Byte) (h : Memory.wf s.mem = true)
    (hs : s.storeLoc task l data = some s') : Memory.wf s'.mem = true := by
  cases l with
  | glob pa => exact State.wf_versionWrite s s' task _ h hs
  | spd t off => cases hs; exact State.wf_writeScratch _ _ _ _ h

theorem State.wf_saveLines (s : State) (tid ord : Nat) (t : Team) (ls : List Nat) (h : Memory.wf s.mem = true) :
    Memory.wf (s.saveLines tid ord t ls).mem = true := by
  unfold State.saveLines
  split
  · exact h
  · exact State.wf_foldl _ (fun _ _ hs => State.wf_poke _ _ _ hs) _ _ h

theorem State.wf_saveState (s : State) (tid ord : Nat) (t : Team) (h : Memory.wf s.mem = true) :
    Memory.wf (s.saveState tid ord t).mem = true := by
  simp only [State.saveState]
  split
  · exact h
  · split
    · exact State.wf_poke _ _ _ (State.wf_poke _ _ _ h)
    · exact State.wf_poke _ _ _ h

/-- Reset memory has the form. -/
theorem Memory.wf_reset : Memory.wf State.reset.mem = true := rfl

end Sys2Proof.Machine
end

