-- ==== Sys2Proof/Tests/Slice0.lean ====
section
/-!
SUPPORT. Tests: terms that are not well-formed, words written out from the encodings, and for every statement with hypotheses a state
and operands that meet them.
-/

namespace Sys2Proof.Tests

set_option Elab.async false

open Sys2Proof.Machine

/-! ## States that the tests start from -/

/-- A device on which context 0 has one cohort of one team of 32 lanes, whose move it is. -/
def one : State := { State.reset.withFetchWord 32 0x04000000 with agenda := [], cur := some (.team 0 0) }

/-- The same with a lead slice, whose move it is (the word is `lead 0`). -/
def withLead : State := { State.reset.withFetchWord 32 0xF0040000 with agenda := [], cur := some (.lead 0 0) }

/-- A device on which a prologue of context 0 runs, whose move it is. -/
def withPrologue : State := { State.reset.withFetchWord 32 0xF8020000 with agenda := [], cur := some (.prologue 0) }

/-- The steward of die 0 is to move. -/
def withSteward : State := { State.reset with boot := { State.reset.boot with up := true }, cur := some (.steward 0) }

/-- The header of a word with sequencing code `n` and no timing mark. -/
def hd : Hdr := { seq := 0#4, b := false }

/-- The state with the team of the first cohort changed. -/
def inTeam (s : State) (f : Team → Team) : State :=
  s.modTask 0 (fun k => { k with teams := AMap.modify k.teams 0 f })

/-- The word issues for the party. -/
def ready (s : State) (p : Party) (i : Instr) : Bool :=
  match s.team? p with
  | some t => decide (s.cur = some p) && s.canIssue p t && (s.preIssue p i t.released').isNone
  | none => false

theorem issues_of_ready {s : State} {p : Party} {i : Instr} (h : ready s p i = true) : ∃ t, Issues s p t i := by
  unfold ready at h
  split at h
  · rename_i t ht
    simp only [Bool.and_eq_true, decide_eq_true_eq, Option.isNone_iff_eq_none] at h
    exact ⟨t, h.1.1, ht, h.1.2, h.2⟩
  · cases h

/-- A condition on the party's stream. -/
def teamSat (s : State) (p : Party) (q : Team → Bool) : Bool :=
  match s.team? p with
  | some t => q t
  | none => false

/-- A condition on the task of the first cohort. -/
def taskSat (s : State) (q : Task → Bool) : Bool :=
  match s.task? 0 with
  | some k => q k
  | none => false

/-- The context is neither recorded nor replayed. -/
def quiet (s : State) (c : Nat) : Bool := !(s.ctx c).level.recording && !s.replaying c

/-! ## Well-formedness: one ill-formed term for each check -/

theorem test_event_is_no_word : (Instr.leaderLeaseRenew).wellFormed = false := by decide
theorem test_sequencing_code_14_is_not_listed : (Instr.nop { seq := 14#4, b := false }).wellFormed = false := by decide
theorem test_global_atomic_of_code_13_is_a_mred : (Instr.atomRlx hd 1#7 2#7 13#4 5#3).wellFormed = false := by decide
theorem test_scratchpad_atomic_of_order_5_is_not_listed : (Instr.atomScratchpad hd 1#7 2#7 0#4 5#3).wellFormed = false := by decide
theorem test_reduction_6_is_not_listed : (Instr.tred hd 1#7 2#7 6#3).wellFormed = false := by decide
theorem test_scan_3_is_not_listed : (Instr.scan hd 1#7 2#7 3#2).wellFormed = false := by decide
theorem test_unassigned_word_is_not_well_formed : (Instr.illegalOp 0#32).wellFormed = false := by decide
theorem test_words_are_well_formed :
    [Instr.nop hd, .atomRlx hd 1#7 2#7 12#4 5#3, .atomScratchpad hd 1#7 2#7 12#4 4#3, .tred hd 1#7 2#7 5#3,
      .scan hd 1#7 2#7 2#2].all Instr.wellFormed = true := by decide

/-! ## Words of each family, written out from the encodings of R13 and R40 to R46 -/

/-- `icmp.lt p1, v1, k2 >> b` (R91), `lset k5` and `lset 16` (R76), `mset.lo 0x97A` and `mset.hi 0x31` (R79), `sreg v1, %lane` (R81),
`movi k0, 1` and `movhi k0, 0x08D1` (R83), `pand p2, p1, q0` (R93). -/
theorem test_decode_the_manuals_words :
    decode 0x8C4280E2#32 = .icmp { seq := 1#4, b := false } 1#4 2#3 1#7 98#7 ∧ decode 0x0400F280#32 = .lset hd 101#7 ∧
    decode 0x04010010#32 = .lsetImm hd 16#14 ∧ decode 0x0401897A#32 = .msetLo hd 0x97A#12 ∧
    decode 0x0401A031#32 = .msetHi hd 0x31#8 ∧ decode 0x04028080#32 = .sreg hd 1#7 0#7 ∧
    decode 0x0C180001#32 = .movi hd 96#7 1#14 ∧ decode 0x101808D1#32 = .movhi hd 96#7 0x8D1#14 ∧
    decode 0x1C000860#32 = .pand hd 2#4 1#4 8#4 := by decide +kernel

/-- `iadd v4, v4, v5 >> lp` and `^iadd k3, k1, k2` (R39), `fma v10, v2, v3` (R101), `cvtmx.h32 v10, v2` (R111), `vote.ballot v5, p1` (R114),
`shfl.down v8, v2, 1` (R118). -/
theorem test_decode_lane_words :
    decode 0x42010205#32 = .iadd { seq := 8#4, b := false } 4#7 4#7 5#7 ∧
    decode 0x4038F0E2#32 = .iadd { seq := 0#4, b := true } 99#7 97#7 98#7 ∧
    decode 0xBC028103#32 = .fma hd 10#7 2#7 3#7 ∧ decode 0xC4028112#32 = .cvtmxH32 hd 10#7 2#7 ∧
    decode 0xC8014082#32 = .voteBallot hd 5#7 1#4 ∧ decode 0xCC020141#32 = .shfl hd 8#7 2#7 2#2 1#5 ∧
    decode 0xB007C306#32 = .fcmp hd 3#4 7#3 6#7 6#7 := by decide +kernel

/-- `ld.b32 v4, [v8:v9+8]` (R125), `ld.acq.dev.b32` and `st.rel.dev.b32` (R126), `wait ld=0` (R131), `atom.add v5, [v2]` (R132),
`atom.fadd.dev` and `mred.add.dev` (R51). -/
theorem test_decode_memory_words :
    decode 0x20010402#32 = .ldB32 hd 4#7 8#7 2#7 ∧ decode 0x38014208#32 = .ldAcqB32 hd 5#3 4#7 8#7 ∧
    decode 0x38114188#32 = .stRelB32 hd 5#3 3#7 8#7 ∧ decode 0xD000FFFF#32 = .wait hd 0#5 31#5 31#5 63#6 ∧
    decode 0xD8014100#32 = .atomScratchpad hd 5#7 2#7 0#4 0#3 ∧ decode 0xDC01046D#32 = .mredAdd hd 4#7 8#7 5#3 ∧
    decode 0xDC01040D#32 = .atomRlx hd 4#7 8#7 1#4 5#3 := by decide +kernel

/-- `txe p3, v7` (R135), `fence.rel.dev` (R140), `park.glb.ne k4:k5, k6` (R142), `bararr 1, 4` and `barwait 2, 4` (R143). -/
theorem test_decode_synchronisation_words :
    decode 0xD4028C38#32 = .txe hd 3#4 7#7 ∧ decode 0xD4001500#32 = .fence hd 2#3 5#3 ∧
    decode 0xD4008086#32 = .park hd 0#2 0#2 4#5 6#5 ∧ decode 0xD400C500#32 = .bararr hd 1#4 4#4 ∧
    decode 0xD4010900#32 = .barwait hd 2#4 4#4 := by decide +kernel

/-- The words of R148, R157, R158, R161: engines, launches, messages, operand-buffer records and lead queues. -/
theorem test_decode_engine_words :
    decode 0xF0003200#32 = .tcopy hd 100#7 0#1 ∧ decode 0xF0003340#32 = .tcopy hd 102#7 1#1 ∧
    decode 0xF0007200#32 = .chain hd 100#7 0#1 ∧ decode 0xF0063200#32 = .coll hd 100#7 0#1 ∧
    decode 0xF0083400#32 = .launch hd 104#7 ∧ decode 0xF00A0440#32 = .msend hd 2#5 4#5 ∧ decode 0xF00A4860#32 = .mrecv hd 4#5 6#5 ∧
    decode 0xF0020430#32 = .obres hd 2#5 3#5 ∧ decode 0xF0024640#32 = .obset hd 3#5 4#5 ∧ decode 0xF0028400#32 = .obrel hd 2#5 ∧
    decode 0xF0040800#32 = .leadN hd 4#5 ∧ decode 0xF0046208#32 = .qpushOb hd 4#5 2#5 ∧ decode 0xF004B480#32 = .qpop hd 105#7 := by
  decide +kernel

/-- The words of R163 to R166. -/
theorem test_decode_matrix_words :
    decode 0xF4001000#32 = .mres hd 2#3 ∧ decode 0xF4008400#32 = .mmz hd 0#3 1#1 ∧ decode 0xF400D806#32 = .mld hd 3#3 6#5 ∧
    decode 0xF4020086#32 = .mma hd 0#3 2#5 3#5 ∧ decode 0xF402084B#32 = .mmaTile hd 1#3 0#3 1#2 5#5 ∧
    decode 0xF4060007#32 = .smx hd 0#3 7#5 ∧ decode 0xF4064007#32 = .sexp hd 0#3 7#5 ∧ decode 0xF4068800#32 = .srsc hd 1#3 0#3 ∧
    decode 0xF40408A2#32 = .mdrain hd 1#3 0#2 1#2 1#2 2#5 ∧ decode 0xF4040D04#32 = .mdrain hd 1#3 2#2 2#2 0#2 4#5 := by decide +kernel

/-- The table of R169. -/
theorem test_decode_system_words :
    decode 0xF8000A80#32 = .trap hd 0x2A#8 ∧ decode 0xF8004148#32 = .sysReq hd 5#8 4#5 ∧ decode 0xF800B200#32 = .rdclk hd 100#7 ∧
    decode 0xF800C100#32 = .rdtime hd 2#7 ∧ decode 0xF8010123#32 = .mark hd 0x123#14 ∧ decode 0xF8020400#32 = .csrr hd 2#5 0#7 ∧
    decode 0xF8024605#32 = .csrw hd 3#5 5#7 ∧ decode 0xF8028220#32 = .probe hd 1#5 2#5 ∧ decode 0xF802F300#32 = .pcnt hd 102#7 0#7 ∧
    decode 0xF8030220#32 = .dstep hd 1#5 2#5 ∧ decode 0xF8034000#32 = .halt hd := by decide +kernel

/-- A reserved operand bit, an unassigned major opcode and an unassigned minor are ILLEGAL_OP (R15, R40). -/
theorem test_decode_refuses :
    decode 0x04000001#32 = .illegalOp 0x04000001#32 ∧ decode 0x00000000#32 = .illegalOp 0#32 ∧
    decode 0x04030000#32 = .illegalOp 0x04030000#32 ∧ decode 0xFFFFFFFF#32 = .illegalOp 0xFFFFFFFF#32 := by decide +kernel

/-! ## Words that issue

One theorem for each family: in the named state every word listed issues, so that each statement about what it does speaks of it. -/

/-- md with an element type. -/
def typed (ty : Nat) : State := inTeam one (fun t => { t with md := 0x10000000#32 ||| BitVec.ofNat 32 (16 * ty) })

theorem witness_ControlWordsWriteTheirOneTarget :
    [Instr.nop hd, .jset hd 0#2 4#19, .jmov hd 1#2 98#7, .jget hd 98#7 1#2, .msetLo hd 0x060#12, .msetFl hd 0xFFF#12,
      .msetHi hd 0x10#8, .mput hd 97#7, .mget hd 1#7, .tile hd 1#3, .tile hd 5#3, .rdlane hd 97#7 1#7, .movi hd 1#7 1#14,
      .movhi hd 97#7 1#14].all (ready one (.team 0 0)) = true ∧
    teamSat one (.team 0 0) (fun t => mdLegal (t.reg 97 0)) = true := by decide +kernel

theorem witness_WordsReadTheirTasksOwnData :
    (span 0 12).all (fun n => ready one (.team 0 0) (.sreg hd 1#7 (BitVec.ofNat 7 n))) = true ∧
    taskSat one (fun k => (one.grid? k.grid).isSome) = true ∧
    [Instr.ldargB8 hd 1#7 0#7, .ldargB16 hd 1#7 0#7, .ldargB32 hd 1#7 0#7, .ldargB64 hd 2#7 0#7].all
      (fun i => ready one (.team 0 0) i && ready { one with grids := [(0, { placeGrid with args := List.replicate 8 1#8 })] } (.team 0 0) i)
      = true ∧
    (one.argBytes (.team 0 0)).length < 1 ∧
    8 ≤ (State.argBytes { one with grids := [(0, { placeGrid with args := List.replicate 8 1#8 })] } (.team 0 0)).length := by
  decide +kernel

/-- The same with one open loop, and with four. -/
def loops (n : Nat) : State := inTeam one (fun t => { t with loops := List.replicate n { lc := 2#32, lh := 0x10000#64 } })

theorem witness_LoopWordsActOnTheLoopStack :
    [Instr.lset hd 97#7, .lsetImm hd 0#14, .lsetImm hd 3#14, .lbrk hd].all
      (fun i => ready (loops 0) (.team 0 0) i && ready (loops 1) (.team 0 0) i && ready (loops 4) (.team 0 0) i) = true ∧
    teamSat (loops 1) (.team 0 0) (fun t => decide (t.loops.length < 4 ∧ t.loops ≠ [] ∧ t.j1.toNat % 4 = 0 ∧ t.reg 97 0 = 0#32)) = true ∧
    teamSat (loops 4) (.team 0 0) (fun t => decide (4 ≤ t.loops.length)) = true ∧
    teamSat (loops 0) (.team 0 0) (fun t => decide (t.loops = [])) = true ∧
    teamSat (inTeam one (fun t => t.setK 1 5#32)) (.team 0 0) (fun t => decide ((t.reg 97 0).toNat = 5)) = true := by
  decide +kernel

theorem witness_IntegerWordsComputeTheirResult :
    [Instr.iadd hd 1#7 2#7 3#7, .isub hd 1#7 2#7 3#7, .imul hd 1#7 2#7 3#7, .imulh hd 1#7 2#7 3#7, .andB hd 1#7 2#7 3#7,
      .orB hd 1#7 2#7 3#7, .xorB hd 1#7 2#7 3#7, .andnB hd 1#7 2#7 3#7, .shl hd 1#7 2#7 3#7, .shr hd 1#7 2#7 3#7, .sar hd 1#7 2#7 3#7,
      .rot hd 1#7 2#7 3#7, .bfx hd 1#7 2#7 3#7, .bfi hd 1#7 2#7 3#7, .sel hd 1#7 2#7 3#7, .iaddi hd 97#7 98#7 64#7, .mov hd 97#7 98#7,
      .popc hd 1#7 2#7, .clz hd 1#7 2#7, .ctz hd 1#7 2#7, .brev hd 1#7 2#7].all (ready one (.team 0 0)) = true := by decide +kernel

theorem witness_PairWordsComputeTheirResult :
    [Instr.add64 hd 2#7 4#7 6#7, .sub64 hd 2#7 4#7 6#7, .lea hd 98#7 100#7 97#7, .shl64 hd 2#7 4#7 63#6, .shr64 hd 2#7 4#7 63#6].all
      (ready one (.team 0 0)) = true := by decide +kernel

theorem witness_PredicateWordsComputeTheirResult :
    [Instr.icmp hd 1#4 5#3 1#7 2#7, .ucmp hd 11#4 0#3 97#7 98#7, .pand hd 0#4 1#4 8#4, .por hd 7#4 1#4 8#4, .pxor hd 1#4 2#4 3#4,
      .pnot hd 8#4 11#4, .pset hd 1#4 2#7, .pget hd 1#7 2#4].all (ready one (.team 0 0)) = true := by decide +kernel

theorem witness_TypedWordsApplyTheElementFunctions :
    (span 0 13).all (fun ty => ty = 11 || [Instr.addT hd 2#7 4#7 6#7, .subT hd 2#7 4#7 6#7, .mulT hd 2#7 4#7 6#7, .minT hd 2#7 4#7 6#7,
      .maxT hd 2#7 4#7 6#7, .absT hd 2#7 4#7, .negT hd 2#7 4#7, .fma hd 2#7 4#7 6#7, .fmaN hd 2#7 4#7 6#7, .mkabs hd 2#7 4#7].all
        (ready (typed ty) (.team 0 0))) = true ∧
    [6, 7, 8, 12].all (fun ty => [Instr.sqrt hd 2#7 4#7, .rcp hd 2#7 4#7, .rsq hd 2#7 4#7, .exp2 hd 2#7 4#7, .log2 hd 2#7 4#7,
      .sinpi hd 2#7 4#7, .cospi hd 2#7 4#7, .divT hd 2#7 4#7 6#7, .fcmp hd 1#4 7#3 4#7 6#7, .classify hd 11#4 98#7 127#7].all
        (ready (typed ty) (.team 0 0))) = true ∧
    [2, 3, 4, 5, 7, 8, 9, 10].all (fun ty => ready (typed ty) (.team 0 0) (.dot hd 1#7 2#7 3#7)) = true := by decide +kernel

theorem witness_ConversionWordsConvertElements :
    (span 0 13).all (fun src => src = 11 || (ready (typed 6) (.team 0 0) (.cvt hd 8#7 16#7 (BitVec.ofNat 4 src)) &&
      ready (typed 10) (.team 0 0) (.cvt hd 8#7 16#7 (BitVec.ofNat 4 src)))) = true ∧
    ready (typed 11) (.team 0 0) (.cvtmx hd 8#7 16#7) = true ∧ ready (typed 11) (.team 0 0) (.cvtmxH32 hd 8#7 16#7) = true ∧
    ready (inTeam (typed 11) (fun t => { t with tw := 4#32 })) (.team 0 0) (.cvtmxH16 hd 8#7 16#7) = true ∧
    ready (typed 7) (.team 0 0) (.pack hd 8#7 16#7) = true ∧ ready (typed 11) (.team 0 0) (.unpack hd 8#7 16#7) = true ∧
    teamSat (typed 11) (.team 0 0) (fun t => decide (31 / t.tileWidth < 32 * t.groups / t.tileWidth)) = true := by decide +kernel

theorem witness_CrossLaneWordsStayInTheirTile :
    [Instr.voteAny hd 8#4 1#4, .voteAll hd 1#4 1#4, .voteUni hd 11#4 8#4, .voteBallot hd 1#7 1#4, .matchLanes hd 1#7 2#7,
      .elect hd 1#4 2#4, .cntp hd 1#7 2#4, .shfl hd 1#7 2#7 0#2 31#5, .shfl hd 1#7 2#7 1#2 1#5, .shfl hd 1#7 2#7 2#2 1#5,
      .shfl hd 1#7 2#7 3#2 1#5, .tred hd 1#7 2#7 5#3, .scan hd 1#7 2#7 2#2].all (ready one (.team 0 0)) = true ∧
    teamSat one (.team 0 0) (fun t => decide (0 / t.tileWidth < 32 * t.groups / t.tileWidth ∧ 5 < 2 ^ t.valBits)) = true := by
  decide +kernel

theorem witness_MemoryWordsStartTheirOperation :
    [Instr.ldB32 hd 1#7 2#7 1#7, .ldB64 hd 4#7 2#7 1#7, .stB32 hd 1#7 2#7 127#7, .stB64 hd 4#7 2#7 1#7, .ldsB32 hd 1#7 2#7 1#7,
      .stsB32 hd 1#7 2#7 1#7, .ldB8 hd 1#7 2#7, .ldB16 hd 1#7 2#7, .ldS8 hd 1#7 2#7, .ldS16 hd 1#7 2#7, .stB8 hd 1#7 2#7,
      .stB16 hd 1#7 2#7, .ldsB8 hd 1#7 2#7, .ldsB16 hd 1#7 2#7, .ldsS8 hd 1#7 2#7, .ldsS16 hd 1#7 2#7, .stsB8 hd 1#7 2#7,
      .stsB16 hd 1#7 2#7, .ldsB64 hd 4#7 2#7, .stsB64 hd 4#7 2#7, .ldr hd 1#7 2#7, .str hd 1#7 2#7, .ldkB32 hd 97#7 98#7,
      .ldkB64 hd 98#7 98#7, .stkB32 hd 97#7 98#7, .stkB64 hd 98#7 98#7].all (ready one (.team 0 0)) = true ∧
    (span 0 7).all (fun c => [Instr.ldAcqB32 hd (BitVec.ofNat 3 c) 1#7 2#7, .ldScB32 hd (BitVec.ofNat 3 c) 1#7 2#7,
      .ldAcqB64 hd (BitVec.ofNat 3 c) 4#7 2#7, .ldScB64 hd (BitVec.ofNat 3 c) 4#7 2#7, .ldsAcq hd (BitVec.ofNat 3 c) 1#7 2#7,
      .ldsSc hd (BitVec.ofNat 3 c) 1#7 2#7, .stRelB32 hd (BitVec.ofNat 3 c) 1#7 2#7, .stScB32 hd (BitVec.ofNat 3 c) 1#7 2#7,
      .stRelB64 hd (BitVec.ofNat 3 c) 4#7 2#7, .stScB64 hd (BitVec.ofNat 3 c) 4#7 2#7, .stsRel hd (BitVec.ofNat 3 c) 1#7 2#7,
      .stsSc hd (BitVec.ofNat 3 c) 1#7 2#7, .mredAdd hd 1#7 2#7 (BitVec.ofNat 3 c), .mredAddRel hd 1#7 2#7 (BitVec.ofNat 3 c),
      .mredFadd hd 1#7 2#7 (BitVec.ofNat 3 c), .mredFaddRel hd 1#7 2#7 (BitVec.ofNat 3 c)].all (ready one (.team 0 0))) = true ∧
    (span 0 13).all (fun o => [Instr.atomRlx hd 4#7 2#7 (BitVec.ofNat 4 o) 5#3, .atomAcq hd 4#7 2#7 (BitVec.ofNat 4 o) 5#3,
      .atomRel hd 4#7 2#7 (BitVec.ofNat 4 o) 5#3, .atomAr hd 4#7 2#7 (BitVec.ofNat 4 o) 5#3, .atomSc hd 4#7 2#7 (BitVec.ofNat 4 o) 5#3,
      .atomScratchpad hd 4#7 2#7 (BitVec.ofNat 4 o) 4#3].all (ready one (.team 0 0))) = true ∧
    teamSat one (.team 0 0) (fun t => decide (t.tx = none ∧ t.lanes = span 0 32 ∧ t.pair 2 31 = 0#64 ∧ t.reg 2 31 = 0#32)) = true ∧
    [(Space.global, How.load, Loc.glob 0), (.global, .store, .glob 0), (.own, .load, .spd 0 0), (.own, .store, .spd 0 0),
      (.gang, .load, .spd 0 0), (.gang, .store, .spd 0 0)].all
      (fun e => [1, 2, 4, 8].all (fun n => decide (one.checkAccess (.team 0 0) e.1 e.2.1 0#64 n false = (one, .ok e.2.2)))) = true := by
  decide +kernel

theorem witness_TheLowestFailingLaneTakesTheTrap :
    teamSat one (.team 0 0) (fun t => decide (t.tx = none)) = true ∧
    one.checkAccess (.team 0 0) .global .load 4#64 4 false = (one, .ok (.glob 4)) ∧
    one.checkAccess (.team 0 0) .own .load 0x10000#64 4 false = (one, .fail 21) ∧
    (6#64).toNat % 4 ≠ 0 ∧
    withPrologue.checkAccess (.prologue 0) .global .load 0x100000000000000#64 4 false = (withPrologue, .page) := by decide +kernel

/-- An outstanding load of the team. -/
def loading : State := inTeam one (fun t => { t with
  nextId := 1
  pend := [{ id := 0, cls := .ld, done := false, pc := 0#64, md := mdReset, point := 1,
             kind := .mem { kind := .load, bytes := 4, signed := false, dest := 9, accs := [⟨0, 0#64, .glob 0, 0#64, 0#64⟩], acq := false
                            rel := false, scope := 0, op := 0, reqs := [], held := some [] } }] })

theorem witness_WaitingWordsGoOnWhenNothingIsLeft :
    [Instr.wait hd 0#5 0#5 0#5 0#6, .fence hd 1#3 5#3, .fence hd 2#3 4#3, .fence hd 4#3 6#3, .vcommit hd, .pref hd 2#7 0#3,
      .cctl hd 2#7 1#3].all (ready one (.team 0 0)) = true ∧
    [Counter.ld, .st, .cp, .tl].all (fun k => teamSat one (.team 0 0) (fun t => decide (t.count k ≤ 0))) = true ∧
    teamSat one (.team 0 0) (fun t => !t.loadBusy && !t.memBusy) = true ∧
    ready loading (.team 0 0) (.wait hd 0#5 0#5 0#5 0#6) = true ∧
    teamSat loading (.team 0 0) (fun t => decide (¬ (Counter.max .ld ≤ 0 ∨ t.count .ld ≤ 0))) = true := by decide +kernel

/-- Barrier 1 with team 1 arrived and two teams expected; the cohort then has a second team, which waits there. -/
def barrier (expected : BitVec 4) (arrived : BitVec 8) : State :=
  let t : Team := { Team.start .kernel 0 1 1 96 0x10000#64 mdReset with hold := .bar 1 0 }
  let b : Barrier := { phase := 0#16, expected := expected, arrived := arrived }
  one.modTask 0 (fun k => { k with teams := k.teams ++ [(1, t)], bars := AMap.put Barrier.start k.bars 1 b })

theorem witness_NamedBarriersCountArrivals :
    [Instr.bararr hd 1#4 2#4, .barwait hd 1#4 2#4, .bararr hd 1#4 8#4, .barwait hd 1#4 8#4].all (fun i =>
      ready (barrier 0#4 0#8) (.team 0 0) i && ready (barrier 2#4 2#8) (.team 0 0) i && ready (barrier 2#4 1#8) (.team 0 0) i) = true ∧
    quiet one 0 = true ∧ teamSat (barrier 2#4 2#8) (.team 0 0) (fun t => !t.memBusy) = true ∧
    -- joins and is not the last; joins and is; has arrived before; expects another number, or more than there are
    taskSat (barrier 0#4 0#8) (fun k => decide (2 ≤ k.teams.length ∧ (AMap.get Barrier.start k.bars 1).arrived = 0#8 ∧
      popBits (0#8 ||| 1#8 <<< 0).toNat 8 ≠ 2)) = true ∧
    taskSat (barrier 2#4 2#8) (fun k => decide ((AMap.get Barrier.start k.bars 1).expected.toNat = 2 ∧
      (AMap.get Barrier.start k.bars 1).arrived.getLsbD 0 = false ∧ popBits (2#8 ||| 1#8 <<< 0).toNat 8 = 2)) = true ∧
    taskSat (barrier 2#4 1#8) (fun k => (AMap.get Barrier.start k.bars 1).arrived.getLsbD 0) = true ∧
    taskSat (barrier 2#4 2#8) (fun k => decide ((AMap.get Barrier.start k.bars 1).expected.toNat ≠ 8)) = true := by decide +kernel

theorem witness_GangBarriersAndParksWait :
    ready one (.team 0 0) (.gbar hd 3#2) = true ∧ quiet one 0 = true ∧ teamSat one (.team 0 0) (fun t => !t.memBusy) = true ∧
    [0#2, 1#2, 2#2].all (fun kind => [0#2, 1#2].all (fun n => ready one (.team 0 0) (.park hd kind n 2#5 3#5))) = true ∧
    one.parkWord (.team 0 0) 0 8#64 = (one, .ok (.at (.glob 8))) ∧ one.parkWord (.team 0 0) 1 8#64 = (one, .ok (.at (.spd 0 8))) ∧
    one.parkWord (.team 0 0) 2 8#64 = (one, .ok (.notify 8)) ∧
    teamSat one (.team 0 0) (fun t => !t.passes' (.glob 8) 4 && !t.passes' (.spd 0 8) 4) = true := by decide +kernel

/-- A transaction open for one lane, and for every lane. -/
def inTx (lanes : LaneMask) : State :=
  let x : Tx := { dev := false, lanes := lanes, tx := [], ticket := none, winners := [], intra := [], validated := [] }
  inTeam one (fun t => { t with tx := some x })

theorem witness_TransactionWordsOpenDoomAndResolve :
    ready one (.team 0 0) (.txbCoh hd) = true ∧ ready one (.team 0 0) (.txbDev hd) = true ∧
    teamSat one (.team 0 0) (fun t => decide (t.ticketLane = none)) = true ∧
    (let s := inTeam one (fun t => { t with aborts := [(5, 8)] })
     ready s (.team 0 0) (.txbCoh hd) && ready s (.team 0 0) (.txbDev hd) && teamSat s (.team 0 0) (fun t => t.ticketLane = some 5)) = true ∧
    ready (inTx 1#1024) (.team 0 0) (.txa hd 7#8) = true ∧ ready (inTx 0#1024) (.team 0 0) (.txe hd 1#4 3#7) = true ∧
    ready (inTx 1#1024) (.team 0 0) (.txe hd 1#4 3#7) = true := by decide +kernel

/-! ## Engine, launch, message and matrix words -/

/-- `n` bytes with little-endian fields (offset, size, value). -/
def block (n : Nat) (fs : List (Nat × Nat × Nat)) : List Byte :=
  fs.foldl (fun bs f => bs.take f.1 ++ toBytes f.2.1 f.2.2 ++ bs.drop (f.1 + f.2.1)) (List.replicate n 0#8)

/-- Bytes in memory at 0x400, to which k4:k5 points. -/
def pointing (bs : List Byte) : State :=
  let s := inTeam one (fun t => t.setK 4 0x400#32)
  { s with mem := writeBytes s.mem 0x400 bs }

/-- A copy of four f32 elements, a chain of two steps over 0 and over 8 elements, and a collective of group 3. -/
def copyDesc : List Byte := block 56 [(0, 8, 0x1000), (8, 8, 0x2000), (0x10, 1, 6), (0x11, 1, 6), (0x12, 1, 1), (0x20, 4, 4), (0x28, 8, 4), (0x30, 8, 4)]
def chainDesc (n : Nat) : List Byte :=
  block 64 [(0, 8, 0x1000), (8, 8, 0x1800), (0x10, 8, 0x2000), (0x18, 4, n), (0x1C, 1, 6), (0x1E, 1, 2), (0x20, 1, 1), (0x22, 1, 9)]
def collDesc : List Byte := block 64 [(0, 8, 0x1000), (8, 8, 0x2000), (0x10, 4, 8), (0x14, 1, 6), (0x18, 2, 3)]
def groupOf (s : State) : State := s.modCtx 0 (fun k => { k with groups := [(3, { members := [(0xFFFF, 0)], opening := none })] })

/-- What a block read at issue gives. -/
def reads (s : State) (i : Instr) (n : Nat) : Option (State × List Byte) :=
  match s.team? (.team 0 0) with
  | some t => (match readBlock s (.team 0 0) (t.opened i) (descAt t 100 false).1 (descAt t 100 false).2 64 n with
    | .ok r => some r
    | .error _ => none)
  | none => none

theorem witness_EngineWordsQueueTheirOperation :
    ready (pointing copyDesc) (.team 0 0) (.tcopy hd 100#7 0#1) = true ∧
    reads (pointing copyDesc) (.tcopy hd 100#7 0#1) 32 = some (pointing copyDesc, copyDesc.take 32) ∧
    reads (pointing copyDesc) (.tcopy hd 100#7 0#1) 56 = some (pointing copyDesc, copyDesc) ∧
    ((parseCopy copyDesc).legal copyDesc && decide ((parseCopy copyDesc).sc ≠ 11) && decide ((parseCopy copyDesc).dstSpace ≠ 2)) = true ∧
    (one.core 0).lockRoom 2 = true ∧ quiet (pointing copyDesc) 0 = true ∧ collType (bytesAt collDesc 0x14 1) = true ∧
    [0, 8].all (fun n => ready (pointing (chainDesc n)) (.team 0 0) (.chain hd 100#7 0#1) && chainLegal (chainDesc n) &&
      decide (bytesAt (chainDesc n) 0x1C 1 ≤ 8) && (chainOps (chainDesc n)).all (fun o => decide (o.1 < 11)) && decide (bytesAt (chainDesc n) 0x18 4 = n) &&
      decide (reads (pointing (chainDesc n)) (.chain hd 100#7 0#1) 64 = some (pointing (chainDesc n), chainDesc n))) = true ∧
    ready (groupOf (pointing collDesc)) (.team 0 0) (.coll hd 100#7 0#1) = true ∧ collLegal collDesc = true ∧
    reads (groupOf (pointing collDesc)) (.coll hd 100#7 0#1) 64 = some (groupOf (pointing collDesc), collDesc) := by decide +kernel

/-- Core 0 with record 2 held by the cohort, and legal words for it in k4:k5. -/
def holding : State :=
  let s := (inTeam one (fun t => (t.setK 4 7#32).setK 3 4#32))
  s.modCore 0 (fun c => c.setObRec 2 { held := some 0, length := 4, base := 0, word1 := 0#32, word2 := 0#32 })

theorem witness_OperandBufferRecordsAreHeldSetAndReleased :
    [Instr.obres hd 3#5 3#5, .obres hd 2#5 3#5, .obres hd 3#5 9#5, .obset hd 2#5 4#5, .obset hd 3#5 4#5, .obset hd 2#5 6#5, .obrel hd 2#5,
      .obrel hd 3#5].all (ready holding (.team 0 0)) = true ∧
    teamSat holding (.team 0 0) (fun t => decide ((t.kreg 3).toNat = 4 ∧ (t.kreg 9).toNat = 0 ∧
      obWordsOk (t.kreg 4).toNat (t.kreg 5).toNat = true ∧ obWordsOk (t.kreg 6).toNat (t.kreg 7).toNat = false)) = true ∧
    ((holding.core 0).obRec 2).held = some 0 ∧ ((holding.core 0).obRec 3).held = none ∧ (holding.core 0).obQ = [] ∧
    (holding.core 0).freeRun 4 = some 4 ∧ taskSat holding (fun k => !holding.obBusy 0 2 k) = true ∧
    -- a record that has been granted
    ready (inTeam holding (fun t => { t with hold := .obres 2 4 })) (.team 0 0) (.obres hd 2#5 3#5) = true ∧
    -- a record that another cohort holds, and no free run
    (let s := holding.modCore 0 (fun c => c.setObRec 3 { held := some 9, length := 124, base := 4, word1 := 0#32, word2 := 0#32 })
     ready s (.team 0 0) (.obres hd 3#5 3#5) && decide (((s.core 0).obRec 3).held ≠ none ∧ (s.core 0).freeRun 4 = none)) = true := by
  decide +kernel

/-- A lead slice whose team has `n` entries in its queue, the first a value. -/
def queued (n : Nat) : State := inTeam withLead (fun t => { t with leadQ := List.replicate n (.val 7#32) })

theorem witness_LeadQueuesPassWordsInOrder :
    [Instr.leadN hd 0#5, .leadN hd 16#5, .qpushVal hd 4#5, .qpushLd hd 4#5].all (ready (queued 0) (.lead 0 0)) = true ∧
    ready (queued 1) (.lead 0 0) (.leadN hd 0#5) = true ∧ ready (queued 16) (.lead 0 0) (.qpushVal hd 4#5) = true ∧
    withLead.checkAccess (.lead 0 0) .global .load 0#64 4 false = (withLead, .ok (.glob 0)) ∧ (withLead.core 0).lockRoom 1 = true ∧
    (let s := (queued 0).modCore 0 (fun c => c.setObRec 2 { held := some 0, length := 1, base := 0, word1 := 0#32, word2 := 0#32 })
     ready s (.lead 0 0) (.qpushOb hd 4#5 2#5) &&
     (match sourceParts (.lead 0 0) 0#64 (((s.core 0).obRec 2).size / 64) s with
      | .ok (s', _) => decide (s' = s)
      | .error _ => false)) = true ∧
    (let s := { queued 1 with cur := some (.team 0 0) }
     ready s (.team 0 0) (.qpop hd 105#7) && teamSat s (.team 0 0) (fun t => decide (!t.memBusy ∧ t.leadQ = [.val 7#32]))) = true ∧
    (LeadEntry.val 7#32).ready = some (7#32, none) ∧
    ready one (.team 0 0) (.qpop hd 105#7) = true ∧ one.leadEnded (.team 0 0) = true ∧
    -- entries still to be filled
    quiet withLead 0 = true ∧ withLead.acting (.team 0 0) = true ∧
    teamSat (inTeam withLead (fun t => { t with leadQ := [.ld 1 ⟨0, 0#64, .glob 0, 0#64, 0#64⟩ none 0#64] })) (.team 0 0)
      (fun t => withLead.ordered (.lead 0 0) t none && decide (t.hold = .none)) = true ∧
    teamSat (inTeam withLead (fun t => { t with leadQ := [.ob 1 2 0#64 [(0, 64)] 0 64 0#64] })) (.team 0 0)
      (fun t => withLead.ordered (.lead 0 0) t none && decide (0 + 8 < 64)) = true := by decide +kernel

/-- A launch record of one cohort with its role table behind it, and a message's body. -/
def recordBytesOf : List Byte :=
  block 112 [(0, 8, 0x10000), (8, 8, 0x440), (0x10, 4, 1), (0x14, 4, 1), (0x18, 4, 1), (0x1C, 4, 0x80), (0x3C, 4, 5),
    (0x40, 4, 0x10000060), (0x44, 1, 1), (0x50, 8, 0x10000), (0x60, 1, 8)]

/-- The record in memory, in a context with a pool of 8 MiB. -/
def launching : State := ((pointing recordBytesOf).setCreg 0 oCPOOLS 4).setCreg 0 oCPOOLB 0x40000000

theorem witness_LaunchesAndMessagesTakeTheirBlocks :
    ready launching (.team 0 0) (.launch hd 100#7) = true ∧
    reads launching (.launch hd 100#7) 64 = some (launching, recordBytesOf.take 64) ∧
    ((parseRecord recordBytesOf).ok && tableOk (parseRecord recordBytesOf) (recordBytesOf.drop 64) &&
      launching.couldPlace 0 (parseRecord recordBytesOf) (rolesOf (parseRecord recordBytesOf) (recordBytesOf.drop 64)) &&
      launching.launchRoom 0) = true ∧ tableSize (parseRecord recordBytesOf).roleCount = 48 ∧
    teamSat launching (.team 0 0) (fun t => !t.loadBusy &&
      (match readBlock launching (.team 0 0) (t.opened (.launch hd 100#7)) .global 0x440#64 8 48 with
       | .ok r => decide (r = (launching, recordBytesOf.drop 64))
       | .error _ => false)) = true ∧
    -- a message to device 7, which route 0 names
    (let s := (pointing (List.replicate 64 1#8)).setCreg 0 (oMRT 0) (2 ^ 16 + 7)
     let s := inTeam s (fun t => t.setK 2 0x705#32)
     ready s (.team 0 0) (.msend hd 2#5 4#5) && (s.route 0 7).isSome && teamSat s (.team 0 0) (fun t => decide ((t.kreg 2).toNat < 2 ^ 24)) &&
     decide (reads s (.msend hd 2#5 4#5) 64 = some (s, List.replicate 64 1#8))) = true ∧
    -- a message in mailbox 5, bound to the context
    (let m : Message := { mbox := 5, srcDev := 7, srcCtx := 0, dstDev := 1, epoch := 0, seq := 0, body := List.replicate 64 1#8, grid := 0 }
     let s := { (pointing []).setReg (rMBXBIND 5) 64#64 with mailboxes := [(5, [m])] }
     let s := inTeam s (fun t => t.setK 6 5#32)
     ready s (.team 0 0) (.mrecv hd 4#5 6#5) && decide ((s.reg (rMBXBIND 5)).toNat / 2 ^ 6 % 2 = 1) &&
     decide (AMap.get [] s.mailboxes 5 = [m]) && decide (s.checkAccess (.team 0 0) .global .store 0x400#64 64 false = (s, .ok (.glob 0x400))))
      = true ∧
    -- a full launch queue, and counters at their maximum
    (let s := launching.modCore 0 (fun c => { c with launches := List.replicate 4 7 })
     ready s (.team 0 0) (.launch hd 100#7) && !s.launchRoom 0) = true ∧
    (let p (c : Counter) : Pend := { id := 0, cls := c, done := false, pc := 0#64, md := mdReset, point := 0, kind := .message }
     teamSat (inTeam one (fun t => { t with pend := List.replicate 31 (p .cp) ++ List.replicate 31 (p .st) })) (.team 0 0)
       (fun t => decide (31 ≤ t.count .cp ∧ 31 ≤ t.count .st))) = true := by decide +kernel

/-- The team of quadrant 0 holds tiles 0 and 1; tile 4 is another quadrant's. -/
def tiles : State := one.modCore 0 (fun c => { c with holder := [(0, (0, 0)), (1, (0, 0))] })

/-- The team holds record 2 with plain f16 operands of a whole run. -/
def mmaReady : State := tiles.modCore 0 (fun c =>
  c.setObRec 2 { held := some 0, length := 4, base := 0, word1 := 7#32, word2 := 0#32 })

theorem witness_MatrixWordsQueueOnTheirArray :
    [Instr.mres hd 0#3, .mrel hd 0#3, .mrel hd 4#3, .mmz hd 0#3 1#1, .smx hd 0#3 4#5, .sexp hd 0#3 4#5, .srsc hd 0#3 1#3, .mma hd 0#3 2#5 2#5,
      .mmaTile hd 0#3 1#3 0#2 2#5, .mld hd 0#3 4#5, .mdrain hd 0#3 0#2 1#2 3#2 4#5, .mdrain hd 0#3 1#2 0#2 0#2 4#5,
      .mdrain hd 0#3 2#2 1#2 0#2 4#5, .mdrain hd 0#3 3#2 0#2 0#2 4#5].all (ready mmaReady (.team 0 0)) = true ∧
    ready one (.team 0 0) (.mres hd 0#3) = true ∧ AMap.find (one.core 0).holder 0 = none ∧ one.tileBusy 0 0 = false ∧
    (let s := one.modCore 0 (fun c => { c with holder := [(0, (9, 0))] })
     ready s (.team 0 0) (.mres hd 0#3)) = true ∧
    teamSat tiles (.team 0 0) (fun t => decide (0 / 2 = t.partition / 8 ∧ 4 / 2 ≠ t.partition / 8 ∧ t.usesTile 0 = false ∧
      mdRed t.md = false ∧ t.rowsWait [] = false)) = true ∧
    AMap.find (tiles.core 0).holder 0 = some (0, 0) ∧
    mmaTrap (mmaReady.core 0) 0 0 (some 2) 2 0 (span 0 32) = none ∧ mmaTrap (mmaReady.core 0) 0 0 none 2 0 (span 0 32) = none ∧
    [(Space.global, How.load, 16, 2048), (.own, .store, 4, 512), (.global, .store, 4, 512), (.global, .store, 16, 2048)].all (fun e =>
      match rowParts e.1 e.2.1 (.team 0 0) 0#64 e.2.2.1 e.2.2.2 [0, 1] tiles with
      | .ok (s, _) => decide (s = tiles)
      | .error _ => false) = true := by decide +kernel

theorem witness_MatrixEffectsStayInTheirTiles :
    (∀ i ∈ [0, 127], i < 128) ∧ (∀ r n, MatrixWord.mmz true ≠ .mdrain n r) ∧
    (∀ a ∈ [Access.mk 127 0#64 (.glob 0) 0#64 2048#64], a.lane < 128 ∧ a.data.toNat + a.data2.toNat ≤ 2048) ∧
    3 ∉ pairTiles mdReset 0 := by
  refine ⟨by decide, nofun, by decide, by decide +kernel⟩

/-! ## Transactions, system words, operations as they complete -/

/-- The example of R137: of lanes 0 to 3, lane 0 writes sector 1, lane 1 reads it, lane 2 writes sector 2, lane 3 reads it; lane 4 is
doomed. -/
def example137 : Tx :=
  let w (n : Nat) : LaneTx := { LaneTx.empty with wrSec := [n] }
  let r (n : Nat) : LaneTx := { LaneTx.empty with rdSec := [n] }
  { dev := true, lanes := 31#1024, tx := [(0, w 1), (1, r 1), (2, w 2), (3, r 2), (4, { LaneTx.empty with doom := some (4, 9) })]
    ticket := none, winners := [], intra := [], validated := [] }

/-- A team at a `txe` of lane 0, which has read the byte `v` at 0x500. -/
def atTxe (dev : Bool) (v : Byte) (done : List (Nat × Bool)) : State :=
  let l : LaneTx := { LaneTx.empty with rd := [(0x500, v)], rdSec := [0x28] }
  let x : Tx := { dev := dev, lanes := 1#1024, tx := [(0, l)], ticket := none, winners := [0], intra := [], validated := done }
  inTeam one (fun t => { t with tx := some x, hold := .txe 1 3 0 })

/-- A team at a `txe` whose lane 0 has a fault; and one whose lane 0 writes a byte, with no version pool. -/
def faulty (v : Byte) : State :=
  let l : LaneTx := { LaneTx.empty with rd := [(0x500, v)], rdSec := [0x28], fault := some (0x10000#64, trapOf 21 0x600#64 0) }
  let x : Tx := { dev := true, lanes := 1#1024, tx := [(0, l)], ticket := none, winners := [], intra := [], validated := [] }
  inTeam one (fun t => { t with tx := some x, hold := .txe 1 3 0 })
def brimful (v : Byte) : State :=
  let l : LaneTx := { LaneTx.empty with wr := [(0x500, v)], wrSec := [0x28] }
  let x : Tx := { dev := true, lanes := 1#1024, tx := [(0, l)], ticket := none, winners := [0], intra := [], validated := [(0, true)] }
  (inTeam one (fun t => { t with tx := some x, hold := .txe 1 3 0 })).setReg rVPSIZE 0#64

/-- A condition on the team's transaction. -/
def txSat (s : State) (q : Tx → Bool) : Bool :=
  teamSat s (.team 0 0) (fun t => match t.tx with
    | some x => q x
    | none => false)

theorem witness_TransactionsResolveValidateAndEnd :
    example137.resolve [0, 1, 2, 3, 4] ([], []) = ([0, 2], [1, 3]) ∧
    quiet (atTxe true 0#8 []) 0 = true ∧ (atTxe true 0#8 []).acting (.team 0 0) = true ∧
    teamSat (atTxe true 0#8 []) (.team 0 0) (fun t => !t.memBusy) = true ∧
    txSat (atTxe true 0#8 []) (fun x => (atTxe true 0#8 []).readsHold (.team 0 0) true (x.lane 0) &&
      !(atTxe true 0#8 []).meetsPin (.team 0 0) true (x.lane 0) && decide (AMap.find x.validated 0 = none ∧ 0 ∈ x.winners)) = true ∧
    txSat (atTxe true 1#8 []) (fun x => !(atTxe true 1#8 []).readsHold (.team 0 0) true (x.lane 0)) = true ∧
    [true, false].all (fun dev => let s := atTxe dev 0#8 [(0, true)]
      txSat s (fun x => s.passesCheck (.team 0 0) x 0 && !s.txBlocked (.team 0 0) (Tx.recheck s (.team 0 0) x) &&
        (s.commitLanes (.team 0 0) (Tx.recheck s (.team 0 0) x) (Tx.recheck s (.team 0 0) x).wins).isSome &&
        decide ((x.lane 0).fault = none ∧ x.lanes ≠ 0#1024 ∧ AMap.find x.validated 0 = some true ∧ x.allLanes = [0]))) = true ∧
    -- a lane with a fault whose reads hold; two winners; a store that finds no room in the version pool
    txSat (faulty 0#8) (fun x => (faulty 0#8).readsHold (.team 0 0) true (x.lane 0) && ((x.lane 0).fault).isSome &&
      decide (x.winners = [] ∧ x.allLanes = [0])) = true ∧
    (let x : Tx := { dev := true, lanes := 3#1024, tx := [], ticket := none, winners := [0, 1], intra := [], validated := [(0, true), (1, true)] }
     one.commitLane (.team 0 0) true (x.lane 0) = some one ∧ AMap.find (Tx.recheck one (.team 0 0) x).validated 1 = some true) ∧
    txSat (brimful 7#8) (fun x => decide ((brimful 7#8).commitLanes (.team 0 0) (Tx.recheck (brimful 7#8) (.team 0 0) x)
      (Tx.recheck (brimful 7#8) (.team 0 0) x).wins = none)) = true ∧
    teamSat (atTxe false 0#8 [(0, true)]) (.team 0 0) (fun t => match t.tx with
      | some x => (match seqAct 0 none false (t.newChunk.closeTx x 1 3) with
        | .ok u => !u.ended
        | .error _ => false)
      | none => false) = true ∧
    (let s := inTeam one (fun t => { t with hold := .ticket true 5 })
     decide ({ s with ticketQ := [.team 0 0] }.ticket = none) && teamSat s (.team 0 0) (fun t => decide (t.freeze = .no ∧ t.brk = false ∧ t.ended = false)))
      = true ∧
    taskSat (one.modTask 0 (fun k => { k with ticketQ := [0] })) (fun k => decide (k.ticket = none ∧ k.ticketQ = [0])) = true := by
  decide +kernel

theorem witness_TrapsOnPurpose :
    ready one (.team 0 0) (.trap hd 7#8) = true ∧ teamSat one (.team 0 0) (fun t => decide (t.lanes.head? = some 0)) = true ∧
    (let s := inTeam one (fun t => { t with md := t.md ||| 8#32, p := [(0, 0#1024)], mask := 0#1024 })
     ready s (.team 0 0) (.trap hd 7#8) && teamSat s (.team 0 0) (fun t => t.lanes.isEmpty)) = true ∧
    [(one, Party.team 0 0), (withLead, .lead 0 0), (withPrologue, .prologue 0), (withSteward, .steward 0)].all (fun e =>
      decide (e.1.cur = some e.2) && (match e.1.team? e.2 with
        | some t => e.1.canIssue e.2 t
        | none => false)) = true := by decide +kernel

theorem witness_ServicesMarksAndCounters :
    ready one (.team 0 0) (.sysReq hd 7#8 2#5) = true ∧ ready withSteward (.steward 0) (.sysReq hd 7#8 2#5) = true ∧
    ready withPrologue (.prologue 0) (.sysReq hd 7#8 2#5) = true ∧ quiet withPrologue 0 = true ∧ quiet one 0 = true ∧
    ready one (.team 0 0) (.rdclk hd 98#7) = true ∧ ready one (.team 0 0) (.rdtime hd 2#7) = true ∧
    (span 0 8).all (fun n => ready one (.team 0 0) (.pcnt hd 98#7 (BitVec.ofNat 7 n))) = true ∧
    ready one (.team 0 0) (.mark hd 5#14) = true ∧
    (let s := one.modCtx 0 (fun k => { k with level := { k.level with recording := true } })
     s.recording 0 && !s.replaying 0 && decide (s.logField (.team 0 0) ≠ 0xFFFF) && ready s (.team 0 0) (.mark hd 5#14)) = true := by
  decide +kernel

/-- The steward with a word in k1. -/
def stewardWith (v : Word) : State := withSteward.modSteward 0 (fun x => { x with team := x.team.setK 1 v })

/-- Beside it a team on core 0, partition 0, slot 0, whose context may be debugged. -/
def stepping (f : Freeze) : State :=
  let s := (inTeam one (fun t => { t with freeze := f })).setCreg 0 oDBGCTL 1
  { s with stewards := (stewardWith 0#32).stewards, cur := some (.steward 0) }

theorem witness_SystemWordsReachTheirUnits :
    (span 0 7).all (fun n => ready withPrologue (.prologue 0) (.csrr hd 1#5 (BitVec.ofNat 7 n))) = true ∧
    (span 0x40 5).all (fun n => ready withSteward (.steward 0) (.csrr hd 1#5 (BitVec.ofNat 7 n))) = true ∧
    ready withPrologue (.prologue 0) (.csrw hd 1#5 3#7) = true ∧ csrAccepts 3 0#32 = true ∧ csrAccepts 3 4#32 = false ∧
    (let s := withPrologue.modCtx 0 (fun k => { k with prologue := k.prologue.map (fun q => { q with team := q.team.setK 1 4#32 }) })
     ready s (.prologue 0) (.csrw hd 1#5 3#7) && (match s.team? (.prologue 0) with
       | some t => decide (t.kreg 1 = 4#32)
       | none => false)) = true ∧
    ready withSteward (.steward 0) (.probe hd 2#5 1#5) = true ∧
    ready (stewardWith 0x8000#32) (.steward 0) (.dstep hd 2#5 1#5) = true ∧ withSteward.stepTarget 0x8000 = none ∧
    ready (stepping .no) (.steward 0) (.dstep hd 2#5 1#5) = true ∧ ready (stepping .frozen) (.steward 0) (.dstep hd 2#5 1#5) = true ∧
    (match (stepping .no).stepTarget 0 with
     | some (_, _, _, u) => decide (u.freeze ≠ .frozen)
     | none => false) = true ∧
    ((stepping .frozen).beginStep 0).2 = (none, 0, 0) ∧
    ready withSteward (.steward 0) (.halt hd) = true ∧ ready withPrologue (.prologue 0) (.halt hd) = true ∧
    (withPrologue.ctx 0).prologue.isSome = true := by decide +kernel

/-- A memory operation of one lane at 0x500, outstanding in the team. -/
def oneOp (kind : MemKind) (bytes dest op scope : Nat) (loc : Loc) (reqs : List AtomicReq) : MemOp :=
  { kind := kind, bytes := bytes, signed := false, dest := dest, accs := [⟨3, 0x500#64, loc, 7#64, 0#64⟩], acq := false, rel := false
    scope := scope, op := op, reqs := reqs, held := some [] }
def pendOf (m : MemOp) : Pend := { id := 0, cls := .st, done := false, pc := 0#64, md := mdReset, point := 1, kind := .mem m }
def pending (m : MemOp) : State := inTeam one (fun t => { t with nextId := 1, pend := [pendOf m] })

/-- The operation may be performed. -/
def performs (m : MemOp) : Bool :=
  let s := pending m
  teamSat s (.team 0 0) (fun t => decide (t.pend? 0 = some (pendOf m) ∧ t.hold = .none ∧ t.freeze = .no) && mayPerform m t.pend 0 &&
    s.ordered (.team 0 0) t (some 0) && s.acting (.team 0 0) && m.accs.all (fun a => !s.locHeld (some (.team 0 0)) a.loc m.bytes))

/-- An operation of two lanes. -/
def twoOp (kind : MemKind) : MemOp :=
  { oneOp kind 4 8 0 0 (.glob 0x500) [] with
    accs := [⟨3, 0x500#64, .glob 0x500, 7#64, 0#64⟩, ⟨4, 0x504#64, .glob 0x504, 8#64, 0#64⟩] }

/-- An uncorrectable error at 0x502. -/
def spoilt : State := { one with flaws := [{ site := .mem 0x502 none, fatal := true }] }

theorem witness_LoadsWriteWhatTheTaskSees :
    [Loc.glob 0x500, .spd 0 0x80].all (fun l => [1, 2, 4, 8].all (fun n => [8, 104].all (fun d =>
      performs (oneOp .load n d 0 0 l []) && !l.busy (pending (oneOp .load n d 0 0 l [])) n))) = true ∧
    -- one lane's access alone, and an error in its bytes
    (let s := { pending (twoOp .load) with only := some 3 }
     decide (s.chosen (twoOp .load) = [⟨3, 0x500#64, .glob 0x500, 7#64, 0#64⟩] ∧ (twoOp .load).accs.Nodup) && performs (twoOp .load)) = true ∧
    (spoilt.readFlaws (.team 0 0) 4 (oneOp .load 4 8 0 0 (.glob 0x500) []).accs).2 =
      some ⟨3, 0x500#64, .glob 0x500, 7#64, 0#64⟩ ∧
    (one.readFlaws (.team 0 0) 4 (oneOp .load 4 8 0 0 (.glob 0x500) []).accs).2 = none ∧
    (let m := oneOp .atomic 4 8 0 5 (.glob 0x500) [{ group := 0, accs := [⟨3, 0x500#64, .glob 0x500, 7#64, 0#64⟩], commits := false, done := true }]
     performs m && m.reqs.all (fun r => r.done) && decide (m.held = some [])) = true := by decide +kernel

theorem witness_StoresStayInTheirVersion :
    (one.storeLoc (some 0) (.glob 0x500) [1#8, 2#8]).isSome = true ∧ (one.storeLoc (some 0) (.spd 0 8) [1#8, 2#8]).isSome = true ∧
    [Loc.glob 0x500, .spd 0 0x80].all (fun l => performs (oneOp .store 4 8 0 0 l []) &&
      (storeAll (.team 0 0) (oneOp .store 4 8 0 0 l []) false (oneOp .store 4 8 0 0 l []).accs (pending (oneOp .store 4 8 0 0 l []))).isSome)
      = true ∧
    performs (oneOp .mred 4 8 13 5 (.glob 0x500) []) = true ∧
    (let s := { pending (twoOp .store) with only := some 4 }
     let b : Access := ⟨4, 0x504#64, .glob 0x504, 8#64, 0#64⟩
     decide (s.chosen (twoOp .store) = [b]) && performs (twoOp .store) && !s.textBars (.team 0 0) 4 (twoOp .store).accs &&
       (storeAll (.team 0 0) (twoOp .store) false [b] s).isSome) = true ∧
    -- the scratchpad of a cohort that has been swapped out
    taskSat (one.modTask 0 (fun k => { k with resident := false })) (fun k => k.scratchAway && decide (8 + 2 ≤ k.scratchSize)) = true ∧
    ((one.modTask 0 (fun k => { k with resident := false })).storeLoc (some 0) (.spd 0 8) [1#8, 2#8]).isSome = true ∧
    (let s := (pending (oneOp .store 4 8 0 0 (.glob 0x500) [])).setReg rVPSIZE 0#64
     decide (storeAll (.team 0 0) (oneOp .store 4 8 0 0 (.glob 0x500) []) false (oneOp .store 4 8 0 0 (.glob 0x500) []).accs s = none)) = true := by
  decide +kernel

/-- A word's result, whatever it is, has room in the version. -/
theorem witness_room (w : List Byte) :
    (one.poolRoom 0 ([] ++ [.update { pa := 0x500, bytes := 4, op := 0, x := 7#64, y := 0#64 } w])) = true := by
  have e : versionLines ([] ++ [.update { pa := 0x500, bytes := 4, op := 0, x := 7#64, y := 0#64 } w]) =
      versionLines [.update { pa := 0x500, bytes := 4, op := 0, x := 7#64, y := 0#64 } []] := rfl
  have h : one.poolRoom 0 [.update { pa := 0x500, bytes := 4, op := 0, x := 7#64, y := 0#64 } []] = true := by decide +kernel
  unfold State.poolRoom at h ⊢
  rw [e]
  exact h

theorem witness_AtomicRequestsActOnTheirWord :
    [(Loc.glob 0x500, true), (.glob 0x500, false), (.spd 0 0x80, false)].all (fun e =>
      let l := e.1
      let c := e.2
      let m := oneOp .atomic 4 8 0 5 l [{ group := 0, accs := [⟨3, 0x500#64, l, 7#64, 0#64⟩], commits := c, done := false }]
      let s := pending m
      performs m && decide (m.reqs[0]? = some { group := 0, accs := m.accs, commits := c, done := false }) && quiet s 0 && decide (s.sigs = [] ∧ s.replicas = [] ∧ s.flaws = [] ∧ 0 ∉ s.asked) &&
        !s.redirects (.team 0 0) m && !s.commitBlocked 0 && !s.textHeld 0x500 4 && teamSat s (.team 0 0) (fun t => earlierDone t.pend 0) &&
        taskSat s (fun k => !k.scratchAway && decide (k.version = []))) = true := by decide +kernel

theorem witness_CommitsPublishTheVersion :
    (let s := inTeam one (fun t => { t with hold := .commit .plain })
     teamSat s (.team 0 0) (fun t => s.commitReady (.team 0 0) t && decide (t.freeze = .no ∧ t.ended = false ∧ t.brk = false)) && quiet s 0 &&
       taskSat s (fun k => k.messages.isEmpty) && decide (s.replicas = [] ∧ s.sigs = [])) = true ∧
    (let s := withSteward.modSteward 0 (fun x => { x with team := { x.team with hold := .commit .plain } })
     match s.team? (.steward 0) with
     | some t => s.commitReady (.steward 0) t && decide (partyTask (.steward 0) = none)
     | none => false) = true := by decide +kernel

theorem witness_WaitsLinesWalksAndSlots :
    (let s := inTeam one (fun t => { t with hold := .park 0 false 8#64 0#32 })
     s.acting (.team 0 0) && !s.faultOf (.team 0 0) && !s.isAway (.team 0 0) && decide (s.parkWord (.team 0 0) 0 8#64 = (s, .ok (.at (.glob 8)))) &&
       decide (s.parkFlaws (.team 0 0) 8#64 (.at (.glob 8)) = (s, none)) && !Loc.busy (.glob 8) s 4 &&
       decide ((s.watchPark (.team 0 0) 0x10000#64 8#64 (.at (.glob 8))).parkValue (.team 0 0) (.at (.glob 8)) = 0#32) &&
       (({ s with flaws := [{ site := .mem 9 none, fatal := true }] } : State).parkFlaws (.team 0 0) 8#64 (.at (.glob 8))).2.isSome) = true ∧
    teamSat (inTeam one (fun t => { t with yld := .onTurn true })) (.team 0 0) (fun t => decide (t.yld ≠ .none) && t.yieldOver) = true ∧
    (match (withPrologue.modCtx 0 (fun k => { k with prologue := k.prologue.map (fun q =>
        { q with team := { q.team with hold := .halt }, woken := true }) })).ctx 0 |>.prologue with
     | some q => decide (q.team.hold = .halt ∧ q.woken = true)
     | none => false) = true ∧
    teamSat (inTeam one (fun t => { t with evicted := [32] })) (.team 0 0) (fun t => decide (32 ∈ t.evicted ∧ 32 < 96 * 32)) = true ∧
    taskSat one (fun k => k.resident) = true ∧ (one.partLines 0 0).length < 512 ∧ one.walkers.idxOf (.team 0 0) < 64 ∧
    one.nextVictim 0 0 (fun _ => false) = some (0, 0, 0) ∧
    teamSat one (.team 0 0) (fun t => decide (t.released = false ∧ 32 ∈ t.lines ∧ 32 ∉ t.evicted) && t.mayEvict 32) = true ∧
    (withPrologue.walk 0 0x10000 .load).isSome = true ∧ one.walk 0 0x10000 .load = none ∧
    teamSat (inTeam one (fun t => { t with ended := true })) (.team 0 0) (fun t => decide (t.ended = true ∧ t.hold = .none ∧
      t.released = false ∧ t.pend = [] ∧ t.freeze = .no)) = true := by decide +kernel

/-- A recorded context whose team has retired 65,536 instructions, and a steward whose step has lasted 10 µs. -/
def recorded : State :=
  (inTeam one (fun t => { t with retired := 65536 })).modCtx 0 (fun k => { k with level := { k.level with recording := true } })
def stepTimed : State :=
  let s := withSteward.modSteward 0 (fun x => { x with team := { x.team with hold := .step 0 0 2 0 } })
  { s with time := 1000 }

theorem witness_ChunksEndAndStepsTimeOut :
    recorded.recording 0 = true ∧ recorded.logField (.team 0 0) ≠ 0xFFFF ∧ one.recording 0 = false ∧
    teamSat recorded (.team 0 0) (fun t => !t.released && Nat.ble 65536 (t.retired - t.chunk.begun) && !t.early 0 [2#8] t.boundary &&
      !t.early 0 [3#8] t.boundary) = true ∧
    (stepTimed.steward 0).team.hold = .step 0 0 2 0 ∧ 1000 ≤ stepTimed.time ∧ stepTimed.team? (.team 0 0) = none := by decide +kernel

/-! ## Units as they act -/

/-- The state after an instruction or event that answers a next state. -/
def afterI (i : Instr) (s : State) : State :=
  match exec i s with
  | .next s' => s'
  | _ => s

/-- The team waits in `obres` and in `mres`, behind nothing. -/
def waitsOb : State :=
  (inTeam one (fun t => { t with hold := .obres 2 4 })).modCore 0 (fun c => { c with obQ := [{ task := 0, ord := 0, n := 2, len := 4 }] })
def waitsTile : State :=
  (inTeam one (fun t => { t with hold := .tile 0 })).modCore 0 (fun c => { c with tileQ := [(0, [(0, 0)])] })

/-- The team and context of core 0 are as the unit events ask: neither frozen nor ended. -/
def plain (s : State) : Bool := teamSat s (.team 0 0) (fun t => decide (t.freeze = .no ∧ t.ended = false ∧ t.brk = false))

theorem witness_RecordsTilesAndArraysServeInOrder :
    (waitsOb.core 0).obQ = [{ task := 0, ord := 0, n := 2, len := 4 }] ∧ plain waitsOb = true ∧
    teamSat waitsOb (.team 0 0) (fun t => decide (t.hold = .obres 2 4)) = true ∧ ((waitsOb.core 0).obRec 2).held = none ∧
    (waitsOb.core 0).freeRun 4 = some 0 ∧
    (let s := waitsOb.modCore 0 (fun c => c.setObRec 3 { held := some 9, length := 125, base := 0, word1 := 0#32, word2 := 0#32 })
     decide ((s.core 0).freeRun 4 = none)) = true ∧
    AMap.get [] (waitsTile.core 0).tileQ 0 = [(0, 0)] ∧ plain waitsTile = true ∧ AMap.find (waitsTile.core 0).holder 0 = none ∧
    waitsTile.tileBusy 0 0 = false ∧ teamSat waitsTile (.team 0 0) (fun t => decide (t.hold = .tile 0)) = true ∧
    -- the record of the head is held, that of the next is free
    (let s := waitsOb.modCore 0 (fun c => { c.setObRec 2 { held := some 9, length := 1, base := 0, word1 := 0#32, word2 := 0#32 } with
        obQ := c.obQ ++ [{ task := 0, ord := 1, n := 3, len := 4 }] })
     decide (((s.core 0).obRec 2).held ≠ none ∧ (s.core 0).freeRun 4 = some 1 ∧ ((s.core 0).obRec 3).held = none)) = true ∧
    (let s := one.modCore 0 (fun c => { c with arrays := [(0, [{ task := 0, ord := 0, op := 3 }])] })
     decide (AMap.get [] (s.core 0).arrays 0 = [{ task := 0, ord := 0, op := 3 }]) && (s.team? (.team 0 0)).isSome) = true := by decide +kernel

/-- A matrix word that its array has taken. -/
def taken (md : Word) (w : MatrixWord) (f : Core → Core) : State :=
  let p : Pend := { id := 0, cls := .tl, done := false, pc := 0#64, md := md, point := 1, kind := .matrix w 0 0xF#1024 true 0 }
  (inTeam (tiles.modCore 0 f) (fun t => { t with nextId := 1, pend := [p] }))

/-- It may complete. -/
def mayComplete (md : Word) (w : MatrixWord) (f : Core → Core) : Bool :=
  let s := taken md w f
  s.acting (.team 0 0) && teamSat s (.team 0 0) (fun t => tilesFirst (w.tiles md 0) 0 t.pend && decide (t.hold = .none ∧ t.freeze = .no) &&
    (t.pend? 0).isSome && s.ordered (.team 0 0) t (some 0)) &&
  taskSat s (fun k => !s.obWritesPending 0 k 0 ((s.core 0).obReads w (rowList 0xF#1024)))

/-- Two rows' worth of places. -/
def rowAt (a : Nat) : Access := ⟨0, BitVec.ofNat 64 a, .glob a, 0#64, 512#64⟩

theorem witness_MatrixWordsCompleteInOrder :
    [MatrixWord.mmz true, .mld [rowAt 0x800], .smx 0#32, .sexp 0#32, .srsc 1, .mdrain 0 (.reg 8 0), .mdrain 0 (.mem false [rowAt 0x800])].all
      (fun w => mayComplete mdReset w id) = true ∧
    -- nothing spoils what the words read; an error in a tile spoils a multiply
    [MatrixWord.smx 0#32, .mld [rowAt 0x800]].all (fun w =>
      decide (matrixFlaws (taken mdReset w id) (.team 0 0) 0 w mdReset 0 [0, 1] = (taken mdReset w id, none))) = true ∧
    (matrixFlaws { tiles with flaws := [{ site := .mem 0x800 none, fatal := true }] } (.team 0 0) 0 (.mld [rowAt 0x800]) mdReset 0 [0, 1]).2.isSome
      = true ∧
    [MatrixWord.mma 2 2, .mmaTile 1 0 2].all (fun w => mayComplete mdReset w (fun c =>
      c.setObRec 2 { held := some 0, length := 4, base := 0, word1 := 7#32, word2 := 0#32 })) = true := by
  decide +kernel

/-- Drains: one whose places are free, and redundant ones whose tiles agree and differ. -/
theorem witness_MatrixWordsCompleteInOrder_drains :
    (taken mdReset (.mdrain 0 (.mem false [rowAt 0x800])) id).locHeld (some (.team 0 0)) (.glob 0x800) 512 = false ∧
    (drainParts (tiles.core 0) (.team 0 0) 0#64 mdReset 0 0 false [rowAt 0x800] tiles).isSome = true ∧
    mayComplete 0x12000060#32 (.mdrain 0 (.reg 8 0)) id = true ∧ (tiles.core 0).mismatch 0 (rowList 0xF#1024) = none ∧
    mayComplete 0x12000060#32 (.mdrain 0 (.reg 8 0)) (fun c => c.setEntry 0 3 5 (1, 0)) = true ∧
    ((taken 0x12000060#32 (.mdrain 0 (.reg 8 0)) (fun c => c.setEntry 0 3 5 (1, 0))).core 0).mismatch 0 (rowList 0xF#1024) = some 3 := by
  decide +kernel

/-- The state with page tables of one user leaf of 1 GiB, at 0, for context 0. -/
def paged (s : State) : State := { s.setCreg 0 oCSATP (10 * 2 ^ 60 + 0x20) with
  mem := writeNat (writeNat (writeNat s.mem 0x20000 8 (0x21 * 2 ^ 10 + 1)) 0x21000 8 (0x22 * 2 ^ 10 + 1)) 0x22000 8 0xDF }

/-- The copy and the chain of `pointing`, queued; with another source address. -/
def copyFrom (src : Nat) : State := afterI (.tcopy hd 100#7 0#1) (paged (pointing (toBytes 8 src ++ copyDesc.drop 8)))
def chainOf : State := afterI (.chain hd 100#7 0#1) (paged (pointing (chainDesc 8)))

/-- The operation at the head of an engine. -/
def headSat (s : State) (eng : Nat) (q : EngOp → Bool) : Bool :=
  match AMap.get [] (s.core 0).engines eng with
  | o :: _ => q o
  | [] => false

/-- What stops the next element. -/
def stopOf (x : State × Except EngStop EngOp) : Option EngStop :=
  match x.2 with
  | .error e => some e
  | .ok _ => none

/-- The collective of one participant, and of a group whose other member is another device's. -/
def collOf (members : List (Nat × Nat)) : State :=
  let s := (paged (pointing collDesc)).modCtx 0 (fun k => { k with groups := [(3, { members := members, opening := none })] })
  afterI (.coll hd 100#7 0#1) s

theorem witness_EnginesProcessAndComplete :
    headSat (copyFrom 0x1000) 0 (fun o => (copyFrom 0x1000).engReady 0 o && decide (o.pos < o.total 0 ∧ o.total 0 = 4 ∧ o.fault = none) &&
      decide (stopOf (copyStep (copyFrom 0x1000) 0 o) = none)) = true ∧
    headSat (copyFrom 0x1000000000000) 0 (fun o => (copyFrom 0x1000000000000).engReady 0 o &&
      decide (stopOf (copyStep (copyFrom 0x1000000000000) 0 o) = some (.page 0x1000000000000#64 false))) = true ∧
    (let s := afterI (.tcopy hd 100#7 0#1) (pointing (copyDesc.take 0x13 ++ [1#8] ++ copyDesc.drop 0x14))
     headSat s 0 (fun o => (parseCopy o.desc).srcSpd && s.engReady 0 o && decide (stopOf (copyStep s 0 o) = some (.fail 21 0x1000#64)))) = true ∧
    headSat chainOf 2 (fun o => chainOf.engReady 0 o && decide (o.total 2 = 8 ∧ o.pos < 8) && decide (stopOf (chainStep chainOf 0 o) = none)) = true ∧
    -- all four elements done
    (let s := afterI (.engineOperationRun 0 0 4) (copyFrom 0x1000)
     headSat s 0 (fun o => decide (o.total 0 ≤ o.pos ∧ o.fault = none) && s.engReady 0 o && s.acting o.party && s.outFree o &&
       (storeRuns o.task 0 (runsOf (o.lands 0)) s).isSome && decide (o.beside = []) && teamSat s o.party (fun t => decide (t.hold = .none))) &&
       decide (AMap.get [] (s.core 0).engines 1 = [] ∧ AMap.get [] (s.core 0).engines 2 = [])) = true ∧
    -- collectives
    (let s := collOf [(0xFFFF, 0)]
     (match s.collOp 0 3 with
      | some (core, o) => s.engReady core o && decide (collShape o.desc = (8, 6, 0))
      | none => false) && decide ((s.reg rMDEVNO).toNat % 2 ^ 16 = 0xFFFF ∧ (s.ctx 0).level.level = 0) &&
     (match gatherSources 0xFFFF 3 [(0xFFFF, 0)] [] s with
      | (s1, .ok srcs) => (match scatterResults (fun md => collResult md 6 0 8 false srcs) ((s.collOp 0 3).toList) [] s1 with
        | .next _ => decide ((s1.ctx 0).level = (s.ctx 0).level)
        | _ => false)
      | _ => false)) = true ∧
    (let s := collOf [(0xFFFF, 0), (7, 0)]
     (match s.collOp 0 3 with
      | some (core, o) => s.engReady core o && decide (collShape o.desc ≠ collShape (block 64 [(0x10, 4, 9)]))
      | none => false)) = true := by decide +kernel

/-! ## The front end and the distributor -/

/-- A packet's 64 bytes: its kind, `.dev` as the completion's scope, and its fields. -/
def pkt (kind : Nat) (fs : List (Nat × Nat × Nat)) : List Byte := block 64 ((0x3C, 4, kind * 2 ^ 28 + 5) :: fs)
def copyPkt : List Byte := pkt 3 [(0, 8, 0x1000), (8, 8, 0x2000), (0x10, 8, 1)]
def prologuePkt : List Byte := block 64 [(0, 8, 0x10000), (0x3C, 4, 6 * 2 ^ 28)]

/-- The context has a pool of 8 MiB at 1 GiB. -/
def pooled (s : State) : State := (s.setCreg 0 oCPOOLB 0x40000000).setCreg 0 oCPOOLS 4

/-- One packet taken from queue 0 and to be accepted, in a context with page tables. -/
def taking (bs : List Byte) : State :=
  (pooled (paged (pointing recordBytesOf))).modCtx 0 (fun k => { k with incoming := [{ queue := 0, addr := 0x3000#64, num := 0, body := some bs }] })

/-- The context's submissions, with queue 0 enabled or not. -/
def submitted (ctl n : Nat) : State :=
  (State.reset.setCreg 0 (oQCTL 0) ctl).modCtx 0 (fun k => { k with subs := List.replicate n (1, 0, 3) })

theorem rangesHeld_of_no_packets {s : State} {c : Nat} (h : ∀ e ∈ s.ctxs, e.2.packets = []) : s.rangesHeld c = 0 := by
  unfold State.rangesHeld
  have : ∀ e ∈ s.ctxs.filter (fun e => Config.frontEnd e.1 % 2 = Config.frontEnd c % 2),
      ((e.2.packets.filter (fun q => !s.packetOver e.1 q.2)).map (fun q => q.2.ranges.length)).sum = 0 := by
    intro e he
    rw [h e (List.mem_of_mem_filter he)]; rfl
  rw [List.map_congr_left (g := fun _ => 0) (fun e he => this e he)]
  simp

theorem witness_PacketsAreAcceptedInTheirTurn :
    ((submitted 0x46 0).ctx 0).subs.length < 256 ∧ 3 < 2 ^ ((submitted 0x46 0).creg 0 (oQCTL 0) % 2 ^ 5) ∧
    256 ≤ ((submitted 0x46 256).ctx 0).subs.length ∧
    (submitted 0x46 1).creg 0 (oQCTL 0) / 2 ^ 6 % 2 = 1 ∧ (submitted 6 1).creg 0 (oQCTL 0) / 2 ^ 6 % 2 = 0 ∧
    ((submitted 0x46 1).ctx 0).subs = [(1, 0, 3)] ∧
    [copyPkt, pkt 4 [], pkt 5 [], recordBytesOf.take 64, prologuePkt, pkt 9 []].all (fun bs =>
      decide (nextIncoming (taking bs) 0 ((taking bs).ctx 0).incoming [] = some { queue := 0, addr := 0x3000#64, num := 0, body := some bs }) &&
      decide (bs.length = 64 ∧ ((taking bs).ctx 0).skip = [] ∧ AMap.get [] ((taking bs).ctx 0).partials 0 = [] ∧
        AMap.find ((taking bs).ctx 0).packets 0 = none) && (taking bs).ctxs.all (fun e => e.2.packets.isEmpty)) = true ∧
    [(copyPkt, 3), (pkt 4 [], 4), (pkt 5 [], 5)].all (fun e => decide (packetKind e.1 = e.2) && (simpleRanges e.1).isSome) = true ∧
    packetKind (recordBytesOf.take 64) = 0 ∧ packetKind prologuePkt = 6 ∧ prologueOk prologuePkt = true ∧ 7 ≤ packetKind (pkt 9 []) ∧
    (let r := parseRecord (recordBytesOf.take 64)
     r.ok && (match (taking (recordBytesOf.take 64)).feGet 0 4 0 r.table.toNat (tableSize r.roleCount) with
       | (s, .ok table) => tableOk r table && s.couldPlace 0 r (rolesOf r table)
       | _ => false)) = true := by decide +kernel

/-- An accepted packet of a context with page tables. -/
def accepted (kind : Nat) (stage : PacketStage) (bs : List Byte) (prologue : Option (List Byte)) : Packet :=
  { kind := kind, queue := 0, addr := 0x3000#64, body := bs, ranges := [], prologue := prologue, md := mdReset
    roles := placeGrid.roles, stage := stage, copied := 0 }
def holdingPacket (x : Packet) : State := (pooled (paged (pointing recordBytesOf))).modCtx 0 (fun k => { k with packets := [(1, x)] })

theorem witness_PacketsRunAndComplete :
    [accepted 3 .accepted copyPkt none, accepted 0 .accepted (recordBytesOf.take 64) (some prologuePkt),
      accepted 0 .accepted (recordBytesOf.take 64) none, accepted 5 .accepted (pkt 5 []) none, accepted 4 .accepted (pkt 4 []) none].all (fun x =>
      let s := holdingPacket x
      decide (AMap.find (s.ctx 0).packets 1 = some x) && s.mayStart 0 && !s.packetBlocked 0 1 x && s.allBefore 0 1 &&
        (x.kind = 0 || decide (bytesAt x.body 0x18 8 = 0))) = true ∧
    -- a copy of one byte, and of two
    [1, 2].all (fun n =>
      let x := accepted 3 .started (pkt 3 [(0, 8, 0x1000), (8, 8, 0x2000), (0x10, 8, n)]) none
      let s := holdingPacket x
      (match s.feGet 0 2 1 0x1000 1 with
       | (s1, .ok b) => (match s1.fePut 0 2 1 0x2000 b with
         | (s2, .ok true) => decide (AMap.find (s2.ctx 0).packets 1 = some x)
         | _ => false)
       | _ => false) && !(s.ctx 0).snapPaused) = true ∧
    -- a level packet before it blocks
    (let x := accepted 3 .accepted copyPkt none
     let s := (holdingPacket x).modCtx 0 (fun k => { k with packets := [(0, accepted 4 .accepted (pkt 4 []) none), (1, x)] })
     s.packetBlocked 0 1 x && s.mayStart 0) = true ∧
    ((holdingPacket (accepted 4 .accepted (pkt 4 []) none)).modGrid 0 (fun g => { g with complete := true })).grids.all (fun e => e.2.complete) = true ∧
    ((submitted 0 0).ctx 0).level.recording = false := by decide +kernel

/-- A launch packet whose prologue is to start, or has run. -/
def launchWith (stage : PacketStage) (q : Option Prologue) : State :=
  (holdingPacket (accepted 0 stage (recordBytesOf.take 64) (some prologuePkt))).modCtx 0 (fun k => { k with prologue := q })
def ran (runs : Nat) : Prologue :=
  let t := { placePrologue.team with ended := true }
  let c := { placePrologue.csr with lruns := BitVec.ofNat 32 runs }
  { placePrologue with team := t, packet := 1, csr := c }

theorem witness_ProloguesRunAndEnd :
    ((launchWith .started none).ctx 0).prologue = none ∧ (launchWith .started none).mayStart 0 = true ∧
    ((launchWith .inPrologue (some (ran 0))).ctx 0).prologue = some (ran 0) ∧
    ((launchWith .inPrologue (some (ran 2))).ctx 0).prologue = some (ran 2) ∧
    ((ran 2).packet = 1 ∧ (ran 2).team.ended = true ∧ (ran 2).team.hold = .none ∧ (ran 2).team.pend = [] ∧
      (ran 2).csr.lruns.toNat % 2 ^ 16 = 2 ∧ (ran 0).csr.lruns.toNat % 2 ^ 16 = 0) ∧
    (let r := (parseRecord (recordBytesOf.take 64)).with (ran 2).csr
     r.ok && (launchWith .started none).couldPlace 0 r placeGrid.roles) = true ∧
    (let s := { launchWith .inPrologue (some (ran 1)) with time := 400 }
     decide (4096 * 100 < (s.time - (ran 1).since - 0) * s.power.uncore)) = true := by decide +kernel

/-- The grid of `one`, changed. -/
def gridOf (f : Grid → Grid) : State := (paged one).modGrid 0 f

theorem witness_GridsStartSettleAndComplete :
    [0, 1].all (fun n =>
      let s := gridOf (fun x => { x with started := false, runs := n })
      (match s.grid? 0 with
       | some x => decide (x.started = false ∧ x.complete = false ∧ x.runs = n ∧ 0 < x.record.cohorts ∧ s.kernels = [])
       | none => false) &&
      (match s.feGet 0 7 0 0 0 with
       | (_, .ok bs) => bs.isEmpty
       | _ => false)) = true ∧
    (let s := (gridOf (fun x => { x with started := false, handed := false })).modCore 0 (fun c => { c with launches := [0] })
     decide ((s.core 0).launches = [0])) = true ∧
    (match (gridOf (fun x => { x with settled := false, next := 0 })).grid? 0 with
     | some x => x.unsettled
     | none => false) = true ∧
    (gridOf id).engraves 0 = false ∧ ((gridOf id).setCreg 0 oPLWIN 1).engraves 0 = true ∧
    -- the check closes, the completion word is stored or added to, and the sums are applied
    (let s := (gridOf id).modCtx 0 (fun k => { k with check := some { grids := [0], waits := [(.team 0 0, 0)], messages := [], copies := [] } })
     decide ((s.ctx 0).check = some { grids := [0], waits := [(.team 0 0, 0)], messages := [], copies := [] }) && !s.stillOut (.team 0 0, 0)) = true ∧
    [5, 13].all (fun flags =>
      let s := gridOf (fun x => { x with checked := true, record := { x.record with compAddr := 0x3000#64, flags := BitVec.ofNat 32 flags } })
      (match s.grid? 0 with
       | some x => decide (x.checked = true ∧ x.complete = false ∧ s.sent = [] ∧ x.record.addMode = decide (flags = 13))
       | none => false) &&
      (match s.fePut 0 1 0 0x3000 (toBytes 4 0) with
       | (_, .ok true) => true
       | _ => false) && !s.feWaiting 0 1 0 && (s.feFails 0 1 0).isNone &&
      (match s.feXlat 0 .store 0x3000 4 with
       | (s1, .ok ps) => decide (ps.length = 4) && !s1.putHeld 1 0 ps
       | _ => false)) = true ∧
    (match (gridOf (fun x => { x with ended := 1, sums := [(0x4000, [(0, 0x3F800000#32)])] })).grid? 0 with
     | some x => decide (x.complete = false ∧ x.started = true ∧ x.record.cohorts ≤ x.ended ∧ x.runs ≤ x.run + 1 ∧
        x.sums = [(0x4000, [(0, 0x3F800000#32)])] ∧ x.sumsApplied = false)
     | none => false) = true := by decide +kernel

/-- A device with one grid whose first cohort is to be placed. -/
def placing : State :=
  (((State.reset.setGrid 0 { placeGrid with next := 0 }).setCreg 0 oCTXCFG 1).setCreg 0 oCPOOLB 0x200000).setCreg 0 oCPOOLS 256

/-- A cohort whose one team has ended and given its slot back, and one whose task has failed. -/
def endedOne : State := inTeam one (fun t => { t with ended := true, released := true })
def failed : State := one.modTask 0 (fun k => { k with primary := true, failing := some (trapOf 21 0#64 0) })

theorem witness_CohortsArePlacedAndEnd :
    (match placing.grid? 0 with
     | some x => decide (placing.nextCohorts x = [{ index := 0, retries := 0 }]) && placing.idFree 5 && !placing.replaying 0 &&
        !placing.bound 0 && placing.firstInOrder 0 x &&
        (match placing.placeNext 0 x [{ index := 0, retries := 0 }] 5 (some 0x200000) with
         | some s' => decide ((s'.ctx 0).level.level ≠ 2)
         | none => false)
     | none => false) = true ∧
    placeGrid.roles.length = 1 ∧ (placeGrid.roles.map (·.teams)) = [1] ∧
    taskSat endedOne (fun k => endedOne.cohortOver 0 k && decide (endedOne.gangTasks k = [(0, k)] ∧ endedOne.gangCount k = 1 ∧ k.messages = []) && quiet endedOne k.ctx &&
      (endedOne.grid? k.grid).isSome) = true ∧
    taskSat failed (fun k => failed.failingGang k && k.primary && !k.finished && decide (failed.gangTasks k = [(0, k)] ∧ failed.gangCount k = 1)) = true ∧
    (let s := failed.modGrid 0 (fun x => { x with record := { x.record with flags := 0x805#32 } })
     taskSat s (fun k => s.wouldRetry k)) = true ∧
    one.sigs = [] ∧ one.replicas = [] := by decide +kernel

/-! ## Swaps, answers, stops, replays -/

theorem swapOrder_of_one {s : State} {c : Nat} {e : Nat × Task}
    (h : s.tasks.filter (fun e => e.2.core = c && s.maySwap e.1 e.2) = [e]) : s.swapOrder c = [e] := by
  unfold State.swapOrder
  rw [h]
  simp

/-- Cohort 0 has waited for 20 µs at a barrier; cohort 1 is away, needs the whole scratchpad, and the launch queue
it waited for has room. -/
def crowded : State :=
  let s := inTeam one (fun t => { t with hold := .bar 1 0 })
  let s := s.modTask 0 (fun k => { k with waitingSince := some 0 })
  let t : Team := { Team.start .kernel 0 0 1 96 0x10000#64 mdReset with hold := .full }
  let k : Task := { placeTask [] with index := 1, scratchSize := 786432, resident := false, teams := [(0, t)] }
  { s.setTask 1 k with time := 2000 }

/-- The cohort that waits. -/
def crowdedTask : Task := (crowded.task? 0).getD (placeTask [])

/-- A grid that no core takes, since it asks for fused clusters. -/
def unplaced (since : Option Nat) : State :=
  let s := placing.modGrid 0 (fun x => { x with waitSince := since, record := { x.record with flags := 0x405#32 } })
  { s with time := 100000 }

/-- Every unfused cluster, which is cluster 0 alone, has a cohort; a grid that wants fused clusters fits nowhere. -/
def noneEmpty : State :=
  let s := (span 1 15).foldl (fun s j => s.setCluster j { Cluster.reset with fused := true }) (one.setCreg 0 oCTXCFG 1)
  let x : Grid := { placeGrid with next := 0, waitSince := some 0, record := { placeRecord with flags := 0x405#32, scratch := 786433 } }
  { s.setGrid 1 x with time := 100000 }

theorem witness_CohortsSwapAndClustersChange :
    (crowded.swapOrder 0 = [(0, crowdedTask)] ∧ crowded.task? 0 = some crowdedTask) ∧
    (match crowded.task? 0 with
     | some k => (awayPrefixes [(0, k)] crowded).any (fun s' => crowded.waiterFits 0 s') && quiet crowded k.ctx && decide (k.core = 0)
     | none => false) = true ∧
    (let s := crowded.dropTask 0
     match s.task? 1 with
     | some k => s.eligible 1 k && !s.failingGang k && !(s.ctx k.ctx).snapPaused && decide ((s.ctx k.ctx).level.level ≠ 2) &&
        s.coreRoom 0 1 (s.bestBase 0 1) k.scratchSize && (s.grid? k.grid).isSome
     | none => false) = true ∧
    [none, some 0].all (fun w => match (unplaced w).grid? 0 with
     | some x => !((unplaced w).nextCohorts x).isEmpty && !(unplaced w).fitsNow 0 x && decide (x.waitSince = w ∧ 0 + 100000 ≤ (unplaced w).time) &&
        decide (x.record.fuse ≠ ((unplaced w).cluster 0).fused)
     | none => false) = true ∧
    ((span 0 16).filter (fun j => ((unplaced none).cluster j).fused = ((unplaced none).cluster 0).fused && (unplaced none).clusterEmpty j)).head? = some 0 ∧
    (let s := State.reset.setCluster 3 { Cluster.reset with draining := some 0 }
     decide ((s.cluster 3).draining ≠ none) && s.clusterEmpty 3) = true ∧
    (match noneEmpty.grid? 1 with
     | some x => !(noneEmpty.nextCohorts x).isEmpty && !noneEmpty.fitsNow 1 x && decide (x.record.fuse ≠ (noneEmpty.cluster 0).fused ∧
         (noneEmpty.cluster 0).draining = none ∧ noneEmpty.fewestOf (noneEmpty.cluster 0).fused = some 0 ∧ x.waitSince = some 0)
     | none => false) = true ∧
    (span 0 16).all (fun j => decide ((noneEmpty.cluster j).fused ≠ (noneEmpty.cluster 0).fused) || !noneEmpty.clusterEmpty j) = true ∧
    noneEmpty.grids.all (fun e => e.1 = 1 || (noneEmpty.nextCohorts e.2).isEmpty) = true := by
  refine ⟨⟨swapOrder_of_one (by decide +kernel), by decide +kernel⟩, ?_⟩
  decide +kernel

/-- A page fault 3 is pending. -/
def faulting (who : Faulter) (s : State) : State :=
  s.modCtx 0 (fun k => { k with pageFaults := [{ seq := 3, va := 0x5000#64, lane := 2, who := who }] })

theorem witness_PageFaultsAreAnswered :
    [Faulter.team 0 0, .lead 0 0, .engine 0 4, .frontEnd 0 1].all (fun w =>
      decide (((faulting w one).ctx 0).pageFaults.find? (fun f => f.seq = 3) = some { seq := 3, va := 0x5000#64, lane := 2, who := w } ∧
        ((faulting w one).ctx 0).pageFaults.find? (fun f => f.seq = 4) = none)) = true ∧
    teamSat (inTeam one (fun t => { t with hold := .pageFault 3 0x5000#64 })) (.team 0 0) (fun t => decide (t.hold = .pageFault 3 0x5000#64)) = true ∧
    (match (withLead.modTask 0 (fun k => { k with leads := AMap.modify k.leads 0 (fun t => { t with hold := .pageFault 3 0x5000#64 }) })).team? (.lead 0 0) with
     | some t => decide (t.hold = .pageFault 3 0x5000#64)
     | none => false) = true ∧
    teamSat (inTeam one (fun t => { t with hold := .park 0 false 8#64 0#32 })) (.team 0 0) (fun t => decide (t.hold = .park 0 false 8#64 0#32)) = true ∧
    (let s := copyFrom 0x1000
     headSat s 0 (fun o => decide ((s.core 0).faulted o.seq = some o))) = true := by decide +kernel

/-- A hit of context 0 on cluster 0 whose stop has been sent. -/
def hitSent : State :=
  one.setCluster 0 { Cluster.reset with hit := some { ctx := 0, wp := 1, task := 0, ord := 0, lead := false, engine := false, pc := 0x10000#64,
                                                      addr := 0x500#64, lane := 4, counts := [], since := 0, stopped := false } }

theorem witness_StopsFreezeAndRelease :
    (match (hitSent.cluster 0).hit with
     | some h => decide (h.stopped = false ∧ h.ctx = 0 ∧ hitSent.ac < h.since + 6 ∧ h.since + 6 ≤ { hitSent with ac := 6 }.ac)
     | none => false) = true ∧
    teamSat (inTeam one (fun t => { t with freeze := .frozen })) (.team 0 0) (fun t => decide (t.freeze = .frozen)) = true := by decide +kernel

theorem witness_ContextsArePreemptedAndReset :
    one.creg 0 oPREEMPT % 2 = 0 ∧ (one.ctx 0).prologue = none ∧ one.ctxIdle 0 = false ∧
    State.reset.creg 0 oPREEMPT % 2 = 0 ∧ (State.reset.ctx 0).prologue = none ∧ State.reset.ctxIdle 0 = true ∧
    (let s := { (one.setCreg 0 oPREEMPT 1).modCtx 0 (fun k => { k with preemptSince := some 0 }) with time := 5000000 }
     decide ((s.ctx 0).preemptSince = some 0 ∧ s.creg 0 oPREEMPT = 1 ∧ 0 + 100 * s.creg 0 oPDEAD ≤ s.time)) = true := by decide +kernel

/-- A record of the log: team 0's chunk of stamp 9. -/
def logged : LogRec := { pos := 16, kind := 7, team := 0, stamp := 9, delta := 1, payload := [5#8] }

/-- An anchor 7 of context 0, and a block with that record after it at 0x1000 of the ring. -/
def anchored : State :=
  let b : Block := { surveyor := 0, ctx := 0, base := 8, last := 8, bytes := [], dict := [], number := 0 }
  let bytes := (recordBytes b 7 0 9 (some 1) [5#8]).1
  { State.reset with
    mem := writeBytes [] 0x1000 (toBytes 8 8 ++ [0#8, 0#8] ++ toBytes 2 (16 + bytes.length) ++ toBytes 4 0 ++ bytes)
    log := { State.reset.log with head := 1, anchors := [{ number := 7, kind := 0, ctx := 0, first := 0, stamp := 3, extra := 0#64 }] } }

theorem scriptOf_of_one {s : State} {a : Anchor} {r : LogRec} (hs : s.log.sides = [])
    (h : ((span a.first (s.log.head - a.first)).flatMap (s.readBlock a.ctx)).filter (fun r =>
      (a.stamp < r.stamp && r.kind ≠ 8 && !(r.kind = 7 && r.team = 0xFFFF && !r.ofPrologue)) || r.ofPrologue && false) = [r]) :
    s.scriptOf a = [r] := by
  unfold State.scriptOf
  rw [hs]
  simp only [AMap.find, Option.map_none, Option.getD_none, List.any_nil]
  rw [h]
  simp

/-- A replay of that record, running or at its breakpoint, which is stamp 9. -/
def replayed (st : Nat) : State :=
  let s := (State.reset.setReg rRPCTL 4#64).setReg rRPBRK 9#64
  { s with replay := { state := st, position := 0, script := [logged], ctx := 0, anchor := 7, passed := none } }

theorem witness_SnapshotsAndReplays :
    (one.reg rSNAPREQ).toNat / 2 ^ 8 % 4 = 0 ∧ (recorded.ctx 0).level.recording = true ∧ (recorded.reg rSNAPREQ).toNat = 0 ∧
    ((recorded.setReg rSNAPREQ 512#64).reg rSNAPREQ).toNat = 0 + 512 ∧ (recorded.setReg rSNAPREQ 512#64).drained 0 = true ∧
    ((recorded.setReg rSNAPREQ 256#64).reg rSNAPREQ).toNat = 0 + 256 ∧
    anchored.shrunk = none ∧ anchored.replay.state = 0 ∧
    (∃ a, anchored.log.anchors.find? (fun a => a.number = 7 && a.ctx = 0) = some a ∧ anchored.scriptOf a = [logged]) ∧
    (replayed 2).replay.state = 2 ∧ ((replayed 2).reg rRPCTL).toNat / 2 % 2 = 0 ∧
    (replayed 1).breakRecord = some logged ∧ (∀ x ∈ (replayed 1).replay.script, logged.stamp ≤ x.stamp) := by
  refine ⟨by decide +kernel, by decide +kernel, by decide +kernel, by decide +kernel, by decide +kernel, by decide +kernel, by decide +kernel,
    by decide +kernel, ⟨_, rfl, scriptOf_of_one rfl (by decide +kernel)⟩, by decide +kernel, by decide +kernel, by decide +kernel, by decide +kernel⟩

/-! ## Leases, translations, registers, messages, requests -/

/-- Leases of an agent on the two halves of a region of 256 bytes, 1 ms after their grant. -/
def leased (agent : Nat) : State :=
  let x : Lease := { agent := agent, base := 512, size := 128, owned := true, granted := 0, renewed := 0, lines := [4] }
  { State.reset with leases := [x, { x with base := 640, lines := [5] }], time := 100000 }

theorem witness_LeasesRenewLapseAndMerge :
    [0, 3, 4, 5].all (fun a => decide ((leased a).leases.filter (fun x => x.agent = a && decide (x.renewed + 100000 ≤ (leased a).time)) =
      (leased a).leases)) = true ∧
    (match (leased 4).leases with
     | [x, y] => decide (x.base = 512 ∧ y.base = 512 + 256 / 2 ∧ x.size = 256 / 2 ∧ y.size = 256 / 2 ∧ 512 % 256 = 0 ∧ x.agent = y.agent ∧
         x.owned = y.owned ∧ x.granted + 100000 ≤ (leased 4).time ∧ y.granted + 100000 ≤ (leased 4).time)
     | _ => false) = true ∧
    (let s := { State.reset with time := 2 ^ 32 * 100 }
     Nat.ble (s.leaseZero + 2 ^ 32 * 100) s.time && (span 0 64).all (fun c => !s.recording c) && s.tasks.isEmpty) = true ∧
    loading.inFlight = true ∧ State.reset.inFlight = false := by decide +kernel

/-- An invalidation that waits for nothing. -/
def invalidating (n : Nat) : State :=
  { State.reset with invals := List.replicate n { op := 0, ctx := 0, page := 0, gen := 1, waits := [] } }

/-- A range whose replica is to lie behind the other H-die, with the valid and busy bits `b`. -/
def replicaOf (n b : Nat) : State :=
  (State.reset.setReg (rRPLSEC n) (BitVec.ofNat 64 (288 * 2 ^ 30))).setReg (rRPLPRI n) (BitVec.ofNat 64 b)

/-- A kernel with a write to its text waiting, whose grid does not run. -/
def rewritten : State :=
  { State.reset with kernels := [{ ctx := 0, code := 0x10000#64, gen := 0, pages := [16], writes := [(0x10000, [1#8])], spans := [] }] }

theorem witness_InvalidationsBiasAndReplicas :
    [0, 1, 2, 3].all (fun v => decide (v % 8 ≤ 3 ∧ v / 8 % 8 = 0 ∧ (invalidating 14).invals.length < 15 ∧
      15 ≤ (invalidating 15).invals.length)) = true ∧
    (invalidating 1).invals.all (fun x => x.waits.isEmpty && x.op ≠ 2) = true ∧
    ((0x12340000 / 4 % 2 ^ 14 = 0) ∧ (State.reset.reg rBFLIP).toNat % 2 = 0) ∧
    ((State.reset.setReg rBFLIP 0x12340003#64).reg rBFLIP).toNat % 4 = 3 ∧
    [0, 255].all (fun n => decide (((replicaOf n 0).reg (rRPLPRI n)).toNat % 4 = 0 ∧ ((replicaOf n 1).reg (rRPLPRI n)).toNat % 4 = 1 ∧
      ((replicaOf n 2).reg (rRPLPRI n)).toNat % 4 = 2 ∧
      ((replicaOf n 3).reg (rRPLPRI n)).toNat % 4 = 3) && (replicaOf n 0).markOk n 1) = true ∧
    (match rewritten.kernels.find? (fun k => k.ctx = 0 && k.code = 0x10000#64) with
     | some k => !k.writes.isEmpty && !rewritten.kernelRuns k
     | none => false) = true := by decide +kernel

theorem witness_RegistersAreReadAndWritten :
    [(rVPBASE, 8, 0x40000000), (rSNAPREQ, 4, 3), (rRPLPRI 255, 8, 0x10000), (ctxPage 0 oCTXCFG, 4, 1), (ctxPage 63 oPDEAD, 4, 1),
      (rWPADDR 15 3, 8, 0x500)].all (fun e => decide (regWidth e.1 = some e.2.1 ∧ ownEvent State.reset e.1 e.2.2 = false ∧
        State.reset.accepts e.1 e.2.2 = true ∧ e.1 ≠ rLRBASE ∧ e.1 ≠ rLRSIZE ∧ e.1 ≠ rPWRLIM)) = true ∧
    [(rVPBASE, 8, 1), (0, 4, 1), (ctxPage 63 oPDEAD, 4, 0), (rWPCTL 15 3, 4, 12)].all (fun e =>
      decide (regWidth e.1 = some e.2.1 ∧ ownEvent State.reset e.1 e.2.2 = false ∧ State.reset.accepts e.1 e.2.2 = false)) = true ∧
    [(rVPBASE, 4), (4, 8), (0x500000, 4)].all (fun e => decide (regWidth e.1 ≠ some e.2)) = true ∧
    [0, 63].all (fun c => ((State.reset.ctx c).heldFaults.isEmpty)) = true := by decide +kernel

/-- A device 5 whose mailbox 255 is bound to context 63; a flow that has had three messages. -/
def mailed : State :=
  let s := (State.reset.setReg rMDEVNO 5#64).setReg (rMBXBIND 255) 0x7F#64
  { s with flows := [(7, 2, 255, 255, 3)] }

theorem witness_MessagesArriveInOrder :
    (let m (seq : Nat) : Message := { mbox := 255, srcDev := 7, srcCtx := 2, dstDev := 5, epoch := 255, seq := seq
                                      body := List.replicate 64 0#8, grid := 0 }
     decide ((mailed.reg rMDEVNO).toNat = 5 ∧ mailed.boundTo 255 = some 63 ∧ mailed.replaying 63 = false ∧ mailed.recording 63 = false ∧
       (m 2).body.length = 64 ∧ 2 < mailed.flowNext (m 2) ∧ mailed.flowNext (m 4) < 4 ∧ 3 = mailed.flowNext (m 3) ∧ mailed.arrivals = [] ∧
       (AMap.get [] mailed.mailboxes 255).length < 32)) = true ∧
    [0, 255].all (fun b => decide (AMap.get [] State.reset.mailboxes b = [])) = true ∧ State.reset.arrivals = [] ∧
    (0x1FFFF < 2 ^ 17 ∧ 0x1FFFF / 2 ^ 16 % 2 = 1) := by decide +kernel

/-- Context 0's request queue holds one entry of these bytes, and steward 5 leads. -/
def asking (bs : List Byte) : State :=
  let s := paged (pointing bs)
  let s := ((s.setCreg 0 oSQBASE 0x400).setCreg 0 oSQTAIL 1).modCtx 0 (fun k => { k with groups := [(4, { members := [], opening := none })] })
  { s with leader := { die := some 5, epoch := 1, renewed := 0 } }

/-- The request that is read. -/
def asked (bs : List Byte) (q : Request → Bool) : Bool :=
  (asking bs).requestWaits 0 && (match ((asking bs).readRequest 0).2 with
    | some r => q r
    | none => false)

/-- An open of group 3, whose list of one participant lies at 0x440. -/
def openBytes (dev : Nat) : List Byte := block 68 [(0, 1, 1), (8, 8, 3), (0x10, 8, 1), (0x18, 8, 0x440), (0x40, 2, dev)]

/-- Group 3 has waited for 10 ms to open; a step of the request has ended. -/
def waitedOpen : State :=
  let s := (asking (openBytes 7)).modCtx 0 (fun k => { k with groups := [(3, { members := [(7, 0)], opening := some 0 })] })
  { s with time := 1000000, leader := { s.leader with renewed := 500000 } }
def steppedReq : State := (asking []).modCtx 0 (fun k => { k with stepReq := some { task := 0, ord := 0, since := 0, status := some 2 } })

theorem witness_TheLeaderServesRequests :
    (one.leader.die ≠ some 0 ∧ (asking []).leader.die = some 5 ∧ (asking []).time < (asking []).leader.renewed + 1000000) ∧
    one.leader.die = none ∧
    (span 0 6).filter (fun d => match (one.steward d).beat with
      | some t => decide (one.time < t + 1000000)
      | none => false) = [] ∧
    (let s := one.modSteward 5 (fun x => { x with beat := some 0 })
     decide ((span 0 6).filter (fun d => match (s.steward d).beat with
      | some t => decide (s.time < t + 1000000)
      | none => false) = [5] ∧ s.leader.die = none)) = true ∧
    asked (openBytes 0xFFFF) (fun r => match r with
      | .openGroup g ms => decide (g = 3 ∧ ms = [(0xFFFF, 0)])
      | _ => false) = true ∧
    asked (openBytes 7) (fun r => match r with
      | .openGroup g ms => decide (g = 3 ∧ ms = [(7, 0)] ∧ AMap.find ((asking (openBytes 7)).ctx 0).groups 3 = none)
      | _ => false) = true ∧
    asked (block 64 [(0, 1, 2), (8, 8, 4)]) (fun r => match r with
      | .closeGroup g => decide (g = 4) && !((asking []).collOut 0 4)
      | _ => false) = true ∧
    asked (block 64 [(0, 1, 3)]) (fun r => match r with
      | .stepTeam w => decide (w = 0)
      | _ => false) = true ∧
    asked (block 64 [(0, 1, 9)]) (fun r => match r with
      | .bad => true
      | _ => false) = true ∧
    ((asking []).ctx 0).stepReq = none ∧
    (steppedReq.requestWaits 0 = true ∧ ((steppedReq.ctx 0).stepReq.map (·.status)) = some (some 2)) ∧
    (waitedOpen.requestWaits 0 = true ∧ (waitedOpen.ctx 0).groups.find? (fun e => e.2.opening.isSome) =
      some (3, { members := [(7, 0)], opening := some 0 }) ∧ 0 + 1000000 ≤ waitedOpen.time) := by decide +kernel

/-! ## Power, the outside, and the machine as a whole -/

/-- Power above its limit, or below 95 % of it, for 1 ms. -/
def hot : State := { State.reset with power := { State.reset.power with above := some 0 }, time := 100000 }
def cold : State := { State.reset with power := { State.reset.power with below := some 0, arith := 550 }, time := 100000 }
def hot2 : State := { one.modCtx 0 (fun k => { k with level := { k.level with level := 2 } }) with power := hot.power, time := 100000 }

/-- A locked context's power above spwl too, for 1 ms and for less. -/
def overSpwl (since : Nat) : State := { hot2 with power := { hot2.power with overSpwl := some since } }

/-- A core to be replaced, of a die with or without a spare left. -/
def replacing (core spare : Nat) : State :=
  (State.reset.modCore core (fun k => { k with retiring := true })).modSteward (core / 32) (fun x => { x with spare := spare })

theorem witness_PowerClocksAndSpares :
    decide (hot.power.above = some 0 ∧ 0 + 100000 ≤ hot.time ∧ (hot.reg rPWRLIM).toNat < 2801 ∧ hot.locked2 = false) = true ∧
    decide (hot2.power.above = some 0 ∧ 0 + 100000 ≤ hot2.time ∧ (hot2.reg rPWRLIM).toNat < 4095 ∧ hot2.locked2 = true) = true ∧
    [0, 50000].all (fun u => decide ((overSpwl u).locked2 = true ∧ (overSpwl u).power.overSpwl = some u ∧ (overSpwl u).spwl < 4095)) = true ∧
    decide (cold.power.below = some 0 ∧ 0 + 100000 ≤ cold.time) = true ∧
    decide (State.reset.locked2 = false ∧ State.reset.power.crossed = false ∧ ¬ (State.reset.reg rPWRLIM).toNat < 2800) = true ∧
    [0, 127].all (fun c => decide ((State.reset.core c).phys < 136 ∧ (State.reset.core c).retired = false)) = true ∧
    [0, 31, 127].all (fun c => [0, 1, 2].all (fun n => decide (((replacing c n).core c).retiring = true ∧ (replacing c n).tasks = [] ∧
      ((replacing c n).steward (c / 32)).spare = n))) = true ∧
    [4, 5].all (fun d => decide ((State.reset.reg rREPLREQ).toNat / 2 ^ d % 2 = 0 ∧
      ((State.reset.setReg rREPLREQ 0x30#64).reg rREPLREQ).toNat / 2 ^ d % 2 = 1)) = true := by decide +kernel

/-- A device with a trained PCIe link; one whose notify aperture is gated, with a captured write. -/
def linked : State := { State.reset with pcie := [(0, true)] }
def captured : State := { State.reset with gated := true, latch := [{ ctx := 63, n := 63, value := 9#32 }] }

theorem witness_OutsideWritesAndReads :
    linked.pcie.any (fun e => e.2) = true ∧
    [0, 0x1234, memorySize - 4].all (fun a => linked.reachable a 4 && !linked.locHeld none (.glob a) 4 && !linked.regionBusy a 4) = true ∧
    (linked.kernels = [] ∧ linked.sigs = [] ∧ linked.replicas = []) ∧
    (State.reset.gated = false ∧ State.reset.latch = [] ∧ State.reset.parksNotify = false) ∧
    (captured.gated = true ∧ captured.latch ≠ [] ∧ captured.latch.length < 64) ∧
    ({ State.reset with boot := { State.reset.boot with recovery := true } } : State).boot.recovery = true := by decide +kernel

/-- Teams that a check stops: frozen, with eight registers, with an evicted register line, with as many loads as their counter holds;
and a prologue that has issued 256 words. -/
def stuck : State := inTeam one (fun t => { t with freeze := .frozen })
def small : State := inTeam one (fun t => { t with budget := 8 })
def evicted : State := inTeam one (fun t => { t with evicted := [64] })
def full : State :=
  inTeam one (fun t => { t with pend := List.replicate 63 { pendOf (oneOp .store 4 9 0 0 (.glob 0x500) []) with cls := .ld } })
def spent : State := withPrologue.modCtx 0 (fun k => { k with prologue := k.prologue.map (fun q => { q with issued := 256 }) })

/-- The party may issue, and its stream meets a condition. -/
def free (s : State) (p : Party) (q : Team → Bool) : Bool := teamSat s p (fun t => s.canIssue p t && q t) && decide (s.cur = some p)

theorem witness_EveryWordIsCheckedBeforeItActs :
    ({ one with cur := none } : State).cur = none ∧
    stuck.cur = some (.team 0 0) ∧ teamSat stuck (.team 0 0) (fun t => !stuck.canIssue (.team 0 0) t) = true ∧
    free one (.team 0 0) (fun t => !(Instr.illegalOp 0#32).selects && !streamOk t.stream (.halt hd) &&
      !codesListed t.stream (.icmp hd 1#4 7#3 1#7 2#7) && streamOk t.stream (.iadd hd 1#7 2#7 3#7) &&
      codesListed t.stream (.iadd hd 1#7 2#7 3#7) && !seqAllowed t.stream 14 && !seqAllowed t.stream 15 && seqAllowed t.stream 0 &&
      seqAllowed t.stream 13) = true ∧
    free small (.team 0 0) (fun t => !regsOk t.single1 t.budget (uses (mdType t.md) (.iadd hd 8#7 2#7 3#7)) &&
      regsOk t.single1 t.budget (uses (mdType t.md) (.iadd hd 7#7 2#7 3#7))) = true ∧
    free one (.team 0 0) (fun t => regsOk t.single1 t.budget (uses (mdType t.md) (.msetLo hd 0xD0#12)) &&
      !modeOk t.md t.tw (.msetLo hd 0xD0#12)) = true ∧
    free spent (.prologue 0) (fun t => decide (failedCheck (.movi hd 97#7 1#14) t = none) && spent.prologueSpent (.prologue 0)) = true ∧
    free evicted (.team 0 0) (fun t => decide (failedCheck (.iadd hd 1#7 2#7 3#7) t = none) && unfilled (.iadd hd 1#7 2#7 3#7) t &&
      !evicted.prologueSpent (.team 0 0)) = true ∧
    free loading (.team 0 0) (fun t => decide (failedCheck (.iadd hd 1#7 9#7 3#7) t = none) && interlocked (.iadd hd 1#7 9#7 3#7) t) = true ∧
    free full (.team 0 0) (fun t => decide (failedCheck (.ldB32 hd 1#7 2#7 1#7) t = none) && counterFull (.ldB32 hd 1#7 2#7 1#7) t) = true ∧
    free one (.team 0 0) (fun t => decide (failedCheck (.txe hd 1#4 3#7) t = none) && txMisuse (.txe hd 1#4 3#7) t &&
      !unfilled (.txe hd 1#4 3#7) t && !interlocked (.txe hd 1#4 3#7) t && !counterFull (.txe hd 1#4 3#7) t) = true := by decide +kernel

/-- A team with given stacks. -/
def stacked (div : List DivEntry) (loops : List LoopEntry) (calls : List CallEntry) : Team :=
  { Team.start .kernel 0 0 1 96 0x10000#64 mdReset with div := div, loops := loops, calls := calls }

/-- The team whose branch predicate p1 holds in every second lane. -/
def halved : Team := { stacked [] [] [] with p := [(1, 0xAAAAAAAA#1024)] }

theorem witness_SequencingFollowsItsCode :
    ((stacked [] [] []).div.length ≤ 30 ∧ 30 < (stacked (List.replicate 31 (.rejoin 1#1024)) [] []).div.length ∧
      (stacked [] [] []).calls = [] ∧ (stacked [] [] []).loops = [] ∧ (stacked [] [] []).div = []) ∧
    (stacked [] [{ lc := 2#32, lh := 8#64 }] []).loops = { lc := 2#32, lh := 8#64 } :: [] ∧
    (stacked [] [] [{ ret := 4#64, divDepth := 0, loopDepth := 0 }]).calls = { ret := 4#64, divDepth := 0, loopDepth := 0 } :: [] ∧
    ((stacked [.rejoin 1#1024] [] []).div = .rejoin 1#1024 :: [] ∧
      (stacked [.pending 8#64 1#1024, .rejoin 1#1024] [] []).div = .pending 8#64 1#1024 :: [.rejoin 1#1024] ∧
      (stacked [.pending 8#64 0#1024, .rejoin 1#1024] [] []).div = .pending 8#64 0#1024 :: .rejoin 1#1024 :: []) ∧
    ((∀ l, l < 1024 → (0xAAAAAAAA#1024 : LaneMask).getLsbD l = (halved.mask.getLsbD l && halved.predAt (mdBp halved.md) l)) ∧
      ∀ l, l < 1024 → (0x55555555#1024 : LaneMask).getLsbD l = (halved.mask.getLsbD l && !halved.predAt (mdBp halved.md) l)) ∧
    teamSat (inTeam one (fun t => { t with brk := true })) (.team 0 0) (fun t => decide (t.hold = .none ∧ t.freeze = .no ∧ t.brk = true ∧
      t.ended = false)) = true ∧
    teamSat (inTeam one (fun t => { t with ended := true })) (.team 0 0) (fun t => decide (t.hold = .none ∧ t.freeze = .no ∧
      t.ended = true ∧ t.released = false ∧ t.pend = [])) = true ∧
    teamSat (inTeam loading (fun t => { t with ended := true })) (.team 0 0) (fun t => decide (t.hold = .none ∧ t.freeze = .no ∧
      t.ended = true ∧ t.released = false ∧ t.pend ≠ [])) = true ∧
    (let i := Instr.iadd { seq := 14#4, b := false } 1#7 2#7 3#7
     i.selects && streamOk .kernel i && codesListed .kernel i) = true := by decide +kernel

/-- The team of `one`, and it after `movi v1, 5`. -/
def oneTeam : Team := (one.team? (.team 0 0)).getD placePrologue.team
def afterMovi : Team := (oneTeam.opened (.movi hd 1#7 5#14)).write 1 (fun _ => 5#32)

theorem witness_WordsLeaveTheRestOfTheMachine :
    one.team? (.team 0 0) = some oneTeam ∧ CompletesAs (.movi hd 1#7 5#14) hd one (.team 0 0) afterMovi ∧
      ∃ v, seqAct hd.seq.toNat none ((one.countIssue (.team 0 0)).breaks (.team 0 0)) afterMovi = .ok v ∧
        v.hold = .none ∧ v.Plain := by
  have ht : one.team? (.team 0 0) = some oneTeam := by decide +kernel
  have on (d : Bool) (u : Team) (h : u.hold = .none) (f : u.freeze = .no) (e : u.ended = false) (b : u.brk = false) :
      ∃ v, seqAct hd.seq.toNat none d u = .ok v ∧ v.hold = .none ∧ v.Plain := ⟨{ u with pc := u.pc + 4#64 }, rfl, h, ⟨f, e, b⟩⟩
  refine ⟨ht, ?_, on _ afterMovi (by decide +kernel) (by decide +kernel) (by decide +kernel) (by decide +kernel)⟩
  obtain ⟨t, hi⟩ := issues_of_ready (by decide +kernel : ready one (.team 0 0) (.movi hd 1#7 5#14) = true)
  obtain rfl : oneTeam = t := Option.some.inj (ht.symm.trans hi.team)
  have e : exec (.movi hd 1#7 5#14) one = issueTeam (.movi hd 1#7 5#14) hd one (fun t => t.write (1#7).toNat (fun _ => (5#14).signExtend 32)) := rfl
  have n : (1#7).toNat = 1 ∧ (5#14).signExtend 32 = 5#32 := by decide
  rw [n.1, n.2] at e
  exact changes_of (f := fun t => t.write 1 (fun _ => 5#32)) (fun t => t.write 1 (fun _ => 5#32)) e rfl hi

theorem witness_TrapsAreTakenByTheirClass :
    (match one.task? 0 with
     | some k => (AMap.find k.teams 0).isSome && quiet one k.ctx && (one.plateOf k).isNone
     | none => false) = true ∧
    [0, 1, 2].all (fun c => decide (({ cls := c, code := 21, addr := 0#64, lane := 0, detail := 0#32, engine := false } : TrapInfo).cls = c)) =
      true := by decide +kernel

/-- What the first turn of a device with a placed word is. -/
def placedWord : State := State.reset.withFetchWord 32 0x04000000

theorem witness_AStepRunsTheDecodedWord :
    (let s0 := { one with cur := none }
     teamSat s0 (.team 0 0) (fun t => s0.canIssue (.team 0 0) t && !t.brk && decide (t.freeze = .no) && !s0.replaying (s0.ctxOf (.team 0 0)) &&
      (match s0.fetchAddr (.team 0 0) t with
       | (s1, .ok pa) => (match decodeBytes (readBytes s1.mem pa 4) with
         | .ok (i, _) => i.wellFormed && !s1.regionBusy pa 4
         | .error _ => false)
       | _ => false))) = true ∧
    (placedWord.nextMove.1 = .partition 0 0 ∧ placedWord.boot.up = true ∧ placedWord.nextMove.2.boot.up = true ∧
      placedWord.nextMove.2.wrapping = false ∧ (let s1 : State := (placedWord.nextMove.2.residents 0 0).foldl (fun (z : State) w => z.joinWait (.team w.1 w.2.1)) placedWord.nextMove.2
       (pick s1 0 0 (readyTeams s1 0 0)).isSome = true)) ∧
    ((State.reset.withFetchWord 32 0xF0040000).nextMove.1 = .lead 0 ∧
      (let s0 := (State.reset.withFetchWord 32 0xF0040000).nextMove.2
       let s1 := (s0.leadsOf 0).foldl (fun z w => z.joinWait (.lead w.2.1 w.2.2)) s0
       !((span 1 256).flatMap (fun n => ((s1.leadsOf 0).filter (fun z => begins s1 (.lead z.2.1 z.2.2))).filter
        (fun z => z.1 = ((s1.core 0).leadLast + n) % 256))).isEmpty) = true) ∧
    (State.reset.withFetchWord 32 0xF8020000).nextMove.1 = .prologue 0 ∧
    ({ withSteward with agenda := [.steward 5, .event .replayBreakpoint] } : State).nextMove.1 = .steward 5 ∧
    ({ withSteward with agenda := [.part (.storePerformed (.team 0 0) 0) 3] } : State).nextMove.1 = .part (.storePerformed (.team 0 0) 0) 3 ∧
    (State.reset.boot.up = false ∧ (Instr.replayBreakpoint).isWord = false ∧ (Instr.storePerformed (.team 0 0) 0).isWord = false ∧
      drains (.storePerformed (.team 0 0) 0) = true ∧ drains .replayBreakpoint = false) := by decide +kernel

theorem witness_DecodeOfEncodeIsTheInstruction :
    [Instr.iadd hd 1#7 2#7 3#7, .icmp hd 1#4 2#3 1#7 98#7, .ldB32 hd 1#7 2#7 127#7].all Instr.wellFormed = true := by decide +kernel

theorem witness_StepsKeepMemoryCanonical :
    Memory.wf placedWord.mem = true ∧ (match step placedWord with
      | .next s' => decide (s'.cur = none)
      | _ => false) = true := by decide +kernel

theorem witness_ResetAndTeamStartValues : [1, 32].all (fun n => decide (n ≤ 32)) = true ∧ 7 < 8 ∧ 1023 < 1024 := by decide

/-! ## The further clauses of the statements -/

theorem witness_TypedWordsApplyTheElementFunctions_elements :
    (span 0 6).all (fun ty => decide (0 < tyCount ty ∧ 1 < 2 ^ tyWidth ty ∧ 2 < 2 ^ tyWidth ty ∧ 1 ≠ absentOf ty ∧ 2 ≠ absentOf ty ∧
      intVal ty 0 = 0 ∧ intVal ty 2 ≠ 0)) = true ∧
    -- sums in range and past it, with and without saturation; absent aside or not
    (intMin 4 ≤ intVal 4 1 + intVal 4 2 ∧ intVal 4 1 + intVal 4 2 ≤ intMax 4 ∧ intMax 4 < intVal 4 100 + intVal 4 100 ∧
      intVal 4 0x85 + intVal 4 0x85 < intMin 4) ∧
    (mdSat 0x840#32 = true ∧ mdSat 0x40#32 = false ∧ mdAbs 0x1000060#32 = true ∧ mdAbs 0x60#32 = false) ∧
    -- operands of each class
    fmtOf 6 = some fmtF32 ∧
    [0x60#32, 0x1000060#32].all (fun md => decide (operand fmtF32 md 6 0x7FC00000 = .nan ∧ operand fmtF32 md 6 0xFFC00001 = .absent ∧
      operand fmtF32 md 6 0x3F800000 ≠ .absent ∧ operand fmtF32 md 6 0x3F800000 ≠ .nan)) = true := by decide +kernel

theorem witness_ConversionWordsConvertElements_elements :
    [0, 1, 2, 3, 4, 5].all (fun src => decide (1 < 2 ^ tyWidth src ∧ 1 ≠ absentOf src)) = true ∧
    (fmtOf 6 = some fmtF32 ∧ fmtOf 7 = some fmtF16 ∧ 6 ≠ 7) ∧
    [4, 9].all (fun n => decide (operand fmtF32 (BitVec.ofNat 32 (16 * n)) 6 0xFFC00001 = .absent ∧
      operand fmtF32 (BitVec.ofNat 32 (16 * n)) 6 0x7FC00000 = .nan ∧ operand fmtF32 (BitVec.ofNat 32 (16 * n)) 6 0xFF800000 = .inf true ∧
      ((match operand fmtF32 (BitVec.ofNat 32 (16 * n)) 6 0x40000000 with
       | .fin neg m _ => !neg && decide (m ≠ 0)
       | _ => false) = true))) = true := by decide +kernel

/-- A gang of two cohorts on two cores, both placed. -/
def pairOfCohorts : State :=
  let s := one.modGrid 0 (fun x => { x with record := { x.record with gx := 2, flags := 0x205#32 } })
  match s.task? 0 with
  | some k => s.setTask 1 { k with index := 1, core := 1 }
  | none => s

theorem witness_MemoryWordsStartTheirOperation_scopes :
    (match one.task? 0 with
     | some k => decide (one.taskOf (.team 0 0) = some k ∧ one.gangCount k ≤ (one.gangTasks k).length) &&
        (one.gangTasks k).all (fun y => y.2.teams.all (fun z => decide (Party.team y.1 z.1 = .team 0 0) || z.2.released)) &&
        (one.recordOf k).isSome
     | none => false) = true ∧
    one.ordersFor (.team 0 0) 1 = false ∧ one.ordersFor (.team 0 0) 5 = true ∧ withPrologue.ordersFor (.prologue 0) 1 = true ∧
    partyTask (.team 0 0) = some 0 ∧ (0 : Nat) ≠ 1 := by decide +kernel

/-- The team has a load outstanding, or a store; its cohort has a second team, so that its accesses have order. -/
def together (m : MemOp) : State :=
  (pending m).modTask 0 (fun k => { k with teams := k.teams ++ [(1, Team.start .kernel 0 1 1 96 0x10000#64 mdReset)] })

theorem witness_WaitingWordsGoOnWhenNothingIsLeft_orders :
    (let s := together (oneOp .store 4 8 0 0 (.glob 0x500) [])
     ready s (.team 0 0) (.fence hd 2#3 1#3) && s.ordersFor (.team 0 0) 1 && teamSat s (.team 0 0) (fun t => t.memBusy && !t.loadBusy)) = true ∧
    (let s := together (oneOp .load 4 8 0 0 (.glob 0x500) [])
     ready s (.team 0 0) (.fence hd 1#3 1#3) && ready s (.team 0 0) (.fence hd 4#3 1#3) && s.ordersFor (.team 0 0) 1 &&
       teamSat s (.team 0 0) (fun t => t.loadBusy)) = true ∧
    (let s := pending (oneOp .store 4 8 0 0 (.glob 0x500) [])
     ready s (.team 0 0) (.fence hd 2#3 1#3) && !s.ordersFor (.team 0 0) 1 && teamSat s (.team 0 0) (fun t => t.memBusy && !t.loadBusy)) = true := by
  decide +kernel

/-- The stream's only lane that takes part is lane 0. -/
def lone (s : State) : State := inTeam s (fun t => { t with mask := 1#1024 })

/-- Context 0 has page tables, and the TLBs hold nothing. -/
def untranslated : State := ((lone (paged one)).modCore 0 (fun c => { c with tlb := [] })).modCluster 0 (fun c => { c with tlb := [] })

theorem witness_WaitingWordsGoOnWhenNothingIsLeft_hints :
    teamSat one (.team 0 0) (fun t => t.lanes.all (fun l => decide (one.lookup 0 0 .user .load (t.pair 2 l).toNat ≠ .miss))) = true ∧
    [Instr.pref hd 2#7 0#3, .cctl hd 2#7 0#3].all (fun i => ready one (.team 0 0) i && ready untranslated (.team 0 0) i) = true ∧
    teamSat (inTeam one (fun t => { t with mask := 0#1024 })) (.team 0 0) (fun t => decide (t.lanes = [])) = true ∧
    -- a line that the TLBs do not hold, with a page and without one
    teamSat untranslated (.team 0 0) (fun t => decide (t.lanes = [0] ∧ (t.pair 2 0).toNat = 0)) = true ∧
    (untranslated.lookup 0 0 .user .load 0 = .miss ∧ untranslated.walkBusy 0 0 = false ∧ (untranslated.walk 0 0 .load).isSome = true) ∧
    (untranslated.lookup 0 0 .user .load 0x80000000 = .miss ∧ untranslated.walkBusy 0 0x80000000 = false ∧
      untranslated.walk 0 0x80000000 .load = none) := by decide +kernel

theorem witness_GangBarriersAndParksWait_waits :
    (let s := { one with latch := [{ ctx := 0, n := 1, value := 9#32 }] }
     decide (s.parkWord (.team 0 0) 2 8#64 = (s, .ok (.notify 8)) ∧ s.latch ≠ []) && ready s (.team 0 0) (.park hd 2#2 0#2 2#5 3#5)) = true ∧
    (let s := { one with flaws := [{ site := .mem 8 none, fatal := true }] }
     decide (s.parkWord (.team 0 0) 0 8#64 = (s, .ok (.at (.glob 8)))) && ((s.parkFlaws (.team 0 0) 8#64 (.at (.glob 8))).2).isSome &&
       ready s (.team 0 0) (.park hd 0#2 0#2 2#5 3#5)) = true ∧
    ((one.parkFlaws (.team 0 0) 8#64 (.at (.glob 8))) = (one, none)) := by decide +kernel

/-- The word fails as a transaction's misuse. -/
def misuses (s : State) (i : Instr) : Bool :=
  teamSat s (.team 0 0) (fun t => s.canIssue (.team 0 0) t && decide (failedCheck i t.released' = none) && !s.prologueSpent (.team 0 0) &&
    !unfilled i t.released' && !interlocked i t.released' && !counterFull i t.released') && decide (s.cur = some (.team 0 0))

/-- One lane takes part, with a device-scope transaction open for it. -/
def laneTx : State := inTeam (lone (inTx 1#1024)) (fun t => { t with tx := t.tx.map (fun x => { x with dev := true }) })

/-- What a lane has tracked: as it begins, with four sectors written, with eight read, and doomed. -/
def written4 : LaneTx := { LaneTx.empty with wrSec := [1, 2, 3, 4], wr := [(32, 7#8)] }
def read8 : LaneTx := { LaneTx.empty with rdSec := [1, 2, 3, 4, 5, 6, 7, 8] }

theorem witness_TransactionWordsOpenDoomAndResolve_memory :
    misuses one (.txe hd 1#4 3#7) = true ∧ misuses one (.txa hd 7#8) = true ∧
    misuses (inTx 1#1024) (.txbCoh hd) = true ∧ misuses (inTx 1#1024) (.txbDev hd) = true ∧
    teamSat one (.team 0 0) (fun t => t.tx.isNone) = true ∧
    [Instr.stB32 hd 3#7 2#7 0#7, .ldB32 hd 3#7 2#7 0#7].all (ready laneTx (.team 0 0)) = true ∧
    txSat laneTx (fun x => x.lanes.getLsbD 0) = true ∧ teamSat laneTx (.team 0 0) (fun t => decide (t.lanes = [0]) &&
      !t.passes' (.glob 0) 4 && laneTx.ordered (.team 0 0) (t.opened (.ldB32 hd 3#7 2#7 0#7)) none) = true ∧
    [How.load, .store].all (fun w => decide (laneTx.checkAccess (.team 0 0) .global w 0#64 4 true = (laneTx, .ok (.glob 0)))) = true ∧
    Loc.busy (.glob 0) laneTx 4 = false ∧ laneTx.flaws = [] ∧
    (LaneTx.empty.doomed = false ∧ LaneTx.empty.wrSec.length < 4 ∧ LaneTx.empty.rdSec.length < 8 ∧ 5 ∉ LaneTx.empty.rdSec) ∧
    (written4.doomed = false ∧ 32 / 32 ∈ written4.wrSec ∧ 9 ∉ written4.wrSec ∧ 4 ≤ written4.wrSec.length) ∧
    (read8.doomed = false ∧ 9 ∉ read8.wrSec ∧ 9 ∉ read8.rdSec ∧ 8 ≤ read8.rdSec.length) ∧
    ({ LaneTx.empty with doom := some (4, 9) } : LaneTx).doomed = true ∧ [7#8, 8#8][1]? = some 8#8 := by decide +kernel

/-- Lane 0 passes its recheck and writes; lane 1's reads hold, and it has a fault. -/
def mixed : State :=
  let l : LaneTx := { LaneTx.empty with rd := [(0x500, 0#8)], rdSec := [0x28] }
  let f : LaneTx := { l with fault := some (0x10000#64, trapOf 21 0x600#64 0) }
  let x : Tx := { dev := true, lanes := 3#1024, tx := [(0, l), (1, f)], ticket := none, winners := [0], intra := [], validated := [(0, true)] }
  inTeam one (fun t => { t with tx := some x, hold := .txe 1 3 0 })

theorem witness_TransactionsResolveValidateAndEnd_faults :
    quiet mixed 0 = true ∧ mixed.acting (.team 0 0) = true ∧ teamSat mixed (.team 0 0) (fun t => !t.memBusy && decide (t.hold = .txe 1 3 0)) = true ∧
    txSat mixed (fun x => let z := Tx.recheck mixed (.team 0 0) x
      !mixed.txBlocked (.team 0 0) z && decide (z.wins = [0] ∧ x.allLanes = [0, 1] ∧ (x.lane 0).fault = none ∧ (x.lane 1).fault.isSome = true) &&
        (match mixed.commitLanes (.team 0 0) z z.wins with
         | some s1 => s1.readsHold (.team 0 0) true (x.lane 1) &&
            (let after := ((State.hitVersion (z.wins.foldl (fun s l => s.watchLane (.team 0 0) 0x10000#64 true (x.lane l) l) s1) 0).commitTask 0).1
             quiet after 0 && decide (after.ctxOf (.team 0 0) = 0))
         | none => false)) = true ∧
    txSat (atTxe false 0#8 [(0, true)]) (fun x => decide (x.code 8 0 = 0#32 ∧ AMap.find x.validated 0 = some true ∧ x.ticket ≠ some 0)) = true := by
  decide +kernel

/-- Queues whose first entry is still to be filled, with an error in its source or without. -/
def fetchOf (e : LeadEntry) (fs : List Flaw) : State := { inTeam withLead (fun t => { t with leadQ := [e] }) with flaws := fs }
def ldEntry : LeadEntry := .ld 1 ⟨0, 0x500#64, .glob 0x500, 0#64, 0#64⟩ none 0x10000#64
def obEntry : LeadEntry := .ob 1 2 0x500#64 [(0x500, 64)] 0 64 0x10000#64

theorem witness_LeadQueuesPassWordsInOrder_fetches :
    [ldEntry, obEntry].all (fun e => (fetchOf e []).acting (.team 0 0) && teamSat (fetchOf e []) (.team 0 0) (fun t =>
      decide (t.hold = .none) && (fetchOf e []).ordered (.lead 0 0) t none)) = true ∧
    [ldEntry, obEntry].all (fun e => !Loc.busy (.glob 0x500) (fetchOf e []) 4 && !(fetchOf e []).regionBusy 0x500 64) = true ∧
    (let f : Flaw := { site := .mem 0x502 none, fatal := true }
     (((fetchOf ldEntry [f]).meetFlaws ((fetchOf ldEntry [f]).readsSite (some 0) (.glob 0x500) 4)).2).isSome &&
     (((fetchOf ldEntry []).meetFlaws ((fetchOf ldEntry []).readsSite (some 0) (.glob 0x500) 4)).2).isNone &&
     ((fetchFlaws (fetchOf obEntry [f]) 0 0x500#64 [(0x500, 64)] 0 8).2).isSome &&
     ((fetchFlaws (fetchOf obEntry []) 0 0x500#64 [(0x500, 64)] 0 8).2).isNone) = true ∧
    -- a fetch whose source overlaps a registered range, and one whose source does not
    ((queued 0).overlaps 0 0 [{ ob := false, spd := false, lo := 0, hi := 3, dest := false }] = false) ∧
    (let s := (queued 0).setCore 0 (((queued 0).core 0).register 0 0 0 0 false [{ ob := false, spd := false, lo := 0, hi := 3, dest := true }]).1
     s.overlaps 0 0 [{ ob := false, spd := false, lo := 0, hi := 3, dest := false }] && ready s (.lead 0 0) (.qpushLd hd 4#5) && (s.core 0).lockRoom 1) = true := by
  decide +kernel

/-- The team holds tiles 0 and 1, and its md asks for redundant words. -/
def redundant (f : Core → Core) (busy : Bool) : State :=
  let p : Pend := { id := 0, cls := .tl, done := false, pc := 0#64, md := mdReset, point := 1, kind := .matrix (.mmz true) 0 0xF#1024 false 0 }
  inTeam (tiles.modCore 0 f) (fun t => { t with md := 0x12000060#32, nextId := 1, pend := if busy then [p] else [] })

theorem witness_MatrixWordsQueueOnTheirArray_redundant :
    [redundant id true, redundant id false, redundant (fun c => c.setEntry 0 3 5 (1, 0)) false].all (fun s =>
      ready s (.team 0 0) (.mdrain hd 0#3 0#2 1#2 3#2 4#5) && teamSat s (.team 0 0) (fun t => mdRed t.md && decide (t.partition / 8 = 0) &&
        [0, 1].all (fun n => decide (n / 2 = 0 ∧ AMap.find (s.core 0).holder n = some (0, 0))))) = true ∧
    teamSat (redundant id true) (.team 0 0) (fun t => (pairTiles t.md 0).any t.usesTile) = true ∧
    teamSat (redundant id false) (.team 0 0) (fun t => (pairTiles t.md 0).all (fun n => !t.usesTile n) &&
      decide (((redundant id false).core 0).mismatch 0 (rowList t.matrixRows) = none)) = true ∧
    (let s := redundant (fun c => c.setEntry 0 3 5 (1, 0)) false
     teamSat s (.team 0 0) (fun t => (pairTiles t.md 0).all (fun n => !t.usesTile n) &&
      decide ((s.core 0).mismatch 0 (rowList t.matrixRows) = some 3))) = true := by decide +kernel

theorem witness_MatrixEffectsStayInTheirTiles_values :
    ([3, 7].Nodup ∧ 3 ∈ [3, 7] ∧ 0 ∈ pairTiles mdReset 0 ∧ (∀ i ∈ [3, 7], i < 128) ∧ mdRed mdReset = false) ∧
    (let a : Access := ⟨3, 0x500#64, .glob 0x500, 16#64, 32#64⟩
     a.lane = 3 ∧ a.data.toNat + a.data2.toNat ≤ 2048 ∧ 1 < a.data2.toNat / 16) ∧
    -- rows without a counted entry, and with two
    (span 0 128).all (fun j => decide (((Core.reset 0).entry 0 3 j).1 = 0)) = true ∧
    (let k := ((Core.reset 0).setEntry 0 3 5 (1, 0x3FF0000000000000)).setEntry 0 3 6 (2, 0x4000000000000000)
     (k.entry 0 3 5).1 ≠ 0 ∧ (k.entry 0 3 6).1 ≠ 0 ∧ k.rmax 0 3 = sideMax.toNat ∧ (k.entry 0 3 7).1 = 0) ∧
    ((Core.reset 0).rmax 0 3 = sideMax.toNat ∧ ({ Core.reset 0 with rowMax := [(3, 0x3F800000#32)] } : Core).rmax 0 3 ≠ sideMax.toNat) ∧
    (List.replicate 32 (Machine.Num.absent, Machine.Num.nan)).length = 32 ∧
    (Machine.Num.absent.isAbsent = true ∧ Machine.Num.nan.isAbsent = false) ∧ fmtOf (mdType mdReset) = some fmtF32 ∧ 0 < tyWidth (mdType mdReset) := by
  decide +kernel

theorem witness_ServicesMarksAndCounters_recorded :
    teamSat (one.modCtx 0 (fun k => { k with level := { k.level with recording := true } })) (.team 0 0) (fun t => decide (t.late = [] ∧ t.firstAccess = none)) = true ∧
    teamSat (pending (oneOp .load 4 8 0 0 (.glob 0x500) [])) (.team 0 0) (fun t => decide (t.firstAccess ≠ none)) = true ∧
    (3#7).toNat = 3 ∧ (7#7).toNat = 7 := by decide +kernel

theorem witness_LoadsWriteWhatTheTaskSees_places :
    (let s := pending (oneOp .load 4 8 0 0 (.glob 0x500) [])
     decide (s.only = none ∧ s.isAway (.team 0 0) = false) && teamSat s (.team 0 0) (fun t =>
       !s.linesOut (.team 0 0) t (pendOf (oneOp .load 4 8 0 0 (.glob 0x500) [])))) = true := by decide +kernel

theorem witness_WaitsLinesWalksAndSlots_frames :
    taskSat one (fun k => k.resident) = true ∧
    [(Freeze.frozen, Hold.none), (.frozen, .txe 1 3 0), (.no, .none)].all (fun e =>
      teamSat (inTeam one (fun t => { t with freeze := e.1, hold := e.2, v := [(8 * 1024, 7#32)] })) (.team 0 0) (fun t =>
        decide (t.released = false ∧ 8 * 32 ∈ t.lines ∧ 8 * 32 ∉ t.evicted ∧ (e.1 = .frozen → (t.whole = true ↔ e.2 = .none))))) = true ∧
    ((one.partLines 0 0).length < 512 ∧ one.walkBusy 0 0x10000 = false) := by decide +kernel

/-- A team of core 0 that a step runs, whose word is over or goes on. -/
def stepped (f : Team → Team) : State :=
  let s := stepping .frozen
  let s := s.modSteward 0 (fun x => { x with team := { x.team with hold := .step 0 0 2 0 } })
  { inTeam s f with time := 1000 }

theorem witness_ChunksEndAndStepsTimeOut_steps :
    teamSat recorded (.team 0 0) (fun t => decide (t.late = [])) = true ∧
    (let s := stepped id
     decide ((s.steward 0).team.hold = .step 0 0 2 0 ∧ 1000 ≤ s.time) && teamSat s (.team 0 0) (fun t => decide (t.hold = .none))) = true ∧
    (let s := stepped (fun t => { t with freeze := .no, hold := .bar 1 7 })
     decide ((s.steward 0).team.hold = .step 0 0 2 0 ∧ 1000 ≤ s.time) && teamSat s (.team 0 0) (fun t =>
       s.canIssue (.team 0 0) t && decide (t.hold ≠ .none) && !t.hold.fresh)) = true := by decide +kernel

theorem witness_MatrixWordsCompleteInOrder_turn :
    (let s := taken mdReset (.mmz true) id
     decide (s.only = none ∧ s.isAway (.team 0 0) = false) && teamSat s (.team 0 0) (fun t =>
       (t.pend? 0).any (fun x => !s.linesOut (.team 0 0) t x))) = true ∧
    (let s := taken mdReset (.mld [rowAt 0x800]) id
     !Loc.busy (.glob 0x800) s 512) = true := by decide +kernel

/-- The submission of `submitted`, with steward 2 leading. -/
def led (ctl : Nat) : State := { submitted ctl 1 with leader := { die := some 2, epoch := 1, renewed := 0 } }

theorem witness_PacketsAreAcceptedInTheirTurn_lease :
    ((submitted 0x46 1).leaseOut = true ∧ (led 0x46).leaseOut = false ∧ (led 6).leaseOut = false) ∧
    (((led 0x46).ctx 0).subs = [(1, 0, 3)] ∧ ((led 6).ctx 0).subs = [(1, 0, 3)]) ∧
    -- a packet after one that was rejected, and after one that was not
    [0, 3].all (fun n =>
      let s := (holdingPacket (accepted 3 .accepted copyPkt none)).modCtx 0 (fun k => { k with rejected := AMap.put 0 k.rejected 0 n })
      decide (((((s.ctx 0).packets.filter (fun q => q.1 < 5 && q.2.queue = 0)).getLast?).map (·.1)) = some 1)) = true ∧
    (let s := (taking [])
     decide (nextIncoming s 0 (s.ctx 0).incoming [] = some { queue := 0, addr := 0x3000#64, num := 0, body := some [] })) = true := by decide +kernel

theorem witness_ProloguesRunAndEnd_waits : (launchWith .started none).prologueWaits 0 = false := by decide +kernel

/-- A kernel of one word, in a context with page tables and in one whose tables are empty. -/
def sourced (n : Nat) : State :=
  { (paged one).setCreg 0 oPLWIN 1 with mem := writeNat (paged one).mem 0x22000 8 n }

theorem witness_GridsStartSettleAndComplete_sources (h : textWords 0 0x10000#64 = 1) :
    (match ((paged one).sourceWords 0 0x10000#64).2 with
     | .ok ws => decide (ws.length = 1)
     | .error _ => false) = true ∧
    ((sourced 0).sourceWords 0 0x10000#64).2 = .error .absent ∧
    ((State.setReg (paged one) rBFLIP 0x10001#64).sourceWords 0 0x10000#64).2 = .error .busy := by
  refine ⟨?_, ?_, ?_⟩ <;> unfold State.sourceWords <;> rw [h] <;> decide +kernel

theorem witness_CohortsArePlacedAndEnd_failures :
    taskSat failed (fun k => !failed.recordWaits 0 k && !k.loading) = true ∧
    (let s := failed.modCtx 0 (fun k => { k with heldFaults := [List.replicate 64 0#8] })
     taskSat s (fun k => s.failingGang k && s.recordWaits 0 k)) = true ∧
    (let s := inTeam failed (fun t => { t with pend := [{ pendOf (oneOp .load 4 9 0 0 (.glob 0x500) []) with cls := .ld }] })
     taskSat s (fun k => s.failingGang k && !s.recordWaits 0 k && k.loading)) = true := by decide +kernel

theorem witness_CohortsSwapAndClustersChange_unbound :
    [none, some 0].all (fun w => !(unplaced w).bound 0) = true ∧ noneEmpty.bound 0 = false ∧
    (match crowded.task? 1 with
     | some k => (match (crowded.dropTask 0).grid? k.grid with
       | some x => decide (x.ctx = k.ctx)
       | none => false)
     | none => false) = true := by decide +kernel

theorem witness_StopsFreezeAndRelease_contexts : (0 < 64 ∧ 63 < 64) ∧ (0 < 16 ∧ 15 < 16) := by decide

/-- Context 0 under pre-emption, with a cohort or without. -/
def goneOf (s : State) (v : Nat) : State := (s.setCreg 0 oPREEMPT v).modCtx 0 (fun k => { k with preemptSince := some 0 })

theorem witness_ContextsArePreemptedAndReset_ends :
    ((goneOf one 1).creg 0 oPREEMPT % 2 = 1 ∧ (goneOf one 1).ctxIdle 0 = false ∧ (goneOf State.reset 1).ctxIdle 0 = true) ∧
    [one, State.reset].all (fun s => decide (((goneOf s 1).ctx 0).preemptSince = some 0 ∧ (goneOf s 3).creg 0 oPREEMPT = 3 ∧
      (goneOf s 2).creg 0 oPREEMPT = 2 ∧ (goneOf s 1).time < 0 + 100 * (goneOf s 1).creg 0 oPDEAD)) = true ∧
    (quiet one 0 = true ∧ one.tasks.all (fun e => decide (one.task? e.1 = some e.2)) = true) ∧
    -- a prologue that has come to its halt, and one that has not
    [Hold.halt, .none].all (fun h =>
      (match ((withPrologue.modCtx 0 (fun k => { k with prologue := k.prologue.map (fun q => { q with team := { q.team with hold := h } }) })).ctx 0).prologue with
       | some q => decide (q.team.hold = h)
       | none => false)) = true := by decide +kernel

/-- A recorded context whose snapshot has been asked for. -/
def pausedBy (v : Nat) : State := (recorded.setReg rSNAPREQ (BitVec.ofNat 64 v)).modCtx 0 (fun k => { k with snapPaused := true })

theorem witness_SnapshotsAndReplays_paused :
    ((pausedBy 512).snapCtx = 0 ∧ (pausedBy 512).drained 0 = true ∧ ((pausedBy 512).reg rSNAPREQ).toNat = 0 + 512) ∧
    (((pausedBy 256).ctx 0).snapPaused = true ∧ ((pausedBy 256).reg rSNAPREQ).toNat = 0 + 256) ∧
    -- an anchor with a snapshot and what stands beside it, and one with neither
    (AMap.find anchored.log.snaps 7 = none ∧ AMap.find anchored.log.sides 7 = none) := by decide +kernel

theorem witness_RegistersAreReadAndWritten_rings :
    [(rLRBASE, 8, 0x200000000), (rLRSIZE, 4, 20), (rPWRLIM, 4, 900)].all (fun e => decide (regWidth e.1 = some e.2.1 ∧
      ownEvent State.reset e.1 e.2.2 = false ∧ State.reset.accepts e.1 e.2.2 = true)) = true := by decide +kernel

/-- An answer still to be written. -/
def answering : State := (asking (openBytes 0xFFFF)).modCtx 0 (fun k => { k with answer := some (1, 0) })

/-- What a store of the front end answers. -/
def putsOk (x : State × Fe Bool) : Bool :=
  match x.2 with
  | .ok b => b
  | _ => false

theorem witness_TheLeaderServesRequests_answers :
    [openBytes 0xFFFF, openBytes 7, block 64 [(0, 1, 2), (8, 8, 4)], block 64 [(0, 1, 9)]].all (fun b => ((asking b).ctx 0).answer.isNone) = true ∧
    (steppedReq.ctx 0).answer = none ∧ (waitedOpen.ctx 0).answer = none ∧
    (answering.requestWaits 0 = true ∧ (answering.ctx 0).answer = some (1, 0)) ∧
    (let s := answering
     let q := s.creg 0 oSQHEAD
     let r := s.fePut 0 5 q (0x400 + 0x20) (toBytes 8 0)
     putsOk r && putsOk (r.1.fePut 0 5 q (0x400 + 1) (toBytes 1 1))) = true ∧
    (let s := { answering with regs := (State.setReg answering rBFLIP 1#64).regs }
     putsOk (s.fePut 0 5 0 (0x400 + 0x20) (toBytes 8 0)) = false) := by decide +kernel

theorem witness_PowerClocksAndSpares_resident :
    (let s := (inTeam one id).modTask 0 (fun k => { k with resident := false })
     let s := s.modCore 0 (fun k => { k with retiring := true })
     s.tasks.all (fun e => decide (e.2.core = 0 → e.2.resident = false ∨ e.2.finished = true)) && (s.core 0).retiring) = true := by decide +kernel

/-- Every root port has trained; each port's directory is bare, or every port's is off. -/
def plugged (mode : Nat) : State :=
  { State.reset with pcie := [(0, true), (1, true), (2, true), (3, true)]
                     ioRegs := if mode = 0 then [] else [(4, 1#32), (1028, 1#32), (2052, 1#32), (3076, 1#32)] }

theorem plugged_up (mode : Nat) : (plugged mode).peerUp = true := by
  have h : ∀ n < 4, AMap.get false [(0, true), (1, true), (2, true), (3, true)] n = true := by decide
  exact h _ (Nat.mod_lt _ (by decide))

theorem plugged_bytes (did : Nat) (write : Bool) : ∀ p < 4,
    (plugged 1).ioBytes p did write 0x500 2 = .ok [0x500, 0x501] ∧ (plugged 0).ioBytes p did write 0x500 2 = .error (0x500, 256, true) := by
  intro p hp
  have c : p = 0 ∨ p = 1 ∨ p = 2 ∨ p = 3 := by omega
  rcases c with rfl | rfl | rfl | rfl <;> exact ⟨rfl, rfl⟩

theorem witness_OutsideWritesAndReads_peers (write : Bool) :
    (plugged 1).peerUp = true ∧ (plugged 0).peerUp = true ∧ State.reset.peerUp = false ∧
    (plugged 1).peerAccess 0x500 2 write = .ok [0x500, 0x501] ∧ (∃ s1, (plugged 0).peerAccess 0x500 2 write = .error s1) ∧
    ([0x500, 0x501].all (fun a => !(plugged 1).locHeld none (.glob a) 1 && !(plugged 1).regionBusy a 1) = true) ∧
    (∀ p < 4, (plugged 1).io64 p ioDDTP % 16 = 1) ∧ (∀ p < 4, (plugged 0).io64 p ioDDTP % 16 = 0) ∧
    (plugged 1).reachable 0x500 2 = true ∧ (plugged 0).io 3 ioFQCSR / 2 ^ 16 % 2 = 0 := by
  have a (m : Nat) : (plugged m).peerAccess 0x500 2 write = (match (plugged m).ioBytes ((Config.peerSource (plugged m).tick).1 % 4)
      ((Config.peerSource (plugged m).tick).2 % 2 ^ 24) write 0x500 2 with
    | .ok pas => .ok pas
    | .error (iova, cause, report) => .error (if report then (plugged m).ioFault ((Config.peerSource (plugged m).tick).1 % 4)
        ((Config.peerSource (plugged m).tick).2 % 2 ^ 24) cause iova write else plugged m)) := rfl
  have b (m : Nat) := plugged_bytes ((Config.peerSource (plugged m).tick).2 % 2 ^ 24) write ((Config.peerSource (plugged m).tick).1 % 4)
    (Nat.mod_lt _ (by decide))
  refine ⟨plugged_up 1, plugged_up 0, rfl, ?_, ?_, by decide +kernel, by decide +kernel, by decide +kernel, by decide +kernel, by decide +kernel⟩
  · rw [a, (b 1).1]
  · rw [a, (b 0).2]; exact ⟨_, rfl⟩

theorem witness_AStepRunsTheDecodedWord_turns :
    (let s0 := placedWord.nextMove.2
     let s1 := s0.beforeStart 0 0
     Nat.ble (AMap.get 0 (s1.core 0).busy 0) s1.ac && (pick s1 0 0 (readyTeams s1 0 0)).isSome) = true ∧
    -- a partition that is busy, and one whose only team has yielded its turn
    (let s0 := placedWord.modCore 0 (fun k => { k with busy := [(0, 5)] })
     let s1 := s0.nextMove.2.beforeStart 0 0
     decide (s1.ac < AMap.get 0 (s1.core 0).busy 0)) = true ∧
    (let s0 := inTeam placedWord (fun t => { t with yld := .onTurn false })
     let s1 := s0.nextMove.2.beforeStart 0 0
     let z := s1.endTurns 0 0
     (pick s1 0 0 (readyTeams s1 0 0)).isNone && Nat.ble (AMap.get 0 (s1.core 0).busy 0) s1.ac && (pick z 0 0 (readyTeams z 0 0)).isSome) = true ∧
    -- a partition without teams
    (let s1 := State.beforeStart placedWord.nextMove.2 0 1
     (pick s1 0 1 (readyTeams s1 0 1)).isNone && (pick (s1.endTurns 0 1) 0 1 (readyTeams (s1.endTurns 0 1) 0 1)).isNone) = true ∧
    (let s0 := (State.reset.withFetchWord 32 0xF0040000).nextMove.2
     let s1 := (s0.leadsOf 0).foldl (fun z w => (z.prelude (.lead w.2.1 w.2.2)).joinWait (.lead w.2.1 w.2.2)) s0
     Nat.ble (AMap.get 0 (s1.core 0).busy 32) s1.ac && !((span 1 256).flatMap (fun n => ((s1.leadsOf 0).filter (fun z =>
       begins s1 (.lead z.2.1 z.2.2))).filter (fun z => z.1 = ((s1.core 0).leadLast + n) % 256))).isEmpty) = true ∧
    [Turn.appLoad 0 0x500 4, .regRead 0 4, .upset { site := .mem 8 none, fatal := true }, .accepted 0].all (fun w =>
      decide (State.nextMove { withSteward with agenda := [w] } = (w, { withSteward with agenda := [] })) && withSteward.boot.up && !withSteward.wrapping) = true ∧
    -- a step that goes on, and one that does not
    (stepTimed.stepGoesOn (.dstepTimeout (.steward 0)) = false ∧
      State.stepGoesOn (stepped (fun t => { t with freeze := .no })) (.dstepTimeout (.steward 0)) = true) ∧
    ({ placedWord with wrapping := true } : State).nextMove.1 = .partition 0 0 := by decide +kernel

end Sys2Proof.Tests
end

section
/-!
SUPPORT. What a turn does, said once for each kind of turn: a party's word (R28), a partition's start (R200 to R204), a lead engine's
(R296), and a move of a device that is up, down (R447) or wrapping its lease clock (R269). The statement about a step is assembled
from these.
-/

namespace Sys2Proof.Machine

variable {s s0 s1 : State} {p : Party} {t : Team} {turn : Turn} {i : Instr} {core part : Nat}

/-! ## A party's word -/

theorem State.logged_of_not_replaying (h : s.replaying (s.ctxOf p) = false) : s.logged p = none := by
  cases p <;> simp [State.logged, h]

/-- Outside a replay nothing is met before a word. -/
theorem State.replayTurn_of_not_replaying (h : s.replaying (s.ctxOf p) = false) : s.replayTurn p t = .run := by
  unfold State.replayTurn
  rw [State.logged_of_not_replaying h]
  cases p <;> rfl

/-- A stream without `brk` that no step is running has nothing to end. -/
theorem State.settles_of_free (hb : t.brk = false) (hf : t.freeze = .no) : s.settles p t = false := by
  simp [State.settles, hb, hf]

theorem State.prelude_of_run (ht : s.team? p = some t) (hs : s.settles p t = false) (hr : s.replayTurn p t = .run) :
    s.prelude p = s := by
  simp [State.prelude, ht, hs, hr]

/-- Outside a replay a party that can issue, and has nothing to end, fetches its next word. -/
theorem issueWord_of_ready (ht : s.team? p = some t) (hc : s.canIssue p t = true) (hs : s.settles p t = false)
    (hr : s.replaying (s.ctxOf p) = false) : issueWord s p = fetchWord s p t := by
  simp only [issueWord, ht, hc, hs, State.replayTurn_of_not_replaying hr, hr]
  cases fetchWord s p t <;> rfl

theorem runWord_of_ready (ht : s.team? p = some t) (hc : s.canIssue p t = true) (hs : s.settles p t = false)
    (hr : s.replaying (s.ctxOf p) = false) : runWord s p = fetchWord s p t := by
  rw [runWord, State.prelude_of_run ht hs (State.replayTurn_of_not_replaying hr), issueWord_of_ready ht hc hs hr]

/-- A word in a block that changes its bias is not fetched (R277). -/
theorem fetchWord_of_busy {pa : Nat} (hf : s.fetchAddr p t = (s1, .ok pa)) (hb : s1.regionBusy pa 4 = true) :
    fetchWord s p t = .next s1 := by
  simp [fetchWord, hf, hb]

/-- A word that is fetched runs as the instruction that it decodes to. -/
theorem fetchWord_of_decodes {pa : Nat} {rest : List Byte} (hf : s.fetchAddr p t = (s1, .ok pa)) (hb : s1.regionBusy pa 4 = false)
    (hd : decodeBytes (readBytes s1.mem pa 4) = .ok (i, rest)) :
    fetchWord s p t = s1.noteBegun p i t pa (clearCur (exec i { s1 with cur := some p })) := by
  simp [fetchWord, hf, hb, hd]

/-! ## Partitions and lead engines -/

/-- A partition that is in the passes of an instruction starts nothing (R200). -/
theorem runPartition_of_busy (hs : s.beforeStart core part = s1) (hb : s1.unitBusy core part = true) :
    runPartition s core part = .next s1 := by
  subst hs; simp only [runPartition, hb, if_true]

/-- The team that R202 chooses starts. -/
theorem runPartition_of_pick {x : Nat × Nat × Task × Team} (hs : s.beforeStart core part = s1) (hb : s1.unitBusy core part = false)
    (hx : pick s1 core part (readyTeams s1 core part) = some x) :
    runPartition s core part = startTeam s1 core part (readyTeams s1 core part) x := by
  subst hs; simp only [runPartition, hb, hx, Option.map_some, Bool.false_eq_true, if_false]

/-- Where no team is ready, those that yielded for a turn may go on (R204). -/
theorem runPartition_of_pick_endTurns {x : Nat × Nat × Task × Team} (hs : s.beforeStart core part = s1)
    (hb : s1.unitBusy core part = false) (hn : pick s1 core part (readyTeams s1 core part) = none)
    (hx : pick (s1.endTurns core part) core part (readyTeams (s1.endTurns core part) core part) = some x) :
    runPartition s core part =
      startTeam (s1.endTurns core part) core part (readyTeams (s1.endTurns core part) core part) x := by
  subst hs; simp only [runPartition, hb, hn, hx, Option.map_none, Option.map_some, Bool.false_eq_true, if_false]

theorem runPartition_of_pick_none (hs : s.beforeStart core part = s1) (hn : pick s1 core part (readyTeams s1 core part) = none)
    (hx : pick (s1.endTurns core part) core part (readyTeams (s1.endTurns core part) core part) = none) :
    runPartition s core part = .next s1 := by
  subst hs; simp only [runPartition, hn, hx, Option.map_none, ite_self]

/-- What ends on a core's lead engine before its next start, and its slices that cannot begin come to wait (R201). -/
def State.beforeLead (s : State) (core : Nat) : State :=
  (s.leadsOf core).foldl (fun z w => (z.prelude (.lead w.2.1 w.2.2)).joinWait (.lead w.2.1 w.2.2)) s

/-- The ready slices of a core in the order of R296, from the one after the last that started. -/
def State.leadOrder (s : State) (core : Nat) : List (Nat × Nat × Nat) :=
  (span 1 256).flatMap (fun n => ((s.leadsOf core).filter (fun z => begins s (.lead z.2.1 z.2.2))).filter
    (fun z => z.1 = ((s.core core).leadLast + n) % 256))

/-- A lead engine with a ready slice starts the first of them, unless an instruction is in its passes. -/
theorem runLead_of_cons {y : Nat × Nat × Nat} {ys : List (Nat × Nat × Nat)} (hs : s.beforeLead core = s1)
    (hy : s1.leadOrder core = y :: ys) :
    runLead s core =
      if s1.unitBusy core 32 then .next s1
      else occupy s1 core 32 (.lead y.2.1 y.2.2)
        (issueWord (s1.modCore core (fun k => { k with leadLast := y.1 })) (.lead y.2.1 y.2.2)) := by
  subst hs
  unfold State.leadOrder State.beforeLead at hy
  simp only [runLead, hy]
  rfl

theorem runLead_of_busy {y : Nat × Nat × Nat} {ys : List (Nat × Nat × Nat)} (hs : s.beforeLead core = s1)
    (hy : s1.leadOrder core = y :: ys) (hb : s1.unitBusy core 32 = true) : runLead s core = .next s1 := by
  rw [runLead_of_cons hs hy, if_pos hb]

theorem runLead_of_free {y : Nat × Nat × Nat} {ys : List (Nat × Nat × Nat)} (hs : s.beforeLead core = s1)
    (hy : s1.leadOrder core = y :: ys) (hb : s1.unitBusy core 32 = false) :
    runLead s core = occupy s1 core 32 (.lead y.2.1 y.2.2)
      (issueWord (s1.modCore core (fun k => { k with leadLast := y.1 })) (.lead y.2.1 y.2.2)) := by
  rw [runLead_of_cons hs hy, hb]; rfl

theorem State.unitBusy_of_lt {unit : Nat} (h : s.ac < AMap.get 0 (s.core core).busy unit) : s.unitBusy core unit = true :=
  decide_eq_true h

theorem State.unitBusy_of_le {unit : Nat} (h : AMap.get 0 (s.core core).busy unit ≤ s.ac) : s.unitBusy core unit = false :=
  decide_eq_false (Nat.not_lt.mpr h)

/-! ## Moves of a device that is up -/

@[simp] theorem runUp_regRead {off width : Nat} : runUp s (.regRead off width) = .next (s.readOutside off width) := rfl
@[simp] theorem runUp_upset {f : Flaw} : runUp s (.upset f) = .next { s with flaws := s.flaws ++ [f] } := rfl
@[simp] theorem runUp_accepted {n : Nat} : runUp s (.accepted n) = .next (s.acceptedAbroad n) := rfl

section Running
variable (hw : s.wrapping = false)
include hw

theorem runUp_partition (hc : core < 128) (hp : part < 32) : runUp s (.partition core part) = runPartition s core part := by
  simp [runUp, hw, Nat.mod_eq_of_lt hc, Nat.mod_eq_of_lt hp]

theorem runUp_lead (hc : core < 128) : runUp s (.lead core) = runLead s core := by
  simp [runUp, hw, Nat.mod_eq_of_lt hc]

theorem runUp_prologue {ctx : Nat} (hc : ctx < 64) : runUp s (.prologue ctx) = runWord s (.prologue ctx) := by
  simp [runUp, hw, Nat.mod_eq_of_lt hc]

theorem runUp_steward {die : Nat} (hd : die < 6) : runUp s (.steward die) = runWord s (.steward die) := by
  simp [runUp, hw, Nat.mod_eq_of_lt hd]

theorem runUp_appLoad {agent addr n : Nat} : runUp s (.appLoad agent addr n) = .next (s.appCoreLoad agent addr n) := by
  simp [runUp, hw]

end Running

/-- An event that the lease clock does not hold back runs, unless it would end a step whose own instruction can begin. -/
theorem runUp_event (hi : i.isWord = false) (hw : s.wrapping = false ∨ drains i = true ∨ bringsUp i = true) :
    runUp s (.event i) = if s.stepGoesOn i then .next s else exec i s := by
  have held : (s.wrapping && !drains i && !bringsUp i) = false := by
    rcases hw with hw | hd | hb
    · simp [hw]
    · simp [hd]
    · simp [hb]
  simp only [runUp, hi, held, Bool.false_or]

theorem runUp_part (hi : i.isWord = false) (hw : s.wrapping = false ∨ drains i = true) :
    runUp s (.part i part) = runPart s i part := by
  have held : (s.wrapping && !drains i) = false := by
    rcases hw with hw | hd
    · simp [hw]
    · simp [hd]
  simp [runUp, hi, held]

/-- While the lease clock wraps, words and loads of application cores wait, and so do the events that neither complete what is in
flight nor bring the device up (R269). -/
theorem runUp_of_wrapping {agent addr n : Nat} (hw : s.wrapping = true)
    (ht : (∃ c m, turn = .partition c m) ∨ (∃ c, turn = .lead c ∨ turn = .prologue c ∨ turn = .steward c) ∨
      (∃ f, turn = .event f ∧ drains f = false ∧ bringsUp f = false) ∨ turn = .appLoad agent addr n) :
    runUp s turn = .next s := by
  rcases ht with ⟨c, m, rfl⟩ | ⟨c, rfl | rfl | rfl⟩ | ⟨f, rfl, hd, hb⟩ | rfl
  case inr.inr.inl => simp only [runUp, hw, hd, hb, Bool.not_false, Bool.and_self, Bool.or_true, Bool.true_or, if_true]
  all_goals simp only [runUp, hw, if_true]

/-! ## Steps -/

theorem step_of_up (hm : s.nextMove = (turn, s0)) (hu : s0.boot.up = true) : step s = advanceOut turn s0 (runUp s0 turn) := by
  simp only [step, hm, runTurn, hu, if_true]

theorem step_of_runUp_next (hm : s.nextMove = (turn, s0)) (hu : s0.boot.up = true) (h : runUp s0 turn = .next s1) :
    step s = .next (State.advance turn s0 s1) := by
  rw [step_of_up hm hu, h]; rfl

/-- Before the device is up only the events of R447 do anything. -/
theorem runTurn_of_down (hu : s.boot.up = false) (hb : ∀ i, turn = .event i → bringsUp i = false) : runTurn s turn = .next s := by
  cases turn with
  | event i => simp [runTurn, hu, hb i rfl]
  | _ => simp [runTurn, hu]

theorem step_of_down (hm : s.nextMove = (turn, s0)) (hu : s0.boot.up = false) (hb : ∀ i, turn = .event i → bringsUp i = false) :
    step s = .next (State.advance turn s0 s0) := by
  simp only [step, hm, runTurn_of_down hu hb]; rfl

theorem State.nextMove_cons {ws : List Turn} (h : s.agenda = turn :: ws) : s.nextMove = (turn, { s with agenda := ws }) := by
  simp only [State.nextMove, h]

/-- Settles O56: each clause is the law of its kind of turn, carried through the step by `step_of_up`. -/
theorem aStepRunsTheDecodedWord : Obligations.AStepRunsTheDecodedWord := by
  unfold Obligations.AStepRunsTheDecodedWord
  intro s s0 s1 p t pa n off width agent addr i e rest turn core part x y ys stands
  refine ⟨?word, fun hm hu => ⟨?running, ?event, ?lane, ?regRead, ?upset, ?accepted, ?wrapping⟩, step_of_down,
    fun _ => State.nextMove_cons, rfl, rfl, rfl, rfl⟩
  case word =>
    intro ht hc hb hf hr ha
    rw [runWord_of_ready ht hc (State.settles_of_free hb hf) hr]
    exact ⟨fetchWord_of_busy ha, fetchWord_of_decodes ha⟩
  case running =>
    intro hw
    rw [step_of_up hm hu]
    refine ⟨?prologue, ?steward, ?partition, ?lead, ?appLoad⟩
    case prologue => rintro hc rfl; rw [runUp_prologue hw hc]
    case steward => rintro hc rfl; rw [runUp_steward hw hc]
    case partition =>
      rintro hc hp rfl hs starts z
      rw [runUp_partition hw hc hp]
      refine ⟨fun hb => ?_, fun hb => ⟨fun hx => ?_, fun hn => ⟨fun hx => ?_, fun hx => ?_⟩⟩⟩
      · rw [runPartition_of_busy hs (State.unitBusy_of_lt hb)]; rfl
      · rw [runPartition_of_pick hs (State.unitBusy_of_le hb) hx]; rfl
      · rw [runPartition_of_pick_endTurns hs (State.unitBusy_of_le hb) hn hx]; rfl
      · rw [runPartition_of_pick_none hs hn hx]; rfl
    case lead =>
      rintro hc rfl hs hy
      rw [runUp_lead hw hc]
      refine ⟨fun hb => ?_, fun hb => ?_⟩
      · rw [runLead_of_busy hs hy (State.unitBusy_of_lt hb)]; rfl
      · rw [runLead_of_free hs hy (State.unitBusy_of_le hb)]
    case appLoad => rintro rfl; rw [runUp_appLoad hw]; rfl
  case event =>
    rintro rfl hi hw
    rw [step_of_up hm hu, runUp_event hi hw]
    exact ⟨fun h => by rw [h]; rfl, fun h => by rw [h]; rfl⟩
  case lane => rintro rfl hi hw; rw [step_of_up hm hu, runUp_part hi hw]
  case regRead => rintro rfl; exact step_of_runUp_next hm hu runUp_regRead
  case upset => rintro f rfl; exact step_of_runUp_next hm hu runUp_upset
  case accepted => rintro rfl; exact step_of_runUp_next hm hu runUp_accepted
  case wrapping => exact fun hw ht => step_of_runUp_next hm hu (runUp_of_wrapping hw ht)

end Sys2Proof.Machine
end

section
/-!
SUPPORT. The meaning that the dispatch gives each pair word, predicate word and cross-lane word (R90 to R92, R112 to R118), and the
statements about pairs and predicates, which are those meanings read back.
-/

namespace Sys2Proof.Machine

section Arms
variable {s : State} {h : Hdr} {d a c : BitVec 7} {pd pa pc : BitVec 4} {k o : BitVec 3} {m so : BitVec 2} {n : BitVec 5} {n6 : BitVec 6}

theorem exec_add64 : exec (.add64 h d a c) s = execAdd64 h d a c s := by rfl
theorem exec_sub64 : exec (.sub64 h d a c) s = execSub64 h d a c s := by rfl
theorem exec_lea : exec (.lea h d a c) s = execLea h d a c s := by rfl
theorem exec_shl64 : exec (.shl64 h d a n6) s = execShl64 h d a n6 s := by rfl
theorem exec_shr64 : exec (.shr64 h d a n6) s = execShr64 h d a n6 s := by rfl

theorem exec_icmp : exec (.icmp h pd k a c) s = execIcmp h pd k a c s := by rfl
theorem exec_ucmp : exec (.ucmp h pd k a c) s = execUcmp h pd k a c s := by rfl
theorem exec_pand : exec (.pand h pd pa pc) s = execPand h pd pa pc s := by rfl
theorem exec_por : exec (.por h pd pa pc) s = execPor h pd pa pc s := by rfl
theorem exec_pxor : exec (.pxor h pd pa pc) s = execPxor h pd pa pc s := by rfl
theorem exec_pnot : exec (.pnot h pd pa) s = execPnot h pd pa s := by rfl
theorem exec_pset : exec (.pset h pd a) s = execPset h pd a s := by rfl
theorem exec_pget : exec (.pget h d pa) s = execPget h d pa s := by rfl

theorem exec_voteAny : exec (.voteAny h pd pa) s = execVoteAny h pd pa s := by rfl
theorem exec_voteAll : exec (.voteAll h pd pa) s = execVoteAll h pd pa s := by rfl
theorem exec_voteUni : exec (.voteUni h pd pa) s = execVoteUni h pd pa s := by rfl
theorem exec_voteBallot : exec (.voteBallot h d pa) s = execVoteBallot h d pa s := by rfl
theorem exec_matchLanes : exec (.matchLanes h d a) s = execMatchLanes h d a s := by rfl
theorem exec_elect : exec (.elect h pd pa) s = execElect h pd pa s := by rfl
theorem exec_cntp : exec (.cntp h d pa) s = execCntp h d pa s := by rfl
theorem exec_shfl : exec (.shfl h d a m n) s = execShfl h d a m n s := by rfl
theorem exec_tred : exec (.tred h d a o) s = execTred h d a o s := by rfl
theorem exec_scan : exec (.scan h d a so) s = execScan h d a so s := by rfl

end Arms

/-- Settles O5: each word stores the pair that its form computes from the stream it finds. -/
theorem pairWordsComputeTheirResult : Obligations.PairWordsComputeTheirResult := by
  unfold Obligations.PairWordsComputeTheirResult
  intro s p t h d a c n A C
  exact ⟨computesPair_of _ exec_add64 rfl, computesPair_of _ exec_sub64 rfl, computesPair_of _ exec_lea rfl,
    computesPair_of _ exec_shl64 rfl, computesPair_of _ exec_shr64 rfl⟩

/-- Settles O6: a compare applies the condition of its code to both operands as integers, and the predicate group its connective. -/
theorem predicateWordsComputeTheirResult : Obligations.PredicateWordsComputeTheirResult := by
  unfold Obligations.PredicateWordsComputeTheirResult
  intro s p t h pd pa pc k d a c hpd A C cond
  have differs (x y : Bool) : xor x y = (x != y) := by cases x <;> cases y <;> rfl
  have nonzero (w : Word) : decide (w ≠ 0#32) = (w != 0#32) := by by_cases hw : w = 0#32 <;> simp [hw]
  refine ⟨computesPred_of _ hpd exec_icmp rfl, computesPred_of _ hpd exec_ucmp rfl, computesPred_of _ hpd exec_pand rfl,
    computesPred_of _ hpd exec_por rfl, computesPred_of _ hpd exec_pxor ?_, computesPred_of _ hpd exec_pnot rfl,
    computesPred_of _ hpd exec_pset ?_, computes_of _ exec_pget rfl⟩
  · simp only [predOp, differs, Team.opened_predAt]
  · exact congrArg _ (funext fun l => nonzero _)

end Sys2Proof.Machine
end

section
/-!
SUPPORT. What reset and a team's start leave (R20, R21, R208), and the words written out from the encodings (R40 to R46).
-/

namespace Sys2Proof.Machine

/-- The reset value of a register of any context's page, by its offset in the page. -/
def pageReset (o : Nat) : Word64 :=
  if o = oFRCTL || o = oSRCTL then 6#64
  else if o = oSWTHR then 20#64
  else if o = oPDEAD then 50000#64
  else if o = oSQCTL then 4#64
  else if 0x100 ≤ o && o < 0x300 && o % 0x20 = 8 then 6#64
  else 0#64

theorem regReset_ctxPage {c o : Nat} (ho : o < 0x10000) : regReset (ctxPage c o) = pageReset o := by
  have page : ctxPage c o % 0x10000 = o := by unfold ctxPage; omega
  have outside {r : Nat} (hr : r < 0x100000) : ctxPage c o ≠ r := by unfold ctxPage; omega
  have high : ¬ ctxPage c o < 0x100000 := by unfold ctxPage; omega
  simp only [regReset, outside (r := rVPSIZE) (by decide), outside (r := rPLSIZE) (by decide), outside (r := rLRSIZE) (by decide),
    outside (r := rMDEVNO) (by decide), outside (r := rPWRLIM) (by decide), high, page, if_false]
  rfl

theorem State.creg_reset {c o : Nat} (ho : o < 0x10000) : State.reset.creg c o = (pageReset o).toNat := by
  rw [← regReset_ctxPage ho]; rfl

theorem pageReset_queueControl {q : Nat} (hq : q < 16) : pageReset (oQCTL q) = 6#64 := by
  revert q; decide

theorem Team.start_mask (st : Stream) (role index budget : Nat) (entry : Word64) (md : Word) {groups l : Nat} (hl : l < 1024) :
    (Team.start st role index groups budget entry md).mask.getLsbD l = decide (l < 32 * groups) := by
  simp only [Team.start, BitVec.getLsbD_ofNat, hl, decide_true, Bool.true_and, Nat.testBit_two_pow_sub_one]

/-- Settles O60: a context's register is read off its page, and a team's lanes off the number of its groups. -/
theorem resetAndTeamStartValues : Obligations.ResetAndTeamStartValues := by
  unfold Obligations.ResetAndTeamStartValues
  intro r
  refine ⟨by rfl, fun a => rfl, rfl, rfl, rfl, ⟨rfl, rfl⟩, ⟨rfl, rfl, rfl, rfl, rfl⟩, ?regs, rfl, ?team⟩
  case regs =>
    intro c _
    have page {o : Nat} (ho : o < 0x10000) : r.creg c o = (pageReset o).toNat := State.creg_reset ho
    refine ⟨page (by decide), page (by decide), page (by decide), page (by decide), page (by decide), page (by decide), page (by decide),
      fun q hq => ?_⟩
    rw [page (by unfold oQCTL; omega), pageReset_queueControl hq]
    rfl
  case team =>
    intro st role index groups budget entry md n l t hg
    refine ⟨rfl, rfl, rfl, fun hl => ?p0, fun h1 h8 => ?pn, rfl, ?slot, rfl, rfl, rfl, rfl, rfl, rfl, rfl, rfl,
      fun hl => Team.start_mask _ _ _ _ _ _ hl⟩
    case p0 => simp only [Team.predAt, Team.pmask, allLanes, if_true, BitVec.getLsbD_allOnes, hl, decide_true]
    case pn =>
      have hn : n ≠ 0 := by omega
      simp [Team.predAt, Team.pmask, hn, h8, t, Team.start, AMap.get, AMap.find]
    case slot =>
      unfold Team.slotJ
      split <;> rfl

theorem decode_of_no_major {n : Nat} (h : n < 2 ^ 26) : decode (BitVec.ofNat 32 n) = .illegalOp (BitVec.ofNat 32 n) := by
  have hn : (BitVec.ofNat 32 n).toNat = n := Nat.mod_eq_of_lt (by omega)
  have hm : n / 2 ^ 26 = 0 := Nat.div_eq_of_lt h
  simp only [decode, decodeNat, hn, hm]

theorem decodeBytes_word {b0 b1 b2 b3 : Byte} {rest : List Byte} :
    decodeBytes (b0 :: b1 :: b2 :: b3 :: rest) = .ok (decode (b3 ++ b2 ++ b1 ++ b0), rest) := by
  have append {k : Nat} (x : BitVec k) (y : Byte) : (x ++ y).toNat = x.toNat * 2 ^ 8 + y.toNat := by
    rw [BitVec.toNat_append, ← Nat.shiftLeft_add_eq_or_of_lt y.isLt, Nat.shiftLeft_eq]
  have e : (b3 ++ b2 ++ b1 ++ b0).toNat = b0.toNat + b1.toNat * 2 ^ 8 + b2.toNat * 2 ^ 16 + b3.toNat * 2 ^ 24 := by
    simp only [append]
    ring
  rw [decode, e]
  rfl

/-- Settles O57: each word is decoded by evaluation; a word below 2^26 names no major. -/
theorem specWordsDecode : Obligations.SpecWordsDecode := by
  unfold Obligations.SpecWordsDecode
  intro h
  refine ⟨by rfl, by rfl, by rfl, by rfl, by rfl, by rfl, by rfl, by rfl, by rfl, ?_, by rfl, fun n hn => decode_of_no_major hn⟩
  rw [decodeBytes_word]
  rfl

end Sys2Proof.Machine
end

section
/-!
SUPPORT. The words of the instruction set read as layouts: from bit 0 up, each operand and each run of fixed bits in its place (R9, R13,
R40 to R46). The encoder writes an instruction's layout, and a word that reads as a layout is the word it spells; the decoder's rows ask
for the fixed bits of a layout. Both directions of the round trip are read off these.
-/

namespace Sys2Proof

/-! ## Words spelled by slots -/

/-- What stands in a place of a word: an operand, or fixed bits. -/
inductive Slot where
  | op {w : Nat} (v : BitVec w)
  | fix {w : Nat} (v : BitVec w)

/-- Bits that a slot takes. -/
def Slot.width : Slot → Nat
  | .op (w := w) _ => w
  | .fix (w := w) _ => w

/-- The slot's bits as a number. -/
def Slot.toNat : Slot → Nat
  | .op v => v.toNat
  | .fix v => v.toNat

theorem Slot.toNat_lt (x : Slot) : x.toNat < 2 ^ x.width := by
  cases x with
  | op v => exact v.isLt
  | fix v => exact v.isLt

/-- The word whose slots from bit 0 up are given, with what stands above them. -/
def spell : List Slot → Nat → Nat
  | [], r => r
  | x :: xs, r => x.toNat + 2 ^ x.width * spell xs r

/-- Bits that slots take. -/
def widths : List Slot → Nat
  | [] => 0
  | x :: xs => x.width + widths xs

/-- A word reads as slots from a bit up: each operand stands in its field, and each run of fixed bits in its place. -/
def Reads (n : Nat) : Nat → List Slot → Prop
  | _, [] => True
  | lo, .op (w := w) v :: xs => fieldAt w n lo = v ∧ Reads n (lo + w) xs
  | lo, .fix (w := w) v :: xs => n / 2 ^ lo % 2 ^ w = v.toNat ∧ Reads n (lo + w) xs

theorem fieldAt_eq_iff {w n lo : Nat} {v : BitVec w} : fieldAt w n lo = v ↔ n / 2 ^ lo % 2 ^ w = v.toNat := by
  rw [fieldAt, ← BitVec.toNat_inj, BitVec.toNat_ofNat, Nat.mod_mod]

theorem reads_cons {n lo : Nat} {x : Slot} {xs : List Slot} :
    Reads n lo (x :: xs) ↔ n / 2 ^ lo % 2 ^ x.width = x.toNat ∧ Reads n (lo + x.width) xs := by
  cases x with
  | op v => rw [Reads, fieldAt_eq_iff]; rfl
  | fix v => rfl

/-- A word that reads as slots is spelled by them below what stands above them. -/
theorem spell_of_reads {n : Nat} (xs : List Slot) {lo : Nat} (h : Reads n lo xs) :
    spell xs (n / 2 ^ (lo + widths xs)) = n / 2 ^ lo := by
  induction xs generalizing lo with
  | nil => rfl
  | cons x xs ih =>
    obtain ⟨hx, hxs⟩ := reads_cons.mp h
    rw [spell, widths, ← Nat.add_assoc, ih hxs, ← hx, Nat.pow_add, ← Nat.div_div_eq_div_mul, Nat.mod_add_div]

/-- A word spelled by slots reads as them, and above them stands what was put there. -/
theorem reads_of_spell {n r : Nat} (xs : List Slot) {lo : Nat} (h : n / 2 ^ lo = spell xs r) :
    Reads n lo xs ∧ n / 2 ^ (lo + widths xs) = r := by
  induction xs generalizing lo with
  | nil => exact ⟨trivial, h⟩
  | cons x xs ih =>
    have hx : n / 2 ^ lo % 2 ^ x.width = x.toNat := by
      rw [h, spell, Nat.add_mul_mod_self_left, Nat.mod_eq_of_lt x.toNat_lt]
    have hup : n / 2 ^ (lo + x.width) = spell xs r := by
      rw [Nat.pow_add, ← Nat.div_div_eq_div_mul, h, spell, Nat.add_mul_div_left _ _ (Nat.two_pow_pos _),
        Nat.div_eq_of_lt x.toNat_lt, Nat.zero_add]
    obtain ⟨hxs, hr⟩ := ih hup
    exact ⟨reads_cons.mpr ⟨hx, hxs⟩, by rw [widths, ← Nat.add_assoc, hr]⟩

/-! ## The header, and the encoder's words -/

/-- The slots of B [21] and SEQ [25:22] (R9). -/
def Hdr.slots (h : Hdr) : List Slot := [.fix (BitVec.ofBool h.b), .op h.seq]

theorem reads_hdrSlots_iff {n : Nat} {h : Hdr} : Reads n 21 h.slots ↔ hdrAt n = h := by
  obtain ⟨seq, b⟩ := h
  have hb : n / 2 ^ 21 % 2 ^ 1 = (BitVec.ofBool b).toNat ↔ decide (n / 2 ^ 21 % 2 = 1) = b := by
    rcases Nat.mod_two_eq_zero_or_one (n / 2 ^ 21) with e | e <;> cases b <;> simp
  simp only [Reads, Hdr.slots, hdrAt, Hdr.mk.injEq, hb, and_true, Nat.reduceAdd]
  exact and_comm

/-- Fixed bits, with those of slots that begin at a bit. -/
def fixedBits : Nat → Nat → List Slot → Nat
  | acc, _, [] => acc
  | acc, lo, .op (w := w) _ :: xs => fixedBits acc (lo + w) xs
  | acc, lo, .fix (w := w) v :: xs => fixedBits (acc + v.toNat * 2 ^ lo) (lo + w) xs

/-- The operand fields of slots that begin at a bit, the highest first. -/
def operands : Nat → List Slot → List (Nat × Nat)
  | _, [] => []
  | lo, .op (w := w) v :: xs => operands (lo + w) xs ++ [(v.toNat, lo)]
  | lo, .fix (w := w) _ :: xs => operands (lo + w) xs

theorem packFields_append_one {fs : List (Nat × Nat)} {v lo : Nat} :
    packFields (fs ++ [(v, lo)]) = packFields fs + v * 2 ^ lo := by
  induction fs with
  | nil => simp [packFields]
  | cons f fs ih => simp only [List.cons_append, packFields, ih, Nat.add_assoc]

/-- Slots are their fixed bits and their operand fields. -/
theorem spell_eq (xs : List Slot) (acc lo r : Nat) :
    acc + 2 ^ lo * spell xs r = fixedBits acc lo xs + packFields (operands lo xs) + 2 ^ (lo + widths xs) * r := by
  induction xs generalizing acc lo with
  | nil => rfl
  | cons x xs ih =>
    cases x with
    | @op w v =>
      simp only [spell, Slot.toNat, Slot.width, fixedBits, operands, packFields_append_one, widths, ← Nat.add_assoc]
      linear_combination ih acc (lo + w)
    | @fix w v =>
      simp only [spell, Slot.toNat, Slot.width, fixedBits, operands, widths, ← Nat.add_assoc, ← ih]
      ring

/-- A word whose fixed bits and operand fields are those of slots is spelled by them, its header and its major opcode. -/
theorem wordOf_eq_spell {xs : List Slot} {h : Hdr} {major : Nat} (hw : widths xs = 21) :
    wordOf (fixedBits (major * 2 ^ 26) 0 xs) h (operands 0 xs) = spell xs (spell h.slots major) := by
  have e := spell_eq xs (major * 2 ^ 26) 0 (spell h.slots major)
  have hb : (if h.b = true then 2 ^ 21 else 0) = 2 ^ 21 * (BitVec.ofBool h.b).toNat := by cases h.b <;> rfl
  have ht : 2 ^ 21 * spell h.slots major = major * 2 ^ 26 + hdrNat h := by
    simp only [Hdr.slots, spell, Slot.toNat, Slot.width, hdrNat, hb]
    ring
  rw [hw, Nat.zero_add, ht, Nat.pow_zero, Nat.one_mul] at e
  rw [wordOf]
  omega

/-- The major opcode of each word and its slots from bit 0 up; an unassigned word and an event have none. -/
def Instr.layout : Instr → Nat × List Slot
  | .nop _ => (1, [.fix 0#14, .fix 0#7])
  | .jmov _ j a => (1, [.fix 0#5, .op a, .op j, .fix 1#7])
  | .jget _ d j => (1, [.fix 0#5, .op j, .op d, .fix 2#7])
  | .lset _ a => (1, [.fix 0#7, .op a, .fix 3#7])
  | .lsetImm _ n => (1, [.op n, .fix 4#7])
  | .lbrk _ => (1, [.fix 0#14, .fix 5#7])
  | .msetLo _ v => (1, [.op v, .fix 0#2, .fix 6#7])
  | .msetFl _ v => (1, [.op v, .fix 1#2, .fix 6#7])
  | .msetHi _ v => (1, [.op v, .fix 0#4, .fix 2#2, .fix 6#7])
  | .mput _ a => (1, [.fix 0#7, .op a, .fix 7#7])
  | .mget _ d => (1, [.fix 0#7, .op d, .fix 8#7])
  | .tile _ w => (1, [.op w, .fix 0#11, .fix 9#7])
  | .sreg _ d n => (1, [.op n, .op d, .fix 10#7])
  | .rdlane _ d a => (1, [.op a, .op d, .fix 11#7])
  | .jset _ j i => (2, [.op i, .op j])
  | .movi _ d i => (3, [.op i, .op d])
  | .movhi _ d i => (4, [.op i, .op d])
  | .iaddi _ d a i => (5, [.op i, .op a, .op d])
  | .mov _ d a => (6, [.fix 0#7, .op a, .op d])
  | .popc _ d a => (6, [.fix 1#7, .op a, .op d])
  | .clz _ d a => (6, [.fix 2#7, .op a, .op d])
  | .ctz _ d a => (6, [.fix 3#7, .op a, .op d])
  | .brev _ d a => (6, [.fix 4#7, .op a, .op d])
  | .pand _ d a c => (7, [.fix 0#2, .op c, .op a, .op d, .fix 0#7])
  | .por _ d a c => (7, [.fix 0#2, .op c, .op a, .op d, .fix 1#7])
  | .pxor _ d a c => (7, [.fix 0#2, .op c, .op a, .op d, .fix 2#7])
  | .pnot _ d a => (7, [.fix 0#6, .op a, .op d, .fix 3#7])
  | .pset _ d a => (7, [.fix 0#3, .op a, .op d, .fix 4#7])
  | .pget _ d p => (7, [.fix 0#3, .op p, .op d, .fix 5#7])
  | .ldB32 _ d a o => (8, [.op o, .op a, .op d])
  | .ldB64 _ d a o => (9, [.op o, .op a, .op d])
  | .stB32 _ d a o => (10, [.op o, .op a, .op d])
  | .stB64 _ d a o => (11, [.op o, .op a, .op d])
  | .ldsB32 _ d a o => (12, [.op o, .op a, .op d])
  | .stsB32 _ d a o => (13, [.op o, .op a, .op d])
  | .ldAcqB32 _ c d a => (14, [.op a, .op d, .op c, .fix 0#4])
  | .ldScB32 _ c d a => (14, [.op a, .op d, .op c, .fix 1#4])
  | .ldAcqB64 _ c d a => (14, [.op a, .op d, .op c, .fix 2#4])
  | .ldScB64 _ c d a => (14, [.op a, .op d, .op c, .fix 3#4])
  | .ldsAcq _ c d a => (14, [.op a, .op d, .op c, .fix 4#4])
  | .ldsSc _ c d a => (14, [.op a, .op d, .op c, .fix 5#4])
  | .stRelB32 _ c d a => (14, [.op a, .op d, .op c, .fix 8#4])
  | .stScB32 _ c d a => (14, [.op a, .op d, .op c, .fix 9#4])
  | .stRelB64 _ c d a => (14, [.op a, .op d, .op c, .fix 10#4])
  | .stScB64 _ c d a => (14, [.op a, .op d, .op c, .fix 11#4])
  | .stsRel _ c d a => (14, [.op a, .op d, .op c, .fix 12#4])
  | .stsSc _ c d a => (14, [.op a, .op d, .op c, .fix 13#4])
  | .ldB8 _ d a => (15, [.op a, .op d, .fix 0#7])
  | .ldB16 _ d a => (15, [.op a, .op d, .fix 1#7])
  | .ldS8 _ d a => (15, [.op a, .op d, .fix 2#7])
  | .ldS16 _ d a => (15, [.op a, .op d, .fix 3#7])
  | .stB8 _ d a => (15, [.op a, .op d, .fix 4#7])
  | .stB16 _ d a => (15, [.op a, .op d, .fix 5#7])
  | .ldsB8 _ d a => (15, [.op a, .op d, .fix 8#7])
  | .ldsB16 _ d a => (15, [.op a, .op d, .fix 9#7])
  | .ldsS8 _ d a => (15, [.op a, .op d, .fix 10#7])
  | .ldsS16 _ d a => (15, [.op a, .op d, .fix 11#7])
  | .stsB8 _ d a => (15, [.op a, .op d, .fix 12#7])
  | .stsB16 _ d a => (15, [.op a, .op d, .fix 13#7])
  | .ldsB64 _ d a => (15, [.op a, .op d, .fix 14#7])
  | .stsB64 _ d a => (15, [.op a, .op d, .fix 15#7])
  | .ldkB32 _ d a => (15, [.op a, .op d, .fix 16#7])
  | .ldkB64 _ d a => (15, [.op a, .op d, .fix 17#7])
  | .stkB32 _ d a => (15, [.op a, .op d, .fix 18#7])
  | .stkB64 _ d a => (15, [.op a, .op d, .fix 19#7])
  | .ldr _ d a => (15, [.op a, .op d, .fix 24#7])
  | .str _ d a => (15, [.op a, .op d, .fix 25#7])
  | .ldargB8 _ d a => (15, [.op a, .op d, .fix 32#7])
  | .ldargB16 _ d a => (15, [.op a, .op d, .fix 33#7])
  | .ldargB32 _ d a => (15, [.op a, .op d, .fix 34#7])
  | .ldargB64 _ d a => (15, [.op a, .op d, .fix 35#7])
  | .iadd _ d a c => (16, [.op c, .op a, .op d])
  | .isub _ d a c => (17, [.op c, .op a, .op d])
  | .imul _ d a c => (18, [.op c, .op a, .op d])
  | .imulh _ d a c => (19, [.op c, .op a, .op d])
  | .andB _ d a c => (20, [.op c, .op a, .op d])
  | .orB _ d a c => (21, [.op c, .op a, .op d])
  | .xorB _ d a c => (22, [.op c, .op a, .op d])
  | .andnB _ d a c => (23, [.op c, .op a, .op d])
  | .shl _ d a c => (24, [.op c, .op a, .op d])
  | .shr _ d a c => (25, [.op c, .op a, .op d])
  | .sar _ d a c => (26, [.op c, .op a, .op d])
  | .rot _ d a c => (27, [.op c, .op a, .op d])
  | .bfx _ d a c => (28, [.op c, .op a, .op d])
  | .bfi _ d a c => (29, [.op c, .op a, .op d])
  | .sel _ d a c => (30, [.op c, .op a, .op d])
  | .lea _ d a c => (31, [.op c, .op a, .op d])
  | .add64 _ d a c => (32, [.op c, .op a, .op d])
  | .sub64 _ d a c => (33, [.op c, .op a, .op d])
  | .shl64 _ d a n => (34, [.op n, .fix 0#1, .op a, .op d])
  | .shr64 _ d a n => (34, [.op n, .fix 1#1, .op a, .op d])
  | .icmp _ p k a c => (35, [.op c, .op a, .op k, .op p])
  | .ucmp _ p k a c => (36, [.op c, .op a, .op k, .op p])
  | .addT _ d a c => (37, [.op c, .op a, .op d])
  | .subT _ d a c => (38, [.op c, .op a, .op d])
  | .mulT _ d a c => (39, [.op c, .op a, .op d])
  | .minT _ d a c => (40, [.op c, .op a, .op d])
  | .maxT _ d a c => (41, [.op c, .op a, .op d])
  | .divT _ d a c => (42, [.op c, .op a, .op d])
  | .dot _ d a c => (43, [.op c, .op a, .op d])
  | .fcmp _ p k a c => (44, [.op c, .op a, .op k, .op p])
  | .classify _ p a m => (45, [.op m, .op a, .fix 0#3, .op p])
  | .absT _ d a => (46, [.fix 0#7, .op a, .op d])
  | .negT _ d a => (46, [.fix 1#7, .op a, .op d])
  | .sqrt _ d a => (46, [.fix 2#7, .op a, .op d])
  | .rcp _ d a => (46, [.fix 3#7, .op a, .op d])
  | .rsq _ d a => (46, [.fix 4#7, .op a, .op d])
  | .exp2 _ d a => (46, [.fix 5#7, .op a, .op d])
  | .log2 _ d a => (46, [.fix 6#7, .op a, .op d])
  | .sinpi _ d a => (46, [.fix 7#7, .op a, .op d])
  | .cospi _ d a => (46, [.fix 8#7, .op a, .op d])
  | .mkabs _ d a => (46, [.fix 9#7, .op a, .op d])
  | .fma _ d a c => (47, [.op c, .op a, .op d])
  | .fmaN _ d a c => (48, [.op c, .op a, .op d])
  | .cvt _ d a t => (49, [.op t, .fix 0#3, .op a, .op d])
  | .cvtmx _ d a => (49, [.fix 0#4, .fix 1#3, .op a, .op d])
  | .cvtmxH16 _ d a => (49, [.fix 1#4, .fix 1#3, .op a, .op d])
  | .cvtmxH32 _ d a => (49, [.fix 2#4, .fix 1#3, .op a, .op d])
  | .pack _ d a => (49, [.fix 8#4, .fix 1#3, .op a, .op d])
  | .unpack _ d a => (49, [.fix 9#4, .fix 1#3, .op a, .op d])
  | .voteAny _ p q => (50, [.fix 0#3, .fix 0#4, .op q, .fix 0#6, .op p])
  | .voteAll _ p q => (50, [.fix 1#3, .fix 0#4, .op q, .fix 0#6, .op p])
  | .voteBallot _ d q => (50, [.fix 2#3, .fix 0#4, .op q, .fix 0#3, .op d])
  | .voteUni _ p q => (50, [.fix 3#3, .fix 0#4, .op q, .fix 0#6, .op p])
  | .tred _ d a o => (50, [.op o, .fix 1#4, .op a, .op d])
  | .scan _ d a o => (50, [.op o, .fix 0#1, .fix 2#4, .op a, .op d])
  | .matchLanes _ d a => (50, [.fix 0#3, .fix 3#4, .op a, .op d])
  | .elect _ p q => (50, [.fix 1#3, .fix 3#4, .op q, .fix 0#6, .op p])
  | .cntp _ d q => (50, [.fix 2#3, .fix 3#4, .op q, .fix 0#3, .op d])
  | .shfl _ d a m n => (51, [.op n, .op m, .op a, .op d])
  | .wait _ l e p t => (52, [.op t, .op p, .op e, .op l])
  | .fence _ o c => (53, [.fix 0#8, .op c, .op o, .fix 0#7])
  | .vcommit _ => (53, [.fix 0#14, .fix 1#7])
  | .park _ k n a c => (53, [.op c, .op a, .op n, .op k, .fix 2#7])
  | .bararr _ i n => (53, [.fix 0#6, .op n, .op i, .fix 3#7])
  | .barwait _ i n => (53, [.fix 0#6, .op n, .op i, .fix 4#7])
  | .gbar _ i => (53, [.fix 0#12, .op i, .fix 5#7])
  | .txbCoh _ => (53, [.fix 0#14, .fix 8#7])
  | .txbDev _ => (53, [.fix 0#14, .fix 9#7])
  | .txe _ p d => (53, [.fix 0#3, .op d, .op p, .fix 10#7])
  | .txa _ c => (53, [.fix 0#6, .op c, .fix 11#7])
  | .pref _ a l => (53, [.fix 0#4, .op l, .op a, .fix 16#7])
  | .cctl _ a o => (53, [.fix 0#4, .op o, .op a, .fix 17#7])
  | .atomScratchpad _ d a o r => (54, [.op r, .op o, .op a, .op d])
  | .atomRlx _ d a o c => (55, [.op c, .op o, .op a, .op d])
  | .atomAcq _ d a o c => (56, [.op c, .op o, .op a, .op d])
  | .atomRel _ d a o c => (57, [.op c, .op o, .op a, .op d])
  | .atomAr _ d a o c => (58, [.op c, .op o, .op a, .op d])
  | .atomSc _ d a o c => (59, [.op c, .op o, .op a, .op d])
  | .mredAdd _ d a c => (55, [.op c, .fix 13#4, .op a, .op d])
  | .mredAddRel _ d a c => (57, [.op c, .fix 13#4, .op a, .op d])
  | .mredFadd _ d a c => (55, [.op c, .fix 14#4, .op a, .op d])
  | .mredFaddRel _ d a c => (57, [.op c, .fix 14#4, .op a, .op d])
  | .tcopy _ a p => (60, [.fix 0#6, .op p, .op a, .fix 0#7])
  | .chain _ a p => (60, [.fix 0#6, .op p, .op a, .fix 1#7])
  | .obres _ n c => (60, [.fix 0#4, .op c, .op n, .fix 8#7])
  | .obset _ n a => (60, [.fix 0#4, .op a, .op n, .fix 9#7])
  | .obrel _ n => (60, [.fix 0#9, .op n, .fix 10#7])
  | .leadN _ n => (60, [.fix 0#9, .op n, .fix 16#7])
  | .qpushVal _ a => (60, [.fix 0#7, .op a, .fix 0#2, .fix 17#7])
  | .qpushLd _ a => (60, [.fix 0#7, .op a, .fix 1#2, .fix 17#7])
  | .qpushOb _ a n => (60, [.fix 0#2, .op n, .op a, .fix 2#2, .fix 17#7])
  | .qpop _ d => (60, [.fix 0#7, .op d, .fix 18#7])
  | .coll _ a p => (60, [.fix 0#6, .op p, .op a, .fix 24#7])
  | .launch _ a => (60, [.fix 0#7, .op a, .fix 32#7])
  | .msend _ a c => (60, [.fix 0#4, .op c, .op a, .fix 40#7])
  | .mrecv _ a c => (60, [.fix 0#4, .op c, .op a, .fix 41#7])
  | .mres _ t => (61, [.fix 0#11, .op t, .fix 0#7])
  | .mrel _ t => (61, [.fix 0#11, .op t, .fix 1#7])
  | .mmz _ t s => (61, [.fix 0#10, .op s, .op t, .fix 2#7])
  | .mld _ t a => (61, [.op a, .fix 0#6, .op t, .fix 3#7])
  | .mma _ t a b => (61, [.fix 0#1, .op b, .op a, .op t, .fix 8#7])
  | .mmaTile _ t s c b => (61, [.fix 1#1, .op b, .op c, .op s, .op t, .fix 8#7])
  | .mdrain _ t k n o i => (61, [.op i, .op o, .op n, .op k, .op t, .fix 16#7])
  | .smx _ t c => (61, [.op c, .fix 0#6, .op t, .fix 24#7])
  | .sexp _ t c => (61, [.op c, .fix 0#6, .op t, .fix 25#7])
  | .srsc _ o s => (61, [.fix 0#8, .op s, .op o, .fix 26#7])
  | .trap _ c => (62, [.fix 0#6, .op c, .fix 0#7])
  | .sysReq _ c a => (62, [.fix 0#1, .op a, .op c, .fix 1#7])
  | .rdclk _ d => (62, [.fix 0#7, .op d, .fix 2#7])
  | .rdtime _ d => (62, [.fix 0#7, .op d, .fix 3#7])
  | .mark _ n => (62, [.op n, .fix 4#7])
  | .csrr _ d c => (62, [.op c, .fix 0#2, .op d, .fix 8#7])
  | .csrw _ a c => (62, [.op c, .fix 0#2, .op a, .fix 9#7])
  | .probe _ d a => (62, [.fix 0#4, .op a, .op d, .fix 10#7])
  | .pcnt _ d n => (62, [.op n, .op d, .fix 11#7])
  | .dstep _ d a => (62, [.fix 0#4, .op a, .op d, .fix 12#7])
  | .halt _ => (62, [.fix 0#14, .fix 13#7])
  | _ => (0, [])

theorem encodeNat_of_layout {i : Instr} {h : Hdr} {major : Nat} {xs : List Slot} (hl : i.layout = (major, xs)) (hw : widths xs = 21)
    (he : encodeNat i = wordOf (fixedBits (major * 2 ^ 26) 0 xs) h (operands 0 xs)) :
    encodeNat i = spell i.layout.2 (spell h.slots i.layout.1) := by
  rw [he, hl, wordOf_eq_spell hw]

/-- The encoder writes an instruction's layout. -/
theorem encodeNat_eq_spell {i : Instr} {h : Hdr} (hh : i.hdr? = some h) :
    encodeNat i = spell i.layout.2 (spell h.slots i.layout.1) := by
  cases i
  all_goals cases hh
  all_goals exact encodeNat_of_layout rfl rfl rfl

/-! ## Every word is the word of what it decodes to -/

/-- A word that reads as the layout of an instruction with its own header is the word of that instruction. -/
theorem encodeNat_of_reads {i : Instr} {n major : Nat} {xs : List Slot} (hh : i.hdr? = some (hdrAt n)) (hl : i.layout = (major, xs))
    (hw : widths xs = 21) (hm : n / 2 ^ 26 = major) (hr : Reads n 0 xs) : encodeNat i = n := by
  have ht : spell (hdrAt n).slots major = n / 2 ^ 21 := by rw [← hm]; exact spell_of_reads _ (reads_hdrSlots_iff.mpr rfl)
  have hn : spell xs (n / 2 ^ 21) = n := by rw [← hw, ← Nat.zero_add (widths xs), spell_of_reads _ hr, Nat.pow_zero, Nat.div_one]
  rw [encodeNat_eq_spell hh, hl, ht, hn]

theorem encodeNat_illegalOp {n : Nat} (hn : n < 2 ^ 32) : encodeNat (.illegalOp (BitVec.ofNat 32 n)) = n :=
  Nat.mod_eq_of_lt hn

/-- A row of a decoder's table stands for its words if it does when its condition holds and the rows below it do. -/
theorem encodeNat_ite {c : Prop} [Decidable c] {i j : Instr} {n : Nat} (hj : encodeNat j = n) (hi : c → encodeNat i = n) :
    encodeNat (if c then i else j) = n := by
  split
  · exact hi ‹c›
  · exact hj

section Windows
variable {n k : Nat}

/-- A window has a value when its upper and its lower part have theirs. -/
theorem window_eq_iff (lo w w' : Nat) :
    n / 2 ^ lo % 2 ^ (w + w') = k ↔ n / 2 ^ (lo + w) % 2 ^ w' = k / 2 ^ w ∧ n / 2 ^ lo % 2 ^ w = k % 2 ^ w := by
  have hq : n / 2 ^ lo % 2 ^ (w + w') / 2 ^ w = n / 2 ^ (lo + w) % 2 ^ w' := by
    rw [Nat.pow_add, Nat.mod_mul_right_div_self, Nat.div_div_eq_div_mul, ← Nat.pow_add]
  have hr : n / 2 ^ lo % 2 ^ (w + w') % 2 ^ w = n / 2 ^ lo % 2 ^ w := by
    rw [Nat.pow_add, Nat.mod_mul_right_mod]
  constructor
  · rintro rfl; exact ⟨hq.symm, hr.symm⟩
  · rintro ⟨e, e'⟩
    rw [← Nat.div_add_mod (n / 2 ^ lo % 2 ^ (w + w')) (2 ^ w), hq, hr, e, e', Nat.div_add_mod]

/-! The windows of the decoders' rows that reach across slots, cut where the slots meet. -/

theorem operands_eq_iff : n / 2 ^ 0 % 2 ^ 21 = k ↔ n / 2 ^ 14 % 2 ^ 7 = k / 16384 ∧ n / 2 ^ 0 % 2 ^ 14 = k % 16384 :=
  window_eq_iff 0 14 7

theorem upper9_eq_iff : n / 2 ^ 12 % 2 ^ 9 = k ↔ n / 2 ^ 14 % 2 ^ 7 = k / 4 ∧ n / 2 ^ 12 % 2 ^ 2 = k % 4 :=
  window_eq_iff 12 2 7

theorem upper13_eq_iff : n / 2 ^ 8 % 2 ^ 13 = k ↔ n / 2 ^ 12 % 2 ^ 9 = k / 16 ∧ n / 2 ^ 8 % 2 ^ 4 = k % 16 :=
  window_eq_iff 8 4 9

theorem upper18_eq_iff : n / 2 ^ 3 % 2 ^ 18 = k ↔ n / 2 ^ 14 % 2 ^ 7 = k / 2048 ∧ n / 2 ^ 3 % 2 ^ 11 = k % 2048 :=
  window_eq_iff 3 11 7

theorem low7_eq_iff_of_convert : n / 2 ^ 0 % 2 ^ 7 = k ↔ n / 2 ^ 4 % 2 ^ 3 = k / 16 ∧ n / 2 ^ 0 % 2 ^ 4 = k % 16 :=
  window_eq_iff 0 4 3

theorem low7_eq_iff_of_crossLane : n / 2 ^ 0 % 2 ^ 7 = k ↔ n / 2 ^ 3 % 2 ^ 4 = k / 8 ∧ n / 2 ^ 0 % 2 ^ 3 = k % 8 :=
  window_eq_iff 0 3 4

theorem scan_eq_iff : n / 2 ^ 2 % 2 ^ 5 = k ↔ n / 2 ^ 3 % 2 ^ 4 = k / 2 ∧ n / 2 ^ 2 % 2 ^ 1 = k % 2 :=
  window_eq_iff 2 1 4

end Windows

/-- Every word is the word of what it decodes to: each row's condition is the fixed bits of the layout of its instruction. -/
theorem encodeNat_decodeNat {n : Nat} (hn : n < 2 ^ 32) : encodeNat (decodeNat n) = n := by
  unfold decodeNat decodeControl decodeUnary decodePredicate decodeOrdered decodeMemory decodeMajor22 decodeMajor2D decodeTypedUnary
    decodeConvert decodeCrossLane decodeSync decodeAtomRlx decodeAtomRel decodeEngine decodeMatrix decodeSystem
  split
  -- Majors 1, 49, 50, 53, 60 and 62 ask for bits that reach across slots: their windows are cut where the slots meet.
  case' h_1 | h_53 | h_60 | h_62 =>
    simp only [operands_eq_iff, upper9_eq_iff, upper13_eq_iff, upper18_eq_iff, Nat.reduceDiv, Nat.reduceMod]
  case' h_49 => simp only [low7_eq_iff_of_convert, Nat.reduceDiv, Nat.reduceMod]
  case' h_50 => simp only [low7_eq_iff_of_crossLane, scan_eq_iff, Nat.reduceDiv, Nat.reduceMod]
  all_goals repeat refine encodeNat_ite ?_ (fun h => ?_)
  any_goals exact encodeNat_illegalOp hn
  all_goals
    refine encodeNat_of_reads rfl rfl rfl ‹_› ?_
    simp only [Reads, Nat.reduceAdd, BitVec.reduceToNat, and_self, *]

end Sys2Proof
end

section
/-!
SUPPORT. Decoding the word of an instruction (R40, R41): the decoder of each major opcode gives back the instruction whose layout a word
reads as, and the statement of the round trip.
-/

namespace Sys2Proof

section Rows
variable {i : Instr} {n : Nat} {xs : List Slot}

/-! Each decoder gives back the instruction whose layout a word reads as: the layout's fixed bits refute the rows above the instruction's,
and hold in its own. -/

theorem decodeControl_of_reads (hh : i.hdr? = some (hdrAt n)) (hl : i.layout = (1, xs)) (hr : Reads n 0 xs) : decodeControl n = i := by
  simp only [decodeControl, operands_eq_iff, upper9_eq_iff, upper13_eq_iff, upper18_eq_iff, Nat.reduceDiv, Nat.reduceMod]
  cases i
  all_goals cases hl
  all_goals
    cases hh
    simp only [Reads, Nat.reduceAdd, BitVec.reduceToNat] at hr
    simp +decide only [hr, reduceIte, and_true, and_false, false_and]

theorem decodeUnary_of_reads (hh : i.hdr? = some (hdrAt n)) (hl : i.layout = (6, xs)) (hr : Reads n 0 xs) : decodeUnary n = i := by
  simp only [decodeUnary]
  cases i
  all_goals cases hl
  all_goals
    cases hh
    simp only [Reads, Nat.reduceAdd, BitVec.reduceToNat] at hr
    simp +decide only [hr, reduceIte]

theorem decodePredicate_of_reads (hh : i.hdr? = some (hdrAt n)) (hl : i.layout = (7, xs)) (hr : Reads n 0 xs) : decodePredicate n = i := by
  simp only [decodePredicate]
  cases i
  all_goals cases hl
  all_goals
    cases hh
    simp only [Reads, Nat.reduceAdd, BitVec.reduceToNat] at hr
    simp +decide only [hr, reduceIte, and_true, and_false]

theorem decodeOrdered_of_reads (hh : i.hdr? = some (hdrAt n)) (hl : i.layout = (14, xs)) (hr : Reads n 0 xs) : decodeOrdered n = i := by
  simp only [decodeOrdered]
  cases i
  all_goals cases hl
  all_goals
    cases hh
    simp only [Reads, Nat.reduceAdd, BitVec.reduceToNat] at hr
    simp +decide only [hr, reduceIte]

theorem decodeMemory_of_reads (hh : i.hdr? = some (hdrAt n)) (hl : i.layout = (15, xs)) (hr : Reads n 0 xs) : decodeMemory n = i := by
  simp only [decodeMemory]
  cases i
  all_goals cases hl
  all_goals
    cases hh
    simp only [Reads, Nat.reduceAdd, BitVec.reduceToNat] at hr
    simp +decide only [hr, reduceIte]

theorem decodeMajor22_of_reads (hh : i.hdr? = some (hdrAt n)) (hl : i.layout = (34, xs)) (hr : Reads n 0 xs) : decodeMajor22 n = i := by
  simp only [decodeMajor22]
  cases i
  all_goals cases hl
  all_goals
    cases hh
    simp only [Reads, Nat.reduceAdd, BitVec.reduceToNat] at hr
    simp +decide only [hr, reduceIte]

theorem decodeMajor2D_of_reads (hh : i.hdr? = some (hdrAt n)) (hl : i.layout = (45, xs)) (hr : Reads n 0 xs) : decodeMajor2D n = i := by
  simp only [decodeMajor2D]
  cases i
  all_goals cases hl
  all_goals
    cases hh
    simp only [Reads, Nat.reduceAdd, BitVec.reduceToNat] at hr
    simp +decide only [hr, reduceIte]

theorem decodeTypedUnary_of_reads (hh : i.hdr? = some (hdrAt n)) (hl : i.layout = (46, xs)) (hr : Reads n 0 xs) :
    decodeTypedUnary n = i := by
  simp only [decodeTypedUnary]
  cases i
  all_goals cases hl
  all_goals
    cases hh
    simp only [Reads, Nat.reduceAdd, BitVec.reduceToNat] at hr
    simp +decide only [hr, reduceIte]

theorem decodeConvert_of_reads (hh : i.hdr? = some (hdrAt n)) (hl : i.layout = (49, xs)) (hr : Reads n 0 xs) : decodeConvert n = i := by
  simp only [decodeConvert, low7_eq_iff_of_convert, Nat.reduceDiv, Nat.reduceMod]
  cases i
  all_goals cases hl
  all_goals
    cases hh
    simp only [Reads, Nat.reduceAdd, BitVec.reduceToNat] at hr
    simp +decide only [hr, reduceIte, and_true, and_false, false_and]

theorem decodeCrossLane_of_reads (hh : i.hdr? = some (hdrAt n)) (hl : i.layout = (50, xs)) (hr : Reads n 0 xs) : decodeCrossLane n = i := by
  simp only [decodeCrossLane, low7_eq_iff_of_crossLane, scan_eq_iff, Nat.reduceDiv, Nat.reduceMod]
  cases i
  all_goals cases hl
  all_goals
    cases hh
    simp only [Reads, Nat.reduceAdd, BitVec.reduceToNat] at hr
    simp +decide only [hr, reduceIte, and_true, and_false, false_and]

theorem decodeSync_of_reads (hh : i.hdr? = some (hdrAt n)) (hl : i.layout = (53, xs)) (hr : Reads n 0 xs) : decodeSync n = i := by
  simp only [decodeSync, operands_eq_iff, Nat.reduceDiv, Nat.reduceMod]
  cases i
  all_goals cases hl
  all_goals
    cases hh
    simp only [Reads, Nat.reduceAdd, BitVec.reduceToNat] at hr
    simp +decide only [hr, reduceIte, and_true, and_false, false_and]

theorem decodeEngine_of_reads (hh : i.hdr? = some (hdrAt n)) (hl : i.layout = (60, xs)) (hr : Reads n 0 xs) : decodeEngine n = i := by
  simp only [decodeEngine, upper9_eq_iff, Nat.reduceDiv, Nat.reduceMod]
  cases i
  all_goals cases hl
  all_goals
    cases hh
    simp only [Reads, Nat.reduceAdd, BitVec.reduceToNat] at hr
    simp +decide only [hr, reduceIte, and_true, and_false, false_and]

theorem decodeMatrix_of_reads (hh : i.hdr? = some (hdrAt n)) (hl : i.layout = (61, xs)) (hr : Reads n 0 xs) : decodeMatrix n = i := by
  simp only [decodeMatrix]
  cases i
  all_goals cases hl
  all_goals
    cases hh
    simp only [Reads, Nat.reduceAdd, BitVec.reduceToNat] at hr
    simp +decide only [hr, reduceIte, and_true, and_false]

theorem decodeSystem_of_reads (hh : i.hdr? = some (hdrAt n)) (hl : i.layout = (62, xs)) (hr : Reads n 0 xs) : decodeSystem n = i := by
  simp only [decodeSystem, operands_eq_iff, Nat.reduceDiv, Nat.reduceMod]
  cases i
  all_goals cases hl
  all_goals
    cases hh
    simp only [Reads, Nat.reduceAdd, BitVec.reduceToNat] at hr
    simp +decide only [hr, reduceIte, and_true, and_false]

/-- The codes of the two `mred` operations are no atomic operation's (R45). -/
theorem ite_mred_eq {α : Type} {n lo : Nat} {o : BitVec 4} {x y z : α} (ho : fieldAt 4 n lo = o) (hs : o.toNat ≤ 12) :
    (if n / 2 ^ lo % 2 ^ 4 = 13 then x else if n / 2 ^ lo % 2 ^ 4 = 14 then y else z) = z := by
  rw [fieldAt_eq_iff.mp ho, if_neg (by omega), if_neg (by omega)]

theorem decodeAtomRlx_of_reads (hs : i.selects = true) (hh : i.hdr? = some (hdrAt n)) (hl : i.layout = (55, xs)) (hr : Reads n 0 xs) :
    decodeAtomRlx n = i := by
  cases i
  all_goals cases hl
  all_goals cases hh
  case atomRlx =>
    obtain ⟨rfl, ho, rfl, rfl, -⟩ := hr
    rw [decodeAtomRlx, ite_mred_eq ho (of_decide_eq_true hs), ho]
  all_goals
    simp only [Reads, Nat.reduceAdd, BitVec.reduceToNat] at hr
    simp +decide only [decodeAtomRlx, hr, reduceIte]

theorem decodeAtomRel_of_reads (hs : i.selects = true) (hh : i.hdr? = some (hdrAt n)) (hl : i.layout = (57, xs)) (hr : Reads n 0 xs) :
    decodeAtomRel n = i := by
  cases i
  all_goals cases hl
  all_goals cases hh
  case atomRel =>
    obtain ⟨rfl, ho, rfl, rfl, -⟩ := hr
    rw [decodeAtomRel, ite_mred_eq ho (of_decide_eq_true hs), ho]
  all_goals
    simp only [Reads, Nat.reduceAdd, BitVec.reduceToNat] at hr
    simp +decide only [decodeAtomRel, hr, reduceIte]

end Rows

/-- What the decoder gives for every word with an instruction's layout and header, it gives for the instruction's word. -/
theorem decode_encode_of_reads {i : Instr} {h : Hdr} {major : Nat} {xs : List Slot} (hh : i.hdr? = some h) (hl : i.layout = (major, xs))
    (hw : widths xs = 21) (hmajor : major < 2 ^ 6)
    (hd : ∀ n, n / 2 ^ 26 = major → hdrAt n = h → Reads n 0 xs → decodeNat n = i) : decode (encode i) = i := by
  have he : encodeNat i / 2 ^ 0 = spell xs (spell h.slots major) := by rw [encodeNat_eq_spell hh, hl, Nat.pow_zero, Nat.div_one]
  obtain ⟨hxs, hup⟩ := reads_of_spell xs he
  rw [hw, Nat.zero_add] at hup
  obtain ⟨hhdr, hm : encodeNat i / 2 ^ 26 = major⟩ := reads_of_spell h.slots hup
  have hlt : encodeNat i < 2 ^ 32 := by omega
  rw [decode, encode, BitVec.toNat_ofNat, Nat.mod_eq_of_lt hlt]
  exact hd _ hm (reads_hdrSlots_iff.mp hhdr) hxs

/-- A word with a header that its operation code fits decodes to itself. -/
theorem decode_encode {i : Instr} {h : Hdr} (hh : i.hdr? = some h) (hs : i.selects = true) : decode (encode i) = i := by
  cases i
  all_goals cases hh
  all_goals
    refine decode_encode_of_reads rfl rfl rfl (by decide) (fun n hm hhdr hr => ?_)
    subst hhdr
    unfold decodeNat
    rw [hm]
  case nop | jmov | jget | lset | lsetImm | lbrk | msetLo | msetFl | msetHi | mput | mget | tile | sreg | rdlane =>
    show decodeControl n = _; exact decodeControl_of_reads rfl rfl hr
  case mov | popc | clz | ctz | brev =>
    show decodeUnary n = _; exact decodeUnary_of_reads rfl rfl hr
  case pand | por | pxor | pnot | pset | pget =>
    show decodePredicate n = _; exact decodePredicate_of_reads rfl rfl hr
  case ldAcqB32 | ldScB32 | ldAcqB64 | ldScB64 | ldsAcq | ldsSc | stRelB32 | stScB32 | stRelB64 | stScB64 | stsRel | stsSc =>
    show decodeOrdered n = _; exact decodeOrdered_of_reads rfl rfl hr
  case ldB8 | ldB16 | ldS8 | ldS16 | stB8 | stB16 | ldsB8 | ldsB16 | ldsS8 | ldsS16 | stsB8 | stsB16 | ldsB64 | stsB64 | ldkB32 | ldkB64
      | stkB32 | stkB64 | ldr | str | ldargB8 | ldargB16 | ldargB32 | ldargB64 =>
    show decodeMemory n = _; exact decodeMemory_of_reads rfl rfl hr
  case shl64 | shr64 =>
    show decodeMajor22 n = _; exact decodeMajor22_of_reads rfl rfl hr
  case classify =>
    show decodeMajor2D n = _; exact decodeMajor2D_of_reads rfl rfl hr
  case absT | negT | sqrt | rcp | rsq | exp2 | log2 | sinpi | cospi | mkabs =>
    show decodeTypedUnary n = _; exact decodeTypedUnary_of_reads rfl rfl hr
  case cvt | cvtmx | cvtmxH16 | cvtmxH32 | pack | unpack =>
    show decodeConvert n = _; exact decodeConvert_of_reads rfl rfl hr
  case voteAny | voteAll | voteBallot | voteUni | tred | scan | matchLanes | elect | cntp =>
    show decodeCrossLane n = _; exact decodeCrossLane_of_reads rfl rfl hr
  case fence | vcommit | park | bararr | barwait | gbar | txbCoh | txbDev | txe | txa | pref | cctl =>
    show decodeSync n = _; exact decodeSync_of_reads rfl rfl hr
  case tcopy | chain | obres | obset | obrel | leadN | qpushVal | qpushLd | qpushOb | qpop | coll | launch | msend | mrecv =>
    show decodeEngine n = _; exact decodeEngine_of_reads rfl rfl hr
  case mres | mrel | mmz | mld | mma | mmaTile | mdrain | smx | sexp | srsc =>
    show decodeMatrix n = _; exact decodeMatrix_of_reads rfl rfl hr
  case trap | sysReq | rdclk | rdtime | mark | csrr | csrw | probe | pcnt | dstep | halt =>
    show decodeSystem n = _; exact decodeSystem_of_reads rfl rfl hr
  case jset | movi | movhi =>
    obtain ⟨rfl, rfl, -⟩ := hr; rfl
  case iaddi | ldB32 | ldB64 | stB32 | stB64 | ldsB32 | stsB32 | iadd | isub | imul | imulh | andB | orB | xorB | andnB | shl | shr |
      sar | rot | bfx | bfi | sel | lea | add64 | sub64 | addT | subT | mulT | minT | maxT | divT | dot | fma | fmaN =>
    obtain ⟨rfl, rfl, rfl, -⟩ := hr; rfl
  case icmp | ucmp | fcmp | shfl | wait | atomScratchpad | atomAcq | atomAr | atomSc =>
    obtain ⟨rfl, rfl, rfl, rfl, -⟩ := hr; rfl
  case atomRlx | mredAdd | mredFadd =>
    show decodeAtomRlx n = _; exact decodeAtomRlx_of_reads hs rfl rfl hr
  case atomRel | mredAddRel | mredFaddRel =>
    show decodeAtomRel n = _; exact decodeAtomRel_of_reads hs rfl rfl hr

/-- Settles O58: the word of an instruction reads as its layout, and every word reads as the layout of what it decodes to. -/
theorem decodeOfEncodeIsTheInstruction : Obligations.DecodeOfEncodeIsTheInstruction := by
  unfold Obligations.DecodeOfEncodeIsTheInstruction
  refine ⟨fun i hw => ?_, fun w => ?_⟩
  · obtain ⟨⟨-, hseq⟩, hs⟩ : (i.isWord = true ∧ i.seqListed = true) ∧ i.selects = true := by
      simpa only [Instr.wellFormed, Bool.and_eq_true] using hw
    cases hh : i.hdr? with
    | some h => exact decode_encode hh hs
    | none => simp [Instr.seqListed, hh] at hseq
  · rw [encode, decode, encodeNat_decodeNat w.isLt, BitVec.ofNat_toNat, BitVec.setWidth_eq]

end Sys2Proof
end

section
/-!
SUPPORT. What storing a party's stream leaves as it was (R20): every other stream, and every part of the state that holds no stream.
-/

namespace Sys2Proof.Machine

/-- The parts of tasks and contexts beside their streams are those of a state. -/
structure State.SameBeside (s' s : State) : Prop where
  tasks : ∀ n, (s'.task? n).map (fun k => { k with teams := [], leads := [] }) =
    (s.task? n).map (fun k => { k with teams := [], leads := [] })
  ctxs : ∀ c, { s'.ctx c with prologue := none } = { s.ctx c with prologue := none }

variable {s s' s'' : State} {p q : Party} {v : Team}

theorem State.SameBeside.trans (h : s''.SameBeside s') (h' : s'.SameBeside s) : s''.SameBeside s :=
  ⟨fun n => (h.tasks n).trans (h'.tasks n), fun c => (h.ctxs c).trans (h'.ctxs c)⟩

theorem State.modTask_sameBeside {n : Nat} {f : Task → Task}
    (hf : ∀ k, { f k with teams := [], leads := [] } = { k with teams := [], leads := [] }) : (s.modTask n f).SameBeside s where
  tasks m := by
    rw [State.task?_modTask]
    split
    · cases s.task? m <;> simp [hf]
    · rfl
  ctxs c := by
    unfold State.modTask
    cases s.task? n <;> rfl

theorem State.modCtx_sameBeside {c : Nat} {f : Ctx → Ctx} (hf : ∀ k, { f k with prologue := none } = { k with prologue := none }) :
    (s.modCtx c f).SameBeside s where
  tasks _ := rfl
  ctxs d := by
    rw [State.modCtx, State.ctx_setCtx]
    split
    · subst d; exact hf _
    · rfl

theorem State.setTeam_sameBeside : (s.setTeam p v).SameBeside s := by
  cases p with
  | team n o | lead n o => exact State.modTask_sameBeside fun _ => rfl
  | prologue c => rw [State.setTeam]; exact State.modCtx_sameBeside fun _ => rfl
  | steward d => exact ⟨fun _ => rfl, fun _ => rfl⟩

theorem State.countIssue_sameBeside : (s.countIssue p).SameBeside s := by
  cases p with
  | team n o | lead n o | steward d => exact ⟨fun _ => rfl, fun _ => rfl⟩
  | prologue c => rw [State.countIssue]; exact State.modCtx_sameBeside fun _ => rfl

theorem State.setTeam_countIssue_sameElse :
    { (s.countIssue p).setTeam p v with tasks := s.tasks, ctxs := s.ctxs, stewards := s.stewards } = s := by
  cases p with
  | team n o | lead n o =>
    simp only [State.setTeam, State.countIssue, State.modTask]
    cases s.task? n <;> rfl
  | prologue c => rfl
  | steward d => rfl

theorem State.countIssue_mem : (s.countIssue p).mem = s.mem := by
  cases p <;> rfl

/-- Counting an issued word changes no stream. -/
theorem State.team?_countIssue : (s.countIssue p).team? q = s.team? q := by
  cases p with
  | team n o | lead n o | steward d => rfl
  | prologue c =>
    cases q with
    | team n o | lead n o | steward d => rfl
    | prologue d =>
      simp only [State.team?, State.countIssue, State.modCtx, State.ctx_setCtx]
      split
      · subst d; cases (s.ctx c).prologue <;> rfl
      · rfl

/-- Changing a task changes no stream but those that the change itself writes. -/
theorem State.team?_modTask {n : Nat} {f : Task → Task}
    (hteams : ∀ k o, q = .team n o → AMap.find (f k).teams o = AMap.find k.teams o)
    (hleads : ∀ k o, q = .lead n o → AMap.find (f k).leads o = AMap.find k.leads o) : (s.modTask n f).team? q = s.team? q := by
  cases q with
  | team m o =>
    simp only [State.team?, State.task?_modTask]
    split
    · subst m; cases s.task? n <;> simp [hteams _ o rfl]
    · rfl
  | lead m o =>
    simp only [State.team?, State.task?_modTask]
    split
    · subst m; cases s.task? n <;> simp [hleads _ o rfl]
    · rfl
  | prologue c | steward d =>
    simp only [State.team?, State.modTask]
    cases s.task? n <;> rfl

/-- Storing a stream changes no other. -/
theorem State.team?_setTeam_of_ne (h : q ≠ p) : (s.setTeam p v).team? q = s.team? q := by
  cases p with
  | team n o =>
    refine State.team?_modTask (fun k o' e => ?_) (fun _ _ _ => rfl)
    have ho : o' ≠ o := fun ho => h (by rw [e, ho])
    rw [AMap.find_set, if_neg ho]
  | lead n o =>
    refine State.team?_modTask (fun _ _ _ => rfl) (fun k o' e => ?_)
    have ho : o' ≠ o := fun ho => h (by rw [e, ho])
    rw [AMap.find_set, if_neg ho]
  | prologue c =>
    cases q with
    | team m o | lead m o | steward d => rfl
    | prologue d =>
      have hd : d ≠ c := fun hd => h (by rw [hd])
      simp only [State.team?, State.setTeam, State.modCtx, State.ctx_setCtx, if_neg hd]
  | steward e =>
    cases q with
    | team m o | lead m o | prologue c => rfl
    | steward d =>
      have hd : d ≠ e := fun hd => h (by rw [hd])
      simp only [State.team?, State.setTeam, State.modSteward, State.steward_setSteward, if_neg hd]

theorem State.steward_setTeam {d : Nat} : { (s.setTeam p v).steward d with team := v } = { s.steward d with team := v } := by
  cases p with
  | team n o | lead n o =>
    simp only [State.setTeam, State.steward, State.modTask]
    cases s.task? n <;> rfl
  | prologue c => rfl
  | steward e =>
    simp only [State.setTeam, State.modSteward, State.steward_setSteward]
    split
    · subst d; rfl
    · rfl

theorem State.steward_countIssue {d : Nat} : (s.countIssue p).steward d = s.steward d := by
  cases p <;> rfl

/-- Settles O54: the word's own stream is stored and nothing more happens, for nothing holds the stream and it is not settled further. -/
theorem wordsLeaveTheRestOfTheMachine : Obligations.WordsLeaveTheRestOfTheMachine := by
  unfold Obligations.WordsLeaveTheRestOfTheMachine
  intro s p q t u v i h a ht hc hv hh hp
  have hcount : (s.countIssue p).team? p = some t := by rw [State.team?_countIssue, ht]
  have hstored : ((s.countIssue p).setTeam p v).team? p = some v := State.team?_setTeam _ p t v hcount
  have hbeside : ((s.countIssue p).setTeam p v).SameBeside s := State.setTeam_sameBeside.trans State.countIssue_sameBeside
  refine ⟨(s.countIssue p).setTeam p v, ?_, hstored, fun hq => ?_, ?_, State.setTeam_countIssue_sameElse, hbeside.tasks, hbeside.ctxs,
    fun d => ?_⟩
  · rw [hc v hv, State.settle_plain _ p v hstored hh hp.free hp.going hp.calm]
  · rw [State.team?_setTeam_of_ne hq, State.team?_countIssue]
  · rw [State.setTeam_mem, State.countIssue_mem]
  · rw [State.steward_setTeam, State.steward_countIssue]

end Sys2Proof.Machine
end

section
/-!
SUPPORT. What every word does before its own effect (R48, R51): the one shared operation and its checks in their order.
-/

namespace Sys2Proof.Machine

/-- Every word is issued (R48): its meaning is the shared operation with an effect of its own. -/
theorem exec_eq_issue {i : Instr} (hw : i.isWord = true) (s : State) : ∃ h eff, exec i s = issue i h s eff := by
  cases i
  all_goals cases hw
  all_goals
    delta exec
    dsimp only [
      execNop, execJmov, execJget, execMsetLo, execMsetFl, execMsetHi, execMget, execTile, execRdlane, execJset, execMovi, execMovhi,
      execIaddi, execMov, execPopc, execClz, execCtz, execBrev, execPand, execPor, execPxor, execPnot, execPset, execPget, execIadd,
      execIsub, execImul, execImulh, execAndB, execOrB, execXorB, execAndnB, execShl, execShr, execSar, execRot, execBfx, execBfi,
      execSel, execLea, execAdd64, execSub64, execShl64, execShr64, execIcmp, execUcmp, execAddT, execSubT, execMulT, execMinT,
      execMaxT, execDivT, execDot, execFcmp, execClassify, execAbsT, execNegT, execSqrt, execRcp, execRsq, execExp2, execLog2,
      execSinpi, execCospi, execMkabs, execFma, execFmaN, execCvt, execCvtmx, execCvtmxH16, execCvtmxH32, execPack, execUnpack,
      execVoteAny, execVoteAll, execVoteBallot, execVoteUni, execTred, execScan, execMatchLanes, execElect, execCntp, execShfl, execTxa]
    exact ⟨_, _, rfl⟩

section Checks
variable {i : Instr} {s : State} {p : Party} {t : Team} {h : Hdr}

/-! ## The checks in their order (R48) -/

theorem failedCheck_of_unlisted (hc : i.selects = false ∨ streamOk t.stream i = false ∨ codesListed t.stream i = false) :
    failedCheck i t = some 16 := by
  have hb : (!i.selects || !streamOk t.stream i || !codesListed t.stream i) = true := by
    rcases hc with h | h | h <;> simp [h]
  unfold failedCheck
  cases i.hdr? with
  | none => rfl
  | some h => simp only [hb, if_true]

/-- A listed word of its stream comes to the checks of its sequencing code, its registers and its mode. -/
theorem failedCheck_of_listed (hh : i.hdr? = some h) (h1 : i.selects = true) (h2 : streamOk t.stream i = true)
    (h3 : codesListed t.stream i = true) :
    failedCheck i t =
      if !seqAllowed t.stream h.seq.toNat then some 17
      else if !regsOk t.single1 t.budget (uses (mdType t.md) i) then some 19
      else if !modeOk t.md t.tw i then some 18
      else if !(spans t.md i).all (spanOk t.budget) then some 19
      else none := by
  simp only [failedCheck, hh, h1, h2, h3, Bool.not_true, Bool.or_self, Bool.false_eq_true, if_false]

theorem trapOf_wordDetail {c : Nat} : trapOf c 0#64 (wordDetail i) = trapOf c 0#64 (encode i).toNat := by
  rw [trapOf, trapOf, wordDetail, BitVec.ofNat_toNat, BitVec.setWidth_eq, encode]

theorem preIssue_of_failedCheck {c : Nat} (hc : failedCheck i t = some c) :
    s.preIssue p i t.released' = some (some (trapOf c 0#64 (encode i).toNat)) := by
  have hc' : failedCheck i t.released' = some c := hc
  rw [State.preIssue, hc', ← trapOf_wordDetail]

theorem preIssue_of_passed (hc : failedCheck i t = none) :
    s.preIssue p i t.released' =
      if s.prologueSpent p then some (some (trapOf 16 0#64 (encode i).toNat))
      else if unfilled i t || interlocked i t || counterFull i t then some none
      else if txMisuse i t then some (some (trapOf 28 0#64 (encode i).toNat))
      else none := by
  have hc' : failedCheck i t.released' = none := hc
  rw [State.preIssue, hc']
  simp only [trapOf_wordDetail]
  rfl

/-! ## What a word does before its effect -/

theorem exec_of_no_party (hw : i.isWord = true) (hc : s.cur = none) : exec i s = .refused .noIssuer := by
  obtain ⟨h, eff, e⟩ := exec_eq_issue hw s
  rw [e, issue, hc]

section Issued
variable (hw : i.isWord = true) (hc : s.cur = some p) (ht : s.team? p = some t)
include hw hc ht

theorem waits_of_held (hf : s.canIssue p t = false) : Waits i s := by
  obtain ⟨h, eff, e⟩ := exec_eq_issue hw s
  rw [Waits, e, issue_held hc ht hf]

theorem exec_of_preIssue_trap {tr : TrapInfo} (hf : s.canIssue p t = true) (he : s.preIssue p i t.released' = some (some tr)) :
    exec i s = .next ((s.setTeam p t.released').raiseTrap p t.pc tr) := by
  obtain ⟨h, eff, e⟩ := exec_eq_issue hw s
  rw [e, issue_check hc ht hf he]

theorem waits_of_preIssue_wait (hf : s.canIssue p t = true) (he : s.preIssue p i t.released' = some none) : Waits i s := by
  obtain ⟨h, eff, e⟩ := exec_eq_issue hw s
  simp only [Waits, e, issue, hc, ht, hf, he, Bool.not_true, Bool.false_eq_true, if_false]

end Issued

end Checks

/-! ## Streams and their words (R29, R37, R51, R176, R177) -/

section Streams
variable {st : Stream} {h : Hdr} {d x y : BitVec 7} {k : BitVec 5} {n : BitVec 7}

theorem streamOk_csrr : streamOk st (.csrr h k n) = true ↔ st = .prologue ∨ st = .steward := by
  show (decide (st = .prologue) || decide (st = .steward)) = true ↔ _
  simp

theorem streamOk_halt : streamOk st (.halt h) = true ↔ st = .prologue ∨ st = .steward := by
  show (decide (st = .prologue) || decide (st = .steward)) = true ↔ _
  simp

theorem streamOk_qpushVal : streamOk st (.qpushVal h k) = true ↔ st = .lead := decide_eq_true_iff

theorem streamOk_tcopy {b : BitVec 1} : streamOk st (.tcopy h d b) = true ↔ st = .kernel := decide_eq_true_iff

theorem streamOk_ldB8 : streamOk st (.ldB8 h d x) = true ↔ st = .kernel ∨ st = .steward := by
  show (decide (st = .kernel) || decide (st = .steward)) = true ↔ _
  simp

theorem streamOk_ldkB32 : streamOk st (.ldkB32 h d x) = true ↔ st ≠ .lead := decide_eq_true_iff

theorem codesListed_csrr : codesListed st (.csrr h k n) = true ↔
    (st = .prologue ∧ n.toNat ≤ 6) ∨ (st = .steward ∧ 0x40 ≤ n.toNat ∧ n.toNat ≤ 0x44) := by
  show csrReads st n.toNat = true ↔ _
  cases st <;> simp [csrReads]

theorem seqAllowed_of_single {c : Nat} (hs : st = .lead ∨ st = .prologue) : seqAllowed st c = true ↔ c ∈ [0, 3, 4, 5, 8, 12] := by
  rcases hs with rfl | rfl <;> simp [seqAllowed, or_assoc]

theorem seqAllowed_kernel {c : Nat} : seqAllowed .kernel c = true ↔ c ≤ 13 := decide_eq_true_iff

/-- A stream of one lane names registers k0 to k31 only. -/
theorem regOk_single {budget : Nat} {u : RegUse} (hu : u.spec < 128) :
    regOk true budget u = true ↔ 96 ≤ u.spec ∧ u.need ≠ .lane ∧ (u.pair = true → u.spec % 2 = 0) := by
  unfold regOk
  by_cases h : u.spec < 96
  · simp [h]
  · cases hp : u.pair <;> simp [h, hu, Nat.le_of_not_lt h]

end Streams

/-- Settles O52: every word is issued by the one shared operation, whose checks come before the word's effect. -/
theorem everyWordIsCheckedBeforeItActs : Obligations.EveryWordIsCheckedBeforeItActs := by
  unfold Obligations.EveryWordIsCheckedBeforeItActs
  refine ⟨fun s p t i hw => ?checks, fun st h d x y k n c u budget => ⟨streamOk_csrr, streamOk_halt, streamOk_qpushVal, streamOk_tcopy,
    streamOk_ldB8, streamOk_ldkB32, rfl, codesListed_csrr, seqAllowed_of_single, fun e => e ▸ seqAllowed_kernel, regOk_single⟩⟩
  intro traps
  refine ⟨exec_of_no_party hw, fun hc ht => ⟨waits_of_held hw hc ht, fun hf => ?_⟩⟩
  have fails {c : Nat} (h : failedCheck i t = some c) : traps c := exec_of_preIssue_trap hw hc ht hf (preIssue_of_failedCheck h)
  refine ⟨fun h => fails (failedCheck_of_unlisted h), fun h hh h1 h2 h3 => ?_, fun hp => ?_⟩
  · have hl := failedCheck_of_listed hh h1 h2 h3
    refine ⟨fun h4 => fails ?_, fun h4 h5 => fails ?_, fun h4 h5 h6 => fails ?_⟩
    · simp [hl, h4]
    · simp [hl, h4, h5]
    · simp [hl, h4, h5, h6]
  · have hl := preIssue_of_passed (s := s) (p := p) hp
    refine ⟨fun h1 => ?_, fun h1 h2 => ?_, fun h1 h2 h3 h4 h5 => ?_⟩
    · exact exec_of_preIssue_trap hw hc ht hf (by simp [hl, h1])
    · exact waits_of_preIssue_wait hw hc ht hf (by rcases h2 with h2 | h2 | h2 <;> simp [hl, h1, h2])
    · exact exec_of_preIssue_trap hw hc ht hf (by simp [hl, h1, h2, h3, h4, h5])

end Sys2Proof.Machine
end

section
/-!
SUPPORT. What writes of memory, of the log and of the fault rings leave of the tasks: those that end no chunk leave all of them, and the
others leave every team there, so that a debug trap freezes the team that takes it (R27, R182, R404).
-/

namespace Sys2Proof.Machine

variable {s s' s'' : State} {p : Party}

/-! ## Operations that leave the tasks -/

theorem State.tasks_foldl {α : Type} {f : State → α → State} (hf : ∀ s x, (f s x).tasks = s.tasks) (xs : List α) (s : State) :
    (xs.foldl f s).tasks = s.tasks := by
  induction xs generalizing s with
  | nil => rfl
  | cons x xs ih => rw [List.foldl_cons, ih, hf]

@[simp] theorem State.poke_tasks (s : State) (pa : Nat) (data : List Byte) : (s.poke pa data).tasks = s.tasks := by
  unfold State.poke State.atHome State.mirror
  split <;> rfl

@[simp] theorem State.recallWalk_tasks (s : State) (c va : Nat) : (s.recallWalk c va).tasks = s.tasks := by
  unfold State.recallWalk
  split
  · rfl
  · exact State.tasks_foldl (f := fun s a => s.recall a 8) (fun _ _ => rfl) _ _

@[simp] theorem State.xlatNow_tasks (s : State) (c : Nat) (priv : Priv) (how : How) (va : Nat) :
    (s.xlatNow c priv how va).1.tasks = s.tasks := by
  unfold State.xlatNow
  split
  · rfl
  · split
    · exact State.recallWalk_tasks _ _ _
    · split <;> exact State.recallWalk_tasks _ _ _

@[simp] theorem State.putBlock_tasks (s : State) (b : Block) : (s.putBlock b).tasks = s.tasks := by
  simp [State.putBlock, State.writeLogHeader]

@[simp] theorem State.closeBlock_tasks (s : State) (b : Block) : (s.closeBlock b).tasks = s.tasks := by
  simp [State.closeBlock, State.setBlock]

@[simp] theorem State.writeBlock_tasks (s : State) (b : Block) (full : Bool) : (s.writeBlock b full).tasks = s.tasks := by
  unfold State.writeBlock
  split
  · exact State.closeBlock_tasks _ _
  · split <;> rfl

@[simp] theorem State.logRecord_tasks (s : State) (v c k f n : Nat) (d : Option Nat) (bs : List Byte) :
    (s.logRecord v c k f n d bs).tasks = s.tasks := by
  simp only [State.logRecord]
  split
  · rfl
  · split
    · rfl
    · exact State.writeBlock_tasks _ _ _

@[simp] theorem State.dropSig_tasks (s : State) (p : Party) : (s.dropSig p).tasks = s.tasks := by
  cases p <;> rfl

@[simp] theorem State.writeEnd_tasks (s : State) (p : Party) (t : Team) (k : Nat) (bs : List Byte) (n : Nat) (st : Option Nat) :
    (s.writeEnd p t k bs n st).1.tasks = s.tasks := by
  cases st <;> simp [State.writeEnd, State.drawStamp]

theorem State.writeOne_tasks (s : State) (p : Party) (t : Team) (x : Nat × List Byte × Nat) : (s.writeOne p t x).1.tasks = s.tasks := by
  unfold State.writeOne State.writeMark State.note
  split
  · split
    · exact State.logRecord_tasks _ _ _ _ _ _ _ _
    · rfl
  · exact State.writeEnd_tasks _ _ _ _ _ _ _

@[simp] theorem State.writeLate_tasks (s : State) (p : Party) (t : Team) (n : Nat) : (s.writeLate p t n).1.tasks = s.tasks := by
  have key (xs : List (Nat × List Byte × Nat)) (r : State × Team) :
      (xs.foldl (fun r x => r.1.writeOne p r.2 x) r).1.tasks = r.1.tasks := by
    induction xs generalizing r with
    | nil => rfl
    | cons x xs ih => rw [List.foldl_cons, ih, State.writeOne_tasks]
  exact key _ _

@[simp] theorem State.saveLines_tasks (s : State) (tid ord : Nat) (t : Team) (ls : List Nat) :
    (s.saveLines tid ord t ls).tasks = s.tasks := by
  unfold State.saveLines
  split
  · rfl
  · exact State.tasks_foldl (fun _ _ => State.poke_tasks _ _ _) _ _

@[simp] theorem State.saveState_tasks (s : State) (tid ord : Nat) (t : Team) : (s.saveState tid ord t).tasks = s.tasks := by
  unfold State.saveState
  split
  · rfl
  · dsimp only
    split <;> simp

@[simp] theorem State.frozenOver_tasks (s : State) (tid ord : Nat) : (s.frozenOver tid ord).tasks = s.tasks := by
  unfold State.frozenOver State.saveTeam
  split
  · split
    · split <;> simp
    · rfl
  · rfl

theorem State.team?_of_tasks {tid ord : Nat} (h : s'.tasks = s.tasks) : s'.team? (.team tid ord) = s.team? (.team tid ord) := by
  simp only [State.team?, State.task?, h]

/-- A team that is frozen stays in its place, frozen. -/
theorem State.team?_freezeTeam {tid ord : Nat} {t : Team} (h : s.team? (.team tid ord) = some t) :
    (s.freezeTeam tid ord).team? (.team tid ord) = some { t with freeze := .frozen } := by
  rw [State.freezeTeam, h]
  simp only [State.team?_of_tasks (State.frozenOver_tasks _ _ _), State.team?_setTeam _ _ _ _ h]

/-! ## The end of a chunk outside a replay -/

/-- Outside a replay the end of a chunk with no earlier access waiting goes on, and leaves the tasks. -/
theorem endChunk_of_not_replaying {t : Team} {kind point : Nat} {payload : List Byte} {stamp : Option Nat}
    (hr : s.replaying (s.ctxOf p) = false) (he : t.early kind payload point = false) :
    ∃ s' t', endChunk s p t kind payload point stamp = .go s' t' ∧ s'.tasks = s.tasks := by
  simp only [endChunk, hr, he, Bool.and_false, Bool.false_eq_true, if_false]
  split
  · exact ⟨_, _, rfl, by simp⟩
  · exact ⟨_, _, rfl, rfl⟩

/-! ## Operations that leave every team there -/

/-- Every team of one state is there in the other. -/
def State.Keeps (s s' : State) : Prop := ∀ tid ord, (s.team? (.team tid ord)).isSome = true → (s'.team? (.team tid ord)).isSome = true

theorem State.Keeps.trans (h : s.Keeps s') (h' : s'.Keeps s'') : s.Keeps s'' := fun a o ha => h' a o (h a o ha)

theorem State.keeps_of_tasks (h : s'.tasks = s.tasks) : s.Keeps s' := fun a o ha => by rwa [State.team?_of_tasks h]

theorem State.keeps_setTeam {t : Team} : s.Keeps (s.setTeam p t) := by
  intro a o ha
  by_cases hp : Party.team a o = p
  · obtain ⟨u, hu⟩ := Option.isSome_iff_exists.mp ha
    subst hp
    rw [State.team?_setTeam _ _ _ _ hu, Option.isSome_some]
  · rwa [State.team?_setTeam_of_ne hp]

theorem State.keeps_foldl {α : Type} {f : State → α → State} (hf : ∀ (s : State) x, s.Keeps (f s x)) (xs : List α) (s : State) :
    s.Keeps (xs.foldl f s) := by
  induction xs generalizing s with
  | nil => exact State.keeps_of_tasks rfl
  | cons x xs ih => exact (hf s x).trans (ih _)

theorem endChunk_tasks_of_recording {t t' : Team} {kind point : Nat} {payload : List Byte} {stamp : Option Nat}
    (hr : s.replaying (s.ctxOf p) = false) (hg : endChunk s p t kind payload point stamp = .go s' t') : s'.tasks = s.tasks := by
  simp only [endChunk, hr, Bool.not_false, Bool.and_true, Bool.false_eq_true, if_false] at hg
  split at hg
  · split at hg <;> cases hg; rfl
  · split at hg <;> cases hg <;> simp

theorem State.keeps_cutChunk {cause : Nat} : s.Keeps (s.cutChunk p cause) := by
  unfold State.cutChunk
  split
  · exact State.keeps_of_tasks rfl
  · split
    case isTrue hr =>
      have hr : s.replaying (s.ctxOf p) = false := by simpa using (Bool.and_eq_true_iff.mp hr).2
      split
      case h_1 hg => exact (State.keeps_of_tasks (endChunk_tasks_of_recording hr hg)).trans State.keeps_setTeam
      case h_2 => exact State.keeps_of_tasks rfl
    case isFalse => exact State.keeps_of_tasks rfl

theorem State.keeps_commitBytes {pa : Nat} {data : List Byte} : s.Keeps (s.commitBytes pa data) := by
  have hit : s.Keeps (s.hitLines none (linesOf pa data.length)) := State.keeps_foldl (fun _ _ => State.keeps_cutChunk) _ _
  exact hit.trans (State.keeps_of_tasks (State.poke_tasks _ _ _))

theorem State.keeps_commitAt {ps : List Nat} {data : List Byte} : s.Keeps (s.commitAt ps data) := by
  induction ps generalizing s data with
  | nil => exact State.keeps_of_tasks rfl
  | cons a ps ih =>
    cases data with
    | nil => exact State.keeps_of_tasks rfl
    | cons b bs => exact State.keeps_commitBytes.trans ih

theorem State.tasks_of_feXlat {c n va : Nat} {how : How} {x : Except (Nat × Xlat) (List Nat)}
    (e : s.feXlat c how va n = (s', x)) : s'.tasks = s.tasks := by
  induction n generalizing s s' va x with
  | zero => cases e; rfl
  | succ n ih =>
    have hx := State.xlatNow_tasks s c .frontEnd how va
    unfold State.feXlat at e
    split at e
    · rename_i s1 pa e1
      rw [e1] at hx
      split at e
      · rename_i e2; cases e; exact (ih e2).trans hx
      · exact (ih e).trans hx
    · rename_i e1; cases e; rw [e1] at hx; exact hx

theorem State.keeps_of_ringWrite {c va : Nat} {data : List Byte} {w : RingPut} (e : s.ringWrite c va data = (s', w)) : s.Keeps s' := by
  unfold State.ringWrite at e
  split at e
  · rename_i ex
    have hx : s.Keeps _ := State.keeps_of_tasks (State.tasks_of_feXlat ex)
    split at e
    · cases e; exact hx
    · cases e; exact hx.trans State.keeps_commitAt
  · rename_i ex; cases e; exact State.keeps_of_tasks (State.tasks_of_feXlat ex)
  · rename_i ex; cases e; exact State.keeps_of_tasks (State.tasks_of_feXlat ex)

theorem State.resetDone_tasks (c : Nat) : (s.resetDone c).tasks = s.tasks := by
  unfold State.resetDone
  split <;> rfl

/-- What follows a written record: the ring's head moves, the record waits no more, and its interrupt is raised. -/
theorem State.keeps_recordWritten {c head : Nat} {f : Ctx → Ctx} :
    s.Keeps ((((s.setCreg c oFRHEAD head).modCtx c f).raise c 0).resetDone c) :=
  State.keeps_of_tasks (by rw [State.resetDone_tasks]; rfl)

theorem State.keeps_drainFaults {c n : Nat} : s.Keeps (s.drainFaults c n) := by
  induction n generalizing s with
  | zero => exact State.keeps_of_tasks rfl
  | succ n ih =>
    unfold State.drainFaults
    split
    · exact State.keeps_of_tasks rfl
    · dsimp only
      split
      · exact State.keeps_of_tasks rfl
      · split
        · rename_i e
          exact ((State.keeps_of_ringWrite e).trans State.keeps_recordWritten).trans ih
        · rename_i e; exact State.keeps_of_ringWrite e
        · rename_i e; exact (State.keeps_of_ringWrite e).trans (State.keeps_of_tasks rfl)

theorem State.keeps_queueFault {r : FaultRec} : s.Keeps (s.queueFault r) := by
  unfold State.queueFault
  have held (f : Ctx → Ctx) : s.Keeps (s.modCtx r.ctx f) := State.keeps_of_tasks rfl
  exact (held _).trans State.keeps_drainFaults

end Sys2Proof.Machine
end

section
/-!
SUPPORT. What the sequencing codes do (R25), and what follows a word once nothing holds its team (R27, R199).
-/

namespace Sys2Proof.Machine

section Settling
variable {s : State} {tid ord : Nat} {t : Team}

/-- The record of a trap that stops no store is never early (R376). -/
theorem Team.early_trap {payload : List Byte} {point : Nat} (hb : payload.headD 1#8 ≠ 0#8) : t.early 4 payload point = false := by
  unfold Team.early
  split
  · simpa using fun _ : _ < point => hb
  · rfl

/-- Outside a replay a debug trap freezes the team that takes it (R182, R404). -/
theorem State.frozen_takeTrap {pc : Word64} {tr : TrapInfo} (ht : s.team? (.team tid ord) = some t)
    (hr : s.replaying (s.ctxOf (.team tid ord)) = false) (hc : tr.cls = 2) :
    ∃ u, (s.takeTrap (.team tid ord) pc tr).team? (.team tid ord) = some u ∧ u.freeze = .frozen := by
  obtain ⟨k, hk, -⟩ := Option.bind_eq_some_iff.mp ht
  have he : t.early 4 (toBytes 1 (tr.cls + 128 * b2n false) ++ toBytes 1 tr.code ++ []) (t.trapPoint tr.point) = false :=
    Team.early_trap (by rw [hc]; simp [toBytes, b2n])
  obtain ⟨s1, t1, e, hs⟩ := endChunk_of_not_replaying (stamp := none) hr he
  have hq (r : FaultRec) : s.Keeps ((s1.setTeam (.team tid ord) t1).queueFault r) :=
    ((State.keeps_of_tasks hs).trans State.keeps_setTeam).trans State.keeps_queueFault
  have hcls : ¬ tr.cls = 0 ∧ ¬ tr.cls = 1 := by omega
  simp only [State.takeTrap, ht, partyTask, partyOrd, hk, reduceCtorEq, decide_false, Bool.false_eq_true, if_false, e, hcls]
  obtain ⟨u, hu⟩ := Option.isSome_iff_exists.mp (hq _ tid ord (by rw [ht]; rfl))
  exact ⟨_, State.team?_freezeTeam hu, rfl⟩

/-- Storing a stream changes no party's context. -/
theorem State.ctxOf_setTeam {p q : Party} {v : Team} : (s.setTeam p v).ctxOf q = s.ctxOf q := by
  have hk (n : Nat) : ((s.setTeam p v).task? n).map Task.ctx = (s.task? n).map Task.ctx := by
    have h := congrArg (Option.map Task.ctx) ((State.setTeam_sameBeside (s := s) (p := p) (v := v)).tasks n)
    rwa [Option.map_map, Option.map_map] at h
  cases q with
  | team n o | lead n o =>
    have h := hk n
    simp only [State.ctxOf]
    cases h1 : (s.setTeam p v).task? n <;> cases h2 : s.task? n <;> simp_all
  | prologue c | steward d => rfl

/-- The trap of `brk` (R27). -/
def brkTrap : TrapInfo := { cls := 2, code := 49, addr := 0#64, lane := 0xFFFF, detail := 0#32, engine := false }

/-- `brk` breaks a team outside a replay as soon as its word is over (R27). -/
theorem State.settle_of_brk (ht : s.team? (.team tid ord) = some t) (hh : t.hold = .none) (hf : t.freeze = .no) (hb : t.brk = true)
    (he : t.ended = false) (hr : s.replaying (s.ctxOf (.team tid ord)) = false) :
    s.settle (.team tid ord) = (s.setTeam (.team tid ord) { t with brk := false }).takeTrap (.team tid ord) t.ipc brkTrap := by
  have ht1 := State.team?_setTeam s (.team tid ord) t { t with brk := false } ht
  have hr1 : (s.setTeam (.team tid ord) { t with brk := false }).replaying
      ((s.setTeam (.team tid ord) { t with brk := false }).ctxOf (.team tid ord)) = false := by
    rw [State.ctxOf_setTeam, State.replaying, State.setTeam_replay]
    exact hr
  obtain ⟨u, hu, hfr⟩ := State.frozen_takeTrap (pc := t.ipc) (tr := brkTrap) ht1 hr1 rfl
  have hbr : s.breakTeam (.team tid ord) t =
      ((s.setTeam (.team tid ord) { t with brk := false }).takeTrap (.team tid ord) t.ipc brkTrap, true) := by
    simp only [brkTrap] at hu
    simp only [State.breakTeam, hu, hfr, if_true, brkTrap]
  simp [State.settle, ht, hh, hf, hb, he, hbr, State.holdOver, Hold.fresh]


theorem State.gone_of_ended (hh : t.hold = .none) (he : t.ended = true) {p : Party} : s.gone p t = true := by
  simp [State.gone, hh, he, State.holdOver]

/-- The slot of an ended team is released once nothing of it is outstanding. -/
theorem exec_teamSlotRelease (ht : s.team? (.team tid ord) = some t) (hh : t.hold = .none) (hf : t.freeze = .no)
    (he : t.ended = true) (hl : t.released = false) :
    exec (.teamSlotRelease tid ord) s =
      .next (if t.pend = [] then (s.setTeam (.team tid ord) { t with released := true }).teamEnded (.team tid ord) else s) := by
  have e : exec (.teamSlotRelease tid ord) s = execTeamSlotRelease tid ord s := by rfl
  simp only [e, execTeamSlotRelease, ht, State.gone_of_ended hh he, hl, hf, Bool.not_false, Bool.true_and, decide_true, Bool.and_true,
    List.isEmpty_iff]
  split <;> rfl

end Settling

section Codes
variable {t : Team} {taken : LaneMask}

/-- The lanes that a split takes, given lane by lane. -/
theorem mask_and_eq {m b : LaneMask} (h : ∀ l, l < 1024 → taken.getLsbD l = (m.getLsbD l && b.getLsbD l)) : m &&& b = taken :=
  BitVec.eq_of_getLsbD_eq fun l hl => by rw [BitVec.getLsbD_and, h l hl]

theorem split_of_full (h : 30 < t.div.length) : split t taken = .error (divTrap t) := by
  rw [split, if_pos (by omega)]

theorem split_of_room (h : t.div.length ≤ 30) :
    split t taken = if taken = 0#1024 then goNext { t with div := .pending t.j0 0#1024 :: .rejoin t.mask :: t.div }
      else goTo { t with div := .pending (t.pc + 4#64) (t.mask &&& ~~~ taken) :: .rejoin t.mask :: t.div, mask := taken } t.j0 := by
  rw [split, if_neg (by omega), ite_not]

theorem seqAllowed_of_unlisted {st : Stream} {c : Nat} (h : 14 ≤ c) : seqAllowed st c = false := by
  cases st <;> simp [seqAllowed] <;> omega

end Codes

/-- Settles O53: each code's effect is read off the function it names; a break, the end of a team and the refused codes by their laws. -/
theorem sequencingFollowsItsCode : Obligations.SequencingFollowsItsCode := by
  unfold Obligations.SequencingFollowsItsCode
  intro s tid ord t op dbg taken st act on jump splits
  have splits_of {code : Nat} (h : act code = split t taken) : splits code :=
    ⟨fun hd => h.trans (split_of_full hd), fun hd => h.trans (split_of_room hd)⟩
  refine ⟨rfl, fun h => ?s1, fun h => ?s2, rfl, rfl, rfl, rfl, fun h => ?r0, fun e rest h => ?r1, fun h => ?l0, fun e rest h => ?l1,
    fun h => ?j0, fun m rest h => ?j1, fun pc m rest h hm => ?j2, fun pc m rest h => ?j3, ⟨rfl, rfl⟩, ?e12, rfl,
    seqAllowed_of_unlisted (by decide), seqAllowed_of_unlisted (by decide),
    fun ht hh hf => ⟨fun hb he hr => ?brk, fun he hl => ?free, fun he => ?still⟩, fun i h hh hc h1 h2 h3 => ?seq⟩
  case s1 => exact splits_of (congrArg (split t) (mask_and_eq h))
  case s2 =>
    refine splits_of (congrArg (split t) (mask_and_eq fun l hl => ?_))
    rw [h l hl, BitVec.getLsbD_not]
    simp [hl, Team.predAt, Team.bpMask]
  case r0 | l0 | j0 => simp [act, seqAct, ret, loopBack, join, h, callTrap, loopTrap, divTrap]
  case r1 => simp only [act, seqAct, ret, h]; rfl
  case l1 => simp only [act, seqAct, loopBack, h]; rfl
  case j1 => simp only [act, seqAct, join, h]; rfl
  case j2 => simp only [act, seqAct, join, h]; exact if_pos hm
  case j3 => simp only [act, seqAct, join, h]; exact if_neg (not_not.mpr rfl)
  case e12 => simp only [act, seqAct, ne_eq, List.length_eq_zero_iff, ite_not]; rfl
  case brk => exact State.settle_of_brk ht hh hf hb he hr
  case free =>
    rw [exec_teamSlotRelease ht hh hf he hl]
    exact ⟨fun h => by rw [if_pos h], fun h => by rw [if_neg h]⟩
  case still => simp [State.canIssue, he]
  case seq => simp [failedCheck_of_listed hh h1 h2 h3, seqAllowed_of_unlisted hc]

end Sys2Proof.Machine
end

section
/-!
SUPPORT. The cross-lane words (R112 to R118): the bits of a tile read as its lanes, and reductions and scans read off their lists.
-/

namespace Sys2Proof.Machine

/-! ## Numbers as rows of bits -/

/-- The bits of a number below `n` are given by a function, and those above are 0. -/
def BitsAre (v n : Nat) (f : Nat → Bool) : Prop := ∀ i, v.testBit i = (decide (i < n) && f i)

section Bits
variable {v v' n k : Nat} {f g : Nat → Bool}

theorem BitsAre.testBit (h : BitsAre v n f) (i : Nat) : v.testBit i = (decide (i < n) && f i) := h i

theorem BitsAre.testBit_of_lt (h : BitsAre v n f) {i : Nat} (hi : i < n) : v.testBit i = f i := by
  rw [h i, decide_eq_true hi, Bool.true_and]

theorem BitsAre.eq_iff (h : BitsAre v n f) (h' : BitsAre v' n g) : v = v' ↔ ∀ i < n, f i = g i := by
  constructor
  · rintro rfl i hi
    have := (h i).symm.trans (h' i)
    simpa [hi] using this
  · intro e
    refine Nat.eq_of_testBit_eq fun i => ?_
    rw [h i, h' i]
    by_cases hi : i < n
    · rw [e i hi]
    · simp [hi]

theorem bitsAre_zero : BitsAre 0 n (fun _ => false) := fun i => by simp

theorem BitsAre.decide_eq (h : BitsAre v n f) (h' : BitsAre v' n g) : decide (v = v') = (List.range n).all (fun i => f i == g i) := by
  rw [Bool.eq_iff_iff]
  simp [h.eq_iff h']

theorem BitsAre.decide_eq_zero (h : BitsAre v n f) : decide (v = 0) = (List.range n).all (fun i => !f i) := by
  simp [h.decide_eq bitsAre_zero]

theorem BitsAre.decide_ne_zero (h : BitsAre v n f) : decide (v ≠ 0) = (List.range n).any f := by
  rw [decide_not, h.decide_eq_zero, List.not_all_eq_any_not]
  simp

theorem nbit_eq_testBit (v i : Nat) : nbit v i = v.testBit i := by
  rw [nbit, Nat.testBit_eq_decide_div_mod_eq]

/-- The lowest bits are those of the number. -/
theorem BitsAre.mod (h : BitsAre v n f) (hk : k ≤ n) : BitsAre (v % 2 ^ k) k f := fun i => by
  rw [Nat.testBit_mod_two_pow]
  by_cases hi : i < k
  · rw [h.testBit_of_lt (by omega)]
  · simp [hi]

theorem bitsAre_nbits {lo w : Nat} : BitsAre (nbits v lo w) w (fun i => v.testBit (lo + i)) := fun i => by
  rw [nbits, Nat.testBit_mod_two_pow, Nat.testBit_div_two_pow, Nat.add_comm]

theorem bitsAre_mask (m : LaneMask) : BitsAre m.toNat 1024 m.getLsbD := fun i => by
  rw [BitVec.testBit_toNat]
  by_cases hi : i < 1024
  · simp [hi]
  · simp [hi, BitVec.getLsbD_of_ge m i (Nat.le_of_not_lt hi)]

theorem BitsAre.popBits (h : BitsAre v n f) (hk : k ≤ n) : popBits v k = (List.range k).countP f := by
  induction k with
  | zero => rfl
  | succ k ih =>
    rw [Machine.popBits, ih (by omega), List.range_succ, List.countP_append, nbit_eq_testBit, h.testBit_of_lt hk, Nat.add_comm,
      List.countP_singleton, b2n]

/-- A sum of the powers of distinct positions has those bits. -/
theorem testBit_foldl_span {c : Nat → Bool} {a : Nat} (ha : a < 2 ^ k) (i : Nat) :
    ((span k n).foldl (fun s j => if c j then s + 2 ^ j else s) a).testBit i =
      if i < k then a.testBit i else decide (i < k + n) && c i := by
  induction n generalizing k a with
  | zero =>
    simp only [span, List.foldl_nil, Nat.add_zero]
    split
    · rfl
    · rename_i h
      simp [h, Nat.testBit_lt_two_pow (Nat.lt_of_lt_of_le ha (Nat.pow_le_pow_right (by decide) (Nat.le_of_not_lt h)))]
  | succ n ih =>
    have hlt : (if c k then a + 2 ^ k else a) < 2 ^ (k + 1) := by rw [Nat.pow_succ]; split <;> omega
    rw [span, List.foldl_cons, ih hlt, show k + 1 + n = k + (n + 1) by omega]
    rcases Nat.lt_trichotomy i k with h | rfl | h
    · rw [if_pos (show i < k + 1 by omega), if_pos h]
      split
      · rw [Nat.add_comm, Nat.testBit_two_pow_add_gt h]
      · rfl
    · have hf : a.testBit i = false := Nat.testBit_lt_two_pow ha
      rw [if_pos (show i < i + 1 by omega), if_neg (Nat.lt_irrefl i)]
      cases hc : c i
      · simp [hf]
      · rw [if_pos rfl, Nat.add_comm, Nat.testBit_two_pow_add_eq, hf]
        simp
    · rw [if_neg (show ¬ i < k + 1 by omega), if_neg (show ¬ i < k by omega)]

theorem bitsAre_foldl_span {c : Nat → Bool} : BitsAre ((span 0 n).foldl (fun s j => if c j then s + 2 ^ j else s) 0) n c := fun i => by
  rw [testBit_foldl_span (by decide)]
  simp

end Bits

/-! ## The bits of a tile -/

section Tiles
variable {t : Team} {q l : Nat}

theorem Team.tileWidth_pos : 0 < t.tileWidth := Nat.two_pow_pos _

theorem Team.tileBase_add_mod : t.tileBase l + l % t.tileWidth = l := by
  rw [Team.tileBase, Nat.mul_comm, Nat.div_add_mod]

theorem bitsAre_tileBits {m : LaneMask} : BitsAre (t.tileBits m l) t.tileWidth (fun i => m.getLsbD (t.tileBase l + i)) := fun i => by
  rw [Team.tileBits, bitsAre_nbits.testBit i, BitVec.testBit_toNat]

/-- A lane votes when it takes part and the predicate is true in it. -/
def Team.vote (t : Team) (q l : Nat) : Bool := t.takePart.getLsbD l && t.predAt q l

theorem Team.votes_getLsbD : (t.votes q).getLsbD l = t.vote q l := by
  rw [Team.votes, BitVec.getLsbD_and]; rfl

theorem bitsAre_tileVotes : BitsAre (t.tileBits (t.votes q) l) t.tileWidth (fun i => t.vote q (t.tileBase l + i)) := fun i => by
  rw [bitsAre_tileBits.testBit i, Team.votes_getLsbD]

theorem bitsAre_votes : BitsAre (t.votes q).toNat 1024 (t.vote q) := fun i => by
  rw [bitsAre_mask _ i, Team.votes_getLsbD]

/-- The lanes that a vote into predicate `p` is over: the tile's, or the team's for a q (R114). -/
def Team.voteLanes (t : Team) (p l : Nat) : List Nat :=
  if 8 ≤ p then List.range 1024 else (List.range t.tileWidth).map (fun i => t.tileBase l + i)

/-- A vote is a function of the votes of its lanes and of their parts. -/
theorem voteTeam_eq {F : Nat → Nat → Bool} {G : List Nat → Bool} {p : Nat}
    (hw : F (t.votes q).toNat t.takePart.toNat = G (List.range 1024))
    (ht : ∀ l, F (t.tileBits (t.votes q) l) (t.tileBits t.takePart l) = G ((List.range t.tileWidth).map (fun i => t.tileBase l + i))) :
    voteTeam F p q t = t.writePred p (fun l => G (t.voteLanes p l)) := by
  unfold voteTeam Team.voteLanes
  congr 1
  funext l
  split
  · exact hw
  · exact ht l

theorem vote_beq_part : (t.vote q l == t.takePart.getLsbD l) = (t.vote q l || !t.takePart.getLsbD l) := by
  unfold Team.vote
  cases t.takePart.getLsbD l <;> simp

theorem voteAny_eq {p : Nat} : voteTeam (fun v _ => v ≠ 0) p q t = t.writePred p (fun l => (t.voteLanes p l).any (t.vote q)) :=
  voteTeam_eq (G := fun ls => ls.any (t.vote q)) bitsAre_votes.decide_ne_zero fun l => by
    rw [List.any_map]; exact bitsAre_tileVotes.decide_ne_zero

theorem allVotes_eq : decide ((t.votes q).toNat = t.takePart.toNat) =
    (List.range 1024).all (fun x => t.vote q x || !t.takePart.getLsbD x) := by
  simp only [bitsAre_votes.decide_eq (bitsAre_mask _), vote_beq_part]

theorem tileVotes_eq : decide (t.tileBits (t.votes q) l = t.tileBits t.takePart l) =
    ((List.range t.tileWidth).map (fun i => t.tileBase l + i)).all (fun x => t.vote q x || !t.takePart.getLsbD x) := by
  rw [List.all_map, bitsAre_tileVotes.decide_eq bitsAre_tileBits]
  simp only [vote_beq_part]
  rfl

theorem voteAll_eq {p : Nat} : voteTeam (fun v part => v = part) p q t =
    t.writePred p (fun l => (t.voteLanes p l).all (fun x => t.vote q x || !t.takePart.getLsbD x)) :=
  voteTeam_eq (G := fun ls => ls.all _) allVotes_eq fun _ => tileVotes_eq

theorem voteUni_eq {p : Nat} : voteTeam (fun v part => v = 0 || v = part) p q t =
    t.writePred p (fun l => (t.voteLanes p l).all (fun x => t.vote q x || !t.takePart.getLsbD x) ||
      (t.voteLanes p l).all (fun x => !t.vote q x)) := by
  refine voteTeam_eq (G := fun ls => ls.all _ || ls.all _) ?_ fun l => ?_
  · rw [allVotes_eq, bitsAre_votes.decide_eq_zero, Bool.or_comm]
  · rw [tileVotes_eq, bitsAre_tileVotes.decide_eq_zero, Bool.or_comm,
      List.all_map (f := fun i => t.tileBase l + i) (p := fun x => !t.vote q x)]
    rfl

theorem ballot_getLsbD {i : Nat} (hi : i < 32) :
    (BitVec.ofNat 32 (t.tileBits (t.votes q) l)).getLsbD i = (decide (i < t.tileWidth) && t.vote q (t.tileBase l + i)) := by
  rw [BitVec.getLsbD_ofNat, bitsAre_tileVotes.testBit i]
  simp [hi]

/-- A lane is elected when it votes and no lower lane of its tile does. -/
theorem elect_eq : (nbit (t.tileBits (t.votes q) l) (l % t.tileWidth) && decide (t.tileBits (t.votes q) l % 2 ^ (l % t.tileWidth) = 0)) =
    (t.vote q l && (List.range (l % t.tileWidth)).all (fun i => !t.vote q (t.tileBase l + i))) := by
  have hl : l % t.tileWidth < t.tileWidth := Nat.mod_lt _ Team.tileWidth_pos
  rw [nbit_eq_testBit, bitsAre_tileVotes.testBit_of_lt hl, (bitsAre_tileVotes.mod hl.le).decide_eq_zero, Team.tileBase_add_mod]

theorem cntp_eq : popBits (t.tileBits (t.votes q) l) (l % t.tileWidth) =
    (List.range (l % t.tileWidth)).countP (fun i => t.vote q (t.tileBase l + i)) :=
  bitsAre_tileVotes.popBits (Nat.mod_lt _ Team.tileWidth_pos).le

theorem shflLane_eq {f : Nat → Word} {w m n l : Nat} : f (shflLane w m n l) =
    match m with
    | 0 => f (l / w * w + n % w)
    | 1 => if n ≤ l % w then f (l - n) else f l
    | 2 => if l % w + n < w then f (l + n) else f l
    | _ => f (l / w * w + (l % w ^^^ n % w)) := by
  match m with
  | 0 | _ + 3 => rfl
  | 1 | 2 => exact apply_ite f _ _ _

end Tiles

/-! ## Reductions and scans -/

section Lists
variable {α : Type}

theorem span_eq_range' (i n : Nat) : span i n = List.range' i n := by
  induction n generalizing i with
  | zero => rfl
  | succ n ih => rw [span, ih, List.range'_succ]

theorem getD_map_span {g : Nat → α} {i n k : Nat} {x : α} (hk : k < n) : ((span i n).map g).getD k x = g (i + k) := by
  simp [span_eq_range', List.getD, List.getElem?_range' hk]

theorem take_map_span {g : Nat → α} {i n k : Nat} (hk : k ≤ n) : ((span i n).map g).take k = (span i k).map g := by
  obtain ⟨m, rfl⟩ := Nat.exists_eq_add_of_le hk
  rw [← List.map_take, span_eq_range', span_eq_range', ← List.range'_append_1, List.take_left' List.length_range']

theorem length_map_span {g : Nat → α} {i n : Nat} : ((span i n).map g).length = n := by
  rw [span_eq_range', List.length_map, List.length_range']

/-- An entry of rows of one length set end to end. -/
theorem getD_flatMap_span {g : Nat → List α} {w i n k : Nat} {x : α} (hw : 0 < w) (hg : ∀ i, (g i).length = w) (hk : k / w < n) :
    ((span i n).flatMap g).getD k x = (g (i + k / w)).getD (k % w) x := by
  induction n generalizing i k with
  | zero => exact absurd hk (Nat.not_lt_zero _)
  | succ n ih =>
    rw [span, List.flatMap_cons]
    by_cases h : k < w
    · rw [List.getD_append _ _ _ _ (by rw [hg]; exact h), Nat.div_eq_of_lt h, Nat.mod_eq_of_lt h, Nat.add_zero]
    · have hd : k / w = (k - w) / w + 1 := by rw [← Nat.sub_add_cancel (Nat.le_of_not_lt h), Nat.add_div_right _ hw, Nat.add_sub_cancel]
      rw [List.getD_append_right _ _ _ _ (by rw [hg]; omega), hg, ih (by omega), hd, ← Nat.mod_eq_sub_mod (Nat.le_of_not_lt h)]
      congr 2
      omega

theorem length_scanFold {f : Nat → Nat → Nat} {x : Nat} {ys : List Nat} : (scanFold f x ys).length = ys.length := by
  induction ys generalizing x with
  | nil => rfl
  | cons y ys ih => rw [scanFold, List.length_cons, ih, List.length_cons]

theorem getD_scanFold {f : Nat → Nat → Nat} {x z k : Nat} {ys : List Nat} (hk : k < ys.length) :
    (scanFold f x ys).getD k z = (ys.take (k + 1)).foldl f x := by
  induction ys generalizing x k with
  | nil => simp at hk
  | cons y ys ih =>
    cases k with
    | zero => rfl
    | succ k => rw [scanFold, List.getD_cons_succ, ih (by simpa using hk), List.take_succ_cons, List.foldl_cons]

end Lists

section Reductions
variable {t : Team} {a o l : Nat}

/-- What a lane supplies to a reduction or a scan (R116). -/
def Team.supplies (t : Team) (a o l : Nat) : Nat :=
  if t.takePart.getLsbD l then tredIn t.md o (t.val a l) else (tredOp t o).2

theorem Team.tileVals_length {base : Nat} : (t.tileVals a o base).length = t.tileWidth := length_map_span

theorem tred_getD (hl : l / t.tileWidth < 32 * t.groups / t.tileWidth) :
    ((span 0 (32 * t.groups / t.tileWidth)).map (fun i =>
      treeFold (tredOp t o).1 (nbits t.tw.toNat 0 3) (t.tileVals a o (t.tileWidth * i)))).getD (l / t.tileWidth) 0 =
    treeFold (tredOp t o).1 (t.tw.toNat % 8) ((span (t.tileBase l) t.tileWidth).map (t.supplies a o)) := by
  rw [getD_map_span hl, Nat.zero_add, Nat.mul_comm, nbits, Nat.pow_zero, Nat.div_one]
  rfl

theorem scan_getD (hl : l / t.tileWidth < 32 * t.groups / t.tileWidth) :
    ((span 0 (32 * t.groups / t.tileWidth)).flatMap (fun i =>
      scanFold (tredOp t o).1 (tredOp t o).2 (t.tileVals a o (t.tileWidth * i)))).getD l 0 =
    ((span (t.tileBase l) (l % t.tileWidth + 1)).map (t.supplies a o)).foldl (tredOp t o).1 (tredOp t o).2 := by
  have hm : l % t.tileWidth < t.tileWidth := Nat.mod_lt _ Team.tileWidth_pos
  rw [getD_flatMap_span Team.tileWidth_pos (fun i => length_scanFold.trans Team.tileVals_length) hl,
    getD_scanFold (by rw [Team.tileVals_length]; exact hm), Team.tileVals, take_map_span hm, Nat.zero_add, Nat.mul_comm]
  rfl

/-- A lane that takes no part changes no reduction of bits, and is absent from one of elements. -/
theorem tredOp_absent (ho : o < 3) : (tredOp t o).2 = regAbsent (mdType t.md) := by
  match o, ho with
  | 0, _ | 1, _ | 2, _ => rfl

theorem tredOp_identity {x : Nat} (hx : x < 2 ^ t.valBits) :
    (tredOp t 3).1 x (tredOp t 3).2 = x ∧ (tredOp t 4).1 x (tredOp t 4).2 = x ∧ (tredOp t 5).1 x (tredOp t 5).2 = x :=
  ⟨Nat.and_two_pow_sub_one_of_lt_two_pow hx, Nat.or_zero x, Nat.xor_zero x⟩

end Reductions

/-- Settles O9: each word's result is its lane's view of the tile. -/
theorem crossLaneWordsStayInTheirTile : Obligations.CrossLaneWordsStayInTheirTile := by
  unfold Obligations.CrossLaneWordsStayInTheirTile
  refine ⟨fun s p t h pd q d a o so m n hpd => ?_, fun t x hx => ?_⟩
  · intro w base part vote lanesFor A
    refine ⟨computesPred_of _ hpd exec_voteAny voteAny_eq, computesPred_of _ hpd exec_voteAll voteAll_eq,
      computesPred_of _ hpd exec_voteUni voteUni_eq, ⟨_, computes_of _ exec_voteBallot rfl, fun l i hi => ballot_getLsbD hi⟩,
      ⟨_, computes_of _ exec_matchLanes rfl, fun l i hi => ?same⟩, computesPred_of _ hpd exec_elect ?elect,
      computes_of _ exec_cntp ?cntp, computes_of _ exec_shfl ?shfl, ⟨_, computesVal_of _ exec_tred rfl, fun l hl => ?tred⟩,
      ⟨_, computesVal_of _ exec_scan rfl, fun l hl => ?scan⟩⟩
    case same =>
      rw [BitVec.getLsbD_ofNat, bitsAre_foldl_span.testBit i, decide_eq_true hi, Bool.true_and]
      exact (Bool.and_assoc _ _ _).symm
    case elect => exact congrArg _ (funext fun l => elect_eq)
    case cntp => exact congrArg _ (funext fun l => congrArg _ cntp_eq)
    case shfl => exact congrArg _ (funext fun l => shflLane_eq)
    case tred => exact congrArg _ (tred_getD hl)
    case scan => exact congrArg _ (scan_getD hl)
  · obtain ⟨hand, hor, hxor⟩ := tredOp_identity hx
    exact ⟨fun o ho => tredOp_absent ho, hand, hor, hxor, fun o ho => ⟨if_neg (Nat.not_lt.mpr ho), if_neg (Nat.not_lt.mpr ho)⟩⟩

end Sys2Proof.Machine
end

section
/-!
SUPPORT. Traps taken on purpose: the trap word (R170) and the words that no row assigns (R40, R184).
-/

namespace Sys2Proof.Machine

variable {s : State} {p : Party} {t : Team} {h : Hdr} {c : BitVec 8} {w : Word} {i : Instr}

/-! ## The trap word (R170) -/

@[simp] theorem Team.opened_lanes : (t.opened i).lanes = t.lanes := rfl

theorem exec_trap : exec (.trap h c) s = execTrap h c s := by rfl

/-- The trap of a lane carries the code of its word, widened. -/
theorem laneTrap_toNat {n code l : Nat} {addr : Word64} {c : BitVec n} :
    laneTrap code addr l c.toNat = { cls := 1, code := code, addr := addr, lane := l, detail := c.setWidth 32, engine := false } := by
  rw [laneTrap, BitVec.ofNat_toNat]

theorem trapsWith_trap {l : Nat} {rest : List Nat} (hl : t.lanes = l :: rest) :
    TrapsWith s p t (.trap h c) (laneTrap 36 0#64 l c.toNat) := by
  intro hi
  refine traps_of_trap hi exec_trap ?_
  simp only [Team.opened_lanes, hl]

theorem changes_trap_of_no_lane (hl : t.lanes = []) : Changes s p t h (.trap h c) id := by
  intro hi
  refine completesIn_of_ok hi exec_trap ?_
  simp only [Team.opened_lanes, hl, id]

/-! ## Words that no row assigns (R40, R184) -/

theorem encode_illegalOp : encode (.illegalOp w) = w := by
  show BitVec.ofNat 32 w.toNat = w
  rw [BitVec.ofNat_toNat, BitVec.setWidth_eq]

/-- No stream lists such a word, so it fails the first check, whose trap has the word as its detail. -/
theorem preIssue_illegalOp :
    s.preIssue p (.illegalOp w) t.released' =
      some (some { cls := 1, code := 16, addr := 0#64, lane := 0xFFFF, detail := w, engine := false }) := by
  have unlisted : failedCheck (.illegalOp w) t = some 16 := failedCheck_of_unlisted (.inl rfl)
  rw [preIssue_of_failedCheck unlisted, encode_illegalOp, trapOf, BitVec.ofNat_toNat, BitVec.setWidth_eq]

/-- Settles O23: a trap word goes by the lanes of its stream, and a word that no row assigns comes no further than its checks. -/
theorem trapsOnPurpose : Obligations.TrapsOnPurpose := by
  unfold Obligations.TrapsOnPurpose
  intro s p t h c w
  refine ⟨fun l rest hl => ?lane, changes_trap_of_no_lane, fun hc ht hf => ?illegal⟩
  case lane => rw [← laneTrap_toNat]; exact trapsWith_trap hl
  case illegal => exact exec_of_preIssue_trap rfl hc ht hf preIssue_illegalOp

end Sys2Proof.Machine
end

section
/-!
SUPPORT. The meaning that the dispatch gives each typed and conversion word (R96 to R111), and registers read as the elements packed in
them (R96, R108).
-/

namespace Sys2Proof.Machine

/-! ## Dispatch -/

section Arms
variable {s : State} {h : Hdr} {d a c m : BitVec 7} {pd src : BitVec 4} {k : BitVec 3}

theorem exec_addT : exec (.addT h d a c) s = execAddT h d a c s := by rfl
theorem exec_subT : exec (.subT h d a c) s = execSubT h d a c s := by rfl
theorem exec_mulT : exec (.mulT h d a c) s = execMulT h d a c s := by rfl
theorem exec_minT : exec (.minT h d a c) s = execMinT h d a c s := by rfl
theorem exec_maxT : exec (.maxT h d a c) s = execMaxT h d a c s := by rfl
theorem exec_divT : exec (.divT h d a c) s = execDivT h d a c s := by rfl
theorem exec_dot : exec (.dot h d a c) s = execDot h d a c s := by rfl
theorem exec_fma : exec (.fma h d a c) s = execFma h d a c s := by rfl
theorem exec_fmaN : exec (.fmaN h d a c) s = execFmaN h d a c s := by rfl
theorem exec_fcmp : exec (.fcmp h pd k a c) s = execFcmp h pd k a c s := by rfl
theorem exec_classify : exec (.classify h pd a m) s = execClassify h pd a m s := by rfl

theorem exec_absT : exec (.absT h d a) s = execAbsT h d a s := by rfl
theorem exec_negT : exec (.negT h d a) s = execNegT h d a s := by rfl
theorem exec_sqrt : exec (.sqrt h d a) s = execSqrt h d a s := by rfl
theorem exec_rcp : exec (.rcp h d a) s = execRcp h d a s := by rfl
theorem exec_rsq : exec (.rsq h d a) s = execRsq h d a s := by rfl
theorem exec_exp2 : exec (.exp2 h d a) s = execExp2 h d a s := by rfl
theorem exec_log2 : exec (.log2 h d a) s = execLog2 h d a s := by rfl
theorem exec_sinpi : exec (.sinpi h d a) s = execSinpi h d a s := by rfl
theorem exec_cospi : exec (.cospi h d a) s = execCospi h d a s := by rfl
theorem exec_mkabs : exec (.mkabs h d a) s = execMkabs h d a s := by rfl

theorem exec_cvt : exec (.cvt h d a src) s = execCvt h d a src s := by rfl
theorem exec_cvtmx : exec (.cvtmx h d a) s = execCvtmx h d a s := by rfl
theorem exec_cvtmxH16 : exec (.cvtmxH16 h d a) s = execCvtmxH16 h d a s := by rfl
theorem exec_cvtmxH32 : exec (.cvtmxH32 h d a) s = execCvtmxH32 h d a s := by rfl
theorem exec_pack : exec (.pack h d a) s = execPack h d a s := by rfl
theorem exec_unpack : exec (.unpack h d a) s = execUnpack h d a s := by rfl

end Arms

/-! ## Registers as rows of elements (R96) -/

section Packed
variable {w n e v x : Nat} {xs : List Nat}

/-- Element `e` of a register is its bits from `w * e` up. -/
theorem getElem?_elems (h : e < n) : (elems w n v)[e]? = some (v / 2 ^ (w * e) % 2 ^ w) := by
  induction n generalizing e v with
  | zero => exact absurd h (Nat.not_lt_zero _)
  | succ n ih =>
    cases e with
    | zero => simp [elems]
    | succ e => rw [elems, List.getElem?_cons_succ, ih (by omega), Nat.div_div_eq_div_mul, ← Nat.pow_add, Nat.mul_succ, Nat.add_comm w]

/-- The bits from `w * e` up of packed elements are element `e`. -/
theorem packElems_at (h : xs[e]? = some x) : packElems w xs / 2 ^ (w * e) % 2 ^ w = x % 2 ^ w := by
  induction xs generalizing e with
  | nil => simp at h
  | cons y ys ih =>
    cases e with
    | zero =>
      rw [List.getElem?_cons_zero, Option.some.injEq] at h
      rw [h, packElems, Nat.mul_zero, Nat.pow_zero, Nat.div_one, Nat.add_mul_mod_self_left, Nat.mod_mod]
    | succ e =>
      rw [List.getElem?_cons_succ] at h
      rw [packElems, Nat.mul_succ, Nat.add_comm (w * e), Nat.pow_add, ← Nat.div_div_eq_div_mul,
        Nat.add_mul_div_left _ _ (Nat.two_pow_pos w), Nat.div_eq_of_lt (Nat.mod_lt _ (Nat.two_pow_pos w)), Nat.zero_add, ih h]

end Packed

section Registers
variable {md : Word} {a b c e : Nat}

/-! A typed word acts element by element (R96). -/

theorem regBin_at {op : BinOp} (he : e < tyCount (mdType md)) :
    let at_ x := x / 2 ^ (tyWidth (mdType md) * e) % 2 ^ tyWidth (mdType md)
    at_ (regBin op md a b) = elemBin op md (mdType md) (at_ a) (at_ b) % 2 ^ tyWidth (mdType md) :=
  packElems_at (by simp only [List.getElem?_zipWith, getElem?_elems he])

theorem regUn_at {op : UnOp} (he : e < tyCount (mdType md)) :
    let at_ x := x / 2 ^ (tyWidth (mdType md) * e) % 2 ^ tyWidth (mdType md)
    at_ (regUn op md a) = elemUn op md (mdType md) (at_ a) % 2 ^ tyWidth (mdType md) :=
  packElems_at (by rw [List.getElem?_map, getElem?_elems he, Option.map_some])

theorem regFma_at {neg : Bool} (he : e < tyCount (mdType md)) :
    let at_ x := x / 2 ^ (tyWidth (mdType md) * e) % 2 ^ tyWidth (mdType md)
    at_ (regFma neg md a b c) = elemFma neg md (mdType md) (at_ a) (at_ b) (at_ c) % 2 ^ tyWidth (mdType md) :=
  packElems_at (by simp only [List.getElem?_zipWith, List.zip, getElem?_elems he])

theorem regAbsent_at {ty : Nat} (he : e < tyCount ty) :
    regAbsent ty / 2 ^ (tyWidth ty * e) % 2 ^ tyWidth ty = absentOf ty % 2 ^ tyWidth ty :=
  packElems_at (by rw [List.getElem?_replicate, if_pos he])

end Registers

end Sys2Proof.Machine
end

section
/-!
SUPPORT. Operations on integer elements (R53, R59, R98 to R101, R105): exact results brought into their format's range, and absent operands.
-/

namespace Sys2Proof.Machine

section Integers
variable {ty x a b c : Nat} {i j : Int} {sat neg : Bool} {md : Word}

theorem fmtOf_int (hty : ty ≤ 5) : fmtOf ty = none := by
  interval_cases ty <;> rfl

/-- The values of an integer format are symmetric about 0, or begin there, and leave one code for absent (R53). -/
theorem intRange (hty : ty ≤ 5) : (intMin ty = -intMax ty ∨ tySigned ty = false ∧ intMin ty = 0) ∧ 0 ≤ intMax ty ∧
    intMax ty = intMin ty + (2 ^ tyWidth ty - 1) - 1 := by
  interval_cases ty <;> decide

theorem ofInt_lt {w : Nat} : ofInt w i < 2 ^ w := by
  have := Nat.two_pow_pos w
  unfold ofInt
  omega

/-- A value of the format's range is that of its code. -/
theorem intVal_ofInt (hty : ty ≤ 5) (hlo : intMin ty ≤ i) (hhi : i ≤ intMax ty) : intVal ty (ofInt (tyWidth ty) i) = i := by
  interval_cases ty
  all_goals
    simp +decide only [intMin, intMax, tyWidth, reduceIte] at hlo hhi
    simp +decide only [intVal, ofInt, toInt, tyWidth, reduceIte]
    omega

/-- A code of an integer format holds a value of its range unless it is the absent code. -/
theorem ne_absentOf_iff (hty : ty ≤ 5) (hx : x < 2 ^ tyWidth ty) :
    x ≠ absentOf ty ↔ intMin ty ≤ intVal ty x ∧ intVal ty x ≤ intMax ty := by
  interval_cases ty
  all_goals
    simp only [tyWidth] at hx
    simp +decide only [intVal, toInt, tyWidth, intMin, intMax, absentOf, fmtOf, reduceIte]
    omega

theorem absentOf_lt (hty : ty ≤ 5) : absentOf ty < 2 ^ tyWidth ty := by
  interval_cases ty <;> decide

/-- An exact integer result as R59 brings it into a format's range. -/
def Ranged (ty : Nat) (sat : Bool) (exact : Int) (r : Nat) : Prop :=
  r < 2 ^ tyWidth ty ∧ r ≠ absentOf ty ∧
  (intMin ty ≤ exact → exact ≤ intMax ty → intVal ty r = exact) ∧
  (sat = true → intMax ty < exact → intVal ty r = intMax ty) ∧
  (sat = true → exact < intMin ty → intVal ty r = intMin ty) ∧
  (sat = false → intMin ty ≤ intVal ty r ∧ intVal ty r ≤ intMax ty ∧ (intVal ty r - exact) % (2 ^ tyWidth ty - 1) = 0)

/-- The code of a value `j` of the range, where `j` is what R59 makes of `i`. -/
theorem ranged_ofInt (hty : ty ≤ 5) (hlo : intMin ty ≤ j) (hhi : j ≤ intMax ty) (hin : intMin ty ≤ i → i ≤ intMax ty → j = i)
    (hmax : sat = true → intMax ty < i → j = intMax ty) (hmin : sat = true → i < intMin ty → j = intMin ty)
    (hmod : sat = false → (j - i) % (2 ^ tyWidth ty - 1) = 0) : Ranged ty sat i (ofInt (tyWidth ty) j) := by
  have hv := intVal_ofInt hty hlo hhi
  refine ⟨ofInt_lt, (ne_absentOf_iff hty ofInt_lt).mpr ?_, ?_⟩
  · rw [hv]; exact ⟨hlo, hhi⟩
  · rw [hv]; exact ⟨hin, hmax, hmin, fun h => ⟨hlo, hhi, hmod h⟩⟩

theorem clampInt_eq (hty : ty ≤ 5) : clampInt ty i = ofInt (tyWidth ty) (max (intMin ty) (min (intMax ty) i)) := by
  obtain ⟨hsym, hpos, -⟩ := intRange hty
  rw [clampInt]
  congr 1
  split_ifs <;> omega

/-- Saturation clamps a result, and without it the result is reduced modulo the number of values (R59). -/
theorem ranged_rangeInt (hty : ty ≤ 5) : Ranged ty sat i (rangeInt ty sat i) := by
  obtain ⟨hsym, hpos, hsize⟩ := intRange hty
  have hle : intMin ty ≤ intMax ty := by omega
  unfold rangeInt
  split
  case isTrue hs =>
    rw [clampInt_eq hty]
    exact ranged_ofInt hty (by omega) (by omega) (by omega) (by omega) (by omega) (by simp [hs])
  case isFalse hs =>
    have hs : sat = false := by simpa using hs
    have hn : (0 : Int) < 2 ^ tyWidth ty - 1 := by omega
    split
    case isTrue hi => exact ranged_ofInt hty hi.1 hi.2 (fun _ _ => rfl) (by simp [hs]) (by simp [hs]) (by simp)
    case isFalse hi =>
      have h0 := Int.emod_nonneg (i - intMin ty) hn.ne'
      have h1 := Int.emod_lt_of_pos (i - intMin ty) hn
      refine ranged_ofInt hty (by omega) (by omega) (fun h h' => absurd ⟨h, h'⟩ hi) (by simp [hs]) (by simp [hs]) fun _ => ?_
      rw [show ∀ r : Int, r + intMin ty - i = r - (i - intMin ty) by intro r; ring, Int.emod_sub_emod, sub_self, Int.zero_emod]

/-! ## The two kinds of two-source operation (R97) -/

theorem BinOp.mem_arith {op : BinOp} : op ∈ [BinOp.add, .sub, .mul, .div] ↔ op = .add ∨ op = .sub ∨ op = .mul ∨ op = .div := by
  simp only [List.mem_cons, List.not_mem_nil, or_false]

theorem BinOp.mem_pick {op : BinOp} : op ∈ [BinOp.min, .max] ↔ op = .min ∨ op = .max := by
  simp only [List.mem_cons, List.not_mem_nil, or_false]

theorem BinOp.mem_arith_or_pick {op : BinOp} : op ∈ [BinOp.add, .sub, .mul, .div] ∨ op ∈ [BinOp.min, .max] := by
  cases op <;> decide

/-! ## Operations on integer elements (R98 to R101, R105) -/

/-- The exact result of an arithmetic operation, before it is brought into range (R98, R100). -/
def intExact (ty : Nat) : BinOp → Int → Int → Int
  | .add, x, y => x + y
  | .sub, x, y => x - y
  | .mul, x, y => x * y
  | _, x, y => intDiv ty x y

theorem elemBin_int {op : BinOp} (hty : ty ≤ 5) : elemBin op md ty a b = intBin op md ty a b := by
  rw [elemBin, fmtOf_int hty]

/-- Arithmetic on integer elements: absent propagates, or stands aside, as md.abs says (R62); a result of present operands is brought
into range. -/
theorem elemBin_int_arith {op : BinOp} (hop : op ∈ [BinOp.add, .sub, .mul, .div]) (hty : ty ≤ 5) (ha : a < 2 ^ tyWidth ty)
    (hb : b < 2 ^ tyWidth ty) : elemBin op md ty a b =
      if a = absentOf ty ∨ b = absentOf ty then
        (if mdAbs md = false ∨ a = absentOf ty ∧ b = absentOf ty then absentOf ty else if a = absentOf ty then b else a)
      else rangeInt ty (mdSat md) (intExact ty op (intVal ty a) (intVal ty b)) := by
  rcases BinOp.mem_arith.mp hop with rfl | rfl | rfl | rfl
  all_goals
    simp only [elemBin_int hty, intBin, Nat.mod_eq_of_lt ha, Nat.mod_eq_of_lt hb, Bool.or_eq_true, Bool.and_eq_true, Bool.not_eq_true',
      decide_eq_true_eq, intExact]

/-- The lesser and the greater of integer elements; absent stands aside (R99). -/
theorem elemBin_int_pick {op : BinOp} (hop : op ∈ [BinOp.min, .max]) (hty : ty ≤ 5) (ha : a < 2 ^ tyWidth ty)
    (hb : b < 2 ^ tyWidth ty) : elemBin op md ty a b =
      if a = absentOf ty then b else if b = absentOf ty then a
      else if (intVal ty a ≤ intVal ty b) = (op = .min) then a else b := by
  rcases BinOp.mem_pick.mp hop with rfl | rfl
  all_goals
    simp only [elemBin_int hty, intBin, Nat.mod_eq_of_lt ha, Nat.mod_eq_of_lt hb, decide_true, reduceCtorEq, decide_false, if_true,
      Bool.false_eq_true, if_false, eq_iff_iff, iff_true, iff_false, ite_not]

section Present
variable (hty : ty ≤ 5) (ha : a < 2 ^ tyWidth ty) (hb : b < 2 ^ tyWidth ty) (pa : a ≠ absentOf ty) (pb : b ≠ absentOf ty)
include hty ha hb pa pb

theorem elemBin_int_present {op : BinOp} (hop : op ∈ [BinOp.add, .sub, .mul, .div]) :
    elemBin op md ty a b = rangeInt ty (mdSat md) (intExact ty op (intVal ty a) (intVal ty b)) := by
  rw [elemBin_int_arith hop hty ha hb, if_neg (by simp [pa, pb])]

theorem ranged_elemBin {op : BinOp} (hop : op ∈ [BinOp.add, .sub, .mul, .div]) :
    Ranged ty (mdSat md) (intExact ty op (intVal ty a) (intVal ty b)) (elemBin op md ty a b) := by
  rw [elemBin_int_present hty ha hb pa pb hop]
  exact ranged_rangeInt hty

/-- A quotient lies in the range, so that it needs no bringing into it. -/
theorem intDiv_mem : intMin ty ≤ intDiv ty (intVal ty a) (intVal ty b) ∧ intDiv ty (intVal ty a) (intVal ty b) ≤ intMax ty := by
  obtain ⟨hsym, hpos, -⟩ := intRange hty
  obtain ⟨ha0, ha1⟩ := (ne_absentOf_iff hty ha).mp pa
  obtain ⟨hb0, -⟩ := (ne_absentOf_iff hty hb).mp pb
  rw [intDiv]
  split_ifs
  · omega
  · omega
  · omega
  · have hle : ((intVal ty a).tdiv (intVal ty b)).natAbs ≤ (intVal ty a).natAbs := by
      rw [Int.natAbs_tdiv]; exact Nat.div_le_self _ _
    rcases hsym with hs | ⟨-, hs⟩
    · omega
    · have := Int.tdiv_nonneg (hs ▸ ha0) (hs ▸ hb0)
      omega

theorem intVal_div : intVal ty (elemBin .div md ty a b) = intDiv ty (intVal ty a) (intVal ty b) := by
  obtain ⟨hlo, hhi⟩ := intDiv_mem hty ha hb pa pb
  obtain ⟨-, -, hin, -⟩ := ranged_elemBin (md := md) hty ha hb pa pb (op := .div) (by decide)
  exact hin hlo hhi

theorem intVal_min : intVal ty (elemBin .min md ty a b) = min (intVal ty a) (intVal ty b) := by
  rw [elemBin_int_pick (by decide) hty ha hb, if_neg pa, if_neg pb, min_def]
  simp only [eq_iff_iff, iff_true]
  split <;> rfl

theorem intVal_max : intVal ty (elemBin .max md ty a b) = max (intVal ty a) (intVal ty b) := by
  rw [elemBin_int_pick (by decide) hty ha hb, if_neg pa, if_neg pb, max_def]
  simp only [eq_iff_iff, reduceCtorEq, iff_false, ite_not]
  split <;> rfl

/-- A product and a sum are brought into range once (R101). -/
theorem ranged_elemFma (hc : c < 2 ^ tyWidth ty) (pc : c ≠ absentOf ty) : Ranged ty (mdSat md)
    (intVal ty c + if neg then -(intVal ty a * intVal ty b) else intVal ty a * intVal ty b) (elemFma neg md ty a b c) := by
  have e : elemFma neg md ty a b c = rangeInt ty (mdSat md)
      (intVal ty c + if neg then -(intVal ty a * intVal ty b) else intVal ty a * intVal ty b) := by
    simp only [elemFma, fmtOf_int hty, Nat.mod_eq_of_lt ha, Nat.mod_eq_of_lt hb, Nat.mod_eq_of_lt hc, pa, pb, pc, decide_false,
      Bool.or_self, Bool.false_eq_true, if_false]
  rw [e]
  exact ranged_rangeInt hty

end Present

section One
variable (hty : ty ≤ 5) (ha : a < 2 ^ tyWidth ty) (pa : a ≠ absentOf ty)
include hty ha pa

theorem ranged_neg : Ranged ty (mdSat md) (-intVal ty a) (elemUn .neg md ty a) := by
  have e : elemUn .neg md ty a = rangeInt ty (mdSat md) (-intVal ty a) := by
    simp only [elemUn, fmtOf_int hty, Nat.mod_eq_of_lt ha, pa, if_false]
  rw [e]
  exact ranged_rangeInt hty

theorem intVal_abs : intVal ty (elemUn .abs md ty a) = (intVal ty a).natAbs := by
  obtain ⟨hsym, hpos, -⟩ := intRange hty
  obtain ⟨ha0, ha1⟩ := (ne_absentOf_iff hty ha).mp pa
  obtain ⟨-, -, hin, -⟩ := ranged_rangeInt (sat := mdSat md) (i := (intVal ty a).natAbs) hty
  simp only [elemUn, fmtOf_int hty, Nat.mod_eq_of_lt ha, pa, if_false]
  split
  case isTrue hs =>
    have hs : intMin ty = -intMax ty := by simpa [hs] using hsym
    exact hin (by omega) (by omega)
  case isFalse hs =>
    simp only [intVal, hs, Bool.false_eq_true, if_false, Int.natAbs_natCast]

end One

section Absent
variable {op : BinOp} (hty : ty ≤ 5) (ha : a < 2 ^ tyWidth ty) (hb : b < 2 ^ tyWidth ty)
include hty ha hb

theorem elemBin_int_absent (hop : op ∈ [BinOp.add, .sub, .mul, .div]) :
    (mdAbs md = false → elemBin op md ty (absentOf ty) b = absentOf ty ∧ elemBin op md ty a (absentOf ty) = absentOf ty) ∧
    (mdAbs md = true → elemBin op md ty (absentOf ty) b = b ∧ elemBin op md ty a (absentOf ty) = a) := by
  rw [elemBin_int_arith hop hty (absentOf_lt hty) hb, elemBin_int_arith hop hty ha (absentOf_lt hty)]
  refine ⟨fun h => by simp [h], fun h => ?_⟩
  by_cases e : a = absentOf ty <;> by_cases e' : b = absentOf ty <;> simp [h, e, e']

theorem elemBin_int_absent_pick (hop : op ∈ [BinOp.min, .max]) :
    elemBin op md ty (absentOf ty) b = b ∧ elemBin op md ty a (absentOf ty) = a := by
  rw [elemBin_int_pick hop hty (absentOf_lt hty) hb, elemBin_int_pick hop hty ha (absentOf_lt hty), if_pos rfl, if_pos rfl]
  exact ⟨rfl, ite_eq_right_iff.mpr Eq.symm⟩

end Absent

end Integers

end Sys2Proof.Machine
end

section
/-!
SUPPORT. Operations on floating elements (R54, R58 to R62, R98 to R107): what NaN and absent operands give, and what of md an operation
on f32 elements reads; and the statement about the typed words.
-/

namespace Sys2Proof.Machine

section Floats
variable {f : Fmt} {md : Word} {ty a b cc : Nat} {r : Rnd} {x y : Num} {down neg : Bool} {op : BinOp}

theorem elemBin_float (hf : fmtOf ty = some f) : elemBin op md ty a b = floatBin op f md ty a b := by
  rw [elemBin, hf]

theorem elemUn_float {op : UnOp} (hf : fmtOf ty = some f) : elemUn op md ty a = floatUn op f md ty a := by
  rw [elemUn, hf]

/-- The rounded result of an arithmetic operation on present values (R98, R100). -/
def floatExact (f : Fmt) (r : Rnd) : BinOp → Num → Num → Nat
  | .add, x, y => pack f r (addNum (r.mode = 2) x y)
  | .sub, x, y => pack f r (addNum (r.mode = 2) x (negNum y))
  | .mul, x, y => pack f r (mulNum x y)
  | _, x, y => divCode f r x y

theorem Num.isAbsent_iff : x.isAbsent = true ↔ x = .absent := by cases x <;> simp [Num.isAbsent]
theorem Num.isNan_iff : x.isNan = true ↔ x = .nan := by cases x <;> simp [Num.isNan]

/-- Arithmetic on floating elements: absent propagates, or stands aside, as md.abs says (R62). -/
theorem elemBin_float_arith (hop : op ∈ [BinOp.add, .sub, .mul, .div]) (hf : fmtOf ty = some f) :
    elemBin op md ty a b =
      if operand f md ty a = .absent ∨ operand f md ty b = .absent then
        (if mdAbs md = false ∨ operand f md ty a = .absent ∧ operand f md ty b = .absent then f.absent
         else if operand f md ty a = .absent then pack f (mdRound md ty) (operand f md ty b)
         else pack f (mdRound md ty) (operand f md ty a))
      else floatExact f (mdRound md ty) op (operand f md ty a) (operand f md ty b) := by
  rcases BinOp.mem_arith.mp hop with rfl | rfl | rfl | rfl
  all_goals
    simp only [elemBin_float hf, floatBin, Bool.or_eq_true, Bool.and_eq_true, Bool.not_eq_true', Num.isAbsent_iff, floatExact]

/-- The lesser and the greater of floating elements: absent stands aside, NaN does not (R99). -/
theorem elemBin_float_pick (hop : op ∈ [BinOp.min, .max]) (hf : fmtOf ty = some f) :
    elemBin op md ty a b =
      if operand f md ty a = .absent then exactCode f (mdFlushOut md ty) (operand f md ty b)
      else if operand f md ty b = .absent then exactCode f (mdFlushOut md ty) (operand f md ty a)
      else if operand f md ty a = .nan ∨ operand f md ty b = .nan then f.nan
      else exactCode f (mdFlushOut md ty) (pickNum (op = .min) (operand f md ty a) (operand f md ty b)) := by
  rcases BinOp.mem_pick.mp hop with rfl | rfl
  all_goals
    simp only [elemBin_float hf, floatBin, Bool.or_eq_true, Num.isAbsent_iff, Num.isNan_iff, mdRound]

/-! ## Absent -/

section Absent
variable (hf : fmtOf ty = some f)
include hf

theorem elemBin_float_absent (hop : op ∈ [BinOp.add, .sub, .mul, .div]) :
    (mdAbs md = false → operand f md ty a = .absent ∨ operand f md ty b = .absent → elemBin op md ty a b = f.absent) ∧
    (operand f md ty a = .absent → operand f md ty b = .absent → elemBin op md ty a b = f.absent) ∧
    (mdAbs md = true → operand f md ty a = .absent → operand f md ty b ≠ .absent →
      elemBin op md ty a b = pack f (mdRound md ty) (operand f md ty b)) ∧
    (mdAbs md = true → operand f md ty a ≠ .absent → operand f md ty b = .absent →
      elemBin op md ty a b = pack f (mdRound md ty) (operand f md ty a)) := by
  rw [elemBin_float_arith hop hf]
  refine ⟨fun h hxy => ?_, fun hx hy => ?_, fun h hx hy => ?_, fun h hx hy => ?_⟩
  · rw [if_pos hxy, if_pos (.inl h)]
  · rw [if_pos (.inl hx), if_pos (.inr ⟨hx, hy⟩)]
  · rw [if_pos (.inl hx), if_neg (by simp [h, hy]), if_pos hx]
  · rw [if_pos (.inr hy), if_neg (by simp [h, hx]), if_neg hx]

theorem elemBin_float_pick_of_absent (hop : op ∈ [BinOp.min, .max]) (hx : operand f md ty a = .absent) :
    elemBin op md ty a b = exactCode f (mdFlushOut md ty) (operand f md ty b) := by
  rw [elemBin_float_pick hop hf, if_pos hx]

theorem elemBin_float_present (hop : op ∈ [BinOp.add, .sub, .mul, .div]) (hx : operand f md ty a ≠ .absent)
    (hy : operand f md ty b ≠ .absent) :
    elemBin op md ty a b = floatExact f (mdRound md ty) op (operand f md ty a) (operand f md ty b) := by
  rw [elemBin_float_arith hop hf, if_neg (not_or.mpr ⟨hx, hy⟩)]

end Absent

/-! ## NaN -/

theorem addNum_nan (h : (x = .nan ∧ y ≠ .absent) ∨ (x ≠ .absent ∧ y = .nan)) : addNum down x y = .nan := by
  rcases h with ⟨rfl, hy⟩ | ⟨hx, rfl⟩
  · cases y <;> simp_all [addNum]
  · cases x <;> simp_all [addNum]

theorem mulNum_nan (h : (x = .nan ∧ y ≠ .absent) ∨ (x ≠ .absent ∧ y = .nan)) : mulNum x y = .nan := by
  rcases h with ⟨rfl, hy⟩ | ⟨hx, rfl⟩
  · cases y <;> simp_all [mulNum]
  · cases x <;> simp_all [mulNum]

theorem divCode_nan (h : (x = .nan ∧ y ≠ .absent) ∨ (x ≠ .absent ∧ y = .nan)) : divCode f r x y = f.nan := by
  rcases h with ⟨rfl, hy⟩ | ⟨hx, rfl⟩
  · cases y <;> simp_all [divCode]
  · cases x <;> simp_all [divCode]

theorem negNum_eq_absent_iff : negNum x = .absent ↔ x = .absent := by cases x <;> simp [negNum]

theorem floatExact_nan (hop : op ∈ [BinOp.add, .sub, .mul, .div]) (h : (x = .nan ∧ y ≠ .absent) ∨ (x ≠ .absent ∧ y = .nan)) :
    floatExact f r op x y = f.nan := by
  have hn : (x = .nan ∧ negNum y ≠ .absent) ∨ (x ≠ .absent ∧ negNum y = .nan) :=
    h.imp (.imp_right (mt negNum_eq_absent_iff.mp)) (.imp_right fun e => by rw [e]; rfl)
  rcases BinOp.mem_arith.mp hop with rfl | rfl | rfl | rfl
  · exact congrArg (pack f r) (addNum_nan h)
  · exact congrArg (pack f r) (addNum_nan hn)
  · exact congrArg (pack f r) (mulNum_nan h)
  · exact divCode_nan h

theorem elemBin_nan (hf : fmtOf ty = some f)
    (h : (operand f md ty a = .nan ∧ operand f md ty b ≠ .absent) ∨ (operand f md ty a ≠ .absent ∧ operand f md ty b = .nan)) :
    elemBin op md ty a b = f.nan := by
  have present : operand f md ty a ≠ .absent ∧ operand f md ty b ≠ .absent := by
    rcases h with ⟨e, h⟩ | ⟨h, e⟩ <;> simp [e, h]
  rcases BinOp.mem_arith_or_pick (op := op) with hop | hop
  · rw [elemBin_float_present hf hop present.1 present.2, floatExact_nan hop h]
  · rw [elemBin_float_pick hop hf, if_neg present.1, if_neg present.2, if_pos (h.imp And.left And.right)]

/-! ## One operand, and compares -/

theorem elemUn_absent {op : UnOp} (hf : fmtOf ty = some f) (h : operand f md ty a = .absent) : elemUn op md ty a = f.absent := by
  rw [operand] at h
  simp only [elemUn_float hf, floatUn, h, Num.isAbsent, if_true]

theorem elemUn_nan {op : UnOp} (hf : fmtOf ty = some f) (h : operand f md ty a = .nan) : elemUn op md ty a = f.nan := by
  rw [operand] at h
  simp only [elemUn_float hf, floatUn, h, Num.isAbsent, Bool.false_eq_true, if_false]
  cases op <;> rfl

/-- A compare with a NaN or an absent operand is unordered (R106). -/
theorem elemCmp_unordered (hcc : cc < 8) (h : operand f md ty a = .nan ∨ operand f md ty b = .nan ∨
      operand f md ty a = .absent ∨ operand f md ty b = .absent) :
    elemCmp f md ty cc a b =
      (cc = 1 || cc = 6 || (cc = 7 && (operand f md ty a = .absent || operand f md ty b = .absent))) := by
  have un : ((operand f md ty a).isNan || (operand f md ty b).isNan || (operand f md ty a).isAbsent ||
      (operand f md ty b).isAbsent) = true := by
    simpa only [Bool.or_eq_true, Num.isNan_iff, Num.isAbsent_iff, or_assoc] using h
  have abs (z : Num) : z.isAbsent = decide (z = .absent) := by cases z <;> rfl
  unfold elemCmp
  simp only [un]
  interval_cases cc
  all_goals simp [abs]

end Floats

/-! ## What an operation on f32 elements reads of md (R21) -/

/-- Two modes agree in what an operation on f32 elements reads: rounding, saturation, the absent policy and the flush bits (R21). -/
structure SameF32 (md m : Word) : Prop where
  rnd : mdRnd md = mdRnd m
  sat : mdSat md = mdSat m
  abs : mdAbs md = mdAbs m
  flushIn : mdFlushIn md 6 = mdFlushIn m 6
  flushOut : mdFlushOut md 6 = mdFlushOut m 6

section Modes
variable {md m : Word} {a b c : Nat} {neg : Bool}

theorem SameF32.round (h : SameF32 md m) : mdRound md 6 = mdRound m 6 := by
  rw [mdRound, h.rnd, h.sat, h.flushOut]; rfl

theorem SameF32.operand (h : SameF32 md m) : operand fmtF32 md 6 a = operand fmtF32 m 6 a := by
  rw [Machine.operand, h.flushIn]; rfl

theorem SameF32.elemBin (h : SameF32 md m) {op : BinOp} : elemBin op md 6 a b = elemBin op m 6 a b := by
  simp only [Machine.elemBin, fmtOf, floatBin, h.operand, h.round, h.abs]

theorem SameF32.elemUn (h : SameF32 md m) {op : UnOp} : elemUn op md 6 a = elemUn op m 6 a := by
  simp only [Machine.elemUn, fmtOf, floatUn, h.flushIn, h.round]

theorem SameF32.elemFma (h : SameF32 md m) : elemFma neg md 6 a b c = elemFma neg m 6 a b c := by
  simp only [Machine.elemFma, fmtOf, h.operand, h.round, h.abs]

/-- A mode with nothing set but what an operation on f32 elements reads. -/
def modeF32 (rnd : Fin 8) (sat abs flushIn flushOut : Bool) : Word :=
  BitVec.ofNat 32 (rnd * 2 ^ 8 + b2n sat * 2 ^ 11 + b2n flushIn * 2 ^ 14 + b2n flushOut * 2 ^ 15 + b2n abs * 2 ^ 24)

theorem modeF32_fields : ∀ (rnd : Fin 8) (sat abs flushIn flushOut : Bool),
    let m := modeF32 rnd sat abs flushIn flushOut
    mdRnd m = rnd ∧ mdSat m = sat ∧ mdAbs m = abs ∧ mdFlushIn m 6 = flushIn ∧ mdFlushOut m 6 = flushOut := by
  decide +kernel

theorem exists_sameF32 (md : Word) : ∃ rnd sat abs flushIn flushOut, SameF32 md (modeF32 rnd sat abs flushIn flushOut) := by
  have hr : mdRnd md < 8 := Nat.mod_lt _ (by decide)
  obtain ⟨h1, h2, h3, h4, h5⟩ := modeF32_fields ⟨mdRnd md, hr⟩ (mdSat md) (mdAbs md) (mdFlushIn md 6) (mdFlushOut md 6)
  exact ⟨_, _, _, _, _, h1.symm, h2.symm, h3.symm, h4.symm, h5.symm⟩

end Modes

/-- Settles O7: each word writes the register of its element function; integer results by `ranged_rangeInt`, floating ones by the classes
of their operands, and the samples for every mode that f32 elements tell apart. -/
theorem typedWordsApplyTheElementFunctions : Obligations.TypedWordsApplyTheElementFunctions := by
  unfold Obligations.TypedWordsApplyTheElementFunctions
  refine ⟨fun s p t h pd k d a c m hpd => ?words, fun md a b c e => ?packed, fun md ty a b c hty ha hb hc => ?integers,
    fun md ty a b f hf => ?floats, fun md => ?samples, ?registers⟩
  case words =>
    intro A C bin un
    exact ⟨computesVal_of _ exec_addT rfl, computesVal_of _ exec_subT rfl, computesVal_of _ exec_mulT rfl, computesVal_of _ exec_minT rfl,
      computesVal_of _ exec_maxT rfl, computesVal_of _ exec_divT rfl, computesVal_of _ exec_absT rfl, computesVal_of _ exec_negT rfl,
      computesVal_of _ exec_sqrt rfl, computesVal_of _ exec_rcp rfl, computesVal_of _ exec_rsq rfl, computesVal_of _ exec_exp2 rfl,
      computesVal_of _ exec_log2 rfl, computesVal_of _ exec_sinpi rfl, computesVal_of _ exec_cospi rfl, computesVal_of _ exec_fma rfl,
      computesVal_of _ exec_fmaN rfl, computesVal_of _ exec_mkabs rfl, computes_of _ exec_dot rfl, computesPred_of _ hpd exec_fcmp rfl,
      computesPred_of _ hpd exec_classify rfl⟩
  case packed => exact fun he => ⟨fun op => regBin_at he, fun op => regUn_at he, fun neg => regFma_at he, regAbsent_at he⟩
  case integers =>
    intro n A B absent ranged
    refine ⟨fun pa pb => ?_, fun pa => ⟨ranged_neg hty ha pa, intVal_abs hty ha pa⟩, fun op => elemBin_int_absent hty ha hb,
      fun op => elemBin_int_absent_pick hty ha hb⟩
    have arith {op} : op ∈ [BinOp.add, .sub, .mul, .div] → _ := ranged_elemBin (md := md) hty ha hb pa pb
    have quotient := intVal_div (md := md) hty ha hb pa pb
    exact ⟨arith (op := .add) (by decide), arith (op := .sub) (by decide), arith (op := .mul) (by decide),
      fun h0 => quotient.trans (if_neg h0), fun h0 => quotient.trans (if_pos h0), intVal_min hty ha hb pa pb, intVal_max hty ha hb pa pb,
      fun pc => ⟨ranged_elemFma hty ha hb pa pb hc pc, ranged_elemFma (neg := true) hty ha hb pa pb hc pc⟩⟩
  case floats =>
    intro x y
    refine ⟨fun op => elemBin_nan hf, fun op hop => elemBin_float_absent hf hop, fun op hop => ?_,
      fun op => ⟨elemUn_absent hf, elemUn_nan hf⟩, fun hx hy => ?_, fun cc hcc => elemCmp_unordered hcc⟩
    · have picks (hx : x = .absent) : elemBin op md ty a b = exactCode f (mdFlushOut md ty) y := elemBin_float_pick_of_absent hf hop hx
      exact ⟨fun hx hy => by rw [picks hx, hy]; rfl, fun hx hy => by rw [picks hx, hy]; rfl⟩
    · exact ⟨elemBin_float_present (op := .add) hf (by decide) hx hy, elemBin_float_present (op := .mul) hf (by decide) hx hy⟩
  case samples =>
    obtain ⟨rnd, sat, abs, flushIn, flushOut, h⟩ := exists_sameF32 md
    simp only [h.elemBin, h.elemUn, h.elemFma, h.rnd, h.sat, h.flushIn, h.flushOut]
    clear h
    revert rnd sat abs flushIn flushOut
    decide +kernel
  case registers => decide +kernel

end Sys2Proof.Machine
end

section
/-!
SUPPORT. The conversion words (R108 to R111): quantised blocks read off their tiles, and an element converted from each kind of type to
each.
-/

namespace Sys2Proof.Machine

/-! ## Quantised blocks (R111) -/

section Blocks
variable {t : Team} {i l d a : Nat} {had : Bool}

/-- Register `i` of a lane's results of a quantised block: the code register, then scale and special byte (R111). -/
def Quant.reg (q : Quant) (bits w i l : Nat) : Word :=
  if i = 0 then BitVec.ofNat 32 (packElems bits ((q.codes.drop (l % w / (32 / bits) * (32 / bits))).take (32 / bits)))
  else BitVec.ofNat 32 (q.scale + 256 * q.special)

/-- What `cvtmx` writes: each lane its part of its tile's quantised block. -/
def Team.cvtmxReg (t : Team) (a : Nat) (had : Bool) (i l : Nat) : Word :=
  Quant.reg (((span 0 (32 * t.groups / t.tileWidth)).map (fun j => t.quantTile a had (t.tileWidth * j))).getD (l / t.tileWidth)
    { codes := [], scale := 0, special := 0 }) (tyWidth (mdType t.md)) t.tileWidth i l

theorem cvtmxTeam_eq : cvtmxTeam d a had t = t.writeSpan d 2 (t.cvtmxReg a had) := rfl

theorem Team.cvtmxReg_eq (hl : l / t.tileWidth < 32 * t.groups / t.tileWidth) : t.cvtmxReg a had i l =
    Quant.reg (t.quantTile a had (l / t.tileWidth * t.tileWidth)) (tyWidth (mdType t.md)) t.tileWidth i l := by
  rw [Team.cvtmxReg, getD_map_span hl, Nat.zero_add, Nat.mul_comm]

end Blocks

/-! ## One element (R63, R109) -/

section Conversions
variable {md : Word} {src dst a : Nat} {f g : Fmt} {x : Num} {i : Int}

theorem intVal_clampInt (hd : dst ≤ 5) : intVal dst (clampInt dst i) = max (intMin dst) (min (intMax dst) i) := by
  obtain ⟨hsym, hpos, -⟩ := intRange hd
  rw [clampInt_eq hd]
  exact intVal_ofInt hd (by omega) (by omega)

theorem absentOf_float (hg : fmtOf dst = some g) : absentOf dst = g.absent := by
  rw [absentOf, hg]

/-! ## From an integer type -/

theorem elemCvt_int_absent (hs : src ≤ 5) : elemCvt md src dst (absentOf src) = absentOf dst := by
  simp only [elemCvt, fmtOf_int hs, Nat.mod_eq_of_lt (absentOf_lt hs), if_true]

theorem elemCvt_int_int (hs : src ≤ 5) (hd : dst ≤ 5) (ha : a < 2 ^ tyWidth src) (pa : a ≠ absentOf src) :
    elemCvt md src dst a = clampInt dst (intVal src a) := by
  simp only [elemCvt, fmtOf_int hs, fmtOf_int hd, Nat.mod_eq_of_lt ha, pa, if_false]

theorem elemCvt_int_float (hs : src ≤ 5) (hg : fmtOf dst = some g) (ha : a < 2 ^ tyWidth src) (pa : a ≠ absentOf src) :
    elemCvt md src dst a = pack g (mdRound md dst) (.fin (decide (intVal src a < 0)) (intVal src a).natAbs 0) := by
  simp only [elemCvt, fmtOf_int hs, hg, Nat.mod_eq_of_lt ha, pa, if_false]

/-! ## From a floating type -/

/-- What a value converts to as an integer (R109): it clamps whatever md.sat holds, and NaN gives 0. -/
def intOfNum (md : Word) (dst : Nat) : Num → Nat
  | .absent => absentOf dst
  | .nan => 0
  | .inf neg => clampInt dst (if neg then intMin dst else intMax dst)
  | .fin neg m e => clampInt dst (roundToInt (mdRnd md) neg m e)

theorem elemCvt_float_int (hf : fmtOf src = some f) (hd : dst ≤ 5) : elemCvt md src dst a = intOfNum md dst (operand f md src a) := by
  simp only [elemCvt, hf, fmtOf_int hd]
  cases operand f md src a <;> rfl

theorem elemCvt_float_float (hf : fmtOf src = some f) (hg : fmtOf dst = some g) : elemCvt md src dst a =
    if src = dst then exactCode g (mdFlushOut md dst) (operand f md src a) else pack g (mdRound md dst) (operand f md src a) := by
  simp only [elemCvt, hf, hg]

theorem intVal_intOfNum_inf {neg : Bool} (hd : dst ≤ 5) :
    intVal dst (intOfNum md dst (.inf neg)) = if neg then intMin dst else intMax dst := by
  obtain ⟨hsym, hpos, -⟩ := intRange hd
  rw [intOfNum, intVal_clampInt hd]
  split <;> omega

end Conversions

/-- Settles O8: each word writes the registers of its conversion, element by element, and an element converts by the class of its source. -/
theorem conversionWordsConvertElements : Obligations.ConversionWordsConvertElements := by
  unfold Obligations.ConversionWordsConvertElements
  refine ⟨fun s p t h d a src => ?words, fun md src dst a f g => ?elements, by decide +kernel⟩
  case words =>
    intro ty w n elem mx
    refine ⟨computesSpan_of _ exec_cvt rfl, fun i had hi => ⟨t.cvtmxReg a.toNat had, ?_, fun r l hl => Team.cvtmxReg_eq hl⟩,
      computes_of _ exec_pack rfl, computesSpan_of _ exec_unpack rfl⟩
    simp only [List.mem_cons, Prod.mk.injEq, List.not_mem_nil, or_false] at hi
    rcases hi with ⟨rfl, rfl⟩ | ⟨rfl, rfl⟩ | ⟨rfl, rfl⟩
    · exact computesSpan_of _ exec_cvtmx cvtmxTeam_eq
    · exact computesSpan_of _ exec_cvtmxH16 cvtmxTeam_eq
    · exact computesSpan_of _ exec_cvtmxH32 cvtmxTeam_eq
  case elements =>
    intro x clamped
    refine ⟨fun hd => ⟨fun hs ha => ⟨elemCvt_int_absent hs, fun pa => ?_⟩, fun hf => ?_⟩,
      fun hg => ⟨fun hs ha => ⟨?_, elemCvt_int_float hs hg ha⟩, fun hf => ?_⟩⟩
    · exact (congrArg _ (elemCvt_int_int hs hd ha pa)).trans (intVal_clampInt hd)
    · have e : elemCvt md src dst a = intOfNum md dst x := elemCvt_float_int hf hd
      refine ⟨fun hx => ?_, fun hx => ?_, fun neg hx => ?_, fun neg m k hx => ?_⟩
      · rw [e, hx]; rfl
      · rw [e, hx]; rfl
      · rw [e, hx, intVal_intOfNum_inf hd]
      · rw [e, hx]; exact intVal_clampInt hd
    · rw [elemCvt_int_absent hs, absentOf_float hg]
    · have e : elemCvt md src dst a =
        if src = dst then exactCode g (mdFlushOut md dst) x else pack g (mdRound md dst) x := elemCvt_float_float hf hg
      refine ⟨fun hx => ?_, fun hx => ?_, fun hne _ _ => e.trans (if_neg hne)⟩
      · rw [e, hx]; exact ite_self _
      · rw [e, hx]; exact ite_self _

end Sys2Proof.Machine
end

section
/-!
SUPPORT. What a core holds of a row of a tile (R64, R163): its entries and side registers after each write, changes that act on one row, and
many such changes one after another.
-/

namespace Sys2Proof.Machine

/-! ## Maps -/

theorem AMap.get_erase {α : Type} (d : α) (m : AMap α) (k j : Nat) :
    AMap.get d (AMap.erase m k) j = if j = k then d else AMap.get d m j := by
  unfold AMap.get
  rw [AMap.find_erase]
  split <;> rfl

/-- Keeping the entries whose keys pass a test leaves those keys as they are, and the others at the default. -/
theorem AMap.get_filter {α : Type} (d : α) (m : AMap α) (q : Nat → Bool) (j : Nat) :
    AMap.get d (m.filter (fun e => q e.1)) j = if q j then AMap.get d m j else d := by
  unfold AMap.get
  induction m with
  | nil => simp [AMap.find]
  | cons e m ih =>
    rw [List.filter_cons]
    by_cases he : e.1 = j
    · subst he
      by_cases hq : q e.1 = true
      · simp [hq, AMap.find]
      · simpa [hq] using ih
    · by_cases hq : q e.1 = true
      · simpa [hq, AMap.find, he] using ih
      · simpa [hq, AMap.find, he] using ih

/-! ## Entries and side registers -/

/-- The stored form of an entry: its count above its value (R64). -/
def holdEntry (e : Nat × Nat) : BitVec 80 := BitVec.ofNat 80 (e.1 * 2 ^ 64 + e.2)

/-- An entry of a tile as it is stored. -/
def Core.cell (k : Core) (n row col : Nat) : BitVec 80 := AMap.get 0#80 k.tiles (n * 16384 + row * 128 + col)

section Reads
variable {k k' : Core} {x i j n row col v : Nat} {e : Nat × Nat} {side : Bool}

theorem Core.entry_congr (h : k.cell n row col = k'.cell n row col) : k.entry n row col = k'.entry n row col :=
  congrArg (fun c : BitVec 80 => (c.toNat / 2 ^ 64, c.toNat % 2 ^ 64)) h

@[simp] theorem Core.rmax_setEntry : (k.setEntry x i j e).rmax n row = k.rmax n row := by rw [Core.setEntry, Core.rmax, Core.rmax]
@[simp] theorem Core.rsum_setEntry : (k.setEntry x i j e).rsum n row = k.rsum n row := by rw [Core.setEntry, Core.rsum, Core.rsum]
@[simp] theorem Core.rfac_setEntry : (k.setEntry x i j e).rfac n row = k.rfac n row := by rw [Core.setEntry, Core.rfac, Core.rfac]
@[simp] theorem Core.cell_setMax : (k.setMax x i v).cell n row col = k.cell n row col := by rw [Core.setMax, Core.cell, Core.cell]
@[simp] theorem Core.rsum_setMax : (k.setMax x i v).rsum n row = k.rsum n row := by rw [Core.setMax, Core.rsum, Core.rsum]
@[simp] theorem Core.rfac_setMax : (k.setMax x i v).rfac n row = k.rfac n row := by rw [Core.setMax, Core.rfac, Core.rfac]
@[simp] theorem Core.cell_setSum : (k.setSum x i v).cell n row col = k.cell n row col := by rw [Core.setSum, Core.cell, Core.cell]
@[simp] theorem Core.rmax_setSum : (k.setSum x i v).rmax n row = k.rmax n row := by rw [Core.setSum, Core.rmax, Core.rmax]
@[simp] theorem Core.rfac_setSum : (k.setSum x i v).rfac n row = k.rfac n row := by rw [Core.setSum, Core.rfac, Core.rfac]
@[simp] theorem Core.cell_setFac : (k.setFac x i v).cell n row col = k.cell n row col := by rw [Core.setFac, Core.cell, Core.cell]
@[simp] theorem Core.rmax_setFac : (k.setFac x i v).rmax n row = k.rmax n row := by rw [Core.setFac, Core.rmax, Core.rmax]
@[simp] theorem Core.rsum_setFac : (k.setFac x i v).rsum n row = k.rsum n row := by rw [Core.setFac, Core.rsum, Core.rsum]

section Places
variable (hi : i < 128) (hr : row < 128)
include hi hr

theorem Core.cell_setEntry (hj : j < 128) (hc : col < 128) :
    (k.setEntry x i j e).cell n row col = if n = x ∧ row = i ∧ col = j then holdEntry e else k.cell n row col := by
  unfold Core.cell Core.setEntry
  rw [AMap.get_put]
  exact if_congr (by omega) rfl rfl

theorem Core.rmax_setMax : (k.setMax x i v).rmax n row = if n = x ∧ row = i then v % 2 ^ 32 else k.rmax n row := by
  unfold Core.rmax Core.setMax
  rw [AMap.get_put, apply_ite BitVec.toNat, BitVec.toNat_ofNat]
  exact if_congr (by omega) rfl rfl

theorem Core.rsum_setSum : (k.setSum x i v).rsum n row = if n = x ∧ row = i then v % 2 ^ 32 else k.rsum n row := by
  unfold Core.rsum Core.setSum
  rw [AMap.get_put, apply_ite BitVec.toNat, BitVec.toNat_ofNat]
  exact if_congr (by omega) rfl rfl

theorem Core.rfac_setFac : (k.setFac x i v).rfac n row = if n = x ∧ row = i then v % 2 ^ 32 else k.rfac n row := by
  unfold Core.rfac Core.setFac
  rw [AMap.get_put, apply_ite BitVec.toNat, BitVec.toNat_ofNat]
  exact if_congr (by omega) rfl rfl

theorem Core.cell_clearRow (hc : col < 128) :
    (k.clearRow x side i).cell n row col = if n = x ∧ row = i then 0#80 else k.cell n row col := by
  have key : (k.clearRow x side i).tiles = k.tiles.filter (fun e => decide (e.1 / 128 ≠ x * 128 + i)) := by cases side <;> rfl
  unfold Core.cell
  rw [key, AMap.get_filter _ _ (fun a => decide (a / 128 ≠ x * 128 + i)), ← ite_not]
  exact if_congr (by rw [decide_eq_true_iff]; omega) rfl rfl

theorem Core.rmax_clearRow :
    (k.clearRow x side i).rmax n row = if side = true ∧ n = x ∧ row = i then sideMax.toNat else k.rmax n row := by
  cases side
  · simp [Core.clearRow, Core.rmax]
  · simp only [Core.clearRow, Core.rmax, if_true, AMap.get_erase, true_and, apply_ite BitVec.toNat]
    exact if_congr (by omega) rfl rfl

theorem Core.rsum_clearRow :
    (k.clearRow x side i).rsum n row = if side = true ∧ n = x ∧ row = i then 0 else k.rsum n row := by
  cases side
  · simp [Core.clearRow, Core.rsum]
  · simp only [Core.clearRow, Core.rsum, if_true, AMap.get_erase, true_and, apply_ite BitVec.toNat]
    exact if_congr (by omega) rfl rfl

theorem Core.rfac_clearRow :
    (k.clearRow x side i).rfac n row = if side = true ∧ n = x ∧ row = i then sideFac.toNat else k.rfac n row := by
  cases side
  · simp [Core.clearRow, Core.rfac]
  · simp only [Core.clearRow, Core.rfac, if_true, AMap.get_erase, true_and, apply_ite BitVec.toNat]
    exact if_congr (by omega) rfl rfl

end Places
end Reads

/-! ## Acting on a row -/

/-- Two cores hold the same in a row of a tile: its entries and its side registers. -/
structure Core.SameRow (k k' : Core) (n row : Nat) : Prop where
  cell : ∀ col < 128, k.cell n row col = k'.cell n row col
  max : k.rmax n row = k'.rmax n row
  sum : k.rsum n row = k'.rsum n row
  fac : k.rfac n row = k'.rfac n row

/-- Two cores are the same beside what their tiles hold. -/
def Core.SameBeside (k k' : Core) : Prop :=
  { k with tiles := k'.tiles, rowMax := k'.rowMax, rowSum := k'.rowSum, rowFac := k'.rowFac } = k'

/-- A change of a core acts on one row of a tile: it leaves every other row, and all beside the tiles, and what it leaves in its row
follows from what the row held. -/
structure ActsOnRow (g : Core → Core) (n row : Nat) : Prop where
  elsewhere : ∀ k m i, i < 128 → ¬ (m = n ∧ i = row) → (g k).SameRow k m i
  beside : ∀ k, (g k).SameBeside k
  within : ∀ k k', k.SameRow k' n row → (g k).SameRow (g k') n row

section Acts
variable {k k' k'' : Core} {x i j n row col v : Nat} {e : Nat × Nat} {side : Bool} {g g' : Core → Core}

theorem Core.SameRow.refl : k.SameRow k n row := ⟨fun _ _ => rfl, rfl, rfl, rfl⟩

theorem Core.SameRow.trans (h : k.SameRow k' n row) (h' : k'.SameRow k'' n row) : k.SameRow k'' n row :=
  ⟨fun c hc => (h.cell c hc).trans (h'.cell c hc), h.max.trans h'.max, h.sum.trans h'.sum, h.fac.trans h'.fac⟩

theorem Core.SameRow.entry (h : k.SameRow k' n row) (hc : col < 128) : k.entry n row col = k'.entry n row col :=
  Core.entry_congr (h.cell col hc)

theorem Core.SameBeside.trans (h : k.SameBeside k') (h' : k'.SameBeside k'') : k.SameBeside k'' := by
  unfold Core.SameBeside at *
  rw [← h', ← h]

theorem ActsOnRow.id : ActsOnRow (fun k => k) n row := ⟨fun _ _ _ _ _ => .refl, fun _ => rfl, fun _ _ h => h⟩

theorem ActsOnRow.comp (h : ActsOnRow g n row) (h' : ActsOnRow g' n row) : ActsOnRow (fun k => g' (g k)) n row where
  elsewhere k m i hi hn := (h'.elsewhere _ m i hi hn).trans (h.elsewhere k m i hi hn)
  beside k := (h'.beside _).trans (h.beside k)
  within _ _ hk := h'.within _ _ (h.within _ _ hk)

/-- A change may also go by what its own row holds. -/
theorem ActsOnRow.reading {α : Type} {φ : Core → α} {f : α → Core → Core} (hφ : ∀ k k', k.SameRow k' n row → φ k = φ k')
    (h : ∀ a, ActsOnRow (f a) n row) : ActsOnRow (fun k => f (φ k) k) n row where
  elsewhere k := (h (φ k)).elsewhere k
  beside k := (h (φ k)).beside k
  within k k' hk := by
    show (f (φ k) k).SameRow (f (φ k') k') n row
    rw [hφ k k' hk]
    exact (h _).within k k' hk

theorem ActsOnRow.foldl {ι : Type} {f : ι → Core → Core} {js : List ι} (h : ∀ j ∈ js, ActsOnRow (f j) n row) :
    ActsOnRow (fun k => js.foldl (fun k j => f j k) k) n row := by
  induction js with
  | nil => exact .id
  | cons j js ih => exact (h j (by simp)).comp (ih fun j hj => h j (by simp [hj]))

theorem ActsOnRow.setEntry (hi : i < 128) (hj : j < 128) : ActsOnRow (fun k => k.setEntry x i j e) x i where
  elsewhere k m r hr hn := ⟨fun c hc => by rw [Core.cell_setEntry hi hr hj hc, if_neg (by tauto)], by simp, by simp, by simp⟩
  beside _ := by rw [Core.SameBeside, Core.setEntry]
  within k k' h := ⟨fun c hc => by rw [Core.cell_setEntry hi hi hj hc, Core.cell_setEntry hi hi hj hc, h.cell c hc],
    by simp [h.max], by simp [h.sum], by simp [h.fac]⟩

theorem ActsOnRow.setMax (hi : i < 128) : ActsOnRow (fun k => k.setMax x i v) x i where
  elsewhere k m r hr hn := ⟨by simp, by rw [Core.rmax_setMax hi hr, if_neg hn], by simp, by simp⟩
  beside _ := by rw [Core.SameBeside, Core.setMax]
  within k k' h := ⟨fun c hc => by simp [h.cell c hc], by rw [Core.rmax_setMax hi hi, Core.rmax_setMax hi hi, h.max], by simp [h.sum],
    by simp [h.fac]⟩

theorem ActsOnRow.setSum (hi : i < 128) : ActsOnRow (fun k => k.setSum x i v) x i where
  elsewhere k m r hr hn := ⟨by simp, by simp, by rw [Core.rsum_setSum hi hr, if_neg hn], by simp⟩
  beside _ := by rw [Core.SameBeside, Core.setSum]
  within k k' h := ⟨fun c hc => by simp [h.cell c hc], by simp [h.max], by rw [Core.rsum_setSum hi hi, Core.rsum_setSum hi hi, h.sum],
    by simp [h.fac]⟩

theorem ActsOnRow.setFac (hi : i < 128) : ActsOnRow (fun k => k.setFac x i v) x i where
  elsewhere k m r hr hn := ⟨by simp, by simp, by simp, by rw [Core.rfac_setFac hi hr, if_neg hn]⟩
  beside _ := by rw [Core.SameBeside, Core.setFac]
  within k k' h := ⟨fun c hc => by simp [h.cell c hc], by simp [h.max], by simp [h.sum],
    by rw [Core.rfac_setFac hi hi, Core.rfac_setFac hi hi, h.fac]⟩

theorem ActsOnRow.clearRow (hi : i < 128) : ActsOnRow (fun k => k.clearRow x side i) x i where
  elsewhere k m r hr hn := by
    have hs : ¬ (side = true ∧ m = x ∧ r = i) := fun h => hn h.2
    exact ⟨fun c hc => by rw [Core.cell_clearRow hi hr hc, if_neg hn], by rw [Core.rmax_clearRow hi hr, if_neg hs],
      by rw [Core.rsum_clearRow hi hr, if_neg hs], by rw [Core.rfac_clearRow hi hr, if_neg hs]⟩
  beside k := by cases side <;> rfl
  within k k' h := ⟨fun c hc => by rw [Core.cell_clearRow hi hi hc, Core.cell_clearRow hi hi hc, h.cell c hc],
    by rw [Core.rmax_clearRow hi hi, Core.rmax_clearRow hi hi, h.max], by rw [Core.rsum_clearRow hi hi, Core.rsum_clearRow hi hi, h.sum],
    by rw [Core.rfac_clearRow hi hi, Core.rfac_clearRow hi hi, h.fac]⟩

end Acts

/-! ## Acting on many rows -/

section Folds
variable {ι : Type} {f : ι → Core → Core} {pl : ι → Nat × Nat} {js : List ι} {k : Core} {m i : Nat}

theorem foldl_sameRow_of_not_mem (h : ∀ j ∈ js, ActsOnRow (f j) (pl j).1 (pl j).2) (hi : i < 128) (hn : (m, i) ∉ js.map pl) :
    (js.foldl (fun k j => f j k) k).SameRow k m i := by
  induction js generalizing k with
  | nil => exact .refl
  | cons j js ih =>
    rw [List.map_cons, List.mem_cons, not_or] at hn
    have first := (h j (by simp)).elsewhere k m i hi fun e => hn.1 (Prod.ext e.1 e.2)
    exact (ih (fun j hj => h j (by simp [hj])) hn.2).trans first

theorem foldl_sameBeside (h : ∀ j ∈ js, ActsOnRow (f j) (pl j).1 (pl j).2) : (js.foldl (fun k j => f j k) k).SameBeside k := by
  induction js generalizing k with
  | nil => rfl
  | cons j js ih => exact (ih fun j hj => h j (by simp [hj])).trans ((h j (by simp)).beside k)

/-- Of changes that each act on a row of their own, a row sees its own alone. -/
theorem foldl_sameRow_of_mem {j : ι} (h : ∀ j ∈ js, (pl j).2 < 128 ∧ ActsOnRow (f j) (pl j).1 (pl j).2) (hnd : (js.map pl).Nodup)
    (hj : j ∈ js) : (js.foldl (fun k j => f j k) k).SameRow (f j k) (pl j).1 (pl j).2 := by
  induction js generalizing k with
  | nil => simp at hj
  | cons a js ih =>
    rw [List.map_cons, List.nodup_cons] at hnd
    obtain ⟨hlt, hact⟩ := h j hj
    rcases List.mem_cons.mp hj with rfl | hj
    · exact foldl_sameRow_of_not_mem (fun j hj => (h j (by simp [hj])).2) hlt hnd.1
    · have hne : pl j ≠ pl a := fun e => hnd.1 (e ▸ List.mem_map_of_mem hj)
      have before := (h a (by simp)).2.elsewhere k _ _ hlt fun e => hne (Prod.ext e.1 e.2)
      exact (ih (fun j hj => h j (by simp [hj])) hnd.2 hj).trans (hact.within _ _ before)

end Folds

end Sys2Proof.Machine
end

section
/-!
SUPPORT. What the matrix words do in one row of a tile (R163 to R165): loads, multiplies, and the words on side registers.
-/

namespace Sys2Proof.Machine

/-! ## Columns of a row -/

section Columns
variable {ι : Type} {k : Core} {n row col had off : Nat} {c : Word}

theorem nodup_span (i m : Nat) : (span i m).Nodup := by
  rw [span_eq_range']
  exact List.nodup_range'

theorem lt_of_mem_span {j m : Nat} (h : j ∈ span 0 m) : j < m := by
  simpa using ((mem_span _ _ _).mp h).2

theorem mem_span_zero {j m : Nat} (h : j < m) : j ∈ span 0 m :=
  (mem_span _ _ _).mpr ⟨Nat.zero_le _, by omega⟩

theorem foldl_keeps {α : Type} {φ : Core → α} {f : Core → ι → Core} (h : ∀ k j, φ (f k j) = φ k) (js : List ι) (k : Core) :
    φ (js.foldl f k) = φ k := by
  induction js generalizing k with
  | nil => rfl
  | cons j js ih => rw [List.foldl_cons, ih, h]

/-- Writes entries of a row, in the columns that `js` names, each from what it held. -/
def Core.mapRow (k : Core) (n row : Nat) (col : ι → Nat) (f : ι → Nat × Nat → Nat × Nat) (js : List ι) : Core :=
  js.foldl (fun k j => k.setEntry n row (col j) (f j (k.entry n row (col j)))) k

section MapRow
variable {cl : ι → Nat} {f : ι → Nat × Nat → Nat × Nat} {js : List ι}

theorem mapRow_acts (hr : row < 128) (hc : ∀ j ∈ js, cl j < 128) : ActsOnRow (fun k => k.mapRow n row cl f js) n row :=
  ActsOnRow.foldl fun j hj => ActsOnRow.reading (φ := fun k => k.entry n row (cl j)) (f := fun e k => k.setEntry n row (cl j) (f j e))
    (fun _ _ h => h.entry (hc j hj)) (fun _ => .setEntry hr (hc j hj))

theorem Core.cell_mapRow_of_not_mem (hr : row < 128) (hc : ∀ j ∈ js, cl j < 128) (hcol : col < 128) (hn : col ∉ js.map cl) :
    (k.mapRow n row cl f js).cell n row col = k.cell n row col := by
  induction js generalizing k with
  | nil => rfl
  | cons j js ih =>
    rw [List.map_cons, List.mem_cons, not_or] at hn
    exact (ih (fun j hj => hc j (by simp [hj])) hn.2).trans
      (by rw [Core.cell_setEntry hr hr (hc j (by simp)) hcol, if_neg (by simp [hn.1])])

theorem Core.cell_mapRow (hr : row < 128) (hc : ∀ j ∈ js, cl j < 128) (hnd : (js.map cl).Nodup) {j : ι} (hj : j ∈ js) :
    (k.mapRow n row cl f js).cell n row (cl j) = holdEntry (f j (k.entry n row (cl j))) := by
  induction js generalizing k with
  | nil => simp at hj
  | cons a js ih =>
    rw [List.map_cons, List.nodup_cons] at hnd
    have ha := hc a (by simp)
    have hc' : ∀ j ∈ js, cl j < 128 := fun j hj => hc j (by simp [hj])
    rcases List.mem_cons.mp hj with rfl | hj
    · exact (Core.cell_mapRow_of_not_mem hr hc' ha hnd.1).trans (by rw [Core.cell_setEntry hr hr ha ha, if_pos ⟨rfl, rfl, rfl⟩])
    · have hne : cl j ≠ cl a := fun e => hnd.1 (e ▸ List.mem_map_of_mem hj)
      have before : (k.setEntry n row (cl a) (f a (k.entry n row (cl a)))).entry n row (cl j) = k.entry n row (cl j) :=
        Core.entry_congr (by rw [Core.cell_setEntry hr hr ha (hc' j hj), if_neg (by simp [hne])])
      refine (ih hc' hnd.2 hj).trans ?_
      rw [before]

theorem Core.rmax_mapRow {m i : Nat} : (k.mapRow n row cl f js).rmax m i = k.rmax m i :=
  foldl_keeps (φ := fun k => k.rmax m i) (fun _ _ => Core.rmax_setEntry) js k

theorem Core.rfac_mapRow {m i : Nat} : (k.mapRow n row cl f js).rfac m i = k.rfac m i :=
  foldl_keeps (φ := fun k => k.rfac m i) (fun _ _ => Core.rfac_setEntry) js k

end MapRow

/-! ## Loads (R163) -/

theorem length_toBytes (m v : Nat) : (toBytes m v).length = m := by
  induction m generalizing v with
  | zero => rfl
  | succ m ih => rw [toBytes, List.length_cons, ih]

/-- The entry that bytes `16 * i` to `16 * i + 15` of a row give. -/
def loadedEntry (bs : List Byte) (i : Nat) : Nat × Nat := (bytesAt bs (16 * i + 8) 2, holdValue (bytesAt bs (16 * i) 8))

theorem loadPart_eq {bs : List Byte} : k.loadPart n row off bs =
    k.mapRow n row (fun i => off / 16 + i) (fun i _ => loadedEntry bs i) (span 0 (bs.length / 16)) := rfl

theorem loadPart_col_lt {bs : List Byte} (h : off + bs.length ≤ 2048) : ∀ i ∈ span 0 (bs.length / 16), off / 16 + i < 128 := by
  intro i hi
  have := lt_of_mem_span hi
  omega

theorem loadPart_acts {bs : List Byte} (hr : row < 128) (h : off + bs.length ≤ 2048) :
    ActsOnRow (fun k => k.loadPart n row off bs) n row := by
  simp only [loadPart_eq]
  exact mapRow_acts hr (loadPart_col_lt h)

theorem Core.cell_loadPart {bs : List Byte} {i : Nat} (hr : row < 128) (h : off + bs.length ≤ 2048) (hi : i < bs.length / 16) :
    (k.loadPart n row off bs).cell n row (off / 16 + i) = holdEntry (loadedEntry bs i) := by
  rw [loadPart_eq]
  exact Core.cell_mapRow (cl := fun i => off / 16 + i) hr (loadPart_col_lt h) ((nodup_span _ _).map (add_right_injective _))
    (mem_span_zero hi)

/-! ## Multiplies (R164) -/

/-- A row of a tile with the products of a row of A and every column of B added to it. -/
def mulRow (had : Nat) (a : List Num) (b : Nat → List Num) (n row : Nat) (k : Core) : Core :=
  k.mapRow n row (fun j => j) (fun j e => mmaEntry had e (List.zip a (b j))) (span 0 128)

theorem mulRow_acts {a : List Num} {b : Nat → List Num} (hr : row < 128) : ActsOnRow (mulRow had a b n row) n row :=
  mapRow_acts hr fun _ => lt_of_mem_span

theorem Core.cell_mulRow {a : List Num} {b : Nat → List Num} (hr : row < 128) (hc : col < 128) :
    (mulRow had a b n row k).cell n row col = holdEntry (mmaEntry had (k.entry n row col) (List.zip a (b col))) :=
  Core.cell_mapRow (cl := fun j => j) hr (fun _ => lt_of_mem_span) (by rw [List.map_id']; exact nodup_span _ _)
    (mem_span_zero hc)

/-! ## Row maxima (R165) -/

/-- The counted values of a row, as `smx` compares them. -/
def Core.present (k : Core) (n row : Nat) : List Nat :=
  (span 0 128).filterMap (fun j => if (k.entry n row j).1 = 0 then none else some (rne32 (tileNum fmtF64 (k.entry n row j).2)))

theorem Core.SameRow.present {k k' : Core} (h : k.SameRow k' n row) : k.present n row = k'.present n row :=
  List.filterMap_congr fun j hj => by rw [h.entry (lt_of_mem_span hj)]

/-- What `smx` leaves of a row's side registers, from the row's counted values, its maximum and its sum. -/
def smxFrom (c : Word) (n row : Nat) (x : List Nat × Nat × Nat) (k : Core) : Core :=
  match x with
  | ([], _, _) => k.setFac n row sideFac.toNat
  | (y :: ys, m, l) =>
    let x := ys.foldl max32 y
    if m = sideMax.toNat then (k.setMax n row x).setFac n row sideFac.toNat
    else
      let f := softExp c (tileNum fmtF32 m) (tileNum fmtF32 (max32 m x))
      ((k.setFac n row f).setSum n row (rne32 (mulNum (tileNum fmtF32 l) (tileNum fmtF32 f)))).setMax n row (max32 m x)

theorem smxRow_eq : smxRow c n k row = smxFrom c n row (k.present n row, k.rmax n row, k.rsum n row) k := by
  unfold smxRow
  show (match k.present n row with | [] => _ | y :: ys => _) = _
  cases k.present n row <;> rfl

theorem smxRow_acts (hr : row < 128) : ActsOnRow (fun k => smxRow c n k row) n row := by
  simp only [smxRow_eq]
  refine ActsOnRow.reading (φ := fun k => (k.present n row, k.rmax n row, k.rsum n row))
    (fun _ _ h => by simp only [h.present, h.max, h.sum]) fun x => ?_
  obtain ⟨_ | ⟨y, ys⟩, m, l⟩ := x
  · exact .setFac hr
  · by_cases hm : m = sideMax.toNat
    · unfold smxFrom
      simp only [hm, if_true]
      exact (ActsOnRow.setMax hr).comp (.setFac hr)
    · unfold smxFrom
      simp only [hm, if_false]
      exact ((ActsOnRow.setFac hr).comp (.setSum hr)).comp (.setMax hr)

end Columns

section Rows
variable {k k' : Core} {n row col : Nat} {c : Word}

/-- The side registers of a row: maximum, sum and factor (R163). -/
def Core.sides (k : Core) (n row : Nat) : Nat × Nat × Nat := (k.rmax n row, k.rsum n row, k.rfac n row)

theorem Core.SameRow.sides (h : k.SameRow k' n row) : k.sides n row = k'.sides n row := by
  rw [Core.sides, Core.sides, h.max, h.sum, h.fac]

/-! ## Cleared rows (R163) -/

theorem Core.entry_clearRow {side : Bool} (hr : row < 128) (hc : col < 128) :
    (k.clearRow n side row).entry n row col = (0, 0) := by
  have h : (k.clearRow n side row).cell n row col = 0#80 := by rw [Core.cell_clearRow hr hr hc, if_pos ⟨rfl, rfl⟩]
  show (((k.clearRow n side row).cell n row col).toNat / 2 ^ 64, ((k.clearRow n side row).cell n row col).toNat % 2 ^ 64) = (0, 0)
  rw [h]
  rfl

theorem Core.sides_clearRow {side : Bool} (hr : row < 128) :
    (k.clearRow n side row).sides n row = if side then (sideMax.toNat, 0, sideFac.toNat) else k.sides n row := by
  rw [Core.sides, Core.rmax_clearRow hr hr, Core.rsum_clearRow hr hr, Core.rfac_clearRow hr hr]
  cases side <;> simp [Core.sides]

/-! ## What `smx` leaves (R165) -/

theorem Core.cell_smxRow : (smxRow c n k row).cell n row col = k.cell n row col := by
  rw [smxRow_eq]
  obtain _ | ⟨y, ys⟩ := k.present n row
  · exact Core.cell_setFac
  · by_cases hm : k.rmax n row = sideMax.toNat
    · unfold smxFrom
      simp [hm]
    · unfold smxFrom
      simp [hm]

section
variable (hr : row < 128)
include hr

theorem Core.sides_smxRow_of_nil (hp : k.present n row = []) :
    (smxRow c n k row).sides n row = (k.rmax n row, k.rsum n row, sideFac.toNat) := by
  rw [smxRow_eq, hp]
  show (k.setFac n row sideFac.toNat).sides n row = _
  rw [Core.sides, Core.rfac_setFac hr hr]
  simp [Nat.mod_eq_of_lt sideFac.isLt]

theorem Core.sides_smxRow_of_start {y : Nat} {ys : List Nat} (hp : k.present n row = y :: ys) (hm : k.rmax n row = sideMax.toNat) :
    (smxRow c n k row).sides n row = (ys.foldl max32 y % 2 ^ 32, k.rsum n row, sideFac.toNat) := by
  rw [smxRow_eq, hp, smxFrom]
  simp only [hm, if_true]
  rw [Core.sides, Core.rfac_setFac hr hr, Core.rmax_setFac, Core.rmax_setMax hr hr, Core.rsum_setFac, Core.rsum_setMax]
  simp [Nat.mod_eq_of_lt sideFac.isLt]

theorem Core.sides_smxRow_of_max {y : Nat} {ys : List Nat} (hp : k.present n row = y :: ys) (hm : k.rmax n row ≠ sideMax.toNat) :
    let x := ys.foldl max32 y
    let m := k.rmax n row
    let f := softExp c (tileNum fmtF32 m) (tileNum fmtF32 (max32 m x))
    (smxRow c n k row).sides n row =
      (max32 m x % 2 ^ 32, rne32 (mulNum (tileNum fmtF32 (k.rsum n row)) (tileNum fmtF32 f)) % 2 ^ 32, f % 2 ^ 32) := by
  intro x m f
  rw [smxRow_eq, hp, smxFrom]
  simp only [hm, if_false]
  rw [Core.sides, Core.rmax_setMax hr hr, Core.rsum_setMax, Core.rsum_setSum hr hr, Core.rfac_setMax, Core.rfac_setSum,
    Core.rfac_setFac hr hr]
  simp only [and_self, if_true]
  rfl

end

/-! ## Exponentials (R165) -/

/-- The number that a row's maximum stands for; a row without one takes 0. -/
def Core.shift (k : Core) (n row : Nat) : Num := if k.rmax n row = sideMax.toNat then .fin false 0 0 else tileNum fmtF32 (k.rmax n row)

/-- The exponential of an entry of value `v`. -/
def expOf (c : Word) (m : Num) (v : Nat) : Nat := softExp c (tileNum fmtF64 v) m

/-- A row's sum with the exponential `p` of one more entry. -/
def addExp (l p : Nat) : Nat := rne32 (addNum false (tileNum fmtF32 l) (tileNum fmtF32 p))

/-- What `sexp` does at one column, the row's maximum standing for `m`. -/
def sexpAt (c : Word) (m : Num) (n row : Nat) (k : Core) (j : Nat) : Core :=
  if (k.entry n row j).1 = 0 then k
  else
    (k.setEntry n row j ((k.entry n row j).1, rne64 (tileNum fmtF32 (expOf c m (k.entry n row j).2)))).setSum n row
      (addExp (k.rsum n row) (expOf c m (k.entry n row j).2))

theorem sexpRow_eq : sexpRow c n k row = (span 0 128).foldl (sexpAt c (k.shift n row) n row) k := rfl

theorem Core.rmax_sexpRow : (sexpRow c n k row).rmax n row = k.rmax n row := by
  rw [sexpRow_eq]
  exact foldl_keeps (φ := fun k => k.rmax n row) (fun k j => by unfold sexpAt; split <;> simp) _ k

theorem Core.rfac_sexpRow : (sexpRow c n k row).rfac n row = k.rfac n row := by
  rw [sexpRow_eq]
  exact foldl_keeps (φ := fun k => k.rfac n row) (fun k j => by unfold sexpAt; split <;> simp) _ k

section
variable {m : Num} {j : Nat} (hr : row < 128)
include hr

theorem sexpAt_acts (hj : j < 128) : ActsOnRow (fun k => sexpAt c m n row k j) n row := by
  refine ActsOnRow.reading (φ := fun k => (k.entry n row j, k.rsum n row))
    (f := fun e k => if e.1.1 = 0 then k else
      (k.setEntry n row j (e.1.1, rne64 (tileNum fmtF32 (expOf c m e.1.2)))).setSum n row (addExp e.2 (expOf c m e.1.2)))
    (fun _ _ h => by rw [h.entry hj, h.sum]) fun e => ?_
  split
  · exact .id
  · exact (ActsOnRow.setEntry hr hj).comp (.setSum hr)

theorem sexpRow_acts : ActsOnRow (fun k => sexpRow c n k row) n row := by
  simp only [sexpRow_eq]
  refine ActsOnRow.reading (φ := fun k => k.shift n row) (f := fun m k => (span 0 128).foldl (sexpAt c m n row) k)
    (fun _ _ h => by rw [Core.shift, Core.shift, h.max]) fun m => ?_
  exact ActsOnRow.foldl (f := fun j k => sexpAt c m n row k j) fun j hj => sexpAt_acts hr (lt_of_mem_span hj)

theorem Core.cell_sexpAt (hj : j < 128) (hc : col < 128) : (sexpAt c m n row k j).cell n row col =
    if col = j ∧ (k.entry n row j).1 ≠ 0 then holdEntry ((k.entry n row j).1, rne64 (tileNum fmtF32 (expOf c m (k.entry n row j).2)))
    else k.cell n row col := by
  unfold sexpAt
  by_cases h0 : (k.entry n row j).1 = 0
  · simp [h0]
  · rw [if_neg h0, Core.cell_setSum, Core.cell_setEntry hr hr hj hc]
    simp [h0]

theorem Core.cell_sexpAt_of_ne (hj : j < 128) (hc : col < 128) (hn : col ≠ j) :
    (sexpAt c m n row k j).cell n row col = k.cell n row col := by
  rw [Core.cell_sexpAt hr hj hc, if_neg (by simp [hn])]

theorem Core.rsum_sexpAt : (sexpAt c m n row k j).rsum n row =
    if (k.entry n row j).1 = 0 then k.rsum n row else addExp (k.rsum n row) (expOf c m (k.entry n row j).2) % 2 ^ 32 := by
  unfold sexpAt
  split
  · rfl
  · rw [Core.rsum_setSum hr hr, if_pos ⟨rfl, rfl⟩]

theorem Core.cell_foldl_sexpAt_of_not_mem {js : List Nat} (hjs : ∀ j ∈ js, j < 128) (hc : col < 128) (hn : col ∉ js) :
    (js.foldl (sexpAt c m n row) k).cell n row col = k.cell n row col := by
  induction js generalizing k with
  | nil => rfl
  | cons j js ih =>
    rw [List.mem_cons, not_or] at hn
    rw [List.foldl_cons, ih (fun j hj => hjs j (by simp [hj])) hn.2, Core.cell_sexpAt_of_ne hr (hjs j (by simp)) hc hn.1]

/-- Each column is met once, and holds then what it held at first. -/
theorem Core.cell_foldl_sexpAt {js : List Nat} (hjs : ∀ j ∈ js, j < 128) (hnd : js.Nodup) (hc : col ∈ js) :
    (js.foldl (sexpAt c m n row) k).cell n row col = if (k.entry n row col).1 = 0 then k.cell n row col
      else holdEntry ((k.entry n row col).1, rne64 (tileNum fmtF32 (expOf c m (k.entry n row col).2))) := by
  induction js generalizing k with
  | nil => simp at hc
  | cons j js ih =>
    have hj := hjs j (by simp)
    have hjs' : ∀ j ∈ js, j < 128 := fun j hj => hjs j (by simp [hj])
    rw [List.nodup_cons] at hnd
    rw [List.foldl_cons]
    rcases List.mem_cons.mp hc with rfl | hc
    · rw [Core.cell_foldl_sexpAt_of_not_mem hr hjs' hj hnd.1, Core.cell_sexpAt hr hj hj]
      simp only [true_and, ne_eq, ite_not]
    · have hne : col ≠ j := fun e => hnd.1 (e ▸ hc)
      have before := Core.cell_sexpAt_of_ne (c := c) (m := m) (n := n) (k := k) hr hj (hjs' col hc) hne
      rw [ih hjs' hnd.2 hc, Core.entry_congr before, before]

theorem Core.rsum_foldl_sexpAt {js : List Nat} (hjs : ∀ j ∈ js, j < 128) (hnd : js.Nodup) :
    (js.foldl (sexpAt c m n row) k).rsum n row =
      js.foldl (fun l j => if (k.entry n row j).1 = 0 then l else addExp l (expOf c m (k.entry n row j).2) % 2 ^ 32) (k.rsum n row) := by
  induction js generalizing k with
  | nil => rfl
  | cons j js ih =>
    have hj := hjs j (by simp)
    have hjs' : ∀ j ∈ js, j < 128 := fun j hj => hjs j (by simp [hj])
    rw [List.nodup_cons] at hnd
    rw [List.foldl_cons, ih hjs' hnd.2, Core.rsum_sexpAt hr, List.foldl_cons]
    refine List.foldl_ext _ _ _ fun l i hi => ?_
    have hne : i ≠ j := fun e => hnd.1 (e ▸ hi)
    rw [Core.entry_congr (Core.cell_sexpAt_of_ne hr hj (hjs' i hi) hne)]

theorem Core.cell_sexpRow (hc : col < 128) : (sexpRow c n k row).cell n row col =
    if (k.entry n row col).1 = 0 then k.cell n row col
    else holdEntry ((k.entry n row col).1, rne64 (tileNum fmtF32 (expOf c (k.shift n row) (k.entry n row col).2))) := by
  rw [sexpRow_eq]
  exact Core.cell_foldl_sexpAt hr (fun _ => lt_of_mem_span) (nodup_span _ _) (mem_span_zero hc)

theorem Core.sides_sexpRow : (sexpRow c n k row).sides n row = (k.rmax n row,
    (span 0 128).foldl (fun l j => if (k.entry n row j).1 = 0 then l
      else addExp l (expOf c (k.shift n row) (k.entry n row j).2) % 2 ^ 32) (k.rsum n row), k.rfac n row) := by
  rw [Core.sides, Core.rmax_sexpRow, Core.rfac_sexpRow, sexpRow_eq,
    Core.rsum_foldl_sexpAt hr (fun _ => lt_of_mem_span) (nodup_span _ _)]

end

/-! ## Rescaling (R165) -/

theorem srscRow_eq {src : Core} {m : Nat} : srscRow src m n k row =
    (k.mapRow n row (fun j => j) (fun _ e => (e.1, rne64 (mulNum (tileNum fmtF64 e.2) (tileNum fmtF32 (src.rfac m row)))))
      (span 0 128)).setSum n row (src.rsum m row) := rfl

section
variable {src : Core} {m : Nat} (hr : row < 128)
include hr

theorem srscRow_acts : ActsOnRow (fun k => srscRow src m n k row) n row := by
  simp only [srscRow_eq]
  exact (mapRow_acts hr fun _ => lt_of_mem_span).comp (.setSum hr)

theorem Core.cell_srscRow (hc : col < 128) : (srscRow src m n k row).cell n row col =
    holdEntry ((k.entry n row col).1, rne64 (mulNum (tileNum fmtF64 (k.entry n row col).2) (tileNum fmtF32 (src.rfac m row)))) := by
  rw [srscRow_eq, Core.cell_setSum]
  exact Core.cell_mapRow (cl := fun j => j) hr (fun _ => lt_of_mem_span) (by rw [List.map_id']; exact nodup_span _ _)
    (mem_span_zero hc)

theorem Core.sides_srscRow : (srscRow src m n k row).sides n row = (k.rmax n row, src.rsum m row, k.rfac n row) := by
  have hl : src.rsum m row < 2 ^ 32 := BitVec.isLt _
  rw [srscRow_eq, Core.sides, Core.rmax_setSum, Core.rsum_setSum hr hr, Core.rfac_setSum, if_pos ⟨rfl, rfl⟩, Nat.mod_eq_of_lt hl,
    Core.rmax_mapRow, Core.rfac_mapRow]

end
end Rows

end Sys2Proof.Machine
end

section
/-!
SUPPORT. What a queued matrix word does once its array has taken it (R64, R65, R162 to R166, R290): its effect as its effects on the rows
that it names, and a drain to registers.
-/

namespace Sys2Proof.Machine

section Words
variable {s : State} {p : Party} {w : MatrixWord} {md : Word} {tile n row : Nat} {rows : List Nat} {k : Core} {parts : List Access}

/-- A column of the record that a multiply takes as B (R164). -/
def Core.colB (k : Core) (md : Word) (b j : Nat) : List Num :=
  (span 0 (depthOf (k.obRec b).fmt)).map (k.operandAt (k.obRec b) md ((k.obRec b).lo + 64 * j))

/-- A row of the record that a multiply takes as A, as deep as B. -/
def Core.rowA (k : Core) (md : Word) (a b i : Nat) : List Num :=
  (span 0 (depthOf (k.obRec b).fmt)).map (k.operandAt (k.obRec a) md ((k.obRec a).lo + 64 * i))

/-- A row of a block of a tile that a multiply takes as A. -/
def Core.rowOfTile (k : Core) (md : Word) (src block b i : Nat) : List Num :=
  (span 0 (depthOf (k.obRec b).fmt)).map (fun j => k.downAt md (k.obRec b).fmt src i (block * depthOf (k.obRec b).fmt + j))

/-- What a queued word other than a load does in a row of a tile, where `k0` is the core as the word found it. -/
def rowEffect (w : MatrixWord) (md : Word) (k0 : Core) (x i : Nat) : Core → Core :=
  match w with
  | .mmz side => fun k => k.clearRow x side i
  | .mma a b => mulRow (k0.obRec b).had (k0.rowA md a b i) (k0.colB md b) x i
  | .mmaTile src block b => mulRow (k0.obRec b).had (k0.rowOfTile md src block b i) (k0.colB md b) x i
  | .smx c => fun k => smxRow c x k i
  | .sexp c => fun k => sexpRow c x k i
  | .srsc src => fun k => srscRow k0 src x k i
  | .mld _ | .mdrain _ _ => fun k => k

theorem rowEffect_acts {k0 : Core} {x i : Nat} (hi : i < 128) : ActsOnRow (rowEffect w md k0 x i) x i := by
  cases w with
  | mmz side => simp only [rowEffect]; exact .clearRow hi
  | mma a b => exact mulRow_acts hi
  | mmaTile src block b => exact mulRow_acts hi
  | smx c => simp only [rowEffect]; exact smxRow_acts hi
  | sexp c => simp only [rowEffect]; exact sexpRow_acts hi
  | srsc src => simp only [rowEffect]; exact srscRow_acts hi
  | mld parts => exact .id
  | mdrain norm dest => exact .id

theorem foldl_product {ι : Type} {f : Nat → ι → Core → Core} (ts : List Nat) (js : List ι) (k : Core) :
    ts.foldl (fun k x => js.foldl (fun k i => f x i k) k) k = (ts ×ˢ js).foldl (fun k q => f q.1 q.2 k) k := by
  simp only [SProd.sprod, List.product, List.foldl_flatMap, List.foldl_map]

theorem matrixEffect_eq_rows (hw : ∀ parts, w ≠ .mld parts) : matrixEffect s p w md tile rows k =
    (pairTiles md tile ×ˢ rows).foldl (fun k' q => rowEffect w md k q.1 q.2 k') k := by
  rw [← foldl_product]
  cases w with
  | mld parts => exact absurd rfl (hw parts)
  | mma a b | mmaTile src block b => simp only [matrixEffect, mmaRows, List.foldl_map]; rfl
  | mdrain norm dest => simp only [matrixEffect, rowEffect, List.foldl_fixed]
  | _ => rfl

/-- What a load puts into a tile of the bytes of one access. -/
def loadAccess (s : State) (p : Party) (x : Nat) (a : Access) (k : Core) : Core :=
  k.loadPart x a.lane a.data.toNat (toBytes a.data2.toNat (s.readLoc (partyTask p) a.loc a.data2.toNat))

theorem loadAccess_acts {a : Access} (hl : a.lane < 128) (h : a.data.toNat + a.data2.toNat ≤ 2048) :
    ActsOnRow (loadAccess s p n a) n a.lane :=
  loadPart_acts hl (by rw [length_toBytes]; exact h)

theorem matrixEffect_mld : matrixEffect s p (.mld parts) md tile rows k =
    (pairTiles md tile ×ˢ parts).foldl (fun k q => loadAccess s p q.1 q.2 k) k :=
  foldl_product (f := loadAccess s p) _ _ _

/-- The places that a word acts on lie in the tiles that it names, and nothing else of the core changes. -/
theorem matrixEffect_frame {m i : Nat} (hrows : ∀ i ∈ rows, i < 128)
    (hparts : ∀ parts, w = .mld parts → ∀ a ∈ parts, a.lane < 128 ∧ a.data.toNat + a.data2.toNat ≤ 2048) (hi : i < 128) :
    (m ∉ pairTiles md tile → (matrixEffect s p w md tile rows k).SameRow k m i) ∧
      (matrixEffect s p w md tile rows k).SameBeside k := by
  by_cases hw : ∃ parts, w = .mld parts
  · obtain ⟨parts, rfl⟩ := hw
    have acts : ∀ q ∈ pairTiles md tile ×ˢ parts, ActsOnRow (loadAccess s p q.1 q.2) q.1 q.2.lane := fun q hq =>
      have ha := hparts parts rfl q.2 (List.pair_mem_product.mp hq).2
      loadAccess_acts ha.1 ha.2
    rw [matrixEffect_mld]
    refine ⟨fun hm => foldl_sameRow_of_not_mem (pl := fun q => (q.1, q.2.lane)) acts hi fun h => ?_,
      foldl_sameBeside (pl := fun q => (q.1, q.2.lane)) acts⟩
    obtain ⟨q, hq, e⟩ := List.mem_map.mp h
    obtain rfl : q.1 = m := congrArg Prod.fst e
    exact hm (List.pair_mem_product.mp hq).1
  · have acts : ∀ q ∈ pairTiles md tile ×ˢ rows, ActsOnRow (rowEffect w md k q.1 q.2) q.1 q.2 := fun q hq =>
      rowEffect_acts (hrows _ (List.pair_mem_product.mp hq).2)
    rw [matrixEffect_eq_rows fun parts e => hw ⟨parts, e⟩]
    refine ⟨fun hm => foldl_sameRow_of_not_mem (pl := fun q => q) acts hi fun h => ?_, foldl_sameBeside (pl := fun q => q) acts⟩
    rw [List.map_id'] at h
    exact hm (List.pair_mem_product.mp h).1

theorem nodup_pairTiles : (pairTiles md tile).Nodup := by
  unfold pairTiles
  split
  · have hne : tile ≠ tile ^^^ 1 := fun e => by
      have := congrArg (· ^^^ tile) e
      simp at this
    simp [hne]
  · simp

/-- A row that a word names holds what the word makes of that row alone. -/
theorem matrixEffect_row (hrows : ∀ i ∈ rows, i < 128) (hnd : rows.Nodup) (hrow : row ∈ rows) (hn : n ∈ pairTiles md tile)
    (hw : ∀ parts, w ≠ .mld parts) :
    (matrixEffect s p w md tile rows k).SameRow (rowEffect w md k n row k) n row := by
  rw [matrixEffect_eq_rows hw]
  refine foldl_sameRow_of_mem (pl := fun q => q) (j := (n, row)) (fun q hq => ?_) ?_ (List.pair_mem_product.mpr ⟨hn, hrow⟩)
  · have := hrows _ (List.pair_mem_product.mp hq).2
    exact ⟨this, rowEffect_acts this⟩
  · rw [List.map_id']
    exact nodup_pairTiles.product hnd

/-- So does a row that an access of a load fills. -/
theorem matrixEffect_mld_one {a : Access} (hn : n ∈ pairTiles md tile) (hl : a.lane < 128) (h : a.data.toNat + a.data2.toNat ≤ 2048) :
    (matrixEffect s p (.mld [a]) md tile rows k).SameRow (loadAccess s p n a k) n a.lane := by
  rw [matrixEffect_mld]
  refine foldl_sameRow_of_mem (pl := fun q => (q.1, q.2.lane)) (j := (n, a)) (fun q hq => ?_) ?_
    (List.pair_mem_product.mpr ⟨hn, List.mem_singleton_self a⟩)
  · rw [List.mem_singleton.mp (List.pair_mem_product.mp hq).2]
    exact ⟨hl, loadAccess_acts hl h⟩
  · refine (nodup_pairTiles.product (List.nodup_singleton a)).map_on fun q hq q' hq' e => Prod.ext (Prod.mk.inj e).1 ?_
    rw [List.mem_singleton.mp (List.pair_mem_product.mp hq).2, List.mem_singleton.mp (List.pair_mem_product.mp hq').2]

theorem matrixEffect_mld_cons {a : Access} (hr : mdRed md = false) : matrixEffect s p (.mld (a :: parts)) md tile rows k =
    matrixEffect s p (.mld parts) md tile rows (matrixEffect s p (.mld [a]) md tile rows k) := by
  simp only [matrixEffect, pairTiles, hr, Bool.false_eq_true, if_false, List.foldl_cons, List.foldl_nil]

end Words

/-! ## Groups of products (R65) -/

section Groups
variable {had : Nat} {e : Nat × Nat} {ps : List (Num × Num)} {x y : Num}

theorem mmaEntry_group (h : ps.length = 32) : mmaEntry had e ps = if (groupSum ps).2 = 0 then e
    else (min 0xFFFF (e.1 + (groupSum ps).2), rne64 (addNum false (tileNum fmtF64 e.2) (scaleNum (hadShift had) (groupSum ps).1))) := by
  have one : groupsOf (ps.length / 32) ps = [ps] := by rw [h, groupsOf, List.take_of_length_le h.le]; rfl
  rw [mmaEntry, one]
  rfl

end Groups

/-! ## Drains to registers (R166) -/

section Drains
variable {k : Core} {t u : Team} {md : Word} {norm tile first block row r col : Nat} {rows : List Nat} {f : Fmt}

/-- Register `r` of a drained row. -/
def Core.drainWord (k : Core) (md : Word) (norm tile block r row : Nat) : Word :=
  BitVec.ofNat 32 (packElems (tyWidth (mdType md))
    ((span 0 32).map (fun j => k.drained md norm tile row (32 * block + j))) / 2 ^ (32 * r))

/-- Writes of the registers of a span in one lane. -/
theorem SpanInv.column {d l : Nat} {g : Nat → Nat → Word} (hl : l < 1024) (rs : List Nat) {q : Nat → Nat → Prop}
    (h : SpanInv t u d q g) :
    SpanInv t (rs.foldl (fun u r => u.setV (d + r) l (g r l)) u) d (fun r' l' => q r' l' ∨ (r' ∈ rs ∧ l' = l)) g := by
  induction rs generalizing u q with
  | nil => exact h.congr fun r' l' => by simp
  | cons r rs ih => exact (ih (h.step r l hl)).congr fun r' l' => by simp only [List.mem_cons]; tauto

theorem SpanInv.columns {d : Nat} {g : Nat → Nat → Word} (rs : List Nat) {ls : List Nat} (hls : ∀ l ∈ ls, l < 1024)
    {q : Nat → Nat → Prop} (h : SpanInv t u d q g) :
    SpanInv t (ls.foldl (fun u l => rs.foldl (fun u r => u.setV (d + r) l (g r l)) u) u) d
      (fun r' l' => q r' l' ∨ (r' ∈ rs ∧ l' ∈ ls)) g := by
  induction ls generalizing u q with
  | nil => exact h.congr fun r' l' => by simp
  | cons l ls ih =>
    exact (ih (fun l hl => hls l (by simp [hl])) (h.column (hls l (by simp)) rs)).congr fun r' l' => by
      simp only [List.mem_cons]; tauto

theorem vreg_drainRegs (hlt : ∀ i ∈ rows, i < 128) (hrow : row ∈ rows) (hr : r < tyWidth (mdType md)) :
    (drainRegs k md norm tile first block rows t).vreg (first + r) row = k.drainWord md norm tile block r row :=
  (SpanInv.columns (g := k.drainWord md norm tile block) (span 0 (tyWidth (mdType md)))
    (fun l hl => (hlt l hl).trans (by decide)) (SpanInv.start t first _)).hit r row
    (.inr ⟨mem_span_zero hr, hrow⟩) ((hlt row hrow).trans (by decide))

theorem drained_absent (hf : fmtOf (mdType md) = some f) (h : (k.entry tile row col).1 = 0) :
    k.drained md norm tile row col = f.absent := by
  simp only [Core.drained, hf, h, if_true]

theorem drained_present (hf : fmtOf (mdType md) = some f) (h : (k.entry tile row col).1 ≠ 0) :
    let e := k.entry tile row col
    let v := tileNum fmtF64 e.2
    k.drained md norm tile row col = pack f (mdRound md (mdType md))
      (if norm = 1 then tileNum fmtF64 (divCode fmtF64 rne v (.fin false e.1 0))
       else if norm = 2 then tileNum fmtF64 (divCode fmtF64 rne v (tileNum fmtF32 (k.rsum tile row))) else v) := by
  simp only [Core.drained, hf, h, if_false]
  match norm with
  | 0 | 1 | 2 | _ + 3 => rfl

end Drains

/-- Settles O22: a word's effect is its effects on the rows that it names, each of which reads and writes its own row alone. -/
theorem matrixEffectsStayInTheirTiles : Obligations.MatrixEffectsStayInTheirTiles := by
  unfold Obligations.MatrixEffectsStayInTheirTiles
  refine ⟨?frame, ?rows, fun had e ps x y => ⟨mmaEntry_group, fun h => ?_, fun h => ?_⟩, by decide +kernel,
    fun k t md norm tile first block row r col rows f =>
      ⟨fun _ hlt hrow hr => vreg_drainRegs hlt hrow hr, drained_absent, drained_present⟩⟩
  case frame =>
    intro s p w md tile rows k n row col _ hrows hcol hrow _ hparts k'
    obtain ⟨hsame, hbeside⟩ :=
      matrixEffect_frame (s := s) (p := p) (w := w) (md := md) (tile := tile) (k := k) (m := n) hrows hparts hrow
    exact ⟨fun hn => ⟨(hsame hn).entry hcol, (hsame hn).max, (hsame hn).sum, (hsame hn).fac⟩, hbeside⟩
  case rows =>
    intro s p md c tile rows k n row col a b src block i side part parts _ hrows hnd hcol hrow hn does cell held e rb d B sides
    have hlt := hrows row hrow
    have same (w : MatrixWord) (hw : ∀ parts, w ≠ .mld parts) : (does w).SameRow (rowEffect w md k n row k) n row :=
      matrixEffect_row hrows hnd hrow hn hw
    refine ⟨⟨?_, ?_⟩, fun hl hb hi => ?load, matrixEffect_mld_cons, ?mma, ?mmaTile, ?smx, ?sexp, ?srsc⟩
    case load =>
      subst hl
      have hlen := length_toBytes part.data2.toNat (s.readLoc (partyTask p) part.loc part.data2.toNat)
      refine ((matrixEffect_mld_one hn hlt hb).cell _ (by omega)).trans ?_
      exact Core.cell_loadPart hlt (by rw [hlen]; exact hb) (by rw [hlen]; exact hi)
    case mma => exact ((same (.mma a b) nofun).cell col hcol).trans (Core.cell_mulRow hlt hcol)
    case mmaTile => exact ((same (.mmaTile src block b) nofun).cell col hcol).trans (Core.cell_mulRow hlt hcol)
    case smx =>
      intro present k'
      have h : k'.SameRow (smxRow c n k row) n row := same (.smx c) nofun
      refine ⟨(h.cell col hcol).trans Core.cell_smxRow, fun hp => h.sides.trans (Core.sides_smxRow_of_nil hlt hp), fun y ys hp => ?_⟩
      exact ⟨fun hm => h.sides.trans (Core.sides_smxRow_of_start hlt hp hm),
        fun hm => h.sides.trans (Core.sides_smxRow_of_max hlt hp hm)⟩
    case sexp =>
      intro m p k'
      have h : k'.SameRow (sexpRow c n k row) n row := same (.sexp c) nofun
      exact ⟨(h.cell col hcol).trans (Core.cell_sexpRow hlt hcol), h.sides.trans (Core.sides_sexpRow hlt)⟩
    case srsc =>
      intro k'
      have h : k'.SameRow (srscRow k src n k row) n row := same (.srsc src) nofun
      exact ⟨(h.cell col hcol).trans (Core.cell_srscRow hlt hcol), h.sides.trans (Core.sides_srscRow hlt)⟩
    · rw [(same (.mmz side) nofun).entry hcol]
      exact Core.entry_clearRow hlt hcol
    · exact (same (.mmz side) nofun).sides.trans (Core.sides_clearRow hlt)
  · rw [groupSum, h, if_pos rfl]
  · rw [groupSum, h, if_neg (by decide)]

end Sys2Proof.Machine
end

section
/-!
SUPPORT. The meaning that the dispatch gives each control word, constant, read of a task's own data and integer word (R71 to R89,
R128); words whose effect is not a change of the stream alone; and the statement about the control group.
-/

namespace Sys2Proof.Machine

/-! ## Dispatch -/

section Arms
variable {s : State} {h : Hdr} {d a c n : BitVec 7} {j : BitVec 2} {w : BitVec 3} {v8 : BitVec 8} {v12 : BitVec 12} {v14 : BitVec 14}
  {v19 : BitVec 19}

theorem exec_nop : exec (.nop h) s = execNop h s := by rfl
theorem exec_jset : exec (.jset h j v19) s = execJset h j v19 s := by rfl
theorem exec_jmov : exec (.jmov h j a) s = execJmov h j a s := by rfl
theorem exec_jget : exec (.jget h d j) s = execJget h d j s := by rfl
theorem exec_msetLo : exec (.msetLo h v12) s = execMsetLo h v12 s := by rfl
theorem exec_msetFl : exec (.msetFl h v12) s = execMsetFl h v12 s := by rfl
theorem exec_msetHi : exec (.msetHi h v8) s = execMsetHi h v8 s := by rfl
theorem exec_mput : exec (.mput h a) s = execMput h a s := by rfl
theorem exec_mget : exec (.mget h d) s = execMget h d s := by rfl
theorem exec_tile : exec (.tile h w) s = execTile h w s := by rfl
theorem exec_rdlane : exec (.rdlane h d a) s = execRdlane h d a s := by rfl
theorem exec_movi : exec (.movi h d v14) s = execMovi h d v14 s := by rfl
theorem exec_movhi : exec (.movhi h d v14) s = execMovhi h d v14 s := by rfl

theorem exec_lset : exec (.lset h a) s = execLset h a s := by rfl
theorem exec_lsetImm : exec (.lsetImm h v14) s = execLsetImm h v14 s := by rfl
theorem exec_lbrk : exec (.lbrk h) s = execLbrk h s := by rfl

theorem exec_sreg : exec (.sreg h d n) s = execSreg h d n s := by rfl
theorem exec_ldargB8 : exec (.ldargB8 h d a) s = execLdargB8 h d a s := by rfl
theorem exec_ldargB16 : exec (.ldargB16 h d a) s = execLdargB16 h d a s := by rfl
theorem exec_ldargB32 : exec (.ldargB32 h d a) s = execLdargB32 h d a s := by rfl
theorem exec_ldargB64 : exec (.ldargB64 h d a) s = execLdargB64 h d a s := by rfl

theorem exec_iadd : exec (.iadd h d a c) s = execIadd h d a c s := by rfl
theorem exec_isub : exec (.isub h d a c) s = execIsub h d a c s := by rfl
theorem exec_imul : exec (.imul h d a c) s = execImul h d a c s := by rfl
theorem exec_imulh : exec (.imulh h d a c) s = execImulh h d a c s := by rfl
theorem exec_andB : exec (.andB h d a c) s = execAndB h d a c s := by rfl
theorem exec_orB : exec (.orB h d a c) s = execOrB h d a c s := by rfl
theorem exec_xorB : exec (.xorB h d a c) s = execXorB h d a c s := by rfl
theorem exec_andnB : exec (.andnB h d a c) s = execAndnB h d a c s := by rfl
theorem exec_shl : exec (.shl h d a c) s = execShl h d a c s := by rfl
theorem exec_shr : exec (.shr h d a c) s = execShr h d a c s := by rfl
theorem exec_sar : exec (.sar h d a c) s = execSar h d a c s := by rfl
theorem exec_rot : exec (.rot h d a c) s = execRot h d a c s := by rfl
theorem exec_bfx : exec (.bfx h d a c) s = execBfx h d a c s := by rfl
theorem exec_bfi : exec (.bfi h d a c) s = execBfi h d a c s := by rfl
theorem exec_sel : exec (.sel h d a c) s = execSel h d a c s := by rfl
theorem exec_iaddi : exec (.iaddi h d a n) s = execIaddi h d a n s := by rfl
theorem exec_mov : exec (.mov h d a) s = execMov h d a s := by rfl
theorem exec_popc : exec (.popc h d a) s = execPopc h d a s := by rfl
theorem exec_clz : exec (.clz h d a) s = execClz h d a s := by rfl
theorem exec_ctz : exec (.ctz h d a) s = execCtz h d a s := by rfl
theorem exec_brev : exec (.brev h d a) s = execBrev h d a s := by rfl

end Arms

/-! ## Words whose effect may do other than change the stream -/

section Effects
variable {i : Instr} {h : Hdr} {s : State} {p : Party} {t : Team} {eff : State → Party → Team → Res} {d : Nat}

/-- An effect that ends with a transfer goes on there, whatever the sequencing code (R75). -/
theorem issue_jump (hi : Issues s p t i) {s' : State} {t' : Team} {pc : Word64} (ha : pc.toNat % 4 = 0)
    (he : eff (s.countIssue p) p (t.opened i) = .jump s' t' pc) :
    issue i h s eff = .next ((s'.setTeam p { t' with pc := pc }).settle p) := by
  rw [issue_eq hi, he]
  simp only [goTo, ha, if_true]

theorem changes_of_ok {f : Team → Team} (e : exec i s = issue i h s eff)
    (he : eff (s.countIssue p) p (t.opened i) = .ok (s.countIssue p) (f (t.opened i))) : Changes s p t h i f :=
  fun hi => completesIn_of_ok hi e he

theorem computes_of_ok {f : Nat → Word} (e : exec i s = issue i h s eff)
    (he : eff (s.countIssue p) p (t.opened i) = .ok (s.countIssue p) ((t.opened i).write d f)) : Computes s p t h i d f :=
  fun hi => ⟨_, Team.write_writes _ d f, completesIn_of_ok hi e he⟩

theorem computesPair_of_ok {f : Nat → Word64} (e : exec i s = issue i h s eff)
    (he : eff (s.countIssue p) p (t.opened i) = .ok (s.countIssue p) ((t.opened i).writePair d f)) : ComputesPair s p t h i d f :=
  fun hi => ⟨_, Team.writePair_writes _ d f, completesIn_of_ok hi e he⟩

theorem trapsWith_of_trap {tr : TrapInfo} (e : exec i s = issue i h s eff)
    (he : eff (s.countIssue p) p (t.opened i) = .trap tr) : TrapsWith s p t i tr :=
  fun hi => traps_of_trap hi e he

end Effects

/-! ## Parts of a word (R77, R83) -/

section Parts
variable {m n : Nat} {md : Word}

theorem toNat_append_eq_add (x : BitVec m) (y : BitVec n) : (x ++ y).toNat = x.toNat * 2 ^ n + y.toNat := by
  rw [BitVec.toNat_append, ← Nat.shiftLeft_add_eq_or_of_lt y.isLt, Nat.shiftLeft_eq]

theorem toNat_extractLsb'_eq_div_mod (x : BitVec m) (lo n : Nat) : (x.extractLsb' lo n).toNat = x.toNat / 2 ^ lo % 2 ^ n := by
  rw [BitVec.extractLsb'_toNat, Nat.shiftRight_eq_div_pow]

theorem setMd_lo (v : BitVec 12) : setMd md 0 v.toNat = md.extractLsb' 12 20 ++ v := by
  refine BitVec.eq_of_toNat_eq ?_
  simp only [setMd, BitVec.toNat_ofNat, toNat_append_eq_add, toNat_extractLsb'_eq_div_mod]
  omega

theorem setMd_fl (v : BitVec 12) : setMd md 1 v.toNat = md.extractLsb' 24 8 ++ v ++ md.extractLsb' 0 12 := by
  refine BitVec.eq_of_toNat_eq ?_
  simp only [setMd, BitVec.toNat_ofNat, toNat_append_eq_add, toNat_extractLsb'_eq_div_mod]
  omega

theorem setMd_hi (v : BitVec 8) : setMd md 2 v.toNat = v ++ md.extractLsb' 0 24 := by
  refine BitVec.eq_of_toNat_eq ?_
  simp only [setMd, BitVec.toNat_ofNat, toNat_append_eq_add, toNat_extractLsb'_eq_div_mod]
  omega

/-- A constant shifted in below the low 18 bits (R83). -/
theorem shift_in (x : Word) (v : BitVec 14) : x <<< 14 ||| v.setWidth 32 = x.extractLsb' 0 18 ++ v := by
  refine BitVec.eq_of_getLsbD_eq fun l hl => ?_
  simp only [BitVec.getLsbD_or, BitVec.getLsbD_shiftLeft, BitVec.getLsbD_setWidth, BitVec.getLsbD_append, BitVec.getLsbD_extractLsb',
    hl, decide_true, Bool.true_and, Nat.zero_add]
  by_cases h : l < 14
  · simp [h]
  · rw [BitVec.getLsbD_of_ge v l (by omega), decide_eq_true (show l - 14 < 18 by omega)]
    simp [h]

/-- Words of code are four bytes (R71). -/
theorem shiftLeft_two (x : Word64) : x <<< 2 = 4#64 * x := by
  rw [BitVec.shiftLeft_eq_mul_twoPow, BitVec.mul_comm]
  rfl

end Parts

/-- Settles O1: each word writes one part of its stream, which the part's own lemma reads as the rule gives it. -/
theorem controlWordsWriteTheirOneTarget : Obligations.ControlWordsWriteTheirOneTarget := by
  unfold Obligations.ControlWordsWriteTheirOneTarget
  intro s p t h d a j im v v8 w im14
  refine ⟨changes_of _ exec_nop rfl, changes_of _ exec_jset ?jset, changes_of _ exec_jmov rfl, computesPair_of _ exec_jget rfl,
    changes_of _ exec_msetLo ?lo, changes_of _ exec_msetFl ?fl, changes_of _ exec_msetHi ?hi,
    fun hl => changes_of_ok exec_mput (if_pos hl), computes_of _ exec_mget rfl, changes_of _ exec_tile rfl,
    computes_of _ exec_rdlane rfl, computes_of _ exec_movi rfl, computes_of _ exec_movhi ?movhi⟩
  case jset => simp only [shiftLeft_two, Team.opened_pc]
  case lo => simp only [setMd_lo, Team.opened_md]
  case fl => simp only [setMd_fl, Team.opened_md]
  case hi => simp only [setMd_hi, Team.opened_md]
  case movhi => simp only [shift_in, Team.opened_reg]

end Sys2Proof.Machine
end

section
/-!
SUPPORT. The loop words (R75, R76): what opening a loop does for each count and each height of the loop stack.
-/

namespace Sys2Proof.Machine

section Loops
variable {s : State} {t : Team} {count : Nat}

@[simp] theorem Team.opened_loops (t : Team) (i : Instr) : (t.opened i).loops = t.loops := rfl

theorem openLoop_zero : openLoop 0 s t = .jump s t t.j1 := rfl

theorem openLoop_of_room (hc : count ≠ 0) (hl : t.loops.length < 4) :
    openLoop count s t = .ok s { t with loops := { lc := BitVec.ofNat 32 count, lh := t.pc + 4#64 } :: t.loops } := by
  rw [openLoop, if_neg hc, if_neg (Nat.not_le.mpr hl)]

theorem openLoop_of_full (hc : count ≠ 0) (hl : 4 ≤ t.loops.length) : openLoop count s t = .trap (trapOf 25 0#64 t.loops.length) := by
  rw [openLoop, if_neg hc, if_pos hl]

/-- A lane register is no place that must be uniform (R16, R48). -/
theorem regOk_uniform_of_lane {single : Bool} {budget r : Nat} {pair : Bool} (hr : r < 96) :
    regOk single budget ⟨r, .uni, pair⟩ = false := by
  simp [regOk, hr]

end Loops

theorem uses_lset {ty : Nat} {h : Hdr} {a : BitVec 7} : uses ty (.lset h a) = { noUses with src := [⟨a.toNat, .uni, false⟩] } := by rfl

/-- Settles O3: the loop stack is opened by `openLoop`, whose three cases are the three clauses, and closed from its top. -/
theorem loopWordsActOnTheLoopStack : Obligations.LoopWordsActOnTheLoopStack := by
  unfold Obligations.LoopWordsActOnTheLoopStack
  intro s p t h a n opens
  have opens_of {i : Instr} {count : Nat} {eff : State → Party → Team → Res} (e : exec i s = issue i h s eff)
      (he : eff (s.countIssue p) p (t.opened i) = openLoop count (s.countIssue p) (t.opened i)) : opens i count := by
    intro hi
    refine ⟨fun hc hl => ?room, fun hc hl => ?full, fun hc ha => ?zero⟩
    case room => exact completesIn_of_ok hi e (he.trans (openLoop_of_room hc hl))
    case full => exact traps_of_trap hi e (he.trans (openLoop_of_full hc hl))
    case zero =>
      subst hc
      rw [e]
      exact issue_jump hi ha (he.trans openLoop_zero)
  refine ⟨opens_of exec_lset rfl, opens_of exec_lsetImm rfl, fun e rest hl => changes_of_ok exec_lbrk ?pop,
    fun hl => trapsWith_of_trap exec_lbrk ?empty, fun hl => ?start, fun e rest hl => ?top, fun ha => ?lane⟩
  case pop => simp only [Team.opened_loops, hl]
  case empty => simp only [Team.opened_loops, hl]
  case start => simp only [Team.lc, Team.lh, hl, and_self]
  case top => simp only [Team.lc, Team.lh, hl, and_self]
  case lane => simp [regsOk, uses_lset, regOk_uniform_of_lane ha]

end Sys2Proof.Machine
end

section
/-!
SUPPORT. Special values (R81) and the launch's argument copy (R128): what a read of them gives, and a read past the copy's end.
-/

namespace Sys2Proof.Machine

/-! ## Writes with no lane taking part -/

section Idle
variable {t : Team} {d : Nat}

theorem Team.write_of_no_lanes {f : Nat → Word} (hd : d < 96) (hl : t.lanes = []) : t.write d f = t := by
  rw [Team.write, if_neg (Nat.not_le.mpr hd), hl, Team.setLanes, List.foldl_nil]

theorem Team.writePair_of_no_lanes {f : Nat → Word64} (hd : d < 96) (hl : t.lanes = []) : t.writePair d f = t := by
  simp only [Team.writePair, if_neg (Nat.not_le.mpr hd), hl, List.foldl_nil]

end Idle

/-! ## The argument copy -/

section Arguments
variable {i : Instr} {h : Hdr} {s : State} {p : Party} {t : Team} {d a n : Nat}

theorem State.argBytes_countIssue : (s.countIssue p).argBytes p = s.argBytes p := by
  cases p <;> rfl

/-- Unit `a` of `n` bytes of the argument copy. -/
def State.argUnit (s : State) (p : Party) (n a : Nat) : Nat := ofBytes (((s.argBytes p).drop (n * a)).take n)

theorem ldargRes_idle (hd : d < 96) (hl : t.lanes = []) : ldargRes d a n s p t = .ok s t := by
  simp [ldargRes, hd, hl]

theorem ldargRes_past (hd : d < 96 → t.lanes ≠ []) (hp : (s.argBytes p).length < n * (a + 1)) :
    ldargRes d a n s p t = .trap (trapOf 21 (BitVec.ofNat 64 (n * a)) 0) := by
  have hb : (decide (d < 96) && t.lanes.isEmpty) = false := by
    rw [Bool.and_eq_false_imp, decide_eq_true_iff]
    exact fun h => by simpa using hd h
  rw [ldargRes, hb, Nat.mul_comm a n]
  exact if_pos hp

/-- A read within the copy stores its unit; where no lane takes part that is no change. -/
theorem ldargRes_within (hp : n * (a + 1) ≤ (s.argBytes p).length) :
    ldargRes d a n s p t = .ok s (if n = 8 then t.writePair d (fun _ => BitVec.ofNat 64 (s.argUnit p n a))
      else t.write d (fun _ => BitVec.ofNat 32 (s.argUnit p n a))) := by
  by_cases hi : d < 96 ∧ t.lanes = []
  · obtain ⟨hd, hl⟩ := hi
    rw [ldargRes_idle hd hl, Team.writePair_of_no_lanes hd hl, Team.write_of_no_lanes hd hl, ite_self]
  · have hb : (decide (d < 96) && t.lanes.isEmpty) = false := by simpa using hi
    rw [ldargRes, hb, Nat.mul_comm a n]
    exact if_neg (Nat.not_lt.mpr hp)

theorem ldarg_computes (hn : n ≠ 8) (e : exec i s = issue i h s (ldargRes d a n)) (hp : n * (a + 1) ≤ (s.argBytes p).length) :
    Computes s p t h i d (fun _ => BitVec.ofNat 32 (s.argUnit p n a)) := by
  refine computes_of_ok e ?_
  rw [ldargRes_within (by rwa [State.argBytes_countIssue]), if_neg hn, State.argUnit, State.argBytes_countIssue]
  rfl

theorem ldarg_computesPair (e : exec i s = issue i h s (ldargRes d a 8)) (hp : 8 * (a + 1) ≤ (s.argBytes p).length) :
    ComputesPair s p t h i d (fun _ => BitVec.ofNat 64 (s.argUnit p 8 a)) := by
  refine computesPair_of_ok e ?_
  rw [ldargRes_within (by rwa [State.argBytes_countIssue]), if_pos rfl, State.argUnit, State.argBytes_countIssue]
  rfl

theorem ldarg_traps_past (e : exec i s = issue i h s (ldargRes d a n)) (hd : d < 96 → t.lanes ≠ [])
    (hp : (s.argBytes p).length < n * (a + 1)) : TrapsWith s p t i (trapOf 21 (BitVec.ofNat 64 (n * a)) 0) :=
  trapsWith_of_trap e (ldargRes_past hd (by rwa [State.argBytes_countIssue]))

theorem ldarg_idle (e : exec i s = issue i h s (ldargRes d a n)) (hd : d < 96) (hl : t.lanes = []) : Changes s p t h i id :=
  changes_of_ok e (ldargRes_idle hd hl)

end Arguments

/-! ## Special values -/

/-- A team of kernel code reads its lane, its place in its cohort and its cohort's place in the grid (R81). -/
theorem State.special_team {s : State} {tid ord : Nat} {k : Task} {g : Grid} {t : Team} (hk : s.task? tid = some k)
    (hg : s.grid? k.grid = some g) (n l : Nat) : s.special (.team tid ord) t n l = BitVec.ofNat 32
      (match n with
       | 0 => l
       | 1 => l / 32
       | 2 => t.index
       | 3 => t.role
       | 4 => k.index % g.record.gx
       | 5 => k.index / g.record.gx % g.record.gy
       | 6 => k.index / g.record.gx / g.record.gy
       | 7 => g.record.gx
       | 8 => g.record.gy
       | 9 => g.record.gz
       | 10 => k.index % g.record.gangSize
       | 11 => k.core
       | _ => g.record.gz) := by
  have hr : s.recordOf k = some g.record := by rw [State.recordOf, hg, Option.map_some]
  simp only [State.special, State.taskOf_team hk, hr, State.gangMember, State.gangSize]
  match n with
  | 0 | 1 | 2 | 3 | 4 | 5 | 6 | 7 | 8 | 9 | 10 | 11 | _ + 12 => rfl

/-- Settles O2: a special value is read off the team's task and grid, and an argument by `ldargRes`, within the copy or past it. -/
theorem wordsReadTheirTasksOwnData : Obligations.WordsReadTheirTasksOwnData := by
  unfold Obligations.WordsReadTheirTasksOwnData
  refine ⟨fun s tid ord t k g h d n hk hg => ?sreg, fun s p t h d a => ?ldarg⟩
  case sreg =>
    refine computes_of_ok exec_sreg (congrArg (Res.ok s) (congrArg (Team.write _ _) (funext fun l => ?_)))
    exact State.special_team hk hg n.toNat l
  case ldarg =>
    intro args value past
    have past_of {n : Nat} {i : Instr} (e : exec i s = issue i h s (ldargRes d.toNat a.toNat n)) : past n i :=
      ⟨ldarg_traps_past e, ldarg_idle e⟩
    exact ⟨fun hp => ldarg_computes (by decide) exec_ldargB8 (by rwa [Nat.one_mul]), ldarg_computes (by decide) exec_ldargB16,
      ldarg_computes (by decide) exec_ldargB32, ldarg_computesPair exec_ldargB64, past_of exec_ldargB8, past_of exec_ldargB16,
      past_of exec_ldargB32, past_of exec_ldargB64⟩

end Sys2Proof.Machine
end

section
/-!
SUPPORT. The integer words (R84 to R89): shifts by more than the word, fields cut to the word, and counts of bits.
-/

namespace Sys2Proof.Machine

/-! ## Shifts (R86) -/

section Shifts
variable {a c : Word}

theorem shlWord_eq : shlWord a c = if 32 ≤ c.toNat % 256 then 0#32 else a <<< (c.toNat % 256) := by
  unfold shlWord shiftAmount
  split
  case isTrue h => exact BitVec.shiftLeft_eq_zero h
  case isFalse => rfl

theorem shrWord_eq : shrWord a c = if 32 ≤ c.toNat % 256 then 0#32 else a >>> (c.toNat % 256) := by
  unfold shrWord shiftAmount
  split
  case isTrue h => exact BitVec.ushiftRight_eq_zero h
  case isFalse => rfl

/-- An arithmetic shift by the word's width or more leaves copies of the sign. -/
theorem sshiftRight_of_ge {n : Nat} (h : 32 ≤ n) : a.sshiftRight n = if a.msb then BitVec.allOnes 32 else 0#32 := by
  cases hm : a.msb
  · rw [BitVec.sshiftRight_eq_of_msb_false hm, BitVec.ushiftRight_eq_zero h]
    rfl
  · rw [BitVec.sshiftRight_eq_of_msb_true hm, BitVec.ushiftRight_eq_zero h]
    rfl

theorem sarWord_eq : sarWord a c = if 32 ≤ c.toNat % 256 then (if a.msb then BitVec.allOnes 32 else 0#32)
    else a.sshiftRight (c.toNat % 256) := by
  unfold sarWord shiftAmount
  split
  case isTrue h => exact sshiftRight_of_ge h
  case isFalse => rfl

theorem rotWord_eq : rotWord a c = a <<< (c.toNat % 32) ||| a >>> (32 - c.toNat % 32) := by
  rw [rotWord, BitVec.rotateLeft_def, Nat.mod_mod]

end Shifts

/-! ## Fields (R87) -/

section Fields
variable {a c : Word} {pos len f : Nat}

/-- The ones of a field of `len` bits, at bit 0. -/
def fieldMask (len : Nat) : Word := BitVec.ofNat 32 (2 ^ len - 1)

theorem fieldLen_le : fieldLen c ≤ 32 := by
  unfold fieldLen
  omega

theorem ofNat_nbits : BitVec.ofNat 32 (nbits a.toNat pos len) = (a >>> pos) &&& fieldMask len := by
  rw [nbits, ← Nat.and_two_pow_sub_one_eq_mod, ← Nat.shiftRight_eq_div_pow, BitVec.ofNat_and, ← BitVec.toNat_ushiftRight,
    BitVec.ofNat_toNat, BitVec.setWidth_eq, fieldMask]

theorem ofNat_above_field (hl : len ≤ 32) : BitVec.ofNat 32 (2 ^ 32 - 2 ^ len) = ~~~ fieldMask len := by
  have hpos : 0 < 2 ^ len := Nat.two_pow_pos len
  have hle : 2 ^ len ≤ 2 ^ 32 := Nat.pow_le_pow_right (by decide) hl
  refine BitVec.eq_of_toNat_eq ?_
  rw [fieldMask, BitVec.toNat_not, BitVec.toNat_ofNat, BitVec.toNat_ofNat]
  omega

/-- A number of `len` bits below ones is their disjunction. -/
theorem ofNat_sign_extended (hl : len ≤ 32) (hf : f < 2 ^ len) :
    BitVec.ofNat 32 (f + (2 ^ 32 - 2 ^ len)) = BitVec.ofNat 32 f ||| ~~~ fieldMask len := by
  have hmul : 2 ^ 32 - 2 ^ len = 2 ^ len * (2 ^ (32 - len) - 1) := by
    rw [Nat.mul_sub, ← Nat.pow_add, Nat.add_sub_cancel' hl, Nat.mul_one]
  rw [← ofNat_above_field hl, ← BitVec.ofNat_or, hmul, Nat.add_comm, Nat.two_pow_add_eq_or_of_lt hf, Nat.or_comm]

theorem nbit_ofNat {v i : Nat} (hi : i < 32) : nbit v i = (BitVec.ofNat 32 v).getLsbD i := by
  rw [nbit_eq_testBit, BitVec.getLsbD_ofNat, decide_eq_true hi, Bool.true_and]

/-- The sign is copied when C asks for it and the field is not empty. -/
theorem bfxWord_eq : bfxWord a c =
    if c.getLsbD 15 = true ∧ 0 < fieldLen c ∧ ((a >>> fieldPos c) &&& fieldMask (fieldLen c)).getLsbD (fieldLen c - 1) = true
    then ((a >>> fieldPos c) &&& fieldMask (fieldLen c)) ||| ~~~ fieldMask (fieldLen c)
    else (a >>> fieldPos c) &&& fieldMask (fieldLen c) := by
  have hl : fieldLen c ≤ 32 := fieldLen_le
  have hf : nbits a.toNat (fieldPos c) (fieldLen c) < 2 ^ fieldLen c := Nat.mod_lt _ (Nat.two_pow_pos _)
  have hs : nbit c.toNat 15 = c.getLsbD 15 := nbit_eq_testBit _ _
  rw [← ofNat_nbits, ← ofNat_sign_extended hl hf, ← nbit_ofNat (by omega), bfxWord, hs]
  simp only [Bool.and_eq_true, decide_eq_true_eq, and_assoc]

end Fields

/-! ## Counts (R89) -/

section Counts
variable {a : Word}

theorem bitsAre_word (a : Word) : BitsAre a.toNat 32 a.getLsbD := fun i => by
  rw [BitVec.testBit_toNat]
  by_cases hi : i < 32
  · rw [decide_eq_true hi, Bool.true_and]
  · rw [decide_eq_false hi, Bool.false_and, BitVec.getLsbD_of_ge a i (Nat.le_of_not_lt hi)]

theorem popcWord_eq : popcWord a = BitVec.ofNat 32 ((List.range 32).countP a.getLsbD) := by
  rw [popcWord, (bitsAre_word a).popBits (Nat.le_refl 32)]

theorem toNat_clz_lt (ha : a ≠ 0#32) : a.clz.toNat < 32 := BitVec.lt_def.mp (BitVec.clz_lt_iff_ne_zero.mpr ha)

theorem toNat_ctz_lt (ha : a ≠ 0#32) : a.ctz.toNat < 32 := BitVec.lt_def.mp (BitVec.ctz_lt_iff_ne_zero.mpr ha)

/-- Above the highest one stand the leading zeros. -/
theorem log2_toNat (ha : a ≠ 0#32) : Nat.log2 a.toNat = 31 - a.clz.toNat := by
  have hlt := toNat_clz_lt ha
  refine (Nat.log2_eq_iff (by simpa using BitVec.toNat_ne.mp ha)).mpr
    ⟨BitVec.two_pow_sub_clz_le_toNat_of_ne_zero (by decide) ha, ?_⟩
  rw [show 31 - a.clz.toNat + 1 = 32 - a.clz.toNat by omega]
  exact BitVec.toNat_lt_two_pow_sub_clz

theorem clzWord_eq : clzWord a = a.clz := by
  by_cases ha : a = 0#32
  · subst ha
    rfl
  · have hlt := toNat_clz_lt ha
    have h0 : a.toNat ≠ 0 := by simpa using BitVec.toNat_ne.mp ha
    refine BitVec.eq_of_toNat_eq ?_
    rw [clzWord, if_neg h0, log2_toNat ha, BitVec.toNat_ofNat]
    omega

/-- The search from bit `i` stops at the first one. -/
theorem ctzFrom_of_first {v i n m : Nat} (hi : i ≤ m) (hn : m < i + n) (hz : ∀ j, j < m → nbit v j = false) (hm : nbit v m = true) :
    ctzFrom v i n = m := by
  induction n generalizing i with
  | zero => omega
  | succ n ih =>
    rw [ctzFrom]
    by_cases he : i = m
    · rw [he, if_pos hm]
    · have hlt : i < m := by omega
      rw [hz i hlt, if_neg Bool.false_ne_true, ih (by omega) (by omega)]

theorem ctzWord_eq : ctzWord a = a.reverse.clz := by
  by_cases ha : a = 0#32
  · subst ha
    exact (BitVec.clz_eq_iff_eq_zero.mpr (BitVec.reverse_eq_zero_iff.mpr rfl)).symm
  · have hbit (j : Nat) : nbit a.toNat j = a.getLsbD j := nbit_eq_testBit _ _
    have hfirst : ctzFrom a.toNat 0 32 = a.ctz.toNat :=
      ctzFrom_of_first (Nat.zero_le _) (by have := toNat_ctz_lt ha; omega)
        (fun j hj => (hbit j).trans (BitVec.getLsbD_false_of_lt_ctz hj)) ((hbit _).trans (BitVec.getLsbD_true_ctz_of_ne_zero ha))
    rw [ctzWord, hfirst, BitVec.ofNat_toNat, BitVec.setWidth_eq, BitVec.ctz_eq_reverse_clz]

end Counts

/-- A word of two sources writes the function that its own equals in every lane (R69). -/
theorem aluOp_eq {f g : Word → Word → Word} (e : ∀ x y, f x y = g x y) (t : Team) (d a c : Nat) :
    aluOp f d a c t = t.write d (fun l => g (t.reg a l) (t.reg c l)) :=
  congrArg (t.write d) (funext fun _ => e _ _)

theorem unaryOp_eq {f g : Word → Word} (e : ∀ x, f x = g x) (t : Team) (d a : Nat) :
    unaryOp f d a t = t.write d (fun l => g (t.reg a l)) :=
  congrArg (t.write d) (funext fun _ => e _)

/-- Settles O4: each word writes its function of the registers it reads, which its law gives in the rule's form. -/
theorem integerWordsComputeTheirResult : Obligations.IntegerWordsComputeTheirResult := by
  unfold Obligations.IntegerWordsComputeTheirResult
  intro s p t h d a c im A C D pos len mask
  exact ⟨computes_of _ exec_iadd rfl, computes_of _ exec_isub rfl, computes_of _ exec_imul rfl, computes_of _ exec_imulh rfl,
    computes_of _ exec_andB rfl, computes_of _ exec_orB rfl, computes_of _ exec_xorB rfl, computes_of _ exec_andnB rfl,
    computes_of _ exec_shl (aluOp_eq (fun _ _ => shlWord_eq) ..), computes_of _ exec_shr (aluOp_eq (fun _ _ => shrWord_eq) ..),
    computes_of _ exec_sar (aluOp_eq (fun _ _ => sarWord_eq) ..), computes_of _ exec_rot (aluOp_eq (fun _ _ => rotWord_eq) ..),
    computes_of _ exec_bfx (aluOp_eq (fun _ _ => bfxWord_eq) ..), computes_of _ exec_bfi rfl, computes_of _ exec_sel rfl,
    computes_of _ exec_iaddi rfl, computes_of _ exec_mov rfl, computes_of _ exec_popc (unaryOp_eq (fun _ => popcWord_eq) ..),
    computes_of _ exec_clz (unaryOp_eq (fun _ => clzWord_eq) ..), computes_of _ exec_ctz (unaryOp_eq (fun _ => ctzWord_eq) ..),
    computes_of _ exec_brev rfl⟩

end Sys2Proof.Machine
end

section
/-!
SUPPORT. The meaning that the dispatch gives each engine word and each matrix word (R148 to R166), and what the registration of an
operation's ranges does in a context that is neither recorded nor replayed (R149, R244, R375).
-/

namespace Sys2Proof.Machine

/-! ## Dispatch -/

section Arms
variable {s : State} {h : Hdr} {a d : BitVec 7} {b1 : BitVec 1} {n c r : BitVec 5} {x y : BitVec 3} {k : BitVec 2}

theorem exec_tcopy : exec (.tcopy h a b1) s = execTcopy h a b1 s := by rfl
theorem exec_chain : exec (.chain h a b1) s = execChain h a b1 s := by rfl
theorem exec_coll : exec (.coll h a b1) s = execColl h a b1 s := by rfl
theorem exec_obres : exec (.obres h n c) s = execObres h n c s := by rfl
theorem exec_obset : exec (.obset h n c) s = execObset h n c s := by rfl
theorem exec_obrel : exec (.obrel h n) s = execObrel h n s := by rfl
theorem exec_leadN : exec (.leadN h n) s = execLeadN h n s := by rfl
theorem exec_qpushVal : exec (.qpushVal h n) s = execQpushVal h n s := by rfl
theorem exec_qpushLd : exec (.qpushLd h n) s = execQpushLd h n s := by rfl
theorem exec_qpushOb : exec (.qpushOb h n c) s = execQpushOb h n c s := by rfl
theorem exec_qpop : exec (.qpop h d) s = execQpop h d s := by rfl
theorem exec_launch : exec (.launch h a) s = execLaunch h a s := by rfl
theorem exec_msend : exec (.msend h n c) s = execMsend h n c s := by rfl
theorem exec_mrecv : exec (.mrecv h n c) s = execMrecv h n c s := by rfl
theorem exec_mmz : exec (.mmz h x b1) s = execMmz h x b1 s := by rfl
theorem exec_mld : exec (.mld h x n) s = execMld h x n s := by rfl
theorem exec_mma : exec (.mma h x n c) s = execMma h x n c s := by rfl
theorem exec_mmaTile : exec (.mmaTile h x y k n) s = execMmaTile h x y k n s := by rfl
theorem exec_smx : exec (.smx h x n) s = execSmx h x n s := by rfl
theorem exec_sexp : exec (.sexp h x n) s = execSexp h x n s := by rfl
theorem exec_srsc : exec (.srsc h x y) s = execSrsc h x y s := by rfl

end Arms

@[simp] theorem Team.opened_ipc (t : Team) (i : Instr) : (t.opened i).ipc = t.pc := rfl
@[simp] theorem State.countIssue_team (s : State) (tid ord : Nat) : s.countIssue (.team tid ord) = s := rfl
@[simp] theorem State.countIssue_lead (s : State) (tid ord : Nat) : s.countIssue (.lead tid ord) = s := rfl
@[simp] theorem Team.opened_descAt (t : Team) (i : Instr) (a : Nat) (b : Bool) : descAt (t.opened i) a b = descAt t a b := rfl

/-! ## Registering ranges -/

section Ranges
variable {s : State} {tid ord core op : Nat} {k : Task} {t : Team} {ls : List LockSpan} {p : Party}

theorem State.coreOf_of_taskOf (hk : s.taskOf p = some k) : s.coreOf p = k.core := by
  simp only [State.coreOf, hk]

theorem State.ctxOf_of_taskOf (hk : s.taskOf p = some k) : s.ctxOf p = k.ctx := by
  cases p with
  | team n o | lead n o =>
    have hk' : s.task? n = some k := hk
    simp only [State.ctxOf, hk']
  | prologue c | steward d => cases hk

/-- Outside recording and replay an event that ends a chunk goes on in a new one. -/
theorem chunked_quiet {kind : Nat} {payload : List Byte} {f : State → Team → Res} (hq : s.Quiet (s.ctxOf p)) :
    chunked s p t kind payload f = f s t.newChunk := by
  rw [chunked, endChunk_quiet hq]
  rfl

/-- Outside recording and replay ranges with room are registered at once; an overlap only starts a new chunk. -/
theorem registering_quiet {f : State → Team → Nat → Res} (hk : s.taskOf (.team tid ord) = some k) (hq : s.Quiet k.ctx)
    (hr : (s.core core).lockRoom ls.length = true) :
    registering s (.team tid ord) t core op ls f =
      f (s.setCore core ((s.core core).register tid ord op s.tick false ls).1) (if s.overlaps core tid ls then t.newChunk else t)
        ((s.core core).register tid ord op s.tick false ls).2 := by
  rw [← State.ctxOf_of_taskOf hk] at hq
  simp only [registering, partyTask, partyOrd, Option.getD_some, hr, hq.replay, chunked_quiet hq, Bool.not_true, Bool.false_eq_true, if_false]
  cases s.overlaps core tid ls <;> rfl

end Ranges
end Sys2Proof.Machine
end

section
/-!
SUPPORT. Engine words (R148 to R154, R299): what a copy, a chain and a collective do once their descriptor is read and legal.
-/
namespace Sys2Proof.Machine

section Queueing
variable {s s' : State} {tid ord eng : Nat} {k : Task} {t : Team} {i : Instr} {h : Hdr} {d : List Byte} {ls : List LockSpan}
  {eff : State → Party → Team → Res}

/-- An effect that queues an operation on an engine with room starts it. -/
theorem startsEngine_of_effect (hi : Issues s (.team tid ord) t i) (e : exec i s = issue i h s eff)
    (he : eff s (.team tid ord) (t.opened i) = startEngine s' (.team tid ord) (t.opened i) eng d ls)
    (hk : s'.taskOf (.team tid ord) = some k) (hq : s'.Quiet k.ctx) (hroom : (AMap.get [] (s'.core k.core).engines eng).length < 16)
    (hl : (s'.core k.core).lockRoom ls.length = true) : StartsEngine i h s tid ord t s' k.core eng d ls := by
  refine completes_of_started hi e (he.trans ?_)
  simp only [startEngine, partyTask, hk, if_neg (Nat.not_le.mpr hroom), registering_quiet hk hq hl, partyOrd]
  cases s'.overlaps k.core tid ls <;> rfl

end Queueing

section Legal
variable {s : State} {p : Party} {tid : Nat} {k : Task} {t : Team} {i : Instr} {d : List Byte} {c : Copy} {r : ObRec} {core : Core}

/-- A legal copy whose record, if it has one, is fit for it is queued on the copy engine with fewer operations. -/
theorem copyRes_of_legal (hp : partyTask p = some tid) (hk : s.taskOf p = some k) (hcore : s.core k.core = core) (hc : parseCopy d = c)
    (hr : core.obRec c.record = r) (hl : c.legal d = true) (hraw : c.sc = 11 → c.raw = true)
    (ho : c.dstSpace = 2 → copyObOk tid c r = true ∧ (c.dc = 11 → c.raw = false → c.count0 % r.blockLen = 0) ∧
      ∀ b ∈ c.blockStarts r, core.sagOk tid r b = true) :
    copyRes i d s p t = startEngine s p t core.copyEngine d (copySpans c r) := by
  have h1 : (c.sc = 11 && !c.raw) = false := by
    by_cases h : c.sc = 11 <;> simp [h, hraw]
  simp only [copyRes, hc, State.coreOf_of_taskOf hk, hcore, hr, hp, Option.getD_some, hl, h1, Bool.not_true, Bool.false_eq_true, if_false]
  by_cases hob : c.dstSpace = 2
  · obtain ⟨hok, hcount, hsag⟩ := ho hob
    have h2 : (c.dc = 11 && !c.raw && c.count0 % r.blockLen ≠ 0) = false := by
      by_cases hd : c.dc = 11 <;> cases hw : c.raw <;> simp_all
    have h3 : (c.blockStarts r).all (core.sagOk tid r) = true := List.all_eq_true.mpr hsag
    simp only [hob, hok, h2, h3, decide_true, Bool.true_and, Bool.not_true, Bool.false_eq_true, if_false]
  · simp [hob]

/-- A legal chain of a type it accepts is queued on engine 2, unless it has no elements. -/
theorem chainRes_of_legal (hl : chainLegal d = true) (ht : bytesAt d 0x1C 1 ≤ 8)
    (ho : bytesAt d 0x1C 1 ≤ 5 → ∀ o ∈ chainOps d, o.1 < 11) :
    chainRes i d s p t =
      if bytesAt d 0x18 4 = 0 then .started s ((t.start' .cp (.engine 2)).complete t.nextId) t.nextId
      else startEngine s p t 2 d
        (chainSpan d 0 0 false :: (if chainUsesB d then [chainSpan d 8 1 false] else []) ++ [chainSpan d 0x10 2 true]) := by
  have h1 : (9 ≤ bytesAt d 0x1C 1 || (bytesAt d 0x1C 1 ≤ 5 && (chainOps d).any (fun o => 11 ≤ o.1))) = false := by
    simp only [Bool.or_eq_false_iff, Bool.and_eq_false_imp, decide_eq_false_iff_not, decide_eq_true_iff, List.any_eq_false]
    exact ⟨by omega, fun h o hm => Nat.not_le.mpr (ho h o hm)⟩
  simp only [chainRes, hl, h1, Bool.not_true, Bool.false_eq_true, if_false]

/-- A legal collective in an open group joins its core's collectives. -/
theorem collRes_of_legal {ord : Nat} {g : Group} (hk : s.taskOf (.team tid ord) = some k) (hq : s.Quiet k.ctx)
    (hg : AMap.find (s.ctx k.ctx).groups (bytesAt d 0x18 2) = some g) (hopen : g.opening = none) (hl : collLegal d = true)
    (ht : collType (bytesAt d 0x14 1) = true) (hroom : (s.core k.core).lockRoom 2 = true) :
    let n := bytesAt d 0x10 4 * elemSize (bytesAt d 0x14 1)
    let m := if bytesAt d 0x15 1 = 4 then n * g.members.length else n
    let spans := [lockSpan false (bytesAt d 0 8) (bytesAt d 0 8 + n - 1) false,
      lockSpan false (bytesAt d 8 8) (bytesAt d 8 8 + m - 1) true]
    let reg := (s.core k.core).register tid ord t.nextId s.tick false spans
    let o : EngOp :=
      { task := tid, ord := ord, op := t.nextId, desc := d ++ toBytes 4 (wordDetail i), md := t.md, seq := reg.2, pc := t.ipc, pos := 0
        out := [], beside := [], block := [], fault := none }
    let u := t.start' .cp (.collective (bytesAt d 0x18 2))
    collRes i d s (.team tid ord) t =
      .started ((s.setCore k.core reg.1).modCore k.core (fun c => { c with colls := c.colls ++ [o] }))
        (if s.overlaps k.core tid spans then u.newChunk else u) t.nextId := by
  dsimp only
  simp only [collRes, partyTask, hk, hg, hl, hopen, ht, Option.isSome_none, Bool.not_true, Bool.or_self, Bool.false_eq_true, if_false]
  rw [registering_quiet hk hq hroom]
  cases s.overlaps k.core tid _ <;> rfl

end Legal

/-- Settles O17: once its descriptor is read and found legal, each word comes to the registration of its ranges. -/
theorem engineWordsQueueTheirOperation : Obligations.EngineWordsQueueTheirOperation := by
  unfold Obligations.EngineWordsQueueTheirOperation
  intro s tid ord t k h a sp s1 s2 d0 d g
  dsimp only
  intro hk hq
  refine ⟨fun hr1 hr2 hlo hhi hl hraw ho hroom hlocks hi => ?copy, fun hr hd hl ht hops hi => ?chain,
    fun hr hd hl ht hg hopen hlocks hi => ?coll⟩
  case copy =>
    refine startsEngine_of_effect hi exec_tcopy ?_ hk hq hroom hlocks
    have hrank : (bytesAt d0 0x12 1 = 0 || 16 < bytesAt d0 0x12 1) = false := by simp; omega
    simp only [Team.opened_ipc, Team.opened_descAt, hr1, hr2, hrank]
    exact copyRes_of_legal rfl hk rfl rfl rfl hl hraw ho
  case chain =>
    rw [hd] at hk hq ⊢
    have he {s : State} := chainRes_of_legal (i := .chain h a sp) (s := s) (p := .team tid ord) (t := t.opened (.chain h a sp)) hl ht hops
    refine ⟨fun h0 => completes_of_started hi exec_chain ?_,
      fun h0 hroom hlocks => startsEngine_of_effect hi exec_chain ?_ hk hq hroom hlocks⟩
    · simp only [State.countIssue_team, Team.opened_ipc, Team.opened_descAt, hr, he, if_pos h0]
      rfl
    · simp only [Team.opened_ipc, Team.opened_descAt, hr, he, if_neg h0]
  case coll =>
    rw [hd] at hk hq hg hlocks ⊢
    refine completes_of_started hi exec_coll ?_
    simp only [State.countIssue_team, Team.opened_ipc, Team.opened_descAt, hr]
    exact collRes_of_legal hk hq hg hopen hl ht hlocks

end Sys2Proof.Machine
end

section
/-!
SUPPORT. Operand buffer records as words hold, set and release them (R158, R159, R292).
-/

namespace Sys2Proof.Machine

section Records
variable {s : State} {tid ord n len : Nat} {k : Task} {t : Team} {w1 w2 : Word} {c : Core}

/-- The hold of a stream that is stored. -/
theorem State.holdAt_of_team? {p : Party} {u : Team} (hu : s.team? p = some u) : s.holdAt p = u.hold := by
  simp only [State.holdAt, hu]

/-- `obres` of a team that was granted its record begins. -/
theorem obresRes_granted (hk : s.task? tid = some k) (hh : s.holdAt (.team tid ord) = .obres n len) :
    obresRes n len s (.team tid ord) t = .ok s t := by
  simp only [obresRes, partyTask, State.taskOf_team hk, hh, if_true]

section Fresh
variable (hk : s.task? tid = some k) (hc : s.core k.core = c) (hh : s.holdAt (.team tid ord) ≠ .obres n len)
include hk hc hh

/-- A length that no record has, or a record that the cohort holds already. -/
theorem obresRes_refused (hb : len = 0 ∨ 128 < len ∨ (c.obRec n).held = some tid) :
    obresRes n len s (.team tid ord) t = .trap (obTrap n 0) := by
  have hb' : (len = 0 || 128 < len || (c.obRec n).held = some tid) = true := by simpa [or_assoc] using hb
  simp only [obresRes, partyTask, State.taskOf_team hk, hc, hh, hb', if_true, if_false]

variable (hlo : 1 ≤ len) (hhi : len ≤ 128) (hr : (c.obRec n).held ≠ some tid)
include hlo hhi hr

omit hk hc hh in
theorem length_unrefused : (len = 0 || 128 < len || (c.obRec n).held = some tid) = false := by
  simp only [Bool.or_eq_false_iff, decide_eq_false_iff_not]
  exact ⟨⟨by omega, by omega⟩, hr⟩

/-- With nothing waiting before it a free record is taken at once where a run is free. -/
theorem obresRes_taken {base : Nat} (hq : c.obQ = []) (hn : (c.obRec n).held = none) (hf : c.freeRun len = some base) :
    obresRes n len s (.team tid ord) t = .ok (s.setCore k.core (c.holdRec tid n len base)) t := by
  have hb := length_unrefused hlo hhi hr
  rw [hn] at hb
  simp only [obresRes, partyTask, State.taskOf_team hk, hc, hh, hb, hq, hn, hf, List.isEmpty_nil,
    Option.isNone_none, Bool.and_self, if_false, Bool.false_eq_true]

/-- Otherwise the cohort joins the queue of its core. -/
theorem obresRes_queued (hw : c.obQ ≠ [] ∨ (c.obRec n).held ≠ none ∨ c.freeRun len = none) :
    obresRes n len s (.team tid ord) t =
      .hold (s.setCore k.core { c with obQ := c.obQ ++ [{ task := tid, ord := ord, n := n, len := len }] }) (.obres n len) := by
  simp only [obresRes, partyTask, partyOrd, State.taskOf_team hk, hc, hh, length_unrefused hlo hhi hr, if_false, Bool.false_eq_true]
  split
  case h_1 hfree hf => simp_all
  case h_2 => rfl

end Fresh

section Held
variable (hk : s.task? tid = some k) (hc : s.core k.core = c)
include hk hc

theorem obsetRes_set (hr : (c.obRec n).held = some tid) (hw : obWordsOk w1.toNat w2.toNat = true) (hb : s.obBusy tid n k = false) :
    obsetRes n w1 w2 s (.team tid ord) t =
      .ok (s.setCore k.core (c.setObRec n { c.obRec n with word1 := w1, word2 := w2 })) t := by
  simp [obsetRes, partyTask, State.taskOf_team hk, hc, hr, hw, hb]

theorem obsetRes_refused (hr : (c.obRec n).held ≠ some tid ∨ obWordsOk w1.toNat w2.toNat = false) :
    obsetRes n w1 w2 s (.team tid ord) t = .trap (obTrap n 0) := by
  simp only [obsetRes, partyTask, State.taskOf_team hk, hc]
  exact if_pos (by simpa using hr)

theorem obrelRes_released (hr : (c.obRec n).held = some tid) (hb : s.obBusy tid n k = false) :
    obrelRes n s (.team tid ord) t = .ok (s.setCore k.core (c.setObRec n ObRec.reset)) t := by
  simp [obrelRes, partyTask, State.taskOf_team hk, hc, hr, hb]

theorem obrelRes_refused (hr : (c.obRec n).held ≠ some tid) : obrelRes n s (.team tid ord) t = .trap (obTrap n 0) := by
  simp [obrelRes, partyTask, State.taskOf_team hk, hc, hr]

end Held

end Records

/-- Settles O18: each word is one of the ways that its function ends. -/
theorem operandBufferRecordsAreHeldSetAndReleased : Obligations.OperandBufferRecordsAreHeldSetAndReleased := by
  unfold Obligations.OperandBufferRecordsAreHeldSetAndReleased
  intro s tid ord t k h n a hk
  dsimp only
  have hold {i : Instr} {w : Hold} (hi : Issues s (.team tid ord) t i) (hw : t.hold ≠ w) : s.holdAt (.team tid ord) ≠ w := by
    rwa [State.holdAt_of_team? hi.team]
  refine ⟨fun hlo hhi hr hw hi => ⟨fun base hq hn hf => ?taken, fun hb => ?queued⟩, fun hw hi => ?granted, fun hb hw hi => ?refused,
    fun hr hw hb hi => completesIn_of_ok hi exec_obset (obsetRes_set hk rfl hr hw hb),
    fun hr => trapsWith_of_trap exec_obset (obsetRes_refused hk rfl hr),
    fun hr hb hi => completesIn_of_ok hi exec_obrel (obrelRes_released hk rfl hr hb),
    fun hr => trapsWith_of_trap exec_obrel (obrelRes_refused hk rfl hr)⟩
  case taken => exact completesIn_of_ok hi exec_obres (obresRes_taken hk rfl (hold hi hw) hlo hhi hr hq hn hf)
  case queued =>
    rw [exec_obres]
    exact issue_hold hi (obresRes_queued hk rfl (hold hi hw) hlo hhi hr hb)
  case granted => exact completesIn_of_ok hi exec_obres (obresRes_granted hk ((State.holdAt_of_team? hi.team).trans hw))
  case refused => exact traps_of_trap hi exec_obres (obresRes_refused hk rfl (hold hi hw) hb)

end Sys2Proof.Machine
end

section
/-!
SUPPORT. Launches and messages (R155 to R157): what the words do once the blocks that they name are read.
-/

namespace Sys2Proof.Machine

section Blocks
variable {s s1 s2 : State} {p : Party} {tid ord dev : Nat} {k : Task} {t : Team} {i : Instr} {va : Word64} {d table : List Byte}
  {target box : Word} {l : Loc} {m : Message} {rest : List Message}

/-! ## Launches -/

/-- A legal launch has its record and its role table read, and then finds room in its core's queue or none. -/
theorem launchRes_of_legal (hd : readBlock s p t .global va 64 64 = .ok (s1, d)) (hr : (parseRecord d).ok = true)
    (ht : readBlock s1 p t .global (parseRecord d).table 8 (tableSize (parseRecord d).roleCount) = .ok (s2, table))
    (hok : tableOk (parseRecord d) table = true)
    (hp : s2.couldPlace (s2.ctxOf p) (parseRecord d) (rolesOf (parseRecord d) table) = true) :
    launchRes i va s p t =
      if s2.launchRoom (s2.coreOf p) then
        .ok ((s2.watchBlock p t.ipc .global va 64).watchBlock p t.ipc .global (parseRecord d).table table.length)
          { t with hold := .commit (.launch d table) }
      else .hold s2 .full := by
  simp only [launchRes, hd, hr, ht, hok, hp, Bool.not_true, Bool.or_self, Bool.false_eq_true, if_false]
  cases s2.launchRoom (s2.coreOf p) <;> rfl

/-! ## Sending -/

/-- A message to a device that has a route is held by its task for the next commit. -/
theorem msendRes_of_routed (hk : s.task? tid = some k) (htarget : target.toNat < 2 ^ 24)
    (hroute : (s.route k.ctx (target.toNat / 2 ^ 8 % 2 ^ 16)).isSome = true) (hd : readBlock s (.team tid ord) t .global va 64 64 = .ok (s1, d))
    (hs : s2 = s1.watchBlock (.team tid ord) t.ipc .global va 64) (hg : (s2.taskOf (.team tid ord)).map (·.grid) = some k.grid) :
    msendRes target va s (.team tid ord) t =
      .started (s2.modTask tid (fun k' => { k' with messages := k'.messages ++
        [{ mbox := target.toNat % 2 ^ 8, srcDev := (s2.reg rMDEVNO).toNat % 2 ^ 16, srcCtx := k.ctx
           dstDev := target.toNat / 2 ^ 8 % 2 ^ 16, epoch := 0, seq := 0, body := d, grid := k.grid }] }))
        ((t.start' .cp .message).complete t.nextId) t.nextId := by
  subst hs
  obtain ⟨k', hk', hgrid⟩ := Option.map_eq_some_iff.mp hg
  have hb : (decide (target.toNat / 2 ^ 24 ≠ 0) || (s.route k.ctx (nbits target.toNat 8 16)).isNone) = false := by
    have h0 : target.toNat / 2 ^ 24 = 0 := Nat.div_eq_of_lt htarget
    rw [h0, nbits, ← Option.not_isSome, hroute]
    rfl
  simp only [msendRes, State.ctxOf_team hk, hb, hd, hk', hgrid, partyTask, Option.getD_some, Bool.false_eq_true, if_false]
  simp only [nbits, Nat.pow_zero, Nat.div_one]

/-! ## Receiving -/

section Bound
variable (hbox : box.toNat < 256) (hbind : (s.reg (rMBXBIND box.toNat)).toNat / 2 ^ 6 % 2 = 1)
  (hctx : (s.reg (rMBXBIND box.toNat)).toNat % 2 ^ 6 = s.ctxOf p) (hl : s.checkAccess p .global .store va 64 false = (s, .ok l))
include hbox hbind hctx

/-- A mailbox that is bound to the receiver's context passes the checks of a receive. -/
theorem mrecv_check_of_bound : (decide (255 < box.toNat) || !nbit (s.reg (rMBXBIND box.toNat)).toNat 6 ||
    decide (nbits (s.reg (rMBXBIND box.toNat)).toNat 0 6 ≠ s.ctxOf p)) = false := by
  have h255 : ¬ 255 < box.toNat := by omega
  simp only [nbit, nbits, Nat.pow_zero, Nat.div_one, hbind, hctx, h255, ne_eq, not_true, decide_true, decide_false, Bool.not_true,
    Bool.or_self]

include hl

/-- From an empty mailbox a receive waits for a message. -/
theorem mrecvRes_of_empty (hm : AMap.get [] s.mailboxes box.toNat = []) : mrecvRes va box s p t = .hold s (.recv box.toNat) := by
  simp only [mrecvRes, mrecv_check_of_bound hbox hbind hctx, hl, hm, Bool.false_eq_true, if_false]

/-- Outside recording and replay a receive takes the head of its mailbox and starts its store. -/
theorem mrecvRes_of_cons (hq : s.Quiet (s.ctxOf p)) (hm : AMap.get [] s.mailboxes box.toNat = m :: rest) :
    mrecvRes va box s p t =
      .started ((deliverHeld s.arrivals.length { s with mailboxes := AMap.put [] s.mailboxes box.toNat rest }).modTask
          ((partyTask p).getD 0) (fun k => { k with taken := k.taken ++ [m] }))
        (t.newChunk.start' .st (.mem { kind := .store, bytes := 8, signed := false, dest := 0, accs := bodyAccesses va l m.body
                                       acq := false, rel := false, scope := 0, op := 0, reqs := [], held := none }))
        t.nextId := by
  have hrep (ms : AMap (List Message)) : { s with mailboxes := ms }.replaying ({ s with mailboxes := ms }.ctxOf p) = false := by
    cases p <;> exact hq.replay
  simp only [mrecvRes, mrecv_check_of_bound hbox hbind hctx, hl, hm, chunked_quiet hq, hrep, Bool.false_eq_true, if_false]
  rfl

end Bound

end Blocks

/-- Settles O20: each word ends as its function does once the blocks that it names are read; a full counter is read off its maximum. -/
theorem launchesAndMessagesTakeTheirBlocks : Obligations.LaunchesAndMessagesTakeTheirBlocks := by
  unfold Obligations.LaunchesAndMessagesTakeTheirBlocks
  intro s tid ord t k h a c va s1 s2 d table l m rest
  dsimp only
  intro hk
  refine ⟨fun hd hr ht hok hp hi => ⟨fun hroom => ?room, fun hroom => ?full⟩, fun ht hroute hd hs hg hi => ?send, fun hc => ?cp,
    fun hc => ?st, fun hb h6 hctx hl hm hi => ?empty, fun hb h6 hctx hq hl hm hi => ?taken⟩
  case room =>
    refine completesIn_of_ok hi exec_launch ((launchRes_of_legal hd hr ht hok hp).trans ?_)
    rw [hroom]; rfl
  case full =>
    rw [exec_launch]
    refine issue_hold hi ((launchRes_of_legal hd hr ht hok hp).trans ?_)
    rw [hroom]; rfl
  case send => exact completes_of_started hi exec_msend (msendRes_of_routed hk ht hroute hd hs hg)
  case cp => exact decide_eq_true hc
  case st => exact decide_eq_true hc
  case empty =>
    rw [exec_mrecv]
    exact issue_hold hi (mrecvRes_of_empty hb h6 (hctx.trans (State.ctxOf_team hk).symm) hl hm)
  case taken =>
    rw [← State.ctxOf_team (ord := ord) hk] at hq hctx
    exact completes_of_started hi exec_mrecv (mrecvRes_of_cons hb h6 hctx hl hq hm)

end Sys2Proof.Machine
end

section
/-!
SUPPORT. Matrix words as they issue (R162 to R166, R168, R288): which tiles a team may name, and what joins the queue of its array.
-/

namespace Sys2Proof.Machine

/-! ## Tiles that a team may name (R162, R163) -/

section Owners
variable {k : Core} {t : Team} {tid ord tile : Nat} {tiles : List Nat}

theorem notOwned_eq_none (h : ∀ x ∈ tiles, k.owns t tid ord x) : notOwned k t tid ord tiles = none := by
  refine List.find?_eq_none.mpr fun x hx => ?_
  obtain ⟨hq, ho⟩ := h x hx
  simp [hq, ho]

theorem notOwned_singleton (h : ¬ k.owns t tid ord tile) : notOwned k t tid ord [tile] = some tile := by
  have hb : (tile / 2 ≠ t.partition / 8 || AMap.find k.holder tile ≠ some (tid, ord)) = true := by
    simpa [Core.owns, imp_iff_not_or] using h
  simp only [notOwned, List.find?, hb]

/-- The tiles of a word on a pair are the team's when the pair is. -/
theorem owns_pairTiles {md : Word} (h : k.owns t tid ord tile ∧ (mdRed md = true → k.owns t tid ord (tile ^^^ 1))) :
    ∀ x ∈ pairTiles md tile, k.owns t tid ord x := by
  obtain ⟨h0, h1⟩ := h
  intro x hx
  unfold pairTiles at hx
  split at hx
  · next hr =>
    rcases List.mem_pair.mp hx with rfl | rfl
    · exact h0
    · exact h1 hr
  · rw [List.mem_singleton.mp hx]
    exact h0

/-- So are they with a source tile. -/
theorem owns_pairTiles_append {md : Word} {src : Nat} (h : k.owns t tid ord tile ∧ (mdRed md = true → k.owns t tid ord (tile ^^^ 1)))
    (hs : k.owns t tid ord src) : ∀ x ∈ pairTiles md tile ++ [src], k.owns t tid ord x := by
  intro x hx
  rcases List.mem_append.mp hx with hx | hx
  · exact owns_pairTiles h x hx
  · rw [List.mem_singleton.mp hx]
    exact hs

end Owners

/-! ## Queueing (R162, R288) -/

section Queueing
variable {s s' : State} {tid ord tile seq : Nat} {k : Task} {t u : Team} {i : Instr} {h : Hdr} {w : MatrixWord}
  {eff : State → Party → Team → Res}

/-- An effect that queues a word on an array with room starts it. -/
theorem queuesWord_of_effect (hi : Issues s (.team tid ord) t i) (e : exec i s = issue i h s eff)
    (he : eff s (.team tid ord) (t.opened i) = startMatrix w tile seq s' (.team tid ord) u)
    (hu : u = t.opened i ∨ u = (t.opened i).newChunk) (hk : s'.taskOf (.team tid ord) = some k)
    (hroom : (AMap.get [] (s'.core k.core).arrays (t.partition / 8)).length < 16) :
    QueuesWord i h s tid ord t u s' k.core tile seq w := by
  have hroom' : ¬ 16 ≤ (AMap.get [] (s'.core k.core).arrays (u.partition / 8)).length := by
    rcases hu with rfl | rfl <;> exact Nat.not_le.mpr hroom
  refine completes_of_started hi e (he.trans ?_)
  simp only [startMatrix, State.coreOf_of_taskOf hk, hroom', if_false]
  rcases hu with rfl | rfl <;> rfl

end Queueing

section Words
variable {s s' : State} {tid ord tile : Nat} {k : Task} {t u : Team} {w : MatrixWord} {c : Core}

section Own
variable (hk : s.task? tid = some k) (hc : s.core k.core = c)
include hk hc

theorem matrixWord_of_owned (h : ∀ x ∈ w.tiles t.md tile, c.owns t tid ord x) :
    matrixWord w tile s (.team tid ord) t = startMatrix w tile c.lockSeq s (.team tid ord) t := by
  have hn : notOwned c t ((partyTask (.team tid ord)).getD 0) (partyOrd (.team tid ord)) (w.tiles t.md tile) = none := notOwned_eq_none h
  simp only [matrixWord, State.coreOf_of_taskOf (State.taskOf_team hk), hc, hn]

theorem mmaRes_of_owned {a : Option Nat} {b block : Nat} (h : ∀ x ∈ w.tiles t.md tile, c.owns t tid ord x)
    (ht : mmaTrap c tid tile a b block (rowList t.matrixRows) = none) :
    mmaRes w tile a b block s (.team tid ord) t = startMatrix w tile c.lockSeq s (.team tid ord) t := by
  have hn : notOwned c t tid ord (w.tiles t.md tile) = none := notOwned_eq_none h
  simp only [mmaRes, State.coreOf_of_taskOf (State.taskOf_team hk), hc, partyTask, partyOrd, Option.getD_some, hn, ht]

theorem mldRes_of_owned {base : Word64} {rows : List Access} (h : ∀ x ∈ pairTiles t.md tile, c.owns t tid ord x)
    (hr : rowParts .global .load (.team tid ord) base 16 2048 (rowList t.matrixRows) s = .ok (s, rows)) (hw : t.rowsWait rows = false) :
    mldRes tile base s (.team tid ord) t = startMatrix (.mld rows) tile c.lockSeq s (.team tid ord) t := by
  have hn : notOwned c t tid ord (pairTiles t.md tile) = none := notOwned_eq_none h
  simp only [mldRes, State.coreOf_of_taskOf (State.taskOf_team hk), hc, partyTask, partyOrd, Option.getD_some, hn, hr, hw,
    Bool.false_eq_true, if_false]

/-- A drain to memory registers its destination and joins its array's queue. -/
theorem drainMem_of_room {norm kind : Nat} {base : Word64} {rows : List Access} (hq : s.Quiet k.ctx)
    (hr : rowParts (if kind = 1 then .own else .global) .store (.team tid ord) base
      (if kind = 3 then 16 else elemSize (mdType t.md)) (if kind = 3 then 2048 else 128 * elemSize (mdType t.md))
      (rowList t.matrixRows) s = .ok (s, rows)) (hw : t.rowsWait rows = false)
    (hroom : (AMap.get [] c.arrays (t.partition / 8)).length < 16) (hl : c.lockRoom (drainSpan rows (kind = 1)).length = true) :
    drainMem tile norm kind base s (.team tid ord) t =
      startMatrix (.mdrain norm (.mem (kind = 3) rows)) tile (c.register tid ord t.nextId s.tick false (drainSpan rows (kind = 1))).2
        (s.setCore k.core (c.register tid ord t.nextId s.tick false (drainSpan rows (kind = 1))).1) (.team tid ord)
        (if s.overlaps k.core tid (drainSpan rows (kind = 1)) then t.newChunk else t) := by
  have hkk := State.taskOf_team (ord := ord) hk
  subst hc
  simp only [drainMem, hr, State.coreOf_of_taskOf hkk, hw, Nat.not_le.mpr hroom, decide_false, Bool.or_self, Bool.false_eq_true, if_false]
  exact registering_quiet hkk hq hl

end Own
end Words

/-! ## Holding and releasing tiles (R163, R288) -/

/-- What `mres` does. -/
def mresRes (x : Nat) (s : State) (p : Party) (t : Team) : Res :=
  let core := s.coreOf p
  let c := s.core core
  let tid := (partyTask p).getD 0
  if x / 2 ≠ t.partition / 8 then .trap (ownerTrap x)
  else if AMap.find c.holder x = some (tid, partyOrd p) then .ok s t
  else if (AMap.find c.holder x).isNone && (AMap.get [] c.tileQ x).isEmpty && !s.tileBusy core x then
    .ok ((s.setCore core (c.holdTile x tid (partyOrd p))).cleanse (Site.inTile core [x] (span 0 128) (span 0 128))) t
  else .hold (s.setCore core { c with tileQ := AMap.put [] c.tileQ x (AMap.get [] c.tileQ x ++ [(tid, partyOrd p)]) }) (.tile x)

theorem exec_mres {s : State} {h : Hdr} {x : BitVec 3} : exec (.mres h x) s = issue (.mres h x) h s (mresRes x.toNat) := by rfl

/-- What `mrel` does. -/
def mrelRes (x : Nat) (s : State) (p : Party) (t : Team) : Res :=
  let core := s.coreOf p
  let c := s.core core
  match notOwned c t ((partyTask p).getD 0) (partyOrd p) [x] with
  | some x => .trap (ownerTrap x)
  | none => if t.usesTile x then .wait else .ok (s.setCore core { c with holder := AMap.erase c.holder x }) t

theorem exec_mrel {s : State} {h : Hdr} {x : BitVec 3} : exec (.mrel h x) s = issue (.mrel h x) h s (mrelRes x.toNat) := by rfl

section Tiles
variable {s : State} {tid ord x : Nat} {k : Task} {t : Team} {c : Core}

theorem mresRes_of_foreign {p : Party} (hq : x / 2 ≠ t.partition / 8) : mresRes x s p t = .trap (ownerTrap x) := if_pos hq

variable (hk : s.task? tid = some k) (hc : s.core k.core = c)
include hk hc

theorem mresRes_of_held (ho : c.owns t tid ord x) : mresRes x s (.team tid ord) t = .ok s t := by
  obtain ⟨hq, hf⟩ := ho
  simp [mresRes, State.coreOf_of_taskOf (State.taskOf_team hk), hc, partyTask, partyOrd, hq, hf]

/-- A tile that no one holds, waits for or uses is taken at once. -/
theorem mresRes_of_free (hq : x / 2 = t.partition / 8) (hn : AMap.find c.holder x = none) (hw : AMap.get [] c.tileQ x = [])
    (hb : s.tileBusy k.core x = false) : mresRes x s (.team tid ord) t =
      .ok ((s.setCore k.core (c.holdTile x tid ord)).cleanse (Site.inTile k.core [x] (span 0 128) (span 0 128))) t := by
  simp [mresRes, State.coreOf_of_taskOf (State.taskOf_team hk), hc, partyTask, partyOrd, hq, hn, hw, hb]

/-- Any other tile of the quadrant is waited for. -/
theorem mresRes_of_taken (hq : x / 2 = t.partition / 8) (ho : AMap.find c.holder x ≠ some (tid, ord))
    (hb : AMap.find c.holder x ≠ none ∨ AMap.get [] c.tileQ x ≠ [] ∨ s.tileBusy k.core x = true) : mresRes x s (.team tid ord) t =
      .hold (s.setCore k.core { c with tileQ := AMap.put [] c.tileQ x (AMap.get [] c.tileQ x ++ [(tid, ord)]) }) (.tile x) := by
  have hb' : ((AMap.find c.holder x).isNone && (AMap.get [] c.tileQ x).isEmpty && !s.tileBusy k.core x) = false := by
    rcases hb with hb | hb | hb <;> simp [hb]
  simp only [mresRes, State.coreOf_of_taskOf (State.taskOf_team hk), hc, partyTask, partyOrd, Option.getD_some, hq, ho, hb', ne_eq,
    not_true, Bool.false_eq_true, if_false]

theorem mrelRes_of_held (ho : c.owns t tid ord x) (hu : t.usesTile x = false) : mrelRes x s (.team tid ord) t =
    .ok (s.setCore k.core { c with holder := AMap.erase c.holder x }) t := by
  have hn : notOwned c t tid ord [x] = none := notOwned_eq_none (by simpa using ho)
  simp only [mrelRes, State.coreOf_of_taskOf (State.taskOf_team hk), hc, partyTask, partyOrd, Option.getD_some, hn, hu,
    Bool.false_eq_true, if_false]

theorem mrelRes_of_not_held (ho : ¬ c.owns t tid ord x) : mrelRes x s (.team tid ord) t = .trap (ownerTrap x) := by
  simp only [mrelRes, State.coreOf_of_taskOf (State.taskOf_team hk), hc, partyTask, partyOrd, Option.getD_some, notOwned_singleton ho]

end Tiles

/-! ## Drains (R166, R168) -/

/-- Where a drain that may begin goes: to registers, or to memory by its kind. -/
def drainTo (tile norm first block kind : Nat) (reg : Nat) (seq : Nat) (s : State) (p : Party) (t : Team) : Res :=
  match kind with
  | 0 => startMatrix (.mdrain norm (.reg first block)) tile seq s p t
  | 1 => drainMem tile norm 1 ((t.kreg reg).setWidth 64) s p t
  | n => drainMem tile norm n (t.kpair reg) s p t

/-- What `mdrain` does: it waits for words on a redundant pair, compares the pair, and goes on. -/
def mdrainRes (tile norm first block kind reg : Nat) (s : State) (p : Party) (t : Team) : Res :=
  let c := s.core (s.coreOf p)
  match notOwned c t ((partyTask p).getD 0) (partyOrd p) (pairTiles t.md tile) with
  | some x => .trap (ownerTrap x)
  | none =>
    if mdRed t.md && (pairTiles t.md tile).any t.usesTile then .wait
    else match (if mdRed t.md then c.mismatch tile (rowList t.matrixRows) else none) with
    | some row => .trap (trapOf 29 0#64 (256 * row + tile))
    | none => drainTo tile norm first block kind reg c.lockSeq s p t

theorem exec_mdrain {s : State} {h : Hdr} {x : BitVec 3} {kind norm blk : BitVec 2} {a : BitVec 5} :
    exec (.mdrain h x kind norm blk a) s = issue (.mdrain h x kind norm blk a) h s
      (mdrainRes x.toNat norm.toNat (4 * a.toNat) blk.toNat kind.toNat a.toNat) := by
  rfl

section Drains
variable {s : State} {tid ord tile norm first block kind reg row : Nat} {k : Task} {t : Team} {c : Core} (hk : s.task? tid = some k)
  (hc : s.core k.core = c) (ho : ∀ x ∈ pairTiles t.md tile, c.owns t tid ord x)
include hk hc ho

/-- On its own tiles a drain comes to the words on a redundant pair, then to the comparison of the pair. -/
theorem mdrainRes_of_owned : mdrainRes tile norm first block kind reg s (.team tid ord) t =
    if mdRed t.md && (pairTiles t.md tile).any t.usesTile then .wait
    else match (if mdRed t.md then c.mismatch tile (rowList t.matrixRows) else none) with
    | some row => .trap (trapOf 29 0#64 (256 * row + tile))
    | none => drainTo tile norm first block kind reg c.lockSeq s (.team tid ord) t := by
  simp only [mdrainRes, State.coreOf_of_taskOf (State.taskOf_team hk), hc, partyTask, partyOrd, Option.getD_some, notOwned_eq_none ho]

theorem mdrainRes_of_busy (hr : mdRed t.md = true) (hu : ¬ ∀ n ∈ pairTiles t.md tile, t.usesTile n = false) :
    mdrainRes tile norm first block kind reg s (.team tid ord) t = .wait := by
  have hb : (pairTiles t.md tile).any t.usesTile = true := by simpa using hu
  rw [mdrainRes_of_owned hk hc ho, hr, hb]
  rfl

theorem mdrainRes_of_mismatch (hr : mdRed t.md = true) (hu : ∀ n ∈ pairTiles t.md tile, t.usesTile n = false)
    (hm : c.mismatch tile (rowList t.matrixRows) = some row) :
    mdrainRes tile norm first block kind reg s (.team tid ord) t = .trap (trapOf 29 0#64 (256 * row + tile)) := by
  have hb : (pairTiles t.md tile).any t.usesTile = false := by simpa using hu
  rw [mdrainRes_of_owned hk hc ho, hr, hb, if_pos rfl, hm]
  rfl

/-- A drain that is not redundant, or whose pair is at rest and agrees, goes on. -/
theorem mdrainRes_of_clean
    (h : mdRed t.md = true → (∀ n ∈ pairTiles t.md tile, t.usesTile n = false) ∧ c.mismatch tile (rowList t.matrixRows) = none) :
    mdrainRes tile norm first block kind reg s (.team tid ord) t =
      drainTo tile norm first block kind reg c.lockSeq s (.team tid ord) t := by
  rw [mdrainRes_of_owned hk hc ho]
  cases hr : mdRed t.md with
  | false => rfl
  | true =>
    obtain ⟨hu, hm⟩ := h hr
    have hb : (pairTiles t.md tile).any t.usesTile = false := by simpa using hu
    rw [hb, if_pos rfl, hm]
    rfl

end Drains

/-- A drain to memory takes its base from one register in its team's scratchpad, else from a pair. -/
theorem drainTo_memory {s : State} {p : Party} {t : Team} {tile norm first block kind reg seq : Nat} (hk : kind ≠ 0) :
    drainTo tile norm first block kind reg seq s p t =
      drainMem tile norm kind (if kind = 1 then (t.kreg reg).setWidth 64 else t.kpair reg) s p t := by
  match kind, hk with
  | 1, _ => rfl
  | n + 2, _ => rw [if_neg (by omega)]; rfl

/-- Settles O21: each word is one of the ways that its function ends, and what it queues is what `startMatrix` queues. -/
theorem matrixWordsQueueOnTheirArray : Obligations.MatrixWordsQueueOnTheirArray := by
  unfold Obligations.MatrixWordsQueueOnTheirArray
  intro s tid ord t k h x y a b z kind norm blk rows row hk
  dsimp only
  have hkk := State.taskOf_team (ord := ord) hk
  refine ⟨fun hq ho => changes_of_ok exec_mres (mresRes_of_held hk rfl ho),
    fun hq hn hf hb hi => completesIn_of_ok hi exec_mres (mresRes_of_free hk rfl hq hn hf hb), fun hq ho hb hi => ?wait,
    fun hq => trapsWith_of_trap exec_mres (mresRes_of_foreign hq),
    fun ho hu hi => completesIn_of_ok hi exec_mrel (mrelRes_of_held hk rfl ho hu),
    fun ho => trapsWith_of_trap exec_mrel (mrelRes_of_not_held hk rfl ho),
    fun ho hr hi => queuesWord_of_effect hi exec_mmz (matrixWord_of_owned hk rfl (owns_pairTiles ho)) (.inl rfl) hkk hr,
    fun ho hr hi => queuesWord_of_effect hi exec_smx (matrixWord_of_owned hk rfl (owns_pairTiles ho)) (.inl rfl) hkk hr,
    fun ho hr hi => queuesWord_of_effect hi exec_sexp (matrixWord_of_owned hk rfl (owns_pairTiles ho)) (.inl rfl) hkk hr,
    fun ho hs hr hi => queuesWord_of_effect hi exec_srsc (matrixWord_of_owned hk rfl (owns_pairTiles_append ho hs)) (.inl rfl) hkk hr,
    fun ho ht hr hi => queuesWord_of_effect hi exec_mma (mmaRes_of_owned hk rfl (owns_pairTiles ho) ht) (.inl rfl) hkk hr,
    fun ho hs ht hr hi => queuesWord_of_effect hi exec_mmaTile (mmaRes_of_owned hk rfl (owns_pairTiles_append ho hs) ht) (.inl rfl) hkk hr,
    fun ho hp hw hr hi => queuesWord_of_effect hi exec_mld (mldRes_of_owned hk rfl (owns_pairTiles ho) hp hw) (.inl rfl) hkk hr,
    fun ho hred hu hi => waits_of_wait hi exec_mdrain (mdrainRes_of_busy hk rfl (owns_pairTiles ho) hred hu),
    fun ho hred hu hm => trapsWith_of_trap exec_mdrain (mdrainRes_of_mismatch hk rfl (owns_pairTiles ho) hred hu hm),
    fun ho hclean hkind hr hi => queuesWord_of_effect hi exec_mdrain ?toRegs (.inl rfl) hkk hr,
    fun ho hclean hkind hq hp hw hr hl hi => queuesWord_of_effect hi exec_mdrain ?toMemory ?stream ?task ?room⟩
  case wait =>
    rw [exec_mres]
    exact issue_hold hi (mresRes_of_taken hk rfl hq ho hb)
  case toRegs =>
    refine (mdrainRes_of_clean (t := t.opened _) hk rfl (owns_pairTiles ho) hclean).trans ?_
    rw [hkind]
    rfl
  case toMemory =>
    refine (mdrainRes_of_clean (t := t.opened _) hk rfl (owns_pairTiles ho) hclean).trans ((drainTo_memory hkind).trans ?_)
    exact drainMem_of_room (t := t.opened _) hk rfl hq hp hw hr hl
  case stream =>
    cases s.overlaps k.core tid _
    · exact .inl rfl
    · exact .inr rfl
  case task => exact hkk
  case room =>
    rw [State.core_setCore, if_pos rfl]
    exact hr

end Sys2Proof.Machine
end

section
/-!
SUPPORT. What leaves a team's stream where it is: errors that are met and counted (R289), and accesses that join its own signature, the
lines that it touched and the watchpoints (R267, R375, R391).
-/

namespace Sys2Proof.Machine

section Streams
variable {s : State} {tid ord : Nat}

/-! ## Chunks of other teams -/

/-- The end of another party's chunk leaves a team. -/
theorem State.team?_cutChunk_of_ne {p : Party} {cause : Nat} (hp : Party.team tid ord ≠ p) :
    (s.cutChunk p cause).team? (.team tid ord) = s.team? (.team tid ord) := by
  unfold State.cutChunk
  split
  · rfl
  · split
    case isTrue hr =>
      have hr : s.replaying (s.ctxOf p) = false := by simpa using (Bool.and_eq_true_iff.mp hr).2
      split
      case h_1 hg => rw [State.team?_setTeam_of_ne hp, State.team?_of_tasks (endChunk_tasks_of_recording hr hg)]
      case h_2 => rfl
    case isFalse => rfl

/-- A test that no signature of a team meets cuts no chunk of it. -/
theorem State.team?_hit {test : Sig → Bool} (ht : ∀ x, test x = true → ¬ (x.task = tid ∧ x.ord = ord)) :
    (s.hit test).team? (.team tid ord) = s.team? (.team tid ord) := by
  have key (xs : List Sig) (hx : ∀ x ∈ xs, ¬ (x.task = tid ∧ x.ord = ord)) (s : State) :
      (xs.foldl (fun s x => s.cutChunk (.team x.task x.ord) 2) s).team? (.team tid ord) = s.team? (.team tid ord) := by
    induction xs generalizing s with
    | nil => rfl
    | cons x xs ih =>
      have hne : Party.team tid ord ≠ .team x.task x.ord := fun e => by
        cases e
        exact hx x List.mem_cons_self ⟨rfl, rfl⟩
      rw [List.foldl_cons, ih (fun y hy => hx y (List.mem_cons_of_mem _ hy)), State.team?_cutChunk_of_ne hne]
  exact key _ (fun x hx => ht x (List.mem_filter.mp hx).2) s

/-- A team that signs an access keeps its stream. -/
theorem State.team?_sign {l : Loc} {n : Nat} {write : Bool} :
    (s.sign tid ord l n write).team? (.team tid ord) = s.team? (.team tid ord) := by
  unfold State.sign
  split
  · rfl
  · cases l with
    | glob pa =>
      refine State.team?_hit fun x hx => ?_
      simp only [Bool.and_eq_true, Bool.not_eq_true', Bool.and_eq_false_iff, decide_eq_false_iff_not] at hx
      tauto
    | spd o off =>
      refine State.team?_hit fun x hx => ?_
      simp only [Bool.and_eq_true, Bool.not_eq_true', Bool.and_eq_false_iff, decide_eq_false_iff_not] at hx
      tauto

/-! ## Lines and watchpoints -/

@[simp] theorem State.request_tasks (s : State) (agent line : Nat) (own : Bool) : (s.request agent line own).tasks = s.tasks := by
  unfold State.request
  split
  · split <;> rfl
  · rfl

theorem State.team?_touch {task core pa n : Nat} {write : Bool} :
    (s.touch task core pa n write).team? (.team tid ord) = s.team? (.team tid ord) := by
  unfold State.touch
  dsimp only
  refine (State.team?_modTask ?teams ?leads).trans (State.team?_of_tasks (State.tasks_foldl (fun _ _ => State.request_tasks _ _ _ _) _ _))
  case teams => exact fun _ _ _ => rfl
  case leads => exact fun _ _ _ => rfl

@[simp] theorem State.sendStop_tasks (s : State) (cluster c wp : Nat) (a : Accessor) (addr : Word64) (lane later : Nat) :
    (s.sendStop cluster c wp a addr lane later).tasks = s.tasks := by
  unfold State.sendStop
  dsimp only
  split <;> rfl

@[simp] theorem State.watchSpan_tasks (s : State) (a : Accessor) (k : Task) (loc : Loc) (reads writes : Bool) (formed : Word64)
    (lo len lane : Nat) : (s.watchSpan a k loc reads writes formed lo len lane).tasks = s.tasks := by
  unfold State.watchSpan
  dsimp only
  repeat' split
  all_goals simp only [State.sendStop_tasks]

/-- An access by a team, or by its lead slice, leaves the team's stream. -/
theorem State.team?_watch {a : Accessor} {loc : Loc} {reads writes : Bool} {formed : Word64} {len lane : Nat} (ht : a.task = some tid)
    (ho : a.ord = ord) : (s.watch a loc reads writes formed len lane).team? (.team tid ord) = s.team? (.team tid ord) := by
  subst ho
  unfold State.watch State.watchAt
  split
  · obtain rfl := Option.some.inj (ht.symm.trans ‹a.task = some _›)
    rw [State.team?_of_tasks (State.watchSpan_tasks _ _ _ _ _ _ _ _ _ _)]
    cases loc with
    | glob pa =>
      dsimp only
      rw [State.team?_touch]
      split
      · rfl
      · exact State.team?_sign
    | spd o off =>
      dsimp only
      split
      · rfl
      · exact State.team?_sign
  · cases loc <;> rfl

section Own
variable {pc : Word64} {e reads writes : Bool}

theorem State.team?_watch_team {loc : Loc} {formed : Word64} {len lane : Nat} :
    (s.watch (accessor (.team tid ord) pc e) loc reads writes formed len lane).team? (.team tid ord) = s.team? (.team tid ord) :=
  State.team?_watch rfl rfl

theorem State.team?_foldl_watch {parts : List Access} {len : Access → Nat} :
    (parts.foldl (fun s a => s.watch (accessor (.team tid ord) pc e) a.loc reads writes a.va (len a) a.lane) s).team? (.team tid ord) =
      s.team? (.team tid ord) := by
  induction parts generalizing s with
  | nil => rfl
  | cons a as ih => rw [List.foldl_cons, ih, State.team?_watch_team]

end Own

/-! ## Errors met -/

@[simp] theorem State.countError_tasks (s : State) (kind i : Nat) (fatal : Bool) : (s.countError kind i fatal).tasks = s.tasks := rfl

@[simp] theorem State.countFlaw_tasks (s : State) (f : Flaw) : (s.countFlaw f).tasks = s.tasks := by
  unfold State.countFlaw
  dsimp only
  repeat' split
  all_goals simp only [State.countError_tasks]

@[simp] theorem State.meetFlaws_tasks (s : State) (hit : Site → Bool) : (s.meetFlaws hit).1.tasks = s.tasks := by
  unfold State.meetFlaws
  dsimp only
  split
  · rfl
  · exact State.tasks_foldl State.countFlaw_tasks _ _

theorem State.tasks_of_meetFlaws {s1 : State} {hit : Site → Bool} {x : Option Site} (h : s.meetFlaws hit = (s1, x)) :
    s1.tasks = s.tasks := by
  rw [← State.meetFlaws_tasks s hit, h]

/-- A team that is not held goes on as it resumes. -/
theorem State.resume_of_free {p : Party} {t : Team} {f : Team → Team} (ht : s.team? p = some t) (hh : t.hold = .none) :
    s.resume p f = s.setTeam p (f t) := by
  simp only [State.resume, ht, hh, if_true]

end Streams

end Sys2Proof.Machine
end

section
/-!
SUPPORT. A lead queue with two loads of one number (R161): the arrival fills both with the word of the first.
-/

namespace Sys2Proof.Machine

/-- A load of the word at `pa` in a lead queue, numbered 1, which has yet to arrive. -/
def waitingLoad (pa : Nat) : LeadEntry := .ld 1 ⟨0, BitVec.ofNat 64 pa, .glob pa, 0#64, 0#64⟩ none 0#64

/-- A team whose lead queue holds two loads of the same number and of different words. -/
def twinTeam : Team := { Team.single .kernel 0#64 mdReset with leadQ := [waitingLoad 0x500, waitingLoad 0x504] }

/-- That team on a placed task; of the two words only the second is not 0. -/
def twinLoads : State :=
  let s := State.reset.withFetchWord 32 0xF0040000
  { s with mem := writeNat s.mem 0x504 4 7 }.setTeam (.team 0 0) twinTeam

/-- The word that the second entry of the team's lead queue holds. -/
def secondWord : Out → Option Word
  | .next s => ((s.team? (.team 0 0)).bind (·.leadQ[1]?)).bind (·.ready.map (·.1))
  | _ => none

theorem twinLoads_team? : twinLoads.team? (.team 0 0) = some twinTeam := by rfl

theorem secondWord_model : secondWord (exec (.leadFetchComplete 0 0 1 4) twinLoads) = some 0#32 := by decide +kernel

theorem secondWord_setTeam {s : State} {t x : Team} (h : s.team? (.team 0 0) = some t) :
    secondWord (.next (s.setTeam (.team 0 0) x)) = x.leadQ[1]?.bind (·.ready.map (·.1)) := by
  simp only [secondWord, State.team?_setTeam _ _ _ _ h, Option.bind_some]

/-- Refutes O19: in the last clause for loads the pattern names its own access, so that each waiting load of the number gets the word at
its own address. The model gives them all the word that arrived: with two loads of number 1 the second gets 0, not the 7 at its address. -/
theorem not_leadQueuesPassWordsInOrder : ¬ Obligations.LeadQueuesPassWordsInOrder := by
  intro h
  unfold Obligations.LeadQueuesPassWordsInOrder at h
  obtain ⟨k, hk⟩ : ∃ k, twinLoads.task? 0 = some k := ⟨_, rfl⟩
  have arrives := (h.2 twinLoads twinLoads 0 0 1 4 k twinTeam _ 0#64 0#64 0#64 [waitingLoad 0x504] 0 0 0 0 0 (.mem 0 none) [] hk
    twinLoads_team? rfl (by decide +kernel) (by decide +kernel)).1 rfl (by decide +kernel)
  have claimed := congrArg secondWord (arrives.2 rfl)
  rw [secondWord_model, secondWord_setTeam ((State.team?_watch rfl rfl).trans twinLoads_team?)] at claimed
  exact absurd claimed (by decide +kernel)

end Sys2Proof.Machine
end

section
/-!
SUPPORT. Queues served in order (R163, R201, R288, R292): who is next for a record, and what a tile's or an array's head is given.
-/

namespace Sys2Proof.Machine

theorem exec_obRecordGrant {s : State} {core : Nat} : exec (.obRecordGrant core) s = execObRecordGrant core s := by rfl
theorem exec_tileGrant {s : State} {core tile : Nat} : exec (.tileGrant core tile) s = execTileGrant core tile s := by rfl
theorem exec_matrixArrayTake {s : State} {core quad : Nat} : exec (.matrixArrayTake core quad) s = execMatrixArrayTake core quad s := by rfl

section Next
variable {c : Core} {w : ObWait} {ws : List ObWait} {ahead : List Nat} {base : Nat}

/-- A cohort without a run holds back those behind it. -/
theorem Core.obNext_of_full (hf : c.freeRun w.len = none) : c.obNext (w :: ws) ahead = none := by
  simp only [Core.obNext, hf]

theorem Core.obNext_of_free (hf : c.freeRun w.len = some base) (ha : w.n ∉ ahead) (hh : (c.obRec w.n).held = none) :
    c.obNext (w :: ws) ahead = some (w, base) := by
  simp [Core.obNext, hf, ha, hh]

/-- A cohort that waits for a held record leaves the others their turn. -/
theorem Core.obNext_of_held (hf : c.freeRun w.len ≠ none) (hh : (c.obRec w.n).held ≠ none) :
    c.obNext (w :: ws) ahead = c.obNext ws (w.n :: ahead) := by
  obtain ⟨base, hf⟩ := Option.ne_none_iff_exists'.mp hf
  simp [Core.obNext, hf, Option.isSome_iff_ne_none.mpr hh]

end Next

/-- The word that its array has taken. -/
theorem Team.modPend_taken {t : Team} {id : Nat} :
    t.modPend id (fun k => match k with
      | .matrix w tile rows _ seq => .matrix w tile rows true seq
      | k => k) =
      { t with pend := t.pend.map (fun x => match x.kind with
        | .matrix w tile rows _ seq => if x.id = id then { x with kind := .matrix w tile rows true seq } else x
        | _ => x) } := by
  refine congrArg (fun q => ({ t with pend := q } : Team)) (List.map_congr_left fun x _ => ?_)
  obtain ⟨n, cls, done, pc, md, point, kind⟩ := x
  cases kind <;> simp

/-- Settles O32: who is next for a record, then the heads of a tile's and of an array's queue. -/
theorem recordsTilesAndArraysServeInOrder : Obligations.RecordsTilesAndArraysServeInOrder := by
  unfold Obligations.RecordsTilesAndArraysServeInOrder
  intro s core tile quad tid ord base w w2 ws t rest e es
  dsimp only
  refine ⟨fun hq hh hf => ?head, fun hq hh hf hne hh2 hf2 => ?second, fun hq hf => ?full, fun hq hh hb => ?tile, fun hq ht => ?array⟩
  case head =>
    rw [exec_obRecordGrant, execObRecordGrant, hq, Core.obNext_of_free hf List.not_mem_nil hh]
    simp only [List.erase_cons_head, Core.holdRec]
  case second =>
    have hw : w ≠ w2 := fun e => hne (congrArg ObWait.n e).symm
    rw [exec_obRecordGrant, execObRecordGrant, hq, Core.obNext_of_held hf hh, Core.obNext_of_free hf2 (by simpa using hne) hh2]
    simp [Core.holdRec, List.erase_cons_tail, hw]
  case full => rw [exec_obRecordGrant, execObRecordGrant, hq, Core.obNext_of_full hf]
  case tile => simp [exec_tileGrant, execTileGrant, hq, hh, hb]
  case array =>
    have ht' {c : Core} : (s.setCore core c).team? (.team e.task e.ord) = some t := ht
    simp only [exec_matrixArrayTake, execMatrixArrayTake, hq, ht']
    exact congrArg (fun u => Host.Outcome.next (State.setTeam _ _ u)) Team.modPend_taken

end Sys2Proof.Machine
end

section
/-!
SUPPORT. Messages that arrive (R157, R425 to R427): what an arrival in a context that is neither recorded nor replayed does, by its place
in its flow.
-/

namespace Sys2Proof.Machine

section Arms
variable {s : State} {mbox dev ctx epoch seq e port : Nat} {body : List Byte} {v : Word}

theorem exec_messageArrival : exec (.messageArrival mbox dev ctx epoch seq body) s = execMessageArrival mbox dev ctx epoch seq body s := by rfl
theorem exec_mailboxBind : exec (.mailboxBind mbox v) s = execMailboxBind mbox v s := by rfl
theorem exec_routeEntryWrite : exec (.routeEntryWrite ctx e v) s = execRouteEntryWrite ctx e v s := by rfl
theorem exec_meridianLinkLoss : exec (.meridianLinkLoss port) s = execMeridianLinkLoss port s := by rfl

end Arms

section Arrival
variable {s : State} {m : Message} {c : Nat}

theorem State.arrive_early (h : m.seq < s.flowNext m) : s.arrive m = (s, true) := by
  simp only [State.arrive, if_pos h]

theorem State.arrive_late (h : s.flowNext m < m.seq) (hs : ∀ x ∈ s.arrivals, x.same m = false) :
    s.arrive m = ({ s with arrivals := s.arrivals ++ [m] }, true) := by
  have hany : s.arrivals.any (·.same m) = false := List.any_eq_false.mpr fun x hx => by simp [hs x hx]
  simp only [State.arrive, if_neg (Nat.lt_asymm h), if_pos h, hany, Bool.false_eq_true, if_false]

/-- The next message of a flow, with nothing held, into a mailbox with room. -/
theorem State.arrive_next (h : m.seq = s.flowNext m) (hs : s.arrivals = []) (hb : s.boxOpen m.mbox = true) :
    s.arrive m = (s.deliver m, true) := by
  have hsame : ({ s with arrivals := [] } : State) = s := by rw [← hs]
  simp only [State.arrive, h, Nat.lt_irrefl, if_false, hb, if_true, hs, List.filter_nil, List.length_nil, deliverHeld, hsame]

/-- Outside a recording a delivery only fills the mailbox and moves the flow on. -/
theorem State.deliver_of_bound (hc : s.boundTo m.mbox = some c) (hr : s.recording c = false) :
    s.deliver m =
      State.countFlow { s with mailboxes := AMap.set s.mailboxes m.mbox (AMap.get [] s.mailboxes m.mbox ++ [m]) } m := by
  have hc' {f : List (Nat × Nat × Nat × Nat × Nat)} {b : AMap (List Message)} :
      ({ s with flows := f, mailboxes := b } : State).boundTo m.mbox = some c := hc
  have hr' {f : List (Nat × Nat × Nat × Nat × Nat)} {b : AMap (List Message)} :
      ({ s with flows := f, mailboxes := b } : State).recording c = false := hr
  simp only [State.deliver, State.countFlow, hc', State.note, hr', Bool.false_eq_true, if_false]

@[simp] theorem State.flowNext_countFlow : (s.countFlow m).flowNext m = m.seq + 1 := by
  simp [State.flowNext, State.countFlow]

end Arrival

/-- Settles O48: a message by its place in its flow, then the bindings, the routes and the loss of a link. -/
theorem messagesArriveInOrder : Obligations.MessagesArriveInOrder := by
  unfold Obligations.MessagesArriveInOrder
  intro s mbox dev srcCtx epoch seq c e port body v
  dsimp only
  refine ⟨fun hown hdev hepoch hbody hc hp hr => ?arrival, fun hm hv hbox harr => ?bind, fun he hv hvalid => ?route, fun hport => ?loss⟩
  case arrival =>
    have hpad : (body ++ List.replicate 64 0#8).take 64 = body := by rw [List.take_append_of_le_length hbody.ge, ← hbody, List.take_length]
    simp only [exec_messageArrival, execMessageArrival, hc, hp, hpad, Nat.mod_eq_of_lt hepoch, if_neg hown, if_neg hdev,
      Bool.false_eq_true, if_false]
    refine ⟨fun h => ?_, fun h hs => ?_, fun h harr hroom => ⟨_, rfl, ?_⟩⟩
    · rw [State.arrive_early h]
    · rw [State.arrive_late h hs]
    · have hb : s.boxOpen mbox = true := by simp [State.boxOpen, hc, hroom]
      rw [State.arrive_next h harr hb, State.deliver_of_bound hc hr]
      exact ⟨by simp [State.countFlow, AMap.get, AMap.find_set], State.flowNext_countFlow, rfl⟩
  case bind =>
    have hv' : v.toNat / 2 ^ 7 = 0 := Nat.div_eq_of_lt hv
    have harr' : (s.setReg (rMBXBIND mbox) (v.setWidth 64)).arrivals = [] := harr
    simp only [exec_mailboxBind, execMailboxBind, if_neg (Nat.not_le.mpr hm), hv', hbox, harr', deliverHeld, List.length_nil,
      List.isEmpty_nil, ne_eq, not_true_eq_false, decide_false, Bool.not_true, Bool.or_self, Bool.false_eq_true, if_false]
  case route =>
    have hv' : v.toNat / 2 ^ 17 = 0 := Nat.div_eq_of_lt hv
    simp only [exec_routeEntryWrite, execRouteEntryWrite, if_neg (Nat.not_le.mpr he), hv', nbit, hvalid, nbits, pow_zero, Nat.div_one,
      ne_eq, not_true_eq_false, decide_true, if_true, if_false]
  case loss => simp only [exec_meridianLinkLoss, execMeridianLinkLoss, if_pos hport]

end Sys2Proof.Machine
end

section
/-!
SUPPORT. The completion of a matrix word (R289, R294): the errors that it meets, the rows that it stores and the registers that it writes
leave its team's stream where it is.
-/

namespace Sys2Proof.Machine

theorem exec_matrixWordComplete {s : State} {p : Party} {id : Nat} :
    exec (.matrixWordComplete p id) s = execMatrixWordComplete p id s := by rfl

section Errors
variable {s s' : State} {p : Party}

theorem rowFlaws_tasks {parts : List Access} : (rowFlaws s p parts).1.tasks = s.tasks := by
  have key (r : State × Option Access) : (parts.foldl (fun r a =>
      let q := r.1.meetFlaws (r.1.readsSite (partyTask p) a.loc a.data2.toNat)
      (q.1, if r.2.isSome then r.2 else if q.2.isSome then some a else none)) r).1.tasks = r.1.tasks := by
    induction parts generalizing r with
    | nil => rfl
    | cons a as ih => rw [List.foldl_cons, ih, State.meetFlaws_tasks]
  exact key (s, none)

theorem tasks_of_matrixFlaws {core tile : Nat} {w : MatrixWord} {md : Word} {rows : List Nat} {tr : Option TrapInfo}
    (h : matrixFlaws s p core w md tile rows = (s', tr)) : s'.tasks = s.tasks := by
  have h1 := congrArg (·.1.tasks) h
  simp only [matrixFlaws] at h1
  rw [← h1]
  cases w <;> simp [rowFlaws_tasks]

end Errors

section Stores
variable {s s' : State} {tid ord n : Nat}

theorem State.team?_setTask {k x : Task} (hk : s.task? n = some k) (hx : x.teams = k.teams) :
    (s.setTask n x).team? (.team tid ord) = s.team? (.team tid ord) := by
  simp only [State.team?, State.task?_setTask]
  split
  case isTrue h => rw [← h] at hk; simp only [hk, hx, Option.bind_some]
  case isFalse => rfl

@[simp] theorem State.besideWrite_tasks {pa len : Nat} : (s.besideWrite n pa len).tasks = s.tasks := by
  unfold State.besideWrite
  split <;> rfl

theorem State.team?_writeScratch {off : Nat} {data : List Byte} :
    (s.writeScratch n off data).team? (.team tid ord) = s.team? (.team tid ord) := by
  unfold State.writeScratch
  refine (State.team?_of_tasks rfl).trans ?_
  split
  case h_1 k hk =>
    split
    · exact State.team?_of_tasks (State.poke_tasks _ _ _)
    · exact State.team?_setTask hk rfl
  case h_2 => rfl

/-- What a cohort stores leaves its teams. -/
theorem State.team?_of_storeLoc {l : Loc} {data : List Byte} (h : s.storeLoc (some n) l data = some s') :
    s'.team? (.team tid ord) = s.team? (.team tid ord) := by
  cases l with
  | spd o off =>
    cases h
    exact State.team?_writeScratch
  | glob pa =>
    simp only [State.storeLoc, State.versionWrite] at h
    split at h
    case h_1 => cases h; rfl
    case h_2 k hk =>
      split at h
      case isTrue =>
        cases h
        refine (State.team?_setTask (k := k) ?_ ?_).trans (State.team?_of_tasks State.besideWrite_tasks)
        · simpa only [State.task?, State.besideWrite_tasks] using hk
        · rfl
      case isFalse => cases h

theorem team?_of_drainParts {core : Core} {pc : Word64} {md : Word} {norm tile : Nat} {a80 : Bool} {parts : List Access}
    (h : drainParts core (.team tid ord) pc md norm tile a80 parts s = some s') : s'.team? (.team tid ord) = s.team? (.team tid ord) := by
  induction parts generalizing s with
  | nil => cases h; rfl
  | cons a as ih =>
    simp only [drainParts] at h
    split at h
    case h_1 => cases h
    case h_2 s2 hs => rw [ih h, State.team?_watch_team, State.team?_of_storeLoc hs]

end Stores

section Registers
variable {s : State} {p : Party} {t : Team}

theorem Team.freeze_foldl {α : Type} {f : Team → α → Team} (hf : ∀ t x, (f t x).freeze = t.freeze) (xs : List α) (t : Team) :
    (xs.foldl f t).freeze = t.freeze := by
  induction xs generalizing t with
  | nil => rfl
  | cons x xs ih => rw [List.foldl_cons, ih, hf]

theorem drainRegs_freeze {core : Core} {md : Word} {norm tile first block : Nat} {rows : List Nat} :
    (drainRegs core md norm tile first block rows t).freeze = t.freeze := by
  unfold drainRegs
  refine Team.freeze_foldl (fun t i => Team.freeze_foldl (fun t r => ?_) _ _) _ _
  rfl

/-- The registers of a team that is neither frozen nor away are not written out. -/
theorem State.saveRegs_of_here {regs : List Nat} (ht : s.team? p = some t) (hf : t.freeze = .no) (ha : s.isAway p = false) :
    s.saveRegs p regs = s := by
  unfold State.saveRegs
  split
  case h_1 u k hu hk =>
    obtain rfl := Option.some.inj (ht.symm.trans hu)
    simp [hf, ha]
  case h_2 => rfl

theorem State.isAway_of_tasks {s' : State} {tid ord : Nat} (h : s'.tasks = s.tasks) :
    s'.isAway (.team tid ord) = s.isAway (.team tid ord) := by
  simp only [State.isAway, State.taskOf, partyTask, Option.bind_some, State.task?, h]

theorem State.isAway_setTeam {tid ord : Nat} :
    (s.setTeam (.team tid ord) t).isAway (.team tid ord) = s.isAway (.team tid ord) := by
  simp only [State.isAway, State.taskOf, partyTask, Option.bind_some, State.setTeam, State.task?_modTask, if_true]
  cases s.task? tid <;> rfl

end Registers

/-! ## A word that may complete -/

/-- Outside a replay a word acts on all its rows at once. -/
theorem wordAct_none {w : MatrixWord} {mask : LaneMask} : wordAct none w mask = { rows := rowList mask, word := w, rest := none } := by
  have hr : (rowList mask).filter (fun i => !w.accesses || (none : Option Nat).isNone || none = some i) = rowList mask :=
    List.filter_eq_self.mpr fun _ _ => by simp
  rw [wordAct, hr]
  cases w <;> rfl

/-- What a word does on its rows, given what it met of errors. -/
def matrixOutcome (p : Party) (id : Nat) (x : Pend) (w : MatrixWord) (tile : Nat) (rows : List Nat) (seq core : Nat) (c : Core) :
    State × Option TrapInfo → Out
  | (s, some tr) => .next (s.raiseTrap p x.pc { tr with point := some x.point })
  | (s, none) => match w with
    | .mdrain norm (.reg first block) =>
      .next ((s.wordDone p id none (drainRegs c x.md norm tile first block rows)).saveRegs p (Pend.writes x))
    | .mdrain norm (.mem a80 parts) => match drainParts c p x.pc x.md norm tile a80 parts s with
      | none => .next (s.raiseTrap p x.pc { trapOf 34 0#64 0 with point := some x.point })
      | some s => .next ((s.modCore core (fun c => c.unlock seq)).wordDone p id none (fun t => t))
    | .mld parts =>
      let s := parts.foldl (fun s a => s.watch (accessor p x.pc false) a.loc true false a.va a.data2.toNat a.lane) s
      .next (((s.setCore core ((matrixEffect s p w x.md tile rows c).countMma w)).cleanse
        (w.clears core x.md tile rows)).wordDone p id none (fun t => t))
    | _ =>
      .next (((s.setCore core ((matrixEffect s p w x.md tile rows c).countMma w)).cleanse
        (w.clears core x.md tile rows)).wordDone p id none (fun t => t))

section Ready
variable {s : State} {p : Party} {id tile seq : Nat} {k : Task} {t : Team} {x : Pend} {w : MatrixWord} {mask : LaneMask}

theorem execMatrixWordComplete_ready (honly : s.only = none) (ht : s.team? p = some t) (hk : s.taskOf p = some k)
    (hx : t.pend? id = some x) (hw : x.kind = .matrix w tile mask true seq) (ha : s.acting p = true)
    (hf : tilesFirst (w.tiles x.md tile) id t.pend = true) (hl : s.linesOut p t x = false)
    (hb : s.obWritesPending k.core k seq ((s.core k.core).obReads w (rowList mask)) = false)
    (ho : w.accesses = true → s.ordered p t (some id) = true)
    (hd : ∀ n d ps, w = .mdrain n (.mem d ps) → ∀ a ∈ ps, s.locHeld (some p) a.loc a.data2.toNat = false)
    (hm : ∀ ps, w = .mld ps → ∀ a ∈ ps, a.loc.busy s a.data2.toNat = false) :
    execMatrixWordComplete p id s = matrixOutcome p id x w tile (rowList mask) seq k.core (s.core k.core)
      (matrixFlaws s p k.core w x.md tile (rowList mask)) := by
  have ho' : (w.accesses && !s.ordered p t (some id)) = false := by
    cases hacc : w.accesses
    · rfl
    · simp [ho hacc]
  simp only [execMatrixWordComplete, ht, hk, hx, hw, honly, wordAct_none, hl, ha, ho', hf, hb, Bool.not_true, Bool.false_or, Bool.or_false]
  cases w with
  | mld ps =>
    have hh : ps.any (fun a => a.loc.busy s a.data2.toNat) = false := List.any_eq_false.mpr fun a h => by simp [hm ps rfl a h]
    simp only [hh, Bool.false_eq_true, if_false]
    rcases matrixFlaws s p k.core (.mld ps) x.md tile (rowList mask) with ⟨s', _ | tr⟩ <;> rfl
  | mdrain n d => cases d with
    | reg first block =>
      rcases matrixFlaws s p k.core (.mdrain n (.reg first block)) x.md tile (rowList mask) with ⟨s', _ | tr⟩ <;> rfl
    | mem a80 ps =>
      have hh : ps.any (fun a => s.locHeld (some p) a.loc a.data2.toNat) = false :=
        List.any_eq_false.mpr fun a h => by simp [hd n a80 ps rfl a h]
      simp only [hh, Bool.false_eq_true, if_false]
      rcases matrixFlaws s p k.core (.mdrain n (.mem a80 ps)) x.md tile (rowList mask) with ⟨s', _ | tr⟩ <;> rfl
  | _ => rcases matrixFlaws s p k.core _ x.md tile (rowList mask) with ⟨s', _ | tr⟩ <;> rfl

end Ready

/-- A word is done in a team that is not held. -/
theorem State.wordDone_of_free {s : State} {p : Party} {t : Team} {id : Nat} {f : Team → Team} (ht : s.team? p = some t)
    (hh : t.hold = .none) : s.wordDone p id none f = s.setTeam p ((f t).complete id) :=
  State.resume_of_free ht hh

/-- Settles O33: a word that may complete comes to its outcome; then by what it meets and by what kind of word it is. -/
theorem matrixWordsCompleteInOrder : Obligations.MatrixWordsCompleteInOrder := by
  unfold Obligations.MatrixWordsCompleteInOrder
  intro s sf s1 tid ord k t id x w tile seq norm first block mask a80 parts tr
  dsimp only
  intro honly hk ht hx hw ha hf haway hl hb hh hfr ho hd hm
  have hready := execMatrixWordComplete_ready honly ht hk hx hw ha hf hl hb ho hd hm
  rw [exec_matrixWordComplete, hready]
  refine ⟨fun hmet => ?trap, fun hmet => ?_⟩
  case trap => rw [hmet]; rfl
  have htasks := tasks_of_matrixFlaws hmet
  have htf : sf.team? (.team tid ord) = some t := (State.team?_of_tasks htasks).trans ht
  rw [hmet]
  refine ⟨fun hacc hdr => ?plain, fun hld => ?load, fun hreg => ?registers, fun hmem hparts => ?stored, fun hmem hparts => ?full⟩
  case plain =>
    have hdone {u : State} (hu : u.team? (.team tid ord) = some t) := State.wordDone_of_free (id := id) (f := fun t => t) hu hh
    cases w with
    | mld ps => cases hacc
    | mdrain n d => exact absurd rfl (hdr n d)
    | _ => exact congrArg Host.Outcome.next (hdone htf)
  case load =>
    subst hld
    exact congrArg Host.Outcome.next (State.wordDone_of_free (State.team?_foldl_watch.trans htf) hh)
  case registers =>
    subst hreg
    simp only [matrixOutcome, State.wordDone_of_free htf hh]
    refine congrArg Host.Outcome.next (State.saveRegs_of_here (State.team?_setTeam _ _ _ _ htf) ?_ ?_)
    · exact drainRegs_freeze.trans hfr
    · exact State.isAway_setTeam.trans ((State.isAway_of_tasks htasks).trans haway)
  case stored =>
    subst hmem
    simp only [matrixOutcome, hparts]
    exact congrArg Host.Outcome.next (State.wordDone_of_free ((team?_of_drainParts hparts).trans htf) hh)
  case full =>
    subst hmem
    simp only [matrixOutcome, hparts]

end Sys2Proof.Machine
end

section
/-!
SUPPORT. The copy and chain engines and the collectives (R149, R150, R153, R154, R168, R245, R246, R299): the operation at the head of a
queue, the head that completes, and the collectives of one group together.
-/

namespace Sys2Proof.Machine

section Arms
variable {s : State} {core eng n id ctx group : Nat} {others : List (List Byte)}

theorem exec_engineOperationRun : exec (.engineOperationRun core eng n) s = execEngineOperationRun core eng n s := by rfl
theorem exec_engineCompletion : exec (.engineCompletion core id) s = execEngineCompletion core id s := by rfl
theorem exec_collectiveCombine : exec (.collectiveCombine ctx group others) s = execCollectiveCombine ctx group others s := by rfl

end Arms

/-! ## A run of elements -/

section Run
variable {s s1 : State} {core eng n : Nat} {o o1 : EngOp} {e : EngStop}

/-- The next element of an operation. -/
def engElement (s : State) (core eng : Nat) (o : EngOp) : State × Except EngStop EngOp :=
  if eng < 2 then copyStep s core o else chainStep s core o

theorem engRun_done (h : o.total eng ≤ o.pos) : engRun core eng n s o = .next (s.setEngOp core eng o) := by
  cases n with
  | zero => rfl
  | succ n => simp only [engRun, if_pos h]

theorem engRun_element (h : o.pos < o.total eng) (he : engElement s core eng o = (s1, .ok o1)) :
    engRun core eng (n + 1) s o = engRun core eng n s1 o1 := by
  rw [engElement] at he
  simp only [engRun, if_neg (Nat.not_le.mpr h), he]

theorem engRun_stopped (h : o.pos < o.total eng) (he : engElement s core eng o = (s1, .error e)) :
    engRun core eng (n + 1) s o = engStopped s1 core o e (fun s o => s.setEngOp core eng o) := by
  rw [engElement] at he
  simp only [engRun, if_neg (Nat.not_le.mpr h), he]

/-- A fault other than a wrong operand buffer record fails the task. -/
theorem engStopped_fail {code : Nat} {va : Word64} {put : State → EngOp → State} (hc : code ≠ 31) :
    engStopped s core o (.fail code va) put = .next ((put s o).engineTrap o (trapOf code va 0)) := by
  unfold engStopped
  split
  case h_4 h => cases h; rfl
  case h_3 h => cases h; exact absurd rfl hc
  all_goals next h => cases h

end Run

/-! ## Completion -/

section Completion
variable {s s1 : State} {core eng id : Nat} {o : EngOp} {rest : List EngOp} {t : Team}

/-- The only element that passes a test is the one that a search finds. -/
theorem find?_eq_some_of_unique {α : Type} {p : α → Bool} {xs : List α} {a : α} (ha : a ∈ xs) (hp : p a = true)
    (hu : ∀ b ∈ xs, p b = true → b = a) : xs.find? p = some a := by
  cases hf : xs.find? p with
  | none => exact absurd hp (by simpa using List.find?_eq_none.mp hf a ha)
  | some b => rw [hu b (List.mem_of_find?_eq_some hf) (List.find?_some hf)]

theorem execEngineCompletion_head (he : eng < 3) (hq : AMap.get [] (s.core core).engines eng = o :: rest) (ho : o.seq = id)
    (hu : ∀ e, e < 3 → ∀ o', (AMap.get [] (s.core core).engines e).head? = some o' → o'.seq = id → e = eng)
    (hp : o.total eng ≤ o.pos) (hf : o.fault = none) (ha : s.acting o.party = true) (hw : s.outFree o = true) :
    execEngineCompletion core id s = .next (s.finishEngine core o (fun k =>
      { k with engines := AMap.put [] k.engines eng ((AMap.get [] k.engines eng).drop 1) })) := by
  have hfind : ((span 0 3).filterMap (fun e => ((AMap.get [] (s.core core).engines e).head?).map (fun o => (e, o)))).find?
      (fun x => x.2.seq = id) = some (eng, o) := by
    refine find?_eq_some_of_unique ?_ (by simpa using ho) ?_
    · exact List.mem_filterMap.mpr ⟨eng, (mem_span 3 0 eng).mpr ⟨Nat.zero_le _, he⟩, by rw [hq]; rfl⟩
    · intro y hy hs
      obtain ⟨e, hin, hy⟩ := List.mem_filterMap.mp hy
      obtain ⟨o', ho', rfl⟩ := Option.map_eq_some_iff.mp hy
      obtain rfl := hu e (by simpa using ((mem_span 3 0 e).mp hin).2) o' ho' (by simpa using hs)
      rw [hq] at ho'
      rw [Option.some.inj ho'.symm]
  simp only [execEngineCompletion, hfind, hp, hf, ha, hw, decide_true, Option.isNone_none, Bool.and_self, if_true]

theorem State.finishEngine_stored {drop : Core → Core} (h : storeRuns o.task core (runsOf (o.lands (Config.freeWord s.tick).toNat)) s = some s1)
    (ht : s1.team? o.party = some t) (hh : t.hold = .none) :
    s.finishEngine core o drop = (s1.modCore core (fun k => drop (k.unlock o.seq))).setTeam o.party (t.complete o.op) := by
  simp only [State.finishEngine, h]
  exact State.resume_of_free ht hh

theorem State.finishEngine_full {drop : Core → Core} (h : storeRuns o.task core (runsOf (o.lands (Config.freeWord s.tick).toNat)) s = none) :
    s.finishEngine core o drop = s.engineTrap o (trapOf 34 0#64 0) := by
  simp only [State.finishEngine, h]

theorem EngOp.lands_alone {n : Nat} (h : o.beside = []) : o.lands n = o.out.reverse := by
  refine List.filter_eq_self.mpr fun e _ => ?_
  rw [h]
  split <;> simp

end Completion

/-- No element of a list differs from the first one exactly when all are equal to it. -/
theorem any_ne_head_eq_false_iff {α : Type} [DecidableEq α] {x : α} {xs : List α} :
    xs.any (fun y => y ≠ x) = false ↔ ∀ y ∈ x :: xs, y = x := by
  simp [List.any_eq_false]

/-- Settles O34: a run by what its next element comes to, a completion by whether its bytes are stored, and the collectives of a group by
whether their shapes agree. -/
theorem enginesProcessAndComplete : Obligations.EnginesProcessAndComplete := by
  unfold Obligations.EnginesProcessAndComplete
  intro s s1 s2 core eng n id ctx group o o1 rest t g others srcs shape
  dsimp only
  refine ⟨fun hq hr => ?run, fun he hq ho hu hp hf ha hw => ?complete, EngOp.lands_alone, fun hg hlen hol hrdy hmem => ?combine⟩
  case run =>
    have hrun (n : Nat) : exec (.engineOperationRun core eng n) s = engRun core eng n s o := by
      simp only [exec_engineOperationRun, execEngineOperationRun, hq, hr, if_true]
    simp only [hrun]
    refine ⟨engRun_done, fun hp => ⟨fun h => engRun_element hp h, fun va w h => engRun_stopped hp h, fun code va hc h => ?_⟩⟩
    rw [engRun_stopped hp h, engStopped_fail hc]
    rfl
  case complete =>
    rw [exec_engineCompletion, execEngineCompletion_head he hq ho hu hp hf ha hw]
    refine ⟨fun h ht hh => ?_, fun h => ?_⟩
    · rw [State.finishEngine_stored h ht hh]
    · rw [State.finishEngine_full h]
  case combine =>
    have hall := (List.all_eq_true (p := fun o : Nat × EngOp => s.engReady o.1 o.2)).mpr hrdy
    obtain ⟨x, xs, hs⟩ := List.exists_cons_of_ne_nil (List.ne_nil_of_mem hmem)
    rw [hs] at hmem ⊢
    refine ⟨fun hagree hsrc hscat hlevel => ?agree, fun hdiffer => ?differ⟩
    case agree =>
      obtain rfl : x = shape := hagree x List.mem_cons_self
      have hsame := any_ne_head_eq_false_iff.mpr hagree
      simp only [exec_collectiveCombine, execCollectiveCombine, hg, hs, hlen, hol, hall, hsame, hsrc, hlevel, ne_eq, not_true_eq_false,
        decide_false, Bool.not_true, Bool.or_self, Bool.false_eq_true, if_false]
      exact hscat
    case differ =>
      have hany : xs.any (fun y => y ≠ x) = true := by
        by_contra hno
        have hx := any_ne_head_eq_false_iff.mp (Bool.eq_false_iff.mpr hno)
        obtain ⟨y, hy, hne⟩ := hdiffer
        exact hne ((hx y hy).trans (hx shape hmem).symm)
      simp only [exec_collectiveCombine, execCollectiveCombine, hg, hs, hlen, hol, hall, hany, ne_eq, not_true_eq_false,
        decide_false, Bool.not_true, Bool.or_self, Bool.false_eq_true, if_false, if_true]

end Sys2Proof.Machine
end

section
/-!
SUPPORT. The system words (R171 to R181): what the dispatch gives each, how a clock is read where nothing is recorded or replayed, and
where a register, a unit's status or a step's status goes.
-/

namespace Sys2Proof.Machine

/-! ## Dispatch -/

section Arms
variable {s : State} {h : Hdr} {a d : BitVec 5} {c e n : BitVec 7} {x : BitVec 8} {m : BitVec 14}

theorem exec_sysReq : exec (.sysReq h x a) s = execSysReq h x a s := by rfl
theorem exec_rdclk : exec (.rdclk h c) s = execRdclk h c s := by rfl
theorem exec_rdtime : exec (.rdtime h c) s = execRdtime h c s := by rfl
theorem exec_pcnt : exec (.pcnt h c n) s = execPcnt h c n s := by rfl
theorem exec_mark : exec (.mark h m) s = execMark h m s := by rfl
theorem exec_csrr : exec (.csrr h d c) s = execCsrr h d c s := by rfl
theorem exec_csrw : exec (.csrw h a c) s = execCsrw h a c s := by rfl
theorem exec_probe : exec (.probe h d a) s = execProbe h d a s := by rfl
theorem exec_dstep : exec (.dstep h d a) s = execDstep h d a s := by rfl
theorem exec_halt : exec (.halt h) s = execHalt h s := by rfl

end Arms

@[simp] theorem Team.opened_kreg (t : Team) (i : Instr) : (t.opened i).kreg = t.kreg := rfl
@[simp] theorem Team.opened_kpair (t : Team) (i : Instr) : (t.opened i).kpair = t.kpair := rfl
@[simp] theorem Team.opened_retired (t : Team) (i : Instr) : (t.opened i).retired = t.retired + 1 := rfl
@[simp] theorem Team.opened_late (t : Team) (i : Instr) : (t.opened i).late = t.late := rfl
@[simp] theorem Team.opened_firstAccess (t : Team) (i : Instr) : (t.opened i).firstAccess = t.firstAccess := rfl
@[simp] theorem State.countIssue_steward (s : State) (d : Nat) : s.countIssue (.steward d) = s := rfl
@[simp] theorem State.ctxOf_prologue (s : State) (c : Nat) : s.ctxOf (.prologue c) = c := rfl

/-! ## Service requests (R171) -/

section Services
variable {s : State} {t : Team} {code ctx : Nat} {value : Word64}

theorem State.replaying_countIssue {p : Party} {c : Nat} : (s.countIssue p).replaying c = s.replaying c := by
  cases p <;> rfl

/-- Outside a replay a prologue's request is posted, and the prologue waits for its entry. -/
theorem sysRes_prologue (hr : s.replaying ctx = false) : sysRes code value s (.prologue ctx) t =
    .ok (s.postSvc (.prologue ctx) code value).1 { t with hold := .post (s.postSvc (.prologue ctx) code value).2 } := by
  simp only [sysRes, State.postHold, State.ctxOf_prologue, hr, Bool.false_eq_true, if_false]

end Services

/-! ## Clocks and counters (R173, R174, R179) -/

section Clocks
variable {s : State} {tid ord source d n : Nat} {k : Task} {t : Team} {i : Instr} {h : Hdr} {v : Word64} {p : Party}
  {eff : State → Party → Team → Res}

/-- Where nothing is recorded or replayed a team reads the live value, which only starts a new chunk. -/
theorem clockRes_quiet (hk : s.task? tid = some k) (hq : s.Quiet k.ctx) :
    clockRes source v d s (.team tid ord) t = .ok s (t.newChunk.writePair d (fun _ => v)) := by
  rw [← State.ctxOf_team (ord := ord) hk] at hq
  simp only [clockRes, State.logged_of_not_replaying hq.replay, chunked_quiet hq, Option.bind_none, Option.getD_none]

/-- A word whose effect is the read of a clock writes the pair in the new chunk. -/
theorem completesAs_of_clockRes (hk : s.task? tid = some k) (hq : s.Quiet k.ctx) (e : exec i s = issue i h s eff)
    (he : eff s (.team tid ord) (t.opened i) = clockRes source v d s (.team tid ord) (t.opened i))
    (hi : Issues s (.team tid ord) t i) :
    ∃ t', WritesPair (t.opened i).newChunk t' d (fun _ => v) ∧ CompletesAs i h s (.team tid ord) t' :=
  ⟨_, Team.writePair_writes _ d _, completesIn_of_ok hi e (he.trans (clockRes_quiet hk hq))⟩

/-- Counters from 3 are the core's (R179). -/
theorem State.counter_core (hn : 3 ≤ n) : s.counter p t n = AMap.get 0 (s.core (s.coreOf p)).counters n := by
  match n with
  | _ + 3 => rfl

/-- A counter but the one of retired words is read as a clock is. -/
theorem pcnt_reads {c m : BitVec 7} (hk : s.task? tid = some k) (hq : s.Quiet k.ctx) (hm : m.toNat ≠ 0)
    (hv : s.counter (.team tid ord) (t.opened (.pcnt h c m)) m.toNat = n) (hi : Issues s (.team tid ord) t (.pcnt h c m)) :
    ∃ t', WritesPair (t.opened (.pcnt h c m)).newChunk t' c.toNat (fun _ => BitVec.ofNat 64 n) ∧
      CompletesAs (.pcnt h c m) h s (.team tid ord) t' := by
  refine completesAs_of_clockRes (source := 1 + m.toNat) hk hq exec_pcnt ?_ hi
  simp only [hm, if_false, hv]

end Clocks

/-! ## Marks (R175, R376) -/

section Marks
variable {s : State} {tid ord : Nat} {k : Task} {t : Team} {h : Hdr} {n : BitVec 14}

/-- Where nothing is recorded or replayed a mark leaves nothing. -/
theorem changes_mark_of_quiet (hk : s.task? tid = some k) (hq : s.Quiet k.ctx) : Changes s (.team tid ord) t h (.mark h n) id := by
  refine changes_of_ok exec_mark ?_
  have hrec : s.recording k.ctx = false := by simp only [State.recording, hq.level, Bool.false_and]
  simp only [State.countIssue_team, State.ctxOf_team hk, hq.replay, hrec, Bool.false_eq_true, if_false, id]

section Recorded
variable (hk : s.task? tid = some k) (hr : s.recording k.ctx = true) (hn : s.replaying k.ctx = false)
  (hi : Issues s (.team tid ord) t (.mark h n))
include hk hr hn hi

/-- Where all earlier is performed and written, a recorded mark leaves its record at once. -/
theorem completesIn_mark_noted (hf : s.logField (.team tid ord) ≠ 0xFFFF) (hl : t.late = []) (ha : t.firstAccess = none) :
    CompletesIn (.mark h n) h s (.team tid ord)
      (s.note (s.surveyorOf (.team tid ord)) k.ctx 7 (s.logField (.team tid ord)) (some (t.retired + 1 - t.chunk.last)) (varint 3 n.toNat))
      { t.opened (.mark h n) with chunk := { t.chunk with last := t.retired + 1 } } := by
  refine completesIn_of_ok hi exec_mark ?_
  simp only [State.countIssue_team, State.ctxOf_team hk, hn, hr, Team.opened_late, Team.opened_firstAccess, hl, ha, State.writeMark, hf,
    List.isEmpty_nil, Option.isNone_none, Bool.and_self, Bool.false_eq_true, if_false, if_true]
  rfl

/-- Otherwise its record is put off. -/
theorem completesIn_mark_putOff (hw : ¬(t.late = [] ∧ t.firstAccess = none)) :
    CompletesIn (.mark h n) h s (.team tid ord) s ((t.opened (.mark h n)).putOff 7 (varint 3 n.toNat) (t.retired + 1)) := by
  refine completesIn_of_ok hi exec_mark ?_
  have hlater : (t.late.isEmpty && t.firstAccess.isNone) = false := by
    rw [Bool.eq_false_iff]
    simpa using hw
  simp only [State.countIssue_team, State.ctxOf_team hk, hn, hr, Team.opened_late, Team.opened_firstAccess, hlater, Team.opened_retired,
    Bool.false_eq_true, if_false, if_true]

end Recorded

end Marks

/-- Settles O24: a request by the party that makes it, a clock by `clockRes` where nothing is recorded, and a mark by what is recorded. -/
theorem servicesMarksAndCounters : Obligations.ServicesMarksAndCounters := by
  unfold Obligations.ServicesMarksAndCounters
  refine ⟨fun s tid ord die ctx p t k h c a d n => ?words, fun s tid ord t k h n hk => ?marks⟩
  case words =>
    dsimp only
    refine ⟨fun hk => changes_of_ok exec_sysReq rfl, fun hi => completesIn_of_ok hi exec_sysReq rfl,
      fun hq hi => completesIn_of_ok hi exec_sysReq (sysRes_prologue (State.replaying_countIssue.trans hq.replay)), ?clocks⟩
    case clocks =>
      rintro hk hq rfl
      refine ⟨completesAs_of_clockRes (source := 0) hk hq exec_rdclk rfl, completesAs_of_clockRes (source := 1) hk hq exec_rdtime rfl,
        fun h0 => computesPair_of_ok exec_pcnt ?retired, fun h1 => pcnt_reads hk hq (by omega) (by rw [h1]; rfl),
        fun h2 => pcnt_reads hk hq (by omega) (by rw [h2]; rfl),
        fun h3 => pcnt_reads hk hq (by omega) (State.counter_core h3)⟩
      case retired =>
        simp only [h0, if_true]
        rfl
  case marks =>
    dsimp only
    exact ⟨changes_mark_of_quiet hk, fun hr hn hf hi =>
      ⟨fun ⟨hl, ha⟩ => completesIn_mark_noted hk hr hn hi hf hl ha, completesIn_mark_putOff hk hr hn hi⟩⟩

end Sys2Proof.Machine
end

section
/-!
SUPPORT. Control and status registers, unit probes, single steps and halts (R176 to R181).
-/

namespace Sys2Proof.Machine

/-! ## Maps and contexts written twice -/

theorem AMap.erase_of_forall_ne {α : Type} {m : AMap α} {k : Nat} (h : ∀ e ∈ m, e.1 ≠ k) : AMap.erase m k = m := by
  induction m with
  | nil => rfl
  | cons e m ih =>
    rw [AMap.erase, if_neg (h e List.mem_cons_self), ih fun f hf => h f (List.mem_cons_of_mem e hf)]

theorem AMap.erase_place {α : Type} {m : AMap α} {k : Nat} {v : α} (h : ∀ e ∈ m, e.1 ≠ k) : AMap.erase (AMap.place m k v) k = m := by
  induction m with
  | nil => simp only [AMap.place, AMap.erase, if_true]
  | cons e m ih =>
    rw [AMap.place]
    split
    · rw [AMap.erase, if_pos rfl, AMap.erase_of_forall_ne h]
    · rw [AMap.erase, if_neg (h e List.mem_cons_self), ih fun f hf => h f (List.mem_cons_of_mem e hf)]

/-- Of two writes of one key the second stands. -/
theorem AMap.put_put {α : Type} [DecidableEq α] (d : α) (m : AMap α) (k : Nat) (v w : α) :
    AMap.put d (AMap.put d m k v) k w = AMap.put d m k w := by
  have hm : ∀ e ∈ AMap.erase m k, e.1 ≠ k := fun e he => (AMap.mem_erase m k e he).2
  have he : AMap.erase (AMap.put d m k v) k = AMap.erase m k := by
    rw [AMap.put]
    split
    · exact AMap.erase_of_forall_ne hm
    · exact AMap.erase_place hm
  simp only [AMap.put, AMap.set] at he ⊢
  rw [he]

section Contexts
variable {s : State} {c d : Nat} {f g : Ctx → Ctx}

theorem State.ctx_modCtx : (s.modCtx c f).ctx d = if d = c then f (s.ctx c) else s.ctx d := State.ctx_setCtx _ _ _ _

@[simp] theorem State.ctx_modCtx_self : (s.modCtx c f).ctx c = f (s.ctx c) := by rw [State.ctx_modCtx, if_pos rfl]

theorem State.modCtx_modCtx : (s.modCtx c f).modCtx c g = s.modCtx c (fun k => g (f k)) := by
  rw [State.modCtx, State.ctx_modCtx_self]
  simp only [State.modCtx, State.setCtx, AMap.put_put]

/-- A change of a context is what it makes of that context. -/
theorem State.modCtx_congr (h : f (s.ctx c) = g (s.ctx c)) : s.modCtx c f = s.modCtx c g := congrArg (s.setCtx c) h

end Contexts

/-! ## Registers and units (R176 to R178) -/

section Registers
variable {s : State} {p : Party} {t : Team} {i : Instr} {h : Hdr} {eff : State → Party → Team → Res} {d : Nat} {w : Word}

theorem Team.setK_eq_write : t.setK d w = t.write (96 + d) (fun _ => w) := by
  rw [Team.write, if_pos (Nat.le_add_right 96 d), Nat.add_sub_cancel_left]

/-- A word that stores a uniform register computes it. -/
theorem computes_of_setK (e : exec i s = issue i h s eff)
    (he : eff (s.countIssue p) p (t.opened i) = .ok (s.countIssue p) ((t.opened i).setK d w)) :
    Computes s p t h i (96 + d) (fun _ => w) :=
  computes_of_ok e (he.trans (congrArg _ Team.setK_eq_write))

theorem mul_b2n (n : Nat) (b : Bool) : n * b2n b = if b then n else 0 := by
  rw [b2n, mul_ite, Nat.mul_one, Nat.mul_zero]

theorem State.probeUnit_countIssue : (s.countIssue p).probeUnit w = s.probeUnit w := by
  cases p <;> rfl

theorem State.probeUnit_eq : s.probeUnit w =
    if w.toNat < 2 ^ 16 ∧ w.toNat / 2 ^ 8 % 2 ^ 8 < unitCount (w.toNat % 2 ^ 8) then
      let u := s.unit (w.toNat % 2 ^ 8) (w.toNat / 2 ^ 8 % 2 ^ 8)
      BitVec.ofNat 32 ((if u.present then 1 else 0) + (if u.enabled then 2 else 0) + (if u.error then 4 else 0) +
        2 ^ 8 * min 255 u.corrected + 2 ^ 16 * min 255 u.uncorrected)
    else 0#32 := by
  have hin : (decide (w.toNat / 2 ^ 16 ≠ 0) || decide (unitCount (w.toNat % 2 ^ 8) ≤ w.toNat / 2 ^ 8 % 2 ^ 8)) =
      !decide (w.toNat < 2 ^ 16 ∧ w.toNat / 2 ^ 8 % 2 ^ 8 < unitCount (w.toNat % 2 ^ 8)) := by
    rw [← decide_not, ← Bool.decide_or, decide_eq_decide, Nat.div_ne_zero_iff]
    omega
  simp only [State.probeUnit, nbits, Nat.pow_zero, Nat.div_one, hin, Bool.not_eq_true', decide_eq_false_iff_not, ite_not, mul_b2n]
  rfl

end Registers

/-! ## Steps (R180) -/

section Steps
variable {s s' : State} {p : Party} {t u : Team} {h : Hdr} {d a : BitVec 5} {tid o n w : Nat} {k : Task}

theorem State.beginStep_of_no_target (ht : s.stepTarget w = none) : s.beginStep w = (s, some 3, 0, 0) := by
  simp only [State.beginStep, ht]

theorem State.beginStep_of_moving (ht : s.stepTarget w = some (tid, o, k, u)) (hf : u.freeze ≠ .frozen) :
    s.beginStep w = (s, some 2, tid, o) := by
  simp only [State.beginStep, ht, if_pos hf]

/-- A step that ends at once leaves its status. -/
theorem completesIn_dstep_ended (hb : (s.countIssue p).beginStep (t.kreg a.toNat).toNat = (s', some n, tid, o))
    (hi : Issues s p t (.dstep h d a)) :
    CompletesIn (.dstep h d a) h s p s' ((t.opened (.dstep h d a)).setK d.toNat (BitVec.ofNat 32 n)) := by
  refine completesIn_of_ok hi exec_dstep ?_
  simp only [Team.opened_kreg, hb]

/-- One that goes on holds the stream. -/
theorem completesIn_dstep_held (hb : (s.countIssue p).beginStep (t.kreg a.toNat).toNat = (s', none, tid, o))
    (hi : Issues s p t (.dstep h d a)) :
    CompletesIn (.dstep h d a) h s p s' { t.opened (.dstep h d a) with hold := .step tid o d.toNat s'.time } := by
  refine completesIn_of_ok hi exec_dstep ?_
  simp only [Team.opened_kreg, hb]

/-- A step of steward code that changes nothing computes its status. -/
theorem computes_dstep {die : Nat} (hb : s.beginStep (t.kreg a.toNat).toNat = (s, some n, tid, o)) :
    Computes s (.steward die) t h (.dstep h d a) (96 + d.toNat) (fun _ => BitVec.ofNat 32 n) := by
  refine computes_of_setK exec_dstep ?_
  simp only [State.countIssue_steward, Team.opened_kreg, hb]

end Steps

/-! ## Halts (R181) -/

/-- A prologue that halts is counted and marked in one change of its context. -/
theorem State.haltPrologue {s : State} {c : Nat} {q : Prologue} (hq : (s.ctx c).prologue = some q) :
    (s.countIssue (.prologue c)).modCtx c
      (fun k => { k with prologue := k.prologue.map (fun q => { q with haltSince := some s.time, woken := false }) }) =
    s.modCtx c (fun k => { k with prologue := some { q with issued := q.issued + 1, haltSince := some s.time, woken := false } }) := by
  rw [State.countIssue, State.modCtx_modCtx]
  refine State.modCtx_congr ?_
  simp only [hq, Option.map_some]

/-- Settles O25: a read stores a register, a step goes by what `beginStep` says, and a halt is one change of its context. -/
theorem systemWordsReachTheirUnits : Obligations.SystemWordsReachTheirUnits := by
  unfold Obligations.SystemWordsReachTheirUnits
  intro s die ctx p t h d a c q
  dsimp only
  refine ⟨computes_of_setK exec_csrr rfl, fun hc hi => completesIn_of_ok hi exec_csrw ?accepted,
    fun hc => trapsWith_of_trap exec_csrw ?refused, State.probeUnit_countIssue, ?probe,
    fun ht => computes_dstep (State.beginStep_of_no_target ht), fun tid o k u ht hf => computes_dstep (State.beginStep_of_moving ht hf),
    fun s' n tid o => completesIn_dstep_ended, fun s' tid o => completesIn_dstep_held, changes_of_ok exec_halt rfl,
    fun hq hi => completesIn_of_ok hi exec_halt (congrArg (Res.ok · _) (State.haltPrologue hq))⟩
  case accepted => simp only [Team.opened_kreg, hc, if_true]
  case refused =>
    simp only [Team.opened_kreg, hc, Bool.false_eq_true, if_false]
    rfl
  case probe =>
    rw [← State.probeUnit_eq]
    exact computes_of_setK exec_probe (by rw [State.probeUnit_countIssue]; rfl)

end Sys2Proof.Machine
end

section
/-!
SUPPORT. The ends of chunks at their limits (R375), and steps that last too long (R180, R397).
-/

namespace Sys2Proof.Machine

section Arms
variable {s : State} {task ord : Nat} {p : Party}

theorem exec_chunkSignatureHit : exec (.chunkSignatureHit task ord) s = execChunkSignatureHit task ord s := by rfl
theorem exec_chunkCountExpiry : exec (.chunkCountExpiry task ord) s = execChunkCountExpiry task ord s := by rfl
theorem exec_dstepTimeout : exec (.dstepTimeout p) s = execDstepTimeout p s := by rfl

end Arms

/-! ## Chunks (R375) -/

section Chunks
variable {s : State} {p : Party} {t : Team} {kind point cause tid ord : Nat} {payload : List Byte} {stamp : Option Nat}

theorem State.writeLate_of_nil (hl : t.late = []) : s.writeLate p t point = (s, t) := by
  simp only [State.writeLate, hl, List.filter_nil, List.foldl_nil]
  rw [← hl]

/-- Under recording, with nothing put off and no earlier access waiting, an event writes the record that ends the chunk. -/
theorem endChunk_recorded (hr : s.recording (s.ctxOf p) = true) (hl : t.late = []) (he : t.early kind payload point = false) :
    endChunk s p t kind payload point stamp =
      .go (s.writeEnd p t kind payload point stamp).1 (s.writeEnd p t kind payload point stamp).2 := by
  obtain ⟨hlevel, hreplay⟩ : (s.ctx (s.ctxOf p)).level.recording = true ∧ s.replaying (s.ctxOf p) = false := by
    simpa [State.recording] using hr
  simp only [endChunk, he, hreplay, hlevel, State.writeLate_of_nil hl, Bool.and_false, Bool.false_eq_true, if_false, if_true]

theorem State.cutChunk_of_not_recording (hr : s.recording (s.ctxOf p) = false) : s.cutChunk p cause = s := by
  simp only [State.cutChunk, hr, Bool.false_eq_true, if_false]
  split <;> rfl

/-- A chunk is cut under recording at the stream's boundary, with the record of its cause under a new stamp. -/
theorem State.cutChunk_recorded (ht : s.team? p = some t) (hr : s.recording (s.ctxOf p) = true) (hf : s.logField p ≠ 0xFFFF)
    (hl : t.late = []) (he : t.early 0 [BitVec.ofNat 8 cause] t.boundary = false) :
    s.cutChunk p cause = ((s.dropSig p).drawStamp.1.logRecord (s.surveyorOf p) (s.ctxOf p) 0 (s.logField p) (s.dropSig p).drawStamp.2
      (some (t.boundary - t.chunk.last)) [BitVec.ofNat 8 cause]).setTeam p
        { t with chunk := { last := t.boundary, begun := t.boundary } } := by
  simp only [State.cutChunk, ht, hr, endChunk_recorded hr hl he, State.writeEnd, hf, if_true, if_false]

theorem exec_chunkSignatureHit_live (ht : s.team? (.team tid ord) = some t) (hl : t.released = false) :
    exec (.chunkSignatureHit tid ord) s = .next (s.cutChunk (.team tid ord) 2) := by
  simp only [exec_chunkSignatureHit, execChunkSignatureHit, ht, hl, Bool.false_eq_true, if_false]

theorem exec_chunkCountExpiry_full (ht : s.team? (.team tid ord) = some t) (hn : 65536 ≤ t.retired - t.chunk.begun) :
    exec (.chunkCountExpiry tid ord) s = .next (s.cutChunk (.team tid ord) 3) := by
  simp only [exec_chunkCountExpiry, execChunkCountExpiry, ht, if_pos hn]

/-- Without recording neither event leaves anything. -/
theorem exec_chunkEnds_of_not_recording (hr : s.recording (s.ctxOf (.team tid ord)) = false) :
    exec (.chunkSignatureHit tid ord) s = .next s ∧ exec (.chunkCountExpiry tid ord) s = .next s := by
  simp only [exec_chunkSignatureHit, exec_chunkCountExpiry, execChunkSignatureHit, execChunkCountExpiry, State.cutChunk_of_not_recording hr]
  constructor <;> split <;> simp

end Chunks

/-! ## Steps (R180, R397) -/

section Timeouts
variable {s : State} {w : Party} {tid ord d since : Nat} {t u : Team}

/-- Once it has lasted 10 µs a step ends at the team that it is of, or in the stream alone that waits for it. -/
theorem exec_dstepTimeout_late (hu : s.team? w = some u) (hh : u.hold = .step tid ord d since) (ht : since + 1000 ≤ s.time) :
    exec (.dstepTimeout w) s =
      .next (if (s.team? (.team tid ord)).isSome then s.stepExpires tid ord else s.setTeam w (u.stepEnds tid ord 1)) := by
  simp only [exec_dstepTimeout, execDstepTimeout, hu, hh, if_pos ht]

theorem State.stepExpires_of_team (ht : s.team? (.team tid ord) = some t) : s.stepExpires tid ord =
    if s.canIssue (.team tid ord) t = true ∧ t.hold ≠ .none ∧ t.hold.fresh = false then
      (s.setTeam (.team tid ord) { t with hold := .none }).settle (.team tid ord)
    else s.endStep tid ord (s.standsAt (.team tid ord) t) 1 := by
  simp only [State.stepExpires, ht, Bool.and_eq_true, decide_eq_true_eq, Bool.not_eq_true', and_assoc]

theorem Team.stepEnds_of_step {status : Nat} (hh : u.hold = .step tid ord d since) :
    u.stepEnds tid ord status = { u.setK d (BitVec.ofNat 32 status) with hold := .none } := by
  simp only [Team.stepEnds, hh, decide_true, Bool.and_self, if_true]

end Timeouts

/-- Settles O31: a chunk's end by the cut that both events make, a step's by whether its team is there and may move. -/
theorem chunksEndAndStepsTimeOut : Obligations.ChunksEndAndStepsTimeOut := by
  unfold Obligations.ChunksEndAndStepsTimeOut
  intro s tid ord k t u w d since
  dsimp only
  refine ⟨fun hk ht => ?chunks, fun hu hh htime => ?steps⟩
  case chunks =>
    rw [← State.ctxOf_team (ord := ord) hk]
    refine ⟨fun hr hf hl => ⟨fun hlive he => ?hit, fun hn he => ?full⟩, exec_chunkEnds_of_not_recording⟩
    case hit => rw [exec_chunkSignatureHit_live ht hlive, State.cutChunk_recorded ht hr hf hl he]
    case full => rw [exec_chunkCountExpiry_full ht hn, State.cutChunk_recorded ht hr hf hl he]
  case steps =>
    rw [exec_dstepTimeout_late hu hh htime]
    refine ⟨fun ht => ?there, fun hn => ?gone⟩
    case there =>
      rw [ht, State.stepExpires_of_team ht]
      exact ⟨fun hm => by rw [if_neg hm]; rfl, fun hm => by rw [if_pos hm]; rfl⟩
    case gone =>
      rw [hn, Team.stepEnds_of_step hh]
      rfl

end Sys2Proof.Machine
end

section
/-!
SUPPORT. Prologues (R177, R351): the values that one starts with, the grid that its launch begins with, and its limit.
-/

namespace Sys2Proof.Machine

section Arms
variable {s : State} {ctx seq : Nat}

theorem exec_prologueRun : exec (.prologueRun ctx seq) s = execPrologueRun ctx seq s := by rfl
theorem exec_prologueLimitExpiry : exec (.prologueLimitExpiry ctx) s = execPrologueLimitExpiry ctx s := by rfl

end Arms

/-! ## Pairs and bytes -/

theorem joinPair_halves (x : Word64) : joinPair (lowHalf x) (highHalf x) = x := by
  refine BitVec.eq_of_toNat_eq ?_
  rw [joinPair, toNat_append_eq_add, lowHalf, highHalf, BitVec.toNat_setWidth, BitVec.toNat_setWidth, BitVec.toNat_ushiftRight,
    Nat.shiftRight_eq_div_pow]
  omega

section Pairs
variable {t : Team} {n m : Nat} {w : Word64}

@[simp] theorem Team.kpair_setKPair_self : (t.setKPair n w).kpair n = w := by
  simp [Team.kpair, Team.setKPair, joinPair_halves]

theorem Team.kpair_setKPair_of_lt (h : m + 1 < n) : (t.setKPair n w).kpair m = t.kpair m := by
  have h0 : m ≠ n ∧ m ≠ n + 1 ∧ m + 1 ≠ n ∧ m ≠ n := by omega
  simp [Team.kpair, Team.setKPair, h0]

end Pairs

theorem ofBytes_lt (bs : List Byte) : ofBytes bs < 2 ^ (8 * bs.length) := by
  induction bs with
  | nil => exact Nat.one_pos
  | cons b bs ih =>
    have hb := b.isLt
    rw [ofBytes, List.length_cons, Nat.mul_succ, Nat.pow_add]
    omega

theorem bytesAt_lt (bs : List Byte) (off n : Nat) : bytesAt bs off n < 2 ^ (8 * n) :=
  lt_of_lt_of_le (ofBytes_lt _) (Nat.pow_le_pow_right (by decide) (Nat.mul_le_mul_left 8 (List.length_take_le _ _)))

/-! ## The start of a prologue -/

section Start
variable {s : State} {ctx seq : Nat} {x : Packet} {bs : List Byte}

/-- A dimension of a launch, of four bytes, is kept by its register. -/
theorem toNat_ofNat_dimension (off : Nat) : (BitVec.ofNat 32 (bytesAt bs off 4)).toNat = bytesAt bs off 4 := by
  rw [BitVec.toNat_ofNat, Nat.mod_eq_of_lt (bytesAt_lt bs off 4)]

/-- The prologue of a started launch starts where nothing holds it back. -/
theorem exec_prologueRun_start (hx : AMap.find (s.ctx ctx).packets seq = some x) (hb : x.prologue = some bs) (hk : x.kind = 0)
    (hp : (s.ctx ctx).prologue = none) (hs : x.stage = .started) (hm : s.mayStart ctx = true) (hw : s.prologueWaits ctx = false) :
    exec (.prologueRun ctx seq) s =
      .next ((s.modPacket ctx seq (fun p => { p with stage := .inPrologue, span := some (s.stamp, none) })).modCtx ctx (fun k =>
        { k with prologue := some (startPrologue s seq bs (parseRecord x.body)) })) := by
  simp only [exec_prologueRun, execPrologueRun, hx, hb, hp, hs, hk, hm, hw, ne_eq, not_true_eq_false, decide_false, Bool.not_true,
    Bool.or_self, Bool.false_eq_true, if_false]

theorem startPrologue_kpair_zero {r : LaunchRec} : (startPrologue s seq bs r).team.kpair 0 = BitVec.ofNat 64 (bytesAt bs 8 8) := by
  rw [startPrologue, Team.kpair_setKPair_of_lt (by decide), Team.kpair_setKPair_self]

theorem startPrologue_kpair_two {r : LaunchRec} : (startPrologue s seq bs r).team.kpair 2 = BitVec.ofNat 64 (bytesAt bs 0x10 8) :=
  Team.kpair_setKPair_self

end Start

/-! ## The launch that it leaves -/

section Launch
variable {s : State} {c seq g runs : Nat} {x : Packet} {y : Grid} {r : LaunchRec} {q : Prologue} {bs : List Byte} {f : Packet → Packet}

theorem State.ctx_noteKernel {code : Word64} {d : Nat} : (s.noteKernel c code).ctx d = s.ctx d := by
  unfold State.noteKernel
  dsimp only
  split <;> rfl

theorem State.ctx_addGrid {d : Nat} : (s.addGrid y).1.ctx d = s.ctx d := State.ctx_noteKernel (s := { s with nextGrid := s.nextGrid + 1 })

theorem State.grid?_addGrid : (s.addGrid y).1.grid? (s.addGrid y).2 = some y := by
  simp only [State.addGrid, State.grid?_setGrid, if_true]

theorem State.giveOrdinal_of_grid (h : s.grid? g = some y) : s.giveOrdinal g =
    (s.setGrid g { y with ordinal := (s.ctx y.ctx).nextOrdinal }).modCtx y.ctx (fun k => { k with nextOrdinal := k.nextOrdinal + 1 }) := by
  simp only [State.giveOrdinal, h]

/-- A packet's change leaves what its context is otherwise. -/
theorem State.ctx_modPacket : (s.modPacket c seq f).ctx c = { s.ctx c with packets := AMap.modify (s.ctx c).packets seq f } :=
  State.ctx_modCtx_self

/-- The launch's grid takes the next number, and its context's next ordinal. -/
theorem State.beginLaunch_eq : s.beginLaunch c seq x r runs =
    (((s.modPacket c seq (fun p => { p with stage := .running })).addGrid (newGrid c (some seq) none r x.md x.roles runs)).1.setGrid s.nextGrid
      { newGrid c (some seq) none r x.md x.roles runs with ordinal := (s.ctx c).nextOrdinal }).modCtx c
        (fun k => { k with nextOrdinal := k.nextOrdinal + 1 }) := by
  have hord {g : Grid} : (((s.modPacket c seq (fun p => { p with stage := .running })).addGrid g).1.ctx c).nextOrdinal =
      (s.ctx c).nextOrdinal := by
    rw [State.ctx_addGrid, State.ctx_modPacket]
  rw [State.beginLaunch, State.giveOrdinal_of_grid State.grid?_addGrid, ← hord]
  rfl

theorem State.grid?_beginLaunch : (s.beginLaunch c seq x r runs).grid? s.nextGrid =
    some { newGrid c (some seq) none r x.md x.roles runs with ordinal := (s.ctx c).nextOrdinal } := by
  rw [State.beginLaunch_eq]
  exact (State.grid?_setGrid _ _ _ _).trans (if_pos rfl)

/-- A launch leaves its context's prologue. -/
theorem State.prologue_beginLaunch : ((s.beginLaunch c seq x r runs).ctx c).prologue = (s.ctx c).prologue := by
  rw [State.beginLaunch_eq, State.ctx_modCtx_self]
  refine (congrArg Ctx.prologue (State.ctx_addGrid (d := c))).trans ?_
  rw [State.ctx_modPacket]

theorem exec_prologueRun_launch (hx : AMap.find (s.ctx c).packets seq = some x) (hb : x.prologue = some bs)
    (hp : (s.ctx c).prologue = some q) (hs : q.packet = seq) (he : q.team.ended = true) (hh : q.team.hold = .none) (hn : q.team.pend = [])
    (hr : q.csr.lruns.toNat % 2 ^ 16 = 0 ∨ ((parseRecord x.body).with q.csr).ok = true ∧
      s.couldPlace c ((parseRecord x.body).with q.csr) x.roles = true) :
    exec (.prologueRun c seq) s =
      .next (((s.modPacket c seq (fun p => { p with span := p.span.map (fun e => (e.1, some s.stamp)) })).modCtx c (fun k =>
        { k with prologue := none })).beginLaunch c seq x ((parseRecord x.body).with q.csr) (q.csr.lruns.toNat % 2 ^ 16)) := by
  have hgo : (decide (q.csr.lruns.toNat % 2 ^ 16 ≠ 0) && !(((parseRecord x.body).with q.csr).ok &&
      s.couldPlace c ((parseRecord x.body).with q.csr) x.roles)) = false := by
    rcases hr with h0 | ⟨hok, hplace⟩
    · simp only [h0, ne_eq, not_true_eq_false, decide_false, Bool.false_and]
    · simp only [hok, hplace, Bool.and_self, Bool.not_true, Bool.and_false]
  simp only [exec_prologueRun, execPrologueRun, hx, hb, hp, hs, State.gone_of_ended hh he, hn, hgo, ne_eq, not_true_eq_false, decide_false,
    Bool.not_true, List.isEmpty_nil, Bool.or_self, Bool.false_eq_true, if_false]

end Launch

/-! ## The limit -/

/-- The ticks that a prologue has spent halted, by a time. -/
def Prologue.halted (q : Prologue) (now : Nat) : Nat :=
  q.haltedTicks + (match q.haltSince with
    | some t => now - t
    | none => 0)

theorem exec_prologueLimitExpiry_late {s : State} {c : Nat} {q : Prologue} (hp : (s.ctx c).prologue = some q) (he : q.team.ended = false)
    (hl : 4096 * 100 < (s.time - q.since - q.halted s.time) * s.power.uncore) :
    exec (.prologueLimitExpiry c) s = .next ((s.prologueRecord c q.team.pc).endPrologue c) := by
  simp only [exec_prologueLimitExpiry, execPrologueLimitExpiry, hp, he]
  exact if_pos (decide_eq_true hl)

/-- Settles O37: the start by the values that `startPrologue` stores, the launch by the grid that `beginLaunch` adds. -/
theorem prologuesRunAndEnd : Obligations.ProloguesRunAndEnd := by
  unfold Obligations.ProloguesRunAndEnd
  intro s ctx seq x bs q
  dsimp only
  refine fun hx hb hk => ⟨fun hp hs hm hw => ?start, fun hp hseq he hh hn hr => ?launch, exec_prologueLimitExpiry_late⟩
  case start =>
    refine ⟨_, startPrologue s seq bs (parseRecord x.body), exec_prologueRun_start hx hb hk hp hs hm hw, by rw [State.ctx_modCtx_self],
      rfl, rfl, rfl, rfl, startPrologue_kpair_zero, startPrologue_kpair_two, toNat_ofNat_dimension 0x10, toNat_ofNat_dimension 0x14,
      toNat_ofNat_dimension 0x18, rfl, joinPair_halves _⟩
  case launch =>
    refine ⟨_, exec_prologueRun_launch hx hb hp hseq he hh hn hr, ?ended, State.grid?_beginLaunch.trans ?ordinal⟩
    case ended => rw [State.prologue_beginLaunch, State.ctx_modCtx_self]
    case ordinal =>
      rw [State.ctx_modCtx_self, State.ctx_modPacket]
      rfl

end Sys2Proof.Machine
end

section
/-!
SUPPORT. Traps by their class (R182, R183). A trap's chunk is cut first, and its record is made of the state with the cut stored. Where the
task map lists the task once that is the record of the state before, and the statement's clauses hold; where it lists the task twice,
storing the cut drops the second entry, and they need not.
-/

namespace Sys2Proof.Machine

/-! ## The bytes of a record (R183) -/

section Bytes
variable {m n off v : Nat} {bs : List Byte}

theorem ofBytes_toBytes (m v : Nat) : ofBytes (toBytes m v) = v % 2 ^ (8 * m) := by
  induction m generalizing v with
  | zero => rw [Nat.mul_zero, Nat.pow_zero, Nat.mod_one]; rfl
  | succ m ih =>
    rw [toBytes, ofBytes, ih, BitVec.toNat_ofNat, Nat.mul_succ, Nat.add_comm, Nat.pow_add, Nat.mul_comm (2 ^ (8 * m)), Nat.mod_mul]
    exact Nat.add_comm _ _

theorem bytesAt_toBytes_append : bytesAt (toBytes n v ++ bs) 0 n = v % 2 ^ (8 * n) := by
  rw [bytesAt, List.drop_zero, List.take_left' (length_toBytes n v), ofBytes_toBytes]

theorem bytesAt_toBytes : bytesAt (toBytes n v) 0 n = v % 2 ^ (8 * n) := by
  have h := bytesAt_toBytes_append (n := n) (v := v) (bs := [])
  rwa [List.append_nil] at h

theorem bytesAt_past_toBytes (h : m ≤ off) : bytesAt (toBytes m v ++ bs) off n = bytesAt bs (off - m) n := by
  have hlen := length_toBytes m v
  rw [bytesAt, List.drop_append, List.drop_of_length_le (by omega), List.nil_append, hlen, bytesAt]

/-- A record has 64 bytes, with its fields at their places. -/
theorem FaultRec.bytes_fields {r : FaultRec} (hcls : r.cls < 2 ^ 8) (hcode : r.code < 2 ^ 8) (hctx : r.ctx < 2 ^ 8)
    (htask : r.task < 2 ^ 16) (hlane : r.lane < 2 ^ 32) (hn : n < 2 ^ 16) :
    (r.bytes n).length = 64 ∧ bytesAt (r.bytes n) 0 1 = r.cls ∧ bytesAt (r.bytes n) 1 1 = r.code ∧
    bytesAt (r.bytes n) 2 1 = r.ctx ∧ bytesAt (r.bytes n) 4 2 = r.task ∧ bytesAt (r.bytes n) 8 8 = r.plate.toNat ∧
    bytesAt (r.bytes n) 0x10 8 = r.src.toNat ∧ bytesAt (r.bytes n) 0x18 8 = r.addr.toNat ∧
    bytesAt (r.bytes n) 0x28 4 = r.lane ∧ bytesAt (r.bytes n) 0x2C 4 = r.detail.toNat ∧ bytesAt (r.bytes n) 0x3E 2 = n := by
  have h64 (x : Word64) : x.toNat % 2 ^ 64 = x.toNat := Nat.mod_eq_of_lt x.isLt
  have h32 (x : Word) : x.toNat % 2 ^ 32 = x.toNat := Nat.mod_eq_of_lt x.isLt
  refine ⟨?length, ?_, ?_, ?_, ?_, ?_, ?_, ?_, ?_, ?_, ?_⟩
  case length => simp only [FaultRec.bytes, List.length_append, length_toBytes]
  all_goals
    simp only [FaultRec.bytes, List.append_assoc, bytesAt_past_toBytes, bytesAt_toBytes_append, bytesAt_toBytes, Nat.reduceLeDiff,
      Nat.reduceSub, Nat.reduceMul, Nat.le_refl, Nat.sub_self, h64, h32, Nat.mod_eq_of_lt hcls, Nat.mod_eq_of_lt hcode,
      Nat.mod_eq_of_lt hctx, Nat.mod_eq_of_lt htask, Nat.mod_eq_of_lt hlane, Nat.mod_eq_of_lt hn]

end Bytes

/-! ## A task that the map lists once -/

section Lists
variable {α : Type} {m : AMap α} {k : Nat} {v w : α}

theorem AMap.mem_place_iff {e : Nat × α} : e ∈ AMap.place m k v ↔ e = (k, v) ∨ e ∈ m := by
  induction m with
  | nil => simp [AMap.place]
  | cons f m ih =>
    rw [AMap.place]
    split
    · exact List.mem_cons
    · rw [List.mem_cons, List.mem_cons, ih, or_left_comm]

theorem AMap.mem_erase_iff {e : Nat × α} : e ∈ AMap.erase m k ↔ e ∈ m ∧ e.1 ≠ k := by
  refine ⟨AMap.mem_erase m k e, ?_⟩
  rintro ⟨he, hk⟩
  induction m with
  | nil => exact he
  | cons f m ih =>
    rw [AMap.erase]
    rcases List.mem_cons.mp he with rfl | he
    · rw [if_neg hk]; exact List.mem_cons_self
    · split
      · exact ih he
      · exact List.mem_cons_of_mem _ (ih he)

theorem AMap.mem_of_find (h : AMap.find m k = some v) : (k, v) ∈ m := by
  induction m with
  | nil => cases h
  | cons f m ih =>
    rw [AMap.find] at h
    split at h
    case isTrue hk => cases h; rw [← hk]; exact List.mem_cons_self
    case isFalse => exact List.mem_cons_of_mem _ (ih h)

/-- A write at a key that is listed once, which a test does not see, leaves what passes the test. -/
theorem AMap.any_set {f : Nat × α → Bool} (hw : AMap.find m k = some w) (hone : ∀ e ∈ m, e.1 = k → e.2 = w)
    (hf : f (k, v) = f (k, w)) : (AMap.set m k v).any f = m.any f := by
  rw [Bool.eq_iff_iff, List.any_eq_true, List.any_eq_true]
  constructor
  · rintro ⟨e, he, h⟩
    rcases AMap.mem_place_iff.mp he with rfl | he
    · exact ⟨(k, w), AMap.mem_of_find hw, hf ▸ h⟩
    · exact ⟨e, (AMap.mem_erase_iff.mp he).1, h⟩
  · rintro ⟨e, he, h⟩
    by_cases hk : e.1 = k
    · have hek : e = (k, w) := Prod.ext hk (hone e he hk)
      exact ⟨(k, v), AMap.mem_place_iff.mpr (.inl rfl), by rwa [hf, ← hek]⟩
    · exact ⟨e, AMap.mem_place_iff.mpr (.inr (AMap.mem_erase_iff.mpr ⟨he, hk⟩)), h⟩

end Lists

/-- The task map has one entry for the task. -/
def State.ListsOnce (s : State) (tid : Nat) (k : Task) : Prop := s.task? tid = some k ∧ ∀ e ∈ s.tasks, e.1 = tid → e.2 = k

section Gangs
variable {s : State} {tid ord : Nat} {k x : Task} {v : Team} {p : Party}

theorem State.recordOf_setTeam : (s.setTeam p v).recordOf x = s.recordOf x := by
  simp only [State.recordOf, State.grid?, State.setTeam_grids]

theorem State.gangNo_setTeam : (s.setTeam p v).gangNo x = s.gangNo x := by
  simp only [State.gangNo, State.gangSize, State.recordOf_setTeam]

theorem State.plateOf_setTeam : (s.setTeam p v).plateOf x = s.plateOf x := by
  simp only [State.plateOf, State.grid?, State.setTeam_grids, State.setTeam_plates]

theorem State.tasks_setTeam (hk : s.task? tid = some k) :
    (s.setTeam (.team tid ord) v).tasks = AMap.set s.tasks tid { k with teams := AMap.set k.teams ord v } := by
  simp only [State.setTeam, State.modTask, hk, State.setTask]

/-- What a gang's tasks show beside their teams is kept when a team of a task listed once is stored. -/
theorem State.any_gangTasks_setTeam {f : Nat × Task → Bool} (h : s.ListsOnce tid k)
    (hf : ∀ n y ts, f (n, { y with teams := ts }) = f (n, y)) :
    ((s.setTeam (.team tid ord) v).gangTasks x).any f = (s.gangTasks x).any f := by
  obtain ⟨hk, hone⟩ := h
  simp only [State.gangTasks, List.any_filter, State.gangNo_setTeam, State.tasks_setTeam hk]
  exact AMap.any_set hk hone (by simp only [hf]; rfl)

theorem State.failingGang_setTeam (h : s.ListsOnce tid k) : (s.setTeam (.team tid ord) v).failingGang x = s.failingGang x :=
  State.any_gangTasks_setTeam h fun _ _ _ => rfl

theorem State.wouldRetry_setTeam (h : s.ListsOnce tid k) : (s.setTeam (.team tid ord) v).wouldRetry x = s.wouldRetry x := by
  have hc : ((s.setTeam (.team tid ord) v).gangTasks x).all (fun e => e.2.commits = 0) = (s.gangTasks x).all (fun e => e.2.commits = 0) := by
    rw [List.all_eq_not_any_not, List.all_eq_not_any_not, State.any_gangTasks_setTeam h fun _ _ _ => rfl]
  simp only [State.wouldRetry, hc, State.recordOf_setTeam]

end Gangs

/-! ## Taking a trap (R182) -/

/-- The stream whose chunk a trap has ended (R378). -/
def Team.cutAt (t : Team) (tr : TrapInfo) : Team :=
  { t with chunk := { last := t.trapPoint tr.point, begun := t.trapPoint tr.point } }

/-- The record that the statement gives for a trap of a team in a state. -/
def State.teamTrapRecord (s : State) (tid : Nat) (k : Task) (t : Team) (pc : Word64) (tr : TrapInfo) : FaultRec :=
  let first := tr.cls = 1 ∧ s.failingGang k = false
  { cls := tr.cls, code := tr.code, ctx := k.ctx
    flags := (if first then 1 else 0) + (if tr.engine then 2 else 0) + (if first ∧ s.wouldRetry k = true then 32 else 0)
    task := tid, team := teamField k.core t.partition t.slot, plate := pc, src := pc, addr := tr.addr, iter := 0xFFFFFFFF#32
    commit := k.commits % 2 ^ 32, lane := tr.lane, detail := tr.detail, time := s.time, cohort := k.index
    retries := k.retries }

/-- What the statement says of one trap of a team. -/
def State.TakesByClass (s : State) (tid ord : Nat) (k : Task) (t : Team) (pc : Word64) (tr : TrapInfo) (n : Nat) : Prop :=
  let p := Party.team tid ord
  let seq := (s.ctx k.ctx).faultSeq
  let r := s.teamTrapRecord tid k t pc tr
  let s1 := s.setTeam p (t.cutAt tr)
  (tr.cls = 0 → s.takeTrap p pc tr = ((s1.modCtx k.ctx (fun x => { x with
      pageFaults := x.pageFaults ++ [{ seq := seq, va := tr.addr, lane := tr.lane, who := .team tid ord }] })).setTeam p
      { t.cutAt tr with hold := .pageFault seq tr.addr }).queueFault r) ∧
  (tr.cls = 1 → s.takeTrap p pc tr = (s1.queueFault r).modTask tid (fun x => { x with
      failing := some (x.failing.getD tr), primary := x.primary || !s.failingGang k })) ∧
  (tr.cls = 2 → s.takeTrap p pc tr = (s1.queueFault r).freezeTeam tid ord) ∧
  (r.cls < 256 → r.code < 256 → r.ctx < 64 → r.lane < 2 ^ 16 → r.task < 2 ^ 14 → n < 2 ^ 16 →
    (r.bytes n).length = 64 ∧ bytesAt (r.bytes n) 0 1 = tr.cls ∧ bytesAt (r.bytes n) 1 1 = tr.code ∧
    bytesAt (r.bytes n) 2 1 = k.ctx ∧ bytesAt (r.bytes n) 4 2 = tid ∧ bytesAt (r.bytes n) 8 8 = pc.toNat ∧
    bytesAt (r.bytes n) 0x10 8 = pc.toNat ∧ bytesAt (r.bytes n) 0x18 8 = tr.addr.toNat ∧
    bytesAt (r.bytes n) 0x28 4 = tr.lane ∧ bytesAt (r.bytes n) 0x2C 4 = tr.detail.toNat ∧ bytesAt (r.bytes n) 0x3E 2 = n)

theorem trapsAreTakenByTheirClass_iff : Obligations.TrapsAreTakenByTheirClass ↔
    ∀ (s : State) (tid ord : Nat) (k : Task) (t : Team) (pc : Word64) (tr : TrapInfo) (n : Nat),
      s.task? tid = some k → AMap.find k.teams ord = some t → s.Quiet k.ctx → s.plateOf k = none →
        s.TakesByClass tid ord k t pc tr n := Iff.rfl

theorem State.ctx_setTeam_team {s : State} {n o c : Nat} {v : Team} : (s.setTeam (.team n o) v).ctx c = s.ctx c := by
  rw [State.ctx, State.setTeam, State.modTask_ctxs, State.ctx]

section Taking
variable {s : State} {tid ord n : Nat} {k : Task} {t : Team} {pc : Word64} {tr : TrapInfo}

/-- The record of a trap, of a task listed once, from the state with the cut stored is the one of the state before. -/
theorem State.trapRecord_cut (h : s.ListsOnce tid k) (ht : s.team? (.team tid ord) = some t) (hq : s.Quiet k.ctx) (hp : s.plateOf k = none) :
    (s.setTeam (.team tid ord) (t.cutAt tr)).trapRecord (.team tid ord) tid k pc tr = s.teamTrapRecord tid k t pc tr := by
  have hk := h.1
  have hk1 : (s.setTeam (.team tid ord) (t.cutAt tr)).task? tid = some { k with teams := AMap.set k.teams ord (t.cutAt tr) } := by
    rw [State.task?, State.tasks_setTeam hk, AMap.find_set, if_pos rfl]
  have hplate : ((s.setTeam (.team tid ord) (t.cutAt tr)).taskOf (.team tid ord)).bind (s.setTeam (.team tid ord) (t.cutAt tr)).plateOf =
      none := by
    rw [State.taskOf_team hk1, Option.bind_some, State.plateOf_setTeam]
    exact hp
  have hfield : (s.setTeam (.team tid ord) (t.cutAt tr)).fieldOf (.team tid ord) = teamField k.core t.partition t.slot := by
    simp only [State.fieldOf, State.taskOf_team hk1, partyTask, partyOrd, Option.getD_some, State.team?_setTeam _ _ _ _ ht]
    rfl
  have hr : (s.setTeam (.team tid ord) (t.cutAt tr)).replaying k.ctx = false := by
    rw [State.replaying, State.setTeam_replay]
    exact hq.replay
  simp only [State.trapRecord, State.sourceOf, State.onPlate, State.replayFlag, hplate, hfield, hr, State.failingGang_setTeam h,
    State.wouldRetry_setTeam h, mul_b2n, State.setTeam_time]
  simp [State.teamTrapRecord, b2n, and_assoc]

/-- In a context that is neither recorded nor replayed a team's trap cuts its chunk, and then goes by its class. -/
theorem State.takeTrap_quiet (hk : s.task? tid = some k) (ht : s.team? (.team tid ord) = some t) (hq : s.Quiet k.ctx) :
    let s1 := s.setTeam (.team tid ord) (t.cutAt tr)
    let r := s1.trapRecord (.team tid ord) tid k pc tr
    let seq := (s.ctx k.ctx).faultSeq
    s.takeTrap (.team tid ord) pc tr =
      if tr.cls = 0 then ((s1.modCtx k.ctx (fun x => { x with
        pageFaults := x.pageFaults ++ [{ seq := seq, va := tr.addr, lane := tr.lane, who := .team tid ord }] })).setTeam (.team tid ord)
        { t.cutAt tr with hold := .pageFault seq tr.addr }).queueFault r
      else if tr.cls = 1 then (s1.queueFault r).modTask tid (fun x => { x with
        failing := some (x.failing.getD tr), primary := x.primary || !s1.failingGang k })
      else (s1.queueFault r).freezeTeam tid ord := by
  have hend (payload : List Byte) : endChunk s (.team tid ord) t 4 payload (t.trapPoint tr.point) none = .go s (t.cutAt tr) :=
    endChunk_quiet (by rwa [State.ctxOf_team hk])
  have hcut (f : Ctx → Ctx) : ((s.setTeam (.team tid ord) (t.cutAt tr)).modCtx k.ctx f).team? (.team tid ord) = some (t.cutAt tr) :=
    State.team?_setTeam _ _ _ _ ht
  simp only [State.takeTrap, ht, partyTask, partyOrd, hk, reduceCtorEq, decide_false, Bool.false_eq_true, if_false, hend, hcut,
    State.ctx_setTeam_team]

/-- Of a task listed once a trap is taken as the statement says. -/
theorem State.takesByClass_of_listsOnce (h : s.ListsOnce tid k) (ht : AMap.find k.teams ord = some t) (hq : s.Quiet k.ctx)
    (hp : s.plateOf k = none) : s.TakesByClass tid ord k t pc tr n := by
  have hteam : s.team? (.team tid ord) = some t := by rw [State.team?, h.1, Option.bind_some, ht]
  have htake := State.takeTrap_quiet (pc := pc) (tr := tr) h.1 hteam hq
  dsimp only at htake
  rw [State.trapRecord_cut h hteam hq hp, State.failingGang_setTeam h] at htake
  refine ⟨fun hc => htake.trans (if_pos hc), fun hc => ?failing, fun hc => ?debug, fun hcls hcode hctx hlane htask hn => ?bytes⟩
  case failing => rw [htake, if_neg (by omega), if_pos hc]
  case debug => rw [htake, if_neg (by omega), if_neg (by omega)]
  case bytes =>
    exact FaultRec.bytes_fields hcls hcode (hctx.trans (by decide)) (htask.trans (by decide)) (hlane.trans (by decide)) hn

end Taking

/-! ## A task that the map lists twice -/

/-- A task with one team. -/
def listedTask : Task :=
  { ctx := 0, grid := 0, index := 0, core := 0, base := 0, frame := 0, priority := 0, scratchSize := 0, scratch := [], bars := []
    commits := 0, version := [], messages := [], taken := [], retries := 0, teams := [(0, Team.single .kernel 0#64 mdReset)], leads := []
    failing := none, primary := false, resident := true, finished := false, waitingSince := none, ticket := none, ticketQ := []
    touched := [], partials := [] }

/-- A state that lists that task twice; the second entry, which no read of the map finds, has failed. -/
def listedTwice : State :=
  { State.reset with tasks := [(0, listedTask), (0, { listedTask with failing := some (trapOf 16 0#64 0) })] }

/-- Whether task 0 is the primary one of its failing gang. -/
def primaryOf (s : State) : Option Bool := (s.task? 0).map (·.primary)

theorem primaryOf_model : primaryOf (listedTwice.takeTrap (.team 0 0) 0#64 (trapOf 16 0#64 0)) = some true := by decide +kernel

/-- Refutes O55: the statement asks the state before the trap whether the gang has failed, the model the state in which the cut chunk is
stored. They differ where the task map lists the task twice, which the statement does not exclude: storing the cut drops the second entry,
and with it the failure, so that the model makes the task primary and the statement does not. With each task listed once the statement's
clauses hold, by `State.takesByClass_of_listsOnce`. -/
theorem not_trapsAreTakenByTheirClass : ¬ Obligations.TrapsAreTakenByTheirClass := by
  intro h
  obtain ⟨-, failing, -⟩ := trapsAreTakenByTheirClass_iff.mp h listedTwice 0 0 listedTask (Team.single .kernel 0#64 mdReset) 0#64
    (trapOf 16 0#64 0) 0 rfl rfl ⟨rfl, rfl⟩ rfl
  have claimed := congrArg primaryOf (failing rfl)
  rw [primaryOf_model] at claimed
  exact absurd claimed (by decide +kernel)

end Sys2Proof.Machine
end

section
/-!
SUPPORT. Swaps (R206, R213, R339, R340) and changes of a cluster's mode (R229, R355).
-/

namespace Sys2Proof.Machine

section Arms
variable {s : State} {task grid cluster : Nat}

theorem exec_swapOut : exec (.swapOut task) s = execSwapOut task s := by rfl
theorem exec_swapReturn : exec (.swapReturn task) s = execSwapReturn task s := by rfl
theorem exec_placementWaitExpiry : exec (.placementWaitExpiry grid) s = execPlacementWaitExpiry grid s := by rfl
theorem exec_clusterModeChange : exec (.clusterModeChange cluster) s = execClusterModeChange cluster s := by rfl

end Arms

/-! ## Frames -/

section Frames
variable {s : State} {α : Type} {f : State → α} {tid ord : Nat} {t : Team} {k : Task}

theorem State.poke_ctxs (pa : Nat) (data : List Byte) : (s.poke pa data).ctxs = s.ctxs := by
  unfold State.poke State.atHome State.mirror
  split <;> rfl

theorem State.poke_replay (pa : Nat) (data : List Byte) : (s.poke pa data).replay = s.replay := by
  unfold State.poke State.atHome State.mirror
  split <;> rfl

/-- Steps that each leave a part of the state leave it together. -/
theorem State.foldl_keeps {β : Type} {step : State → β → State} (h : ∀ s x, f (step s x) = f s) (xs : List β) (s : State) :
    f (xs.foldl step s) = f s := by
  induction xs generalizing s with
  | nil => rfl
  | cons x xs ih => rw [List.foldl_cons, ih, h]

/-- Saving a team writes memory and nothing else. -/
theorem State.saveLines_keeps (h : ∀ (s : State) pa data, f (s.poke pa data) = f s) (ls : List Nat) :
    f (s.saveLines tid ord t ls) = f s := by
  unfold State.saveLines
  split
  · rfl
  · exact State.foldl_keeps (fun s _ => h s _ _) ls s

theorem State.saveState_keeps (h : ∀ (s : State) pa data, f (s.poke pa data) = f s) : f (s.saveState tid ord t) = f s := by
  simp only [State.saveState]
  split
  · rfl
  · split
    · rw [h, h]
    · exact h _ _ _

theorem State.saveTeam_keeps (h : ∀ (s : State) pa data, f (s.poke pa data) = f s) (tid ord : Nat) :
    f (s.saveTeam tid ord) = f s := by
  unfold State.saveTeam
  split
  · rw [State.saveState_keeps h, State.saveLines_keeps h]
  · rfl

theorem State.Quiet.of_eq {s' : State} {c : Nat} (hc : s'.ctxs = s.ctxs) (hr : s'.replay = s.replay) (hq : s.Quiet c) : s'.Quiet c := by
  obtain ⟨hlevel, hreplay⟩ := hq
  constructor
  · rwa [State.ctx, hc]
  · rwa [State.replaying, hr]

/-- In a context that is neither recorded nor replayed a swap-out cuts no chunk. -/
theorem State.foldl_cutChunk_saveTeam {cause : Nat} (hk : s.task? tid = some k) (hq : s.Quiet k.ctx) (fs : List (Nat × Team)) :
    fs.foldl (fun s f => (s.cutChunk (.team tid f.1) cause).saveTeam tid f.1) s = fs.foldl (fun s f => s.saveTeam tid f.1) s := by
  induction fs generalizing s with
  | nil => rfl
  | cons f fs ih =>
    have hcut : s.cutChunk (.team tid f.1) cause = s := State.cutChunk_quiet (by rwa [State.ctxOf_team hk])
    rw [List.foldl_cons, List.foldl_cons, hcut]
    refine ih ?task (hq.of_eq (State.saveTeam_keeps (f := State.ctxs) (fun s => s.poke_ctxs) _ _)
      (State.saveTeam_keeps (f := State.replay) (fun s => s.poke_replay) _ _))
    rwa [State.task?, State.saveTeam_keeps (f := State.tasks) State.poke_tasks]

end Frames

/-! ## Swap-out and return (R339, R340) -/

section Swaps
variable {s : State} {tid g : Nat} {k : Task} {x : Grid} {r : Retry}

/-- The longest-waiting cohort goes to its frame when its going, with those after it, makes room. -/
theorem exec_swapOut_first {rest : List (Nat × Task)} (hk : s.task? tid = some k) (hq : s.Quiet k.ctx)
    (ho : s.swapOrder k.core = (tid, k) :: rest)
    (hw : (awayPrefixes (s.swapOrder k.core) s).any (fun s' => s.waiterFits k.core s') = true) :
    exec (.swapOut tid) s = .next (((k.teams.foldl (fun s f => s.saveTeam tid f.1) s).frameScratch k).away tid) := by
  have hhead : (s.swapOrder k.core).head?.map (·.1) = some tid := by rw [ho]; rfl
  simp only [exec_swapOut, execSwapOut, hk, hq.replay, hhead, hw, State.foldl_cutChunk_saveTeam hk hq, ne_eq, not_true_eq_false,
    decide_false, Bool.not_true, Bool.or_self, Bool.false_eq_true, if_false]

/-- Below level 2 no choreography says where a cohort goes, and none is written (R372, R373). -/
theorem State.choreoOf_of_level (h : (s.ctx x.ctx).level.level ≠ 2) : s.choreoOf g x r = (s, .free) := by
  simp only [State.choreoOf, h, decide_false, Bool.false_and, Bool.false_eq_true, if_false]

theorem State.noteChoreo_of_level {core base : Nat} (h : (s.ctx x.ctx).level.level ≠ 2) :
    s.noteChoreo g x r core base none = (s, true) := by
  simp only [State.noteChoreo, h, ne_eq, not_false_eq_true, decide_true, Bool.true_or, if_true]

/-- A cohort that may go on returns to its core once that has room. -/
theorem exec_swapReturn_of_room (hk : s.task? tid = some k) (hx : s.grid? k.grid = some x) (he : s.eligible tid k = true)
    (hf : s.failingGang k = false) (hp : (s.ctx k.ctx).snapPaused = false) (hc : x.ctx = k.ctx)
    (hl : (s.ctx k.ctx).level.level ≠ 2) (hr : s.replaying k.ctx = false)
    (hroom : s.coreRoom k.core k.teams.length (s.bestBase k.core k.teams.length) k.scratchSize = true) :
    exec (.swapReturn tid) s = .next ((s.comeBack tid k (s.bestBase k.core k.teams.length)
      (s.slotsFor k.core (s.bestBase k.core k.teams.length) k.teams.length)).noteDispatch tid x.ordinal k.index
        (s.bestBase k.core k.teams.length)) := by
  have hclocks : s.clocksFit k.ctx = true := by
    simp only [State.clocksFit, hl, ne_eq, not_false_eq_true, decide_true, Bool.true_or]
  have hlevel : (s.ctx x.ctx).level.level ≠ 2 := by rwa [hc]
  simp only [exec_swapReturn, execSwapReturn, hk, hx, he, hf, hp, hclocks, hr, State.choreoOf_of_level hlevel, hroom,
    State.noteChoreo_of_level hlevel, Bool.not_true, Bool.or_self, Bool.false_eq_true, if_false, if_true]

end Swaps

/-! ## Grids that fit nowhere (R229, R355) -/

section Clusters
variable {s : State} {g cluster since : Nat} {x : Grid} {empties : List Nat}

/-- A grid whose cohorts fit nowhere is seen to wait. -/
theorem exec_placementWaitExpiry_first (hx : s.grid? g = some x) (hn : s.nextCohorts x ≠ []) (hf : s.fitsNow g x = false)
    (hw : x.waitSince = none) : exec (.placementWaitExpiry g) s = .next (s.setGrid g { x with waitSince := some s.time }) := by
  have hcohorts : (s.nextCohorts x).isEmpty = false := by simpa using hn
  simp only [exec_placementWaitExpiry, execPlacementWaitExpiry, hx, hcohorts, hf, hw, Bool.or_self, Bool.false_eq_true, if_false]

/-- After 1 ms it keeps its cluster. -/
theorem exec_placementWaitExpiry_late (hx : s.grid? g = some x) (hn : s.nextCohorts x ≠ []) (hf : s.fitsNow g x = false)
    (hw : x.waitSince = some since) (ht : since + 100000 ≤ s.time) :
    exec (.placementWaitExpiry g) s = .next (s.setGrid g { x with expired := true }) := by
  have hcohorts : (s.nextCohorts x).isEmpty = false := by simpa using hn
  simp only [exec_placementWaitExpiry, execPlacementWaitExpiry, hx, hcohorts, hf, hw, if_pos ht, Bool.or_self, Bool.false_eq_true, if_false]

/-- A cluster that drains changes once it is empty. -/
theorem exec_clusterModeChange_drained (hc : cluster < 16) (hd : (s.cluster cluster).draining ≠ none)
    (he : s.clusterEmpty cluster = true) : exec (.clusterModeChange cluster) s = .next (s.flipMode cluster) := by
  simp only [exec_clusterModeChange, execClusterModeChange, not_le.mpr hc, if_false, Option.isSome_iff_ne_none.mpr hd, if_true, he]

/-- Two modes: the one that is not the grid's is the other cluster's. -/
theorem State.fused_ne_iff {j : Nat} (hm : x.record.fuse ≠ (s.cluster cluster).fused) :
    (s.cluster j).fused ≠ x.record.fuse ↔ (s.cluster j).fused = (s.cluster cluster).fused := by
  revert hm
  cases x.record.fuse <;> cases (s.cluster cluster).fused <;> cases (s.cluster j).fused <;> decide

/-- A grid that fits nowhere asks for the lowest empty cluster of the other mode. -/
theorem State.flipFor_empty (hb : s.bound x.ctx = false) (hn : s.nextCohorts x ≠ []) (hf : s.fitsNow g x = false)
    (hm : x.record.fuse ≠ (s.cluster cluster).fused)
    (he : (span 0 16).filter (fun j => (s.cluster j).fused = (s.cluster cluster).fused && s.clusterEmpty j) = cluster :: empties) :
    s.flipFor (g, x) = some cluster := by
  obtain ⟨r, rs, hr⟩ := List.exists_cons_of_ne_nil hn
  have hfind : (span 0 16).find? (fun j => (s.cluster j).fused ≠ x.record.fuse && s.clusterEmpty j) = some cluster := by
    simp only [State.fused_ne_iff hm, ← List.head?_filter, he, List.head?_cons]
  simp only [State.flipFor, hr, hb, hf, hfind, Bool.false_eq_true, if_false]

/-- With none empty it asks for the one with the fewest cohorts. -/
theorem State.flipFor_fewest (hb : s.bound x.ctx = false) (hn : s.nextCohorts x ≠ []) (hf : s.fitsNow g x = false)
    (hm : x.record.fuse ≠ (s.cluster cluster).fused)
    (he : ∀ j < 16, (s.cluster j).fused = (s.cluster cluster).fused → s.clusterEmpty j = false) :
    s.flipFor (g, x) = s.fewestOf (s.cluster cluster).fused := by
  obtain ⟨r, rs, hr⟩ := List.exists_cons_of_ne_nil hn
  have hfind : (span 0 16).find? (fun j => (s.cluster j).fused ≠ x.record.fuse && s.clusterEmpty j) = none := by
    simp only [State.fused_ne_iff hm, List.find?_eq_none, span_eq_range', List.mem_range'_1, Bool.and_eq_true, decide_eq_true_eq,
      not_and, Bool.not_eq_true]
    exact fun j hj => he j (by omega)
  have hmode : (!x.record.fuse) = (s.cluster cluster).fused := (Bool.eq_not.mpr hm.symm).symm
  simp only [State.flipFor, hr, hb, hf, hfind, hmode, Bool.false_eq_true, if_false]

/-- An empty cluster changes as soon as a grid asks for it. -/
theorem exec_clusterModeChange_empty (hc : cluster < 16) (hd : (s.cluster cluster).draining = none) (hx : s.grid? g = some x)
    (hw : s.flipFor (g, x) = some cluster) (he : s.clusterEmpty cluster = true) :
    exec (.clusterModeChange cluster) s = .next (s.flipMode cluster) := by
  have hwants : (s.grids.filter (fun e => s.flipFor e = some cluster)).isEmpty = false := by
    rw [List.isEmpty_eq_false_iff_exists_mem]
    exact ⟨(g, x), List.mem_filter.mpr ⟨AMap.mem_of_find hx, decide_eq_true hw⟩⟩
  simp only [exec_clusterModeChange, execClusterModeChange, not_le.mpr hc, hd, Option.isSome_none, hwants, he, Bool.false_eq_true,
    if_false, if_true]

/-- The grid has waited 1 ms, and no cluster empties for it. -/
def State.mayDrain (s : State) (e : Nat × Grid) : Bool :=
  !s.drainsFor e.1 && (match e.2.waitSince with
    | some t => decide (t + 100000 ≤ s.time)
    | none => false)

/-- One that holds cohorts drains for the first of the grids that ask for it and have waited. -/
theorem exec_clusterModeChange_held (hc : cluster < 16) (hd : (s.cluster cluster).draining = none)
    (he : s.clusterEmpty cluster = false) {e : Nat × Grid}
    (hw : (s.grids.filter (fun e => s.flipFor e = some cluster)).find? s.mayDrain = some e) :
    exec (.clusterModeChange cluster) s = .next (s.setCluster cluster { s.cluster cluster with draining := some e.1 }) := by
  have hwants : (s.grids.filter (fun e => s.flipFor e = some cluster)).isEmpty = false := by
    rw [List.isEmpty_eq_false_iff_exists_mem]
    exact ⟨e, List.mem_of_find?_eq_some hw⟩
  simp only [exec_clusterModeChange, execClusterModeChange, not_le.mpr hc, hd, Option.isSome_none, hwants, he, Bool.false_eq_true, if_false]
  change Host.Outcome.next (match (s.grids.filter (fun e => s.flipFor e = some cluster)).find? s.mayDrain with
    | some e => s.setCluster cluster { s.cluster cluster with draining := some e.1 }
    | none => s) = _
  rw [hw]

/-- Where only one grid has cohorts to place, that grid is the one a cluster drains for. -/
theorem State.find?_mayDrain (hx : s.grid? g = some x) (hw : s.flipFor (g, x) = some cluster) (hm : s.mayDrain (g, x) = true)
    (ho : ∀ e ∈ s.grids, e.1 ≠ g → s.nextCohorts e.2 = []) :
    ∃ e, (s.grids.filter (fun e => s.flipFor e = some cluster)).find? s.mayDrain = some e ∧ e.1 = g := by
  have hmem : (g, x) ∈ s.grids.filter (fun e => s.flipFor e = some cluster) :=
    List.mem_filter.mpr ⟨AMap.mem_of_find hx, decide_eq_true hw⟩
  obtain ⟨e, he⟩ := Option.isSome_iff_exists.mp (List.find?_isSome.mpr ⟨_, hmem, hm⟩)
  refine ⟨e, he, by_contra fun hne => ?other⟩
  obtain ⟨hgrids, hflip⟩ := List.mem_filter.mp (List.mem_of_find?_eq_some he)
  simp only [State.flipFor, ho e hgrids hne, reduceCtorEq, decide_false, Bool.false_eq_true] at hflip

end Clusters

/-- Settles O40: a swap-out saves the teams and the scratchpad, a return takes them back; a grid that fits nowhere turns to the lowest
empty cluster of the other mode, or drains the one with the fewest cohorts. -/
theorem cohortsSwapAndClustersChange : Obligations.CohortsSwapAndClustersChange := by
  unfold Obligations.CohortsSwapAndClustersChange
  intro s tid g cluster since k x rest empties
  dsimp only
  refine ⟨fun hk hq => ⟨fun ho hw => ?out, fun hx he hf hp hc hl hroom => ?back⟩,
    fun hx hn hf => ⟨fun hw => ?first, fun hw htime => ?late⟩,
    fun hc => ⟨fun hd he => ?drained, fun hd hx hb hn hf hm => ⟨fun he => ?empty, fun he hfew hw htime hnone ho => ?drains⟩⟩⟩
  case out => exact exec_swapOut_first hk hq ho (List.any_eq_true.mpr hw)
  case back => exact exec_swapReturn_of_room hk hx he hf hp hc hl hq.replay hroom
  case first => exact exec_placementWaitExpiry_first hx hn hf hw
  case late => exact exec_placementWaitExpiry_late hx hn hf hw htime
  case drained => exact exec_clusterModeChange_drained hc hd he
  case empty =>
    have hself := (List.mem_filter.mp (he ▸ List.mem_cons_self : cluster ∈ (span 0 16).filter _)).2
    exact exec_clusterModeChange_empty hc hd hx (State.flipFor_empty hb hn hf hm he) (Bool.and_eq_true_iff.mp hself).2
  case drains =>
    have hflip : s.flipFor (g, x) = some cluster := (State.flipFor_fewest hb hn hf hm he).trans hfew
    have hfree : s.drainsFor g = false := by
      simpa [State.drainsFor, span_eq_range', List.mem_range'_1] using hnone
    have hmay : s.mayDrain (g, x) = true := by
      simp only [State.mayDrain, hfree, hw, htime, decide_true, Bool.not_false, Bool.and_self]
    obtain ⟨e, hfind, rfl⟩ := State.find?_mayDrain hx hflip hmay ho
    exact exec_clusterModeChange_held hc hd (he cluster hc rfl) hfind

end Sys2Proof.Machine
end

section
/-!
SUPPORT. Cohorts are placed and start (R195 to R197, R355 to R357).
-/

namespace Sys2Proof.Machine

theorem exec_cohortPlace {s : State} {grid task frame : Nat} :
    exec (.cohortPlace grid task frame) s = execCohortPlace grid task frame s := by rfl

/-! ## Placement -/

section Placement
variable {s s' : State} {g tid frame core base : Nat} {x : Grid} {r : Retry} {rs : List Retry} {slots : List (Nat × Nat)}

/-- The grid that is first in order has its next cohorts placed; outside level 2 no choreography is written. -/
theorem exec_cohortPlace_first (hx : s.grid? g = some x) (hid : s.idFree tid = true) (hn : s.nextCohorts x = r :: rs)
    (hr : s.replaying x.ctx = false) (hb : s.bound x.ctx = false) (hf : s.firstInOrder g x = true)
    (hp : s.placeNext g x (r :: rs) tid (some frame) = some s') (hl : (s'.ctx x.ctx).level.level ≠ 2) :
    exec (.cohortPlace g tid frame) s = .next s' := by
  have noted (es : List (Nat × Task)) : es.foldl (fun (a : State × Bool) e => if a.2 = true then
      a.1.noteChoreo g x { index := e.2.index, retries := e.2.retries } e.2.core e.2.base none else a) (s', true) = (s', true) := by
    induction es with
    | nil => rfl
    | cons e es ih => rw [List.foldl_cons, if_pos rfl, State.noteChoreo_of_level hl, ih]
  simp only [exec_cohortPlace, execCohortPlace, hx, hid, hn, hr, hb, hf, hp, noted, Bool.not_true, Bool.false_eq_true, if_false, if_true]

theorem State.slotsFor_getElem? {n i : Nat} (hi : i < n) : (s.slotsFor core base n)[i]? =
    some (8 * (i % 4) + (base + i / 4) % 8, s.freeSlot core (8 * (i % 4) + (base + i / 4) % 8)) := by
  simp [State.slotsFor, partitionOf, span_eq_range', hi]

end Placement

/-! ## The teams of a cohort at its start (R197) -/

section Start
variable {s s' : State} {g tid core base frame n : Nat} {x : Grid} {r : Retry} {slots : List (Nat × Nat)} {k k0 : Task}

/-- The task as it starts, but for where its teams' lines lie and whether they are frozen. -/
def Task.LikeStart (k0 k : Task) : Prop :=
  { k with teams := k0.teams } = k0 ∧ ∀ n t0, AMap.find k0.teams n = some t0 →
    ∃ t, AMap.find k.teams n = some t ∧ { t with evicted := t0.evicted, freeze := t0.freeze } = t0

/-- The state holds the task so. -/
def State.Started (s : State) (tid : Nat) (k0 : Task) : Prop := ∃ k, s.task? tid = some k ∧ k0.LikeStart k

theorem State.Started.of_tasks (h : s.Started tid k0) (e : s'.tasks = s.tasks) : s'.Started tid k0 := by
  rwa [State.Started, State.task?, e]

theorem State.Started.setTeam {ord : Nat} {t u : Team} (h : s.Started tid k0) (ht : s.team? (.team tid ord) = some t)
    (hu : { u with evicted := t.evicted, freeze := t.freeze } = t) : (s.setTeam (.team tid ord) u).Started tid k0 := by
  obtain ⟨k, hk, hrest, hteams⟩ := h
  refine ⟨{ k with teams := AMap.set k.teams ord u }, ?_, hrest, fun n t0 ht0 => ?_⟩
  · rw [State.task?, State.tasks_setTeam hk, AMap.find_set, if_pos rfl]
  · obtain ⟨v, hv, hlike⟩ := hteams n t0 ht0
    rw [State.team?, hk, Option.bind_some] at ht
    by_cases hn : n = ord
    · subst hn
      obtain rfl : t = v := Option.some.inj (ht.symm.trans hv)
      refine ⟨u, by rw [AMap.find_set, if_pos rfl], ?_⟩
      rw [← hu] at hlike
      exact hlike
    · exact ⟨v, by rw [AMap.find_set, if_neg hn, hv], hlike⟩

theorem State.Started.foldl {α : Type} {f : State → α → State} (hf : ∀ (s : State) y, s.Started tid k0 → (f s y).Started tid k0)
    (ys : List α) (s : State) (h : s.Started tid k0) : (ys.foldl f s).Started tid k0 := by
  induction ys generalizing s with
  | nil => exact h
  | cons y ys ih => exact ih _ (hf s y h)

theorem State.Started.spillTeam (ord : Nat) (h : s.Started tid k0) : (s.spillTeam tid ord).Started tid k0 := by
  unfold State.spillTeam
  split
  case h_1 k t hk ht =>
    dsimp only
    split
    · exact h
    · exact (h.of_tasks (State.saveLines_tasks _ _ _ _ _)).setTeam
        (ht := (State.team?_of_tasks (State.saveLines_tasks _ _ _ _ _)).trans ht) rfl
  case h_2 => exact h

theorem State.Started.freezeTeam (ord : Nat) (h : s.Started tid k0) : (s.freezeTeam tid ord).Started tid k0 := by
  unfold State.freezeTeam
  split
  case h_1 => exact h
  case h_2 t ht =>
    have hset : (s.setTeam (.team tid ord) { t with freeze := .frozen }).Started tid k0 := h.setTeam ht rfl
    exact hset.of_tasks (State.frozenOver_tasks _ _ _)

theorem State.Started.stopNew (h : s.Started tid k0) : (s.stopNew tid).Started tid k0 := by
  unfold State.stopNew
  split
  case h_1 k hk =>
    split
    · exact State.Started.foldl (fun s f hs => hs.freezeTeam f.1) _ _ h
    · exact h
  case h_2 => exact h

@[simp] theorem State.writeLogHeader_tasks (s : State) : s.writeLogHeader.tasks = s.tasks := State.poke_tasks _ _ _

@[simp] theorem State.note_tasks (s : State) (v c kind field : Nat) (d : Option Nat) (bs : List Byte) :
    (s.note v c kind field d bs).tasks = s.tasks := by
  unfold State.note
  split
  · exact State.logRecord_tasks _ _ _ _ _ _ _ _
  · rfl

@[simp] theorem State.noteDispatch_tasks (s : State) (tid ordinal index base : Nat) :
    (s.noteDispatch tid ordinal index base).tasks = s.tasks := by
  unfold State.noteDispatch
  split
  · rfl
  · exact State.tasks_foldl (fun s f => s.note_tasks _ _ _ _ _ _) _ _

@[simp] theorem State.addAnchor_tasks (s : State) (c kind : Nat) (extra : Word64) (child : Option Grid) :
    (s.addAnchor c kind extra child).tasks = s.tasks := by
  simp only [State.addAnchor, State.writeLogHeader_tasks, apply_ite State.tasks, State.logRecord_tasks, ite_self]
  rfl

/-- The teams that a cohort starts with. -/
def State.startTeams (s : State) (x : Grid) (slots : List (Nat × Nat)) : AMap Team :=
  (((teamsOf x.roles).zip slots).zipIdx).map (fun e => (e.2, s.startTeam x e.1.1.1 e.1.1.2 e.1.2.1 e.1.2.2))

/-- The task that a cohort starts as. -/
def State.startTask (s : State) (g : Nat) (x : Grid) (r : Retry) (core base frame : Nat) (slots : List (Nat × Nat)) : Task :=
  { ctx := x.ctx, grid := g, index := r.index, core := core, base := base, frame := frame, priority := x.record.priority
    scratchSize := x.record.scratch, scratch := [], bars := [], commits := 0, version := [], messages := [], taken := []
    retries := r.retries, teams := s.startTeams x slots
    leads := (((teamsOf x.roles).zip slots).zipIdx).filterMap (fun e => (startLead x e.1.1.1 e.1.1.2 r.index).map (fun l => (e.2, l)))
    failing := none, primary := false, resident := true
    finished := false, waitingSince := none, ticket := none, ticketQ := [], touched := [], partials := [] }

theorem State.started_start : (s.start g x r tid core base frame slots).Started tid (s.startTask g x r core base frame slots) := by
  have placed : (s.setTask tid (s.startTask g x r core base frame slots)).Started tid (s.startTask g x r core base frame slots) :=
    ⟨_, by rw [State.task?_setTask, if_pos rfl], rfl, fun n t0 ht => ⟨t0, ht, rfl⟩⟩
  have spilled := State.Started.foldl (fun s (f : Nat × Team) hs => hs.spillTeam f.1) (s.startTeams x slots) _ placed
  refine State.Started.stopNew (spilled.of_tasks ?_)
  simp only [State.noteDispatch_tasks, State.setGrid_tasks, State.setCreg, State.setReg_tasks]
  split
  · exact State.addAnchor_tasks _ _ _ _ _
  · rfl

theorem AMap.find_zipIdx {α β : Type} {f : α → β} (ys : List α) (i n : Nat) :
    AMap.find ((ys.zipIdx i).map (fun e => (e.2, f e.1))) (i + n) = ys[n]?.map f := by
  induction ys generalizing i n with
  | nil => rfl
  | cons y ys ih =>
    rw [List.zipIdx_cons, List.map_cons, AMap.find]
    cases n with
    | zero => rw [if_pos (Nat.add_zero i).symm]; rfl
    | succ n =>
      rw [if_neg (by omega), show i + (n + 1) = i + 1 + n by omega, ih]
      rfl

/-- A grid of one role starts its teams in the order of their numbers. -/
theorem State.find_startTeams {q : Role} {e : Nat × Nat} (hq : x.roles = [q]) (hn : n < q.teams) (he : slots[n]? = some e) :
    AMap.find (s.startTeams x slots) n = some { Team.start .kernel 0 n q.groups q.budget (s.entryOf x 0 q) x.md with
      partition := e.1, slot := e.2 } := by
  have hteams : (teamsOf x.roles)[n]? = some (0, n) := by
    simp [teamsOf, hq, span_eq_range', List.range'_one, hn]
  have hrole : x.roles[0]? = some q := by rw [hq]; rfl
  have hzip : ((teamsOf x.roles).zip slots)[n]? = some ((0, n), e) := by
    rw [List.getElem?_zip_eq_some]
    exact ⟨hteams, he⟩
  have hfind := AMap.find_zipIdx (f := fun e : (Nat × Nat) × Nat × Nat => s.startTeam x e.1.1 e.1.2 e.2.1 e.2.2)
    ((teamsOf x.roles).zip slots) 0 n
  rw [Nat.zero_add, hzip] at hfind
  refine hfind.trans ?_
  simp only [Option.map_some, State.startTeam, hrole]

/-- Each team starts at its role's entry on its partition, with every lane of its groups active (R197). -/
theorem State.start_team {q : Role} {e : Nat × Nat} (hq : x.roles = [q]) (hn : n < q.teams) (he : slots[n]? = some e) :
    ∃ k t, (s.start g x r tid core base frame slots).task? tid = some k ∧ k.core = core ∧ k.index = r.index ∧
      k.version = [] ∧ k.commits = 0 ∧ k.resident = true ∧ AMap.find k.teams n = some t ∧ t.partition = e.1 ∧ t.slot = e.2 ∧
      t.role = 0 ∧ t.index = n ∧ t.pc = s.entryOf x 0 q ∧ t.md = x.md ∧
      (∀ l < 1024, t.mask.getLsbD l = decide (l < 32 * q.groups)) ∧ t.v = [] ∧ t.k = [] ∧ t.hold = .none ∧ t.ended = false := by
  obtain ⟨k, hk, hrest, hteams⟩ :=
    s.started_start (g := g) (x := x) (r := r) (tid := tid) (core := core) (base := base) (frame := frame) (slots := slots)
  obtain ⟨t, ht, hlike⟩ := hteams n _ (State.find_startTeams hq hn he)
  have ofTask {α : Type} (f : Task → α) := congrArg f hrest
  have ofTeam {α : Type} (f : Team → α) := congrArg f hlike
  refine ⟨k, t, hk, ofTask Task.core, ofTask Task.index, ofTask Task.version, ofTask Task.commits, ofTask Task.resident, ht,
    ofTeam Team.partition, ofTeam Team.slot, ofTeam Team.role, ofTeam Team.index, ofTeam Team.pc, ofTeam Team.md, fun l hl => ?mask,
    ofTeam Team.v, ofTeam Team.k, ofTeam Team.hold, ofTeam Team.ended⟩
  case mask =>
    have hmask : t.mask = (Team.start .kernel 0 n q.groups q.budget (s.entryOf x 0 q) x.md).mask := ofTeam Team.mask
    rw [hmask, Team.start_mask _ _ _ _ _ _ hl]

end Start

end Sys2Proof.Machine
end

section
/-!
SUPPORT. Cohorts end (R198, R259) and fail (R261 to R263, R408).
-/

namespace Sys2Proof.Machine

section Arms
variable {s : State} {task : Nat}

theorem exec_cohortEnd : exec (.cohortEnd task) s = execCohortEnd task s := by rfl
theorem exec_taskFail : exec (.taskFail task) s = execTaskFail task s := by rfl

end Arms

/-! ## What the end of a task leaves -/

section Leaves
variable {s s' s'' : State} {c g : Nat} {x : Grid}

/-- Memory, the tasks and the stamp are as they were. -/
structure State.Leaves (s' s : State) : Prop where
  mem : s'.mem = s.mem
  tasks : s'.tasks = s.tasks
  stamp : s'.stamp = s.stamp

theorem State.Leaves.trans (h : s''.Leaves s') (h' : s'.Leaves s) : s''.Leaves s :=
  ⟨h.mem.trans h'.mem, h.tasks.trans h'.tasks, h.stamp.trans h'.stamp⟩

theorem State.checkDone_leaves : (s.checkDone c).Leaves s := by
  unfold State.checkDone
  split <;> exact ⟨rfl, rfl, rfl⟩

theorem State.grid?_checkDone {n : Nat} : (s.checkDone c).grid? n = s.grid? n := by
  unfold State.checkDone
  split <;> rfl

/-- A context without an open block has none to write (R377). -/
theorem State.foldl_flushBlock_of_no_block (h : ∀ b ∈ s.log.blocks, b.ctx ≠ c) (vs : List Nat) :
    vs.foldl (fun s v => s.flushBlock v c) s = s := by
  induction vs with
  | nil => rfl
  | cons v vs ih =>
    have hnone : s.log.blocks.find? (fun b => b.surveyor = v && b.ctx = c) = none := by
      simp only [List.find?_eq_none, Bool.and_eq_true, decide_eq_true_eq, not_and]
      exact fun b hb _ => h b hb
    rw [List.foldl_cons, State.flushBlock, hnone]
    exact ih

theorem State.flushCtx_of_no_block (h : ∀ b ∈ s.log.blocks, b.ctx ≠ c) : s.flushCtx c = s := State.foldl_flushBlock_of_no_block h _

theorem State.openCheck_leaves : (s.openCheck c).Leaves s := by
  simp only [State.openCheck]
  split <;> exact ⟨rfl, rfl, rfl⟩

theorem State.reachCheck_leaves (hx : s.grid? g = some x) (h : ∀ b ∈ s.log.blocks, b.ctx ≠ x.ctx) : (s.reachCheck g).Leaves s := by
  simp only [State.reachCheck, hx, State.flushCtx_of_no_block h]
  exact State.openCheck_leaves.trans ⟨rfl, rfl, rfl⟩

theorem State.reachCheck_mem (hx : s.grid? g = some x) : (s.reachCheck g).mem = (s.flushCtx x.ctx).mem := by
  simp only [State.reachCheck, hx, State.openCheck_leaves.mem, State.setGrid_mem]

theorem State.endGrid_leaves : (s.endGrid g).Leaves s := by
  unfold State.endGrid
  cases s.grid? g with
  | none => exact ⟨rfl, rfl, rfl⟩
  | some x =>
    dsimp only
    cases x.packet with
    | none => cases x.parent <;> exact ⟨rfl, rfl, rfl⟩
    | some n => cases x.parent <;> cases x.failed <;> exact ⟨rfl, rfl, rfl⟩

/-- What follows the end of a run writes at most the open blocks of the grid's context, and none once the run has failed. -/
theorem State.afterRun_leaves (hx : s.grid? g = some x) (h : x.failed = true ∨ ∀ b ∈ s.log.blocks, b.ctx ≠ x.ctx) :
    (s.afterRun g).Leaves s := by
  simp only [State.afterRun, hx]
  split_ifs with _ _ _ hf
  · exact ⟨rfl, rfl, rfl⟩
  · exact ⟨rfl, rfl, rfl⟩
  · exact ⟨rfl, rfl, rfl⟩
  · exact State.endGrid_leaves
  · exact State.reachCheck_leaves hx (h.resolve_left hf)

theorem State.grid?_modGrid {f : Grid → Grid} {n : Nat} : (s.modGrid g f).grid? n = if n = g then (s.grid? g).map f else s.grid? n := by
  unfold State.modGrid
  by_cases h : n = g
  · subst h; cases hk : s.grid? n <;> simp [hk]
  · cases hk : s.grid? g <;> simp [h]

theorem State.modGrid_leaves {f : Grid → Grid} : (s.modGrid g f).Leaves s :=
  ⟨State.modGrid_mem _ _ _, State.modGrid_tasks _ _ _, State.modGrid_stamp _ _ _⟩

theorem State.countEnded_leaves {n : Nat} {failed : Bool} (hx : s.grid? g = some x)
    (h : failed = true ∨ ∀ b ∈ s.log.blocks, b.ctx ≠ x.ctx) : (s.countEnded g n failed).Leaves s := by
  have hg : (s.modGrid g (fun x => { x with ended := x.ended + n, failed := x.failed || failed })).grid? g =
      some { x with ended := x.ended + n, failed := x.failed || failed } := by rw [State.grid?_modGrid, if_pos rfl, hx]; rfl
  refine (State.afterRun_leaves hg ?_).trans State.modGrid_leaves
  rw [State.modGrid_log]
  exact h.imp_left fun hf => by rw [hf, Bool.or_true]

end Leaves

/-! ## Gangs -/

section Gangs
variable {s s' : State} {tid g : Nat} {k k' y : Task}

theorem State.recordOf_of_grids (h : s'.grids = s.grids) : s'.recordOf y = s.recordOf y := by
  simp only [State.recordOf, State.grid?, h]

theorem State.recordOf_modGrid {f : Grid → Grid} (hf : ∀ x, (f x).record = x.record) : (s.modGrid g f).recordOf y = s.recordOf y := by
  simp only [State.recordOf, State.grid?_modGrid]
  split
  case isTrue h =>
    rw [h]
    cases s.grid? g with
    | none => rfl
    | some x => exact congrArg some (hf x)
  case isFalse => rfl

theorem State.gangNo_congr (h : ∀ y, s'.recordOf y = s.recordOf y) : s'.gangNo y = s.gangNo y := by
  simp only [State.gangNo, State.gangSize, h]

theorem State.gangCount_congr (h : ∀ y, s'.recordOf y = s.recordOf y) : s'.gangCount y = s.gangCount y := by
  simp only [State.gangCount, h, State.gangNo_congr h]

theorem State.gangTasks_congr (ht : s'.tasks = s.tasks) (h : ∀ y, s'.recordOf y = s.recordOf y) : s'.gangTasks y = s.gangTasks y := by
  simp only [State.gangTasks, ht, State.gangNo_congr h]

theorem AMap.filter_place {α : Type} {p : Nat × α → Bool} {m : AMap α} {n : Nat} {v : α} (hv : p (n, v) = true)
    (hm : ∀ e ∈ m, p e = false) : (AMap.place m n v).filter p = [(n, v)] := by
  have hnone {m : AMap α} (hm : ∀ e ∈ m, p e = false) : m.filter p = [] :=
    List.filter_eq_nil_iff.mpr fun e he => by rw [hm e he]; exact Bool.false_ne_true
  induction m with
  | nil => exact List.filter_cons_of_pos hv
  | cons e m ih =>
    obtain ⟨he, hrest⟩ := List.forall_mem_cons.mp hm
    rw [AMap.place]
    split
    · rw [List.filter_cons_of_pos hv, hnone hm]
    · rw [List.filter_cons_of_neg (by rw [he]; exact Bool.false_ne_true), ih hrest]

theorem AMap.erase_set {α : Type} {m : AMap α} {n : Nat} {v : α} : AMap.erase (AMap.set m n v) n = AMap.erase m n :=
  AMap.erase_place fun e he => (AMap.mem_erase m n e he).2

theorem AMap.set_set {α : Type} {m : AMap α} {n : Nat} {v w : α} : AMap.set (AMap.set m n v) n w = AMap.set m n w := by
  rw [AMap.set, AMap.erase_set, AMap.set]

theorem AMap.find_isSome_of_mem {α : Type} {m : AMap α} {n : Nat} (h : n ∈ m.map (·.1)) : (AMap.find m n).isSome = true := by
  induction m with
  | nil => exact absurd h List.not_mem_nil
  | cons e m ih =>
    rw [AMap.find]
    split
    case isTrue => rfl
    case isFalse hne => exact ih ((List.mem_cons.mp h).resolve_left (Ne.symm hne))

/-- A task alone in its gang stays so as it is stored. -/
theorem State.gangTasks_stored (h : s.gangTasks k = [(tid, k)]) (ht : s'.tasks = AMap.set s.tasks tid k')
    (hr : ∀ y, s'.recordOf y = s.recordOf y) (hg : k'.grid = k.grid) (hi : k'.index = k.index) : s'.gangTasks k = [(tid, k')] := by
  rw [State.gangTasks, ht]
  refine AMap.filter_place ?_ fun e he => ?_
  · simp only [State.gangNo, State.gangSize, State.recordOf, hg, hi, decide_true, Bool.and_self]
  · obtain ⟨hmem, hne⟩ := AMap.mem_erase _ _ _ he
    by_contra hp
    rw [Bool.not_eq_false] at hp
    simp only [State.gangNo_congr hr] at hp
    have hin : e ∈ s.gangTasks k := List.mem_filter.mpr ⟨hmem, hp⟩
    rw [h, List.mem_singleton] at hin
    exact hne (congrArg Prod.fst hin)

/-- Dropping a gang takes tasks and barriers only. -/
theorem State.dropGang_rest : (s.dropGang k).mem = s.mem ∧ (s.dropGang k).stamp = s.stamp ∧ (s.dropGang k).log = s.log ∧
    (s.dropGang k).regs = s.regs ∧ (s.dropGang k).replay = s.replay ∧ (s.dropGang k).grids = s.grids := by
  have h := State.foldl_keeps (f := fun z : State => (z.mem, z.stamp, z.log, z.regs, z.replay, z.grids))
    (step := fun z (e : Nat × Task) => z.dropTask e.1) (fun z e => rfl) (s.gangTasks k) s
  simp only [Prod.mk.injEq] at h
  exact h

theorem State.task?_dropGang (h : s.gangTasks k = [(tid, k')]) : (s.dropGang k).task? tid = none := by
  rw [State.dropGang, h]
  exact (AMap.find_erase _ _ _).trans (if_pos rfl)

end Gangs

/-! ## The end of a cohort (R198, R259) -/

section Ends
variable {s s' : State} {tid : Nat} {k : Task} {x : Grid}

theorem State.hitVersion_of_no_sigs (h : s.sigs = []) : s.hitVersion tid = s := by
  unfold State.hitVersion State.hit
  split <;> simp only [h, List.filter_nil, List.foldl_nil]

/-- In a context that is neither recorded nor replayed the chunks of a task's teams end at once: of the state its teams alone change. -/
theorem endChunks_quiet {stamp : Nat} (os : List Nat) (hk : s.task? tid = some k) (hq : s.Quiet k.ctx)
    (ho : ∀ o ∈ 0 :: os, (AMap.find k.teams o).isSome = true) :
    ∃ s' t ts, endChunks tid stamp os s = .go s' t ∧ s'.task? tid = some { k with teams := ts } ∧ s' = { s with tasks := s'.tasks } ∧
      AMap.erase s'.tasks tid = AMap.erase s.tasks tid := by
  induction os generalizing s k with
  | nil =>
    obtain ⟨t, ht⟩ := Option.isSome_iff_exists.mp (ho 0 List.mem_cons_self)
    have hteam : s.team? (.team tid 0) = some t := by rw [State.team?, hk, Option.bind_some, ht]
    exact ⟨s, t, k.teams, by rw [endChunks, hteam], hk, rfl, rfl⟩
  | cons o os ih =>
    obtain ⟨t, ht⟩ := Option.isSome_iff_exists.mp (ho o (by simp))
    have hteam : s.team? (.team tid o) = some t := by rw [State.team?, hk, Option.bind_some, ht]
    let u : Team := { t with chunk := { last := t.retired, begun := t.retired } }
    have htasks := State.tasks_setTeam (ord := o) (v := u) hk
    have hk1 : (s.setTeam (.team tid o) u).task? tid = some { k with teams := AMap.set k.teams o u } := by
      rw [State.task?, htasks, AMap.find_set, if_pos rfl]
    have hq1 : (s.setTeam (.team tid o) u).Quiet k.ctx := hq.of_eq (State.modTask_ctxs _ _ _) (State.setTeam_replay _ _ _)
    obtain ⟨s', t', ts, hend, hk', hrest, herase⟩ := ih hk1 hq1 fun n hn => by
      rw [AMap.find_set]
      split
      · rfl
      · exact ho n (List.mem_cons.mpr ((List.mem_cons.mp hn).imp_right (List.mem_cons_of_mem o)))
    refine ⟨s', t', ts, ?_, hk', ?_, ?_⟩
    · rw [endChunks, hteam]
      simp only [endChunk_quiet (s := s) (p := .team tid o) (t := t) (by rwa [State.ctxOf_team hk])]
      exact hend
    · have hset : s.setTeam (.team tid o) u = { s with tasks := (s.setTeam (.team tid o) u).tasks } := by
        rw [State.setTeam, State.modTask, hk]
        rfl
      exact hrest.trans (congrArg (fun z : State => { z with tasks := s'.tasks }) hset)
    · rw [herase, htasks, AMap.erase_set]

theorem State.replicas_of_regs (h : s'.regs = s.regs) : s'.replicas = s.replicas := by
  unfold State.replicas State.reg
  rw [h]

theorem State.mirror_of_no_replicas {pa n : Nat} (h : s.replicas = []) : s.mirror pa n = s := by
  simp only [State.mirror, h, List.isEmpty_nil, if_true]

theorem State.applyNow_of_no_replicas {w : VWrite} (h : s.replicas = []) :
    (s.applyNow w).mem = applyWrite s.mem w ∧ (s.applyNow w).regs = s.regs := by
  rw [State.applyNow, State.atHome, State.mirror_of_no_replicas]
  · exact ⟨rfl, rfl⟩
  · exact (State.replicas_of_regs rfl).trans h

/-- A version goes to memory write by write where nothing is replicated. -/
theorem State.publish_mem (v : List VWrite) (h : s.replicas = []) : (s.publish v).mem = v.foldl applyWrite s.mem := by
  change (v.foldl State.applyNow s).mem = _
  induction v generalizing s with
  | nil => rfl
  | cons w v ih =>
    obtain ⟨hmem, hregs⟩ := State.applyNow_of_no_replicas (w := w) h
    rw [List.foldl_cons, List.foldl_cons, ih ((State.replicas_of_regs hregs).trans h), hmem]

/-- What a version's writes leave: the tasks, the requests for snapshots, and what the end of a cohort goes by. -/
def State.beside (s : State) : AMap Task × List Nat × AMap Grid × Nat × LogRing × AMap Word64 × Replay :=
  (s.tasks, s.asked, s.grids, s.stamp, s.log, s.regs, s.replay)

theorem State.publish_beside (v : List VWrite) : (s.publish v).beside = s.beside := by
  refine State.foldl_keeps (f := State.beside) (fun z w => ?_) v s
  unfold State.applyNow State.atHome State.mirror
  split <;> rfl

/-- A commit without messages, and without a snapshot asked for, publishes the version under the next stamp. -/
theorem State.commitTask_of_plain (hk : s.task? tid = some k) (hm : k.messages = []) (ha : tid ∉ s.asked) :
    (s.commitTask tid).1 = (s.drawStamp.1.publish k.version).setTask tid
      { k with version := [], messages := [], taken := [], commits := k.commits + 1 } := by
  have hk' : s.drawStamp.1.task? tid = some k := hk
  have hasked : ((s.drawStamp.1.publish k.version).setTask tid
      { k with version := [], messages := [], taken := [], commits := k.commits + 1 }).asked.contains tid = false := by
    have h : (s.drawStamp.1.publish k.version).asked = s.asked :=
      congrArg (fun z => z.2.1) (State.publish_beside (s := s.drawStamp.1) k.version)
    simpa only [State.setTask_asked, h, List.contains_eq_mem, decide_eq_false_iff_not] using ha
  simp only [State.commitTask, hk', hm, List.foldl_nil, State.snapRegisters, hasked, Bool.false_eq_true, if_false]

/-- What is left once a task whose chunks have ended has committed, and given back what it holds. -/
def State.committed (s : State) (tid : Nat) (k : Task) : State :=
  (((s.commitTask tid).1.freeTask tid k).modTask tid (fun k => { k with finished := true })).modGrid k.grid (fun x => x.merge k)

/-- A task as its end leaves it in a gang that goes on. -/
def Task.over (k : Task) : Task :=
  { k with version := [], messages := [], taken := [], commits := k.commits + 1, finished := true }

section Committed
variable {q : Task}

theorem State.freeTask_mem : (s.freeTask tid q).mem = s.mem := by
  simp only [State.freeTask, State.modCore, State.modCtx, State.setCore_mem, State.setCtx_mem]

theorem State.freeTask_beside : (s.freeTask tid q).beside = s.beside := by
  simp only [State.beside, State.freeTask, State.modCore, State.modCtx, State.setCore_tasks, State.setCore_asked, State.setCore_grids,
    State.setCore_stamp, State.setCore_log, State.setCore_regs, State.setCore_replay, State.setCtx_tasks, State.setCtx_asked,
    State.setCtx_grids, State.setCtx_stamp, State.setCtx_log, State.setCtx_regs, State.setCtx_replay]

theorem State.freeTask_commitTask (hk : s.task? tid = some k) (hm : k.messages = []) (ha : tid ∉ s.asked) :
    ((s.commitTask tid).1.freeTask tid q).beside =
      (AMap.set s.tasks tid { k with version := [], messages := [], taken := [], commits := k.commits + 1 }, s.asked, s.grids,
        s.stamp + 1, s.log, s.regs, s.replay) := by
  have h : (s.drawStamp.1.publish k.version).beside = (s.tasks, s.asked, s.grids, s.stamp + 1, s.log, s.regs, s.replay) :=
    State.publish_beside k.version
  simp only [State.beside, Prod.mk.injEq] at h
  obtain ⟨htasks, hasked, hgrids, hstamp, hlog, hregs, hreplay⟩ := h
  rw [State.freeTask_beside, State.commitTask_of_plain hk hm ha]
  simp only [State.beside, State.setTask, htasks, hasked, hgrids, hstamp, hlog, hregs, hreplay]

theorem State.committed_mem (hk : s.task? tid = some k) (hm : k.messages = []) (ha : tid ∉ s.asked) (hr : s.replicas = []) :
    (s.committed tid q).mem = k.version.foldl applyWrite s.mem := by
  rw [State.committed, State.modGrid_mem, State.modTask_mem, State.freeTask_mem, State.commitTask_of_plain hk hm ha, State.setTask_mem]
  exact State.publish_mem (s := s.drawStamp.1) k.version hr

theorem State.committed_tasks (hk : s.task? tid = some k) (hm : k.messages = []) (ha : tid ∉ s.asked) :
    (s.committed tid q).tasks = AMap.set s.tasks tid k.over := by
  have h := State.freeTask_commitTask (q := q) hk hm ha
  simp only [State.beside, Prod.mk.injEq] at h
  obtain ⟨htasks, -⟩ := h
  rw [State.committed, State.modGrid_tasks, State.modTask, State.task?, htasks, AMap.find_set, if_pos rfl]
  simp only [State.setTask, htasks, AMap.set_set]
  rfl

theorem State.committed_rest (hk : s.task? tid = some k) (hm : k.messages = []) (ha : tid ∉ s.asked) :
    (s.committed tid q).stamp = s.stamp + 1 ∧ (s.committed tid q).log = s.log ∧ (s.committed tid q).regs = s.regs ∧
      (s.committed tid q).replay = s.replay ∧ ∀ g, (s.committed tid q).grid? g = (s.modGrid q.grid (fun x => x.merge q)).grid? g := by
  have h := State.freeTask_commitTask (q := q) hk hm ha
  simp only [State.beside, Prod.mk.injEq] at h
  obtain ⟨-, -, hgrids, hstamp, hlog, hregs, hreplay⟩ := h
  refine ⟨?stamp, ?log, ?regs, ?replay, fun g => ?grids⟩
  case stamp => rw [State.committed, State.modGrid_stamp, State.modTask_stamp, hstamp]
  case log => rw [State.committed, State.modGrid_log, State.modTask_log, hlog]
  case regs => rw [State.committed, State.modGrid_regs, State.modTask_regs, hregs]
  case replay => rw [State.committed, State.modGrid_replay, State.modTask_replay, hreplay]
  case grids =>
    have hgrids' : (((s.commitTask tid).1.freeTask tid q).modTask tid (fun k => { k with finished := true })).grids = s.grids := by
      rw [State.modTask_grids, hgrids]
    rw [State.committed, State.grid?_modGrid, State.grid?_modGrid]
    simp only [State.grid?, hgrids']

end Committed

/-- The state after the commit at the end of a task alone in its gang, before its grid counts it as ended. -/
structure State.Ended (z s : State) (tid : Nat) (k : Task) (x : Grid) : Prop where
  mem : z.mem = k.version.foldl applyWrite s.mem
  gone : z.task? tid = none
  stamp : z.stamp = s.stamp + 1
  log : z.log = s.log
  regs : z.regs = s.regs
  replay : z.replay = s.replay
  grid : z.grid? k.grid = some (x.merge k)

/-- What the statement takes of a cohort that ends: its task is alone in its gang, its teams are over, and nothing but its version is to be
published. -/
structure State.OverAlone (s : State) (tid : Nat) (k : Task) (x : Grid) : Prop where
  task : s.task? tid = some k
  grid : s.grid? k.grid = some x
  gang : s.gangTasks k = [(tid, k)]
  count : s.gangCount k = 1
  sigs : s.sigs = []
  replicas : s.replicas = []
  ended : s.cohortOver tid k = true
  first : (AMap.find k.teams 0).isSome = true
  quiet : s.Quiet k.ctx
  messages : k.messages = []
  asked : tid ∉ s.asked

/-- Such a cohort commits and is gone, and its grid counts it. -/
theorem exec_cohortEnd_alone (h : s.OverAlone tid k x) :
    ∃ z : State, z.Ended s tid k x ∧ exec (.cohortEnd tid) s = .next ((z.countEnded k.grid 1 false).checkDone k.ctx) := by
  obtain ⟨hk, hx, hg, hc, hsigs, hr, ho, ht, hq, hm, ha⟩ := h
  have hteams : ∀ o ∈ 0 :: k.teams.map (·.1), (AMap.find k.teams o).isSome = true :=
    List.forall_mem_cons.mpr ⟨ht, fun o ho => AMap.find_isSome_of_mem ho⟩
  obtain ⟨s1, t1, ts, hend, hk1, hrest, herase⟩ := endChunks_quiet (stamp := s.stamp + 1) _ hk hq hteams
  have ha1 : tid ∉ s1.asked := by rwa [hrest]
  have hr1 : s1.replicas = [] := (State.replicas_of_regs (by rw [hrest])).trans hr
  obtain ⟨hstamp, hlog, hregs, hreplay, hgrid⟩ := State.committed_rest (q := k) hk1 hm ha1
  have hrec (y : Task) : (s1.committed tid k).recordOf y = s.recordOf y := by
    rw [State.recordOf, hgrid, ← State.recordOf, State.recordOf_modGrid (f := fun x => x.merge k) fun x => rfl, hrest]
    rfl
  have hgang : (s1.committed tid k).gangTasks k = [(tid, Task.over { k with teams := ts })] := by
    refine State.gangTasks_stored hg ?_ hrec rfl rfl
    rw [State.committed_tasks hk1 hm ha1, AMap.set, AMap.set, herase]
  have hcount := (State.gangCount_congr hrec).trans hc
  obtain ⟨dmem, dstamp, dlog, dregs, dreplay, dgrids⟩ := State.dropGang_rest (s := s1.committed tid k) (k := k)
  refine ⟨(s1.committed tid k).dropGang k, ⟨?mem, State.task?_dropGang hgang, ?stamp, ?log, ?regs, ?replay, ?grid⟩, ?exec⟩
  case mem => rw [dmem, State.committed_mem hk1 hm ha1 hr1, hrest]
  case stamp => rw [dstamp, hstamp, hrest]
  case log => rw [dlog, hlog, hrest]
  case regs => rw [dregs, hregs, hrest]
  case replay => rw [dreplay, hreplay, hrest]
  case grid =>
    have hx1 : s1.grid? k.grid = some x := by rw [hrest]; exact hx
    rw [State.grid?, dgrids, ← State.grid?, hgrid, State.grid?_modGrid, if_pos rfl, hx1, Option.map_some]
  case exec =>
    unfold State.committed at hgang hcount ⊢
    simp only [exec_cohortEnd, execCohortEnd, hk, ho, State.hitVersion_of_no_sigs hsigs, hend, Bool.not_true, Bool.false_eq_true,
      if_false, hgang, hcount, List.length_singleton, List.all_cons, List.all_nil, Task.over, decide_true, Bool.and_self, if_true]

/-- What the statement says of the end of one cohort. -/
def State.EndsCohort (s : State) (tid : Nat) (k : Task) : Prop :=
  ∃ s', exec (.cohortEnd tid) s = .next s' ∧ s'.mem = k.version.foldl applyWrite s.mem ∧ s'.task? tid = none ∧ s'.stamp = s.stamp + 1

/-- Where the grid is its task's context's own, and that context has no open block, the end is as the statement says. -/
theorem State.endsCohort_of_own_context (h : s.OverAlone tid k x) (hb : ∀ b ∈ s.log.blocks, b.ctx ≠ k.ctx) (hown : x.ctx = k.ctx) :
    s.EndsCohort tid k := by
  obtain ⟨z, hz, hexec⟩ := exec_cohortEnd_alone h
  have hblocks : ∀ b ∈ z.log.blocks, b.ctx ≠ (x.merge k).ctx := by
    rw [hz.log]
    exact hown ▸ hb
  have hleaves := (State.checkDone_leaves (c := k.ctx)).trans (State.countEnded_leaves (n := 1) (failed := false) hz.grid (.inr hblocks))
  exact ⟨_, hexec, hleaves.mem.trans hz.mem, (congrArg (AMap.find · tid) hleaves.tasks).trans hz.gone, hleaves.stamp.trans hz.stamp⟩

end Ends

/-! ## Failure (R261 to R263, R408) -/

section Fails
variable {s : State} {tid : Nat} {k : Task} {x : Grid}

/-- What is left once a task alone in its gang is stopped and dropped, and its grid places no more of the gang. -/
def State.stopped (s : State) (tid : Nat) (k : Task) : State :=
  ((s.stopMember (tid, k)).dropGang k).modGrid k.grid (fun x => x.dropWaiting [s.gangNo k * s.gangSize k])

theorem exec_taskFail_waiting (hk : s.task? tid = some k) (hg : s.gangTasks k = [(tid, k)])
    (hw : s.recordWaits tid k = true ∨ k.loading = true) : exec (.taskFail tid) s = .next s := by
  have hwaits : (s.recordWaits tid k || k.loading) = true := Bool.or_eq_true_iff.mpr hw
  simp only [exec_taskFail, execTaskFail, hk, hg, List.any_cons, hwaits, Bool.true_or, Bool.or_true, if_true]

/-- A task alone in its gang whose failure is recorded, and whose loads are complete, is stopped; it is placed again or counted as ended. -/
theorem exec_taskFail_alone (hk : s.task? tid = some k) (hg : s.gangTasks k = [(tid, k)]) (hc : s.gangCount k = 1)
    (hf : s.failingGang k = true) (hp : k.primary = true) (hn : k.finished = false) (hw : s.recordWaits tid k = false)
    (hl : k.loading = false) :
    exec (.taskFail tid) s = .next (State.checkDone (if s.wouldRetry k = true then
        (s.stopped tid k).modGrid k.grid (fun x => x.addRetry { index := s.gangNo k * s.gangSize k, retries := k.retries + 1 })
      else (s.stopped tid k).countEnded k.grid 1 true) k.ctx) := by
  have hindices : s.gangIndices k = [s.gangNo k * s.gangSize k] := by rw [State.gangIndices, hc]; rfl
  by_cases ha : s.wouldRetry k = true
  all_goals
    simp only [exec_taskFail, execTaskFail, hk, hg, hf, hw, hl, hp, hn, ha, hindices, State.stopped, List.any_cons, List.any_nil,
      List.foldl_cons, List.foldl_nil, List.filter_cons, List.filter_nil, List.length_nil, List.length_singleton, Nat.sub_zero,
      Bool.not_true, Bool.or_self, Bool.true_or, Bool.false_eq_true, if_false, if_true, ite_self]

theorem State.stopMember_of_unfinished (hn : k.finished = false) :
    (s.stopMember (tid, k)).mem = s.mem ∧ (s.stopMember (tid, k)).tasks = s.tasks ∧ (s.stopMember (tid, k)).grids = s.grids := by
  simp only [State.stopMember, hn, State.freeTask, State.giveBack, State.modCore, State.modCtx, State.setCore_mem, State.setCore_tasks,
    State.setCore_grids, State.setCtx_mem, State.setCtx_tasks, State.setCtx_grids, Bool.false_eq_true, if_false, and_self]

theorem State.stopped_spec (hx : s.grid? k.grid = some x) (hg : s.gangTasks k = [(tid, k)]) (hn : k.finished = false) :
    (s.stopped tid k).mem = s.mem ∧ (s.stopped tid k).task? tid = none ∧
      (s.stopped tid k).grid? k.grid = some (x.dropWaiting [s.gangNo k * s.gangSize k]) := by
  obtain ⟨hmem, htasks, hgrids⟩ := State.stopMember_of_unfinished (s := s) (tid := tid) hn
  have hgang : (s.stopMember (tid, k)).gangTasks k = [(tid, k)] :=
    (State.gangTasks_congr htasks fun y => State.recordOf_of_grids hgrids).trans hg
  obtain ⟨hmem', -, -, -, -, hgrids'⟩ := State.dropGang_rest (s := s.stopMember (tid, k)) (k := k)
  refine ⟨?mem, ?gone, ?grid⟩
  case mem => rw [State.stopped, State.modGrid_mem, hmem', hmem]
  case gone =>
    rw [State.task?, State.stopped, State.modGrid_tasks]
    exact State.task?_dropGang hgang
  case grid => rw [State.stopped, State.grid?_modGrid, if_pos rfl, State.grid?, hgrids', hgrids, ← State.grid?, hx, Option.map_some]

/-- Giving up a cohort leaves the others that wait. -/
theorem Grid.filter_dropWaiting {i : Nat} {p : Retry → Bool} (hp : ∀ r, p r = true → r.index ≠ i) :
    (x.dropWaiting [i]).retry.filter p = x.retry.filter p := by
  rw [Grid.dropWaiting, List.filter_filter]
  refine List.filter_congr fun r _ => ?_
  simpa only [List.contains_cons, List.contains_nil, Bool.or_false, Bool.and_eq_left_iff_imp, Bool.not_eq_true',
    beq_eq_false_iff_ne] using hp r

/-- A cohort placed again stands once in its grid's list, in the order of the indices (R355). -/
theorem Grid.retry_addRetry_dropWaiting {r : Retry} : ((x.dropWaiting [r.index]).addRetry r).retry =
    x.retry.filter (fun q => q.index < r.index) ++ [r] ++ x.retry.filter (fun q => r.index < q.index) := by
  have hlow := Grid.filter_dropWaiting (x := x) (i := r.index) (p := fun q => q.index < r.index)
    fun q hq => Nat.ne_of_lt (of_decide_eq_true hq)
  have hhigh := Grid.filter_dropWaiting (x := x) (i := r.index) (p := fun q => r.index < q.index)
    fun q hq => Nat.ne_of_gt (of_decide_eq_true hq)
  rw [Grid.addRetry, hlow, hhigh]

/-- A task that fails alone leaves memory and is gone; with budget left its cohort waits to be placed again. -/
theorem State.fails_alone (hk : s.task? tid = some k) (hx : s.grid? k.grid = some x) (hg : s.gangTasks k = [(tid, k)])
    (hc : s.gangCount k = 1) (hf : s.failingGang k = true) (hp : k.primary = true) (hn : k.finished = false)
    (hw : s.recordWaits tid k = false) (hl : k.loading = false) :
    ∃ s', exec (.taskFail tid) s = .next s' ∧ s'.mem = s.mem ∧ s'.task? tid = none ∧
      (s.wouldRetry k = true → ∃ y, s'.grid? k.grid = some y ∧
        let i := s.gangNo k * s.gangSize k
        y.retry = x.retry.filter (fun r => r.index < i) ++ [{ index := i, retries := k.retries + 1 }] ++
          x.retry.filter (fun r => i < r.index)) := by
  obtain ⟨hmem, hgone, hgrid⟩ := State.stopped_spec hx hg hn
  refine ⟨_, exec_taskFail_alone hk hg hc hf hp hn hw hl, ?_⟩
  by_cases ha : s.wouldRetry k = true
  case pos =>
    have hleaves := (State.checkDone_leaves (c := k.ctx)).trans (State.modGrid_leaves (s := s.stopped tid k) (g := k.grid)
      (f := fun x => x.addRetry { index := s.gangNo k * s.gangSize k, retries := k.retries + 1 }))
    rw [if_pos ha]
    refine ⟨hleaves.mem.trans hmem, by rw [State.task?, hleaves.tasks]; exact hgone, fun _ =>
      ⟨_, ?_, Grid.retry_addRetry_dropWaiting (r := { index := s.gangNo k * s.gangSize k, retries := k.retries + 1 })⟩⟩
    rw [State.grid?_checkDone, State.grid?_modGrid, if_pos rfl, hgrid, Option.map_some]
  case neg =>
    have hleaves := (State.checkDone_leaves (c := k.ctx)).trans (State.countEnded_leaves (n := 1) (failed := true) hgrid (.inl rfl))
    rw [if_neg ha]
    exact ⟨hleaves.mem.trans hmem, by rw [State.task?, hleaves.tasks]; exact hgone, fun h => absurd h ha⟩

end Fails

end Sys2Proof.Machine
end

section
/-!
SUPPORT. The end of a grid's last cohort writes the open blocks of the grid's context (R354, R377), which need not be the task's.
-/

namespace Sys2Proof.Machine

/-- The statement comes down to what it says of the end of a cohort. -/
theorem cohortsArePlacedAndEnd_iff : Obligations.CohortsArePlacedAndEnd ↔ ∀ (s : State) (tid : Nat) (k : Task) (x : Grid),
    s.OverAlone tid k x → (∀ b ∈ s.log.blocks, b.ctx ≠ k.ctx) → s.EndsCohort tid k := by
  unfold Obligations.CohortsArePlacedAndEnd
  constructor
  case mp =>
    intro ⟨_, h⟩ s tid k x ⟨hk, hx, hg, hc, hsigs, hr, ho, ht, hq, hm, ha⟩
    obtain ⟨t, ht⟩ := Option.isSome_iff_exists.mp ht
    exact (h s tid k x t hk hx hg hc hsigs hr).1 ho ht hq hm ha
  case mpr =>
    intro h
    refine ⟨fun s s' g tid frame core base n x r rs slots => ⟨exec_cohortPlace_first, fun e q hq hn _ he => State.start_team hq hn he,
      fun i => State.slotsFor_getElem?⟩, fun s tid k x t hk hx hg hc hsigs hr => ⟨fun ho ht hq hm ha => ?ends, ?fails, ?waits⟩⟩
    case ends => exact h s tid k x ⟨hk, hx, hg, hc, hsigs, hr, ho, Option.isSome_of_eq_some ht, hq, hm, ha⟩
    case fails => exact State.fails_alone hk hx hg hc
    case waits => exact fun _ => exec_taskFail_waiting hk hg

/-! ## A block of the grid's context (R354, R377) -/

section Blocks
variable {s s' : State} {tid g n : Nat} {k : Task} {x : Grid} {b : Block}

theorem State.poke_regs (pa : Nat) (data : List Byte) : (s.poke pa data).regs = s.regs := by
  unfold State.poke State.atHome State.mirror
  split <;> rfl

theorem State.poke_log (pa : Nat) (data : List Byte) : (s.poke pa data).log = s.log := by
  unfold State.poke State.atHome State.mirror
  split <;> rfl

theorem State.poke_mem {pa : Nat} {data : List Byte} (hr : s.replicas = []) : (s.poke pa data).mem = writeBytes s.mem pa data := by
  rw [State.poke, State.atHome, State.mirror_of_no_replicas]
  · rfl
  · exact (State.replicas_of_regs rfl).trans hr

/-- The header of the ring begins with the number of the next block (R380). -/
theorem State.readByte_writeLogHeader (hr : s.replicas = []) :
    readByte s.writeLogHeader.mem s.logBase = BitVec.ofNat 8 s.log.head := by
  have hfirst (rest : List Byte) : readByte (writeBytes s.mem s.logBase (toBytes 8 s.log.head ++ rest)) s.logBase =
      BitVec.ofNat 8 s.log.head := by
    have h := readByte_writeBytes_inside (toBytes 8 s.log.head ++ rest) s.mem s.logBase 0 (by rw [toBytes]; exact Nat.succ_pos _)
    rw [Nat.add_zero] at h
    exact h
  simp only [State.writeLogHeader, State.poke_mem hr, List.append_assoc, hfirst]

theorem State.logBase_of_regs (h : s'.regs = s.regs) : s'.logBase = s.logBase := by
  rw [State.logBase, State.reg, h]
  rfl

/-- A block that is written counts up the ring's head. -/
theorem State.readByte_closeBlock (hr : s.replicas = []) :
    readByte (s.closeBlock b).mem s.logBase = BitVec.ofNat 8 (s.log.head + 1) := by
  have header (y : State) (hregs : y.regs = s.regs) (hhead : y.log.head = s.log.head + 1) :
      readByte y.writeLogHeader.mem s.logBase = BitVec.ofNat 8 (s.log.head + 1) := by
    rw [← State.logBase_of_regs hregs, State.readByte_writeLogHeader ((State.replicas_of_regs hregs).trans hr), hhead]
  rw [State.closeBlock, State.putBlock]
  exact header _ (State.poke_regs _ _) rfl

/-- No block of a context is left once its one open block is written. -/
theorem State.closeBlock_blocks (hb : s.log.blocks = [b]) : (s.closeBlock b).log.blocks = [] := by
  have hset : (s.setBlock b.surveyor b.ctx none).log.blocks = [] := by
    simp [State.setBlock, hb]
  simp only [State.closeBlock, State.putBlock, State.writeLogHeader, State.poke_log, LogRing.prune, hset]

/-- The one open block of a context is written as its blocks are. -/
theorem State.flushCtx_of_block (hb : s.log.blocks = [b]) (hs : b.surveyor = 0) (hh : s.ringHeld = false) :
    s.flushCtx b.ctx = s.closeBlock b := by
  have hfind : s.log.blocks.find? (fun x => x.surveyor = 0 && x.ctx = b.ctx) = some b := by simp [hb, hs]
  have hfirst : s.flushBlock 0 b.ctx = s.closeBlock b := by
    simp only [State.flushBlock, hfind, State.writeBlock, hh, Bool.not_false, if_true]
  rw [State.flushCtx, span, List.foldl_cons, hfirst]
  exact State.foldl_flushBlock_of_no_block (by simp [State.closeBlock_blocks hb]) _

/-- A grid whose last `n` cohorts end has no runs and no sums left. -/
structure Grid.EndsWith (x : Grid) (n : Nat) : Prop where
  going : x.complete = false
  started : x.started = true
  handed : x.handed = true
  cohorts : x.record.cohorts ≤ x.ended + n
  early : x.atCheck = false
  sound : x.failed = false
  runs : x.runs ≤ x.run + 1
  sums : x.sums = []

/-- With its last cohort it comes to its phase check, before which the blocks of its context are written. -/
theorem State.countEnded_of_last (hx : s.grid? g = some x) (hlast : x.EndsWith n) :
    (s.countEnded g n false).mem = ((s.modGrid g (fun x => { x with ended := x.ended + n, failed := x.failed || false })).flushCtx x.ctx).mem := by
  have hg : (s.modGrid g (fun x => { x with ended := x.ended + n, failed := x.failed || false })).grid? g =
      some { x with ended := x.ended + n, failed := x.failed || false } := by rw [State.grid?_modGrid, if_pos rfl, hx]; rfl
  have hcheck := State.reachCheck_mem hg
  obtain ⟨hc, hs, hh, he, ha, hf, hr, hsums⟩ := hlast
  simp only [State.countEnded, State.afterRun, hg, hc, hs, hh, ha, hf, hsums, not_lt.mpr he, not_lt.mpr hr, hcheck, List.isEmpty_nil,
    decide_false, Bool.or_self, Bool.not_true, Bool.not_false, Bool.and_false, Bool.false_and, Bool.false_eq_true, if_false]

/-- The end of a grid's last cohort writes the one open block, if it is of the grid's context. -/
theorem State.readByte_cohortEnd (h : s.OverAlone tid k x) (hlast : (x.merge k).EndsWith 1) (hb : s.log.blocks = [b])
    (hctx : b.ctx = x.ctx) (hs : b.surveyor = 0) (hh : s.replay.state = 0) :
    ∃ s', exec (.cohortEnd tid) s = .next s' ∧ readByte s'.mem s.logBase = BitVec.ofNat 8 (s.log.head + 1) := by
  obtain ⟨z, hz, hexec⟩ := exec_cohortEnd_alone h
  refine ⟨_, hexec, ?_⟩
  have hclose (y : State) (hlog : y.log = s.log) (hregs : y.regs = s.regs) (hreplay : y.replay = s.replay) :
      readByte (y.flushCtx x.ctx).mem s.logBase = BitVec.ofNat 8 (s.log.head + 1) := by
    have hfree : y.ringHeld = false := by
      simp only [State.ringHeld, hreplay, hh]
      rfl
    rw [← hctx, State.flushCtx_of_block (by rw [hlog, hb]) hs hfree, ← State.logBase_of_regs hregs,
      State.readByte_closeBlock ((State.replicas_of_regs hregs).trans h.replicas), hlog]
  rw [State.checkDone_leaves.mem, State.countEnded_of_last hz.grid hlast]
  exact hclose _ ((State.modGrid_log _ _ _).trans hz.log) ((State.modGrid_regs _ _ _).trans hz.regs)
    ((State.modGrid_replay _ _ _).trans hz.replay)

end Blocks

/-! ## A grid of another context -/

/-- A task of context 0 whose one team has ended and given its slot back. -/
def endedTask : Task := { placeTask [] with teams := [(0, { Team.single .kernel 0#64 mdReset with ended := true, released := true })] }

/-- An open block of the log, of context 1. -/
def foreignBlock : Block := { surveyor := 0, ctx := 1, base := 0, last := 0, bytes := [], dict := [], number := 0, due := false }

/-- That task's grid, of context 1. -/
def foreignGrid : Grid := { placeGrid with ctx := 1 }

/-- A state of that task, grid and block. -/
def foreignEnd : State :=
  { State.reset with tasks := [(0, endedTask)], grids := [(0, foreignGrid)], log := { State.reset.log with blocks := [foreignBlock] } }

theorem foreignEnd_overAlone : foreignEnd.OverAlone 0 endedTask foreignGrid :=
  ⟨rfl, rfl, by decide +kernel, by decide +kernel, rfl, by decide +kernel, by decide +kernel, rfl, ⟨rfl, rfl⟩, rfl, by decide⟩

/-- Refutes O39: the end of a grid's last cohort brings the grid to its phase check, for which the Surveyors write the open blocks of the
grid's context. The statement excludes open blocks of the task's context only, and does not say that the two are one; in `foreignEnd` they
are not, and the block goes to memory, where the statement has the version alone. Where the grid is its task's context's own,
`State.endsCohort_of_own_context` gives that clause; the others hold by `cohortsArePlacedAndEnd_iff`. -/
theorem not_cohortsArePlacedAndEnd : ¬ Obligations.CohortsArePlacedAndEnd := by
  intro h
  obtain ⟨s1, hexec1, hmem, -, -⟩ := cohortsArePlacedAndEnd_iff.mp h foreignEnd 0 endedTask foreignGrid foreignEnd_overAlone (by decide)
  obtain ⟨s2, hexec2, hbyte⟩ := State.readByte_cohortEnd foreignEnd_overAlone ⟨rfl, rfl, rfl, by decide, rfl, rfl, by decide, rfl⟩
    (b := foreignBlock) rfl rfl rfl rfl
  obtain rfl : s1 = s2 := Host.Outcome.next.inj (hexec1.symm.trans hexec2)
  rw [hmem] at hbyte
  exact absurd hbyte (by decide)

end Sys2Proof.Machine
end

section
/-!
SUPPORT. Outside writes and reads (R225, R266, R278, R443 to R447): what a write from outside leaves in memory where nothing watches
it, what a bare or an absent directory answers a peer, and the branch that each outside event takes.
-/

namespace Sys2Proof.Machine

section Outside

variable {s s1 : State} {addr n pa port did iova : Nat} {data : List Byte} {pas : List Nat} {write : Bool}

/-! ## Outside writes where nothing watches the memory -/

/-- No text is known, no team signs its accesses and nothing is replicated: a write from outside is a write of memory and nothing more. -/
structure State.Unwatched (s : State) : Prop where
  kernels : s.kernels = []
  sigs : s.sigs = []
  replicas : s.replicas = []

/-- What decides that, and memory. -/
def State.watched (s : State) : AMap Byte × List Kernel × List Sig × AMap Word64 := (s.mem, s.kernels, s.sigs, s.regs)

theorem State.Unwatched.of_fields {s' : State} (h : s.Unwatched) (hk : s'.kernels = s.kernels) (hs : s'.sigs = s.sigs)
    (hr : s'.regs = s.regs) : s'.Unwatched :=
  ⟨hk.trans h.kernels, hs.trans h.sigs, (State.replicas_of_regs hr).trans h.replicas⟩

theorem State.poke_kernels : (s.poke pa data).kernels = s.kernels := by
  unfold State.poke State.atHome State.mirror
  split <;> rfl

theorem State.poke_sigs : (s.poke pa data).sigs = s.sigs := by
  unfold State.poke State.atHome State.mirror
  split <;> rfl

theorem State.hit_of_no_sigs (h : s.sigs = []) (test : Sig → Bool) : s.hit test = s := by
  simp only [State.hit, h, List.filter_nil, List.foldl_nil]

theorem State.outsideWrite_of_unwatched (h : s.Unwatched) : s.outsideWrite pa data = (s.poke pa data).textWritten [(pa, data.length)] := by
  simp only [State.outsideWrite, h.kernels, List.find?_nil, State.commitBytes, State.hitLines, State.hit_of_no_sigs h.sigs]

theorem State.Unwatched.outsideWrite_mem (h : s.Unwatched) : (s.outsideWrite pa data).mem = writeBytes s.mem pa data := by
  rw [State.outsideWrite_of_unwatched h]
  exact State.poke_mem h.replicas

theorem State.Unwatched.outsideWrite (h : s.Unwatched) : (s.outsideWrite pa data).Unwatched := by
  rw [State.outsideWrite_of_unwatched h]
  refine h.of_fields ?_ State.poke_sigs (State.poke_regs _ _)
  simp only [State.textWritten, State.poke_kernels, h.kernels, List.map_nil]

/-! ## The bytes of a peer's write -/

theorem State.Unwatched.peerStore_mem {runs : List (Nat × List Byte)} (h : s.Unwatched) :
    (s.peerStore runs).mem = runs.foldl (fun m e => writeBytes m e.1 e.2) s.mem := by
  induction runs generalizing s with
  | nil => rfl
  | cons e runs ih => rw [State.peerStore, ih h.outsideWrite, h.outsideWrite_mem, List.foldl_cons]

/-- Runs of adjacent bytes hold what the single bytes hold, in their order. -/
theorem foldl_runsAt (m : AMap Byte) :
    (runsAt pas data).foldl (fun m e => writeBytes m e.1 e.2) m = (pas.zip data).foldl (fun m e => writeByte m e.1 e.2) m := by
  induction pas generalizing data m with
  | nil => rfl
  | cons a pas ih =>
    cases data with
    | nil => rfl
    | cons b data =>
      rw [List.zip_cons_cons, List.foldl_cons, ← ih, runsAt]
      cases runsAt pas data with
      | nil => rfl
      | cons e rest =>
        dsimp only
        split
        case isTrue ha => rw [List.foldl_cons, List.foldl_cons, writeBytes, ha]
        case isFalse => rfl

/-! ## Stores of an application core -/

theorem State.request_watched {agent line : Nat} {own : Bool} : (s.request agent line own).watched = s.watched := by
  unfold State.request
  split
  · split <;> rfl
  · rfl

/-- What the cache takes changes leases and lines only (R268, R276). -/
theorem State.cacheStore_watched {agent : Nat} : (s.cacheStore agent addr n).watched = s.watched := by
  refine State.foldl_keeps (f := State.watched) (fun s l => ?_) _ s
  split
  · rfl
  · dsimp only
    split
    · exact State.request_watched
    · exact State.request_watched

theorem ioPlace_of_reachable (h : s.reachable addr n = true) : ioPlace addr n = none := by
  simp only [State.reachable, Bool.and_eq_true, decide_eq_true_eq] at h
  obtain ⟨⟨-, hle⟩, -⟩ := h
  unfold ioPlace
  rw [if_neg]
  simp only [Bool.and_eq_true, decide_eq_true_eq]
  unfold memorySize at hle
  unfold ioBase
  omega

theorem exec_appCoreStore_mem {agent : Nat} (ha : agent < 2) (hr : s.reachable addr data.length = true)
    (hl : s.locHeld none (.glob addr) data.length = false) (h : s.Unwatched) :
    ∃ s', exec (.appCoreStore agent addr data) s = .next s' ∧ s'.mem = writeBytes s.mem addr data := by
  obtain ⟨hmem, hkernels, hsigs, hregs⟩ : _ ∧ _ ∧ _ ∧ _ := by
    simpa only [State.watched, Prod.mk.injEq] using State.cacheStore_watched (s := s) (addr := addr) (n := data.length) (agent := agent)
  have hu : (s.cacheStore agent addr data.length).Unwatched := h.of_fields hkernels hsigs hregs
  refine ⟨{ (s.cacheStore agent addr data.length).outsideWrite addr data with dirty := (s.cacheStore agent addr data.length).dirty }, ?_,
    hu.outsideWrite_mem.trans (by rw [hmem])⟩
  change execAppCoreStore agent addr data s = _
  simp only [execAppCoreStore, ioPlace_of_reachable hr, hr, hl, Nat.not_le.mpr ha, decide_false, Bool.not_true, Bool.or_false,
    Bool.false_eq_true, if_false]

/-! ## What the IOMMU lets a peer reach -/

/-- A bare directory hands an address through, where there is memory and no replica (R278, R446). -/
theorem State.ioXlat_of_bare (hb : s.io64 port ioDDTP % 16 = 1) (hp : iova < memorySize) (hr : s.inReplica iova = false) :
    s.ioXlat port did iova write = .ok iova := by
  simp [State.ioXlat, State.devCtx, hb, hp, hr, Except.mapError]

theorem State.ioBytes_of_bare (hb : s.io64 port ioDDTP % 16 = 1) (hp : iova + n ≤ memorySize)
    (hr : ∀ a, iova ≤ a → a < iova + n → s.inReplica a = false) :
    s.ioBytes port did write iova n = .ok ((List.range n).map (fun i => iova + i)) := by
  induction n generalizing iova with
  | zero => rfl
  | succ n ih =>
    have hx := State.ioXlat_of_bare (did := did) (write := write) hb (by omega) (hr iova (by omega) (by omega))
    have hrest := ih (iova := iova + 1) (by omega) (fun a h1 h2 => hr a (by omega) (by omega))
    simp only [State.ioBytes, hx, hrest, Except.map, List.range_succ_eq_map, List.map_cons, List.map_map, Nat.add_zero]
    congr 2
    refine List.map_congr_left fun i _ => ?_
    simp only [Function.comp_apply]
    omega

theorem State.peerAccess_of_bare (hb : ∀ p < 4, s.io64 p ioDDTP % 16 = 1) (hr : s.reachable addr n = true) :
    s.peerAccess addr n write = .ok ((List.range n).map (fun i => addr + i)) := by
  simp only [State.reachable, Bool.and_eq_true, decide_eq_true_eq, List.all_eq_true, Bool.not_eq_true', mem_span] at hr
  obtain ⟨⟨-, hle⟩, hrep⟩ := hr
  simp only [State.peerAccess, State.ioBytes_of_bare (hb _ (Nat.mod_lt _ (by decide))) hle (fun a h1 h2 => hrep a ⟨h1, h2⟩)]

/-- A directory that is off fails the first byte, and the failure is reported (R446). -/
theorem State.peerAccess_of_off (hb : ∀ p < 4, s.io64 p ioDDTP % 16 = 0) (hn : 0 < n) :
    ∃ p < 4, ∃ did, s.peerAccess addr n write = .error (s.ioFault p did 256 addr write) := by
  have hp : (Config.peerSource s.tick).1 % 4 < 4 := Nat.mod_lt _ (by decide)
  refine ⟨_, hp, (Config.peerSource s.tick).2 % 2 ^ 24, ?_⟩
  obtain ⟨m, rfl⟩ := Nat.exists_eq_succ_of_ne_zero hn.ne'
  simp only [State.peerAccess, State.ioBytes, State.ioXlat, State.devCtx, hb _ hp, if_true]

/-- A fault queue that is off drops the record (R446). -/
theorem State.ioFault_of_queue_off {cause : Nat} (h : s.io port ioFQCSR / 2 ^ 16 % 2 = 0) : s.ioFault port did cause iova write = s := by
  have hbit : nbit (s.io port ioFQCSR) 16 = false := by simp only [nbit, h, Nat.zero_ne_one, decide_false]
  simp only [State.ioFault, hbit, Bool.not_false, Bool.true_or, if_true]

/-! ## A peer's accesses -/

theorem exec_peerWrite_mem (hup : s.peerUp = true) (ha : s.peerAccess addr data.length true = .ok pas)
    (hl : ∀ a ∈ pas, s.locHeld none (.glob a) 1 = false) (h : s.Unwatched) :
    ∃ s', exec (.peerWrite addr data) s = .next s' ∧ s'.mem = (pas.zip data).foldl (fun m e => writeByte m e.1 e.2) s.mem := by
  have hany : pas.any (fun a => s.locHeld none (.glob a) 1) = false :=
    List.any_eq_false.mpr fun a hm => by simp only [hl a hm, Bool.false_eq_true, not_false_eq_true]
  refine ⟨s.peerStore (runsAt pas data), ?_, h.peerStore_mem.trans (foldl_runsAt s.mem)⟩
  change execPeerWrite addr data s = _
  simp only [execPeerWrite, hup, ha, hany, Bool.not_true, Bool.false_eq_true, if_false]

theorem State.foldl_recall_mem : (pas.foldl (fun s a => s.recall a 1) s).mem = s.mem :=
  State.foldl_keeps (f := State.mem) (step := fun s a => s.recall a 1) (fun _ _ => rfl) pas s

theorem exec_peerRead_readData (hup : s.peerUp = true) (ha : s.peerAccess addr n false = .ok pas)
    (hb : ∀ a ∈ pas, s.regionBusy a 1 = false) :
    ∃ s', exec (.peerRead addr n) s = .next s' ∧ s'.readData = some (pas.map (readByte s.mem)) ∧ s'.mem = s.mem := by
  have hany : pas.any (fun a => s.regionBusy a 1) = false :=
    List.any_eq_false.mpr fun a hm => by simp only [hb a hm, Bool.false_eq_true, not_false_eq_true]
  refine ⟨{ pas.foldl (fun s a => s.recall a 1) s with readData := some (pas.map (readByte s.mem)) }, ?_, rfl, State.foldl_recall_mem⟩
  change execPeerRead addr n s = _
  simp only [execPeerRead, hup, ha, hany, Bool.not_true, Bool.false_eq_true, if_false]

theorem exec_peer_of_error (hup : s.peerUp = true) :
    (s.peerAccess addr data.length true = .error s1 → exec (.peerWrite addr data) s = .next s1) ∧
      (s.peerAccess addr n false = .error s1 → exec (.peerRead addr n) s = .next s1) := by
  constructor
  · intro he
    change execPeerWrite addr data s = _
    simp only [execPeerWrite, hup, he, Bool.not_true, Bool.false_eq_true, if_false]
  · intro he
    change execPeerRead addr n s = _
    simp only [execPeerRead, hup, he, Bool.not_true, Bool.false_eq_true, if_false]

theorem exec_peer_of_down (hdown : s.peerUp = false) : exec (.peerWrite addr data) s = .next s ∧ exec (.peerRead addr n) s = .next s := by
  constructor
  · change execPeerWrite addr data s = _
    simp only [execPeerWrite, hdown, Bool.not_false, if_true]
  · change execPeerRead addr n s = _
    simp only [execPeerRead, hdown, Bool.not_false, if_true]

/-! ## Links, notify writes and the reset -/

theorem exec_pcieLinkTrain {flit : Bool} (hp : port < 4) :
    exec (.pcieLinkTrain port flit) s = .next { s with pcie := AMap.set s.pcie port flit } := by
  change execPcieLinkTrain port flit s = _
  simp only [execPcieLinkTrain, hp, if_true]

/-- An aperture that is open, with nothing waiting in its latch, stores the value at once (R443). -/
theorem exec_notifyWrite_of_open {ctx : Nat} {v : Word} (hn : n < 64) (hc : ctx < 64) (hg : s.gated = false) (hl : s.latch = []) :
    exec (.notifyWrite ctx n v) s = .next (s.notifyTo ctx n v) := by
  change execNotifyWrite ctx n v s = _
  simp only [execNotifyWrite, Nat.not_le.mpr hn, Nat.not_le.mpr hc, hg, hl, decide_false, Bool.or_self, Bool.false_eq_true, if_false,
    Bool.not_false, List.isEmpty_nil, Bool.and_self, if_true]

/-- A gated aperture, or one with a value before it, captures the value while the latch has room (R444). -/
theorem exec_notifyWrite_of_captured {ctx : Nat} {v : Word} (hn : n < 64) (hc : ctx < 64) (hg : s.gated = true ∨ s.latch ≠ [])
    (hroom : s.latch.length < 64) :
    exec (.notifyWrite ctx n v) s = .next { s with latch := s.latch ++ [{ ctx := ctx, n := n, value := v }] } := by
  have hclosed : (!s.gated && s.latch.isEmpty) = false := by
    cases hg with
    | inl hgated => simp only [hgated, Bool.not_true, Bool.false_and]
    | inr hlatch => simp only [List.isEmpty_eq_false_iff.mpr hlatch, Bool.and_false]
  change execNotifyWrite ctx n v s = _
  simp only [execNotifyWrite, Nat.not_le.mpr hn, Nat.not_le.mpr hc, hclosed, hroom, decide_false, Bool.or_self, Bool.false_eq_true,
    if_false, if_true]

theorem exec_notifyLatchDeliver {x : Latched} {rest : List Latched} (hl : s.latch = x :: rest) :
    exec .notifyLatchDeliver s = .next (State.notifyTo { s with latch := rest, gated := false } x.ctx x.n x.value) := by
  change execNotifyLatchDeliver s = _
  simp only [execNotifyLatchDeliver, hl]

theorem exec_notifyApertureGate (hp : s.parksNotify = false) (hl : s.latch = []) :
    exec .notifyApertureGate s = .next { s with gated := true } := by
  change execNotifyApertureGate s = _
  simp only [execNotifyApertureGate, hp, hl, List.isEmpty_nil, Bool.not_true, Bool.or_self, Bool.false_eq_true, if_false]

theorem exec_recoveryImageLoad {ed mld : Bool} (hr : s.boot.recovery = true) :
    exec (.recoveryImageLoad ed mld) s =
      .next { s with boot := { up := ed && mld, ed := ed, mld := mld, recovered := ed && mld, recovery := !(ed && mld) } } := by
  change execRecoveryImageLoad ed mld s = _
  simp only [execRecoveryImageLoad, hr, Bool.not_true, Bool.false_eq_true, if_false]

end Outside

/-- Settles O51, clause by clause: a write from outside where no text, signature or replica watches is a write of memory, whose runs hold
what its single bytes hold; each other clause is the event's own branch. -/
theorem outsideWritesAndReads : Obligations.OutsideWritesAndReads := by
  unfold Obligations.OutsideWritesAndReads
  intro s s1 addr n c port agent data v x rest pas flash ed mld write
  refine ⟨?peerWrite, exec_peerRead_readData, exec_peer_of_error, exec_peer_of_down, State.peerAccess_of_bare, State.peerAccess_of_off,
    fun _ => State.ioFault_of_queue_off, ?appCoreStore, exec_pcieLinkTrain, exec_notifyWrite_of_open, exec_notifyWrite_of_captured,
    exec_notifyLatchDeliver, exec_notifyApertureGate, rfl, exec_recoveryImageLoad⟩
  case peerWrite => exact fun hup ha hl hk hs hr => exec_peerWrite_mem hup ha hl ⟨hk, hs, hr⟩
  case appCoreStore => exact fun ha hr hl hk hs hrep => exec_appCoreStore_mem ha hr hl ⟨hk, hs, hrep⟩

end Sys2Proof.Machine
end

section
/-!
SUPPORT. Memory stays in its canonical form (R225, R279; log 1). Memory changes through the operations of Laws/Memory alone. Each
function of the state that a step goes through has one lemma here, in the order of the model's files: a function that leaves memory
as it was says so (`_mem`), and one that may write says that memory stays canonical (`wf_` where it answers a state, `canonical_`
where it answers an outcome, a result or a read). A lemma's proof follows the branches of its function and cites the lemmas of the
functions it calls.
-/

namespace Sys2Proof.Machine

/-- The state that a word's own effect leaves, where it leaves one, holds memory in its canonical form. -/
def Res.Canonical : Res → Prop
  | .ok s _ | .started s _ _ | .jump s _ _ | .open s _ | .hold s _ | .diverged s => Memory.wf s.mem = true
  | .trap _ | .walk _ _ _ | .wait | .stop _ => True

/-- The next state holds memory in its canonical form. -/
def Out.Canonical : Out → Prop
  | .next s => Memory.wf s.mem = true
  | .fault _ | .refused _ => True

/-- The end of a chunk leaves memory in its canonical form. -/
def RecRes.Canonical : RecRes → Prop
  | .go s _ | .diverge s => Memory.wf s.mem = true
  | .hold => True

/-- What is read from memory on the way, or the result that ends the word, comes with memory in its canonical form. -/
def Canonically {α : Type} (st : α → State) : Except Res α → Prop
  | .ok x => Memory.wf (st x).mem = true
  | .error r => r.Canonical

theorem State.foldl_mem {α : Type} (f : State → α → State) (hf : ∀ s x, (f s x).mem = s.mem) (xs : List α) (s : State) :
    (xs.foldl f s).mem = s.mem :=
  State.foldl_keeps (f := State.mem) hf xs s

/-- Operations that may each fail, one after another. -/
theorem wf_foldl_bind {α : Type} {f : α → State → Option State} {xs : List α} {s s' : State}
    (hf : ∀ a s s', Memory.wf s.mem = true → f a s = some s' → Memory.wf s'.mem = true) (h : Memory.wf s.mem = true)
    (hs : xs.foldl (fun o a => o.bind (f a)) (some s) = some s') : Memory.wf s'.mem = true := by
  refine List.foldlRecOn (motive := fun o : Option State => ∀ s', o = some s' → Memory.wf s'.mem = true) xs _
    (fun _ e => Option.some.inj e ▸ h) (fun o ho a _ s' e => ?_) s' hs
  obtain ⟨u, hu, e⟩ := Option.bind_eq_some_iff.mp e
  exact hf a u s' (ho u hu) e

theorem wf_getD {o : Option State} {s : State} (h : Memory.wf s.mem = true) (ho : ∀ s', o = some s' → Memory.wf s'.mem = true) :
    Memory.wf (o.getD s).mem = true := by
  cases o with
  | none => exact h
  | some s' => exact ho s' rfl

theorem wf_ite {c : Prop} [Decidable c] {a b : State} (ha : Memory.wf a.mem = true) (hb : Memory.wf b.mem = true) :
    Memory.wf (if c then a else b).mem = true := by
  split
  · exact ha
  · exact hb

section MemoryUnchanged

variable {s s' : State} {p : Party} {t : Team} {n c core ctx tid g ord task seq id port code kind : Nat} {o : EngOp} {hd : Hdr}
  {i : Instr} {how : How}

/-! ## Units: memory unchanged -/

@[simp] theorem State.modCore_mem {f : Core → Core} : (s.modCore c f).mem = s.mem := rfl

@[simp] theorem State.modCtx_mem {f : Ctx → Ctx} : (s.modCtx c f).mem = s.mem := rfl

@[simp] theorem State.modCluster_mem {k : Nat} {f : Cluster → Cluster} : (s.modCluster k f).mem = s.mem := rfl

@[simp] theorem State.modSteward_mem {d : Nat} {f : Steward → Steward} : (s.modSteward d f).mem = s.mem := rfl

@[simp] theorem State.setCreg_mem {off v : Nat} : (s.setCreg c off v).mem = s.mem := rfl

@[simp] theorem State.setDevErr_mem : s.setDevErr.mem = s.mem := rfl

@[simp] theorem State.setCtxErr_mem : (s.setCtxErr c).mem = s.mem := rfl

@[simp] theorem State.judgePower_mem : s.judgePower.mem = s.mem := rfl

/-! ## Memory and its flaws: memory unchanged -/

@[simp] theorem State.countError_mem {i : Nat} {fatal : Bool} : (s.countError kind i fatal).mem = s.mem := rfl

@[simp] theorem State.countFlaw_mem {f : Flaw} : (s.countFlaw f).mem = s.mem := by
  unfold State.countFlaw
  grind [State.countError_mem]

theorem State.meetFlaws_mem {hit : Site → Bool} : (s.meetFlaws hit).1.mem = s.mem := by
  unfold State.meetFlaws
  grind [State.countFlaw_mem, State.foldl_mem]

@[simp] theorem State.cleanse_mem {hit : Site → Bool} : (s.cleanse hit).mem = s.mem := rfl

@[simp] theorem State.recall_mem {pa : Nat} : (s.recall pa n).mem = s.mem := rfl

@[simp] theorem State.textWritten_mem {ps : List (Nat × Nat)} : (s.textWritten ps).mem = s.mem := rfl

/-! ## Records and chunks: memory unchanged -/

theorem State.drawStamp_mem : (s.drawStamp).1.mem = s.mem := rfl

/-! ## Frames: memory unchanged -/

@[simp] theorem State.loadTeam_mem : (s.loadTeam tid ord).mem = s.mem := by
  unfold State.loadTeam
  grind [State.setTeam_mem, State.modTask_mem]

@[simp] theorem State.reloadTeam_mem : (s.reloadTeam tid ord).mem = s.mem := by
  unfold State.reloadTeam
  grind [State.loadTeam_mem]

/-! ## Issue, faults and walks: memory unchanged -/

@[simp] theorem State.resetDone_mem : (s.resetDone c).mem = s.mem := by
  unfold State.resetDone
  grind [State.raise_mem, State.modCtx_mem]

@[simp] theorem State.failPacket_mem : (s.failPacket c n).mem = s.mem := rfl

@[simp] theorem State.endPrologue_mem : (s.endPrologue c).mem = s.mem := by
  unfold State.endPrologue
  grind [State.modCtx_mem, State.failPacket_mem]

@[simp] theorem State.endHoldings_mem {k : Task} : (s.endHoldings tid ord k).mem = s.mem := by
  unfold State.endHoldings
  grind [State.modTask_mem, State.modCore_mem]

@[simp] theorem State.restep_mem : (s.restep p).mem = s.mem := by
  unfold State.restep
  grind [State.setTeam_mem]

/-! ## Watched places: memory unchanged -/

@[simp] theorem State.request_mem {agent line : Nat} {own : Bool} : (s.request agent line own).mem = s.mem := by
  unfold State.request
  grind

@[simp] theorem State.touch_mem {pa : Nat} {write : Bool} : (s.touch task core pa n write).mem = s.mem := by
  unfold State.touch
  grind [State.request_mem, State.modTask_mem, State.foldl_mem]

@[simp] theorem State.sendStop_mem {cluster wp : Nat} {a : Accessor} {addr : Word64} {lane later : Nat} :
    (s.sendStop cluster c wp a addr lane later).mem = s.mem := by
  unfold State.sendStop
  grind [State.setCluster_mem]

@[simp] theorem State.l1Access_mem {line : Nat} : (s.l1Access core line).mem = s.mem := rfl

@[simp] theorem State.l1Evict_mem {line : Nat} : (s.l1Evict core line).mem = s.mem := rfl

@[simp] theorem State.l1Atomic_mem {core : Option Nat} {lines : List Nat} : (s.l1Atomic core lines).mem = s.mem := rfl

@[simp] theorem State.l1Drop_mem {test : Nat → Bool} : (s.l1Drop test).mem = s.mem := rfl

@[simp] theorem State.l1Touch_mem {va : Word64} {pa : Nat} : (s.l1Touch p va pa n).mem = s.mem := by
  unfold State.l1Touch
  grind [State.l1Access_mem, State.foldl_mem]

@[simp] theorem State.watchSpan_mem {a : Accessor} {k : Task} {loc : Loc} {reads writes : Bool} {formed : Word64} {lo len lane : Nat} :
    (s.watchSpan a k loc reads writes formed lo len lane).mem = s.mem := by
  unfold State.watchSpan
  grind [State.sendStop_mem]

/-! ## Checked accesses: memory unchanged -/

@[simp] theorem State.readFlaws_mem {accs : List Access} : (s.readFlaws p n accs).1.mem = s.mem := by
  unfold State.readFlaws
  exact List.foldlRecOn (motive := fun r : State × Option Access => r.1.mem = s.mem) accs _ rfl
    fun _ hr _ _ => State.meetFlaws_mem.trans hr

/-! ## Publication: memory unchanged -/

@[simp] theorem State.sendMessage_mem {m : Message} : (s.sendMessage m).mem = s.mem := by
  unfold State.sendMessage
  grind [State.modCtx_mem]

@[simp] theorem State.l1Reads_mem {accs : List Access} : (s.l1Reads p n accs).mem = s.mem := by
  unfold State.l1Reads
  grind [State.l1Touch_mem, State.foldl_mem]

/-! ## Launches: memory unchanged -/

@[simp] theorem State.noteKernel_mem {code : Word64} : (s.noteKernel c code).mem = s.mem := by
  unfold State.noteKernel
  grind

theorem State.addGrid_mem {g : Grid} : (s.addGrid g).1.mem = s.mem := by
  unfold State.addGrid
  grind [State.setGrid_mem, State.noteKernel_mem]

@[simp] theorem State.giveOrdinal_mem : (s.giveOrdinal g).mem = s.mem := by
  unfold State.giveOrdinal
  grind [State.modCtx_mem, State.setGrid_mem]

@[simp] theorem State.endGrid_mem : (s.endGrid g).mem = s.mem := by
  unfold State.endGrid
  grind [State.setGrid_mem, State.modCore_mem, State.failPacket_mem, State.modCtx_mem]

@[simp] theorem State.abandon_mem : (s.abandon g).mem = s.mem := by
  unfold State.abandon
  grind [State.setGrid_mem, State.endGrid_mem]

@[simp] theorem State.feDeny_mem {what : Nat} : (s.feDeny c what n).mem = s.mem := rfl

theorem State.feDenied_mem {α : Type} {what : Nat} : (@State.feDenied s c what n α).1.mem = s.mem := by
  unfold State.feDenied
  grind [State.modCtx_mem]

/-! ## Engines: memory unchanged -/

@[simp] theorem State.pushLead_mem {e : LeadEntry} : (s.pushLead p e).mem = s.mem := by
  unfold State.pushLead
  grind [State.setTeam_mem]

@[simp] theorem State.countFlow_mem {m : Message} : (s.countFlow m).mem = s.mem := rfl

/-! ## Barriers and parks: memory unchanged -/

theorem State.parkFlaws_mem {a : Word64} {x : ParkWord} : (s.parkFlaws p a x).1.mem = s.mem := by
  unfold State.parkFlaws
  grind [State.meetFlaws_mem]

/-! ## System words: memory unchanged -/

@[simp] theorem State.writeCsr_mem {v : Word} : (s.writeCsr p n v).mem = s.mem := by
  unfold State.writeCsr
  grind [State.modCtx_mem, State.judgePower_mem, State.modSteward_mem]

/-! ## Events of a task: memory unchanged -/

@[simp] theorem State.checkDone_mem : (s.checkDone c).mem = s.mem := by
  unfold State.checkDone
  grind [State.raise_mem, State.modCtx_mem]

@[simp] theorem State.dropGang_mem {k : Task} : (s.dropGang k).mem = s.mem := by
  unfold State.dropGang
  grind [State.dropTask_mem, State.foldl_mem]

@[simp] theorem State.openCheck_mem : (s.openCheck c).mem = s.mem := by
  unfold State.openCheck
  grind [State.modCtx_mem]

@[simp] theorem State.giveBack_mem {ms : List Message} : (s.giveBack ms).mem = s.mem := rfl

@[simp] theorem State.stopMember_mem {e : Nat × Task} : (s.stopMember e).mem = s.mem := by
  unfold State.stopMember
  grind [State.freeTask_mem, State.giveBack_mem]

/-! ## Debugging and preemption: memory unchanged -/

@[simp] theorem State.dropFault_mem {f : PageFault} : (s.dropFault c f).mem = s.mem := rfl

@[simp] theorem State.unfreeze_mem : (s.unfreeze tid ord).mem = s.mem := by
  unfold State.unfreeze
  grind [State.reloadTeam_mem, State.setTeam_mem]

/-! ## Events of an engine: memory unchanged -/

@[simp] theorem State.setEngOp_mem {eng : Nat} : (s.setEngOp core eng o).mem = s.mem := rfl

@[simp] theorem State.setColl_mem : (s.setColl core o).mem = s.mem := rfl

theorem fetchFlaws_mem {va : Word64} {parts : List (Nat × Nat)} {i : Nat} : (fetchFlaws s task va parts i n).1.mem = s.mem := by
  unfold fetchFlaws
  grind [State.meetFlaws_mem]

/-! ## Events of an array: memory unchanged -/

@[simp] theorem rowFlaws_mem {parts : List Access} : (rowFlaws s p parts).1.mem = s.mem := by
  unfold rowFlaws
  exact List.foldlRecOn (motive := fun r : State × Option Access => r.1.mem = s.mem) parts _ rfl
    fun _ hr _ _ => State.meetFlaws_mem.trans hr

theorem matrixFlaws_mem {w : MatrixWord} {md : Word} {tile : Nat} {rows : List Nat} :
    (matrixFlaws s p core w md tile rows).1.mem = s.mem := by
  unfold matrixFlaws
  grind [rowFlaws_mem, State.meetFlaws_mem]

/-! ## Events of memory: memory unchanged -/

@[simp] theorem State.addPartial_mem {pa : Nat} {x : Word64} : (s.addPartial tid pa x).mem = s.mem := by
  unfold State.addPartial
  grind [State.modTask_mem]

/-! ## Packets: memory unchanged -/

@[simp] theorem State.packetRead_mem {p : Incoming} {bs : List Byte} : (s.packetRead c p bs).mem = s.mem := rfl

@[simp] theorem State.takeIncoming_mem {p : Incoming} : (s.takeIncoming c p).mem = s.mem := rfl

@[simp] theorem State.accept_mem {p : Incoming} {x : Packet} : (s.accept c p x).mem = s.mem := by
  unfold State.accept
  grind [State.modCtx_mem, State.takeIncoming_mem]

@[simp] theorem State.modPacket_mem {f : Packet → Packet} : (s.modPacket c seq f).mem = s.mem := rfl

@[simp] theorem State.beginLaunch_mem {x : Packet} {r : LaunchRec} {runs : Nat} : (s.beginLaunch c seq x r runs).mem = s.mem := by
  unfold State.beginLaunch
  grind [State.addGrid_mem, State.modPacket_mem, State.giveOrdinal_mem]

/-! ## Registers: memory unchanged -/

@[simp] theorem State.pageErr_mem {off value : Nat} : (s.pageErr off value).mem = s.mem := by
  unfold State.pageErr
  grind [State.setDevErr_mem, State.setCtxErr_mem]

@[simp] theorem State.crossing_mem : s.crossing.mem = s.mem := by
  unfold State.crossing
  grind [State.raiseDevice_mem]

/-! ## Events of a transaction: memory unchanged -/

@[simp] theorem State.freeTx_mem {dev : Bool} : (s.freeTx p dev).mem = s.mem := by
  unfold State.freeTx
  grind [State.modTask_mem]

/-! ## The package: memory unchanged -/

@[simp] theorem State.returns_mem {off width : Nat} : (s.returns off width).mem = s.mem := rfl

@[simp] theorem State.replaceDie_mem {die : Nat} {spares : Bool} : (s.replaceDie die spares).mem = s.mem := by
  unfold State.replaceDie
  grind [State.raiseDevice_mem, State.setReg_mem]

@[simp] theorem State.shrink_mem : s.shrink.mem = s.mem := rfl

@[simp] theorem State.tinv_mem {v : Nat} : (s.tinv v).mem = s.mem := by
  unfold State.tinv
  grind

/-! ## The IOMMU: memory unchanged -/

@[simp] theorem State.setIo_mem {off v : Nat} : (s.setIo port off v).mem = s.mem := rfl

@[simp] theorem State.ioFlag_mem {csr bit pending : Nat} : (s.ioFlag port csr bit pending).mem = s.mem := by
  unfold State.ioFlag
  grind [State.setIo_mem]

@[simp] theorem State.ioQueue_mem {csr own v : Nat} : (s.ioQueue port csr own v).mem = s.mem := by
  unfold State.ioQueue
  grind [State.setIo_mem]

/-! ## Placement: memory unchanged -/

@[simp] theorem State.breakChoreo_mem : (s.breakChoreo c).mem = s.mem := rfl

@[simp] theorem State.flipMode_mem {cluster : Nat} : (s.flipMode cluster).mem = s.mem := by
  unfold State.flipMode
  grind [State.modCore_mem, State.modCluster_mem, State.foldl_mem]

@[simp] theorem State.away_mem : (s.away tid).mem = s.mem := by
  unfold State.away
  grind [State.modTask_mem]

/-! ## The recorder: memory unchanged -/

@[simp] theorem State.setSnap_mem {paused busy : Bool} : (s.setSnap c paused busy).mem = s.mem := rfl

@[simp] theorem State.reinstate_mem {x : Snap} : (s.reinstate c x).mem = s.mem := by
  unfold State.reinstate
  grind [State.dropTask_mem, State.freeTask_mem, State.setTask_mem, State.modCore_mem, State.setSnap_mem, State.modCtx_mem, State.foldl_mem]

@[simp] theorem State.resetFlows_mem {x : AnchorSide} {pod : Bool} : (s.resetFlows c x pod).mem = s.mem := by
  unfold State.resetFlows
  grind [State.modCtx_mem]

@[simp] theorem State.rechild_mem {x : Option Grid} : (s.rechild x).mem = s.mem := by
  unfold State.rechild
  grind [State.addGrid_mem, State.modCtx_mem]

@[simp] theorem State.relaunch_mem {a : Anchor} {script : List LogRec} : (s.relaunch a script).mem = s.mem := by
  unfold State.relaunch
  grind [State.rechild_mem, State.modCtx_mem]

/-! ## Inputs: memory unchanged -/

theorem State.arriveLogged_mem {m : Message} : (s.arriveLogged m).1.mem = s.mem := by
  unfold State.arriveLogged
  grind

@[simp] theorem State.acceptedAbroad_mem : (s.acceptedAbroad n).mem = s.mem := by
  unfold State.acceptedAbroad
  grind

@[simp] theorem State.nextRequest_mem : (s.nextRequest c).mem = s.mem := rfl

@[simp] theorem State.notifyTo_mem {v : Word} : (s.notifyTo c n v).mem = s.mem := rfl

@[simp] theorem State.cacheStore_mem {agent addr : Nat} : (s.cacheStore agent addr n).mem = s.mem := by
  unfold State.cacheStore
  grind [State.request_mem, State.foldl_mem]

@[simp] theorem State.appCoreLoad_mem {agent addr : Nat} : (s.appCoreLoad agent addr n).mem = s.mem := by
  unfold State.appCoreLoad
  grind [State.request_mem, State.foldl_mem]

@[simp] theorem State.readOutside_mem {off width : Nat} : (s.readOutside off width).mem = s.mem := by
  unfold State.readOutside
  grind [State.returns_mem]

/-! ## Plates: memory unchanged -/

theorem State.evictPlates_mem {lo n1 : Nat} (hs : s.evictPlates lo n n1 = some s') : s'.mem = s.mem := by
  fun_induction State.evictPlates <;> grind

@[simp] theorem State.runSource_mem {x : Grid} : (s.runSource g x).mem = s.mem := rfl

@[simp] theorem State.runPlate_mem {x : Grid} : (s.runPlate g x n).mem = s.mem := rfl

/-! ## Turns: memory unchanged -/

@[simp] theorem State.noteLines_mem {before : State} : (before.noteLines s p i t).mem = s.mem := by
  unfold State.noteLines
  split <;> simp

@[simp] theorem State.noteFetch_mem {pa : Nat} : (s.noteFetch p pa).mem = s.mem := by
  unfold State.noteFetch
  grind [State.touch_mem, State.recall_mem]

@[simp] theorem State.endTurns_mem {part : Nat} : (s.endTurns core part).mem = s.mem := by
  unfold State.endTurns
  grind [State.setTeam_mem, State.foldl_mem]

@[simp] theorem State.markStart_mem {part : Nat} {ready : List (Nat × Nat × Task × Team)} {x : Nat × Nat × Task × Team} :
    (s.markStart core part ready x).mem = s.mem := by
  unfold State.markStart
  grind [State.setTeam_mem, State.modCore_mem, State.foldl_mem]

@[simp] theorem State.addCount_mem {clocks : Nat} : (s.addCount core n clocks).mem = s.mem := rfl

theorem State.nextMove_mem : (s.nextMove).2.mem = s.mem := by
  unfold State.nextMove
  grind

end MemoryUnchanged

section MemoryCanonical

variable {s s' : State} {p : Party} {t : Team} {n c core ctx tid g ord task seq id port code kind : Nat} {o : EngOp} {hd : Hdr}
  {i : Instr} {how : How} (h : Memory.wf s.mem = true)

include h

/-! ## Records and chunks: memory kept canonical -/

theorem State.wf_flushBlock {surveyor : Nat} : Memory.wf (s.flushBlock surveyor ctx).mem = true := by
  unfold State.flushBlock
  grind [State.wf_writeBlock]

theorem State.wf_flushCtx : Memory.wf (s.flushCtx ctx).mem = true := by
  unfold State.flushCtx
  grind [State.wf_flushBlock, State.wf_foldl]

theorem State.wf_writeMark {payload : List Byte} {point : Nat} : Memory.wf (s.writeMark p t payload point).1.mem = true := by
  unfold State.writeMark
  grind [State.wf_note]

theorem canonical_endChunk {payload : List Byte} {point : Nat} {stamp : Option Nat} :
    (endChunk s p t kind payload point stamp).Canonical := by
  have := State.wf_endChunk s p t kind payload point stamp h
  cases e : endChunk s p t kind payload point stamp with
  | go | diverge => rwa [e] at this
  | hold => trivial

theorem State.wf_flushLate : Memory.wf (s.flushLate p).mem = true := by
  unfold State.flushLate
  grind [State.wf_writeLate, State.setTeam_mem]

theorem State.wf_flushClocks : Memory.wf s.flushClocks.mem = true := by
  unfold State.flushClocks
  grind [State.wf_flushLate, State.wf_foldl]

theorem State.wf_hitVersion : Memory.wf (s.hitVersion tid).mem = true := by
  unfold State.hitVersion
  grind [State.wf_hit]

theorem State.wf_hitMates : Memory.wf (s.hitMates tid ord).mem = true := by
  unfold State.hitMates
  grind [State.wf_cutChunk, State.wf_foldl]

theorem State.wf_sign {l : Loc} {write : Bool} : Memory.wf (s.sign task ord l n write).mem = true := by
  unfold State.sign
  grind [State.wf_hit]

theorem State.wf_addAnchor {extra : Word64} {child : Option Grid} : Memory.wf (s.addAnchor ctx kind extra child).mem = true := by
  unfold State.addAnchor
  grind [State.drawStamp_mem, State.wf_writeLogHeader, State.wf_logRecord]

/-! ## Translation: memory kept canonical -/

theorem State.wf_fillTlb {va : Nat} {l : Leaf} {m : AMap Byte} (hm : Memory.wf m = true) :
    Memory.wf (s.fillTlb core c va l m how).mem = true := by
  have hr := State.wf_recallWalk s c va h
  unfold State.fillTlb
  grind [State.modCluster_mem, State.modCore_mem]

theorem State.wf_feXlat {va : Nat} : Memory.wf (s.feXlat c how va n).1.mem = true := by
  fun_induction State.feXlat <;> grind [State.wf_xlatNow]

theorem State.wf_commitAt {ns : List Nat} {bs : List Byte} : Memory.wf (s.commitAt ns bs).mem = true := by
  fun_induction State.commitAt <;> grind [State.wf_commitBytes]

theorem State.wf_ringWrite {va : Nat} {data : List Byte} : Memory.wf (s.ringWrite c va data).1.mem = true := by
  unfold State.ringWrite
  grind [State.wf_feXlat, State.wf_commitAt]

/-! ## Frames: memory kept canonical -/

theorem State.wf_setBar {b : Barrier} : Memory.wf (s.setBar tid id b).mem = true := by
  unfold State.setBar
  grind [State.modTask_mem, State.wf_poke]

theorem State.wf_saveTeam : Memory.wf (s.saveTeam tid ord).mem = true := by
  unfold State.saveTeam
  grind [State.wf_saveState, State.wf_saveLines]

theorem State.wf_saveLive : Memory.wf (s.saveLive tid ord).mem = true := by
  unfold State.saveLive
  grind [State.wf_saveTeam]

theorem State.wf_frozenOver : Memory.wf (s.frozenOver tid ord).mem = true := by
  unfold State.frozenOver
  grind [State.wf_saveTeam]

theorem State.wf_saveRegs {regs : List Nat} : Memory.wf (s.saveRegs p regs).mem = true := by
  unfold State.saveRegs
  grind [State.wf_poke, State.wf_saveLines, State.wf_foldl]

theorem State.wf_frameScratch {k : Task} : Memory.wf (s.frameScratch k).mem = true := by
  unfold State.frameScratch
  grind [State.wf_poke]

theorem State.wf_writeLine {line : Nat} : Memory.wf (s.writeLine tid ord line).mem = true := by
  unfold State.writeLine
  grind [State.wf_saveLines]

theorem State.wf_evictLine {x : Nat × Nat × Nat} : Memory.wf (s.evictLine x).mem = true := by
  unfold State.evictLine
  grind [State.setTeam_mem, State.wf_writeLine]

theorem State.wf_spillTeam : Memory.wf (s.spillTeam tid ord).mem = true := by
  unfold State.spillTeam
  grind [State.setTeam_mem, State.wf_saveLines]

/-! ## Issue, faults and walks: memory kept canonical -/

theorem State.wf_drainFaults : Memory.wf (s.drainFaults c n).mem = true := by
  fun_induction State.drainFaults <;> grind [State.wf_ringWrite, State.modCtx_mem, State.setCreg_mem, State.resetDone_mem, State.raise_mem,
    State.setCtxErr_mem]

theorem State.wf_queueFault {r : FaultRec} : Memory.wf (s.queueFault r).mem = true := by
  unfold State.queueFault
  grind [State.modCtx_mem, State.wf_drainFaults]

theorem State.wf_drainSvc : Memory.wf (s.drainSvc c n).mem = true := by
  fun_induction State.drainSvc <;> grind [State.wf_ringWrite, State.modCtx_mem, State.setCreg_mem, State.raise_mem, State.setCtxErr_mem]

theorem State.wf_postSvc {value : Word64} : Memory.wf (s.postSvc p code value).1.mem = true := by
  unfold State.postSvc
  grind [State.modCtx_mem, State.wf_drainSvc]

theorem State.wf_frontEndRecord {cls : Nat} {addr : Word64} {detail : Word} :
    Memory.wf (s.frontEndRecord c cls code addr detail).mem = true := by
  unfold State.frontEndRecord
  grind [State.wf_queueFault]

theorem State.wf_reportRecord {k : Task} {addr : Word64} {detail : Word} :
    Memory.wf (s.reportRecord tid k code addr detail).mem = true := by
  unfold State.reportRecord
  grind [State.wf_queueFault]

theorem State.wf_freezeTeam : Memory.wf (s.freezeTeam tid ord).mem = true := by
  unfold State.freezeTeam
  grind [State.wf_frozenOver, State.setTeam_mem]

theorem State.wf_stopNew : Memory.wf (s.stopNew tid).mem = true := by
  unfold State.stopNew
  grind [State.wf_freezeTeam, State.wf_foldl]

theorem State.wf_takeTrap {pc : Word64} {tr : TrapInfo} : Memory.wf (s.takeTrap p pc tr).mem = true := by
  unfold State.takeTrap
  split
  · exact h
  · simpa using h
  · grind [RecRes.Canonical, canonical_endChunk, State.wf_queueFault, State.endPrologue_mem]
  · split
    · exact h
    · grind [RecRes.Canonical, canonical_endChunk, State.wf_queueFault, State.setTeam_mem, State.modCtx_mem, State.modTask_mem,
        State.wf_freezeTeam]

theorem State.wf_engineTrap {tr : TrapInfo} : Memory.wf (s.engineTrap o tr).mem = true := by
  unfold State.engineTrap
  grind [State.wf_takeTrap]

theorem State.wf_releaseTeam : Memory.wf (s.releaseTeam p).mem = true := by
  unfold State.releaseTeam
  grind [canonical_endChunk, State.setTeam_mem, RecRes.Canonical]

theorem State.wf_gangCheck {k : Task} : Memory.wf (s.gangCheck k id).mem = true := by
  unfold State.gangCheck
  grind [State.wf_releaseTeam, State.wf_foldl]

theorem State.wf_teamEnded : Memory.wf (s.teamEnded p).mem = true := by
  unfold State.teamEnded
  grind [State.wf_gangCheck, State.endHoldings_mem, State.wf_foldl]

theorem State.wf_endStep {pc : Word64} {status : Nat} : Memory.wf (s.endStep task ord pc status).mem = true := by
  unfold State.endStep
  grind [State.wf_takeTrap]

theorem State.wf_raiseTrap {pc : Word64} {tr : TrapInfo} : Memory.wf (s.raiseTrap p pc tr).mem = true := by
  unfold State.raiseTrap
  grind [State.wf_takeTrap, State.wf_endStep]

theorem State.wf_breakTeam : Memory.wf (s.breakTeam p t).1.mem = true := by
  unfold State.breakTeam
  grind [State.wf_takeTrap, State.setTeam_mem]

theorem State.wf_settle : Memory.wf (s.settle p).mem = true := by
  unfold State.settle
  grind [State.wf_teamEnded, State.wf_breakTeam, State.wf_endStep, State.restep_mem]

theorem State.wf_resume {f : Team → Team} : Memory.wf (s.resume p f).mem = true := by
  unfold State.resume
  grind [State.setTeam_mem, State.wf_settle]

theorem canonical_finish {s0 : State} {pc : Word64} {op : Option Nat} (h0 : Memory.wf s0.mem = true) :
    (finish hd s0 p pc op s t).Canonical := by
  unfold finish
  grind [State.wf_settle, State.setTeam_mem, State.wf_raiseTrap, Out.Canonical]

theorem canonical_issue {eff : State → Party → Team → Res} (heff : ∀ s p t, Memory.wf s.mem = true → (eff s p t).Canonical) :
    (issue i hd s eff).Canonical := by
  unfold issue
  split
  case h_1 => trivial
  case h_2 p _ =>
    split
    case h_1 => trivial
    case h_2 t _ =>
      split
      case isTrue => exact h
      case isFalse =>
        dsimp only
        split
        case h_1 => exact h
        case h_2 => exact State.wf_raiseTrap (by rwa [State.setTeam_mem])
        case h_3 =>
          have hr := heff (s.countIssue p) p (t.released'.begin i) (by rwa [State.countIssue_mem])
          grind [Out.Canonical, Res.Canonical, canonical_finish, State.wf_raiseTrap, State.wf_settle, State.wf_resume, State.setTeam_mem]

theorem canonical_issueTeam {f : Team → Team} : (issueTeam i hd s f).Canonical :=
  canonical_issue h fun _ _ _ hs => hs

theorem canonical_chunked {payload : List Byte} {k : State → Team → Res} (hk : ∀ s t, Memory.wf s.mem = true → (k s t).Canonical) :
    (chunked s p t kind payload k).Canonical := by
  unfold chunked
  grind [Res.Canonical, RecRes.Canonical, canonical_endChunk]

/-! ## Watched places: memory kept canonical -/

theorem State.wf_watchAt {a : Accessor} {loc : Loc} {reads writes : Bool} {formed : Word64} {lo len lane : Nat} :
    Memory.wf (s.watchAt a loc reads writes formed lo len lane).mem = true := by
  unfold State.watchAt
  grind [State.wf_sign, State.touch_mem, State.watchSpan_mem, State.recall_mem]

theorem State.wf_watch {a : Accessor} {loc : Loc} {reads writes : Bool} {formed : Word64} {len lane : Nat} :
    Memory.wf (s.watch a loc reads writes formed len lane).mem = true := by
  unfold State.watch
  grind [State.wf_watchAt]

/-! ## Checked accesses: memory kept canonical -/

theorem State.wf_resolveGlobal {va : Word64} : Memory.wf (s.resolveGlobal p how va).1.mem = true := by
  unfold State.resolveGlobal
  grind [State.wf_xlatNow]

theorem State.wf_resolve {sp : Space} {addr : Word64} {inTx : Bool} : Memory.wf (s.resolve p sp how addr inTx).1.mem = true := by
  unfold State.resolve
  grind [State.wf_resolveGlobal]

theorem State.wf_checkAccess {sp : Space} {addr : Word64} {inTx : Bool} : Memory.wf (s.checkAccess p sp how addr n inTx).1.mem = true := by
  unfold State.checkAccess
  grind [State.wf_resolve]

omit h in
theorem canonical_gather {f : MemForm} {addr : Nat → Word64} {ls : List Nat} {g : Gather} (h : Memory.wf g.s.mem = true) :
    Canonically Gather.s (gather i f p addr ls g) := by
  fun_induction gather <;> grind [State.wf_checkAccess, Canonically, Res.Canonical]

theorem wf_noteTxLoads {f : MemForm} {accs : List Access} : Memory.wf (noteTxLoads f s p t accs).mem = true := by
  unfold noteTxLoads
  grind [State.meetFlaws_mem, State.l1Touch_mem, State.touch_mem, State.wf_sign, State.wf_foldl]

theorem canonical_memOp {f : MemForm} {addr : Team → Nat → Word64} : (memOp i f addr s p t).Canonical := by
  unfold memOp
  grind [canonical_gather, wf_noteTxLoads, Res.Canonical, Canonically]

/-! ## Control: memory kept canonical -/

theorem canonical_openLoop {count : Nat} : (openLoop count s t).Canonical := by
  unfold openLoop
  grind [Res.Canonical]

/-! ## Publication: memory kept canonical -/

theorem State.wf_snapRegisters : Memory.wf (s.snapRegisters tid).mem = true := by
  unfold State.snapRegisters
  grind [State.wf_saveLive, State.wf_foldl]

theorem State.wf_commitTask : Memory.wf (s.commitTask tid).1.mem = true := by
  unfold State.commitTask
  grind [State.drawStamp_mem, State.setTask_mem, State.wf_publish, State.wf_snapRegisters, State.sendMessage_mem, State.wf_foldl]

/-! ## Descriptors: memory kept canonical -/

theorem canonical_readChunks {sp : Space} {addr : Word64} : Canonically Prod.fst (readChunks sp p t addr n s) := by
  fun_induction readChunks <;> grind [State.wf_checkAccess, State.meetFlaws_mem, Res.Canonical, Canonically]

theorem canonical_readBlock {sp : Space} {addr : Word64} {al : Nat} : Canonically Prod.fst (readBlock s p t sp addr al n) := by
  unfold readBlock
  grind [canonical_readChunks, Res.Canonical, Canonically]

theorem State.wf_watchBlock {pc : Word64} {sp : Space} {addr : Word64} : Memory.wf (s.watchBlock p pc sp addr n).mem = true := by
  unfold State.watchBlock
  grind [State.wf_watch]

theorem canonical_registering {op : Nat} {ls : List LockSpan} {k : State → Team → Nat → Res}
    (hk : ∀ s t n, Memory.wf s.mem = true → (k s t n).Canonical) : (registering s p t core op ls k).Canonical := by
  unfold registering
  grind [Res.Canonical, canonical_chunked, State.setCore_mem]

theorem canonical_fetching {va : Word64} {k : State → Nat → Res} (hk : ∀ s n, Memory.wf s.mem = true → (k s n).Canonical) :
    (fetching s p va n k).Canonical := by
  unfold fetching
  grind [Res.Canonical, RecRes.Canonical, canonical_endChunk, State.setCore_mem, State.setTeam_mem]

/-! ## Launches: memory kept canonical -/

theorem State.wf_feFault {α : Type} {what va : Nat} {x : Xlat} {write : Bool} :
    Memory.wf (@State.feFault s c what n va x write α).1.mem = true := by
  unfold State.feFault
  grind [State.modCtx_mem, State.wf_frontEndRecord, State.feDenied_mem, State.feDeny_mem]

theorem State.wf_feAccess {what va len : Nat} {busy : State → List Nat → Bool} {α : Type} {act : State → List Nat → State × α}
    (hact : ∀ s ps, Memory.wf s.mem = true → Memory.wf (act s ps).1.mem = true) :
    Memory.wf (s.feAccess c what n how va len busy act).1.mem = true := by
  unfold State.feAccess
  grind [State.feDenied_mem, State.wf_feXlat, State.wf_feFault]

theorem State.wf_feGet {what va len : Nat} : Memory.wf (s.feGet c what n va len).1.mem = true :=
  State.wf_feAccess h fun _ _ hs => hs

theorem State.wf_fePut {what va : Nat} {data : List Byte} : Memory.wf (s.fePut c what n va data).1.mem = true :=
  State.wf_feAccess h fun _ _ hs => State.wf_commitAt hs

theorem State.wf_feAdd {what va value : Nat} : Memory.wf (s.feAdd c what n va value).1.mem = true :=
  State.wf_feAccess h fun s ps hs => by
    cases ps with
    | nil => exact hs
    | cons pa _ => exact State.wf_commitBytes s pa _ hs

theorem State.wf_copyArgs : Memory.wf (s.copyArgs g).mem = true := by
  unfold State.copyArgs
  grind [State.wf_feGet, State.setGrid_mem, State.abandon_mem]

theorem State.wf_startRun : Memory.wf (s.startRun g).mem = true := by
  unfold State.startRun
  grind [State.wf_copyArgs, State.setGrid_mem]

theorem State.wf_childLaunch {record table : List Byte} : Memory.wf (s.childLaunch c core record table).1.mem = true := by
  unfold State.childLaunch
  grind [State.addGrid_mem, State.wf_copyArgs, State.modCore_mem]

/-! ## Engines: memory kept canonical -/

theorem canonical_startEngine {eng : Nat} {desc : List Byte} {ls : List LockSpan} : (startEngine s p t eng desc ls).Canonical := by
  unfold startEngine
  grind [canonical_registering, State.modCore_mem, Res.Canonical]

theorem canonical_copyRes {d : List Byte} : (copyRes i d s p t).Canonical := by
  unfold copyRes
  grind [canonical_startEngine, Res.Canonical]

theorem canonical_execTcopy {a : BitVec 7} {b : BitVec 1} : (execTcopy hd a b s).Canonical := by
  refine canonical_issue h fun s p t hs => ?_
  dsimp only
  generalize descAt t a.toNat _ = x
  grind [Res.Canonical, Canonically, canonical_readBlock, canonical_copyRes, State.wf_watchBlock]

theorem canonical_chainRes {d : List Byte} : (chainRes i d s p t).Canonical := by
  unfold chainRes
  grind [canonical_startEngine, Res.Canonical]

theorem canonical_execChain {a : BitVec 7} {b : BitVec 1} : (execChain hd a b s).Canonical := by
  refine canonical_issue h fun s p t hs => ?_
  dsimp only
  generalize descAt t a.toNat _ = x
  grind [Canonically, canonical_readBlock, canonical_chainRes, State.wf_watchBlock]

theorem canonical_collRes {d : List Byte} : (collRes i d s p t).Canonical := by
  unfold collRes
  grind [canonical_registering, State.modCore_mem, Res.Canonical]

theorem canonical_execColl {a : BitVec 7} {b : BitVec 1} : (execColl hd a b s).Canonical := by
  refine canonical_issue h fun s p t hs => ?_
  dsimp only
  generalize descAt t a.toNat _ = x
  grind [Canonically, canonical_readBlock, canonical_collRes, State.wf_watchBlock]

theorem canonical_obresRes {len : Nat} : (obresRes n len s p t).Canonical := by
  unfold obresRes
  grind [State.setCore_mem, Res.Canonical]

theorem canonical_obsetRes {w1 w2 : Word} : (obsetRes n w1 w2 s p t).Canonical := by
  unfold obsetRes
  grind [State.setCore_mem, Res.Canonical]

theorem canonical_obrelRes : (obrelRes n s p t).Canonical := by
  unfold obrelRes
  grind [State.setCore_mem, Res.Canonical]

theorem canonical_qpushLdRes {va : Word64} : (qpushLdRes va s p t).Canonical := by
  unfold qpushLdRes
  grind [State.wf_checkAccess, canonical_fetching, State.pushLead_mem, Res.Canonical]

theorem canonical_sourceParts {va : Word64} : Canonically Prod.fst (sourceParts p va n s) := by
  fun_induction sourceParts <;> grind [State.wf_checkAccess, Res.Canonical, Canonically]

theorem canonical_qpushObRes {va : Word64} : (qpushObRes n va s p t).Canonical := by
  unfold qpushObRes
  grind [canonical_sourceParts, canonical_fetching, State.pushLead_mem, Res.Canonical, Canonically]

theorem canonical_qpopRes {d : Nat} : (qpopRes d s p t).Canonical := by
  unfold qpopRes
  grind [State.modCore_mem, Res.Canonical]

theorem canonical_launchRes {va : Word64} : (launchRes i va s p t).Canonical := by
  unfold launchRes
  grind [canonical_readBlock, State.wf_watchBlock, Res.Canonical, Canonically]

theorem canonical_msendRes {target : Word} {va : Word64} : (msendRes target va s p t).Canonical := by
  unfold msendRes
  grind [canonical_readBlock, State.wf_watchBlock, State.modTask_mem, Res.Canonical, Canonically]

theorem State.wf_deliver {m : Message} : Memory.wf (s.deliver m).mem = true := by
  unfold State.deliver
  grind [State.countFlow_mem, State.wf_note]

theorem wf_deliverHeld : Memory.wf (deliverHeld n s).mem = true := by
  fun_induction deliverHeld <;> grind [State.wf_deliver]

theorem canonical_mrecvRes {va : Word64} {box : Word} : (mrecvRes va box s p t).Canonical := by
  unfold mrecvRes
  grind [State.wf_checkAccess, canonical_chunked, wf_deliverHeld, State.modTask_mem, Res.Canonical]

/-! ## Barriers and parks: memory kept canonical -/

theorem canonical_holdCommit {w : CommitWork} : (holdCommit w s t).Canonical := by
  unfold holdCommit
  grind [Res.Canonical]

theorem canonical_fenceRes {order scope : Nat} : (fenceRes order scope s p t).Canonical := by
  unfold fenceRes
  grind [canonical_holdCommit, Res.Canonical]

theorem State.wf_parkWord {a : Word64} : Memory.wf (s.parkWord p kind a).1.mem = true := by
  unfold State.parkWord
  grind [State.wf_checkAccess]

theorem State.wf_watchPark {pc a : Word64} {x : ParkWord} : Memory.wf (s.watchPark p pc a x).mem = true := by
  unfold State.watchPark
  grind [State.wf_watch]

theorem canonical_parkRes {eq : Bool} {a : Word64} {c : Word} : (parkRes kind eq a c s p t).Canonical := by
  unfold parkRes
  grind [State.wf_parkWord, State.parkFlaws_mem, State.wf_watchPark, Res.Canonical]

theorem canonical_barRes {count : Nat} {waits : Bool} : (barRes id count waits s p t).Canonical := by
  unfold barRes
  grind [canonical_chunked, State.wf_setBar, State.wf_releaseTeam, State.wf_foldl, Res.Canonical]

theorem canonical_gbarRes : (gbarRes id s p t).Canonical := by
  unfold gbarRes
  grind [canonical_chunked, State.wf_gangCheck, Res.Canonical]

/-! ## System words: memory kept canonical -/

theorem State.wf_postHold {value : Word64} : Memory.wf (s.postHold p t code value).1.mem = true := by
  unfold State.postHold
  grind [State.wf_postSvc]

theorem canonical_sysRes {value : Word64} : (sysRes code value s p t).Canonical := by
  unfold sysRes
  grind [State.wf_postHold, canonical_holdCommit, Res.Canonical]

theorem canonical_clockRes {source : Nat} {live : Word64} {d : Nat} : (clockRes source live d s p t).Canonical := by
  unfold clockRes
  grind [canonical_chunked, Res.Canonical]

theorem canonical_execMark {n : BitVec 14} : (execMark hd n s).Canonical := by
  refine canonical_issue h fun s p t hs => ?_
  grind [Res.Canonical, State.wf_metRecord, State.wf_writeMark]

theorem State.wf_beginStep {w : Nat} : Memory.wf (s.beginStep w).1.mem = true := by
  unfold State.beginStep
  grind [State.reloadTeam_mem, State.wf_settle, State.setTeam_mem]

theorem canonical_execDstep {d a : BitVec 5} : (execDstep hd d a s).Canonical := by
  refine canonical_issue h fun s p t hs => ?_
  grind [Res.Canonical, State.wf_beginStep]

theorem canonical_execHalt : (execHalt hd s).Canonical := by
  refine canonical_issue h fun s p t hs => ?_
  grind [Res.Canonical, State.modCtx_mem]

/-! ## Events of a team: memory kept canonical -/

theorem State.wf_afterCommit {w : CommitWork} : Memory.wf (s.afterCommit p w).mem = true := by
  unfold State.afterCommit
  grind [State.wf_resume, State.wf_childLaunch, State.setTeam_mem, State.wf_copyArgs, State.wf_postHold, State.wf_settle]

theorem canonical_execCommit : (execCommit p s).Canonical := by
  unfold execCommit
  split
  · exact h
  split
  · exact State.wf_afterCommit h
  · grind [Out.Canonical, RecRes.Canonical, canonical_endChunk, State.wf_hitMates, State.wf_hitVersion, State.wf_commitTask,
      State.wf_afterCommit, State.setTeam_mem]
  · exact h

theorem canonical_execParkReread : (execParkReread p s).Canonical := by
  unfold execParkReread
  split
  · exact h
  split
  · split
    · exact h
    split
    · grind [Out.Canonical, State.wf_parkWord, State.parkFlaws_mem, State.wf_watchPark, State.wf_raiseTrap, State.wf_resume]
    · grind [Out.Canonical, State.wf_parkWord, State.wf_fillTlb, State.wf_walk, State.wf_takeTrap, State.setTeam_mem]
    all_goals grind [Out.Canonical, State.wf_parkWord, State.wf_raiseTrap]
  · exact h

theorem canonical_execYieldResume : (execYieldResume p s).Canonical := by
  unfold execYieldResume
  grind [State.setTeam_mem, Out.Canonical]

theorem canonical_execHaltWake : (execHaltWake p s).Canonical := by
  unfold execHaltWake
  grind [State.setTeam_mem, State.modCtx_mem, Out.Canonical]

theorem canonical_execRegisterLineFill {line : Nat} : (execRegisterLineFill task ord line s).Canonical := by
  unfold execRegisterLineFill
  grind [State.wf_evictLine, State.setTeam_mem, Out.Canonical]

theorem canonical_execRegisterLineWriteback {line : Nat} {evict : Bool} : (execRegisterLineWriteback task ord line evict s).Canonical := by
  unfold execRegisterLineWriteback
  grind [State.wf_writeLine, State.wf_evictLine, Out.Canonical]

theorem canonical_execTlbWalkEnd : (execTlbWalkEnd p s).Canonical := by
  unfold execTlbWalkEnd
  split
  case h_1 => exact h
  case h_2 =>
    split
    case h_1 =>
      split
      case isTrue => exact h
      case isFalse =>
        split
        case h_1 hw =>
          exact (congrArg Memory.wf (State.setTeam_mem _ _ _)).trans (State.wf_fillTlb h (State.wf_walk _ _ _ _ _ _ h hw))
        case h_2 => exact State.wf_raiseTrap (by rwa [State.setTeam_mem])
    case h_2 => exact h

theorem canonical_execChunkSignatureHit : (execChunkSignatureHit task ord s).Canonical := by
  unfold execChunkSignatureHit
  grind [State.wf_cutChunk, Out.Canonical]

theorem canonical_execChunkCountExpiry : (execChunkCountExpiry task ord s).Canonical := by
  unfold execChunkCountExpiry
  grind [State.wf_cutChunk, Out.Canonical]

theorem State.wf_stepExpires : Memory.wf (s.stepExpires task ord).mem = true := by
  unfold State.stepExpires
  grind [State.wf_settle, State.setTeam_mem, State.wf_endStep]

theorem canonical_execDstepTimeout : (execDstepTimeout p s).Canonical := by
  unfold execDstepTimeout
  grind [State.wf_stepExpires, State.setTeam_mem, Out.Canonical]

theorem canonical_execTeamSlotRelease : (execTeamSlotRelease task ord s).Canonical := by
  unfold execTeamSlotRelease
  grind [State.wf_teamEnded, State.setTeam_mem, Out.Canonical]

/-! ## Events of a task: memory kept canonical -/

theorem State.wf_prologueRecord {pc : Word64} : Memory.wf (s.prologueRecord c pc).mem = true := by
  unfold State.prologueRecord
  grind [State.wf_queueFault]

theorem State.wf_reachCheck : Memory.wf (s.reachCheck g).mem = true := by
  unfold State.reachCheck
  grind [State.openCheck_mem, State.setGrid_mem, State.wf_flushCtx]

theorem canonical_execPhaseCheckClose : (execPhaseCheckClose ctx s).Canonical := by
  unfold execPhaseCheckClose
  grind [State.modGrid_mem, State.openCheck_mem, State.modCtx_mem, State.wf_foldl, Out.Canonical]

theorem State.wf_afterRun : Memory.wf (s.afterRun g).mem = true := by
  unfold State.afterRun
  grind [State.setGrid_mem, State.endGrid_mem, State.wf_reachCheck]

theorem State.wf_countEnded {failed : Bool} : Memory.wf (s.countEnded g n failed).mem = true := by
  unfold State.countEnded
  grind [State.wf_afterRun, State.modGrid_mem]

theorem canonical_execRunStart {grid : Nat} : (execRunStart grid s).Canonical := by
  unfold execRunStart
  grind [State.wf_reachCheck, State.setGrid_mem, State.wf_afterRun, State.wf_startRun, Out.Canonical]

theorem canonical_endChunks {stamp : Nat} {ords : List Nat} : (endChunks tid stamp ords s).Canonical := by
  induction ords generalizing s with
  | nil =>
    unfold endChunks
    grind [RecRes.Canonical]
  | cons o os ih =>
    unfold endChunks
    grind [RecRes.Canonical, canonical_endChunk, State.setTeam_mem]

theorem canonical_execCohortEnd : (execCohortEnd task s).Canonical := by
  unfold execCohortEnd
  grind [State.wf_hitVersion, canonical_endChunks, State.wf_commitTask, State.modTask_mem, State.freeTask_mem, State.modGrid_mem,
    State.dropGang_mem, State.wf_gangCheck, State.checkDone_mem, State.wf_countEnded, State.wf_foldl, Out.Canonical, RecRes.Canonical]

theorem canonical_execTaskFail : (execTaskFail task s).Canonical := by
  unfold execTaskFail
  grind [State.stopMember_mem, State.wf_reportRecord, State.dropGang_mem, State.modGrid_mem, State.checkDone_mem, State.wf_countEnded,
    State.wf_foldl, Out.Canonical]

theorem State.canonical_lossRecord : (s.lossRecord tid code).Canonical := by
  unfold State.lossRecord
  grind [canonical_endChunk, State.setTeam_mem, RecRes.Canonical]

theorem State.wf_loseTask {named : List Nat} {addr : Word64} : Memory.wf (s.loseTask named tid code addr).mem = true := by
  unfold State.loseTask
  grind [State.canonical_lossRecord, State.wf_reportRecord, State.stopMember_mem, State.modGrid_mem, State.dropGang_mem,
    State.checkDone_mem, State.wf_countEnded, State.wf_foldl, RecRes.Canonical]

theorem canonical_execFaddTreeApply {grid : Nat} : (execFaddTreeApply grid s).Canonical := by
  unfold execFaddTreeApply
  grind [State.wf_commitBytes, State.wf_afterRun, State.setGrid_mem, State.wf_foldl, Out.Canonical]

theorem State.wf_completeWord {what va value : Nat} {add : Bool} : Memory.wf (s.completeWord c what n va value add).1.mem = true := by
  unfold State.completeWord
  grind [State.wf_feAdd, State.wf_fePut]

theorem canonical_execGridCompletion {grid : Nat} : (execGridCompletion grid s).Canonical := by
  unfold execGridCompletion
  grind [State.wf_completeWord, State.endGrid_mem, Out.Canonical]

/-! ## Debugging and preemption: memory kept canonical -/

theorem canonical_execPfresRetry {value : Word} : (execPfresRetry ctx value s).Canonical := by
  unfold execPfresRetry
  grind [State.setCtxErr_mem, State.dropFault_mem, State.setTeam_mem, State.modCore_mem, Out.Canonical]

theorem canonical_execPfresFail {value : Word} : (execPfresFail ctx value s).Canonical := by
  unfold execPfresFail
  grind [State.setCtxErr_mem, State.dropFault_mem, State.wf_raiseTrap, State.setTeam_mem, State.wf_engineTrap, State.modCore_mem,
    State.feDeny_mem, State.wf_frontEndRecord, Out.Canonical]

theorem State.wf_watchRecord {hd : Hit} {x : Nat × Nat × Task × Team} : Memory.wf (s.watchRecord hd x).mem = true := by
  unfold State.watchRecord
  grind [State.wf_queueFault]

theorem State.wf_stopTeam {x : Nat × Nat × Task × Team} : Memory.wf (s.stopTeam x).mem = true := by
  unfold State.stopTeam
  grind [State.wf_freezeTeam, State.wf_cutChunk]

theorem canonical_execClusterStop {cluster : Nat} : (execClusterStop cluster s).Canonical := by
  unfold execClusterStop
  grind [State.wf_stopTeam, State.wf_watchRecord, State.setCluster_mem, State.wf_foldl, Out.Canonical]

theorem canonical_execClstopReq {cluster : Nat} {value : Word} : (execClstopReq cluster value s).Canonical := by
  unfold execClstopReq
  grind [State.setCtxErr_mem, State.wf_stopTeam, State.setReg_mem, State.modCluster_mem, State.wf_foldl, Out.Canonical]

theorem State.wf_release {cluster : Nat} : Memory.wf (s.release cluster c).mem = true := by
  unfold State.release
  grind [State.wf_endStep, State.modCluster_mem, State.unfreeze_mem, State.wf_foldl]

theorem canonical_execClstopRel {cluster : Nat} {value : Word} : (execClstopRel cluster value s).Canonical := by
  unfold execClstopRel
  grind [State.setCtxErr_mem, State.wf_release, State.setReg_mem, Out.Canonical]

theorem State.wf_endHalted {all : Bool} : Memory.wf (s.endHalted c all).mem = true := by
  unfold State.endHalted
  grind [State.endPrologue_mem, State.wf_prologueRecord]

theorem State.wf_saveCtx : Memory.wf (s.saveCtx c).mem = true := by
  unfold State.saveCtx
  grind [State.wf_saveLive, State.wf_foldl]

theorem State.wf_cutCtx : Memory.wf (s.cutCtx c).mem = true := by
  unfold State.cutCtx
  grind [State.wf_cutChunk, State.wf_foldl]

theorem canonical_execPreemptGo {value : Word} : (execPreemptGo ctx value s).Canonical := by
  unfold execPreemptGo
  grind [State.setCtxErr_mem, State.wf_endHalted, State.modCtx_mem, State.setCreg_mem, State.wf_saveCtx, State.wf_cutCtx,
    State.checkDone_mem, Out.Canonical]

theorem canonical_execPreemptResume {value : Word} : (execPreemptResume ctx value s).Canonical := by
  unfold execPreemptResume
  grind [State.setCtxErr_mem, State.modCtx_mem, State.setCreg_mem, Out.Canonical]

theorem State.wf_resetTask {e : Nat × Task} : Memory.wf (s.resetTask e).mem = true := by
  unfold State.resetTask
  grind [State.canonical_lossRecord, State.wf_reportRecord, State.dropTask_mem, State.freeTask_mem, State.giveBack_mem, RecRes.Canonical]

theorem State.wf_forceReset : Memory.wf (s.forceReset c).mem = true := by
  unfold State.forceReset
  grind [State.modCluster_mem, State.wf_release, State.modCtx_mem, State.wf_resetTask, State.dropTask_mem, State.abandon_mem,
    State.wf_endHalted, State.setCreg_mem, State.resetDone_mem, State.wf_foldl]

theorem canonical_execPreemptDeadline : (execPreemptDeadline ctx s).Canonical := by
  unfold execPreemptDeadline
  grind [State.wf_forceReset, Out.Canonical]

theorem canonical_execContextReset {value : Word} : (execContextReset ctx value s).Canonical := by
  unfold execContextReset
  grind [State.setCtxErr_mem, State.wf_forceReset, Out.Canonical]

/-! ## Matrix words: memory kept canonical -/

theorem canonical_startMatrix {w : MatrixWord} {tile : Nat} : (startMatrix w tile seq s p t).Canonical := by
  unfold startMatrix
  grind [State.setCore_mem, Res.Canonical]

theorem canonical_matrixWord {w : MatrixWord} {tile : Nat} : (matrixWord w tile s p t).Canonical := by
  unfold matrixWord
  grind [canonical_startMatrix, Res.Canonical]

theorem canonical_rowPart {sp : Space} {lane : Nat} {addr : Word64} {off len : Nat} :
    Canonically Prod.fst (rowPart sp how p lane addr off len s) := by
  unfold rowPart
  grind [State.wf_resolve, Res.Canonical, Canonically]

theorem canonical_rowParts {sp : Space} {base : Word64} {al : Nat} {ns : List Nat} :
    Canonically Prod.fst (rowParts sp how p base al n ns s) := by
  fun_induction rowParts <;> grind [canonical_rowPart, Res.Canonical, Canonically]

theorem canonical_execMres {t : BitVec 3} : (execMres hd t s).Canonical := by
  refine canonical_issue h fun s p t hs => ?_
  grind [Res.Canonical, State.cleanse_mem, State.setCore_mem]

theorem canonical_execMrel {t : BitVec 3} : (execMrel hd t s).Canonical := by
  refine canonical_issue h fun s p t hs => ?_
  grind [Res.Canonical, State.setCore_mem]

theorem canonical_mldRes {tile : Nat} {base : Word64} : (mldRes tile base s p t).Canonical := by
  unfold mldRes
  grind [canonical_rowParts, canonical_startMatrix, Res.Canonical, Canonically]

theorem canonical_mmaRes {w : MatrixWord} {tile : Nat} {a : Option Nat} {b block : Nat} : (mmaRes w tile a b block s p t).Canonical := by
  unfold mmaRes
  grind [canonical_startMatrix, Res.Canonical]

theorem canonical_drainMem {tile norm : Nat} {base : Word64} : (drainMem tile norm kind base s p t).Canonical := by
  unfold drainMem
  grind [canonical_rowParts, canonical_registering, canonical_startMatrix, Res.Canonical, Canonically]

theorem canonical_execMdrain {t : BitVec 3} {k n o : BitVec 2} {i : BitVec 5} : (execMdrain hd t k n o i s).Canonical := by
  refine canonical_issue h fun s p t hs => ?_
  grind [Res.Canonical, canonical_startMatrix, canonical_drainMem]

/-! ## Events of an engine: memory kept canonical -/

theorem State.wf_engLocs {scratch : Bool} {addr : Int} : Memory.wf (s.engLocs p scratch how addr n).1.mem = true := by
  fun_induction State.engLocs <;> grind [State.wf_xlatNow]

theorem wf_engRead {scratch : Bool} {addr : Int} : Memory.wf (engRead s core o scratch addr n).1.mem = true := by
  unfold engRead
  grind [State.wf_engLocs, State.meetFlaws_mem, State.wf_watch]

theorem State.wf_writeSpd {xs : List (Loc × Byte)} : Memory.wf (s.writeSpd xs).mem = true := by
  fun_induction State.writeSpd <;> grind [State.wf_writeScratch]

theorem wf_engWrite {scratch : Bool} {addr : Int} {bs : List Byte} : Memory.wf (engWrite s o scratch addr bs).1.mem = true := by
  unfold engWrite
  grind [State.wf_engLocs, State.wf_writeSpd, State.wf_watch]

theorem wf_copyWrite {c : Copy} {r : ObRec} {addr : Int} {bs : List Byte} : Memory.wf (copyWrite s c r o addr bs).1.mem = true := by
  unfold copyWrite
  grind [wf_engWrite]

theorem wf_copyPeek {c : Copy} {r : ObRec} {addr : Int} : Memory.wf (copyPeek s core c r o addr).1.mem = true := by
  unfold copyPeek
  grind [State.wf_engLocs]

theorem wf_copyPut {c : Copy} {r : ObRec} {pos : Nat} : Memory.wf (copyPut s core c r o pos code).1.mem = true := by
  unfold copyPut
  grind [wf_copyWrite, wf_copyPeek]

theorem wf_copyPuts {c : Copy} {r : ObRec} {ns : List Nat} {x : EngOp} : Memory.wf (copyPuts core c r ns n s x).1.mem = true := by
  fun_induction copyPuts <;> grind [wf_copyPut]

theorem wf_copyScale {c : Copy} {r : ObRec} {first len : Nat} {q : Quant} :
    Memory.wf (copyScale s core c r o first len q).1.mem = true := by
  unfold copyScale
  grind [wf_engWrite]

theorem wf_copyStep : Memory.wf (copyStep s core o).1.mem = true := by
  unfold copyStep
  grind [wf_engRead, wf_copyPut, wf_copyPuts, wf_copyScale]

theorem wf_chainStep : Memory.wf (chainStep s core o).1.mem = true := by
  unfold chainStep
  grind [wf_engRead, wf_engWrite]

theorem State.wf_engPageFault {va : Word64} {write : Bool} : Memory.wf (s.engPageFault core o va write).1.mem = true := by
  unfold State.engPageFault
  grind [canonical_endChunk, State.setTeam_mem, State.wf_queueFault, State.modCtx_mem, RecRes.Canonical]

theorem canonical_engStopped {e : EngStop} {put : State → EngOp → State}
    (hput : ∀ s o, Memory.wf s.mem = true → Memory.wf (put s o).mem = true) : (engStopped s core o e put).Canonical := by
  unfold engStopped
  grind [Out.Canonical, State.wf_engPageFault, State.wf_engineTrap]

theorem canonical_engRun {eng : Nat} {x : EngOp} : (engRun core eng n s x).Canonical := by
  fun_induction engRun <;> grind [State.setEngOp_mem, wf_copyStep, wf_chainStep, canonical_engStopped, Out.Canonical]

theorem canonical_execEngineOperationRun {eng : Nat} : (execEngineOperationRun core eng n s).Canonical := by
  unfold execEngineOperationRun
  grind [canonical_engRun, Out.Canonical]

theorem wf_storeRuns {xs : List (Place × List Byte)} (hs : storeRuns task core xs s = some s') : Memory.wf s'.mem = true := by
  fun_induction storeRuns <;> grind [State.cleanse_mem, State.modCore_mem, State.wf_storeLoc]

theorem State.wf_finishEngine {drop : Core → Core} : Memory.wf (s.finishEngine core o drop).mem = true := by
  unfold State.finishEngine
  grind [wf_storeRuns, State.wf_engineTrap, State.wf_resume, State.modCore_mem]

theorem canonical_execEngineCompletion : (execEngineCompletion core id s).Canonical := by
  unfold execEngineCompletion
  grind [State.wf_finishEngine, Out.Canonical]

theorem wf_collSource {x : EngOp} : Memory.wf (collSource core n s x).1.mem = true := by
  fun_induction collSource <;> grind [wf_engRead]

theorem wf_gatherSources {own group : Nat} {xs : List (Nat × Nat)} {xs1 : List (List Byte)} :
    Memory.wf (gatherSources own group xs xs1 s).1.mem = true := by
  fun_induction gatherSources <;> grind [wf_collSource, State.setColl_mem]

theorem wf_collWrite {result : List Byte} {x : EngOp} : Memory.wf (collWrite result n s x).1.mem = true := by
  fun_induction collWrite <;> grind [wf_engWrite]

theorem canonical_scatterResults {result : Word → List Byte} {rest ready : List (Nat × EngOp)} :
    (scatterResults result rest ready s).Canonical := by
  induction rest generalizing ready s with
  | nil => exact State.wf_foldl _ (fun _ _ h => by rwa [State.setColl_mem]) _ _ h
  | cons x rest ih =>
    unfold scatterResults
    grind [canonical_engStopped, wf_collWrite, State.setColl_mem]

theorem State.wf_collRefused : Memory.wf (s.collRefused core o).mem = true := by
  unfold State.collRefused
  grind [State.modCore_mem, State.setTeam_mem, State.wf_takeTrap]

theorem canonical_execCollectiveCombine {group : Nat} {others : List (List Byte)} :
    (execCollectiveCombine ctx group others s).Canonical := by
  unfold execCollectiveCombine
  grind [State.wf_collRefused, wf_gatherSources, canonical_engStopped, State.setColl_mem, canonical_scatterResults, State.wf_foldl,
    Out.Canonical]

theorem canonical_execLeadFetchComplete : (execLeadFetchComplete task ord id n s).Canonical := by
  unfold execLeadFetchComplete
  grind [State.meetFlaws_mem, State.wf_raiseTrap, State.wf_watch, State.wf_resume, fetchFlaws_mem, State.cleanse_mem, State.modCore_mem,
    Out.Canonical]

/-! ## Events of an array: memory kept canonical -/

theorem canonical_execObRecordGrant : (execObRecordGrant core s).Canonical := by
  unfold execObRecordGrant
  grind [State.setCore_mem, Out.Canonical]

theorem canonical_execTileGrant {tile : Nat} : (execTileGrant core tile s).Canonical := by
  unfold execTileGrant
  grind [State.cleanse_mem, State.setCore_mem, Out.Canonical]

theorem canonical_execMatrixArrayTake {quad : Nat} : (execMatrixArrayTake core quad s).Canonical := by
  unfold execMatrixArrayTake
  grind [State.setCore_mem, State.setTeam_mem, Out.Canonical]

theorem wf_drainParts {k : Core} {pc : Word64} {md : Word} {norm tile : Nat} {a80 : Bool} {xs : List Access}
    (hs : drainParts k p pc md norm tile a80 xs s = some s') : Memory.wf s'.mem = true := by
  fun_induction drainParts <;> grind [State.wf_storeLoc, State.wf_watch]

theorem State.wf_wordDone {rest : Option MatrixWord} {f : Team → Team} : Memory.wf (s.wordDone p id rest f).mem = true := by
  unfold State.wordDone
  grind [State.wf_resume]

theorem canonical_execMatrixWordComplete : (execMatrixWordComplete p id s).Canonical := by
  unfold execMatrixWordComplete
  split
  case h_2 => exact h
  case h_1 t task _ _ =>
    split
    case h_1 => exact h
    case h_2 x _ =>
      split
      case h_2 => exact h
      case h_1 w tile mask arrived seq _ =>
        lift_lets
        extract_lets core k act trap held
        have hm : Memory.wf (matrixFlaws s p core act.word x.md tile act.rows).1.mem = true := by rwa [matrixFlaws_mem]
        clear_value held act k
        split
        case isTrue => exact h
        case isFalse =>
          split
          case h_1 e =>
            exact State.wf_raiseTrap (by simpa [e] using hm)
          case h_2 s1 e =>
            rw [e] at hm
            clear e
            generalize act.word = wd
            cases wd
            case mdrain norm dst => cases dst <;> grind [Out.Canonical, State.wf_saveRegs, State.wf_wordDone, wf_drainParts,
              State.wf_raiseTrap, State.modCore_mem]
            all_goals
              refine State.wf_wordDone ?_
              grind [State.cleanse_mem, State.setCore_mem, State.wf_foldl, State.wf_watch]

/-! ## Events of memory: memory kept canonical -/

theorem State.wf_ldOver {regs : List Nat} : Memory.wf (s.ldOver p regs).mem = true := by
  unfold State.ldOver
  grind [State.wf_frozenOver, State.wf_saveRegs]

theorem wf_finishLoad {x : Pend} {m : MemOp} : Memory.wf (finishLoad s p t x m).mem = true := by
  unfold finishLoad
  grind [State.wf_watch, State.l1Reads_mem, State.wf_ldOver, State.wf_resume, State.setTeam_mem, State.wf_foldl]

theorem wf_finishAtomic {x : Pend} {m : MemOp} : Memory.wf (finishAtomic s p t x m).mem = true := by
  unfold finishAtomic
  grind [State.wf_ldOver, State.wf_resume]

theorem canonical_execLoadResultWrite : (execLoadResultWrite p id s).Canonical := by
  unfold execLoadResultWrite
  split
  · exact h
  split
  · exact h
  split
  · grind [Out.Canonical, State.readFlaws_mem, wf_finishLoad, State.wf_raiseTrap, wf_finishAtomic]
  · exact h

theorem wf_storeAll {m : MemOp} {redirect : Bool} {xs : List Access} (hs : storeAll p m redirect xs s = some s') :
    Memory.wf s'.mem = true := by
  fun_induction storeAll <;> grind [State.addPartial_mem, State.wf_versionWrite, State.wf_storeLoc]

theorem State.wf_storeCommit {after : State} {x : Pend} (h1 : Memory.wf after.mem = true) :
    Memory.wf (s.storeCommit after p t x).mem = true := by
  unfold State.storeCommit
  grind [canonical_execCommit, Out.Canonical]

theorem canonical_execStorePerformed : (execStorePerformed p id s).Canonical := by
  unfold execStorePerformed
  split
  · exact h
  split
  · exact h
  split
  · grind [Out.Canonical, wf_storeAll, State.wf_raiseTrap, State.wf_foldl, State.wf_watch, State.wf_storeCommit, State.wf_resume,
      State.setTeam_mem]
  · exact h

theorem wf_applyPlace {m : MemOp} {wide redirect : Bool} {l : Loc} {accs : List Access} {r : State × List (Nat × Word64)}
    (hs : applyPlace p m wide redirect l accs s = some r) : Memory.wf r.1.mem = true := by
  unfold applyPlace at hs
  split at hs
  · cases hs
    exact State.wf_writeScratch _ _ _ _ h
  split at hs
  · split at hs
    · cases hs
    · cases hs
      rw [State.foldl_mem _ fun _ _ => State.addPartial_mem]
      exact h
  split at hs
  · cases hs
    exact (congrArg _ State.textWritten_mem).trans (State.wf_poke _ _ _ h)
  · obtain ⟨u, hu, rfl⟩ := Option.map_eq_some_iff.mp hs
    exact wf_foldl_bind (fun _ _ _ h hs => State.wf_versionWrite _ _ _ _ h hs) h hu

theorem wf_applyPlaces {m : MemOp} {wide redirect : Bool} {accs : List Access} {ls : List Loc} {r : State × List (Nat × Word64)}
    (hs : applyPlaces p m wide redirect accs ls s = some r) : Memory.wf r.1.mem = true := by
  induction ls generalizing s r with
  | nil => cases hs; exact h
  | cons l ls ih =>
    unfold applyPlaces at hs
    split at hs
    case h_1 => cases hs
    case h_2 hl =>
      split at hs
      case h_1 => cases hs
      case h_2 hls =>
        have hrest := ih (by exact wf_applyPlace h hl) hls
        cases hs
        exact hrest

theorem canonical_execAtomicRequestExecute {req : Nat} : (execAtomicRequestExecute p id req s).Canonical := by
  unfold execAtomicRequestExecute
  split
  case h_1 => exact h
  case h_2 t ht =>
    split
    case h_1 => exact h
    case h_2 x hx =>
      split
      case h_2 => exact h
      case h_1 m hm =>
        split
        case h_1 => exact h
        case h_2 r0 hr0 =>
          extract_lets r after wide tid flaws s0 s1 s2 lines q c tr pass
          have hf : Memory.wf flaws.1.mem = true := by rwa [State.readFlaws_mem]
          have h2 : Memory.wf s2.mem = true := by grind [State.l1Reads_mem, State.l1Atomic_mem]
          have hc : Memory.wf c.1.mem = true := by
            unfold c
            split
            · exact State.wf_commitTask (State.wf_hitLines _ _ _ (State.wf_hitVersion (State.wf_hitMates h2)))
            · exact h2
          clear_value c pass tr s2 flaws
          split
          case isTrue => exact h
          case isFalse =>
            split
            case h_1 => exact State.wf_raiseTrap hf
            case h_2 =>
              generalize happ : applyPlaces p m wide _ _ _ c.1 = w
              cases w with
              | none => exact State.wf_raiseTrap h2
              | some w =>
                obtain ⟨s3, olds⟩ := w
                have h3 := State.wf_foldl (fun s a => s.watch (accessor p x.pc false) a.loc true true a.va m.bytes a.lane)
                  (fun _ _ hs => State.wf_watch hs) r.accs s3 (wf_applyPlaces hc happ)
                dsimp only
                generalize r.accs.foldl _ s3 = s4 at h3 ⊢
                split
                case isTrue =>
                  generalize he : endChunk s4 p t 1 _ x.point c.2 = e
                  have hend : e.Canonical := he ▸ canonical_endChunk h3
                  cases e with
                  | go u t' => exact (congrArg Memory.wf (State.setTeam_mem _ _ _)).trans hend
                  | hold => exact h2
                  | diverge => exact hend
                case isFalse => exact (congrArg Memory.wf (State.setTeam_mem _ _ _)).trans h3

/-! ## Packets: memory kept canonical -/

theorem canonical_execSubmissionWrite {value : Word64} : (execSubmissionWrite ctx value s).Canonical := by
  unfold execSubmissionWrite
  grind [State.raise_mem, State.modCtx_mem, Out.Canonical]

theorem State.wf_readPacket {p : Incoming} : Memory.wf (s.readPacket c p).1.mem = true := by
  unfold State.readPacket
  grind [State.wf_feGet, State.packetRead_mem]

theorem wf_takePackets {q tail : Nat} : Memory.wf (takePackets c q tail n s).mem = true := by
  fun_induction takePackets <;> grind [State.modCtx_mem, State.wf_readPacket]

theorem canonical_execMailboxEntryConsume : (execMailboxEntryConsume ctx s).Canonical := by
  unfold execMailboxEntryConsume
  grind [State.modCtx_mem, wf_takePackets, Out.Canonical]

theorem State.wf_reject {p : Incoming} {bs : List Byte} : Memory.wf (s.reject c p bs).mem = true := by
  unfold State.reject
  grind [State.modCtx_mem, State.wf_frontEndRecord]

theorem State.wf_acceptSimple : Memory.wf (s.acceptSimple c seq kind).mem = true := by
  unfold State.acceptSimple
  grind [State.wf_readPacket, State.modCtx_mem, State.wf_reject, State.takeIncoming_mem, State.accept_mem]

theorem State.wf_acceptLaunch {p : Incoming} {bs : List Byte} : Memory.wf (s.acceptLaunch c p bs).mem = true := by
  unfold State.acceptLaunch
  grind [State.modCtx_mem, State.takeIncoming_mem, State.wf_reject, State.wf_feGet, State.accept_mem]

theorem canonical_execLaunchPacket : (execLaunchPacket ctx s).Canonical := by
  unfold execLaunchPacket
  grind [State.wf_readPacket, State.takeIncoming_mem, State.wf_reject, State.modCtx_mem, State.wf_acceptLaunch, Out.Canonical]

theorem canonical_execPacketStart : (execPacketStart ctx seq s).Canonical := by
  unfold execPacketStart
  grind [State.modPacket_mem, State.beginLaunch_mem, Out.Canonical]

theorem State.wf_finishPacket {x : Packet} : Memory.wf (s.finishPacket c seq x).mem = true := by
  unfold State.finishPacket
  grind [State.modPacket_mem, State.wf_completeWord]

theorem wf_copyBytes : Memory.wf (copyBytes c seq n s).mem = true := by
  fun_induction copyBytes <;> grind [State.modPacket_mem, State.wf_feGet, State.wf_fePut]

theorem canonical_execCopyPacket : (execCopyPacket ctx seq n s).Canonical := by
  unfold execCopyPacket
  grind [State.wf_acceptSimple, wf_copyBytes, State.wf_finishPacket, Out.Canonical]

theorem canonical_execDrainPacket : (execDrainPacket ctx seq s).Canonical := by
  unfold execDrainPacket
  grind [State.wf_acceptSimple, State.wf_finishPacket, Out.Canonical]

theorem State.wf_setLevel {v : Level} : Memory.wf (s.setLevel c v).mem = true := by
  unfold State.setLevel
  grind [State.wf_note, State.modCtx_mem]

theorem canonical_execDeterminismLevelPacket : (execDeterminismLevelPacket ctx seq s).Canonical := by
  unfold execDeterminismLevelPacket
  grind [State.wf_acceptSimple, State.wf_finishPacket, State.wf_setLevel, State.modPacket_mem, Out.Canonical]

theorem canonical_execPrologueRun : (execPrologueRun ctx seq s).Canonical := by
  unfold execPrologueRun
  grind [State.modCtx_mem, State.modPacket_mem, State.failPacket_mem, State.wf_frontEndRecord, State.beginLaunch_mem, Out.Canonical]

theorem canonical_execPrologueLimitExpiry : (execPrologueLimitExpiry ctx s).Canonical := by
  unfold execPrologueLimitExpiry
  grind [State.endPrologue_mem, State.wf_prologueRecord, Out.Canonical]

/-! ## Registers: memory kept canonical -/

theorem State.wf_newRing : Memory.wf s.newRing.mem = true := by
  unfold State.newRing
  grind [State.wf_writeLogHeader]

theorem canonical_execRegisterWrite {offset width : Nat} {value : Word64} : (execRegisterWrite offset width value s).Canonical := by
  unfold execRegisterWrite
  grind [State.pageErr_mem, State.setReg_mem, State.wf_newRing, State.crossing_mem, State.judgePower_mem, State.modSteward_mem,
    Out.Canonical]

/-! ## Transactions: memory kept canonical -/

theorem canonical_txbRes {dev : Bool} : (txbRes dev s p t).Canonical := by
  unfold txbRes
  grind [State.modTask_mem, Res.Canonical]

theorem canonical_txeRes {pd d : Nat} : (txeRes hd pd d s t).Canonical := by
  unfold txeRes
  split
  · exact h
  split
  · exact h
  · exact h

/-! ## Events of a transaction: memory kept canonical -/

theorem wf_validateLane {l : Nat} {x : Tx} : Memory.wf (validateLane s p l t x).mem = true := by
  unfold validateLane
  grind [State.setTeam_mem]

theorem State.wf_commitLane {dev : Bool} {x : LaneTx} (hs : s.commitLane p dev x = some s') : Memory.wf s'.mem = true := by
  refine wf_foldl_bind (fun e s s' h hs => ?_) h hs
  grind [State.wf_versionWrite, State.wf_writeScratch]

theorem State.wf_commitLanes {x : Tx} {ls : List Nat} (hs : s.commitLanes p x ls = some s') : Memory.wf s'.mem = true := by
  induction ls generalizing s with
  | nil => cases hs; exact h
  | cons l ls ih =>
    obtain ⟨u, hu, hs⟩ := Option.bind_eq_some_iff.mp hs
    exact ih (State.wf_commitLane h hu) hs

theorem canonical_txRecords {x : Tx} {stamp : Option Nat} {gs : List Nat} : (txRecords p x stamp gs s t).Canonical := by
  induction gs generalizing s t with
  | nil => exact h
  | cons g gs ih =>
    unfold txRecords
    grind [RecRes.Canonical, canonical_endChunk]

theorem State.wf_watchLane {pc : Word64} {dev : Bool} {x : LaneTx} {l : Nat} : Memory.wf (s.watchLane p pc dev x l).mem = true := by
  unfold State.watchLane
  grind [State.wf_watchAt, State.wf_foldl]

theorem State.wf_frozenTx : Memory.wf (s.frozenTx p).mem = true := by
  unfold State.frozenTx
  grind [State.wf_frozenOver]

theorem canonical_finishTxe {x : Tx} {pd d : Nat} : (finishTxe s p t x pd d seq).Canonical := by
  unfold finishTxe
  grind [State.wf_commitLanes, State.wf_raiseTrap, State.freeTx_mem, State.wf_watchLane, State.wf_commitTask, State.wf_hitVersion,
    State.wf_hitMates, State.drawStamp_mem, canonical_txRecords, State.setTeam_mem, State.wf_settle, State.wf_frozenTx, State.wf_foldl,
    Out.Canonical, RecRes.Canonical]

theorem canonical_execTxValidation {task : Option Nat} {lane : Nat} : (execTxValidation task ord lane s).Canonical := by
  unfold execTxValidation
  grind [canonical_finishTxe, wf_validateLane, Out.Canonical]

theorem canonical_execTicketGrant {dev : Bool} : (execTicketGrant dev task s).Canonical := by
  unfold execTicketGrant
  grind [State.setTask_mem, Out.Canonical]

/-! ## The package: memory kept canonical -/

theorem canonical_execTinvsRead : (execTinvsRead s).Canonical := by
  unfold execTinvsRead
  grind [State.returns_mem, Out.Canonical]

theorem canonical_execLapseRead : (execLapseRead s).Canonical := by
  unfold execLapseRead
  grind [State.returns_mem, Out.Canonical]

theorem canonical_execDstatRead : (execDstatRead s).Canonical := by
  unfold execDstatRead
  grind [State.returns_mem, Out.Canonical]

theorem canonical_execCstatRead : (execCstatRead ctx s).Canonical := by
  unfold execCstatRead
  grind [State.modCtx_mem, State.returns_mem, Out.Canonical]

theorem canonical_execMbstatRead : (execMbstatRead ctx s).Canonical := by
  unfold execMbstatRead
  grind [State.modCtx_mem, State.returns_mem, Out.Canonical]

theorem canonical_execReplaceRequested {part : DiePart} : (execReplaceRequested part s).Canonical := by
  unfold execReplaceRequested
  grind [State.replaceDie_mem, State.setUnit_mem, Out.Canonical]

theorem canonical_execLeaseRenew {agent : Nat} : (execLeaseRenew agent s).Canonical := by
  unfold execLeaseRenew
  grind [Out.Canonical]

theorem State.wf_lapseLease {x : Lease} : Memory.wf (s.lapseLease x).mem = true := by
  unfold State.lapseLease
  grind [State.wf_poke, State.raiseDevice_mem, State.wf_loseTask, State.wf_foldl]

theorem canonical_execLeaseExpiry {agent : Nat} : (execLeaseExpiry agent s).Canonical := by
  unfold execLeaseExpiry
  grind [State.wf_lapseLease, State.shrink_mem, State.replaceDie_mem, State.modCore_mem, State.wf_foldl, Out.Canonical]

theorem canonical_execRegionMerge {base size : Nat} : (execRegionMerge base size s).Canonical := by
  unfold execRegionMerge
  grind [Out.Canonical]

theorem canonical_execLeaseClockWrap : (execLeaseClockWrap s).Canonical := by
  unfold execLeaseClockWrap
  grind [State.l1Drop_mem, State.wf_cutChunk, State.wf_note, State.wf_foldl, Out.Canonical]

theorem State.wf_outsideWrite {pa : Nat} {data : List Byte} : Memory.wf (s.outsideWrite pa data).mem = true := by
  unfold State.outsideWrite
  grind [State.wf_commitBytes]

theorem canonical_execCodeGenerationRaise {code : Word64} : (execCodeGenerationRaise ctx code s).Canonical := by
  unfold execCodeGenerationRaise
  grind [State.wf_outsideWrite, State.wf_foldl, Out.Canonical]

theorem canonical_execTinvContext {value : Word64} : (execTinvContext value s).Canonical := by
  unfold execTinvContext
  grind [State.tinv_mem, Out.Canonical]

theorem canonical_execTinvPage {value : Word64} : (execTinvPage value s).Canonical := by
  unfold execTinvPage
  grind [State.tinv_mem, Out.Canonical]

theorem canonical_execTinvAll {value : Word64} : (execTinvAll value s).Canonical := by
  unfold execTinvAll
  grind [State.tinv_mem, Out.Canonical]

theorem canonical_execTinvGstage {value : Word64} : (execTinvGstage value s).Canonical := by
  unfold execTinvGstage
  grind [State.tinv_mem, Out.Canonical]

theorem canonical_execInvalidationComplete : (execInvalidationComplete s).Canonical := by
  unfold execInvalidationComplete
  grind [State.raise_mem, State.wf_foldl, Out.Canonical]

theorem State.wf_drainRings : Memory.wf s.drainRings.mem = true := by
  unfold State.drainRings
  grind [State.wf_drainFaults, State.wf_drainSvc, State.wf_foldl]

theorem canonical_execBiasFlip {value : Word64} : (execBiasFlip value s).Canonical := by
  unfold execBiasFlip
  grind [State.setDevErr_mem, State.setReg_mem, Out.Canonical]

theorem canonical_execBiasFlipDone : (execBiasFlipDone s).Canonical := by
  unfold execBiasFlipDone
  grind [State.l1Drop_mem, State.wf_drainRings, State.setReg_mem, Out.Canonical]

theorem canonical_execReplicaMark {value : Word64} : (execReplicaMark n value s).Canonical := by
  unfold execReplicaMark
  grind [State.setDevErr_mem, State.setReg_mem, Out.Canonical]

theorem canonical_execReplicaUnmark {value : Word64} : (execReplicaUnmark n value s).Canonical := by
  unfold execReplicaUnmark
  grind [State.setDevErr_mem, State.setReg_mem, Out.Canonical]

theorem canonical_execReplicaBusyClear : (execReplicaBusyClear n s).Canonical := by
  unfold execReplicaBusyClear
  grind [Out.Canonical, Memory.wf_copyRange, State.wf_drainRings, State.setReg_mem, State.cleanse_mem]

theorem State.wf_stopLocked {watts : Nat} : Memory.wf (s.stopLocked watts).mem = true := by
  unfold State.stopLocked
  grind [State.wf_raiseTrap, State.wf_foldl]

theorem canonical_execPowerLimitExceeded {watts : BitVec 12} : (execPowerLimitExceeded watts s).Canonical := by
  unfold execPowerLimitExceeded
  grind [State.crossing_mem, State.judgePower_mem, State.wf_stopLocked, Out.Canonical]

theorem canonical_execClockStep {up : Bool} : (execClockStep up s).Canonical := by
  unfold execClockStep
  grind [Out.Canonical]

theorem canonical_execPowerMonitorTrip {die : Nat} {watts : BitVec 12} : (execPowerMonitorTrip die watts s).Canonical := by
  unfold execPowerMonitorTrip
  grind [State.wf_stopLocked, Out.Canonical]

theorem canonical_execPwrnowCrossedPwrlim {watts : BitVec 12} : (execPwrnowCrossedPwrlim watts s).Canonical := by
  unfold execPwrnowCrossedPwrlim
  grind [State.crossing_mem, State.judgePower_mem, Out.Canonical]

omit h in
theorem canonical_execDeviceReset {flash ed mld : Bool} : (execDeviceReset flash ed mld s).Canonical := by
  unfold execDeviceReset
  grind [Memory.wf_reset, Out.Canonical]

theorem canonical_execRecoveryImageLoad {ed mld : Bool} : (execRecoveryImageLoad ed mld s).Canonical := by
  unfold execRecoveryImageLoad
  grind [Out.Canonical]

theorem canonical_execCoreRetire {phys : Nat} : (execCoreRetire phys s).Canonical := by
  unfold execCoreRetire
  grind [State.setUnit_mem, State.modCore_mem, State.wf_foldl, Out.Canonical]

theorem canonical_execSpareRemap : (execSpareRemap core s).Canonical := by
  unfold execSpareRemap
  grind [State.modSteward_mem, State.modCore_mem, State.shrink_mem, State.replaceDie_mem, State.setUnit_mem, Out.Canonical]

/-! ## The IOMMU: memory kept canonical -/

theorem wf_ioCommands : Memory.wf (ioCommands port n s).mem = true := by
  fun_induction ioCommands <;> grind [State.ioFlag_mem, State.setIo_mem, State.wf_outsideWrite]

theorem State.wf_ioWriteWord {off v : Nat} : Memory.wf (s.ioWriteWord port off v).mem = true := by
  have hset (v : Nat) : Memory.wf (s.setIo port off v).mem = true := by rwa [State.setIo_mem]
  have hqueue (a b : Nat) : Memory.wf (s.ioQueue port a b v).mem = true := by rwa [State.ioQueue_mem]
  unfold State.ioWriteWord
  refine wf_ite (hset _) (wf_ite (hset _) (wf_ite (hset _) (wf_ite (wf_ioCommands (hset _)) ?_)))
  exact wf_ite (hset _) (wf_ite (hset _) (wf_ite (hqueue _ _) (wf_ite (hqueue _ _) (wf_ite (hqueue _ _)
    (wf_ite (hset _) (wf_ite (hset _) h))))))

theorem State.wf_ioStore {off : Nat} {data : List Byte} : Memory.wf (s.ioStore port off data).mem = true := by
  unfold State.ioStore
  grind [State.wf_ioWriteWord]

theorem State.wf_ioFault {did cause iova : Nat} {write : Bool} : Memory.wf (s.ioFault port did cause iova write).mem = true := by
  unfold State.ioFault
  grind [State.ioFlag_mem, State.setIo_mem, State.wf_outsideWrite]

theorem State.wf_peerAccess {addr : Nat} {write : Bool} (hs : s.peerAccess addr n write = .error s') : Memory.wf s'.mem = true := by
  unfold State.peerAccess at hs
  grind [State.wf_ioFault]

/-! ## Placement: memory kept canonical -/

theorem wf_findEntry {ordinal run : Nat} {r : Retry} {n1 : Nat} {ns : List Nat} :
    Memory.wf (findEntry c g ordinal run r n n1 ns s).1.mem = true := by
  fun_induction findEntry <;> grind [State.wf_feGet]

theorem State.wf_choreoOf {x : Grid} {r : Retry} : Memory.wf (s.choreoOf g x r).1.mem = true := by
  unfold State.choreoOf
  grind [wf_findEntry]

theorem State.wf_noteChoreo {x : Grid} {r : Retry} {base : Nat} {entry : Option Nat} :
    Memory.wf (s.noteChoreo g x r core base entry).1.mem = true := by
  unfold State.noteChoreo
  grind [State.modCtx_mem, State.breakChoreo_mem, State.wf_fePut]

theorem State.wf_noteDispatch {ordinal index base : Nat} : Memory.wf (s.noteDispatch tid ordinal index base).mem = true := by
  unfold State.noteDispatch
  grind [State.wf_note, State.wf_foldl]

theorem State.wf_start {x : Grid} {r : Retry} {base frame : Nat} {slots : List (Nat × Nat)} :
    Memory.wf (s.start g x r tid core base frame slots).mem = true := by
  unfold State.start
  grind [State.wf_spillTeam, State.setTask_mem, State.wf_addAnchor, State.setCreg_mem, State.wf_stopNew, State.wf_noteDispatch,
    State.setGrid_mem, State.wf_foldl]

theorem wf_placeAll {allowed : Nat → Bool} {xs : List Retry} {x x1 : Option Nat} (hs : placeAll g allowed xs x x1 s = some s') :
    Memory.wf s'.mem = true := by
  fun_induction placeAll <;> grind [State.wf_start]

theorem State.wf_placeNext {x : Grid} {rs : List Retry} {frame : Option Nat} (hs : s.placeNext g x rs tid frame = some s') :
    Memory.wf s'.mem = true := by
  unfold State.placeNext at hs
  split at hs
  · cases hs
  · obtain ⟨_, _, hs⟩ := List.exists_of_findSome?_eq_some hs
    exact wf_placeAll h hs

theorem wf_boundPlaces {x : Grid} {xs : List Retry} : Memory.wf (boundPlaces g x xs s).1.mem = true := by
  fun_induction boundPlaces <;> grind [State.wf_choreoOf, State.wf_noteChoreo]

theorem wf_placeBound {xs : List (Retry × Nat × Nat)} {x x1 : Option Nat} (hs : placeBound g xs x x1 s = some s') :
    Memory.wf s'.mem = true := by
  fun_induction placeBound <;> grind [State.wf_start]

theorem wf_placeLogged {rs : List Retry} {id frame : Option Nat} (hs : placeLogged g rs id frame s = some s') :
    Memory.wf s'.mem = true := by
  fun_induction placeLogged <;> grind [State.wf_start, State.wf_foldl, State.wf_metRecord]

omit h in
/-- The choreography entries of the tasks placed, as long as each finds room. -/
theorem wf_foldl_noteChoreo {grid : Nat} {x : Grid} {placed : List (Nat × Task)} {a : State × Bool} (h : Memory.wf a.1.mem = true) :
    Memory.wf (placed.foldl (fun a e => if a.2 then a.1.noteChoreo grid x { index := e.2.index, retries := e.2.retries }
      e.2.core e.2.base none else a) a).1.mem = true :=
  List.foldlRecOn (motive := fun a : State × Bool => Memory.wf a.1.mem = true) placed _ h fun a ha e _ => by
    grind [State.wf_noteChoreo]

theorem canonical_execCohortPlace {grid frame : Nat} : (execCohortPlace grid task frame s).Canonical := by
  unfold execCohortPlace
  split
  case h_1 => exact h
  case h_2 x _ =>
    split
    case isTrue => exact h
    case isFalse =>
      split
      case h_1 => exact h
      case h_2 =>
        split
        · exact wf_getD h fun _ hs => wf_placeLogged h hs
        split
        · grind [Out.Canonical, wf_getD, wf_boundPlaces, wf_placeBound, State.modCtx_mem, State.breakChoreo_mem]
        split
        · exact h
        split
        · exact h
        case h_2 s' hplace =>
          dsimp only
          split
          · exact wf_foldl_noteChoreo (State.wf_placeNext h hplace)
          · exact wf_foldl_noteChoreo (a := (s, true)) h

theorem canonical_execPendingLaunchHandoff : (execPendingLaunchHandoff core s).Canonical := by
  unfold execPendingLaunchHandoff
  grind [State.wf_afterRun, State.giveOrdinal_mem, State.modGrid_mem, Out.Canonical]

theorem canonical_execPlacementWaitExpiry {grid : Nat} : (execPlacementWaitExpiry grid s).Canonical := by
  have hset (x : Grid) : Memory.wf (s.setGrid grid x).mem = true := by rwa [State.setGrid_mem]
  unfold execPlacementWaitExpiry
  split
  · exact h
  split
  · exact h
  split
  · exact hset _
  split
  · exact hset _
  · exact h

theorem canonical_execClusterModeChange {cluster : Nat} : (execClusterModeChange cluster s).Canonical := by
  unfold execClusterModeChange
  grind [State.flipMode_mem, State.setCluster_mem, Out.Canonical]

theorem State.wf_swapLogged {k : Task} (hs : s.swapLogged tid k = some s') : Memory.wf s'.mem = true := by
  unfold State.swapLogged at hs
  split at hs
  · cases hs
  · refine wf_foldl_bind (fun f s s' h hs => ?_) h hs
    grind [RecRes.Canonical, canonical_endChunk, State.setTeam_mem]

theorem canonical_execSwapOut : (execSwapOut task s).Canonical := by
  unfold execSwapOut
  grind [State.wf_swapLogged, State.away_mem, State.wf_frameScratch, State.wf_saveTeam, State.wf_cutChunk, State.wf_foldl, Out.Canonical]

theorem State.wf_comeBack {k : Task} {base : Nat} {slots : List (Nat × Nat)} : Memory.wf (s.comeBack tid k base slots).mem = true := by
  unfold State.comeBack
  grind [State.setTask_mem, State.wf_stopNew, State.loadTeam_mem, State.wf_foldl]

theorem canonical_execSwapReturn : (execSwapReturn task s).Canonical := by
  unfold execSwapReturn
  grind [State.wf_noteChoreo, State.wf_noteDispatch, State.wf_comeBack, State.wf_metRecord, State.wf_choreoOf, State.breakChoreo_mem,
    State.wf_foldl, Out.Canonical]

/-! ## The recorder: memory kept canonical -/

theorem canonical_execSnapshotTake {value : Word} : (execSnapshotTake value s).Canonical := by
  unfold execSnapshotTake
  grind [State.setDevErr_mem, State.modCtx_mem, State.setSnap_mem, Out.Canonical]

theorem canonical_execSnapshotAnchorDone {frameList : Word64} : (execSnapshotAnchorDone frameList s).Canonical := by
  unfold execSnapshotAnchorDone
  grind [State.wf_frameScratch, State.wf_saveLive, State.wf_cutChunk, State.wf_poke, State.wf_addAnchor, State.wf_flushCtx, State.raise_mem,
    State.setSnap_mem, State.wf_foldl, Out.Canonical]

theorem canonical_execSnapshotResume {value : Word} : (execSnapshotResume value s).Canonical := by
  unfold execSnapshotResume
  grind [State.setDevErr_mem, State.modCtx_mem, State.setSnap_mem, Out.Canonical]

theorem canonical_execReplayGo {value : Word64} : (execReplayGo value s).Canonical := by
  have hended (r : Replay) : Memory.wf (if s.replay.state = 2 then State.writeHeld { s with replay := r } else s).mem = true := by
    split
    · exact State.wf_writeHeld _ h
    · exact h
  have hset {s : State} (v : Word64) (hs : Memory.wf s.mem = true) : Out.Canonical (.next (s.setReg rRPCTL v)) := by
    rwa [Out.Canonical, State.setReg_mem]
  unfold execReplayGo
  dsimp only
  split
  · exact h
  split
  · rwa [Out.Canonical, State.setDevErr_mem]
  split
  · exact hset _ h
  split
  · exact hset _ h
  split
  · rw [Out.Canonical, State.setDevErr_mem]
    exact hset _ (hended _)
  · refine hset _ ?_
    dsimp only
    split <;> split <;> simp [hended]

theorem canonical_execReplayBreakpoint : (execReplayBreakpoint s).Canonical := by
  unfold execReplayBreakpoint
  grind [State.wf_flushCtx, Out.Canonical]

/-! ## Inputs: memory kept canonical -/

theorem canonical_execMeridianLinkLoss : (execMeridianLinkLoss port s).Canonical := by
  unfold execMeridianLinkLoss
  grind [Out.Canonical]

theorem State.wf_arrive {m : Message} : Memory.wf (s.arrive m).1.mem = true := by
  unfold State.arrive
  grind [wf_deliverHeld, State.wf_deliver]

theorem wf_deliverLogged : Memory.wf (deliverLogged n s).mem = true := by
  fun_induction deliverLogged <;> grind [State.wf_diverged, State.wf_metRecord, State.wf_deliver]

theorem State.wf_replayArrivals : Memory.wf s.replayArrivals.mem = true := by
  unfold State.replayArrivals
  grind [wf_deliverLogged, wf_deliverHeld]

theorem canonical_execMessageArrival {mbox srcDev srcCtx epoch : Nat} {body : List Byte} :
    (execMessageArrival mbox srcDev srcCtx epoch seq body s).Canonical := by
  unfold execMessageArrival
  grind [State.arriveLogged_mem, State.wf_arrive, Out.Canonical]

theorem canonical_execMailboxBind {mbox : Nat} {value : Word} : (execMailboxBind mbox value s).Canonical := by
  unfold execMailboxBind
  grind [State.setDevErr_mem, State.setReg_mem, wf_deliverHeld, Out.Canonical]

theorem canonical_execRouteEntryWrite {entry : Nat} {value : Word} : (execRouteEntryWrite ctx entry value s).Canonical := by
  unfold execRouteEntryWrite
  grind [State.setCtxErr_mem, State.setCreg_mem, State.modCtx_mem, Out.Canonical]

theorem canonical_execFrtailWrite {value : Word} : (execFrtailWrite ctx value s).Canonical := by
  unfold execFrtailWrite
  grind [State.setCreg_mem, State.wf_drainFaults, Out.Canonical]

theorem canonical_execSrtailWrite {value : Word} : (execSrtailWrite ctx value s).Canonical := by
  unfold execSrtailWrite
  grind [State.setCreg_mem, State.wf_drainSvc, Out.Canonical]

theorem canonical_execFollowerHeartbeat {die : Nat} : (execFollowerHeartbeat die s).Canonical := by
  unfold execFollowerHeartbeat
  grind [State.modSteward_mem, Out.Canonical]

theorem canonical_execLeaderLeaseRenew : (execLeaderLeaseRenew s).Canonical := by
  unfold execLeaderLeaseRenew
  grind [State.judgePower_mem, State.modSteward_mem, Out.Canonical]

theorem canonical_execLeaderLeaseLapse : (execLeaderLeaseLapse s).Canonical := by
  unfold execLeaderLeaseLapse
  grind [State.judgePower_mem, State.modSteward_mem, Out.Canonical]

theorem State.wf_writeAnswer {status result : Nat} : Memory.wf (s.writeAnswer c status result).mem = true := by
  unfold State.writeAnswer
  grind [State.wf_fePut, State.nextRequest_mem, State.raise_mem]

theorem State.wf_finishRequest {status result : Nat} {act : State → State}
    (hact : ∀ s, Memory.wf s.mem = true → Memory.wf (act s).mem = true) : Memory.wf (s.finishRequest c status result act).mem = true := by
  unfold State.finishRequest
  refine State.wf_writeAnswer ?_
  rw [State.modCtx_mem]
  exact hact s h

theorem State.canonical_serve {act : State → Out} (hact : ∀ s, Memory.wf s.mem = true → (act s).Canonical) : (s.serve c act).Canonical := by
  unfold State.serve
  grind [Out.Canonical, State.wf_writeAnswer]

theorem State.wf_readRequest : Memory.wf (s.readRequest c).1.mem = true := by
  have hget (s s' : State) (hs : Memory.wf s.mem = true) (n va len : Nat) (r : Fe (List Byte))
      (e : s.feGet c 5 n va len = (s', r)) : Memory.wf s'.mem = true := by
    simpa [e] using State.wf_feGet (c := c) (what := 5) (n := n) (va := va) (len := len) hs
  unfold State.readRequest
  dsimp only
  split
  case h_1 e => exact hget _ _ h _ _ _ _ e
  case h_2 e => exact (congrArg Memory.wf State.nextRequest_mem).trans (hget _ _ h _ _ _ _ e)
  case h_3 e =>
    have h := hget _ _ h _ _ _ _ e
    split
    case isTrue => exact h
    case isFalse =>
      split
      case h_1 =>
        split
        all_goals
          split
          · exact h
          split
          case h_1 e => exact hget _ _ h _ _ _ _ e
          case h_2 e => exact (congrArg Memory.wf State.nextRequest_mem).trans (hget _ _ h _ _ _ _ e)
          case h_3 e => exact hget _ _ h _ _ _ _ e
      all_goals exact h

theorem canonical_execOpenCollectiveGroup : (execOpenCollectiveGroup ctx s).Canonical := by
  unfold execOpenCollectiveGroup
  grind [State.canonical_serve, State.wf_readRequest, State.modCtx_mem, State.wf_finishRequest, Out.Canonical]

theorem canonical_execGroupOpenTimeout : (execGroupOpenTimeout ctx s).Canonical := by
  refine State.canonical_serve h fun s hs => ?_
  split
  · exact hs
  · split
    · exact State.wf_finishRequest hs fun s h => by rwa [State.modCtx_mem]
    · exact hs

theorem canonical_execCloseCollectiveGroup : (execCloseCollectiveGroup ctx s).Canonical := by
  unfold execCloseCollectiveGroup
  grind [State.canonical_serve, State.wf_readRequest, State.wf_finishRequest, State.modCtx_mem, Out.Canonical]

theorem canonical_execStepTeamRequest : (execStepTeamRequest ctx s).Canonical := by
  unfold execStepTeamRequest
  grind [State.canonical_serve, State.modCtx_mem, State.wf_finishRequest, State.wf_stepExpires, State.wf_readRequest, State.wf_beginStep,
    Out.Canonical]

theorem canonical_execStewardRequestReject : (execStewardRequestReject ctx s).Canonical := by
  unfold execStewardRequestReject
  grind [State.canonical_serve, State.wf_readRequest, State.wf_finishRequest, Out.Canonical]

theorem canonical_execNotifyWrite {value : Word} : (execNotifyWrite ctx n value s).Canonical := by
  unfold execNotifyWrite
  grind [State.notifyTo_mem, Out.Canonical]

theorem canonical_execNotifyLatchDeliver : (execNotifyLatchDeliver s).Canonical := by
  unfold execNotifyLatchDeliver
  grind [State.notifyTo_mem, Out.Canonical]

theorem canonical_execNotifyApertureGate : (execNotifyApertureGate s).Canonical := by
  unfold execNotifyApertureGate
  grind [Out.Canonical]

theorem canonical_execPcieLinkTrain {flit : Bool} : (execPcieLinkTrain port flit s).Canonical := by
  unfold execPcieLinkTrain
  grind [Out.Canonical]

theorem State.wf_peerStore {xs : List (Nat × List Byte)} : Memory.wf (s.peerStore xs).mem = true := by
  fun_induction State.peerStore <;> grind [State.wf_outsideWrite]

theorem canonical_execPeerWrite {addr : Nat} {data : List Byte} : (execPeerWrite addr data s).Canonical := by
  unfold execPeerWrite
  grind [State.wf_peerAccess, State.wf_peerStore, Out.Canonical]

theorem canonical_execPeerRead {addr : Nat} : (execPeerRead addr n s).Canonical := by
  unfold execPeerRead
  grind [State.wf_peerAccess, State.recall_mem, State.wf_foldl, Out.Canonical]

theorem canonical_execAppCoreStore {agent addr : Nat} {data : List Byte} : (execAppCoreStore agent addr data s).Canonical := by
  unfold execAppCoreStore
  grind [State.wf_ioStore, State.cacheStore_mem, State.wf_outsideWrite, Out.Canonical]

/-! ## Loads and stores: memory kept canonical -/

theorem canonical_ldargRes {d a : Nat} : (ldargRes d a n s p t).Canonical := by
  unfold ldargRes
  grind [Res.Canonical]

theorem State.wf_hintAddr {va : Word64} : Memory.wf (s.hintAddr p va).1.mem = true := by
  unfold State.hintAddr
  grind [State.wf_fillTlb, State.wf_xlatNow, State.wf_walk]

theorem canonical_hintLines {f : State → Nat → State} {a : Nat} {ls : List Nat}
    (hf : ∀ s n, Memory.wf s.mem = true → Memory.wf (f s n).mem = true) : (hintLines f a p t ls s).Canonical := by
  induction ls generalizing s with
  | nil => exact h
  | cons l ls ih =>
    unfold hintLines
    grind [Res.Canonical, State.wf_hintAddr]

theorem canonical_execPref {a : BitVec 7} {l : BitVec 3} : (execPref hd a l s).Canonical := by
  refine canonical_issue h fun s p t hs => ?_
  split
  · exact canonical_hintLines hs fun s n h => by rwa [State.l1Access_mem]
  · exact hs

theorem canonical_execCctl {a : BitVec 7} {l : BitVec 3} : (execCctl hd a l s).Canonical := by
  refine canonical_issue h fun s p t hs => ?_
  split
  · exact canonical_hintLines hs fun s n h => by rwa [State.l1Evict_mem]
  · exact hs

/-! ## Plates: memory kept canonical -/

theorem wf_readSource {code : Word64} {ns : List Nat} : Memory.wf (readSource c code ns s).1.mem = true := by
  fun_induction readSource <;> grind [State.wf_xlatNow, State.recall_mem]

theorem State.wf_sourceWords {code : Word64} : Memory.wf (s.sourceWords c code).1.mem = true := by
  unfold State.sourceWords
  grind [wf_readSource]

theorem State.wf_engraveGrid {x : Grid} {src : List Nat} {offset : Nat} : Memory.wf (s.engraveGrid g x src offset).mem = true := by
  unfold State.engraveGrid
  grind [State.runSource_mem, State.runPlate_mem, State.evictPlates_mem, State.wf_poke]

theorem canonical_execPlateBuild {offset : Nat} : (execPlateBuild g offset s).Canonical := by
  unfold execPlateBuild
  grind [State.runSource_mem, State.wf_sourceWords, State.wf_engraveGrid, Out.Canonical]

/-! ## Instructions: memory kept canonical -/

theorem canonical_exec : Out.Canonical (exec i s) := by
  unfold exec
  cases i
  case nop | jmov | jget | msetLo | msetFl | msetHi | mget | tile | rdlane | jset | movi | movhi | iaddi | mov | popc | clz | ctz | brev
      | pand | por | pxor | pnot | pset | pget | iadd | isub | imul | imulh | andB | orB | xorB | andnB | shl | shr | sar | rot | bfx
      | bfi | sel | lea | add64 | sub64 | shl64 | shr64 | icmp | ucmp | addT | subT | mulT | minT | maxT | divT | dot | fcmp |
      classify | absT | negT | sqrt | rcp | rsq | exp2 | log2 | sinpi | cospi | mkabs | fma | fmaN | cvt | cvtmx | cvtmxH16 | cvtmxH32
      | pack | unpack | voteAny | voteAll | voteBallot | voteUni | tred | scan | matchLanes | elect | cntp | shfl | txa =>
    exact canonical_issueTeam h
  case ldB32 | ldB64 | stB32 | stB64 | ldsB32 | stsB32 | ldAcqB32 | ldScB32 | ldAcqB64 | ldScB64 | ldsAcq | ldsSc | stRelB32 | stScB32 |
      stRelB64 | stScB64 | stsRel | stsSc | ldB8 | ldB16 | ldS8 | ldS16 | stB8 | stB16 | ldsB8 | ldsB16 | ldsS8 | ldsS16 | stsB8 |
      stsB16 | ldsB64 | stsB64 | ldkB32 | ldkB64 | stkB32 | stkB64 | ldr | str | atomScratchpad | atomRlx | atomAcq | atomRel | atomAr
      | atomSc | mredAdd | mredAddRel | mredFadd | mredFaddRel =>
    exact canonical_issue h fun _ _ _ hs => canonical_memOp hs
  case ldargB8 | ldargB16 | ldargB32 | ldargB64 => exact canonical_issue h fun _ _ _ hs => canonical_ldargRes hs
  case sreg | csrr | probe => exact canonical_issue h fun _ _ _ hs => hs
  case illegalOp => exact canonical_issue h fun _ _ _ _ => trivial
  case trap | lbrk | mput | wait | leadN | qpushVal | csrw | pcnt =>
    refine canonical_issue h fun _ _ _ hs => ?_
    grind [Res.Canonical, State.pushLead_mem, State.writeCsr_mem, canonical_clockRes]
  case lset | lsetImm => exact canonical_issue h fun _ _ _ hs => canonical_openLoop hs
  case fence => exact canonical_issue h fun _ _ _ hs => canonical_fenceRes hs
  case vcommit => exact canonical_issue h fun _ _ _ hs => canonical_holdCommit hs
  case park => exact canonical_issue h fun _ _ _ hs => canonical_parkRes hs
  case bararr | barwait => exact canonical_issue h fun _ _ _ hs => canonical_barRes hs
  case gbar => exact canonical_issue h fun _ _ _ hs => canonical_gbarRes hs
  case txbCoh | txbDev => exact canonical_issue h fun _ _ _ hs => canonical_txbRes hs
  case txe => exact canonical_issue h fun _ _ _ hs => canonical_txeRes hs
  case obres => exact canonical_issue h fun _ _ _ hs => canonical_obresRes hs
  case obset => exact canonical_issue h fun _ _ _ hs => canonical_obsetRes hs
  case obrel => exact canonical_issue h fun _ _ _ hs => canonical_obrelRes hs
  case qpushLd => exact canonical_issue h fun _ _ _ hs => canonical_qpushLdRes hs
  case qpushOb => exact canonical_issue h fun _ _ _ hs => canonical_qpushObRes hs
  case qpop => exact canonical_issue h fun _ _ _ hs => canonical_qpopRes hs
  case launch => exact canonical_issue h fun _ _ _ hs => canonical_launchRes hs
  case msend => exact canonical_issue h fun _ _ _ hs => canonical_msendRes hs
  case mrecv => exact canonical_issue h fun _ _ _ hs => canonical_mrecvRes hs
  case mmz | smx | sexp | srsc => exact canonical_issue h fun _ _ _ hs => canonical_matrixWord hs
  case mld => exact canonical_issue h fun _ _ _ hs => canonical_mldRes hs
  case mma | mmaTile => exact canonical_issue h fun _ _ _ hs => canonical_mmaRes hs
  case sysReq => exact canonical_issue h fun _ _ _ hs => canonical_sysRes hs
  case rdclk | rdtime => exact canonical_issue h fun _ _ _ hs => canonical_clockRes hs
  case pref => exact canonical_execPref h
  case cctl => exact canonical_execCctl h
  case tcopy => exact canonical_execTcopy h
  case chain => exact canonical_execChain h
  case coll => exact canonical_execColl h
  case mres => exact canonical_execMres h
  case mrel => exact canonical_execMrel h
  case mdrain => exact canonical_execMdrain h
  case mark => exact canonical_execMark h
  case dstep => exact canonical_execDstep h
  case halt => exact canonical_execHalt h
  case loadResultWrite => exact canonical_execLoadResultWrite h
  case storePerformed => exact canonical_execStorePerformed h
  case atomicRequestExecute => exact canonical_execAtomicRequestExecute h
  case commit => exact canonical_execCommit h
  case txValidation => exact canonical_execTxValidation h
  case ticketGrant => exact canonical_execTicketGrant h
  case parkReread => exact canonical_execParkReread h
  case yieldResume => exact canonical_execYieldResume h
  case haltWake => exact canonical_execHaltWake h
  case registerLineFill => exact canonical_execRegisterLineFill h
  case registerLineWriteback => exact canonical_execRegisterLineWriteback h
  case tlbWalkEnd => exact canonical_execTlbWalkEnd h
  case leadFetchComplete => exact canonical_execLeadFetchComplete h
  case obRecordGrant => exact canonical_execObRecordGrant h
  case tileGrant => exact canonical_execTileGrant h
  case matrixArrayTake => exact canonical_execMatrixArrayTake h
  case matrixWordComplete => exact canonical_execMatrixWordComplete h
  case engineOperationRun => exact canonical_execEngineOperationRun h
  case engineCompletion => exact canonical_execEngineCompletion h
  case collectiveCombine => exact canonical_execCollectiveCombine h
  case pendingLaunchHandoff => exact canonical_execPendingLaunchHandoff h
  case messageArrival => exact canonical_execMessageArrival h
  case meridianLinkLoss => exact canonical_execMeridianLinkLoss h
  case submissionWrite => exact canonical_execSubmissionWrite h
  case mailboxEntryConsume => exact canonical_execMailboxEntryConsume h
  case launchPacket => exact canonical_execLaunchPacket h
  case copyPacket => exact canonical_execCopyPacket h
  case drainPacket => exact canonical_execDrainPacket h
  case determinismLevelPacket => exact canonical_execDeterminismLevelPacket h
  case packetStart => exact canonical_execPacketStart h
  case prologueRun => exact canonical_execPrologueRun h
  case prologueLimitExpiry => exact canonical_execPrologueLimitExpiry h
  case runStart => exact canonical_execRunStart h
  case plateBuild => exact canonical_execPlateBuild h
  case cohortPlace => exact canonical_execCohortPlace h
  case teamSlotRelease => exact canonical_execTeamSlotRelease h
  case cohortEnd => exact canonical_execCohortEnd h
  case phaseCheckClose => exact canonical_execPhaseCheckClose h
  case gridCompletion => exact canonical_execGridCompletion h
  case faddTreeApply => exact canonical_execFaddTreeApply h
  case swapOut => exact canonical_execSwapOut h
  case swapReturn => exact canonical_execSwapReturn h
  case clusterModeChange => exact canonical_execClusterModeChange h
  case placementWaitExpiry => exact canonical_execPlacementWaitExpiry h
  case taskFail => exact canonical_execTaskFail h
  case codeGenerationRaise => exact canonical_execCodeGenerationRaise h
  case chunkSignatureHit => exact canonical_execChunkSignatureHit h
  case chunkCountExpiry => exact canonical_execChunkCountExpiry h
  case snapshotTake => exact canonical_execSnapshotTake h
  case snapshotAnchorDone => exact canonical_execSnapshotAnchorDone h
  case snapshotResume => exact canonical_execSnapshotResume h
  case replayGo => exact canonical_execReplayGo h
  case replayBreakpoint => exact canonical_execReplayBreakpoint h
  case clusterStop => exact canonical_execClusterStop h
  case clstopReq => exact canonical_execClstopReq h
  case clstopRel => exact canonical_execClstopRel h
  case dstepTimeout => exact canonical_execDstepTimeout h
  case pfresRetry => exact canonical_execPfresRetry h
  case pfresFail => exact canonical_execPfresFail h
  case preemptGo => exact canonical_execPreemptGo h
  case preemptResume => exact canonical_execPreemptResume h
  case preemptDeadline => exact canonical_execPreemptDeadline h
  case contextReset => exact canonical_execContextReset h
  case leaseRenew => exact canonical_execLeaseRenew h
  case leaseExpiry => exact canonical_execLeaseExpiry h
  case regionMerge => exact canonical_execRegionMerge h
  case leaseClockWrap => exact canonical_execLeaseClockWrap h
  case tinvContext => exact canonical_execTinvContext h
  case tinvPage => exact canonical_execTinvPage h
  case tinvAll => exact canonical_execTinvAll h
  case tinvGstage => exact canonical_execTinvGstage h
  case invalidationComplete => exact canonical_execInvalidationComplete h
  case tinvsRead => exact canonical_execTinvsRead h
  case biasFlip => exact canonical_execBiasFlip h
  case biasFlipDone => exact canonical_execBiasFlipDone h
  case replicaMark => exact canonical_execReplicaMark h
  case replicaUnmark => exact canonical_execReplicaUnmark h
  case replicaBusyClear => exact canonical_execReplicaBusyClear h
  case lapseRead => exact canonical_execLapseRead h
  case dstatRead => exact canonical_execDstatRead h
  case cstatRead => exact canonical_execCstatRead h
  case mbstatRead => exact canonical_execMbstatRead h
  case mailboxBind => exact canonical_execMailboxBind h
  case routeEntryWrite => exact canonical_execRouteEntryWrite h
  case frtailWrite => exact canonical_execFrtailWrite h
  case srtailWrite => exact canonical_execSrtailWrite h
  case openCollectiveGroup => exact canonical_execOpenCollectiveGroup h
  case closeCollectiveGroup => exact canonical_execCloseCollectiveGroup h
  case stepTeamRequest => exact canonical_execStepTeamRequest h
  case groupOpenTimeout => exact canonical_execGroupOpenTimeout h
  case leaderLeaseRenew => exact canonical_execLeaderLeaseRenew h
  case leaderLeaseLapse => exact canonical_execLeaderLeaseLapse h
  case powerLimitExceeded => exact canonical_execPowerLimitExceeded h
  case clockStep => exact canonical_execClockStep h
  case powerMonitorTrip => exact canonical_execPowerMonitorTrip h
  case deviceReset => exact canonical_execDeviceReset
  case recoveryImageLoad => exact canonical_execRecoveryImageLoad h
  case coreRetire => exact canonical_execCoreRetire h
  case spareRemap => exact canonical_execSpareRemap h
  case notifyWrite => exact canonical_execNotifyWrite h
  case notifyLatchDeliver => exact canonical_execNotifyLatchDeliver h
  case peerWrite => exact canonical_execPeerWrite h
  case peerRead => exact canonical_execPeerRead h
  case pcieLinkTrain => exact canonical_execPcieLinkTrain h
  case appCoreStore => exact canonical_execAppCoreStore h
  case registerWrite => exact canonical_execRegisterWrite h
  case replaceRequested => exact canonical_execReplaceRequested h
  case followerHeartbeat => exact canonical_execFollowerHeartbeat h
  case notifyApertureGate => exact canonical_execNotifyApertureGate h
  case pwrnowCrossedPwrlim => exact canonical_execPwrnowCrossedPwrlim h
  case stewardRequestReject => exact canonical_execStewardRequestReject h

/-! ## Turns: memory kept canonical -/

theorem State.wf_fetchAddr : Memory.wf (s.fetchAddr p t).1.mem = true := by
  unfold State.fetchAddr
  grind [State.wf_xlatNow]

omit h in
theorem canonical_clearCur {o : Out} (h : o.Canonical) : (clearCur o).Canonical := by
  cases o <;> exact h

theorem State.wf_reinject {r : LogRec} : Memory.wf (s.reinject p r).mem = true := by
  unfold State.reinject
  grind [State.wf_freezeTeam, State.modCluster_mem]

theorem State.wf_meet {r : LogRec} : Memory.wf (s.meet p t r).mem = true := by
  unfold State.meet
  grind [canonical_endChunk, State.wf_reinject, State.setTeam_mem, RecRes.Canonical]

theorem State.wf_injectFault : Memory.wf (s.injectFault p t).mem = true := by
  unfold State.injectFault
  grind [State.wf_queueFault]

theorem State.wf_meetFault (h1 : Memory.wf s'.mem = true) : Memory.wf (s.meetFault s' p t).mem = true := by
  unfold State.meetFault
  grind [State.wf_meet, State.wf_injectFault]

omit h in
theorem State.canonical_noteBegun {pa : Nat} {o : Out} (h : o.Canonical) : (s.noteBegun p i t pa o).Canonical := by
  unfold State.noteBegun
  grind [Out.Canonical, State.noteLines_mem, State.noteFetch_mem]

theorem canonical_fetchWord : (fetchWord s p t).Canonical := by
  unfold fetchWord
  grind [State.wf_fetchAddr, State.canonical_noteBegun, canonical_clearCur, canonical_exec, State.setTeam_mem, State.wf_raiseTrap,
    Out.Canonical]

theorem State.wf_prelude : Memory.wf (s.prelude p).mem = true := by
  unfold State.prelude
  grind [State.wf_settle, State.setTeam_mem, State.wf_meet, State.wf_loseTask, State.wf_raiseTrap, State.wf_diverged]

theorem canonical_issueWord : (issueWord s p).Canonical := by
  unfold issueWord
  grind [canonical_fetchWord, State.wf_meetFault, Out.Canonical]

theorem canonical_runWord : (runWord s p).Canonical := by
  unfold runWord
  grind [canonical_issueWord, State.wf_prelude]

theorem State.wf_joinWait : Memory.wf (s.joinWait p).mem = true := by
  unfold State.joinWait
  grind [canonical_issueWord, Out.Canonical]

omit h in
theorem canonical_occupy {before : State} {unit : Nat} {o : Out} (h : o.Canonical) : (occupy before core unit p o).Canonical := by
  cases o <;> exact h

theorem canonical_startTeam {part : Nat} {ready : List (Nat × Nat × Task × Team)} {x : Nat × Nat × Task × Team} :
    (startTeam s core part ready x).Canonical := by
  unfold startTeam
  grind [canonical_occupy, canonical_issueWord, State.markStart_mem]

theorem State.wf_beforeStart {part : Nat} : Memory.wf (s.beforeStart core part).mem = true := by
  unfold State.beforeStart
  grind [State.wf_prelude, State.wf_joinWait, State.wf_foldl]

theorem canonical_runPartition {part : Nat} : (runPartition s core part).Canonical := by
  have hstart (s : State) (hs : Memory.wf s.mem = true) (ready : List (Nat × Nat × Task × Team)) (o : Out)
      (e : (pick s core part ready).map (startTeam s core part ready) = some o) : o.Canonical := by
    obtain ⟨x, -, rfl⟩ := Option.map_eq_some_iff.mp e
    exact canonical_startTeam hs
  have hbefore := State.wf_beforeStart (core := core) (part := part) h
  unfold runPartition
  grind [Out.Canonical, State.endTurns_mem]

theorem canonical_runLead : (runLead s core).Canonical := by
  unfold runLead
  grind [State.wf_joinWait, State.wf_prelude, canonical_occupy, canonical_issueWord, State.modCore_mem, State.wf_foldl, Out.Canonical]

theorem State.wf_countIdle {before : State} {clocks : Nat} : Memory.wf (before.countIdle s clocks).mem = true := by
  unfold State.countIdle
  grind [State.setTeam_mem, State.wf_foldl]

theorem State.wf_countWaits {before : State} {clocks : Nat} : Memory.wf (before.countWaits s clocks).mem = true := by
  unfold State.countWaits
  grind [State.addCount_mem, State.wf_foldl]

theorem State.wf_dropAges : Memory.wf s.dropAges.mem = true := by
  unfold State.dropAges
  grind [State.setTeam_mem, State.wf_foldl]

theorem State.wf_passTime {clocks : Nat} : Memory.wf (s.passTime clocks).mem = true := by
  unfold State.passTime
  grind

theorem State.wf_meetReleased : Memory.wf s.meetReleased.mem = true := by
  unfold State.meetReleased
  grind [State.wf_prelude, State.wf_foldl]

theorem State.wf_advance {turn : Turn} {before : State} : Memory.wf (State.advance turn before s).mem = true := by
  unfold State.advance
  grind [State.wf_passTime, State.wf_meetReleased, State.wf_replayArrivals, State.wf_flushClocks, State.wf_dropAges, State.wf_countWaits,
    State.wf_countIdle]

omit h in
theorem canonical_advanceOut {turn : Turn} {before : State} {o : Out} (h : o.Canonical) : (advanceOut turn before o).Canonical := by
  unfold advanceOut
  grind [Out.Canonical, State.wf_advance]

theorem canonical_runPart {lane : Nat} : (runPart s i lane).Canonical := by
  unfold runPart
  grind [canonical_exec, Out.Canonical]

theorem canonical_runUp {x : Turn} : (runUp s x).Canonical := by
  unfold runUp
  grind [canonical_runPartition, canonical_runLead, canonical_runWord, canonical_exec, canonical_runPart, State.acceptedAbroad_mem,
    State.appCoreLoad_mem, State.readOutside_mem, State.modSteward_mem, Out.Canonical]

theorem canonical_runTurn {t : Turn} : (runTurn s t).Canonical := by
  unfold runTurn
  grind [Out.Canonical, canonical_runUp, canonical_exec]

/-! ## The step: memory kept canonical -/

theorem canonical_step : Out.Canonical (step s) := by
  unfold step
  grind [State.nextMove_mem, canonical_advanceOut, canonical_runTurn]

end MemoryCanonical

/-- Settles O59: every turn ends in a state that one of the lemmas above is about. -/
theorem stepsKeepMemoryCanonical : Obligations.StepsKeepMemoryCanonical := by
  unfold Obligations.StepsKeepMemoryCanonical
  intro s s' h e
  have hstep : Out.Canonical (step s) := canonical_step h
  rwa [e] at hstep

end Sys2Proof.Machine
end
